-- ==== Sys2Proof/Syntax.lean ====
section
/-! DEFINITION. The commands of the block: `Instr`, one constructor per row of the opcode table, with the row's operands.
A command is a register access, an event on a pin or a link, an instant that has come, or an instruction that one of the
block's own sequencers issues with its decoded fields. -/

namespace Sys2Proof

/-- A move field of the D slot (R55): none, a load into `s`, or a store of `s`, through pointer `ptr` of its bus, with the
pointer post-modified by `m(mod)` when `u` holds. -/
inductive Move where
  | none
  | load (s : Fin 32) (ptr : Fin 8) (mod : Fin 8) (u : Bool)
  | store (s : Fin 32) (ptr : Fin 8) (mod : Fin 8) (u : Bool)
  deriving DecidableEq, Repr

/-- The engine classes with a descriptor ring (R186): EQ engines, LDPC decoders and encoders, polar codecs. -/
inductive HardClass where
  | eq
  | dec
  | enc
  | pol
  deriving DecidableEq, Repr

/-- The header fields and payload of an Apsis flit (R285), its type apart; `len` is len − 1. -/
structure Flit where
  seq : BitVec 10
  ack : BitVec 10
  crd : Fin 64
  crdvc : Fin 4
  dst : Fin 8
  src : Fin 8
  len : BitVec 8
  tag : BitVec 8
  addr : BitVec 40
  payload : List (BitVec 8)
  deriving DecidableEq, Repr

/-- What the FEC of a port reports of the codewords of a frame (R316): the lane of the port, in the order of its mask, whose errors it corrected, and
the codewords corrected and not correctable. -/
structure FecReport where
  lane : Fin 8
  corr : BitVec 32
  unc : BitVec 32
  deriving DecidableEq, Repr

/-- A time-transfer record (R291), in 2^-16 ns. -/
structure TimeRec where
  reply : Bool
  t2 : Int
  t3 : Int
  cf1 : Int
  cf2 : Int
  deriving DecidableEq, Repr

/-- Who makes an access by software or from outside (R284, R350, R353, R377, R384): a hart; PCIe traffic through BAR0, through BAR2, to the
configuration space or to the MSI-X table of the endpoint; a device that signals an MSI vector to the root port; JTAG; the I3C port of the power
manager. -/
inductive Requester where
  | hart (h : Fin 8)
  | bar0
  | bar2
  | config
  | msix
  | msi (v : Fin 64)
  | jtag
  | i3c
  deriving DecidableEq, Repr

/-- The function of an atomic memory operation of RISC-V. -/
inductive AmoFun where
  | swap
  | add
  | xor
  | and
  | or
  | min
  | max
  | minu
  | maxu
  deriving DecidableEq, Repr

/-- What is asked of an address (R348 to R351). Register `rd` below 32 is x[rd], from 32 on f[rd - 32]; `failed` says that the PCIe link completes a
request with UR or CRS (R381). Requesters other than harts only load and store. Every hart's access is made by an instruction that it has fetched:
`fetch` is the fetch of the next one, and the operations without an address are those that change what its later accesses may do. -/
inductive AccessOp where
  | load (signed : Bool) (rd : Fin 64) (failed : Bool)
  | store
  | fetch
  | amo (f : AmoFun) (rd : Fin 32)
  | lr (rd : Fin 32)
  | sc (rd : Fin 32)
  | cboClean
  | cboFlush
  | cboInval
  | cboZero
  | fence
  | csr (n : BitVec 12) (write : Bool) (rd : Fin 32)
  | mret
  | sret
  deriving DecidableEq, Repr

/-- Who makes an access, and the address that it names. -/
structure Target where
  src : Requester
  addr : BitVec 64
  deriving DecidableEq, Repr

/-- What an access asks: the operation, log2 of its bytes, and the data of a write. -/
structure Asked where
  op : AccessOp
  size : Fin 4
  data : BitVec 64
  deriving DecidableEq, Repr

/-- A number below `n` of a command that moves data over the network-on-chip; `perr` says that a flit of them fails its parity (R316). -/
structure Carried (n : Nat) where
  val : Fin n
  perr : Bool
  deriving DecidableEq, Repr

/-- An LDPC decoder that decodes, and its memories that had a parity error (R209). -/
structure Decoding where
  u : Fin 6
  perr : BitVec 4
  deriving DecidableEq, Repr

/-- A timestamp of NT: seconds, and quarters of a nanosecond below one. -/
structure Stamp where
  sec : BitVec 48
  qns : Fin 4000000000
  deriving DecidableEq, Repr

/-- A unit of a pool (R301): a logical unit, or a spare by its physical unit. -/
inductive PoolUnit where
  | logical (u : Fin 256)
  | spare (p : Fin 256)
  deriving DecidableEq, Repr

/-- What the power manager reads beside the temperatures (R331): the power of each sensor's region, the current of each domain, and the input power. -/
structure PowerReading where
  region : List (BitVec 16)
  iout : List (BitVec 12)
  pin : BitVec 16
  deriving DecidableEq, Repr

/-- The caches of a hart and the L3 that the harts share (R349). -/
inductive CacheLevel where
  | l1i
  | l1d
  | l2
  | l3
  deriving DecidableEq, Repr

/-- What meets an uncorrectable cache error (R355). -/
inductive EccUse where
  | load
  | fetch
  | writeBack
  deriving DecidableEq, Repr

/-- The fields of a D slot beside its opcode (R55). -/
structure DSlot where
  d : Fin 8
  sa : Fin 32
  sb : Fin 32
  src3 : Bool
  x : Move
  y : Move
  deriving DecidableEq, Repr

/-- The fields of a VV slot beside its opcode (R57, R81); `n` is N − 1. -/
structure VVec where
  vd : Fin 32
  va : Fin 32
  vb : Fin 32
  k : Fin 8
  km : Bool
  ty : Fin 8
  n : Fin 4096
  deriving DecidableEq, Repr

/-- The fields of a VM slot beside its opcode (R57, R84); `n` is N − 1. -/
structure VMem where
  v : Fin 32
  p : Fin 16
  m : Fin 8
  sz : Bool
  k : Fin 8
  ty : Fin 8
  n : Fin 4096
  deriving DecidableEq, Repr

/-- The fields of a VF slot (R57, R94); `n` is N − 1. -/
structure VChain where
  vd : Fin 32
  va : Fin 32
  vb : Fin 32
  k : Fin 8
  chain : BitVec 8
  n : Fin 4096
  deriving DecidableEq, Repr

/-- The fields of a VX slot beside its opcode (R57, R109). -/
structure VMat where
  ma : Fin 4
  mb : Fin 4
  vd : Fin 32
  fmt : Fin 16
  sel : Fin 8
  cnt : BitVec 12
  deriving DecidableEq, Repr

/-- The commands of the block: one constructor per row of the opcode table. -/
inductive Instr where
  /-- REGISTER_WRITE (R3): A software write to a register field that has no behaviour of its own stores, sets or clears bits according to its access code. -/
  | registerWrite (tgt : Target) (size : Fin 4) (data : BitVec 64)
  /-- UNMAPPED_ACCESS (R384): An access to a reserved block or empty offset reads 0, has no write effect, and sets SYS_CAUSE.unmapped with SYS_BADA. -/
  | unmappedAccess (tgt : Target) (what : Asked)
  /-- SNAP (R23): A write of TMB_SNAP.snap copies NT, TMB_MONO and all eight air-tick counts, all from one ck, into the snapshot registers. -/
  | snap
  /-- PHERR_WRITE (R28): A write of TMB_PHERR with phase_src = 0 is one phase update of the servo. -/
  | pherrWrite (theta : BitVec 48)
  /-- PPS_IN_EDGE (R29): A PPS_IN edge is timestamped, corrected by CAL_E_PPS_IN_LAT and carried into FCK; with phase_src = 1 it is a phase update, and it is lost with pps_ovr when the crossing is busy. -/
  | ppsInEdge (sec : BitVec 48) (qns : Fin 4000000000)
  /-- FREQUENCY_LOOP_MEASUREMENT (R28): Every 1 ms of NT the frequency loop measures reference cycles against N_nom and updates y_f. -/
  | frequencyLoopMeasurement (meas : Nat) (nom : Nat)
  /-- WATCHDOG_EXPIRY (R31): When TMB_WDOG.ms × 2,200,000 ck pass without a phase update while servo_en = 1, the time base enters holdover. -/
  | watchdogExpiry
  /-- HO_FORCE (R31): A write of TMB_CTL.ho_force = 1 while servo_en = 1 forces holdover, freezing I, y_f and TMB_NT_INC. -/
  | hoForce
  /-- SERVO_EN_WRITE (R32): A write of servo_en = 0 returns TMB_NT_INC to nominal and ends any holdover, and a write of 1 resumes the servo from the frozen I and y_f. -/
  | servoEnWrite (v : Bool)
  /-- FREQUENCY_SOURCE_LOST (R33): Loss of the frequency source sets freq_lost and freezes y_f. -/
  | frequencySourceLost
  /-- FREQUENCY_SOURCE_RETURN (R33): When the frequency source returns, y_f resumes from its frozen value. -/
  | frequencySourceReturn
  /-- PHASE_STEP (R35): A write of TMB_STEP adds the step to NT at the next ck and moves every enabled air timeline. -/
  | phaseStep (step : BitVec 48)
  /-- TIMELINE_ENABLE (R26): A write of TMB_ATn_CFG.en starts or stops a timeline; a started timeline appears already in progress at the count of R24. -/
  | timelineEnable (n : Fin 8) (dup ecp : Bool) (mu : Fin 4) (en : Bool)
  /-- TIMELINE_OFFSET_WRITE (R26): A write of TMB_ATn_OFF moves the timeline from the next ck. -/
  | timelineOffsetWrite (n : Fin 8) (off : BitVec 33)
  /-- EPOCH_WRITE (R26): A write of TMB_EPOCH moves every enabled timeline from the next ck. -/
  | epochWrite (sec : BitVec 48)
  /-- PPSO_WRITE (R406): A write of TMB_PPSO enables or disables PPS_OUT or changes its width, effective from the next pulse. -/
  | ppsoWrite (width : BitVec 8) (en : Bool)
  /-- PPS_OUT_RISE (R406): PPS_OUT rises when NT crosses a whole second, less CAL_E_PPS_OUT_LAT. -/
  | ppsOutRise
  /-- PPS_OUT_FALL (R406): PPS_OUT falls when the programmed width expires. -/
  | ppsOutFall
  /-- ENGINE_START (R43): A write of ORR_ENGn_CTL.run = 1 while the engine is halted starts it at word 0 of the selected bank, and the SEC hashes the bank. -/
  | engineStart (n : Fin 8) (tl : Fin 8) (bank : Fin 2)
  /-- ENGINE_STOP_WRITE (R43): A write of run = 0 halts the engine at once; launched actions complete. -/
  | engineStopWrite (n : Fin 8) (tl : Fin 8) (bank : Fin 2)
  /-- TIMETABLE_BANK_WRITE (R43): A write to a timetable word; a write to the running bank is ignored and sets wr_active. -/
  | timetableBankWrite (n : Fin 8) (b : Fin 2) (i : Fin 2048) (w : BitVec 64)
  /-- ORR_NOP (R41): Timetable NOP does nothing. -/
  | orrNop (n : Fin 8)
  /-- ORR_HALT (R41): Timetable HALT halts the engine and clears run. -/
  | orrHalt (n : Fin 8)
  /-- JMP (R41): JMP continues at a word of the current bank. -/
  | jmp (n : Fin 8) (addr : Fin 2048)
  /-- WAITA (R41): WAITA opens a group with an absolute instant. -/
  | waita (n : Fin 8) (t : BitVec 33)
  /-- WAITR (R41): WAITR opens a group with instant ta + t. -/
  | waitr (n : Fin 8) (ta : Fin 4) (t : BitVec 33)
  /-- SETT (R41): SETT loads a time register. -/
  | sett (n : Fin 8) (ta : Fin 4) (t : BitVec 33)
  /-- ADDT (R41): ADDT adds to a time register with wrap. -/
  | addt (n : Fin 8) (ta : Fin 4) (t : BitVec 33)
  /-- NEXTF (R41): NEXTF sets ta to the first frame start at least 8,192 at after the decode. -/
  | nextf (n : Fin 8) (ta : Fin 4)
  /-- EVERY (R41): EVERY repeats the next len words, advancing ta by period after each run. -/
  | every (n : Fin 8) (ta : Fin 4) (len : BitVec 8) (count : BitVec 16) (period : BitVec 26)
  /-- CONJ (R46): CONJ releases the CONJ line and waits in the barrier for the exit instant T_s. -/
  | conj (n : Fin 8) (id : BitVec 8)
  /-- SWAP (R41): SWAP waits for a frame boundary and continues at word 0 of the other bank. -/
  | swap (n : Fin 8)
  /-- ORR_RESERVED_OPCODE (R42): A reserved opcode, a fifth EVERY level or a SWAP to an invalid bank executes as HALT and sets bad_op. -/
  | orrReservedOpcode (n : Fin 8)
  /-- GROUP_LAUNCH (R38): When a group's instant is reached, its actions launch in sets of 8 from the next ck. -/
  | groupLaunch (n : Fin 8)
  /-- ISSUE (R41): ISSUE issues a job table entry as a tile event, hard-engine pointer, DMA queue start or job descriptor. -/
  | issue (n : Fin 8) (j : BitVec 10) (d : BitVec 32)
  /-- SCAN (R44): SCAN reads a submission ring header once and dispatches up to n descriptors. -/
  | scan (n : Fin 8) (r : BitVec 8) (most : BitVec 8)
  /-- IDLE (R41): IDLE marks a window idle for the units of an idle set. -/
  | idle (n : Fin 8) (set : BitVec 8) (len : BitVec 24)
  /-- AGCF (R175): AGCF freezes or releases the AGC of a chain group. -/
  | agcf (n : Fin 8) (g : BitVec 8) (f : Bool)
  /-- NFSNAP (R177): NFSNAP copies each chain's noise-floor sum and count into DFE_RXc_NF and clears the meter. -/
  | nfsnap (n : Fin 8) (g : BitVec 8)
  /-- SIG (R41): SIG sets an ORR_SIG bit. -/
  | sig (n : Fin 8) (k : Fin 32)
  /-- EVENT_DELIVERY (R40): An event reaches its tile event flag or hard-engine queue 14 ck plus its launch delay after its instant. -/
  | eventDelivery
  /-- DESCRIPTOR_DELIVERY (R45): A scanned descriptor reaches its target queue at t_s + 54 + 12i ck, and cons is written after the last one. -/
  | descriptorDelivery (n : Fin 8)
  /-- CONJ_LINE_HIGH (R46): The leader sees CONJ high, takes T_s = at_now + lead and sends START to each follower. -/
  | conjLineHigh (n : Fin 8)
  /-- CONJUNCTION_TIMEOUT (R47): An engine in the barrier for longer than tmo ms halts and sets ORR_CONJ_STAT.tmo. -/
  | conjunctionTimeout (n : Fin 8)
  /-- TILE_START (R409): A write of TIL_CTL.run from 0 to 1 starts the core at TIL_ENTRY, or at the saved pc for a resume. -/
  | tileStart (t : Fin 64) (resume : Bool)
  /-- TILE_HALT_WRITE (R409): A write of TIL_CTL.run = 0 halts the tile at once and discards issued bundles. -/
  | tileHaltWrite (t : Fin 64)
  /-- YREQ_WRITE (R250): Setting TIL_CTL.yreq requests a stop at the next YIELD, or at a WAITE on a clear flag, at LDEPTH = 0. -/
  | yreqWrite (t : Fin 64) (v : Bool)
  /-- TIL_EVS_WRITE (R74): A write of 1 to TIL_EVS sets an event flag, with evf_ovr if it was already set. -/
  | tilEvsWrite (t : Fin 64) (f : BitVec 32)
  /-- TILE_STOP (R409): After a HALT, a YIELD stop or a fault, the issued bundles and queued V-slot operations complete and then run clears and TIL_STAT.state is set. -/
  | tileStop (t : Fin 64)
  /-- INTERRUPT (R75): At an interrupt point with an enabled flag set, the core sets IRA, clears ie, sets inh and enters the handler at TIL_VEC. -/
  | interrupt (t : Fin 64)
  /-- NOP (R53): S-slot NOP does nothing. -/
  | nop (t : Fin 64)
  /-- ADD (R53): S-slot ADD: sd = sa + sb. -/
  | add (t : Fin 64) (sd sa sb : Fin 32)
  /-- SUB (R53): S-slot SUB: sd = sa − sb. -/
  | sub (t : Fin 64) (sd sa sb : Fin 32)
  /-- AND (R53): S-slot AND: sd = sa AND sb. -/
  | and (t : Fin 64) (sd sa sb : Fin 32)
  /-- OR (R53): S-slot OR: sd = sa OR sb. -/
  | or (t : Fin 64) (sd sa sb : Fin 32)
  /-- XOR (R53): S-slot XOR: sd = sa XOR sb. -/
  | xor (t : Fin 64) (sd sa sb : Fin 32)
  /-- SLL (R53): S-slot SLL: sd = sa shifted left by sb[4:0]. -/
  | sll (t : Fin 64) (sd sa sb : Fin 32)
  /-- SRL (R53): S-slot SRL: sd = sa shifted right logically by sb[4:0]. -/
  | srl (t : Fin 64) (sd sa sb : Fin 32)
  /-- SRA (R53): S-slot SRA: sd = sa shifted right arithmetically by sb[4:0]. -/
  | sra (t : Fin 64) (sd sa sb : Fin 32)
  /-- MUL (R53): S-slot MUL: sd = low 32 bits of the signed product. -/
  | mul (t : Fin 64) (sd sa sb : Fin 32)
  /-- MULH (R53): S-slot MULH: sd = high 32 bits of the signed product. -/
  | mulh (t : Fin 64) (sd sa sb : Fin 32)
  /-- SLT (R53): S-slot SLT: sd = 1 if sa < sb signed, else 0. -/
  | slt (t : Fin 64) (sd sa sb : Fin 32)
  /-- SLTU (R53): S-slot SLTU: sd = 1 if sa < sb unsigned, else 0. -/
  | sltu (t : Fin 64) (sd sa sb : Fin 32)
  /-- MIN (R53): S-slot MIN: sd = signed minimum of sa and sb. -/
  | min (t : Fin 64) (sd sa sb : Fin 32)
  /-- MAX (R53): S-slot MAX: sd = signed maximum of sa and sb. -/
  | max (t : Fin 64) (sd sa sb : Fin 32)
  /-- ADDI (R53): ADDI: sd = sa + sign-extended imm. -/
  | addi (t : Fin 64) (sd sa : Fin 32) (imm : BitVec 16)
  /-- ANDI (R53): ANDI: sd = sa AND zero-extended imm. -/
  | andi (t : Fin 64) (sd sa : Fin 32) (imm : BitVec 16)
  /-- ORI (R53): ORI: sd = sa OR zero-extended imm. -/
  | ori (t : Fin 64) (sd sa : Fin 32) (imm : BitVec 16)
  /-- XORI (R53): XORI: sd = sa XOR zero-extended imm. -/
  | xori (t : Fin 64) (sd sa : Fin 32) (imm : BitVec 16)
  /-- SLLI (R53): SLLI: sd = sa shifted left by imm[4:0]. -/
  | slli (t : Fin 64) (sd sa : Fin 32) (imm : BitVec 16)
  /-- SRLI (R53): SRLI: sd = sa shifted right logically by imm[4:0]. -/
  | srli (t : Fin 64) (sd sa : Fin 32) (imm : BitVec 16)
  /-- SRAI (R53): SRAI: sd = sa shifted right arithmetically by imm[4:0]. -/
  | srai (t : Fin 64) (sd sa : Fin 32) (imm : BitVec 16)
  /-- LUI (R53): LUI: sd = imm << 16. -/
  | lui (t : Fin 64) (sd sa : Fin 32) (imm : BitVec 16)
  /-- SLTI (R53): SLTI: sd = 1 if sa < sign-extended imm. -/
  | slti (t : Fin 64) (sd sa : Fin 32) (imm : BitVec 16)
  /-- LD (R53): LD loads a word from the scratchpad into s, with an optional pointer post-modify. -/
  | ld (t : Fin 64) (r : Fin 32) (p : Fin 16) (pm : Bool) (off : BitVec 16)
  /-- LDH (R53): LDH loads a signed halfword. -/
  | ldh (t : Fin 64) (r : Fin 32) (p : Fin 16) (pm : Bool) (off : BitVec 16)
  /-- LDHU (R53): LDHU loads an unsigned halfword. -/
  | ldhu (t : Fin 64) (r : Fin 32) (p : Fin 16) (pm : Bool) (off : BitVec 16)
  /-- LDB (R53): LDB loads a signed byte. -/
  | ldb (t : Fin 64) (r : Fin 32) (p : Fin 16) (pm : Bool) (off : BitVec 16)
  /-- LDBU (R53): LDBU loads an unsigned byte. -/
  | ldbu (t : Fin 64) (r : Fin 32) (p : Fin 16) (pm : Bool) (off : BitVec 16)
  /-- ST (R53): ST stores the 32 bits of s. -/
  | st (t : Fin 64) (r : Fin 32) (p : Fin 16) (pm : Bool) (off : BitVec 16)
  /-- STH (R53): STH stores the low 16 bits of s. -/
  | sth (t : Fin 64) (r : Fin 32) (p : Fin 16) (pm : Bool) (off : BitVec 16)
  /-- STB (R53): STB stores the low 8 bits of s. -/
  | stb (t : Fin 64) (r : Fin 32) (p : Fin 16) (pm : Bool) (off : BitVec 16)
  /-- MTC (R50): MTC writes a core control register from s. -/
  | mtc (t : Fin 64) (r : Fin 32) (creg : Fin 64)
  /-- MFC (R50): MFC reads a core control register into s. -/
  | mfc (t : Fin 64) (r : Fin 32) (creg : Fin 64)
  /-- B (R70): B branches when cond holds, after 3 delay slots. -/
  | b (t : Fin 64) (sa : Fin 32) (cond : Fin 8) (off : BitVec 18)
  /-- BL (R53): BL branches when cond holds and writes the return address to s31. -/
  | bl (t : Fin 64) (sa : Fin 32) (cond : Fin 8) (off : BitVec 18)
  /-- JR (R53): JR branches to the byte address in sa. -/
  | jr (t : Fin 64) (sa : Fin 32)
  /-- RETI (R75): RETI returns to IRA, setting ie = 1 and inh = 0. -/
  | reti (t : Fin 64)
  /-- EI (R53): EI sets CST.ie, seen by interrupt sampling one issue slot later. -/
  | ei (t : Fin 64)
  /-- DI (R53): DI clears CST.ie from the next boundary. -/
  | di (t : Fin 64)
  /-- DO (R71): DO pushes a loop level and repeats len bundles count times, faulting loop_ovf at a fifth level. -/
  | doLoop (t : Fin 64) (i : Bool) (len : Fin 512) (count : Fin 65536)
  /-- DOR (R71): DOR is DO with the count taken from sa. -/
  | dor (t : Fin 64) (i : Bool) (len : Fin 512) (sa : Fin 32)
  /-- RPT (R72): RPT issues the next bundle count times, uninterruptibly. -/
  | rpt (t : Fin 64) (count : Fin 65536)
  /-- RPTR (R72): RPTR is RPT with the count taken from sa. -/
  | rptr (t : Fin 64) (sa : Fin 32)
  /-- WAITE (R73): WAITE holds its bundle at D until event flag k is set, then executes it and optionally clears the flag. -/
  | waite (t : Fin 64) (k : Fin 32) (c : Bool)
  /-- YIELD (R73): YIELD acts as NOP unless yreq = 1 and LDEPTH = 0, in which case the tile stops with state 4. -/
  | yield (t : Fin 64)
  /-- WAITV (R73): WAITV waits until the vector and matrix queues are empty and their last operations have completed. -/
  | waitv (t : Fin 64)
  /-- HALT (R73): HALT ends the program, completes issued bundles, clears run and reports the job's end. -/
  | halt (t : Fin 64)
  /-- DNOP (R56): D-slot DNOP performs no operation; the moves still execute. -/
  | dnop (t : Fin 64) (f : DSlot)
  /-- MAC (R56): MAC: acc_d += a × c. -/
  | mac (t : Fin 64) (f : DSlot)
  /-- MSU (R56): MSU: acc_d −= a × c. -/
  | msu (t : Fin 64) (f : DSlot)
  /-- MPY (R56): MPY: acc_d = a × c. -/
  | mpy (t : Fin 64) (f : DSlot)
  /-- MACP (R56): MACP: acc_d += (a + b) × c. -/
  | macp (t : Fin 64) (f : DSlot)
  /-- MAC16 (R56): MAC16 accumulates two signed 16-bit products. -/
  | mac16 (t : Fin 64) (f : DSlot)
  /-- CMAC (R56): CMAC accumulates a complex product into an accumulator pair. -/
  | cmac (t : Fin 64) (f : DSlot)
  /-- CMACJ (R56): CMACJ accumulates a × conj(c) into an accumulator pair. -/
  | cmacj (t : Fin 64) (f : DSlot)
  /-- ACLR (R56): ACLR clears an accumulator. -/
  | aclr (t : Fin 64) (f : DSlot)
  /-- ASR (R56): ASR shifts an accumulator right arithmetically. -/
  | asr (t : Fin 64) (f : DSlot)
  /-- MVA (R56): MVA rounds and saturates an accumulator into a 32-bit scalar. -/
  | mva (t : Fin 64) (f : DSlot)
  /-- MVAH (R56): MVAH rounds and saturates an accumulator into a 16-bit scalar. -/
  | mvah (t : Fin 64) (f : DSlot)
  /-- MVS (R56): MVS loads an accumulator with a × 2^sh. -/
  | mvs (t : Fin 64) (f : DSlot)
  /-- ADDA (R56): ADDA adds a × 2^sh to an accumulator. -/
  | adda (t : Fin 64) (f : DSlot)
  /-- VMNOP (R84): VMNOP does nothing. -/
  | vmnop (t : Fin 64)
  /-- VLD (R84): VLD loads N elements into a register group. -/
  | vld (t : Fin 64) (f : VMem)
  /-- VST (R84): VST stores N elements of a register group. -/
  | vst (t : Fin 64) (f : VMem)
  /-- VLDS (R84): VLDS is a strided load. -/
  | vlds (t : Fin 64) (f : VMem)
  /-- VSTS (R84): VSTS is a strided store. -/
  | vsts (t : Fin 64) (f : VMem)
  /-- VADD (R86): VADD adds elements. -/
  | vadd (t : Fin 64) (f : VVec)
  /-- VSUB (R86): VSUB subtracts elements. -/
  | vsub (t : Fin 64) (f : VVec)
  /-- VMUL (R86): VMUL multiplies elements. -/
  | vmul (t : Fin 64) (f : VVec)
  /-- VMULH (R86): VMULH gives the high half of each product. -/
  | vmulh (t : Fin 64) (f : VVec)
  /-- VMIN (R86): VMIN takes the smaller element. -/
  | vmin (t : Fin 64) (f : VVec)
  /-- VMAX (R86): VMAX takes the larger element. -/
  | vmax (t : Fin 64) (f : VVec)
  /-- VABS (R86): VABS takes the absolute value. -/
  | vabs (t : Fin 64) (f : VVec)
  /-- VNEG (R86): VNEG negates elements. -/
  | vneg (t : Fin 64) (f : VVec)
  /-- VADDS (R86): VADDS is a saturating add. -/
  | vadds (t : Fin 64) (f : VVec)
  /-- VSUBS (R86): VSUBS is a saturating subtract. -/
  | vsubs (t : Fin 64) (f : VVec)
  /-- VAND (R86): VAND is a bitwise AND. -/
  | vand (t : Fin 64) (f : VVec)
  /-- VOR (R86): VOR is a bitwise OR. -/
  | vor (t : Fin 64) (f : VVec)
  /-- VXOR (R86): VXOR is a bitwise XOR. -/
  | vxor (t : Fin 64) (f : VVec)
  /-- VSLL (R86): VSLL shifts left. -/
  | vsll (t : Fin 64) (f : VVec)
  /-- VSRL (R86): VSRL shifts right logically. -/
  | vsrl (t : Fin 64) (f : VVec)
  /-- VSRA (R86): VSRA shifts right arithmetically. -/
  | vsra (t : Fin 64) (f : VVec)
  /-- VMAC (R86): VMAC: d = d + a × b. -/
  | vmac (t : Fin 64) (f : VVec)
  /-- VCMUL (R86): VCMUL is a rounded, saturated complex multiply. -/
  | vcmul (t : Fin 64) (f : VVec)
  /-- VCMULJ (R86): VCMULJ multiplies by the conjugate. -/
  | vcmulj (t : Fin 64) (f : VVec)
  /-- VSEL (R86): VSEL selects a or b per mask bit. -/
  | vsel (t : Fin 64) (f : VVec)
  /-- VMOV (R86): VMOV copies elements. -/
  | vmov (t : Fin 64) (f : VVec)
  /-- VCEQ (R86): VCEQ writes all ones where a = b. -/
  | vceq (t : Fin 64) (f : VVec)
  /-- VCLT (R86): VCLT writes all ones where a < b. -/
  | vclt (t : Fin 64) (f : VVec)
  /-- VCLE (R86): VCLE writes all ones where a ≤ b. -/
  | vcle (t : Fin 64) (f : VVec)
  /-- VMEQ (R86): VMEQ writes a mask register from a = b. -/
  | vmeq (t : Fin 64) (f : VVec)
  /-- VMLT (R86): VMLT writes a mask register from a < b. -/
  | vmlt (t : Fin 64) (f : VVec)
  /-- VMLE (R86): VMLE writes a mask register from a ≤ b. -/
  | vmle (t : Fin 64) (f : VVec)
  /-- VCVT (R86): VCVT converts elements between types. -/
  | vcvt (t : Fin 64) (f : VVec)
  /-- VPK_GN4 (R89): VPK.GN4 packs f32 elements into GN4 codes, counting saturations. -/
  | vpkGn4 (t : Fin 64) (f : VVec)
  /-- VPK_CT8 (R89): VPK.CT8 packs into CT8 codes. -/
  | vpkCt8 (t : Fin 64) (f : VVec)
  /-- VPK_S8 (R89): VPK.S8 packs into signed I8 codes. -/
  | vpkS8 (t : Fin 64) (f : VVec)
  /-- VPK_U8 (R89): VPK.U8 packs into unsigned I8 codes. -/
  | vpkU8 (t : Fin 64) (f : VVec)
  /-- VUPK_GN4 (R89): VUPK.GN4 decodes GN4 codes to f32. -/
  | vupkGn4 (t : Fin 64) (f : VVec)
  /-- VUPK_CT8 (R89): VUPK.CT8 decodes CT8 codes to f32. -/
  | vupkCt8 (t : Fin 64) (f : VVec)
  /-- VUPK_S8 (R89): VUPK.S8 decodes signed I8 codes to f32. -/
  | vupkS8 (t : Fin 64) (f : VVec)
  /-- VUPK_U8 (R89): VUPK.U8 decodes unsigned I8 codes to f32. -/
  | vupkU8 (t : Fin 64) (f : VVec)
  /-- VPERM (R87): VPERM permutes within each beat. -/
  | vperm (t : Fin 64) (f : VVec)
  /-- VPERMX (R87): VPERMX permutes across the whole group. -/
  | vpermx (t : Fin 64) (f : VVec)
  /-- VREV (R87): VREV reverses element order. -/
  | vrev (t : Fin 64) (f : VVec)
  /-- VZIP (R87): VZIP interleaves va and vb. -/
  | vzip (t : Fin 64) (f : VVec)
  /-- VUZPE (R87): VUZPE takes the even elements of the concatenation. -/
  | vuzpe (t : Fin 64) (f : VVec)
  /-- VUZPO (R87): VUZPO takes the odd elements of the concatenation. -/
  | vuzpo (t : Fin 64) (f : VVec)
  /-- VSLUP (R87): VSLUP slides elements up. -/
  | vslup (t : Fin 64) (f : VVec)
  /-- VSLDN (R87): VSLDN slides elements down. -/
  | vsldn (t : Fin 64) (f : VVec)
  /-- VBCL (R87): VBCL broadcasts one lane. -/
  | vbcl (t : Fin 64) (f : VVec)
  /-- VRSUM (R88): VRSUM is a sum reduction. -/
  | vrsum (t : Fin 64) (f : VVec)
  /-- VRPROD (R88): VRPROD is a product reduction. -/
  | vrprod (t : Fin 64) (f : VVec)
  /-- VRMAX (R88): VRMAX is a maximum reduction. -/
  | vrmax (t : Fin 64) (f : VVec)
  /-- VRMIN (R88): VRMIN is a minimum reduction. -/
  | vrmin (t : Fin 64) (f : VVec)
  /-- VRAMAX (R88): VRAMAX returns the index of the maximum. -/
  | vramax (t : Fin 64) (f : VVec)
  /-- VRAMIN (R88): VRAMIN returns the index of the minimum. -/
  | vramin (t : Fin 64) (f : VVec)
  /-- VRAND (R88): VRAND is an AND reduction. -/
  | vrand (t : Fin 64) (f : VVec)
  /-- VROR (R88): VROR is an OR reduction. -/
  | vror (t : Fin 64) (f : VVec)
  /-- VF (R94): VF runs a fused chain of 1 to 8 stages from the chain table over N elements. -/
  | vf (t : Fin 64) (f : VChain)
  /-- MNOP (R109): MNOP does nothing. -/
  | mnop (t : Fin 64)
  /-- MLD (R110): MLD loads rows into an operand tile. -/
  | mld (t : Fin 64) (f : VMat)
  /-- MLS (R110): MLS loads a tile's row-scale vector. -/
  | mls (t : Fin 64) (f : VMat)
  /-- MZP (R110): MZP sets a tile's zero point and signedness. -/
  | mzp (t : Fin 64) (f : VMat)
  /-- MRT (R110): MRT loads a bank's rescale table. -/
  | mrt (t : Fin 64) (f : VMat)
  /-- MMA (R111): MMA multiplies two tiles and accumulates exactly into a bank. -/
  | mma (t : Fin 64) (f : VMat)
  /-- MMAC (R111): MMAC multiplies by the conjugate of the second operand. -/
  | mmac (t : Fin 64) (f : VMat)
  /-- MRD (R113): MRD reads bank rows out through a readout mode into vector registers. -/
  | mrd (t : Fin 64) (f : VMat)
  /-- COMET_LAUNCH (R144): At a tile's launch ck the header read finds a pending command, and the transfer is launched and cons advanced. -/
  | cometLaunch (t : Fin 64)
  /-- COMET_WRITE (R145): Comet op 0 writes a snapshot of the local range to the remote target. -/
  | cometWrite (t : Fin 64) (k : Carried 64)
  /-- COMET_READ (R145): Comet op 1 reads the remote range into the local scratchpad. -/
  | cometRead (t : Fin 64) (k : Carried 64)
  /-- COMET_COMPLETION (R145): A Comet transfer completes and optionally sets its event flag. -/
  | cometCompletion (t k : Fin 64)
  /-- DMA_GO (R133): A write of DMA_Qn_CTL.go starts a queue, which runs descriptors from cons to prod. -/
  | dmaGo (c : Fin 8) (q : Fin 32)
  /-- DMA_CANCEL (R139): A write of cancel stops fetching, drops fetched lines and discards uncompleted descriptors. -/
  | dmaCancel (c : Fin 8) (q : Fin 32)
  /-- CANCEL_DRAIN_END (R139): busy clears when the last issued fetch returns after a cancel. -/
  | cancelDrainEnd (c : Fin 8) (q : Fin 32)
  /-- COPY (R135): A DMA descriptor with op 0 copies rows, with an optional conversion and companion stream. -/
  | copy (c : Fin 8) (q : Fin 32) (fetch : Fin 128) (write : Carried 128)
  /-- FILL (R134): A DMA descriptor with op 1 fills the destination with a pattern. -/
  | fill (c : Fin 8) (q : Fin 32) (fetch : Fin 128) (write : Carried 128)
  /-- MULTICAST_COPY (R140): A DMA descriptor with op 2 delivers each line to every receiver under credit. -/
  | multicastCopy (c : Fin 8) (q : Fin 32) (fetch : Fin 128) (write : Carried 128)
  /-- DESCRIPTOR_COMPLETION (R135): When a descriptor's last line is written, cons advances and the completion flag is set. -/
  | descriptorCompletion (c : Fin 8) (q : Fin 32)
  /-- MULTICAST_RECEIVER_DROP (R141): A receiver whose lag counter exceeds the limit is dropped for the rest of the descriptor. -/
  | multicastReceiverDrop (c : Fin 8) (q : Fin 32) (i : Fin 8)
  /-- STARVATION_PROMOTION (R138): With det = 0, a queue whose age count exceeds DMA_AGE becomes urgent for one grant. -/
  | starvationPromotion (c : Fin 8) (q : Fin 32)
  /-- MEMC_FRAME_START (R130): At each LPDDR6 frame start, pending step-map, reservation and ring-ownership writes take effect and the wheel counters restart. -/
  | memcFrameStart
  /-- TILE_JOB (R248): A kind 0 job descriptor with wake = 0 queues a job on its context and arms its watch. -/
  | tileJob (d : BitVec 512)
  /-- WAKE (R248): A kind 0 descriptor with wake = 1 delivers its flag to the job in progress. -/
  | wake (d : BitVec 512)
  /-- HARD_ENGINE_POINTER (R243): A kind 1 job descriptor pushes its pointer into the named pointer queue. -/
  | hardEnginePointer (d : BitVec 512)
  /-- DMA_QUEUE_START (R243): A kind 2 job descriptor starts the named DMA queue. -/
  | dmaQueueStart (d : BitVec 512)
  /-- DISPATCH (R249): Every 16 ck the context unit takes runnable jobs in order and starts, displaces or makes room for them. -/
  | dispatch
  /-- JOB_START (R249): At decision + 24 ck, args are copied, EVF is merged and run is set on every tile of the context. -/
  | jobStart (n : Fin 256)
  /-- STOP_COMPLETE (R250): When every tile has stopped and quiesced, the register images are written and the context goes to SAVE, PARK or READY. -/
  | stopComplete (n : Fin 256)
  /-- LOAD_COMPLETE (R247): When the last line of a context is loaded, its job starts. -/
  | loadComplete (n : Fin 256)
  /-- SAVE_COMPLETE (R247): When the last line is saved, the slots are released and the context goes to OUT. -/
  | saveComplete (n : Fin 256)
  /-- JOB_END (R247): At the last tile's HALT the job ends, the register images are written and the next queued job makes the context READY. -/
  | jobEnd (n : Fin 256)
  /-- AWAITED_FLAG (R248): A flag that reaches a parked tile's awaited flag moves the context from PARK to READY. -/
  | awaitedFlag (n : Fin 256)
  /-- CONTEXT_ENABLE (R245): A write of CTX_CTXn.en = 1 enables the context in OUT, or is refused with en_bad. -/
  | contextEnable (n : Fin 256)
  /-- DRAIN (R255): A write of CTX_CTXn.drain stops queuing and releases the context to OFF when no job is in progress. -/
  | drain (n : Fin 256)
  /-- CUT (R256): A write of CTX_CTXn.cut stops the context at once and tears it down with cause 1. -/
  | cut (n : Fin 256)
  /-- CKPT (R258): A write of CTX_CTXn.ckpt writes the ranges to the image at the next IDLE instant. -/
  | ckpt (n : Fin 256)
  /-- CHECKPOINT_COMPLETE (R258): The checkpoint write ends and ckpt reads 0. -/
  | checkpointComplete (n : Fin 256)
  /-- TEARDOWN (R257): A fault of a context stops its tiles, cancels its DMA queues, releases its ranges, records CTX_FAULT and fires its watch. -/
  | teardown (n : Fin 256) (t : Fin 64)
  /-- BACKGROUND_AGEING (R254): With det = 0, a class B job whose age exceeds CTX_AGE becomes urgent. -/
  | backgroundAgeing (n : Fin 256)
  /-- WATCH_PERIODIC_CHECK (R229): At TMB_MONO mod 1,024 = 8w the monitor reads progress and evaluates the watch's budget. -/
  | watchPeriodicCheck (w : Fin 128)
  /-- ENGINE_RING_POLL (R187): An idle polling unit reads its ring prod at TMB_MONO mod 256 = 8u and takes one descriptor. -/
  | engineRingPoll (k : HardClass) (u : Fin 8)
  /-- ESTIMATE_AND_DETECT (R201): EQ op 0 estimates the channel with RLS, forms LMMSE-IRC filters and writes LLRs. -/
  | estimateAndDetect (u : Fin 8)
  /-- FEEDBACK_PASS (R200): EQ op 1 refines the estimates from decoded blocks and re-detects the failed ones. -/
  | feedbackPass (u : Fin 8)
  /-- DECODE (R206): LDPC decoder op 0 decodes one block under the iteration cap and releases it. -/
  | decode (d : Decoding)
  /-- ENCODE (R210): LDPC encoder op 0 encodes, rate-matches and interleaves one block. -/
  | encode (u : Fin 4)
  /-- POLAR_DECODE (R213): Polar op 0 is CRC-aided list-8 decoding. -/
  | polarDecode (u : Fin 2)
  /-- POLAR_ENCODE (R212): Polar op 1 is polar encoding with rate matching. -/
  | polarEncode (u : Fin 2)
  /-- SMALL_BLOCK_DECODE (R213): Polar op 2 is maximum-correlation decoding for K up to 11. -/
  | smallBlockDecode (u : Fin 2)
  /-- SMALL_BLOCK_ENCODE (R212): Polar op 3 is small-block encoding. -/
  | smallBlockEncode (u : Fin 2)
  /-- ENGINE_JOB_END (R190): At a job's end the unit writes its outputs, record and prod, sets its flag, and does the join decrement and next push. -/
  | engineJobEnd (k : HardClass) (u : Fin 8)
  /-- ENGINE_DRAIN (R193): A write of ENG_CTL.drain lets the running job end, stops acceptance and clears en. -/
  | engineDrain (k : HardClass) (u : Fin 8)
  /-- ENGINE_CUT (R193): A write of ENG_CTL.cut stops the job at once with a cut record, acting as drain when det = 1. -/
  | engineCut (k : HardClass) (u : Fin 8)
  /-- JOB_TIMER (R299): A hard-engine job that runs past twice its bound plus 2,200 ek is logged, and its unit is treated as failed. -/
  | jobTimer (k : HardClass) (u : Fin 8)
  /-- FFT (R179): An FFT job transforms N branch samples and writes PRBs as a delivered batch position. -/
  | fft (f : Fin 16)
  /-- IFFT (R181): An IFFT job reads PRBs, computes N points, inserts the prefix and feeds the DUC, CFR and DPD chain. -/
  | ifft (f : Fin 16)
  /-- DPD_SWITCH (R182): A DPD switch makes a chain take the other coefficient bank from the symbol at or after T. -/
  | dpdSwitch
  /-- CAPTURE (R182): A capture writes n observation samples and n transmit samples from T to cluster memory. -/
  | capture (re im : List (BitVec 16))
  /-- AGC_WINDOW (R174): At the end of each 2^aw-sample window the AGC measures power and updates att unless frozen. -/
  | agcWindow (c : Fin 64) (t : BitVec 33) (step : Fin 256) (x : List (BitVec 32))
  /-- GAIN_PORT_WORD (R176): A change of att sends a 16-bit word on its gain port in slot order. -/
  | gainPortWord (gp : Fin 16)
  /-- GAIN_COMPENSATION (R176): glat ek after the word's last bit, the chain applies the new compensation factor. -/
  | gainCompensation (c : Fin 64)
  /-- FRAME_RECEIVE (R271): A frame received on an Ethernet port is timestamped, FCS-checked and classified to the ingress engine or a receive ring. -/
  | frameReceive (p : Fin 32) (time : Stamp) (data : List (BitVec 8)) (fec : FecReport)
  /-- IQ_DATA_MESSAGE (R152): The ingress engine parses a type 0 U-plane message, checks its window, decompresses, shapes and writes it into a batch. -/
  | iqDataMessage (e : Carried 4)
  /-- REAL_TIME_CONTROL_MESSAGE (R151): A type 2 message is passed unparsed to receive ring 1. -/
  | realTimeControlMessage (e : Fin 4)
  /-- ONE_WAY_DELAY_MEASUREMENT (R277): A type 5 request with Action Type 0 or 1 is answered with t2 within 10 µs. -/
  | oneWayDelayMeasurement (e : Fin 4)
  /-- BATCH_TIMEOUT (R167): A batch closes and publishes when at_now passes T_sym + hi. -/
  | batchTimeout (q : Fin 64)
  /-- CONS_READ (R170): Every 1,024 ck the ingress engine reads a batch queue's cons, updates ahead and raises the low-water alarm. -/
  | consRead (q : Fin 64)
  /-- TX_RING_POLL (R273): The egress engine reads a transmit ring's prod and prefetches its head. -/
  | txRingPoll (p : Fin 32) (k : Fin 4)
  /-- FRAME_TRANSMIT (R274): A kind 0 head is sent at a frame boundary, with timed launch, late drop and one-step insertion. -/
  | frameTransmit (p : Fin 32) (sec : BitVec 48) (qns : Fin 4000000000)
  /-- U_PLANE_BUILD (R275): A kind 1 head builds and sends an eCPRI type 0 message from PRBs in memory. -/
  | uPlaneBuild (p : Fin 32) (sec : BitVec 48) (qns : Fin 4000000000)
  /-- TRANSMIT_COMPLETION (R274): When a frame's last bit leaves, status and t_dep are written and cons advances. -/
  | transmitCompletion (p : Fin 32)
  /-- PORT_ENABLE (R268): A write of OPT_Pp_CFG.en = 1 enables a port, or is refused with cfg. -/
  | portEnable (p : Fin 32) (apx fh : Bool) (rate : Fin 8) (lanes : BitVec 8) (mac : BitVec 48)
  /-- LANE_MOVE (R269): A new lane mask while en = 1 takes the port down and retrains it on the new lanes. -/
  | laneMove (p : Fin 32) (lanes : BitVec 8)
  /-- LINK_UP (R269): Training completes and the port is up. -/
  | linkUp (p : Fin 32)
  /-- LOSS_OF_SIGNAL (R266): A lane's received power falls below its threshold and los is set. -/
  | lossOfSignal (l : Fin 32)
  /-- POWER_REDUCTION (R266): After 500 µs without signal the lane's transmit output is reduced to −20 dBm or less. -/
  | powerReduction (l : Fin 32)
  /-- RESTART_PULSE (R266): A reduced lane emits a 2 ms pulse every 1 s and leaves reduction when it sees signal. -/
  | restartPulse (l : Fin 32) (seen : Bool)
  /-- LASER_LIGHT_LOW (R265): Light below the fused minimum stops the engine's transmit lanes and sets OPT_CAUSE.laser. -/
  | laserLightLow (e : Fin 4) (lvl : BitVec 8)
  /-- JESD_LINK_ENABLE (R281): A JESD link enable is accepted, or refused with cfg for bad F or a lane clash. -/
  | jesdLinkEnable (tx : Bool) (k : Fin 8) (cfg : BitVec 64)
  /-- SYSREF_EDGE (R282): A SYSREF rising edge is timestamped and aligns or checks the LEMC according to the mode. -/
  | sysrefEdge (sec : BitVec 48) (qns : Fin 4000000000)
  /-- SYNC_HEADER_LOCK (R283): A receive lane gains lock after 64 valid sync headers, or loses it after 16 invalid in 64. -/
  | syncHeaderLock (lane : Fin 48) (valid emb : Bool)
  /-- LEMC_RELEASE (R283): At LEMC + rbd the link releases the extended multiblock, or zeros with rbd_late. -/
  | lemcRelease (k : Fin 8) (arr : BitVec 16) (crc : BitVec 32)
  /-- APSIS_IDLE (R286): An IDLE flit carries only ack and credits. -/
  | apsisIdle (p : Fin 32) (f : Flit)
  /-- APSIS_RD (R286): An RD flit requests len bytes at addr. -/
  | apsisRd (p : Fin 32) (f : Flit)
  /-- APSIS_RDRSP (R286): An RDRSP flit returns read data with its request's tag. -/
  | apsisRdrsp (p : Fin 32) (f : Flit)
  /-- APSIS_WR (R286): A WR flit writes len bytes at addr. -/
  | apsisWr (p : Fin 32) (f : Flit)
  /-- APSIS_WRACK (R286): A WRACK flit acknowledges a write. -/
  | apsisWrack (p : Fin 32) (f : Flit)
  /-- APSIS_TIME (R291): A TIME flit carries a time-transfer request or reply, and the reply completes a phase update. -/
  | apsisTime (p : Fin 32) (f : Flit) (r : TimeRec) (arr : Int)
  /-- APSIS_START (R47): A START flit gives the follower T_s, or sets an id, late or start fault. -/
  | apsisStart (p : Fin 32) (f : Flit)
  /-- APSIS_RETRY (R287): A RETRY flit makes the sender replay from ack + 1. -/
  | apsisRetry (p : Fin 32) (f : Flit)
  /-- APSIS_INIT (R287): An INIT flit brings up the link with chip id and credits. -/
  | apsisInit (p : Fin 32) (f : Flit)
  /-- APSIS_RESERVED_TYPE (R286): A flit of a reserved type is discarded after its seq is accepted and sets badtype. -/
  | apsisReservedType (p : Fin 32) (ty : Fin 7) (f : Flit)
  /-- REPLAY_TIMER (R287): Without progress of ack for tmo × 100 ns the sender replays, and after rmax replays the link goes down. -/
  | replayTimer (p : Fin 32)
  /-- REMOTE_REQUEST_SERVICE (R289): The target serves an RD or WR in remote-share positions and answers. -/
  | remoteRequestService
  /-- REQUEST_TIMEOUT (R289): A request unanswered after rtmo µs completes with zeros or as done, and sets rtmo. -/
  | requestTimeout (d : Fin 8) (tag : BitVec 8)
  /-- TIME_TRANSFER (R291): At each whole millisecond of NT a follower sends a TIME request toward the reference. -/
  | timeTransfer
  /-- TIME_EXCHANGE_TIMEOUT (R291): An exchange whose reply has not come 100 µs after t1 is discarded. -/
  | timeExchangeTimeout
  /-- THRESHOLD_WINDOW (R297): At each window boundary of a threshold class the counts restart. -/
  | thresholdWindow (k : Fin 8)
  /-- SCRUB (R298): Every 64 ck each memory bank scrubs one line, or copies it during a bank copy. -/
  | scrub (b : Fin 144)
  /-- SELF_TEST_SEGMENT (R300): In an IDLE window the repair unit runs the next 2 µs self-test segment of a due unit. -/
  | selfTestSegment (pass : Bool)
  /-- ROTATION (R302): At an allowed instant a pool's spare takes over a logical unit, and the released unit is tested. -/
  | rotation (k : Fin 16) (u : PoolUnit) (pass : Bool)
  /-- REMAP (R303): On a unit failure the job faults, and the spare is powered and mapped in. -/
  | remap (k : Fin 16) (u : Fin 256) (outright : Bool)
  /-- REMAP_DONE (R303): After power-up the unit map is written in one ck and done is set. -/
  | remapDone (k : Fin 16) (u : Fin 256)
  /-- COPY_SWITCH (R308): When a bank or channel copy ends, the map switches at one ck. -/
  | copySwitch (k : Fin 16) (u : Fin 256)
  /-- MOVE_REQUEST (R303): PWR_REP_REQ op 0 moves a unit as after a failure. -/
  | moveRequest (k : Fin 16) (u : Fin 256)
  /-- ROTATE_REQUEST (R301): PWR_REP_REQ op 1 rotates a unit. -/
  | rotateRequest (k : Fin 16) (u : Fin 256)
  /-- MANAGEMENT_FIRMWARE_UPDATE (R312): PWR_REP_REQ op 2 verifies an image on the inactive pair and hands over. -/
  | managementFirmwareUpdate (k : Fin 16) (u : Fin 256) (img : List (BitVec 8))
  /-- REPAIR_REQUEST_RESERVED (R293): PWR_REP_REQ op 3 is refused with res = 2. -/
  | repairRequestReserved (k : Fin 16) (u : Fin 256)
  /-- LOCKSTEP_MISMATCH (R311): A lockstep mismatch hands control to the spare management pair within 1 ms. -/
  | lockstepMismatch
  /-- PHASE_FAULT (R322): A regulator phase fault drops the phase, and a second fault puts the domain in state 3. -/
  | phaseFault (d : Fin 96)
  /-- POWER_UP (R323): After PORST_N high and VIN_OR at 10.2 V for 1 ms, sequencing step 1 begins. -/
  | powerUp (va vb : BitVec 16)
  /-- SEQUENCING_STEP (R323): 100 µs after the previous step's domains report state 2 the next step's domains ramp; after step 5 the groups are released. -/
  | sequencingStep
  /-- PORST_N_LOW (R324): PORST_N low for 10 µs switches off every domain but 80 and holds all groups in reset. -/
  | porstNLow (both : Bool)
  /-- RESET_N (R396): RESET_N low for 100 ns resets G1 to G5, and its release repeats boot stages 2 and 3. -/
  | resetN (low both : Bool)
  /-- GROUP_RESET (R343): A write of PWR_RST.gN holds group N in reset. -/
  | groupReset (g : Fin 5) (both : Bool)
  /-- GROUP_RESET_RELEASE (R343): 1 µs later the group is released and takes its Reset values. -/
  | groupResetRelease (g : Fin 5)
  /-- DOMAIN_ON (R321): A write of PWR_DOMd.on = 1 to a software-off domain powers it to state 2 within 10 µs. -/
  | domainOn (d : Fin 96)
  /-- DOMAIN_OFF (R321): A write of on = 0 switches the domain off within 2 µs. -/
  | domainOff (d : Fin 96)
  /-- VIN_LOST (R325): An input below 10.2 V clears its ok bit and sets a_lost or b_lost. -/
  | vinLost (b : Bool) (mv : BitVec 16)
  /-- VIN_BACK (R325): An input at 10.8 V or more for 10 ms sets a_back or b_back. -/
  | vinBack (b : Bool) (mv : BitVec 16)
  /-- RIDE_THROUGH (R326): Loss of both inputs sets ride, and service runs on the stored energy. -/
  | rideThrough
  /-- VIN_OR_LOW (R326): VIN_OR below 9.0 V opens the AUX outputs and switches off every domain but 80. -/
  | vinOrLow
  /-- STANDBY_LOSS (R326): VIN_OR below 7.5 V takes down domain 80. -/
  | standbyLoss
  /-- AUX_LATCH_OFF (R328): An AUX output beyond its current, voltage or power limit for its time latches off. -/
  | auxLatchOff (n : Fin 8) (what : Fin 3) (v : BitVec 16)
  /-- AUX_OVERLOAD (R329): AUX total above 60 W for 10 ms latches off the highest-numbered delivering output. -/
  | auxOverload (p : List (BitVec 16))
  /-- TEMPERATURE_READING (R331): Every 100 µs the sensors are read, tmax is estimated and the shedding level is set. -/
  | temperatureReading (raw : List (BitVec 16)) (power : PowerReading)
  /-- LEVEL_3_SHUTDOWN (R332): tmax at T_max + 10 °C for 1 ms opens every AUX output and switches off every domain but 80. -/
  | level3Shutdown
  /-- REFERENCE_LOST (R337): CLK_IN absent for 1 µs makes the PLLs hold their control words and sets ref_lost. -/
  | referenceLost
  /-- LOCK_LOST (R337): A PLL that loses lock sets lock_lost and leaves its outputs undriven until it relocks. -/
  | lockLost (p : Fin 3)
  /-- CAL_U_WRITE (R346): A write of a CAL_U_ offset updates CAL_E_ in the next MCK cycle. -/
  | calUWrite (i : Fin 416) (v : BitVec 32)
  /-- GPIO_EDGE (R385): A selected GPIO edge is captured, carried into FCK and sets SYS_GPIO_EVT and SYS_GPIO_TS, or sets gpio_ovr. -/
  | gpioEdge (n : Fin 64) (rise : Bool) (sec : BitVec 48) (qns : Fin 4000000000)
  /-- BOOT (R360): After release the boot ROM loads, checks and measures PMF, ORM, TLM and ACB and starts hart 0. -/
  | boot (flash : List (BitVec 8)) (ok0 ok1 : Bool)
  /-- HOST_LOAD (R361): A write of SEC_HLOAD.go submits a host-loaded image for checking. -/
  | hostLoad (t : BitVec 4)
  /-- ENROL_OWNER_SLOT (R365): Key command op 0 programs an owner slot with a key digest. -/
  | enrolOwnerSlot
  /-- REVOKE_VENDOR_SLOT (R365): Key command op 1 revokes a vendor slot. -/
  | revokeVendorSlot
  /-- REVOKE_OWNER_SLOT (R365): Key command op 2 revokes an owner slot. -/
  | revokeOwnerSlot
  /-- ADVANCE_SVN (R365): Key command op 3 raises FUSE_SVNt. -/
  | advanceSvn
  /-- QUOTE (R370): A write of SEC_QCTL.go snapshots the quote fields, signs them and writes the quote. -/
  | quote
  /-- DEBUG_TOKEN (R372): A write of SEC_DBG_CTL.go checks a token and adds its permissions. -/
  | debugToken
  /-- DEBUG_LOCK (R372): A write of SEC_DBG_CTL.lock clears SEC_DBG_PERM and draws a new challenge. -/
  | debugLock
  /-- MR7_EXTEND (R366): A write of SEC_MRCTL.go extends MR7 with SEC_MRDATA. -/
  | mr7Extend
  /-- MODEL_DIGEST_WRITE (R368): A write of SEC_MDk's highest word sets the model digest and extends MR6. -/
  | modelDigestWrite (k : Fin 16) (w : BitVec 64)
  /-- HART_PARK (R356): Setting ACX_HPARK.park[h] writes back the hart's dirty lines and stops it. -/
  | hartPark (h : Fin 8)
  /-- HART_UNPARK (R356): Clearing park[h] restarts hart h at ACX_HENTRY. -/
  | hartUnpark (h : Fin 8)
  /-- BAD_OP_BUNDLE (R52): A bundle whose slot holds a reserved opcode or field encoding executes none of its slots and faults the tile with TIL_CAUSE.bad_op. -/
  | badOpBundle (t : Fin 64) (w : BitVec 128)
  /-- PHASE_SRC_WRITE (R31): A write of TMB_CTL.phase_src = 3 while servo_en = 1 puts the time base into holdover, and other values change the source of phase updates. -/
  | phaseSrcWrite (v : Fin 4)
  /-- SIGNAL_PRESENT (R269): A lane's receiver sees signal again, which clears OPT_LANE.los, cancels the pending power reduction and starts link training. -/
  | signalPresent (l : Fin 32)
  /-- LASER_LIGHT_RESTORED (R265): Light from the laser source returns above the fused minimum, and the engine's lanes regain their transmit signal. -/
  | laserLightRestored (e : Fin 4) (lvl : BitVec 8)
  /-- REFERENCE_RESTORED (R337): CLK_IN returns, CLK_STAT.ref_ok sets, and the PLLs leave the held state. -/
  | referenceRestored
  /-- PLL_RELOCK (R337): A PLL that lost lock relocks, sets its CLK_STAT bit and drives its outputs again. -/
  | pllRelock (p : Fin 3)
  /-- STANDBY_RAIL_UP (R388): VIN_OR reaches 5.0 V, the standby rail comes up, and the M880 begins to drive CONJ low. -/
  | standbyRailUp
  /-- PCIE_PERST_N_INPUT (R396): As an endpoint, a low level on PCIE_PERST_N resets only the PCIe port's link and configuration space. -/
  | pciePerstNInput (low : Bool)
  /-- PCIE_PERST_N_RELEASE (R396): As a root port, the M880 releases PCIE_PERST_N 100 ms after the release of G5. -/
  | pciePerstNRelease
  /-- HOST_LOAD_TIMEOUT (R361): When no host-loaded image arrives within 10 s, boot records code 7 and recovers or halts. -/
  | hostLoadTimeout
  /-- CACHE_ECC_ERROR (R355): A corrected or uncorrectable L2 or L3 error sets ACX_CAUSE.ecc1 or ecc2, records ACX_ECCA, counts toward threshold class 4 and may set evict. -/
  | cacheEccError (h : Fin 8) (level : CacheLevel) (addr : BitVec 40) (unc : Option EccUse)
  /-- APSIS_FLIT_CRC_ERROR (R287): A flit with a bad CRC-32 is discarded with every later flit, counted in APX_Lp_CNT.crc, and one RETRY is sent. -/
  | apsisFlitCrcError (p : Fin 32)
  /-- MICROCODE_UPDATE (R315): The repair unit loads and verifies tile or Orrery microcode into each pool's spare, rotates it through every unit with upd = 1, and extends MR3 or MR4. -/
  | microcodeUpdate (orr : Bool) (img : List (BitVec 8))
  /-- ENGINE_ENABLE (R193): A write of ENG_CTL.en = 1 lets the unit accept again the pointers that stayed queued after a drain or cut. -/
  | engineEnable (k : HardClass) (u : Fin 8) (poll : Bool)
  deriving DecidableEq, Repr

end Sys2Proof
end

