-- ==== Sys2Proof/Decode.lean ====
section
/-! DEFINITION. Decoding.  The opcode table gives no bits to any row, so `decodeTableWord` reads none of them.  The spec does give
the binary layouts of tile bundles (R52 to R57, R84 to R89, R109 to R113) and timetable words (R41, R42); `decodeBundle` and
`decodeTimetable` read those into the commands that the sequencers issue. -/

namespace Sys2Proof

/-- The command that a word spells by the table's bits: the table gives bits to no row. -/
def decodeTableWord (_nbits _w : Nat) : Option Instr := none

/-- Bits `[hi:lo]` of a word as a number. -/
def slice {w : Nat} (v : BitVec w) (hi lo : Nat) : Nat := (v.toNat >>> lo) % 2 ^ (hi - lo + 1)

/-- The timetable word `w` of engine `n` (R41); a reserved opcode is ORR_RESERVED_OPCODE (R42). -/
def decodeTimetable (n : Fin 8) (w : BitVec 64) : Instr :=
  let ta : Fin 4 := Fin.ofNat 4 (slice w 57 56)
  let t : BitVec 33 := BitVec.ofNat 33 (slice w 32 0)
  let a : BitVec 8 := BitVec.ofNat 8 (slice w 57 50)
  let b : BitVec 8 := BitVec.ofNat 8 (slice w 49 42)
  let c : BitVec 10 := BitVec.ofNat 10 (slice w 41 32)
  let d : BitVec 32 := BitVec.ofNat 32 (slice w 31 0)
  match slice w 63 58 with
  | 0x00 => .orrNop n
  | 0x01 => .orrHalt n
  | 0x02 => .jmp n (Fin.ofNat 2048 (slice w 10 0))
  | 0x08 => .waita n t
  | 0x09 => .waitr n ta t
  | 0x0A => .sett n ta t
  | 0x0B => .addt n ta t
  | 0x0C => .nextf n ta
  | 0x10 => .every n ta (BitVec.ofNat 8 (slice w 55 48)) (BitVec.ofNat 16 (slice w 47 32)) (BitVec.ofNat 26 (slice w 25 0))
  | 0x18 => .conj n a
  | 0x19 => .swap n
  | 0x20 => .issue n c d
  | 0x21 => .scan n a b
  | 0x22 => .idle n a (BitVec.ofNat 24 (slice w 23 0))
  | 0x23 => .agcf n a (b.getLsbD 0)
  | 0x24 => .nfsnap n a
  | 0x25 => .sig n (Fin.ofNat 32 (slice w 54 50))
  | _ => .orrReservedOpcode n

/-- The RSV bits of an S slot by opcode (R53); NOP ignores its other bits, and the waits and system instructions ignore k and c. -/
def sReserved (op : Nat) : Nat :=
  if 0x01 ≤ op && op ≤ 0x0E then 2 ^ 11 - 1
  else if op = 0x28 || op = 0x29 then 2 ^ 15 - 1
  else if op = 0x32 then 2 ^ 21 - 1
  else if op = 0x33 then 2 ^ 26 - 1
  else if op = 0x34 || op = 0x35 || (0x3C ≤ op && op ≤ 0x3F) then 2 ^ 20 - 1
  else if op = 0x39 then 2 ^ 11 - 1
  else if op = 0x3A then (2 ^ 10 - 1) * 2 ^ 16
  else if op = 0x3B then (2 ^ 10 - 1) * 2 ^ 16 + (2 ^ 11 - 1)
  else 0

/-- The S slot `w` of a bundle of tile `t` (R53); none for a reserved opcode or a non-zero RSV field (R52). -/
def decodeS (t : Fin 64) (w : BitVec 32) : Option Instr :=
  let sd : Fin 32 := Fin.ofNat 32 (slice w 25 21)
  let sa : Fin 32 := Fin.ofNat 32 (slice w 20 16)
  let sb : Fin 32 := Fin.ofNat 32 (slice w 15 11)
  let imm : BitVec 16 := BitVec.ofNat 16 (slice w 15 0)
  let p : Fin 16 := Fin.ofNat 16 (slice w 20 17)
  let pm : Bool := slice w 16 16 = 1
  let creg : Fin 64 := Fin.ofNat 64 (slice w 20 15)
  let cond : Fin 8 := Fin.ofNat 8 (slice w 20 18)
  let off : BitVec 18 := BitVec.ofNat 18 (slice w 17 0)
  let i : Bool := slice w 25 25 = 1
  let len : Fin 512 := Fin.ofNat 512 (slice w 24 16)
  let cnt : Fin 65536 := Fin.ofNat 65536 (slice w 15 0)
  let c : Bool := slice w 20 20 = 1
  if w.toNat &&& sReserved (slice w 31 26) ≠ 0 then none else
  match slice w 31 26 with
  | 0x00 => some (.nop t)
  | 0x01 => some (.add t sd sa sb)
  | 0x02 => some (.sub t sd sa sb)
  | 0x03 => some (.and t sd sa sb)
  | 0x04 => some (.or t sd sa sb)
  | 0x05 => some (.xor t sd sa sb)
  | 0x06 => some (.sll t sd sa sb)
  | 0x07 => some (.srl t sd sa sb)
  | 0x08 => some (.sra t sd sa sb)
  | 0x09 => some (.mul t sd sa sb)
  | 0x0A => some (.mulh t sd sa sb)
  | 0x0B => some (.slt t sd sa sb)
  | 0x0C => some (.sltu t sd sa sb)
  | 0x0D => some (.min t sd sa sb)
  | 0x0E => some (.max t sd sa sb)
  | 0x10 => some (.addi t sd sa imm)
  | 0x11 => some (.andi t sd sa imm)
  | 0x12 => some (.ori t sd sa imm)
  | 0x13 => some (.xori t sd sa imm)
  | 0x14 => some (.slli t sd sa imm)
  | 0x15 => some (.srli t sd sa imm)
  | 0x16 => some (.srai t sd sa imm)
  | 0x17 => some (.lui t sd sa imm)
  | 0x18 => some (.slti t sd sa imm)
  | 0x20 => some (.ld t sd p pm imm)
  | 0x21 => some (.ldh t sd p pm imm)
  | 0x22 => some (.ldhu t sd p pm imm)
  | 0x23 => some (.ldb t sd p pm imm)
  | 0x24 => some (.ldbu t sd p pm imm)
  | 0x25 => some (.st t sd p pm imm)
  | 0x26 => some (.sth t sd p pm imm)
  | 0x27 => some (.stb t sd p pm imm)
  | 0x28 => some (.mtc t sd creg)
  | 0x29 => some (.mfc t sd creg)
  | 0x30 => some (.b t sd cond off)
  | 0x31 => some (.bl t sd cond off)
  | 0x32 => some (.jr t sd)
  | 0x33 => some (.reti t)
  | 0x34 => some (.ei t)
  | 0x35 => some (.di t)
  | 0x38 => some (.doLoop t i len cnt)
  | 0x39 => some (.dor t i len sb)
  | 0x3A => some (.rpt t cnt)
  | 0x3B => some (.rptr t sb)
  | 0x3C => some (.waite t sd c)
  | 0x3D => some (.yield t)
  | 0x3E => some (.waitv t)
  | 0x3F => some (.halt t)
  | _ => none

/-- A move field (R55); none for the reserved kind 3. -/
def decodeMove (w : Nat) : Option Move :=
  let s : Fin 32 := Fin.ofNat 32 (w >>> 7)
  let ptr : Fin 8 := Fin.ofNat 8 (w >>> 4)
  let md : Fin 8 := Fin.ofNat 8 (w >>> 1)
  let u : Bool := w % 2 = 1
  match w >>> 12 % 4 with
  | 0 => some .none
  | 1 => some (.load s ptr md u)
  | 2 => some (.store s ptr md u)
  | _ => none

/-- The D slot `w` of a bundle of tile `t` (R55, R56); none for a reserved opcode or move kind. -/
def decodeD (t : Fin 64) (w : BitVec 48) : Option Instr :=
  match decodeMove (slice w 27 14), decodeMove (slice w 13 0) with
  | some x, some y =>
    let f : DSlot := ⟨Fin.ofNat 8 (slice w 41 39), Fin.ofNat 32 (slice w 38 34), Fin.ofNat 32 (slice w 33 29), slice w 28 28 = 1, x, y⟩
    match slice w 47 42 with
    | 0x00 => some (.dnop t f)
    | 0x01 => some (.mac t f)
    | 0x02 => some (.msu t f)
    | 0x03 => some (.mpy t f)
    | 0x04 => some (.macp t f)
    | 0x05 => some (.mac16 t f)
    | 0x06 => some (.cmac t f)
    | 0x07 => some (.cmacj t f)
    | 0x08 => some (.aclr t f)
    | 0x09 => some (.asr t f)
    | 0x0A => some (.mva t f)
    | 0x0B => some (.mvah t f)
    | 0x0C => some (.mvs t f)
    | 0x0D => some (.adda t f)
    | _ => none
  | _, _ => none

/-- Bits of the class, register and type checks of a VV slot: a type not listed for the opcode is reserved (R86). -/
def vvTypes (op ty vb : Nat) : Bool :=
  let fl := ty = 5 || ty = 6
  let cx := ty = 7
  if op = 0x03 || op = 0x05 || op = 0x06 || op = 0x07 || op = 0x11 then !cx
  else if op = 0x04 || op = 0x0E || op = 0x0F || op = 0x10 then !fl && !cx
  else if op = 0x09 || op = 0x0A then !fl
  else if op = 0x12 || op = 0x13 then cx
  else if op = 0x19 || op = 0x1A || op = 0x1D || op = 0x1E then !cx
  else if op = 0x20 then !cx && vb % 8 ≠ 7
  else if 0x41 ≤ op && op ≤ 0x45 then !cx
  else true

/-- A VV slot (R57, R86 to R89); none for a reserved opcode or type. -/
def decodeVV (t : Fin 64) (w : BitVec 48) : Option Instr :=
  let op := slice w 45 38
  let f : VVec := ⟨Fin.ofNat 32 (slice w 37 33), Fin.ofNat 32 (slice w 32 28), Fin.ofNat 32 (slice w 27 23),
    Fin.ofNat 8 (slice w 22 20), slice w 19 19 = 1, Fin.ofNat 8 (slice w 18 16), Fin.ofNat 4096 (slice w 11 0)⟩
  if op = 0 then some (.vmnop t)
  else if slice w 15 12 ≠ 0 || !vvTypes op f.ty f.vb then none
  else match op with
  | 0x01 => some (.vadd t f)
  | 0x02 => some (.vsub t f)
  | 0x03 => some (.vmul t f)
  | 0x04 => some (.vmulh t f)
  | 0x05 => some (.vmin t f)
  | 0x06 => some (.vmax t f)
  | 0x07 => some (.vabs t f)
  | 0x08 => some (.vneg t f)
  | 0x09 => some (.vadds t f)
  | 0x0A => some (.vsubs t f)
  | 0x0B => some (.vand t f)
  | 0x0C => some (.vor t f)
  | 0x0D => some (.vxor t f)
  | 0x0E => some (.vsll t f)
  | 0x0F => some (.vsrl t f)
  | 0x10 => some (.vsra t f)
  | 0x11 => some (.vmac t f)
  | 0x12 => some (.vcmul t f)
  | 0x13 => some (.vcmulj t f)
  | 0x14 => some (.vsel t f)
  | 0x15 => some (.vmov t f)
  | 0x18 => some (.vceq t f)
  | 0x19 => some (.vclt t f)
  | 0x1A => some (.vcle t f)
  | 0x1C => some (.vmeq t f)
  | 0x1D => some (.vmlt t f)
  | 0x1E => some (.vmle t f)
  | 0x20 => some (.vcvt t f)
  | 0x28 => some (.vpkGn4 t f)
  | 0x29 => some (.vpkCt8 t f)
  | 0x2A => some (.vpkS8 t f)
  | 0x2B => some (.vpkU8 t f)
  | 0x2C => some (.vupkGn4 t f)
  | 0x2D => some (.vupkCt8 t f)
  | 0x2E => some (.vupkS8 t f)
  | 0x2F => some (.vupkU8 t f)
  | 0x30 => some (.vperm t f)
  | 0x31 => some (.vpermx t f)
  | 0x32 => some (.vrev t f)
  | 0x33 => some (.vzip t f)
  | 0x34 => some (.vuzpe t f)
  | 0x35 => some (.vuzpo t f)
  | 0x36 => some (.vslup t f)
  | 0x37 => some (.vsldn t f)
  | 0x38 => some (.vbcl t f)
  | 0x40 => some (.vrsum t f)
  | 0x41 => some (.vrprod t f)
  | 0x42 => some (.vrmax t f)
  | 0x43 => some (.vrmin t f)
  | 0x44 => some (.vramax t f)
  | 0x45 => some (.vramin t f)
  | 0x46 => some (.vrand t f)
  | 0x47 => some (.vror t f)
  | _ => none

/-- A VX slot (R57, R109); none for a reserved opcode, format or field. -/
def decodeVX (t : Fin 64) (w : BitVec 48) : Option Instr :=
  let f : VMat := ⟨Fin.ofNat 4 (slice w 39 38), Fin.ofNat 4 (slice w 37 36), Fin.ofNat 32 (slice w 35 31), Fin.ofNat 16 (slice w 30 27),
    Fin.ofNat 8 (slice w 26 24), BitVec.ofNat 12 (slice w 11 0)⟩
  let hi := slice f.cnt 11 6
  let rsv := slice w 23 12 ≠ 0
  match slice w 45 40 with
  | 0x00 => some (.mnop t)
  | 0x01 => if rsv || f.mb ≠ 0 || f.vd.val ≥ 16 || f.fmt ≠ 0 || hi ≠ 0 then none else some (.mld t f)
  | 0x02 => if rsv || f.mb ≠ 0 || f.vd.val ≥ 16 || f.fmt ≠ 0 || f.sel ≠ 0 || hi ≠ 0 then none else some (.mls t f)
  | 0x03 => if rsv || f.mb ≠ 0 || f.vd ≠ 0 || f.fmt ≠ 0 || f.sel ≠ 0 || slice f.cnt 11 9 ≠ 0 then none else some (.mzp t f)
  | 0x04 => if rsv || f.ma ≠ 0 || f.mb ≠ 0 || f.vd.val ≥ 16 || f.fmt ≠ 0 || f.sel.val ≥ 4 || f.cnt ≠ 0 then none else some (.mrt t f)
  | 0x08 => if rsv || f.vd ≠ 0 || f.fmt.val ≥ 6 then none else some (.mma t f)
  | 0x09 => if rsv || f.vd ≠ 0 || f.fmt.val ≥ 6 then none else some (.mmac t f)
  | 0x10 => if rsv || f.ma.val ≥ 2 || f.fmt.val ≥ 8 || f.sel.val ≥ 4 then none else some (.mrd t f)
  | _ => none

/-- A VM slot (R57, R84); none for a reserved opcode. -/
def decodeVM (t : Fin 64) (w : BitVec 48) : Option Instr :=
  let f : VMem := ⟨Fin.ofNat 32 (slice w 41 37), Fin.ofNat 16 (slice w 36 33), Fin.ofNat 8 (slice w 32 30), slice w 29 29 = 1,
    Fin.ofNat 8 (slice w 28 26), Fin.ofNat 8 (slice w 25 23), Fin.ofNat 4096 (slice w 11 0)⟩
  if slice w 22 12 ≠ 0 then none else
  match slice w 45 42 with
  | 0x0 => some (.vmnop t)
  | 0x1 => some (.vld t f)
  | 0x2 => some (.vst t f)
  | 0x3 => some (.vlds t f)
  | 0x4 => some (.vsts t f)
  | _ => none

/-- The V slot `w` of a bundle of tile `t` (R57): the class in bits [47:46]. -/
def decodeV (t : Fin 64) (w : BitVec 48) : Option Instr :=
  match slice w 47 46 with
  | 0 => decodeVV t w
  | 1 => if slice w 19 12 ≠ 0 then none else some (.vf t ⟨Fin.ofNat 32 (slice w 45 41), Fin.ofNat 32 (slice w 40 36), Fin.ofNat 32 (slice w 35 31), Fin.ofNat 8 (slice w 30 28),
      BitVec.ofNat 8 (slice w 27 20), Fin.ofNat 4096 (slice w 11 0)⟩)
  | 2 => decodeVX t w
  | _ => decodeVM t w

/-- A bundle of tile `t` (R52): its S-, D- and V-slot commands; none when any slot holds a reserved encoding. -/
def decodeBundle (t : Fin 64) (w : BitVec 128) : Option (Instr × Instr × Instr) :=
  match decodeS t (w.extractLsb' 96 32), decodeD t (w.extractLsb' 48 48), decodeV t (w.extractLsb' 0 48) with
  | some a, some b, some c => some (a, b, c)
  | _, _, _ => none

end Sys2Proof
end

