-- ==== Sys2Proof/Config.lean ====
section
/-! DEFINITION. What the spec leaves open: uninterpreted constants (free values) that no proof can evaluate, and the
constants of the part.  The assumption log names the rule that leaves each value open. -/

namespace Sys2Proof

/-- What a descriptor of the DFE job unit names (R182): a capture or a DPD switch, its chain, air instant, and for a capture the
observation stream, the count of samples and the destination in cluster memory. -/
structure DfeJob where
  capture : Bool
  chain : Fin 64
  t : Nat
  stream : Fin 64
  n : Nat
  dst : BitVec 27
  deriving DecidableEq, Repr, Inhabited

end Sys2Proof

namespace Sys2Proof.Config

/-- A fresh unstated value of `w` bits: the model applies it to its counter `State.fresh` (log entry 1). -/
opaque freeValue (w : Nat) : Nat → BitVec w

/-- A fresh unstated number, for an instant or a choice that the spec gives only as a bound (R12, log entry 2). -/
opaque freeNat : Nat → Nat

/-- An instant within a published bound (R12): a number from 0 to `bound`, not otherwise known. -/
def within (bound key : Nat) : Nat := freeNat key % (bound + 1)

/-- The sign and payload of the NaN that an operation with NaN operands gives, as a bit pattern (IEEE 754 leaves them open; log entry 6). -/
opaque nanPayload : Nat → Nat → Nat

/-- The code that an I8 pack gives for an infinite element under an infinite scale (R89 states none; log entry 7). -/
opaque i8InfInf : BitVec 8

/-- The second operand of a chain stage whose bsel selects none (R95 states none; log entry 7). -/
opaque chainNone : BitVec 32

/-- The conversion of a complex ci16 element to another type, and of a value to ci16, in a fused chain (R95 states none; log entry 7):
type code, source bits. -/
opaque cvtComplex : Nat → Nat → Nat

/-- The shift value V of a base graph entry (38.212 Tables 5.3.2-2 and 5.3.2-3; log entry 10): base graph 2 or 1, set index, row, column. -/
opaque bgShift : Bool → Nat → Nat → Nat → Nat

/-- The bits that fill the last byte of an engine's bit output (R207 states none): a fixed function of the descriptor and the output (R194; log
entry 11). -/
opaque padBits : BitVec 1024 → List Bool → BitVec 8

/-- The polar sequence of 38.212 Table 5.3.1.2-1: bit index of rank i (log entry 10). -/
opaque polarSequence : Nat → Nat

/-- The interleaving pattern of 38.212 Table 5.3.1.1-1, 164 entries (log entry 10). -/
opaque polarInterleave : Nat → Nat

/-- The basis sequences M_i,n of 38.212 Table 5.3.3.3-1 (log entry 10): i, n. -/
opaque smallBasis : Nat → Nat → Bool

/-- The binary32 value that an EQ engine holds at step k where binary32 arithmetic in ascending order gives the argument: R196 and R198 to
R200 state neither an order nor a rounding (log entry 15). -/
opaque eqStep : Nat → BitVec 32 → BitVec 32

/-- The power P of an all-zero window (R174 states none; log entry 46). -/
opaque zeroPower : BitVec 8

/-- Sample `i` that a DDC branch gives for a window (R173; log entry 46): decimation code, NCO word, what the branch holds of earlier samples, the
components of the window's samples. -/
opaque ddcOut : Nat → BitVec 32 → Nat → List Int → Nat → BitVec 32

/-- What a DDC branch holds of the samples up to the end of a window, with the same arguments. -/
opaque ddcHold : Nat → BitVec 32 → Nat → List Int → Nat

/-- Sample `i` from an air instant on that a DUC branch gives (R181; log entry 46): interpolation code, NCO word, the symbols given to the branch,
the instant. -/
opaque ducOut : Nat → BitVec 32 → List (Nat × List (BitVec 32)) → Nat → Int → BitVec 32

/-- Sample `i` of a sum of branches after the clip-and-filter pass of CFR (R181; log entry 46): the threshold, the components of the sum. -/
opaque cfrOut : Nat → (Int → Int × Int) → Int → BitVec 32

/-- L of the batch ring that an EQ descriptor names by its header alone (R195 gives no depth; log entry 16). -/
opaque batchDepth : BitVec 1024 → Nat

/-- The fields of a descriptor of the DFE job unit: R182 names them and gives no layout (log entry 19). -/
opaque dfeJob : BitVec 256 → DfeJob

/-- Element k of an FFT output that R178 and R179 do not define: a size above 5, or a subcarrier beyond the carrier (log entry 20). -/
opaque fftOpen : BitVec 1024 → Nat → BitVec 32

/-- Sample k of an IFFT symbol under the same values (log entry 20). -/
opaque ifftOpen : BitVec 1024 → Nat → BitVec 32

/-- The output PRB at which a resized message begins when its kept PRBs are not consecutive from the first kept PRB of the stream
(R163 does not say; log entry 21): U, D, the kept PRBs. -/
opaque resizePlace : Nat → Nat → List Nat → Nat

/-- The udCompParam that the egress engine sends for block scaling and µ-law (R161 states the choice for block floating point alone; log
entry 24): method, width, the bytes of the PRB. -/
opaque egressParam : Nat → Nat → List (BitVec 8) → BitVec 8

/-- Which side of a DMA descriptor with a non-zero chip field is the remote one (R134 does not say): true, the source; log entry 9. -/
opaque chipIsSource : BitVec 512 → Bool

/-- θ_r of a temperature sensor's region, fused, in °C per W (R331; log entry 3). -/
opaque thetaR : Nat → Rat

/-- The digest of the boot ROM that is fused (R360; log entry 3). -/
opaque romDigest : BitVec 512

/-- The 64-byte value by which an image extends its measurement register (R360 and R364 do not say which digest it is; log entry 28). -/
opaque imageMeasure : List (BitVec 8) → BitVec 512

/-- The image that software has put in flash for a management firmware update asked for by a plain register write: the flash is outside the
block (log entry 29). -/
opaque flashAnswer : Nat → List (BitVec 8)

/-- The payload of a TIME flit: reply or request, then t2, t3, cf1 and cf2 (R291 gives the record no layout; log entry 59). -/
opaque timeBytes : Bool → List Int → List (BitVec 8)

/-- A field of the record that a TIME flit's payload holds: 0 reply, 1 t2, 2 t3, 3 cf1, 4 cf2 (log entry 59). -/
opaque timeField : Nat → List (BitVec 8) → Int

/-- The byte at an offset of the endpoint's configuration space that the host has not written (R284 describes the function, not its bytes; log
entry 63). -/
opaque pcieConfig : Nat → BitVec 8

/-- A register of a hart that the part fixes, by CSR number: the vendor, architecture and implementation numbers (R348 gives none; log entry 62). -/
opaque hartId : Nat → BitVec 64

/-- The wrap of an air timeline: 1,024 frames of 4,915,200 at (R9, R10). -/
def airWrap : Nat := 5033164800

/-- Air ticks in one 10 ms frame. -/
def frameTicks : Nat := 4915200

/-- FCK cycles in a millisecond, as R31 counts them. -/
def ckPerMs : Nat := 2200000

/-- FCK cycles in a microsecond. -/
def ckPerUs : Nat := 2200

/-- Units of 2^-40 ns in a nanosecond: the fraction of NT (R23). -/
def ntFrac : Nat := 2 ^ 40

end Sys2Proof.Config
end

