-- ==== Sys2Proof/Machine/Arith.lean ====
section
/-! DEFINITION. The arithmetic helpers of R8 and R9 over exact integers and rationals, and small bit helpers. -/

namespace Sys2Proof.Machine

/-- `sat` of R9: clamp `x` into `[lo, hi]`. -/
def sat (x lo hi : Int) : Int := if x < lo then lo else if x > hi then hi else x

/-- `sat` of R9 over the rationals. -/
def satQ (x lo hi : Rat) : Rat := if x < lo then lo else if x > hi then hi else x

/-- `rne` of R9: nearest integer, an exact half to the even one. -/
def rne (x : Rat) : Int :=
  let f := x.floor
  let d := x - (f : Rat)
  if d > 1 / 2 then f + 1 else if d < 1 / 2 then f else if f % 2 = 0 then f else f + 1

/-- `ceil_div` of R9. -/
def ceilDiv (a b : Nat) : Nat := (a + b - 1) / b

/-- 2 to an integer power, exact. -/
def pow2 (e : Int) : Rat := if 0 ≤ e then ((2 ^ e.toNat : Nat) : Rat) else 1 / ((2 ^ (-e).toNat : Nat) : Rat)

/-- The low `w` bits of an integer in two's complement, as a natural number: the cast (uN) of R8. -/
def uCast (w : Nat) (x : Int) : Nat := (x % (2 ^ w : Nat)).toNat

/-- The signed reading of the low `w` bits of a natural number: the cast (sN) of R8. -/
def sCast (w : Nat) (n : Nat) : Int :=
  let m := n % 2 ^ w
  if 2 * m < 2 ^ w then (m : Int) else (m : Int) - (2 ^ w : Nat)

/-- Bits `[lo + w - 1 : lo]` of a natural number. -/
def bitsOf (n lo w : Nat) : Nat := (n >>> lo) % 2 ^ w

/-- `n` with bits `[lo + w - 1 : lo]` replaced by `v`. -/
def setBitsOf (n lo w v : Nat) : Nat :=
  n % 2 ^ lo + (v % 2 ^ w) * 2 ^ lo + (n / 2 ^ (lo + w)) * 2 ^ (lo + w)

/-- The positions below `w` whose bit is set, rising. -/
def onesOf (w n : Nat) : List Nat := (List.range w).filter (fun i => n.testBit i)

/-- The saturating increment of a 32-bit counter that does not wrap. -/
def satInc32 (n : Nat) : Nat := if n ≥ 2 ^ 32 - 1 then 2 ^ 32 - 1 else n + 1

/-- `f` applied `n` times. -/
def iter {α : Type} (f : α → α) : Nat → α → α
  | 0, a => a
  | n + 1, a => iter f n (f a)

/-- Element `i` of a list, `d` beyond its end. -/
def nthD {α : Type} (l : List α) (i : Nat) (d : α) : α := (l[i]?).getD d

/-- The low bytes of a natural number, least significant first. -/
def bytesOf : Nat → Nat → List (BitVec 8)
  | 0, _ => []
  | n + 1, v => BitVec.ofNat 8 v :: bytesOf n (v / 256)

/-- The natural number whose bytes, least significant first, are these. -/
def natOfBytes : List (BitVec 8) → Nat
  | [] => 0
  | b :: bs => b.toNat + 256 * natOfBytes bs

/-- The natural number whose bytes, most significant first, are these. -/
def natOfBytesBE (bs : List (BitVec 8)) : Nat := bs.foldl (fun a b => a * 256 + b.toNat) 0

/-- The low `n` bytes of a natural number, most significant first. -/
def bytesBE (n v : Nat) : List (BitVec 8) := (bytesOf n v).reverse

end Sys2Proof.Machine
end

