-- ==== Sys2Proof/Machine/RegMap.lean ====
section
/-! DEFINITION. The register map: every register line of the spec's register tables (R3, R6, R382, R383), with the
address of each field, its access code and its Reset value.  A field `F` of a register `REG` is `REG.F`, as the spec
cites it; the arguments are the indices of the register's name and offset, outermost first. -/

namespace Sys2Proof.Machine

/-- Access codes of R3. -/
inductive Access where
  | ro | rw | w1c | w1s | wo | rsv
  deriving DecidableEq, Repr

/-- A register field: the system address of its register (R382), its lowest bit and its width. -/
structure Fld where
  addr : Nat
  lo : Nat
  w : Nat
  deriving DecidableEq, Repr

/-- One row of a register table: bits `hi` to `lo`, access code, Reset value. -/
structure RegField where
  hi : Nat
  lo : Nat
  acc : Access
  reset : Nat
  deriving DecidableEq, Repr

/-- One register line: address of the instance with all indices 0, (stride, count) of each index, width in bits, rows. -/
structure RegLine where
  base : Nat
  idx : List (Nat × Nat)
  width : Nat
  fields : List RegField
  deriving DecidableEq, Repr
/-- TMB_CTL: Time-base control (chapter 02), 32 bits. -/
def TMB_CTL.reg : Nat := 0x1800700000
def TMB_CTL.ho_force : Fld := ⟨TMB_CTL.reg, 9, 1⟩
def TMB_CTL.servo_en : Fld := ⟨TMB_CTL.reg, 8, 1⟩
def TMB_CTL.freq_src : Fld := ⟨TMB_CTL.reg, 2, 6⟩
def TMB_CTL.phase_src : Fld := ⟨TMB_CTL.reg, 0, 2⟩
/-- TMB_STAT: Time-base status (chapter 02), 32 bits. -/
def TMB_STAT.reg : Nat := 0x1800700004
def TMB_STAT.phase_ok : Fld := ⟨TMB_STAT.reg, 3, 1⟩
def TMB_STAT.freq_ok : Fld := ⟨TMB_STAT.reg, 2, 1⟩
def TMB_STAT.state : Fld := ⟨TMB_STAT.reg, 0, 2⟩
/-- TMB_CAUSE: Time-base causes (chapter 02), 32 bits. -/
def TMB_CAUSE.reg : Nat := 0x1800700008
def TMB_CAUSE.pps_ovr : Fld := ⟨TMB_CAUSE.reg, 4, 1⟩
def TMB_CAUSE.ylim : Fld := ⟨TMB_CAUSE.reg, 3, 1⟩
def TMB_CAUSE.freq_lost : Fld := ⟨TMB_CAUSE.reg, 2, 1⟩
def TMB_CAUSE.ho_exit : Fld := ⟨TMB_CAUSE.reg, 1, 1⟩
def TMB_CAUSE.ho_enter : Fld := ⟨TMB_CAUSE.reg, 0, 1⟩
/-- TMB_SNAP: Snapshot trigger (chapter 02), 32 bits. -/
def TMB_SNAP.reg : Nat := 0x1800700010
def TMB_SNAP.snap : Fld := ⟨TMB_SNAP.reg, 0, 1⟩
/-- TMB_SNAP_SEC: Snapshot seconds (chapter 02), 64 bits. -/
def TMB_SNAP_SEC.reg : Nat := 0x1800700018
def TMB_SNAP_SEC.sec : Fld := ⟨TMB_SNAP_SEC.reg, 0, 48⟩
/-- TMB_SNAP_NS: Snapshot nanoseconds (chapter 02), 64 bits. -/
def TMB_SNAP_NS.reg : Nat := 0x1800700020
def TMB_SNAP_NS.ns : Fld := ⟨TMB_SNAP_NS.reg, 32, 30⟩
def TMB_SNAP_NS.frac : Fld := ⟨TMB_SNAP_NS.reg, 0, 32⟩
/-- TMB_SNAP_MONO: Snapshot monotonic count (chapter 02), 64 bits. -/
def TMB_SNAP_MONO.reg : Nat := 0x1800700028
def TMB_SNAP_MONO.ck : Fld := ⟨TMB_SNAP_MONO.reg, 0, 64⟩
/-- TMB_MONO: Monotonic counter (chapter 02), 64 bits. -/
def TMB_MONO.reg : Nat := 0x1800700030
def TMB_MONO.ck : Fld := ⟨TMB_MONO.reg, 0, 64⟩
/-- TMB_SNAP_ATn: Snapshot air time of ATn (chapter 02), 64 bits. -/
def TMB_SNAP_ATn.reg (n : Nat) : Nat := 0x1800700040 + 0x8 * n
def TMB_SNAP_ATn.at (n : Nat) : Fld := ⟨TMB_SNAP_ATn.reg n, 0, 33⟩
/-- TMB_NT_INC_NOM: Nominal increment (chapter 02), 64 bits. -/
def TMB_NT_INC_NOM.reg : Nat := 0x1800700080
def TMB_NT_INC_NOM.inc : Fld := ⟨TMB_NT_INC_NOM.reg, 0, 48⟩
/-- TMB_NT_INC: Present increment (chapter 02), 64 bits. -/
def TMB_NT_INC.reg : Nat := 0x1800700088
def TMB_NT_INC.inc : Fld := ⟨TMB_NT_INC.reg, 0, 48⟩
/-- TMB_PHERR: Phase error input (chapter 02), 64 bits. -/
def TMB_PHERR.reg : Nat := 0x1800700090
def TMB_PHERR.theta : Fld := ⟨TMB_PHERR.reg, 0, 48⟩
/-- TMB_YLIM: Correction limit (chapter 02), 32 bits. -/
def TMB_YLIM.reg : Nat := 0x18007000a4
def TMB_YLIM.ppb : Fld := ⟨TMB_YLIM.reg, 0, 20⟩
/-- TMB_WDOG: Phase watchdog (chapter 02), 32 bits. -/
def TMB_WDOG.reg : Nat := 0x18007000a8
def TMB_WDOG.ms : Fld := ⟨TMB_WDOG.reg, 0, 16⟩
/-- TMB_STEP: Phase step (chapter 02), 64 bits. -/
def TMB_STEP.reg : Nat := 0x18007000b0
def TMB_STEP.step : Fld := ⟨TMB_STEP.reg, 0, 48⟩
/-- TMB_EPOCH: Air epoch (chapter 02), 64 bits. -/
def TMB_EPOCH.reg : Nat := 0x18007000b8
def TMB_EPOCH.sec : Fld := ⟨TMB_EPOCH.reg, 0, 48⟩
/-- TMB_ATn_CFG: Air timeline configuration (chapter 02), 32 bits. -/
def TMB_ATn_CFG.reg (n : Nat) : Nat := 0x1800700100 + 0x10 * n
def TMB_ATn_CFG.dup (n : Nat) : Fld := ⟨TMB_ATn_CFG.reg n, 4, 1⟩
def TMB_ATn_CFG.ecp (n : Nat) : Fld := ⟨TMB_ATn_CFG.reg n, 3, 1⟩
def TMB_ATn_CFG.mu (n : Nat) : Fld := ⟨TMB_ATn_CFG.reg n, 1, 2⟩
def TMB_ATn_CFG.en (n : Nat) : Fld := ⟨TMB_ATn_CFG.reg n, 0, 1⟩
/-- TMB_ATn_OFF: Air timeline offset (chapter 02), 64 bits. -/
def TMB_ATn_OFF.reg (n : Nat) : Nat := 0x1800700108 + 0x10 * n
def TMB_ATn_OFF.off (n : Nat) : Fld := ⟨TMB_ATn_OFF.reg n, 0, 33⟩
/-- TMB_PPSO: PPS output control (chapter 02), 32 bits. -/
def TMB_PPSO.reg : Nat := 0x1800700184
def TMB_PPSO.width : Fld := ⟨TMB_PPSO.reg, 8, 8⟩
def TMB_PPSO.en : Fld := ⟨TMB_PPSO.reg, 0, 1⟩
/-- TMB_OS_CTL: One-step control (chapter 02), 32 bits. -/
def TMB_OS_CTL.reg : Nat := 0x1800700180
def TMB_OS_CTL.udp : Fld := ⟨TMB_OS_CTL.reg, 0, 2⟩
/-- ORR_RINGr_CFG: Submission ring configuration (chapter 02), 64 bits. -/
def ORR_RINGr_CFG.reg (r : Nat) : Nat := 0x1800800800 + 0x8 * r
def ORR_RINGr_CFG.en (r : Nat) : Fld := ⟨ORR_RINGr_CFG.reg r, 28, 1⟩
def ORR_RINGr_CFG.log2size (r : Nat) : Fld := ⟨ORR_RINGr_CFG.reg r, 24, 4⟩
def ORR_RINGr_CFG.offset (r : Nat) : Fld := ⟨ORR_RINGr_CFG.reg r, 6, 18⟩
def ORR_RINGr_CFG.cluster (r : Nat) : Fld := ⟨ORR_RINGr_CFG.reg r, 0, 3⟩
/-- ORR_JOBTj: Job table entry (chapter 02), 128 bits. -/
def ORR_JOBTj.reg (j : Nat) : Nat := 0x1800801000 + 0x10 * j
def ORR_JOBTj.cluster (j : Nat) : Fld := ⟨ORR_JOBTj.reg j, 88, 3⟩
def ORR_JOBTj.desc (j : Nat) : Fld := ⟨ORR_JOBTj.reg j, 64, 24⟩
def ORR_JOBTj.kind (j : Nat) : Fld := ⟨ORR_JOBTj.reg j, 62, 2⟩
def ORR_JOBTj.first (j : Nat) : Fld := ⟨ORR_JOBTj.reg j, 56, 6⟩
def ORR_JOBTj.span (j : Nat) : Fld := ⟨ORR_JOBTj.reg j, 50, 6⟩
def ORR_JOBTj.flag (j : Nat) : Fld := ⟨ORR_JOBTj.reg j, 45, 5⟩
/-- ORR_GRPg: Chain group (chapter 02), 64 bits. -/
def ORR_GRPg.reg (g : Nat) : Nat := 0x1800805000 + 0x8 * g
def ORR_GRPg.rx (g : Nat) : Fld := ⟨ORR_GRPg.reg g, 0, 64⟩
/-- ORR_IDLEs: Idle set (chapter 02), 256 bits. -/
def ORR_IDLEs.reg (s : Nat) : Nat := 0x1800805800 + 0x20 * s
def ORR_IDLEs.eq (s : Nat) : Fld := ⟨ORR_IDLEs.reg s, 144, 8⟩
def ORR_IDLEs.fft (s : Nat) : Fld := ⟨ORR_IDLEs.reg s, 128, 16⟩
def ORR_IDLEs.tx (s : Nat) : Fld := ⟨ORR_IDLEs.reg s, 64, 64⟩
def ORR_IDLEs.rx (s : Nat) : Fld := ⟨ORR_IDLEs.reg s, 0, 64⟩
/-- ORR_ENGn_CTL: Engine control (chapter 02), 32 bits. -/
def ORR_ENGn_CTL.reg (n : Nat) : Nat := 0x1800800000 + 0x40 * n
def ORR_ENGn_CTL.bank (n : Nat) : Fld := ⟨ORR_ENGn_CTL.reg n, 4, 1⟩
def ORR_ENGn_CTL.at (n : Nat) : Fld := ⟨ORR_ENGn_CTL.reg n, 1, 3⟩
def ORR_ENGn_CTL.run (n : Nat) : Fld := ⟨ORR_ENGn_CTL.reg n, 0, 1⟩
/-- ORR_ENGn_STAT: Engine status (chapter 02), 32 bits. -/
def ORR_ENGn_STAT.reg (n : Nat) : Nat := 0x1800800004 + 0x40 * n
def ORR_ENGn_STAT.state (n : Nat) : Fld := ⟨ORR_ENGn_STAT.reg n, 12, 3⟩
def ORR_ENGn_STAT.bank (n : Nat) : Fld := ⟨ORR_ENGn_STAT.reg n, 11, 1⟩
def ORR_ENGn_STAT.pc (n : Nat) : Fld := ⟨ORR_ENGn_STAT.reg n, 0, 11⟩
/-- ORR_ENGn_BANKV: Bank valid (chapter 02), 32 bits. -/
def ORR_ENGn_BANKV.reg (n : Nat) : Nat := 0x1800800008 + 0x40 * n
def ORR_ENGn_BANKV.valid (n : Nat) : Fld := ⟨ORR_ENGn_BANKV.reg n, 0, 2⟩
/-- ORR_ENGn_TAk: Time register (chapter 02), 64 bits. -/
def ORR_ENGn_TAk.reg (n k : Nat) : Nat := 0x1800800010 + 0x40 * n + 0x8 * k
def ORR_ENGn_TAk.t (n k : Nat) : Fld := ⟨ORR_ENGn_TAk.reg n k, 0, 33⟩
/-- ORR_CAUSE: Orrery causes (chapter 02), 64 bits. -/
def ORR_CAUSE.reg : Nat := 0x1800800400
def ORR_CAUSE.bad_op : Fld := ⟨ORR_CAUSE.reg, 32, 8⟩
def ORR_CAUSE.conj : Fld := ⟨ORR_CAUSE.reg, 24, 8⟩
def ORR_CAUSE.wr_active : Fld := ⟨ORR_CAUSE.reg, 16, 8⟩
def ORR_CAUSE.ring_bad : Fld := ⟨ORR_CAUSE.reg, 8, 8⟩
def ORR_CAUSE.scan_ovf : Fld := ⟨ORR_CAUSE.reg, 0, 8⟩
/-- ORR_CONJ_CTL: Conjunction control (chapter 02), 32 bits. -/
def ORR_CONJ_CTL.reg : Nat := 0x1800800420
def ORR_CONJ_CTL.lead : Fld := ⟨ORR_CONJ_CTL.reg, 16, 16⟩
def ORR_CONJ_CTL.tmo : Fld := ⟨ORR_CONJ_CTL.reg, 8, 8⟩
def ORR_CONJ_CTL.role : Fld := ⟨ORR_CONJ_CTL.reg, 0, 2⟩
/-- ORR_CONJ_STAT: Conjunction faults (chapter 02), 32 bits. -/
def ORR_CONJ_STAT.reg : Nat := 0x1800800424
def ORR_CONJ_STAT.late : Fld := ⟨ORR_CONJ_STAT.reg, 2, 1⟩
def ORR_CONJ_STAT.id : Fld := ⟨ORR_CONJ_STAT.reg, 1, 1⟩
def ORR_CONJ_STAT.tmo : Fld := ⟨ORR_CONJ_STAT.reg, 0, 1⟩
/-- TIL_CTL: Tile control (chapter 03), 32 bits. -/
def TIL_CTL.reg (t : Nat) : Nat := 0x1804000000 + 0x10000 * t
def TIL_CTL.yreq (t : Nat) : Fld := ⟨TIL_CTL.reg t, 1, 1⟩
def TIL_CTL.run (t : Nat) : Fld := ⟨TIL_CTL.reg t, 0, 1⟩
/-- TIL_STAT: Tile status (chapter 03), 32 bits. -/
def TIL_STAT.reg (t : Nat) : Nat := 0x1804000004 + 0x10000 * t
def TIL_STAT.pc (t : Nat) : Fld := ⟨TIL_STAT.reg t, 3, 17⟩
def TIL_STAT.state (t : Nat) : Fld := ⟨TIL_STAT.reg t, 0, 3⟩
/-- TIL_ENTRY: Entry point (chapter 03), 32 bits. -/
def TIL_ENTRY.reg (t : Nat) : Nat := 0x1804000008 + 0x10000 * t
def TIL_ENTRY.idx (t : Nat) : Fld := ⟨TIL_ENTRY.reg t, 0, 17⟩
/-- TIL_VEC: Interrupt vector (chapter 03), 32 bits. -/
def TIL_VEC.reg (t : Nat) : Nat := 0x180400000c + 0x10000 * t
def TIL_VEC.idx (t : Nat) : Fld := ⟨TIL_VEC.reg t, 0, 17⟩
/-- TIL_EVF: Event flags (chapter 03), 32 bits. -/
def TIL_EVF.reg (t : Nat) : Nat := 0x1804000010 + 0x10000 * t
def TIL_EVF.f (t : Nat) : Fld := ⟨TIL_EVF.reg t, 0, 32⟩
/-- TIL_EVS: Event flag set (chapter 03), 32 bits. -/
def TIL_EVS.reg (t : Nat) : Nat := 0x1804000014 + 0x10000 * t
def TIL_EVS.f (t : Nat) : Fld := ⟨TIL_EVS.reg t, 0, 32⟩
/-- TIL_CAUSE: Tile causes (chapter 03), 32 bits. -/
def TIL_CAUSE.reg (t : Nat) : Nat := 0x1804000020 + 0x10000 * t
def TIL_CAUSE.evf_ovr (t : Nat) : Fld := ⟨TIL_CAUSE.reg t, 4, 1⟩
def TIL_CAUSE.ecc1 (t : Nat) : Fld := ⟨TIL_CAUSE.reg t, 3, 1⟩
def TIL_CAUSE.ecc2 (t : Nat) : Fld := ⟨TIL_CAUSE.reg t, 2, 1⟩
def TIL_CAUSE.loop_ovf (t : Nat) : Fld := ⟨TIL_CAUSE.reg t, 1, 1⟩
def TIL_CAUSE.bad_op (t : Nat) : Fld := ⟨TIL_CAUSE.reg t, 0, 1⟩
/-- TIL_ECCA: Last corrected address (chapter 03), 32 bits. -/
def TIL_ECCA.reg (t : Nat) : Nat := 0x1804000028 + 0x10000 * t
def TIL_ECCA.addr (t : Nat) : Fld := ⟨TIL_ECCA.reg t, 0, 21⟩
/-- TIL_VCTB: Chain table base (chapter 04), 32 bits. -/
def TIL_VCTB.reg (t : Nat) : Nat := 0x1804000100 + 0x10000 * t
def TIL_VCTB.base (t : Nat) : Fld := ⟨TIL_VCTB.reg t, 14, 7⟩
/-- TIL_VSATc: Saturation counter c (chapter 04), 32 bits. -/
def TIL_VSATc.reg (t c : Nat) : Nat := 0x1804000140 + 0x10000 * t + 0x4 * c
def TIL_VSATc.count (t c : Nat) : Fld := ⟨TIL_VSATc.reg t c, 0, 32⟩
/-- TIL_MSTAT: Matrix engine status (chapter 05), 32 bits. -/
def TIL_MSTAT.reg (t : Nat) : Nat := 0x1804000180 + 0x10000 * t
def TIL_MSTAT.bfmt (t : Nat) : Fld := ⟨TIL_MSTAT.reg t, 16, 16⟩
def TIL_MSTAT.rd_busy (t : Nat) : Fld := ⟨TIL_MSTAT.reg t, 10, 1⟩
def TIL_MSTAT.arr_busy (t : Nat) : Fld := ⟨TIL_MSTAT.reg t, 9, 1⟩
def TIL_MSTAT.ld_busy (t : Nat) : Fld := ⟨TIL_MSTAT.reg t, 8, 1⟩
/-- MEMC_STEPMAP: Step map (chapter 06), 64 bits. -/
def MEMC_STEPMAP.reg : Nat := 0x1800b00000
def MEMC_STEPMAP.step : Fld := ⟨MEMC_STEPMAP.reg, 0, 64⟩
/-- MEMC_RSV_RD: Read-share reservations (chapter 06), 64 bits. -/
def MEMC_RSV_RD.reg : Nat := 0x1800b00010
def MEMC_RSV_RD.comet : Fld := ⟨MEMC_RSV_RD.reg, 32, 4⟩
def MEMC_RSV_RD.acx : Fld := ⟨MEMC_RSV_RD.reg, 16, 16⟩
def MEMC_RSV_RD.swap : Fld := ⟨MEMC_RSV_RD.reg, 0, 16⟩
/-- MEMC_CAUSE: Controller causes (chapter 06), 32 bits. -/
def MEMC_CAUSE.reg : Nat := 0x1800b00040
def MEMC_CAUSE.clip : Fld := ⟨MEMC_CAUSE.reg, 1, 1⟩
def MEMC_CAUSE.hole : Fld := ⟨MEMC_CAUSE.reg, 0, 1⟩
/-- MEMC_HOLEA: Last unbacked address (chapter 06), 64 bits. -/
def MEMC_HOLEA.reg : Nat := 0x1800b00048
def MEMC_HOLEA.addr : Fld := ⟨MEMC_HOLEA.reg, 0, 40⟩
/-- DMA_Qn_RING: Descriptor ring (chapter 06), 64 bits. -/
def DMA_Qn_RING.reg (c n : Nat) : Nat := 0x1800a00000 + 0x10000 * c + 0x40 * n
def DMA_Qn_RING.en (c n : Nat) : Fld := ⟨DMA_Qn_RING.reg c n, 28, 1⟩
def DMA_Qn_RING.log2size (c n : Nat) : Fld := ⟨DMA_Qn_RING.reg c n, 24, 4⟩
def DMA_Qn_RING.offset (c n : Nat) : Fld := ⟨DMA_Qn_RING.reg c n, 6, 18⟩
/-- DMA_Qn_CFG: Queue configuration (chapter 06), 32 bits. -/
def DMA_Qn_CFG.reg (c n : Nat) : Nat := 0x1800a00008 + 0x10000 * c + 0x40 * n
def DMA_Qn_CFG.lag (c n : Nat) : Fld := ⟨DMA_Qn_CFG.reg c n, 24, 8⟩
def DMA_Qn_CFG.prio (c n : Nat) : Fld := ⟨DMA_Qn_CFG.reg c n, 16, 2⟩
def DMA_Qn_CFG.outst (c n : Nat) : Fld := ⟨DMA_Qn_CFG.reg c n, 0, 6⟩
/-- DMA_Qn_CTL: Queue control (chapter 06), 32 bits. -/
def DMA_Qn_CTL.reg (c n : Nat) : Nat := 0x1800a0000c + 0x10000 * c + 0x40 * n
def DMA_Qn_CTL.cancel (c n : Nat) : Fld := ⟨DMA_Qn_CTL.reg c n, 1, 1⟩
def DMA_Qn_CTL.go (c n : Nat) : Fld := ⟨DMA_Qn_CTL.reg c n, 0, 1⟩
/-- DMA_Qn_STAT: Queue status (chapter 06), 32 bits. -/
def DMA_Qn_STAT.reg (c n : Nat) : Nat := 0x1800a00010 + 0x10000 * c + 0x40 * n
def DMA_Qn_STAT.nout (c n : Nat) : Fld := ⟨DMA_Qn_STAT.reg c n, 8, 7⟩
def DMA_Qn_STAT.cancelled (c n : Nat) : Fld := ⟨DMA_Qn_STAT.reg c n, 2, 1⟩
def DMA_Qn_STAT.urgent (c n : Nat) : Fld := ⟨DMA_Qn_STAT.reg c n, 1, 1⟩
def DMA_Qn_STAT.busy (c n : Nat) : Fld := ⟨DMA_Qn_STAT.reg c n, 0, 1⟩
/-- DMA_Cc_WHEELi: Wheel entries 8i to 8i + 7 (chapter 06), 64 bits. -/
def DMA_Cc_WHEELi.reg (c i : Nat) : Nat := 0x1800a00800 + 0x10000 * c + 0x8 * i
def DMA_Cc_WHEELi.en (c i j : Nat) : Fld := ⟨DMA_Cc_WHEELi.reg c i, 8 * j + 7, 1⟩
def DMA_Cc_WHEELi.queue (c i j : Nat) : Fld := ⟨DMA_Cc_WHEELi.reg c i, 8 * j + 0, 5⟩
/-- DMA_Cc_CAUSE: Cluster DMA causes (chapter 06), 64 bits. -/
def DMA_Cc_CAUSE.reg (c : Nat) : Nat := 0x1800a00900 + 0x10000 * c
def DMA_Cc_CAUSE.mc_drop (c : Nat) : Fld := ⟨DMA_Cc_CAUSE.reg c, 32, 32⟩
def DMA_Cc_CAUSE.bad (c : Nat) : Fld := ⟨DMA_Cc_CAUSE.reg c, 0, 32⟩
/-- DMA_Cc_MCDROPn: Dropped receivers of Qn (chapter 06), 32 bits. -/
def DMA_Cc_MCDROPn.reg (c n : Nat) : Nat := 0x1800a00a00 + 0x10000 * c + 0x4 * n
def DMA_Cc_MCDROPn.rcv (c n : Nat) : Fld := ⟨DMA_Cc_MCDROPn.reg c n, 0, 8⟩
/-- DMA_AGE: Starvation limit (chapter 06), 32 bits. -/
def DMA_AGE.reg : Nat := 0x1800a80000
def DMA_AGE.us : Fld := ⟨DMA_AGE.reg, 0, 16⟩
/-- DMA_RINGA_OWN: Ring A ownership (chapter 06), 128 bits. -/
def DMA_RINGA_OWN.reg : Nat := 0x1800a80010
def DMA_RINGA_OWN.own : Fld := ⟨DMA_RINGA_OWN.reg, 0, 96⟩
/-- TIL_CMT: Comet ring (chapter 06), 32 bits. -/
def TIL_CMT.reg (t : Nat) : Nat := 0x18040001c0 + 0x10000 * t
def TIL_CMT.n (t : Nat) : Fld := ⟨TIL_CMT.reg t, 21, 3⟩
def TIL_CMT.base (t : Nat) : Fld := ⟨TIL_CMT.reg t, 6, 15⟩
/-- TIL_CMTSTAT: Comet status (chapter 06), 32 bits. -/
def TIL_CMTSTAT.reg (t : Nat) : Nat := 0x18040001c4 + 0x10000 * t
def TIL_CMTSTAT.bad (t : Nat) : Fld := ⟨TIL_CMTSTAT.reg t, 7, 1⟩
def TIL_CMTSTAT.nout (t : Nat) : Fld := ⟨TIL_CMTSTAT.reg t, 0, 7⟩
/-- FH_CAUSE: Fronthaul ingress causes (chapter 07), 32 bits. -/
def FH_CAUSE.reg : Nat := 0x1800c00000
def FH_CAUSE.ovr : Fld := ⟨FH_CAUSE.reg, 10, 1⟩
def FH_CAUSE.lw : Fld := ⟨FH_CAUSE.reg, 9, 1⟩
def FH_CAUSE.qfull : Fld := ⟨FH_CAUSE.reg, 8, 1⟩
def FH_CAUSE.cap : Fld := ⟨FH_CAUSE.reg, 7, 1⟩
def FH_CAUSE.short : Fld := ⟨FH_CAUSE.reg, 6, 1⟩
def FH_CAUSE.badcomp : Fld := ⟨FH_CAUSE.reg, 5, 1⟩
def FH_CAUSE.hdr : Fld := ⟨FH_CAUSE.reg, 4, 1⟩
def FH_CAUSE.nomatch : Fld := ⟨FH_CAUSE.reg, 3, 1⟩
def FH_CAUSE.dir : Fld := ⟨FH_CAUSE.reg, 2, 1⟩
def FH_CAUSE.stale : Fld := ⟨FH_CAUSE.reg, 1, 1⟩
def FH_CAUSE.early : Fld := ⟨FH_CAUSE.reg, 0, 1⟩
/-- FH_LAST: Last stream in error (chapter 07), 32 bits. -/
def FH_LAST.reg : Nat := 0x1800c00008
def FH_LAST.str : Fld := ⟨FH_LAST.reg, 0, 8⟩
/-- FH_STRm_CFG: Stream configuration (chapter 07), 64 bits. -/
def FH_STRm_CFG.reg (m : Nat) : Nat := 0x1800c10000 + 0x80 * m
def FH_STRm_CFG.en (m : Nat) : Fld := ⟨FH_STRm_CFG.reg m, 63, 1⟩
def FH_STRm_CFG.prach (m : Nat) : Fld := ⟨FH_STRm_CFG.reg m, 62, 1⟩
def FH_STRm_CFG.static (m : Nat) : Fld := ⟨FH_STRm_CFG.reg m, 61, 1⟩
def FH_STRm_CFG.meth (m : Nat) : Fld := ⟨FH_STRm_CFG.reg m, 57, 4⟩
def FH_STRm_CFG.width (m : Nat) : Fld := ⟨FH_STRm_CFG.reg m, 53, 4⟩
def FH_STRm_CFG.at (m : Nat) : Fld := ⟨FH_STRm_CFG.reg m, 50, 3⟩
def FH_STRm_CFG.queue (m : Nat) : Fld := ⟨FH_STRm_CFG.reg m, 44, 6⟩
def FH_STRm_CFG.pos (m : Nat) : Fld := ⟨FH_STRm_CFG.reg m, 37, 7⟩
def FH_STRm_CFG.nprb (m : Nat) : Fld := ⟨FH_STRm_CFG.reg m, 28, 9⟩
def FH_STRm_CFG.nmsg (m : Nat) : Fld := ⟨FH_STRm_CFG.reg m, 16, 4⟩
def FH_STRm_CFG.eaxc (m : Nat) : Fld := ⟨FH_STRm_CFG.reg m, 0, 16⟩
/-- FH_STRm_WIN: Receive window (chapter 07), 64 bits. -/
def FH_STRm_WIN.reg (m : Nat) : Nat := 0x1800c10008 + 0x80 * m
def FH_STRm_WIN.hi (m : Nat) : Fld := ⟨FH_STRm_WIN.reg m, 32, 32⟩
def FH_STRm_WIN.lo (m : Nat) : Fld := ⟨FH_STRm_WIN.reg m, 0, 32⟩
/-- FH_STRm_CROP: Crop window (chapter 07), 64 bits. -/
def FH_STRm_CROP.reg (m : Nat) : Nat := 0x1800c10010 + 0x80 * m
def FH_STRm_CROP.sym (m : Nat) : Fld := ⟨FH_STRm_CROP.reg m, 32, 14⟩
def FH_STRm_CROP.cnt (m : Nat) : Fld := ⟨FH_STRm_CROP.reg m, 16, 9⟩
def FH_STRm_CROP.first (m : Nat) : Fld := ⟨FH_STRm_CROP.reg m, 0, 9⟩
/-- FH_STRm_SHP: Shaping (chapter 07), 32 bits. -/
def FH_STRm_SHP.reg (m : Nat) : Nat := 0x1800c10018 + 0x80 * m
def FH_STRm_SHP.rs_u (m : Nat) : Fld := ⟨FH_STRm_SHP.reg m, 28, 4⟩
def FH_STRm_SHP.rs_d (m : Nat) : Fld := ⟨FH_STRm_SHP.reg m, 24, 4⟩
def FH_STRm_SHP.rs_set (m : Nat) : Fld := ⟨FH_STRm_SHP.reg m, 20, 4⟩
def FH_STRm_SHP.flip (m : Nat) : Fld := ⟨FH_STRm_SHP.reg m, 18, 2⟩
def FH_STRm_SHP.rot (m : Nat) : Fld := ⟨FH_STRm_SHP.reg m, 17, 1⟩
def FH_STRm_SHP.mode (m : Nat) : Fld := ⟨FH_STRm_SHP.reg m, 16, 1⟩
/-- FH_STRm_ROT: Rotation (chapter 07), 64 bits. -/
def FH_STRm_ROT.reg (m : Nat) : Nat := 0x1800c10020 + 0x80 * m
def FH_STRm_ROT.phi0 (m : Nat) : Fld := ⟨FH_STRm_ROT.reg m, 42, 21⟩
def FH_STRm_ROT.dl (m : Nat) : Fld := ⟨FH_STRm_ROT.reg m, 21, 21⟩
def FH_STRm_ROT.dk (m : Nat) : Fld := ⟨FH_STRm_ROT.reg m, 0, 21⟩
/-- FH_STRm_IQC: IQ conversion (chapter 07), 128 bits. -/
def FH_STRm_IQC.reg (m : Nat) : Nat := 0x1800c10028 + 0x80 * m
def FH_STRm_IQC.gain (m : Nat) : Fld := ⟨FH_STRm_IQC.reg m, 112, 16⟩
def FH_STRm_IQC.dcq (m : Nat) : Fld := ⟨FH_STRm_IQC.reg m, 96, 16⟩
def FH_STRm_IQC.dci (m : Nat) : Fld := ⟨FH_STRm_IQC.reg m, 80, 16⟩
def FH_STRm_IQC.a22 (m : Nat) : Fld := ⟨FH_STRm_IQC.reg m, 48, 16⟩
def FH_STRm_IQC.a21 (m : Nat) : Fld := ⟨FH_STRm_IQC.reg m, 32, 16⟩
def FH_STRm_IQC.a12 (m : Nat) : Fld := ⟨FH_STRm_IQC.reg m, 16, 16⟩
def FH_STRm_IQC.a11 (m : Nat) : Fld := ⟨FH_STRm_IQC.reg m, 0, 16⟩
/-- FH_STRm_IQM: IQ measurement (chapter 07), 128 bits. -/
def FH_STRm_IQM.reg (m : Nat) : Nat := 0x1800c10038 + 0x80 * m
def FH_STRm_IQM.pwr (m : Nat) : Fld := ⟨FH_STRm_IQM.reg m, 80, 48⟩
def FH_STRm_IQM.sumq (m : Nat) : Fld := ⟨FH_STRm_IQM.reg m, 48, 32⟩
def FH_STRm_IQM.sumi (m : Nat) : Fld := ⟨FH_STRm_IQM.reg m, 16, 32⟩
def FH_STRm_IQM.n (m : Nat) : Fld := ⟨FH_STRm_IQM.reg m, 0, 16⟩
/-- FH_STRm_CNT: Stream counters (chapter 07), 128 bits. -/
def FH_STRm_CNT.reg (m : Nat) : Nat := 0x1800c10048 + 0x80 * m
def FH_STRm_CNT.sat (m : Nat) : Fld := ⟨FH_STRm_CNT.reg m, 96, 32⟩
def FH_STRm_CNT.seq (m : Nat) : Fld := ⟨FH_STRm_CNT.reg m, 64, 32⟩
def FH_STRm_CNT.stale (m : Nat) : Fld := ⟨FH_STRm_CNT.reg m, 32, 32⟩
def FH_STRm_CNT.early (m : Nat) : Fld := ⟨FH_STRm_CNT.reg m, 0, 32⟩
/-- FH_STRm_MC: Modulation compression (chapter 07), 32 bits. -/
def FH_STRm_MC.reg (m : Nat) : Nat := 0x1800c10058 + 0x80 * m
def FH_STRm_MC.csf (m : Nat) : Fld := ⟨FH_STRm_MC.reg m, 16, 1⟩
def FH_STRm_MC.scale (m : Nat) : Fld := ⟨FH_STRm_MC.reg m, 0, 16⟩
/-- FH_QUEq_CFG: Batch queue (chapter 07), 64 bits. -/
def FH_QUEq_CFG.reg (q : Nat) : Nat := 0x1800c20000 + 0x20 * q
def FH_QUEq_CFG.en (q : Nat) : Fld := ⟨FH_QUEq_CFG.reg q, 63, 1⟩
def FH_QUEq_CFG.ev (q : Nat) : Fld := ⟨FH_QUEq_CFG.reg q, 62, 1⟩
def FH_QUEq_CFG.tile (q : Nat) : Fld := ⟨FH_QUEq_CFG.reg q, 56, 6⟩
def FH_QUEq_CFG.flag (q : Nat) : Fld := ⟨FH_QUEq_CFG.reg q, 51, 5⟩
def FH_QUEq_CFG.lw (q : Nat) : Fld := ⟨FH_QUEq_CFG.reg q, 44, 7⟩
def FH_QUEq_CFG.nprb (q : Nat) : Fld := ⟨FH_QUEq_CFG.reg q, 35, 9⟩
def FH_QUEq_CFG.nstr (q : Nat) : Fld := ⟨FH_QUEq_CFG.reg q, 28, 7⟩
def FH_QUEq_CFG.log2depth (q : Nat) : Fld := ⟨FH_QUEq_CFG.reg q, 24, 4⟩
def FH_QUEq_CFG.offset (q : Nat) : Fld := ⟨FH_QUEq_CFG.reg q, 6, 18⟩
def FH_QUEq_CFG.cluster (q : Nat) : Fld := ⟨FH_QUEq_CFG.reg q, 0, 3⟩
/-- FH_QUEq_STAT: Batch queue status (chapter 07), 32 bits. -/
def FH_QUEq_STAT.reg (q : Nat) : Nat := 0x1800c20008 + 0x20 * q
def FH_QUEq_STAT.ahead (q : Nat) : Fld := ⟨FH_QUEq_STAT.reg q, 8, 8⟩
def FH_QUEq_STAT.open (q : Nat) : Fld := ⟨FH_QUEq_STAT.reg q, 0, 3⟩
/-- DFE_RXc_CFG: Receive chain (chapter 07), 64 bits. -/
def DFE_RXc_CFG.reg (c : Nat) : Nat := 0x1800f00000 + 0x40 * c
def DFE_RXc_CFG.en (c : Nat) : Fld := ⟨DFE_RXc_CFG.reg c, 63, 1⟩
def DFE_RXc_CFG.conv (c : Nat) : Fld := ⟨DFE_RXc_CFG.reg c, 50, 6⟩
def DFE_RXc_CFG.dec (c : Nat) : Fld := ⟨DFE_RXc_CFG.reg c, 45, 3⟩
def DFE_RXc_CFG.at (c : Nat) : Fld := ⟨DFE_RXc_CFG.reg c, 42, 3⟩
def DFE_RXc_CFG.en1 (c : Nat) : Fld := ⟨DFE_RXc_CFG.reg c, 41, 1⟩
def DFE_RXc_CFG.nco (c : Nat) : Fld := ⟨DFE_RXc_CFG.reg c, 0, 32⟩
/-- DFE_RXc_AGC: AGC (chapter 07), 64 bits. -/
def DFE_RXc_AGC.reg (c : Nat) : Nat := 0x1800f00008 + 0x40 * c
def DFE_RXc_AGC.target (c : Nat) : Fld := ⟨DFE_RXc_AGC.reg c, 56, 8⟩
def DFE_RXc_AGC.ka (c : Nat) : Fld := ⟨DFE_RXc_AGC.reg c, 52, 4⟩
def DFE_RXc_AGC.det_thr (c : Nat) : Fld := ⟨DFE_RXc_AGC.reg c, 44, 8⟩
def DFE_RXc_AGC.det_n (c : Nat) : Fld := ⟨DFE_RXc_AGC.reg c, 40, 4⟩
def DFE_RXc_AGC.aw (c : Nat) : Fld := ⟨DFE_RXc_AGC.reg c, 36, 4⟩
def DFE_RXc_AGC.amin (c : Nat) : Fld := ⟨DFE_RXc_AGC.reg c, 30, 6⟩
def DFE_RXc_AGC.amax (c : Nat) : Fld := ⟨DFE_RXc_AGC.reg c, 24, 6⟩
def DFE_RXc_AGC.gp (c : Nat) : Fld := ⟨DFE_RXc_AGC.reg c, 20, 4⟩
def DFE_RXc_AGC.gslot (c : Nat) : Fld := ⟨DFE_RXc_AGC.reg c, 18, 2⟩
def DFE_RXc_AGC.glat (c : Nat) : Fld := ⟨DFE_RXc_AGC.reg c, 8, 10⟩
/-- DFE_RXc_GAIN: Gain state (chapter 07), 32 bits. -/
def DFE_RXc_GAIN.reg (c : Nat) : Nat := 0x1800f00010 + 0x40 * c
def DFE_RXc_GAIN.pwr (c : Nat) : Fld := ⟨DFE_RXc_GAIN.reg c, 16, 8⟩
def DFE_RXc_GAIN.fz_det (c : Nat) : Fld := ⟨DFE_RXc_GAIN.reg c, 9, 1⟩
def DFE_RXc_GAIN.fz_tt (c : Nat) : Fld := ⟨DFE_RXc_GAIN.reg c, 8, 1⟩
def DFE_RXc_GAIN.att (c : Nat) : Fld := ⟨DFE_RXc_GAIN.reg c, 0, 6⟩
/-- DFE_RXc_NF: Noise-floor snapshot (chapter 07), 128 bits. -/
def DFE_RXc_NF.reg (c : Nat) : Nat := 0x1800f00018 + 0x40 * c
def DFE_RXc_NF.n (c : Nat) : Fld := ⟨DFE_RXc_NF.reg c, 96, 32⟩
def DFE_RXc_NF.sum (c : Nat) : Fld := ⟨DFE_RXc_NF.reg c, 0, 64⟩
/-- DFE_TXc_CFG: Transmit chain (chapter 07), 64 bits. -/
def DFE_TXc_CFG.reg (c : Nat) : Nat := 0x1800f10000 + 0x40 * c
def DFE_TXc_CFG.en (c : Nat) : Fld := ⟨DFE_TXc_CFG.reg c, 63, 1⟩
def DFE_TXc_CFG.en1 (c : Nat) : Fld := ⟨DFE_TXc_CFG.reg c, 62, 1⟩
def DFE_TXc_CFG.conv (c : Nat) : Fld := ⟨DFE_TXc_CFG.reg c, 56, 6⟩
def DFE_TXc_CFG.interp (c : Nat) : Fld := ⟨DFE_TXc_CFG.reg c, 53, 3⟩
def DFE_TXc_CFG.at (c : Nat) : Fld := ⟨DFE_TXc_CFG.reg c, 50, 3⟩
def DFE_TXc_CFG.dpd (c : Nat) : Fld := ⟨DFE_TXc_CFG.reg c, 49, 1⟩
def DFE_TXc_CFG.bank (c : Nat) : Fld := ⟨DFE_TXc_CFG.reg c, 48, 1⟩
def DFE_TXc_CFG.cfr (c : Nat) : Fld := ⟨DFE_TXc_CFG.reg c, 32, 16⟩
def DFE_TXc_CFG.nco (c : Nat) : Fld := ⟨DFE_TXc_CFG.reg c, 0, 32⟩
/-- DFE_CAUSE: DFE causes (chapter 07), 32 bits. -/
def DFE_CAUSE.reg : Nat := 0x1800f30000
def DFE_CAUSE.ovf : Fld := ⟨DFE_CAUSE.reg, 3, 1⟩
def DFE_CAUSE.sat : Fld := ⟨DFE_CAUSE.reg, 2, 1⟩
def DFE_CAUSE.wr_active : Fld := ⟨DFE_CAUSE.reg, 1, 1⟩
def DFE_CAUSE.late : Fld := ⟨DFE_CAUSE.reg, 0, 1⟩
/-- JES_RXk_CFG: Receive link transport (chapter 07), 64 bits. -/
def JES_RXk_CFG.reg (k : Nat) : Nat := 0x1800e00000 + 0x10 * k
def JES_RXk_CFG.en (k : Nat) : Fld := ⟨JES_RXk_CFG.reg k, 63, 1⟩
def JES_RXk_CFG.lane (k : Nat) : Fld := ⟨JES_RXk_CFG.reg k, 48, 8⟩
def JES_RXk_CFG.l (k : Nat) : Fld := ⟨JES_RXk_CFG.reg k, 44, 4⟩
def JES_RXk_CFG.nstr (k : Nat) : Fld := ⟨JES_RXk_CFG.reg k, 38, 6⟩
def JES_RXk_CFG.first (k : Nat) : Fld := ⟨JES_RXk_CFG.reg k, 32, 6⟩
def JES_RXk_CFG.s (k : Nat) : Fld := ⟨JES_RXk_CFG.reg k, 30, 2⟩
def JES_RXk_CFG.np12 (k : Nat) : Fld := ⟨JES_RXk_CFG.reg k, 29, 1⟩
def JES_RXk_CFG.f (k : Nat) : Fld := ⟨JES_RXk_CFG.reg k, 24, 5⟩
def JES_RXk_CFG.e (k : Nat) : Fld := ⟨JES_RXk_CFG.reg k, 16, 8⟩
/-- EQ_ENG_CTL: Engine control (chapter 08), 32 bits. -/
def EQ_ENG_CTL.reg (n : Nat) : Nat := 0x1801100000 + 0x40 * n
def EQ_ENG_CTL.cut (n : Nat) : Fld := ⟨EQ_ENG_CTL.reg n, 3, 1⟩
def EQ_ENG_CTL.drain (n : Nat) : Fld := ⟨EQ_ENG_CTL.reg n, 2, 1⟩
def EQ_ENG_CTL.poll (n : Nat) : Fld := ⟨EQ_ENG_CTL.reg n, 1, 1⟩
def EQ_ENG_CTL.en (n : Nat) : Fld := ⟨EQ_ENG_CTL.reg n, 0, 1⟩
/-- LDPCD_ENG_CTL: Engine control (chapter 08), 32 bits. -/
def LDPCD_ENG_CTL.reg (n : Nat) : Nat := 0x1801200000 + 0x40 * n
def LDPCD_ENG_CTL.cut (n : Nat) : Fld := ⟨LDPCD_ENG_CTL.reg n, 3, 1⟩
def LDPCD_ENG_CTL.drain (n : Nat) : Fld := ⟨LDPCD_ENG_CTL.reg n, 2, 1⟩
def LDPCD_ENG_CTL.poll (n : Nat) : Fld := ⟨LDPCD_ENG_CTL.reg n, 1, 1⟩
def LDPCD_ENG_CTL.en (n : Nat) : Fld := ⟨LDPCD_ENG_CTL.reg n, 0, 1⟩
/-- LDPCE_ENG_CTL: Engine control (chapter 08), 32 bits. -/
def LDPCE_ENG_CTL.reg (n : Nat) : Nat := 0x1801200400 + 0x40 * n
def LDPCE_ENG_CTL.cut (n : Nat) : Fld := ⟨LDPCE_ENG_CTL.reg n, 3, 1⟩
def LDPCE_ENG_CTL.drain (n : Nat) : Fld := ⟨LDPCE_ENG_CTL.reg n, 2, 1⟩
def LDPCE_ENG_CTL.poll (n : Nat) : Fld := ⟨LDPCE_ENG_CTL.reg n, 1, 1⟩
def LDPCE_ENG_CTL.en (n : Nat) : Fld := ⟨LDPCE_ENG_CTL.reg n, 0, 1⟩
/-- POL_ENG_CTL: Engine control (chapter 08), 32 bits. -/
def POL_ENG_CTL.reg (n : Nat) : Nat := 0x1801300000 + 0x40 * n
def POL_ENG_CTL.cut (n : Nat) : Fld := ⟨POL_ENG_CTL.reg n, 3, 1⟩
def POL_ENG_CTL.drain (n : Nat) : Fld := ⟨POL_ENG_CTL.reg n, 2, 1⟩
def POL_ENG_CTL.poll (n : Nat) : Fld := ⟨POL_ENG_CTL.reg n, 1, 1⟩
def POL_ENG_CTL.en (n : Nat) : Fld := ⟨POL_ENG_CTL.reg n, 0, 1⟩
/-- EQ_ENG_RING: Descriptor ring (chapter 08), 64 bits. -/
def EQ_ENG_RING.reg (n : Nat) : Nat := 0x1801100008 + 0x40 * n
def EQ_ENG_RING.en (n : Nat) : Fld := ⟨EQ_ENG_RING.reg n, 28, 1⟩
def EQ_ENG_RING.log2size (n : Nat) : Fld := ⟨EQ_ENG_RING.reg n, 24, 4⟩
def EQ_ENG_RING.offset (n : Nat) : Fld := ⟨EQ_ENG_RING.reg n, 6, 18⟩
def EQ_ENG_RING.cluster (n : Nat) : Fld := ⟨EQ_ENG_RING.reg n, 0, 3⟩
/-- LDPCD_ENG_RING: Descriptor ring (chapter 08), 64 bits. -/
def LDPCD_ENG_RING.reg (n : Nat) : Nat := 0x1801200008 + 0x40 * n
def LDPCD_ENG_RING.en (n : Nat) : Fld := ⟨LDPCD_ENG_RING.reg n, 28, 1⟩
def LDPCD_ENG_RING.log2size (n : Nat) : Fld := ⟨LDPCD_ENG_RING.reg n, 24, 4⟩
def LDPCD_ENG_RING.offset (n : Nat) : Fld := ⟨LDPCD_ENG_RING.reg n, 6, 18⟩
def LDPCD_ENG_RING.cluster (n : Nat) : Fld := ⟨LDPCD_ENG_RING.reg n, 0, 3⟩
/-- LDPCE_ENG_RING: Descriptor ring (chapter 08), 64 bits. -/
def LDPCE_ENG_RING.reg (n : Nat) : Nat := 0x1801200408 + 0x40 * n
def LDPCE_ENG_RING.en (n : Nat) : Fld := ⟨LDPCE_ENG_RING.reg n, 28, 1⟩
def LDPCE_ENG_RING.log2size (n : Nat) : Fld := ⟨LDPCE_ENG_RING.reg n, 24, 4⟩
def LDPCE_ENG_RING.offset (n : Nat) : Fld := ⟨LDPCE_ENG_RING.reg n, 6, 18⟩
def LDPCE_ENG_RING.cluster (n : Nat) : Fld := ⟨LDPCE_ENG_RING.reg n, 0, 3⟩
/-- POL_ENG_RING: Descriptor ring (chapter 08), 64 bits. -/
def POL_ENG_RING.reg (n : Nat) : Nat := 0x1801300008 + 0x40 * n
def POL_ENG_RING.en (n : Nat) : Fld := ⟨POL_ENG_RING.reg n, 28, 1⟩
def POL_ENG_RING.log2size (n : Nat) : Fld := ⟨POL_ENG_RING.reg n, 24, 4⟩
def POL_ENG_RING.offset (n : Nat) : Fld := ⟨POL_ENG_RING.reg n, 6, 18⟩
def POL_ENG_RING.cluster (n : Nat) : Fld := ⟨POL_ENG_RING.reg n, 0, 3⟩
/-- EQ_ENG_STAT: Engine status (chapter 08), 32 bits. -/
def EQ_ENG_STAT.reg (n : Nat) : Nat := 0x1801100010 + 0x40 * n
def EQ_ENG_STAT.nq (n : Nat) : Fld := ⟨EQ_ENG_STAT.reg n, 16, 4⟩
def EQ_ENG_STAT.state (n : Nat) : Fld := ⟨EQ_ENG_STAT.reg n, 0, 2⟩
/-- LDPCD_ENG_STAT: Engine status (chapter 08), 32 bits. -/
def LDPCD_ENG_STAT.reg (n : Nat) : Nat := 0x1801200010 + 0x40 * n
def LDPCD_ENG_STAT.nq (n : Nat) : Fld := ⟨LDPCD_ENG_STAT.reg n, 16, 4⟩
def LDPCD_ENG_STAT.state (n : Nat) : Fld := ⟨LDPCD_ENG_STAT.reg n, 0, 2⟩
/-- LDPCE_ENG_STAT: Engine status (chapter 08), 32 bits. -/
def LDPCE_ENG_STAT.reg (n : Nat) : Nat := 0x1801200410 + 0x40 * n
def LDPCE_ENG_STAT.nq (n : Nat) : Fld := ⟨LDPCE_ENG_STAT.reg n, 16, 4⟩
def LDPCE_ENG_STAT.state (n : Nat) : Fld := ⟨LDPCE_ENG_STAT.reg n, 0, 2⟩
/-- POL_ENG_STAT: Engine status (chapter 08), 32 bits. -/
def POL_ENG_STAT.reg (n : Nat) : Nat := 0x1801300010 + 0x40 * n
def POL_ENG_STAT.nq (n : Nat) : Fld := ⟨POL_ENG_STAT.reg n, 16, 4⟩
def POL_ENG_STAT.state (n : Nat) : Fld := ⟨POL_ENG_STAT.reg n, 0, 2⟩
/-- EQ_CAUSE: EQ causes (chapter 08), 32 bits. -/
def EQ_CAUSE.reg : Nat := 0x1801100800
def EQ_CAUSE.ovf : Fld := ⟨EQ_CAUSE.reg, 8, 8⟩
def EQ_CAUSE.bad : Fld := ⟨EQ_CAUSE.reg, 0, 8⟩
/-- LDPC_CAUSE: LDPC causes (chapter 08), 64 bits. -/
def LDPC_CAUSE.reg : Nat := 0x1801200800
def LDPC_CAUSE.perr : Fld := ⟨LDPC_CAUSE.reg, 32, 6⟩
def LDPC_CAUSE.enc_ovf : Fld := ⟨LDPC_CAUSE.reg, 24, 4⟩
def LDPC_CAUSE.dec_ovf : Fld := ⟨LDPC_CAUSE.reg, 16, 6⟩
def LDPC_CAUSE.enc_bad : Fld := ⟨LDPC_CAUSE.reg, 8, 4⟩
def LDPC_CAUSE.dec_bad : Fld := ⟨LDPC_CAUSE.reg, 0, 6⟩
/-- LDPC_PERRA: Last parity error (chapter 08), 64 bits. -/
def LDPC_PERRA.reg : Nat := 0x1801200810
def LDPC_PERRA.mem : Fld := ⟨LDPC_PERRA.reg, 40, 3⟩
def LDPC_PERRA.dec : Fld := ⟨LDPC_PERRA.reg, 32, 3⟩
def LDPC_PERRA.tag : Fld := ⟨LDPC_PERRA.reg, 0, 32⟩
/-- LDPC_DEFAS: Default assist (chapter 08), 32 bits. -/
def LDPC_DEFAS.reg : Nat := 0x1801200818
def LDPC_DEFAS.beta : Fld := ⟨LDPC_DEFAS.reg, 8, 8⟩
def LDPC_DEFAS.alpha : Fld := ⟨LDPC_DEFAS.reg, 0, 8⟩
/-- LDPC_DMARG: Cap margin (chapter 08), 32 bits. -/
def LDPC_DMARG.reg : Nat := 0x180120081c
def LDPC_DMARG.ek : Fld := ⟨LDPC_DMARG.reg, 0, 16⟩
/-- POL_CAUSE: Polar causes (chapter 08), 32 bits. -/
def POL_CAUSE.reg : Nat := 0x1801300800
def POL_CAUSE.ovf : Fld := ⟨POL_CAUSE.reg, 8, 2⟩
def POL_CAUSE.bad : Fld := ⟨POL_CAUSE.reg, 0, 2⟩
/-- CTX_DMON_CFG: Deadline monitor configuration (chapter 09), 32 bits. -/
def CTX_DMON_CFG.reg : Nat := 0x1800940000
def CTX_DMON_CFG.margin : Fld := ⟨CTX_DMON_CFG.reg, 8, 16⟩
def CTX_DMON_CFG.en : Fld := ⟨CTX_DMON_CFG.reg, 0, 1⟩
/-- CTX_DMON_CAUSE: Deadline monitor causes (chapter 09), 32 bits. -/
def CTX_DMON_CAUSE.reg : Nat := 0x1800940004
def CTX_DMON_CAUSE.bad : Fld := ⟨CTX_DMON_CAUSE.reg, 3, 1⟩
def CTX_DMON_CAUSE.overrun : Fld := ⟨CTX_DMON_CAUSE.reg, 2, 1⟩
def CTX_DMON_CAUSE.fb_late : Fld := ⟨CTX_DMON_CAUSE.reg, 1, 1⟩
def CTX_DMON_CAUSE.fired : Fld := ⟨CTX_DMON_CAUSE.reg, 0, 1⟩
/-- CTX_DMON_LAST: Last watch in error (chapter 09), 32 bits. -/
def CTX_DMON_LAST.reg : Nat := 0x180094000c
def CTX_DMON_LAST.watch : Fld := ⟨CTX_DMON_LAST.reg, 0, 7⟩
/-- CTX_DMON_NLRN: Learned closes (chapter 09), 32 bits. -/
def CTX_DMON_NLRN.reg : Nat := 0x1800940010
def CTX_DMON_NLRN.count : Fld := ⟨CTX_DMON_NLRN.reg, 0, 32⟩
/-- CTX_DMON_STATw: Watch status (chapter 09), 64 bits. -/
def CTX_DMON_STATw.reg (w : Nat) : Nat := 0x1800940100 + 0x8 * w
def CTX_DMON_STATw.slack (w : Nat) : Fld := ⟨CTX_DMON_STATw.reg w, 32, 32⟩
def CTX_DMON_STATw.m (w : Nat) : Fld := ⟨CTX_DMON_STATw.reg w, 10, 6⟩
def CTX_DMON_STATw.cand (w : Nat) : Fld := ⟨CTX_DMON_STATw.reg w, 4, 1⟩
def CTX_DMON_STATw.fired (w : Nat) : Fld := ⟨CTX_DMON_STATw.reg w, 3, 1⟩
def CTX_DMON_STATw.state (w : Nat) : Fld := ⟨CTX_DMON_STATw.reg w, 0, 3⟩
/-- CTX_CAUSE: Context unit causes (chapter 10), 32 bits. -/
def CTX_CAUSE.reg : Nat := 0x1800900000
def CTX_CAUSE.en_bad : Fld := ⟨CTX_CAUSE.reg, 4, 1⟩
def CTX_CAUSE.wr_active : Fld := ⟨CTX_CAUSE.reg, 3, 1⟩
def CTX_CAUSE.fault : Fld := ⟨CTX_CAUSE.reg, 2, 1⟩
def CTX_CAUSE.ovf : Fld := ⟨CTX_CAUSE.reg, 1, 1⟩
def CTX_CAUSE.bad : Fld := ⟨CTX_CAUSE.reg, 0, 1⟩
/-- CTX_LAST: Last descriptor in error (chapter 10), 64 bits. -/
def CTX_LAST.reg : Nat := 0x1800900008
def CTX_LAST.tag : Fld := ⟨CTX_LAST.reg, 32, 32⟩
def CTX_LAST.ctx : Fld := ⟨CTX_LAST.reg, 0, 8⟩
/-- CTX_FAULT: Last teardown (chapter 10), 64 bits. -/
def CTX_FAULT.reg : Nat := 0x1800900010
def CTX_FAULT.tag : Fld := ⟨CTX_FAULT.reg, 32, 32⟩
def CTX_FAULT.ctx : Fld := ⟨CTX_FAULT.reg, 16, 8⟩
def CTX_FAULT.tile : Fld := ⟨CTX_FAULT.reg, 8, 6⟩
def CTX_FAULT.cause : Fld := ⟨CTX_FAULT.reg, 0, 4⟩
/-- CTX_AGE: Background age limit (chapter 10), 32 bits. -/
def CTX_AGE.reg : Nat := 0x1800900018
def CTX_AGE.us : Fld := ⟨CTX_AGE.reg, 0, 16⟩
/-- CTX_BTILES: Background tiles (chapter 10), 64 bits. -/
def CTX_BTILES.reg : Nat := 0x1800900020
def CTX_BTILES.tiles : Fld := ⟨CTX_BTILES.reg, 0, 64⟩
/-- CTX_CTXn: Context entry (chapter 10), 256 bits. -/
def CTX_CTXn.reg (n : Nat) : Nat := 0x1800910000 + 0x20 * n
def CTX_CTXn.yint (n : Nat) : Fld := ⟨CTX_CTXn.reg n, 176, 24⟩
def CTX_CTXn.wexp (n : Nat) : Fld := ⟨CTX_CTXn.reg n, 160, 16⟩
def CTX_CTXn.qmask (n : Nat) : Fld := ⟨CTX_CTXn.reg n, 128, 32⟩
def CTX_CTXn.tiles (n : Nat) : Fld := ⟨CTX_CTXn.reg n, 64, 64⟩
def CTX_CTXn.image (n : Nat) : Fld := ⟨CTX_CTXn.reg n, 40, 24⟩
def CTX_CTXn.len (n : Nat) : Fld := ⟨CTX_CTXn.reg n, 33, 7⟩
def CTX_CTXn.lo (n : Nat) : Fld := ⟨CTX_CTXn.reg n, 26, 7⟩
def CTX_CTXn.cls (n : Nat) : Fld := ⟨CTX_CTXn.reg n, 24, 2⟩
def CTX_CTXn.ckpt (n : Nat) : Fld := ⟨CTX_CTXn.reg n, 8, 1⟩
def CTX_CTXn.pre (n : Nat) : Fld := ⟨CTX_CTXn.reg n, 7, 1⟩
def CTX_CTXn.rst (n : Nat) : Fld := ⟨CTX_CTXn.reg n, 6, 1⟩
def CTX_CTXn.cut (n : Nat) : Fld := ⟨CTX_CTXn.reg n, 3, 1⟩
def CTX_CTXn.drain (n : Nat) : Fld := ⟨CTX_CTXn.reg n, 2, 1⟩
def CTX_CTXn.en (n : Nat) : Fld := ⟨CTX_CTXn.reg n, 0, 1⟩
/-- CTX_STATn: Context status (chapter 10), 64 bits. -/
def CTX_STATn.reg (n : Nat) : Nat := 0x1800920000 + 0x8 * n
def CTX_STATn.pend (n : Nat) : Fld := ⟨CTX_STATn.reg n, 32, 32⟩
def CTX_STATn.nq (n : Nat) : Fld := ⟨CTX_STATn.reg n, 8, 3⟩
def CTX_STATn.urgent (n : Nat) : Fld := ⟨CTX_STATn.reg n, 7, 1⟩
def CTX_STATn.job (n : Nat) : Fld := ⟨CTX_STATn.reg n, 6, 1⟩
def CTX_STATn.blk (n : Nat) : Fld := ⟨CTX_STATn.reg n, 5, 1⟩
def CTX_STATn.state (n : Nat) : Fld := ⟨CTX_STATn.reg n, 0, 4⟩
/-- CTX_CLIc: Client counts (chapter 10), 128 bits. -/
def CTX_CLIc.reg (c : Nat) : Nat := 0x1800930000 + 0x10 * c
def CTX_CLIc.dropped (c : Nat) : Fld := ⟨CTX_CLIc.reg c, 96, 32⟩
def CTX_CLIc.faulted (c : Nat) : Fld := ⟨CTX_CLIc.reg c, 64, 32⟩
def CTX_CLIc.ended (c : Nat) : Fld := ⟨CTX_CLIc.reg c, 32, 32⟩
def CTX_CLIc.issued (c : Nat) : Fld := ⟨CTX_CLIc.reg c, 0, 32⟩
/-- OPT_ESm_CFG: Egress stream (chapter 11), 64 bits. -/
def OPT_ESm_CFG.reg (m : Nat) : Nat := 0x1800d02000 + 0x20 * m
def OPT_ESm_CFG.en (m : Nat) : Fld := ⟨OPT_ESm_CFG.reg m, 63, 1⟩
def OPT_ESm_CFG.meth (m : Nat) : Fld := ⟨OPT_ESm_CFG.reg m, 56, 4⟩
def OPT_ESm_CFG.width (m : Nat) : Fld := ⟨OPT_ESm_CFG.reg m, 52, 4⟩
def OPT_ESm_CFG.static (m : Nat) : Fld := ⟨OPT_ESm_CFG.reg m, 51, 1⟩
def OPT_ESm_CFG.dir (m : Nat) : Fld := ⟨OPT_ESm_CFG.reg m, 50, 1⟩
def OPT_ESm_CFG.eaxc (m : Nat) : Fld := ⟨OPT_ESm_CFG.reg m, 32, 16⟩
def OPT_ESm_CFG.seq (m : Nat) : Fld := ⟨OPT_ESm_CFG.reg m, 24, 8⟩
def OPT_ESm_CFG.fidx (m : Nat) : Fld := ⟨OPT_ESm_CFG.reg m, 20, 4⟩
def OPT_ESm_CFG.mc (m : Nat) : Fld := ⟨OPT_ESm_CFG.reg m, 0, 16⟩
/-- OPT_ESm_HDR: Egress stream header (chapter 11), 128 bits. -/
def OPT_ESm_HDR.reg (m : Nat) : Nat := 0x1800d02010 + 0x20 * m
def OPT_ESm_HDR.dmac (m : Nat) : Fld := ⟨OPT_ESm_HDR.reg m, 80, 48⟩
def OPT_ESm_HDR.tag (m : Nat) : Fld := ⟨OPT_ESm_HDR.reg m, 48, 32⟩
def OPT_ESm_HDR.tagged (m : Nat) : Fld := ⟨OPT_ESm_HDR.reg m, 47, 1⟩
/-- OPT_CAUSE: Optical causes (chapter 11), 64 bits. -/
def OPT_CAUSE.reg : Nat := 0x1800d00000
def OPT_CAUSE.los : Fld := ⟨OPT_CAUSE.reg, 32, 32⟩
def OPT_CAUSE.laser : Fld := ⟨OPT_CAUSE.reg, 4, 1⟩
def OPT_CAUSE.txlate : Fld := ⟨OPT_CAUSE.reg, 3, 1⟩
def OPT_CAUSE.rxfull : Fld := ⟨OPT_CAUSE.reg, 2, 1⟩
def OPT_CAUSE.cfg : Fld := ⟨OPT_CAUSE.reg, 1, 1⟩
/-- OPT_LANE: Lane state (chapter 11), 64 bits. -/
def OPT_LANE.reg : Nat := 0x1800d00010
def OPT_LANE.apr : Fld := ⟨OPT_LANE.reg, 32, 32⟩
def OPT_LANE.los : Fld := ⟨OPT_LANE.reg, 0, 32⟩
/-- OPT_APRF: Forced reduction (chapter 11), 32 bits. -/
def OPT_APRF.reg : Nat := 0x1800d00018
def OPT_APRF.force : Fld := ⟨OPT_APRF.reg, 0, 32⟩
/-- OPT_LIGHT: Laser light (chapter 11), 32 bits. -/
def OPT_LIGHT.reg : Nat := 0x1800d00020
def OPT_LIGHT.lvl (e : Nat) : Fld := ⟨OPT_LIGHT.reg, 8 * e + 0, 8⟩
/-- OPT_RXRr: Receive ring r (chapter 11), 64 bits. -/
def OPT_RXRr.reg (r : Nat) : Nat := 0x1800d00040 + 0x8 * r
def OPT_RXRr.en (r : Nat) : Fld := ⟨OPT_RXRr.reg r, 63, 1⟩
def OPT_RXRr.log2size (r : Nat) : Fld := ⟨OPT_RXRr.reg r, 59, 4⟩
def OPT_RXRr.addr (r : Nat) : Fld := ⟨OPT_RXRr.reg r, 6, 34⟩
/-- OPT_Pp_CFG: Port configuration (chapter 11), 64 bits. -/
def OPT_Pp_CFG.reg (p : Nat) : Nat := 0x1800d00100 + 0x80 * p
def OPT_Pp_CFG.en (p : Nat) : Fld := ⟨OPT_Pp_CFG.reg p, 63, 1⟩
def OPT_Pp_CFG.apx (p : Nat) : Fld := ⟨OPT_Pp_CFG.reg p, 62, 1⟩
def OPT_Pp_CFG.fh (p : Nat) : Fld := ⟨OPT_Pp_CFG.reg p, 61, 1⟩
def OPT_Pp_CFG.rate (p : Nat) : Fld := ⟨OPT_Pp_CFG.reg p, 58, 3⟩
def OPT_Pp_CFG.lanes (p : Nat) : Fld := ⟨OPT_Pp_CFG.reg p, 50, 8⟩
def OPT_Pp_CFG.mac (p : Nat) : Fld := ⟨OPT_Pp_CFG.reg p, 0, 48⟩
/-- OPT_Pp_STAT: Port status (chapter 11), 32 bits. -/
def OPT_Pp_STAT.reg (p : Nat) : Nat := 0x1800d00108 + 0x80 * p
def OPT_Pp_STAT.ovr (p : Nat) : Fld := ⟨OPT_Pp_STAT.reg p, 3, 1⟩
def OPT_Pp_STAT.up (p : Nat) : Fld := ⟨OPT_Pp_STAT.reg p, 2, 1⟩
def OPT_Pp_STAT.lock (p : Nat) : Fld := ⟨OPT_Pp_STAT.reg p, 1, 1⟩
def OPT_Pp_STAT.los (p : Nat) : Fld := ⟨OPT_Pp_STAT.reg p, 0, 1⟩
/-- OPT_Pp_CNT: Port counters (chapter 11), 128 bits. -/
def OPT_Pp_CNT.reg (p : Nat) : Nat := 0x1800d00110 + 0x80 * p
def OPT_Pp_CNT.unc (p : Nat) : Fld := ⟨OPT_Pp_CNT.reg p, 96, 32⟩
def OPT_Pp_CNT.corr (p : Nat) : Fld := ⟨OPT_Pp_CNT.reg p, 64, 32⟩
def OPT_Pp_CNT.fcs (p : Nat) : Fld := ⟨OPT_Pp_CNT.reg p, 32, 32⟩
def OPT_Pp_CNT.drop (p : Nat) : Fld := ⟨OPT_Pp_CNT.reg p, 0, 32⟩
/-- OPT_Pp_TXCFG: Transmit configuration (chapter 11), 32 bits. -/
def OPT_Pp_TXCFG.reg (p : Nat) : Nat := 0x1800d00120 + 0x80 * p
def OPT_Pp_TXCFG.late (p : Nat) : Fld := ⟨OPT_Pp_TXCFG.reg p, 0, 24⟩
/-- JES_RXMAPi: Receive lane map (chapter 11), 64 bits. -/
def JES_RXMAPi.reg (i : Nat) : Nat := 0x1800e00200 + 0x8 * i
def JES_RXMAPi.phy (i j : Nat) : Fld := ⟨JES_RXMAPi.reg i, 8 * j + 0, 6⟩
/-- JES_SYSREF: SYSREF control (chapter 11), 32 bits. -/
def JES_SYSREF.reg : Nat := 0x1800e00280
def JES_SYSREF.off : Fld := ⟨JES_SYSREF.reg, 16, 16⟩
def JES_SYSREF.mode : Fld := ⟨JES_SYSREF.reg, 0, 2⟩
/-- JES_SRTS: Last SYSREF edge (chapter 11), 64 bits. -/
def JES_SRTS.reg : Nat := 0x1800e00288
def JES_SRTS.sec : Fld := ⟨JES_SRTS.reg, 32, 32⟩
def JES_SRTS.ns : Fld := ⟨JES_SRTS.reg, 2, 30⟩
def JES_SRTS.qns : Fld := ⟨JES_SRTS.reg, 0, 2⟩
/-- JES_RXk_RBD: Receive buffer delay (chapter 11), 32 bits. -/
def JES_RXk_RBD.reg (k : Nat) : Nat := 0x1800e00300 + 0x10 * k
def JES_RXk_RBD.arr (k : Nat) : Fld := ⟨JES_RXk_RBD.reg k, 16, 16⟩
def JES_RXk_RBD.rbd (k : Nat) : Fld := ⟨JES_RXk_RBD.reg k, 0, 16⟩
/-- JES_RXk_CRC: CRC errors (chapter 11), 32 bits. -/
def JES_RXk_CRC.reg (k : Nat) : Nat := 0x1800e00308 + 0x10 * k
def JES_RXk_CRC.count (k : Nat) : Fld := ⟨JES_RXk_CRC.reg k, 0, 32⟩
/-- JES_CAUSE: JESD causes (chapter 11), 64 bits. -/
def JES_CAUSE.reg : Nat := 0x1800e00390
def JES_CAUSE.cfg : Fld := ⟨JES_CAUSE.reg, 48, 16⟩
def JES_CAUSE.rbd_late : Fld := ⟨JES_CAUSE.reg, 40, 8⟩
def JES_CAUSE.unlock : Fld := ⟨JES_CAUSE.reg, 32, 8⟩
def JES_CAUSE.crc : Fld := ⟨JES_CAUSE.reg, 24, 8⟩
def JES_CAUSE.sr_ovr : Fld := ⟨JES_CAUSE.reg, 1, 1⟩
def JES_CAUSE.sr_mis : Fld := ⟨JES_CAUSE.reg, 0, 1⟩
/-- PCIE_CFG: PCIe configuration, in the ACX block (chapter 11), 64 bits. -/
def PCIE_CFG.reg : Nat := 0x1801580000
def PCIE_CFG.base : Fld := ⟨PCIE_CFG.reg, 20, 28⟩
def PCIE_CFG.size : Fld := ⟨PCIE_CFG.reg, 8, 6⟩
def PCIE_CFG.mode : Fld := ⟨PCIE_CFG.reg, 0, 1⟩
/-- APX_CFG: Apsis configuration (chapter 11), 64 bits. -/
def APX_CFG.reg : Nat := 0x1801400000
def APX_CFG.fmask : Fld := ⟨APX_CFG.reg, 56, 8⟩
def APX_CFG.rtmo : Fld := ⟨APX_CFG.reg, 32, 16⟩
def APX_CFG.tport : Fld := ⟨APX_CFG.reg, 8, 5⟩
def APX_CFG.ref : Fld := ⟨APX_CFG.reg, 4, 3⟩
def APX_CFG.id : Fld := ⟨APX_CFG.reg, 0, 3⟩
/-- APX_ROUTE: Routes (chapter 11), 64 bits. -/
def APX_ROUTE.reg : Nat := 0x1801400008
def APX_ROUTE.valid (d : Nat) : Fld := ⟨APX_ROUTE.reg, 8 * d + 7, 1⟩
def APX_ROUTE.port (d : Nat) : Fld := ⟨APX_ROUTE.reg, 8 * d + 0, 5⟩
/-- APX_TASYM: Time-path asymmetry (chapter 11), 64 bits. -/
def APX_TASYM.reg : Nat := 0x1801400010
def APX_TASYM.a : Fld := ⟨APX_TASYM.reg, 0, 48⟩
/-- APX_CAUSE: Apsis causes (chapter 11), 64 bits. -/
def APX_CAUSE.reg : Nat := 0x1801400020
def APX_CAUSE.down : Fld := ⟨APX_CAUSE.reg, 32, 32⟩
def APX_CAUSE.start : Fld := ⟨APX_CAUSE.reg, 4, 1⟩
def APX_CAUSE.noroute : Fld := ⟨APX_CAUSE.reg, 3, 1⟩
def APX_CAUSE.badtype : Fld := ⟨APX_CAUSE.reg, 2, 1⟩
def APX_CAUSE.addr : Fld := ⟨APX_CAUSE.reg, 1, 1⟩
def APX_CAUSE.rtmo : Fld := ⟨APX_CAUSE.reg, 0, 1⟩
/-- APX_Lp_CFG: Link configuration (chapter 11), 32 bits. -/
def APX_Lp_CFG.reg (p : Nat) : Nat := 0x1801400100 + 0x10 * p
def APX_Lp_CFG.tmo (p : Nat) : Fld := ⟨APX_Lp_CFG.reg p, 16, 8⟩
def APX_Lp_CFG.rmax (p : Nat) : Fld := ⟨APX_Lp_CFG.reg p, 8, 8⟩
/-- APX_Lp_STAT: Link status (chapter 11), 64 bits. -/
def APX_Lp_STAT.reg (p : Nat) : Nat := 0x1801400108 + 0x10 * p
def APX_Lp_STAT.rtt (p : Nat) : Fld := ⟨APX_Lp_STAT.reg p, 32, 32⟩
def APX_Lp_STAT.unacked (p : Nat) : Fld := ⟨APX_Lp_STAT.reg p, 10, 10⟩
def APX_Lp_STAT.state (p : Nat) : Fld := ⟨APX_Lp_STAT.reg p, 0, 2⟩
/-- APX_Lp_CNT: Link counters (chapter 11), 64 bits. -/
def APX_Lp_CNT.reg (p : Nat) : Nat := 0x1801400400 + 0x8 * p
def APX_Lp_CNT.rep (p : Nat) : Fld := ⟨APX_Lp_CNT.reg p, 32, 32⟩
def APX_Lp_CNT.crc (p : Nat) : Fld := ⟨APX_Lp_CNT.reg p, 0, 32⟩
/-- PWR_REP_CTL: Repair control (chapter 12), 32 bits. -/
def PWR_REP_CTL.reg : Nat := 0x1800280000
def PWR_REP_CTL.rot : Fld := ⟨PWR_REP_CTL.reg, 1, 1⟩
def PWR_REP_CTL.auto : Fld := ⟨PWR_REP_CTL.reg, 0, 1⟩
/-- PWR_REP_REQ: Repair request (chapter 12), 32 bits. -/
def PWR_REP_REQ.reg : Nat := 0x1800280008
def PWR_REP_REQ.go : Fld := ⟨PWR_REP_REQ.reg, 31, 1⟩
def PWR_REP_REQ.op : Fld := ⟨PWR_REP_REQ.reg, 24, 2⟩
def PWR_REP_REQ.kind : Fld := ⟨PWR_REP_REQ.reg, 20, 4⟩
def PWR_REP_REQ.unit : Fld := ⟨PWR_REP_REQ.reg, 0, 8⟩
/-- PWR_REP_STAT: Repair status (chapter 12), 32 bits. -/
def PWR_REP_STAT.reg : Nat := 0x180028000c
def PWR_REP_STAT.upd : Fld := ⟨PWR_REP_STAT.reg, 17, 1⟩
def PWR_REP_STAT.busy : Fld := ⟨PWR_REP_STAT.reg, 16, 1⟩
def PWR_REP_STAT.res : Fld := ⟨PWR_REP_STAT.reg, 12, 2⟩
def PWR_REP_STAT.kind : Fld := ⟨PWR_REP_STAT.reg, 8, 4⟩
def PWR_REP_STAT.unit : Fld := ⟨PWR_REP_STAT.reg, 0, 8⟩
/-- PWR_REP_CAUSE: Repair causes (chapter 12), 32 bits. -/
def PWR_REP_CAUSE.reg : Nat := 0x1800280010
def PWR_REP_CAUSE.lost : Fld := ⟨PWR_REP_CAUSE.reg, 5, 1⟩
def PWR_REP_CAUSE.replan : Fld := ⟨PWR_REP_CAUSE.reg, 4, 1⟩
def PWR_REP_CAUSE.exhaust : Fld := ⟨PWR_REP_CAUSE.reg, 3, 1⟩
def PWR_REP_CAUSE.done : Fld := ⟨PWR_REP_CAUSE.reg, 2, 1⟩
def PWR_REP_CAUSE.log : Fld := ⟨PWR_REP_CAUSE.reg, 1, 1⟩
def PWR_REP_CAUSE.det : Fld := ⟨PWR_REP_CAUSE.reg, 0, 1⟩
/-- PWR_REP_LEFT: Spares remaining (chapter 12), 64 bits. -/
def PWR_REP_LEFT.reg : Nat := 0x1800280018
def PWR_REP_LEFT.left (k : Nat) : Fld := ⟨PWR_REP_LEFT.reg, 4 * k + 0, 4⟩
/-- PWR_REP_BIST: Self-test period (chapter 12), 32 bits. -/
def PWR_REP_BIST.reg : Nat := 0x1800280020
def PWR_REP_BIST.hours : Fld := ⟨PWR_REP_BIST.reg, 0, 16⟩
/-- PWR_REP_THRk: Threshold class k (chapter 12), 32 bits. -/
def PWR_REP_THRk.reg (k : Nat) : Nat := 0x1800280040 + 0x4 * k
def PWR_REP_THRk.ms (k : Nat) : Fld := ⟨PWR_REP_THRk.reg k, 16, 16⟩
def PWR_REP_THRk.n (k : Nat) : Fld := ⟨PWR_REP_THRk.reg k, 0, 16⟩
/-- PWR_REP_LOGP: Log pointer (chapter 12), 32 bits. -/
def PWR_REP_LOGP.reg : Nat := 0x1800280080
def PWR_REP_LOGP.next : Fld := ⟨PWR_REP_LOGP.reg, 0, 6⟩
/-- PWR_REP_LOGi: Log entry i (chapter 12), 128 bits. -/
def PWR_REP_LOGi.reg (i : Nat) : Nat := 0x1800280800 + 0x10 * i
def PWR_REP_LOGi.mono (i : Nat) : Fld := ⟨PWR_REP_LOGi.reg i, 64, 64⟩
def PWR_REP_LOGi.class (i : Nat) : Fld := ⟨PWR_REP_LOGi.reg i, 60, 4⟩
def PWR_REP_LOGi.kind (i : Nat) : Fld := ⟨PWR_REP_LOGi.reg i, 56, 4⟩
def PWR_REP_LOGi.unit (i : Nat) : Fld := ⟨PWR_REP_LOGi.reg i, 48, 8⟩
def PWR_REP_LOGi.addr (i : Nat) : Fld := ⟨PWR_REP_LOGi.reg i, 0, 40⟩
/-- PWR_DOMd: Domain d (chapter 13), 32 bits. -/
def PWR_DOMd.reg (d : Nat) : Nat := 0x1800200000 + 0x8 * d
def PWR_DOMd.iout (d : Nat) : Fld := ⟨PWR_DOMd.reg d, 12, 12⟩
def PWR_DOMd.phok (d : Nat) : Fld := ⟨PWR_DOMd.reg d, 8, 4⟩
def PWR_DOMd.nph (d : Nat) : Fld := ⟨PWR_DOMd.reg d, 4, 4⟩
def PWR_DOMd.state (d : Nat) : Fld := ⟨PWR_DOMd.reg d, 2, 2⟩
def PWR_DOMd.on (d : Nat) : Fld := ⟨PWR_DOMd.reg d, 0, 1⟩
/-- PWR_VIN: Inputs (chapter 13), 64 bits. -/
def PWR_VIN.reg : Nat := 0x1800200400
def PWR_VIN.vb : Fld := ⟨PWR_VIN.reg, 48, 16⟩
def PWR_VIN.va : Fld := ⟨PWR_VIN.reg, 32, 16⟩
def PWR_VIN.pin : Fld := ⟨PWR_VIN.reg, 16, 16⟩
def PWR_VIN.b_on : Fld := ⟨PWR_VIN.reg, 3, 1⟩
def PWR_VIN.a_on : Fld := ⟨PWR_VIN.reg, 2, 1⟩
def PWR_VIN.b_ok : Fld := ⟨PWR_VIN.reg, 1, 1⟩
def PWR_VIN.a_ok : Fld := ⟨PWR_VIN.reg, 0, 1⟩
/-- PWR_CAUSE: Power causes (chapter 13), 32 bits. -/
def PWR_CAUSE.reg : Nat := 0x1800200410
def PWR_CAUSE.rstacc : Fld := ⟨PWR_CAUSE.reg, 11, 1⟩
def PWR_CAUSE.dom_fault : Fld := ⟨PWR_CAUSE.reg, 10, 1⟩
def PWR_CAUSE.thm3 : Fld := ⟨PWR_CAUSE.reg, 9, 1⟩
def PWR_CAUSE.thm2 : Fld := ⟨PWR_CAUSE.reg, 8, 1⟩
def PWR_CAUSE.thm1 : Fld := ⟨PWR_CAUSE.reg, 7, 1⟩
def PWR_CAUSE.aux : Fld := ⟨PWR_CAUSE.reg, 6, 1⟩
def PWR_CAUSE.ride : Fld := ⟨PWR_CAUSE.reg, 5, 1⟩
def PWR_CAUSE.b_back : Fld := ⟨PWR_CAUSE.reg, 4, 1⟩
def PWR_CAUSE.a_back : Fld := ⟨PWR_CAUSE.reg, 3, 1⟩
def PWR_CAUSE.b_lost : Fld := ⟨PWR_CAUSE.reg, 2, 1⟩
def PWR_CAUSE.a_lost : Fld := ⟨PWR_CAUSE.reg, 1, 1⟩
/-- PWR_AUXn: Auxiliary output n (chapter 13), 64 bits. -/
def PWR_AUXn.reg (n : Nat) : Nat := 0x1800201000 + 0x10 * n
def PWR_AUXn.en (n : Nat) : Fld := ⟨PWR_AUXn.reg n, 63, 1⟩
def PWR_AUXn.latched (n : Nat) : Fld := ⟨PWR_AUXn.reg n, 62, 1⟩
def PWR_AUXn.pout (n : Nat) : Fld := ⟨PWR_AUXn.reg n, 32, 16⟩
def PWR_AUXn.vset (n : Nat) : Fld := ⟨PWR_AUXn.reg n, 20, 12⟩
def PWR_AUXn.ilim (n : Nat) : Fld := ⟨PWR_AUXn.reg n, 8, 12⟩
/-- PWR_THM_CFG: Thermal configuration (chapter 13), 32 bits. -/
def PWR_THM_CFG.reg : Nat := 0x1800202000
def PWR_THM_CFG.t2 : Fld := ⟨PWR_THM_CFG.reg, 16, 8⟩
def PWR_THM_CFG.t1 : Fld := ⟨PWR_THM_CFG.reg, 8, 8⟩
def PWR_THM_CFG.shed : Fld := ⟨PWR_THM_CFG.reg, 0, 1⟩
/-- PWR_THM_STAT: Thermal status (chapter 13), 32 bits. -/
def PWR_THM_STAT.reg : Nat := 0x1800202004
def PWR_THM_STAT.tmax : Fld := ⟨PWR_THM_STAT.reg, 16, 16⟩
def PWR_THM_STAT.hot : Fld := ⟨PWR_THM_STAT.reg, 5, 5⟩
def PWR_THM_STAT.level : Fld := ⟨PWR_THM_STAT.reg, 0, 2⟩
/-- PWR_THM_AVG: Mean temperature (chapter 13), 64 bits. -/
def PWR_THM_AVG.reg : Nat := 0x1800202008
def PWR_THM_AVG.sec : Fld := ⟨PWR_THM_AVG.reg, 32, 32⟩
def PWR_THM_AVG.avg : Fld := ⟨PWR_THM_AVG.reg, 0, 16⟩
/-- PWR_RST: Group reset (chapter 13), 32 bits. -/
def PWR_RST.reg : Nat := 0x1800203000
def PWR_RST.g : Fld := ⟨PWR_RST.reg, 1, 5⟩
/-- CLK_CFG: Clock configuration (chapter 13), 32 bits. -/
def CLK_CFG.reg : Nat := 0x1800300000
def CLK_CFG.dclk_en : Fld := ⟨CLK_CFG.reg, 8, 4⟩
def CLK_CFG.div : Fld := ⟨CLK_CFG.reg, 6, 2⟩
def CLK_CFG.synce_f : Fld := ⟨CLK_CFG.reg, 1, 2⟩
/-- CLK_STAT: Clock status (chapter 13), 32 bits. -/
def CLK_STAT.reg : Nat := 0x1800300004
def CLK_STAT.sdco : Fld := ⟨CLK_STAT.reg, 4, 1⟩
def CLK_STAT.lpll : Fld := ⟨CLK_STAT.reg, 3, 1⟩
def CLK_STAT.apll : Fld := ⟨CLK_STAT.reg, 2, 1⟩
def CLK_STAT.mpll : Fld := ⟨CLK_STAT.reg, 1, 1⟩
def CLK_STAT.ref_ok : Fld := ⟨CLK_STAT.reg, 0, 1⟩
/-- CLK_XCAUSE: Clock and crossing causes (chapter 13), 32 bits. -/
def CLK_XCAUSE.reg : Nat := 0x1800300010
def CLK_XCAUSE.lock_lost : Fld := ⟨CLK_XCAUSE.reg, 2, 1⟩
def CLK_XCAUSE.ref_lost : Fld := ⟨CLK_XCAUSE.reg, 1, 1⟩
def CLK_XCAUSE.gpio_ovr : Fld := ⟨CLK_XCAUSE.reg, 0, 1⟩
/-- ACX_HPARK: Hart park (chapter 14), 32 bits. -/
def ACX_HPARK.reg : Nat := 0x1801550000
def ACX_HPARK.absent : Fld := ⟨ACX_HPARK.reg, 24, 8⟩
def ACX_HPARK.evict : Fld := ⟨ACX_HPARK.reg, 16, 8⟩
def ACX_HPARK.parked : Fld := ⟨ACX_HPARK.reg, 8, 8⟩
def ACX_HPARK.park : Fld := ⟨ACX_HPARK.reg, 0, 8⟩
/-- ACX_HENTRY: Hart entry (chapter 14), 64 bits. -/
def ACX_HENTRY.reg : Nat := 0x1801550008
def ACX_HENTRY.addr : Fld := ⟨ACX_HENTRY.reg, 2, 38⟩
/-- ACX_CAUSE: Application-core causes (chapter 14), 32 bits. -/
def ACX_CAUSE.reg : Nat := 0x1801550010
def ACX_CAUSE.evict : Fld := ⟨ACX_CAUSE.reg, 2, 1⟩
def ACX_CAUSE.ecc2 : Fld := ⟨ACX_CAUSE.reg, 1, 1⟩
def ACX_CAUSE.ecc1 : Fld := ⟨ACX_CAUSE.reg, 0, 1⟩
/-- ACX_ECCA: Last cache error (chapter 14), 64 bits. -/
def ACX_ECCA.reg : Nat := 0x1801550018
def ACX_ECCA.src : Fld := ⟨ACX_ECCA.reg, 60, 4⟩
def ACX_ECCA.addr : Fld := ⟨ACX_ECCA.reg, 0, 40⟩
/-- SEC_BOOT_STAT: Boot status (chapter 14), 32 bits. -/
def SEC_BOOT_STAT.reg : Nat := 0x1800600000
def SEC_BOOT_STAT.rec : Fld := ⟨SEC_BOOT_STAT.reg, 17, 1⟩
def SEC_BOOT_STAT.setb : Fld := ⟨SEC_BOOT_STAT.reg, 16, 1⟩
def SEC_BOOT_STAT.src : Fld := ⟨SEC_BOOT_STAT.reg, 14, 2⟩
def SEC_BOOT_STAT.type : Fld := ⟨SEC_BOOT_STAT.reg, 8, 4⟩
def SEC_BOOT_STAT.code : Fld := ⟨SEC_BOOT_STAT.reg, 4, 4⟩
def SEC_BOOT_STAT.stage : Fld := ⟨SEC_BOOT_STAT.reg, 0, 4⟩
/-- SEC_HLOAD: Host load (chapter 14), 32 bits. -/
def SEC_HLOAD.reg : Nat := 0x1800600008
def SEC_HLOAD.go : Fld := ⟨SEC_HLOAD.reg, 4, 1⟩
def SEC_HLOAD.type : Fld := ⟨SEC_HLOAD.reg, 0, 4⟩
/-- SEC_MRi: Measurement register i (chapter 14), 512 bits. -/
def SEC_MRi.reg (i : Nat) : Nat := 0x1800600100 + 0x40 * i
def SEC_MRi.mr (i : Nat) : Fld := ⟨SEC_MRi.reg i, 0, 512⟩
/-- SEC_MDk: Model digest k (chapter 14), 512 bits. -/
def SEC_MDk.reg (k : Nat) : Nat := 0x1800600400 + 0x40 * k
def SEC_MDk.md (k : Nat) : Fld := ⟨SEC_MDk.reg k, 0, 512⟩
/-- SEC_QNONCE: Quote nonce (chapter 14), 512 bits. -/
def SEC_QNONCE.reg : Nat := 0x1800600800
def SEC_QNONCE.nonce : Fld := ⟨SEC_QNONCE.reg, 0, 512⟩
/-- SEC_QADDR: Quote buffer (chapter 14), 64 bits. -/
def SEC_QADDR.reg : Nat := 0x1800600840
def SEC_QADDR.addr : Fld := ⟨SEC_QADDR.reg, 6, 34⟩
/-- SEC_QCTL: Quote control (chapter 14), 32 bits. -/
def SEC_QCTL.reg : Nat := 0x1800600848
def SEC_QCTL.busy : Fld := ⟨SEC_QCTL.reg, 1, 1⟩
def SEC_QCTL.go : Fld := ⟨SEC_QCTL.reg, 0, 1⟩
/-- SEC_KCTL: Key command control (chapter 14), 32 bits. -/
def SEC_KCTL.reg : Nat := 0x1800600888
def SEC_KCTL.res : Fld := ⟨SEC_KCTL.reg, 4, 4⟩
def SEC_KCTL.go : Fld := ⟨SEC_KCTL.reg, 0, 1⟩
/-- SEC_DBG_CHAL: Debug challenge (chapter 14), 256 bits. -/
def SEC_DBG_CHAL.reg : Nat := 0x1800600900
def SEC_DBG_CHAL.chal : Fld := ⟨SEC_DBG_CHAL.reg, 0, 256⟩
/-- SEC_DBG_CTL: Debug control (chapter 14), 32 bits. -/
def SEC_DBG_CTL.reg : Nat := 0x1800600940
def SEC_DBG_CTL.unlocked : Fld := ⟨SEC_DBG_CTL.reg, 2, 1⟩
def SEC_DBG_CTL.lock : Fld := ⟨SEC_DBG_CTL.reg, 1, 1⟩
def SEC_DBG_CTL.go : Fld := ⟨SEC_DBG_CTL.reg, 0, 1⟩
/-- SEC_DBG_PERM: Debug permissions (chapter 14), 64 bits. -/
def SEC_DBG_PERM.reg : Nat := 0x1800600950
def SEC_DBG_PERM.perm : Fld := ⟨SEC_DBG_PERM.reg, 0, 64⟩
/-- SEC_CAUSE: Security causes (chapter 14), 32 bits. -/
def SEC_CAUSE.reg : Nat := 0x1800600a00
def SEC_CAUSE.kfail : Fld := ⟨SEC_CAUSE.reg, 6, 1⟩
def SEC_CAUSE.kdone : Fld := ⟨SEC_CAUSE.reg, 5, 1⟩
def SEC_CAUSE.dbg_fail : Fld := ⟨SEC_CAUSE.reg, 4, 1⟩
def SEC_CAUSE.dbg_ok : Fld := ⟨SEC_CAUSE.reg, 3, 1⟩
def SEC_CAUSE.qfail : Fld := ⟨SEC_CAUSE.reg, 2, 1⟩
def SEC_CAUSE.qbusy : Fld := ⟨SEC_CAUSE.reg, 1, 1⟩
def SEC_CAUSE.qdone : Fld := ⟨SEC_CAUSE.reg, 0, 1⟩
/-- FUSE_KSTAT: Key and boot fuses (chapter 14), 32 bits. -/
def FUSE_KSTAT.reg : Nat := 0x1800500000
def FUSE_KSTAT.src : Fld := ⟨FUSE_KSTAT.reg, 18, 2⟩
def FUSE_KSTAT.rec : Fld := ⟨FUSE_KSTAT.reg, 17, 1⟩
def FUSE_KSTAT.owner : Fld := ⟨FUSE_KSTAT.reg, 16, 1⟩
def FUSE_KSTAT.orev : Fld := ⟨FUSE_KSTAT.reg, 12, 4⟩
def FUSE_KSTAT.oprog : Fld := ⟨FUSE_KSTAT.reg, 8, 4⟩
def FUSE_KSTAT.vrev : Fld := ⟨FUSE_KSTAT.reg, 4, 4⟩
def FUSE_KSTAT.vprog : Fld := ⟨FUSE_KSTAT.reg, 0, 4⟩
/-- FUSE_SVNt: Security version of type t (chapter 14), 32 bits. -/
def FUSE_SVNt.reg (t : Nat) : Nat := 0x1800500300 + 0x4 * t
def FUSE_SVNt.svn (t : Nat) : Fld := ⟨FUSE_SVNt.reg t, 0, 7⟩
/-- FUSE_UID: Device identifier (chapter 14), 128 bits. -/
def FUSE_UID.reg : Nat := 0x1800500400
def FUSE_UID.uid : Fld := ⟨FUSE_UID.reg, 0, 128⟩
/-- SYS_ID: Device identification (chapter 15), 32 bits. -/
def SYS_ID.reg : Nat := 0x1800000000
def SYS_ID.part : Fld := ⟨SYS_ID.reg, 16, 16⟩
def SYS_ID.step : Fld := ⟨SYS_ID.reg, 12, 4⟩
def SYS_ID.rev : Fld := ⟨SYS_ID.reg, 8, 4⟩
def SYS_ID.grade : Fld := ⟨SYS_ID.reg, 0, 2⟩
/-- SYS_MODE: System mode (chapter 15), 32 bits. -/
def SYS_MODE.reg : Nat := 0x1800000008
def SYS_MODE.det : Fld := ⟨SYS_MODE.reg, 0, 1⟩
/-- SYS_STAT: System status (chapter 15), 32 bits. -/
def SYS_STAT.reg : Nat := 0x1800000010
def SYS_STAT.rstcnt : Fld := ⟨SYS_STAT.reg, 0, 8⟩
/-- SYS_CAUSE: System causes (chapter 15), 32 bits. -/
def SYS_CAUSE.reg : Nat := 0x1800000020
def SYS_CAUSE.unmapped : Fld := ⟨SYS_CAUSE.reg, 0, 1⟩
/-- SYS_BADA: Last unmapped address (chapter 15), 64 bits. -/
def SYS_BADA.reg : Nat := 0x1800000028
def SYS_BADA.src : Fld := ⟨SYS_BADA.reg, 62, 2⟩
def SYS_BADA.addr : Fld := ⟨SYS_BADA.reg, 0, 40⟩
/-- SYS_GPIO_EVCFG: GPIO event edges (chapter 15), 128 bits. -/
def SYS_GPIO_EVCFG.reg : Nat := 0x1800000140
def SYS_GPIO_EVCFG.edge (n : Nat) : Fld := ⟨SYS_GPIO_EVCFG.reg, 2 * n + 0, 2⟩
/-- SYS_GPIO_TS: Last GPIO event (chapter 15), 128 bits. -/
def SYS_GPIO_TS.reg : Nat := 0x1800000150
def SYS_GPIO_TS.pin : Fld := ⟨SYS_GPIO_TS.reg, 96, 6⟩
def SYS_GPIO_TS.sec : Fld := ⟨SYS_GPIO_TS.reg, 64, 32⟩
def SYS_GPIO_TS.ns : Fld := ⟨SYS_GPIO_TS.reg, 4, 30⟩
def SYS_GPIO_TS.qns : Fld := ⟨SYS_GPIO_TS.reg, 0, 2⟩
/-- INT_SUMSTAT: Summary status (chapter 15), 32 bits. -/
def INT_SUMSTAT.reg : Nat := 0x1800100000
def INT_SUMSTAT.grp : Fld := ⟨INT_SUMSTAT.reg, 0, 23⟩
/-- INT_PINMASK: INT_N mask (chapter 15), 32 bits. -/
def INT_PINMASK.reg : Nat := 0x1800100004
def INT_PINMASK.mask : Fld := ⟨INT_PINMASK.reg, 0, 23⟩
/-- INT_PINSTAT: INT_N state (chapter 15), 32 bits. -/
def INT_PINSTAT.reg : Nat := 0x1800100008
def INT_PINSTAT.drive : Fld := ⟨INT_PINSTAT.reg, 0, 1⟩
/-- GCAUSE_x: Group cause of group g (chapter 15), 64 bits. -/
def GCAUSE_x.reg (g : Nat) : Nat := 0x1800100100 + 0x10 * g
def GCAUSE_x.leaf (g : Nat) : Fld := ⟨GCAUSE_x.reg g, 0, 64⟩
/-- GMASK_x: Group mask of group g (chapter 15), 64 bits. -/
def GMASK_x.reg (g : Nat) : Nat := 0x1800100108 + 0x10 * g
def GMASK_x.mask (g : Nat) : Fld := ⟨GMASK_x.reg g, 0, 64⟩
/-- TMB_KP: Gain (chapter 02), 32 bits. -/
def TMB_KP.reg : Nat := 0x1800700098
def TMB_KP.s : Fld := ⟨TMB_KP.reg, 16, 6⟩
def TMB_KP.m : Fld := ⟨TMB_KP.reg, 0, 16⟩
/-- TMB_KI: Gain (chapter 02), 32 bits. -/
def TMB_KI.reg : Nat := 0x180070009c
def TMB_KI.s : Fld := ⟨TMB_KI.reg, 16, 6⟩
def TMB_KI.m : Fld := ⟨TMB_KI.reg, 0, 16⟩
/-- TMB_KF: Gain (chapter 02), 32 bits. -/
def TMB_KF.reg : Nat := 0x18007000a0
def TMB_KF.s : Fld := ⟨TMB_KF.reg, 16, 6⟩
def TMB_KF.m : Fld := ⟨TMB_KF.reg, 0, 16⟩
/-- TMB_MASK: Mask (chapter 02), 32 bits. -/
def TMB_MASK.reg : Nat := 0x180070000c
def TMB_MASK.pps_ovr : Fld := ⟨TMB_MASK.reg, 4, 1⟩
def TMB_MASK.ylim : Fld := ⟨TMB_MASK.reg, 3, 1⟩
def TMB_MASK.freq_lost : Fld := ⟨TMB_MASK.reg, 2, 1⟩
def TMB_MASK.ho_exit : Fld := ⟨TMB_MASK.reg, 1, 1⟩
def TMB_MASK.ho_enter : Fld := ⟨TMB_MASK.reg, 0, 1⟩
/-- ORR_MASK: Mask (chapter 02), 64 bits. -/
def ORR_MASK.reg : Nat := 0x1800800408
def ORR_MASK.bad_op : Fld := ⟨ORR_MASK.reg, 32, 8⟩
def ORR_MASK.conj : Fld := ⟨ORR_MASK.reg, 24, 8⟩
def ORR_MASK.wr_active : Fld := ⟨ORR_MASK.reg, 16, 8⟩
def ORR_MASK.ring_bad : Fld := ⟨ORR_MASK.reg, 8, 8⟩
def ORR_MASK.scan_ovf : Fld := ⟨ORR_MASK.reg, 0, 8⟩
/-- ORR_SIG: Signals (chapter 02), 32 bits. -/
def ORR_SIG.reg : Nat := 0x1800800410
def ORR_SIG.sig : Fld := ⟨ORR_SIG.reg, 0, 32⟩
/-- ORR_BANK: Timetable word (chapter 02), 64 bits. -/
def ORR_BANK.reg (n b i : Nat) : Nat := 0x1800810000 + 0x8000 * n + 0x4000 * b + 0x8 * i
def ORR_BANK.w (n b i : Nat) : Fld := ⟨ORR_BANK.reg n b i, 0, 64⟩
/-- TIL_MASK: Mask (chapter 03), 32 bits. -/
def TIL_MASK.reg (t : Nat) : Nat := 0x1804000024 + 0x10000 * t
def TIL_MASK.evf_ovr (t : Nat) : Fld := ⟨TIL_MASK.reg t, 4, 1⟩
def TIL_MASK.ecc1 (t : Nat) : Fld := ⟨TIL_MASK.reg t, 3, 1⟩
def TIL_MASK.ecc2 (t : Nat) : Fld := ⟨TIL_MASK.reg t, 2, 1⟩
def TIL_MASK.loop_ovf (t : Nat) : Fld := ⟨TIL_MASK.reg t, 1, 1⟩
def TIL_MASK.bad_op (t : Nat) : Fld := ⟨TIL_MASK.reg t, 0, 1⟩
/-- MEMC_RSV_WR: Write reservation (chapter 06), 64 bits. -/
def MEMC_RSV_WR.reg : Nat := 0x1800b00018
def MEMC_RSV_WR.comet : Fld := ⟨MEMC_RSV_WR.reg, 32, 4⟩
def MEMC_RSV_WR.acx : Fld := ⟨MEMC_RSV_WR.reg, 16, 16⟩
def MEMC_RSV_WR.swap : Fld := ⟨MEMC_RSV_WR.reg, 0, 16⟩
/-- MEMC_MASK: Mask (chapter 06), 32 bits. -/
def MEMC_MASK.reg : Nat := 0x1800b00044
def MEMC_MASK.clip : Fld := ⟨MEMC_MASK.reg, 1, 1⟩
def MEMC_MASK.hole : Fld := ⟨MEMC_MASK.reg, 0, 1⟩
/-- DMA_Cc_MASK: Mask (chapter 06), 64 bits. -/
def DMA_Cc_MASK.reg (c : Nat) : Nat := 0x1800a00908 + 0x10000 * c
def DMA_Cc_MASK.mc_drop (c : Nat) : Fld := ⟨DMA_Cc_MASK.reg c, 32, 32⟩
def DMA_Cc_MASK.bad (c : Nat) : Fld := ⟨DMA_Cc_MASK.reg c, 0, 32⟩
/-- DMA_RINGB_OWN: Ring B ownership (chapter 06), 128 bits. -/
def DMA_RINGB_OWN.reg : Nat := 0x1800a80020
def DMA_RINGB_OWN.own : Fld := ⟨DMA_RINGB_OWN.reg, 0, 96⟩
/-- FH_MASK: Mask (chapter 07), 32 bits. -/
def FH_MASK.reg : Nat := 0x1800c00004
def FH_MASK.ovr : Fld := ⟨FH_MASK.reg, 10, 1⟩
def FH_MASK.lw : Fld := ⟨FH_MASK.reg, 9, 1⟩
def FH_MASK.qfull : Fld := ⟨FH_MASK.reg, 8, 1⟩
def FH_MASK.cap : Fld := ⟨FH_MASK.reg, 7, 1⟩
def FH_MASK.short : Fld := ⟨FH_MASK.reg, 6, 1⟩
def FH_MASK.badcomp : Fld := ⟨FH_MASK.reg, 5, 1⟩
def FH_MASK.hdr : Fld := ⟨FH_MASK.reg, 4, 1⟩
def FH_MASK.nomatch : Fld := ⟨FH_MASK.reg, 3, 1⟩
def FH_MASK.dir : Fld := ⟨FH_MASK.reg, 2, 1⟩
def FH_MASK.stale : Fld := ⟨FH_MASK.reg, 1, 1⟩
def FH_MASK.early : Fld := ⟨FH_MASK.reg, 0, 1⟩
/-- FH_LWCAUSE: Low-water causes (chapter 07), 64 bits. -/
def FH_LWCAUSE.reg : Nat := 0x1800c00010
def FH_LWCAUSE.q : Fld := ⟨FH_LWCAUSE.reg, 0, 64⟩
/-- FH_LWMASK: Low-water mask (chapter 07), 64 bits. -/
def FH_LWMASK.reg : Nat := 0x1800c00018
def FH_LWMASK.q : Fld := ⟨FH_LWMASK.reg, 0, 64⟩
/-- FH_RST: Coefficient sets FH_RSTk (chapter 07), 32 bits. -/
def FH_RST.reg (k i : Nat) : Nat := 0x1800c30000 + 0x200 * k + 0x4 * i
def FH_RST.hi (k i : Nat) : Fld := ⟨FH_RST.reg k i, 16, 16⟩
def FH_RST.lo (k i : Nat) : Fld := ⟨FH_RST.reg k i, 0, 16⟩
/-- DFE_RXc_NCO1: Branch-1 NCO (chapter 07), 32 bits. -/
def DFE_RXc_NCO1.reg (c : Nat) : Nat := 0x1800f00028 + 0x40 * c
def DFE_RXc_NCO1.nco (c : Nat) : Fld := ⟨DFE_RXc_NCO1.reg c, 0, 32⟩
/-- DFE_TXc_NCO1: Branch-1 NCO (chapter 07), 32 bits. -/
def DFE_TXc_NCO1.reg (c : Nat) : Nat := 0x1800f10020 + 0x40 * c
def DFE_TXc_NCO1.nco (c : Nat) : Fld := ⟨DFE_TXc_NCO1.reg c, 0, 32⟩
/-- DFE_DPD: DPD coefficient banks (chapter 07), 32 bits. -/
def DFE_DPD.reg (c b i : Nat) : Nat := 0x1800f20000 + 0x200 * c + 0x100 * b + 0x4 * i
def DFE_DPD.q (c b i : Nat) : Fld := ⟨DFE_DPD.reg c b i, 16, 16⟩
def DFE_DPD.i (c b i : Nat) : Fld := ⟨DFE_DPD.reg c b i, 0, 16⟩
/-- DFE_MASK: Mask (chapter 07), 32 bits. -/
def DFE_MASK.reg : Nat := 0x1800f30004
def DFE_MASK.ovf : Fld := ⟨DFE_MASK.reg, 3, 1⟩
def DFE_MASK.sat : Fld := ⟨DFE_MASK.reg, 2, 1⟩
def DFE_MASK.wr_active : Fld := ⟨DFE_MASK.reg, 1, 1⟩
def DFE_MASK.late : Fld := ⟨DFE_MASK.reg, 0, 1⟩
/-- JES_TXk_CFG: Transmit link (chapter 07), 64 bits. -/
def JES_TXk_CFG.reg (k : Nat) : Nat := 0x1800e00100 + 0x10 * k
def JES_TXk_CFG.en (k : Nat) : Fld := ⟨JES_TXk_CFG.reg k, 63, 1⟩
def JES_TXk_CFG.lane (k : Nat) : Fld := ⟨JES_TXk_CFG.reg k, 48, 8⟩
def JES_TXk_CFG.l (k : Nat) : Fld := ⟨JES_TXk_CFG.reg k, 44, 4⟩
def JES_TXk_CFG.nstr (k : Nat) : Fld := ⟨JES_TXk_CFG.reg k, 38, 6⟩
def JES_TXk_CFG.first (k : Nat) : Fld := ⟨JES_TXk_CFG.reg k, 32, 6⟩
def JES_TXk_CFG.s (k : Nat) : Fld := ⟨JES_TXk_CFG.reg k, 30, 2⟩
def JES_TXk_CFG.np12 (k : Nat) : Fld := ⟨JES_TXk_CFG.reg k, 29, 1⟩
def JES_TXk_CFG.f (k : Nat) : Fld := ⟨JES_TXk_CFG.reg k, 24, 5⟩
def JES_TXk_CFG.e (k : Nat) : Fld := ⟨JES_TXk_CFG.reg k, 16, 8⟩
/-- JES_TXMAPi: Transmit lane map (chapter 11), 64 bits. -/
def JES_TXMAPi.reg (i : Nat) : Nat := 0x1800e00240 + 0x8 * i
def JES_TXMAPi.phy (i j : Nat) : Fld := ⟨JES_TXMAPi.reg i, 8 * j + 0, 6⟩
/-- JES_MASK: Mask (chapter 11), 64 bits. -/
def JES_MASK.reg : Nat := 0x1800e00398
def JES_MASK.cfg : Fld := ⟨JES_MASK.reg, 48, 16⟩
def JES_MASK.rbd_late : Fld := ⟨JES_MASK.reg, 40, 8⟩
def JES_MASK.unlock : Fld := ⟨JES_MASK.reg, 32, 8⟩
def JES_MASK.crc : Fld := ⟨JES_MASK.reg, 24, 8⟩
def JES_MASK.sr_ovr : Fld := ⟨JES_MASK.reg, 1, 1⟩
def JES_MASK.sr_mis : Fld := ⟨JES_MASK.reg, 0, 1⟩
/-- EQ_MASK: Mask (chapter 08), 32 bits. -/
def EQ_MASK.reg : Nat := 0x1801100804
def EQ_MASK.ovf : Fld := ⟨EQ_MASK.reg, 8, 8⟩
def EQ_MASK.bad : Fld := ⟨EQ_MASK.reg, 0, 8⟩
/-- LDPC_MASK: Mask (chapter 08), 64 bits. -/
def LDPC_MASK.reg : Nat := 0x1801200808
def LDPC_MASK.perr : Fld := ⟨LDPC_MASK.reg, 32, 6⟩
def LDPC_MASK.enc_ovf : Fld := ⟨LDPC_MASK.reg, 24, 4⟩
def LDPC_MASK.dec_ovf : Fld := ⟨LDPC_MASK.reg, 16, 6⟩
def LDPC_MASK.enc_bad : Fld := ⟨LDPC_MASK.reg, 8, 4⟩
def LDPC_MASK.dec_bad : Fld := ⟨LDPC_MASK.reg, 0, 6⟩
/-- POL_MASK: Mask (chapter 08), 32 bits. -/
def POL_MASK.reg : Nat := 0x1801300804
def POL_MASK.ovf : Fld := ⟨POL_MASK.reg, 8, 2⟩
def POL_MASK.bad : Fld := ⟨POL_MASK.reg, 0, 2⟩
/-- CTX_DMON_MASK: Mask (chapter 09), 32 bits. -/
def CTX_DMON_MASK.reg : Nat := 0x1800940008
def CTX_DMON_MASK.bad : Fld := ⟨CTX_DMON_MASK.reg, 3, 1⟩
def CTX_DMON_MASK.overrun : Fld := ⟨CTX_DMON_MASK.reg, 2, 1⟩
def CTX_DMON_MASK.fb_late : Fld := ⟨CTX_DMON_MASK.reg, 1, 1⟩
def CTX_DMON_MASK.fired : Fld := ⟨CTX_DMON_MASK.reg, 0, 1⟩
/-- CTX_DMON_NFB: Fallback count (chapter 09), 32 bits. -/
def CTX_DMON_NFB.reg : Nat := 0x1800940014
def CTX_DMON_NFB.count : Fld := ⟨CTX_DMON_NFB.reg, 0, 32⟩
/-- CTX_MASK: Mask (chapter 10), 32 bits. -/
def CTX_MASK.reg : Nat := 0x1800900004
def CTX_MASK.en_bad : Fld := ⟨CTX_MASK.reg, 4, 1⟩
def CTX_MASK.wr_active : Fld := ⟨CTX_MASK.reg, 3, 1⟩
def CTX_MASK.fault : Fld := ⟨CTX_MASK.reg, 2, 1⟩
def CTX_MASK.ovf : Fld := ⟨CTX_MASK.reg, 1, 1⟩
def CTX_MASK.bad : Fld := ⟨CTX_MASK.reg, 0, 1⟩
/-- OPT_MASK: Mask (chapter 11), 64 bits. -/
def OPT_MASK.reg : Nat := 0x1800d00008
def OPT_MASK.los : Fld := ⟨OPT_MASK.reg, 32, 32⟩
def OPT_MASK.laser : Fld := ⟨OPT_MASK.reg, 4, 1⟩
def OPT_MASK.txlate : Fld := ⟨OPT_MASK.reg, 3, 1⟩
def OPT_MASK.rxfull : Fld := ⟨OPT_MASK.reg, 2, 1⟩
def OPT_MASK.cfg : Fld := ⟨OPT_MASK.reg, 1, 1⟩
/-- OPT_Pp_TXRk: Transmit ring (chapter 11), 64 bits. -/
def OPT_Pp_TXRk.reg (p k : Nat) : Nat := 0x1800d00140 + 0x80 * p + 0x8 * k
def OPT_Pp_TXRk.en (p k : Nat) : Fld := ⟨OPT_Pp_TXRk.reg p k, 63, 1⟩
def OPT_Pp_TXRk.log2size (p k : Nat) : Fld := ⟨OPT_Pp_TXRk.reg p k, 59, 4⟩
def OPT_Pp_TXRk.addr (p k : Nat) : Fld := ⟨OPT_Pp_TXRk.reg p k, 6, 34⟩
/-- APX_MASK: Mask (chapter 11), 64 bits. -/
def APX_MASK.reg : Nat := 0x1801400028
def APX_MASK.down : Fld := ⟨APX_MASK.reg, 32, 32⟩
def APX_MASK.start : Fld := ⟨APX_MASK.reg, 4, 1⟩
def APX_MASK.noroute : Fld := ⟨APX_MASK.reg, 3, 1⟩
def APX_MASK.badtype : Fld := ⟨APX_MASK.reg, 2, 1⟩
def APX_MASK.addr : Fld := ⟨APX_MASK.reg, 1, 1⟩
def APX_MASK.rtmo : Fld := ⟨APX_MASK.reg, 0, 1⟩
/-- PWR_REP_MASK: Mask (chapter 12), 32 bits. -/
def PWR_REP_MASK.reg : Nat := 0x1800280014
def PWR_REP_MASK.lost : Fld := ⟨PWR_REP_MASK.reg, 5, 1⟩
def PWR_REP_MASK.replan : Fld := ⟨PWR_REP_MASK.reg, 4, 1⟩
def PWR_REP_MASK.exhaust : Fld := ⟨PWR_REP_MASK.reg, 3, 1⟩
def PWR_REP_MASK.done : Fld := ⟨PWR_REP_MASK.reg, 2, 1⟩
def PWR_REP_MASK.log : Fld := ⟨PWR_REP_MASK.reg, 1, 1⟩
def PWR_REP_MASK.det : Fld := ⟨PWR_REP_MASK.reg, 0, 1⟩
/-- PWR_REP_UMAP: Unit map (four units a word) (chapter 12), 32 bits. -/
def PWR_REP_UMAP.reg (k i : Nat) : Nat := 0x1800281000 + 0x100 * k + 0x4 * i
def PWR_REP_UMAP.absent (k i j : Nat) : Fld := ⟨PWR_REP_UMAP.reg k i, 8 * j + 7, 1⟩
def PWR_REP_UMAP.phys (k i j : Nat) : Fld := ⟨PWR_REP_UMAP.reg k i, 8 * j + 0, 7⟩
/-- PWR_MASK: Mask (chapter 13), 32 bits. -/
def PWR_MASK.reg : Nat := 0x1800200414
def PWR_MASK.rstacc : Fld := ⟨PWR_MASK.reg, 11, 1⟩
def PWR_MASK.dom_fault : Fld := ⟨PWR_MASK.reg, 10, 1⟩
def PWR_MASK.thm3 : Fld := ⟨PWR_MASK.reg, 9, 1⟩
def PWR_MASK.thm2 : Fld := ⟨PWR_MASK.reg, 8, 1⟩
def PWR_MASK.thm1 : Fld := ⟨PWR_MASK.reg, 7, 1⟩
def PWR_MASK.aux : Fld := ⟨PWR_MASK.reg, 6, 1⟩
def PWR_MASK.ride : Fld := ⟨PWR_MASK.reg, 5, 1⟩
def PWR_MASK.b_back : Fld := ⟨PWR_MASK.reg, 4, 1⟩
def PWR_MASK.a_back : Fld := ⟨PWR_MASK.reg, 3, 1⟩
def PWR_MASK.b_lost : Fld := ⟨PWR_MASK.reg, 2, 1⟩
def PWR_MASK.a_lost : Fld := ⟨PWR_MASK.reg, 1, 1⟩
/-- CAL_F: Calibration items (chapter 13), 32 bits. -/
def CAL_F.reg (i : Nat) : Nat := 0x1800400000 + 0x4 * i
def CAL_F.val (i : Nat) : Fld := ⟨CAL_F.reg i, 0, 24⟩
/-- CAL_U: Calibration items (chapter 13), 32 bits. -/
def CAL_U.reg (i : Nat) : Nat := 0x1800410000 + 0x4 * i
def CAL_U.val (i : Nat) : Fld := ⟨CAL_U.reg i, 0, 24⟩
/-- CAL_E: Calibration items (chapter 13), 32 bits. -/
def CAL_E.reg (i : Nat) : Nat := 0x1800420000 + 0x4 * i
def CAL_E.val (i : Nat) : Fld := ⟨CAL_E.reg i, 0, 24⟩
/-- CLK_XMASK: Mask (chapter 13), 32 bits. -/
def CLK_XMASK.reg : Nat := 0x1800300014
def CLK_XMASK.lock_lost : Fld := ⟨CLK_XMASK.reg, 2, 1⟩
def CLK_XMASK.ref_lost : Fld := ⟨CLK_XMASK.reg, 1, 1⟩
def CLK_XMASK.gpio_ovr : Fld := ⟨CLK_XMASK.reg, 0, 1⟩
/-- ACX_MASK: Mask (chapter 14), 32 bits. -/
def ACX_MASK.reg : Nat := 0x1801550014
def ACX_MASK.evict : Fld := ⟨ACX_MASK.reg, 2, 1⟩
def ACX_MASK.ecc2 : Fld := ⟨ACX_MASK.reg, 1, 1⟩
def ACX_MASK.ecc1 : Fld := ⟨ACX_MASK.reg, 0, 1⟩
/-- ACX_APLIC: Words of the APLIC domains (chapter 14), 32 bits. -/
def ACX_APLIC.reg (d i : Nat) : Nat := 0x1801500000 + 0x10000 * d + 0x4 * i
def ACX_APLIC.w (d i : Nat) : Fld := ⟨ACX_APLIC.reg d i, 0, 32⟩
/-- ACX_MSIP: Machine software interrupt of hart h (chapter 14), 32 bits. -/
def ACX_MSIP.reg (h : Nat) : Nat := 0x1801520000 + 0x4 * h
def ACX_MSIP.ip (h : Nat) : Fld := ⟨ACX_MSIP.reg h, 0, 1⟩
/-- ACX_MTIMECMP: Timer compare of hart h (chapter 14), 64 bits. -/
def ACX_MTIMECMP.reg (h : Nat) : Nat := 0x1801530000 + 0x8 * h
def ACX_MTIMECMP.t (h : Nat) : Fld := ⟨ACX_MTIMECMP.reg h, 0, 64⟩
/-- ACX_MTIME: Timer (chapter 14), 64 bits. -/
def ACX_MTIME.reg : Nat := 0x1801537ff8
def ACX_MTIME.t : Fld := ⟨ACX_MTIME.reg, 0, 64⟩
/-- ACX_SETSSIP: Supervisor software interrupt of hart h (chapter 14), 32 bits. -/
def ACX_SETSSIP.reg (h : Nat) : Nat := 0x1801540000 + 0x4 * h
def ACX_SETSSIP.ip (h : Nat) : Fld := ⟨ACX_SETSSIP.reg h, 0, 1⟩
/-- SEC_MRDATA: Extend data (chapter 14), 512 bits. -/
def SEC_MRDATA.reg : Nat := 0x1800600300
def SEC_MRDATA.data : Fld := ⟨SEC_MRDATA.reg, 0, 512⟩
/-- SEC_MRCTL: Extend control (chapter 14), 32 bits. -/
def SEC_MRCTL.reg : Nat := 0x1800600340
def SEC_MRCTL.go : Fld := ⟨SEC_MRCTL.reg, 0, 1⟩
/-- SEC_KCMD: Address (chapter 14), 64 bits. -/
def SEC_KCMD.reg : Nat := 0x1800600880
def SEC_KCMD.addr : Fld := ⟨SEC_KCMD.reg, 6, 34⟩
/-- SEC_DBG_TOK: Address (chapter 14), 64 bits. -/
def SEC_DBG_TOK.reg : Nat := 0x1800600948
def SEC_DBG_TOK.addr : Fld := ⟨SEC_DBG_TOK.reg, 6, 34⟩
/-- SEC_MASK: Mask (chapter 14), 32 bits. -/
def SEC_MASK.reg : Nat := 0x1800600a04
def SEC_MASK.kfail : Fld := ⟨SEC_MASK.reg, 6, 1⟩
def SEC_MASK.kdone : Fld := ⟨SEC_MASK.reg, 5, 1⟩
def SEC_MASK.dbg_fail : Fld := ⟨SEC_MASK.reg, 4, 1⟩
def SEC_MASK.dbg_ok : Fld := ⟨SEC_MASK.reg, 3, 1⟩
def SEC_MASK.qfail : Fld := ⟨SEC_MASK.reg, 2, 1⟩
def SEC_MASK.qbusy : Fld := ⟨SEC_MASK.reg, 1, 1⟩
def SEC_MASK.qdone : Fld := ⟨SEC_MASK.reg, 0, 1⟩
/-- FUSE_VKEYi: Vendor slot (chapter 14), 512 bits. -/
def FUSE_VKEYi.reg (i : Nat) : Nat := 0x1800500100 + 0x40 * i
def FUSE_VKEYi.digest (i : Nat) : Fld := ⟨FUSE_VKEYi.reg i, 0, 512⟩
/-- FUSE_OKEYi: Owner slot (chapter 14), 512 bits. -/
def FUSE_OKEYi.reg (i : Nat) : Nat := 0x1800500200 + 0x40 * i
def FUSE_OKEYi.digest (i : Nat) : Fld := ⟨FUSE_OKEYi.reg i, 0, 512⟩
/-- FUSE_CERTLEN: Certificate length (chapter 14), 32 bits. -/
def FUSE_CERTLEN.reg : Nat := 0x1800500410
def FUSE_CERTLEN.len : Fld := ⟨FUSE_CERTLEN.reg, 0, 12⟩
/-- FUSE_CERT: Certificate words (chapter 14), 32 bits. -/
def FUSE_CERT.reg (i : Nat) : Nat := 0x1800501000 + 0x4 * i
def FUSE_CERT.w (i : Nat) : Fld := ⟨FUSE_CERT.reg i, 0, 32⟩
/-- SYS_MASK: Mask (chapter 15), 32 bits. -/
def SYS_MASK.reg : Nat := 0x1800000024
def SYS_MASK.unmapped : Fld := ⟨SYS_MASK.reg, 0, 1⟩
/-- SYS_GPIO_OE: GPIO (chapter 15), 64 bits. -/
def SYS_GPIO_OE.reg : Nat := 0x1800000100
def SYS_GPIO_OE.pin : Fld := ⟨SYS_GPIO_OE.reg, 0, 64⟩
/-- SYS_GPIO_OUT: GPIO (chapter 15), 64 bits. -/
def SYS_GPIO_OUT.reg : Nat := 0x1800000108
def SYS_GPIO_OUT.pin : Fld := ⟨SYS_GPIO_OUT.reg, 0, 64⟩
/-- SYS_GPIO_IN: GPIO (chapter 15), 64 bits. -/
def SYS_GPIO_IN.reg : Nat := 0x1800000110
def SYS_GPIO_IN.pin : Fld := ⟨SYS_GPIO_IN.reg, 0, 64⟩
/-- SYS_GPIO_EVT: GPIO (chapter 15), 64 bits. -/
def SYS_GPIO_EVT.reg : Nat := 0x1800000120
def SYS_GPIO_EVT.pin : Fld := ⟨SYS_GPIO_EVT.reg, 0, 64⟩
/-- SYS_GPIO_EMASK: GPIO (chapter 15), 64 bits. -/
def SYS_GPIO_EMASK.reg : Nat := 0x1800000128
def SYS_GPIO_EMASK.pin : Fld := ⟨SYS_GPIO_EMASK.reg, 0, 64⟩
/-- Register lines of the TMB block. -/
def regLinesTmbA : List RegLine := [
  ⟨0x1800700000, [], 32, [⟨31, 10, .rsv, 0⟩, ⟨9, 9, .rw, 0⟩, ⟨8, 8, .rw, 0⟩, ⟨7, 2, .rw, 63⟩, ⟨1, 0, .rw, 3⟩]⟩,
  ⟨0x1800700004, [], 32, [⟨31, 4, .rsv, 0⟩, ⟨3, 3, .ro, 0⟩, ⟨2, 2, .ro, 0⟩, ⟨1, 0, .ro, 0⟩]⟩,
  ⟨0x1800700008, [], 32, [⟨31, 5, .rsv, 0⟩, ⟨4, 4, .w1c, 0⟩, ⟨3, 3, .w1c, 0⟩, ⟨2, 2, .w1c, 0⟩, ⟨1, 1, .w1c, 0⟩, ⟨0, 0, .w1c, 0⟩]⟩,
  ⟨0x1800700010, [], 32, [⟨31, 1, .rsv, 0⟩, ⟨0, 0, .wo, 0⟩]⟩,
  ⟨0x1800700018, [], 64, [⟨63, 48, .rsv, 0⟩, ⟨47, 0, .ro, 0⟩]⟩,
  ⟨0x1800700020, [], 64, [⟨63, 62, .rsv, 0⟩, ⟨61, 32, .ro, 0⟩, ⟨31, 0, .ro, 0⟩]⟩,
  ⟨0x1800700028, [], 64, [⟨63, 0, .ro, 0⟩]⟩,
  ⟨0x1800700030, [], 64, [⟨63, 0, .ro, 0⟩]⟩]
/-- Register lines of the TMB block. -/
def regLinesTmbB : List RegLine := [
  ⟨0x1800700040, [(0x8, 8)], 64, [⟨63, 33, .rsv, 0⟩, ⟨32, 0, .ro, 0⟩]⟩,
  ⟨0x1800700080, [], 64, [⟨63, 48, .rsv, 0⟩, ⟨47, 0, .rw, 0x745d1745d1⟩]⟩,
  ⟨0x1800700088, [], 64, [⟨63, 48, .rsv, 0⟩, ⟨47, 0, .ro, 0x745d1745d1⟩]⟩,
  ⟨0x1800700090, [], 64, [⟨63, 48, .rsv, 0⟩, ⟨47, 0, .wo, 0⟩]⟩,
  ⟨0x18007000a4, [], 32, [⟨31, 20, .rsv, 0⟩, ⟨19, 0, .rw, 0x30d40⟩]⟩,
  ⟨0x18007000a8, [], 32, [⟨31, 16, .rsv, 0⟩, ⟨15, 0, .rw, 1000⟩]⟩,
  ⟨0x18007000b0, [], 64, [⟨63, 48, .rsv, 0⟩, ⟨47, 0, .wo, 0⟩]⟩,
  ⟨0x18007000b8, [], 64, [⟨63, 48, .rsv, 0⟩, ⟨47, 0, .rw, 0x12d53d93⟩]⟩]
/-- Register lines of the TMB block. -/
def regLinesTmbC : List RegLine := [
  ⟨0x1800700100, [(0x10, 8)], 32, [⟨31, 5, .rsv, 0⟩, ⟨4, 4, .rw, 0⟩, ⟨3, 3, .rw, 0⟩, ⟨2, 1, .rw, 0⟩, ⟨0, 0, .rw, 0⟩]⟩,
  ⟨0x1800700108, [(0x10, 8)], 64, [⟨63, 33, .rsv, 0⟩, ⟨32, 0, .rw, 0⟩]⟩,
  ⟨0x1800700184, [], 32, [⟨31, 16, .rsv, 0⟩, ⟨15, 8, .rw, 100⟩, ⟨7, 1, .rsv, 0⟩, ⟨0, 0, .rw, 0⟩]⟩,
  ⟨0x1800700180, [], 32, [⟨31, 2, .rsv, 0⟩, ⟨1, 0, .rw, 0⟩]⟩,
  ⟨0x1800700098, [], 32, [⟨31, 22, .rsv, 0⟩, ⟨21, 16, .rw, 47⟩, ⟨15, 0, .rw, 0xacb6⟩]⟩,
  ⟨0x180070009c, [], 32, [⟨31, 22, .rsv, 0⟩, ⟨21, 16, .rw, 53⟩, ⟨15, 0, .rw, 0xacb6⟩]⟩,
  ⟨0x18007000a0, [], 32, [⟨31, 22, .rsv, 0⟩, ⟨21, 16, .rw, 6⟩, ⟨15, 0, .rw, 1⟩]⟩,
  ⟨0x180070000c, [], 32, [⟨31, 5, .rsv, 0⟩, ⟨4, 4, .rw, 0⟩, ⟨3, 3, .rw, 0⟩, ⟨2, 2, .rw, 0⟩, ⟨1, 1, .rw, 0⟩, ⟨0, 0, .rw, 0⟩]⟩]
/-- Register lines of the ORR block. -/
def regLinesOrrA : List RegLine := [
  ⟨0x1800800800, [(0x8, 64)], 64, [⟨63, 29, .rsv, 0⟩, ⟨28, 28, .rw, 0⟩, ⟨27, 24, .rw, 4⟩, ⟨23, 6, .rw, 0⟩, ⟨5, 3, .rsv, 0⟩, ⟨2, 0, .rw, 0⟩]⟩,
  ⟨0x1800801000, [(0x10, 1024)], 128, [⟨127, 91, .rsv, 0⟩, ⟨90, 88, .rw, 0⟩, ⟨87, 64, .rw, 0⟩, ⟨63, 62, .rw, 0⟩, ⟨61, 56, .rw, 0⟩, ⟨55, 50, .rw, 0⟩, ⟨49, 45, .rw, 0⟩, ⟨44, 0, .rsv, 0⟩]⟩,
  ⟨0x1800805000, [(0x8, 256)], 64, [⟨63, 0, .rw, 0⟩]⟩,
  ⟨0x1800805800, [(0x20, 256)], 256, [⟨255, 152, .rsv, 0⟩, ⟨151, 144, .rw, 0⟩, ⟨143, 128, .rw, 0⟩, ⟨127, 64, .rw, 0⟩, ⟨63, 0, .rw, 0⟩]⟩,
  ⟨0x1800800000, [(0x40, 8)], 32, [⟨31, 5, .rsv, 0⟩, ⟨4, 4, .rw, 0⟩, ⟨3, 1, .rw, 0⟩, ⟨0, 0, .rw, 0⟩]⟩,
  ⟨0x1800800004, [(0x40, 8)], 32, [⟨31, 15, .rsv, 0⟩, ⟨14, 12, .ro, 0⟩, ⟨11, 11, .ro, 0⟩, ⟨10, 0, .ro, 0⟩]⟩,
  ⟨0x1800800008, [(0x40, 8)], 32, [⟨31, 2, .rsv, 0⟩, ⟨1, 0, .rw, 0⟩]⟩,
  ⟨0x1800800010, [(0x40, 8), (0x8, 4)], 64, [⟨63, 33, .rsv, 0⟩, ⟨32, 0, .ro, 0⟩]⟩]
/-- Register lines of the ORR block. -/
def regLinesOrrB : List RegLine := [
  ⟨0x1800800400, [], 64, [⟨63, 40, .rsv, 0⟩, ⟨39, 32, .w1c, 0⟩, ⟨31, 24, .w1c, 0⟩, ⟨23, 16, .w1c, 0⟩, ⟨15, 8, .w1c, 0⟩, ⟨7, 0, .w1c, 0⟩]⟩,
  ⟨0x1800800420, [], 32, [⟨31, 16, .rw, 0x1000⟩, ⟨15, 8, .rw, 0⟩, ⟨7, 2, .rsv, 0⟩, ⟨1, 0, .rw, 0⟩]⟩,
  ⟨0x1800800424, [], 32, [⟨31, 3, .rsv, 0⟩, ⟨2, 2, .w1c, 0⟩, ⟨1, 1, .w1c, 0⟩, ⟨0, 0, .w1c, 0⟩]⟩,
  ⟨0x1800800408, [], 64, [⟨63, 40, .rsv, 0⟩, ⟨39, 32, .rw, 0⟩, ⟨31, 24, .rw, 0⟩, ⟨23, 16, .rw, 0⟩, ⟨15, 8, .rw, 0⟩, ⟨7, 0, .rw, 0⟩]⟩,
  ⟨0x1800800410, [], 32, [⟨31, 0, .w1c, 0⟩]⟩,
  ⟨0x1800810000, [(0x8000, 8), (0x4000, 2), (0x8, 2048)], 64, [⟨63, 0, .rw, 0⟩]⟩]
/-- Register lines of the TIL block. -/
def regLinesTilA : List RegLine := [
  ⟨0x1804000000, [(0x10000, 64)], 32, [⟨31, 2, .rsv, 0⟩, ⟨1, 1, .rw, 0⟩, ⟨0, 0, .rw, 0⟩]⟩,
  ⟨0x1804000004, [(0x10000, 64)], 32, [⟨31, 20, .rsv, 0⟩, ⟨19, 3, .ro, 0⟩, ⟨2, 0, .ro, 0⟩]⟩,
  ⟨0x1804000008, [(0x10000, 64)], 32, [⟨31, 17, .rsv, 0⟩, ⟨16, 0, .rw, 0⟩]⟩,
  ⟨0x180400000c, [(0x10000, 64)], 32, [⟨31, 17, .rsv, 0⟩, ⟨16, 0, .rw, 0⟩]⟩,
  ⟨0x1804000010, [(0x10000, 64)], 32, [⟨31, 0, .w1c, 0⟩]⟩,
  ⟨0x1804000014, [(0x10000, 64)], 32, [⟨31, 0, .w1s, 0⟩]⟩,
  ⟨0x1804000020, [(0x10000, 64)], 32, [⟨31, 5, .rsv, 0⟩, ⟨4, 4, .w1c, 0⟩, ⟨3, 3, .w1c, 0⟩, ⟨2, 2, .w1c, 0⟩, ⟨1, 1, .w1c, 0⟩, ⟨0, 0, .w1c, 0⟩]⟩,
  ⟨0x1804000028, [(0x10000, 64)], 32, [⟨31, 21, .rsv, 0⟩, ⟨20, 0, .ro, 0⟩]⟩]
/-- Register lines of the TIL block. -/
def regLinesTilB : List RegLine := [
  ⟨0x1804000100, [(0x10000, 64)], 32, [⟨31, 21, .rsv, 0⟩, ⟨20, 14, .rw, 0⟩, ⟨13, 0, .rsv, 0⟩]⟩,
  ⟨0x1804000140, [(0x10000, 64), (0x4, 8)], 32, [⟨31, 0, .rw, 0⟩]⟩,
  ⟨0x1804000180, [(0x10000, 64)], 32, [⟨31, 16, .ro, 0xffff⟩, ⟨15, 11, .rsv, 0⟩, ⟨10, 10, .ro, 0⟩, ⟨9, 9, .ro, 0⟩, ⟨8, 8, .ro, 0⟩, ⟨7, 0, .rsv, 0⟩]⟩,
  ⟨0x18040001c0, [(0x10000, 64)], 32, [⟨31, 24, .rsv, 0⟩, ⟨23, 21, .rw, 0⟩, ⟨20, 6, .rw, 0⟩, ⟨5, 0, .rsv, 0⟩]⟩,
  ⟨0x18040001c4, [(0x10000, 64)], 32, [⟨31, 8, .rsv, 0⟩, ⟨7, 7, .w1c, 0⟩, ⟨6, 0, .ro, 0⟩]⟩,
  ⟨0x1804000024, [(0x10000, 64)], 32, [⟨31, 5, .rsv, 0⟩, ⟨4, 4, .rw, 0⟩, ⟨3, 3, .rw, 0⟩, ⟨2, 2, .rw, 0⟩, ⟨1, 1, .rw, 0⟩, ⟨0, 0, .rw, 0⟩]⟩]
/-- Register lines of the MEMC block. -/
def regLinesMemc : List RegLine := [
  ⟨0x1800b00000, [], 64, [⟨63, 0, .rw, 0x8448448484484484⟩]⟩,
  ⟨0x1800b00010, [], 64, [⟨63, 36, .rsv, 0⟩, ⟨35, 32, .rw, 4⟩, ⟨31, 16, .rw, 1024⟩, ⟨15, 0, .rw, 0x1e00⟩]⟩,
  ⟨0x1800b00040, [], 32, [⟨31, 2, .rsv, 0⟩, ⟨1, 1, .w1c, 0⟩, ⟨0, 0, .w1c, 0⟩]⟩,
  ⟨0x1800b00048, [], 64, [⟨63, 40, .rsv, 0⟩, ⟨39, 0, .ro, 0⟩]⟩,
  ⟨0x1800b00018, [], 64, [⟨63, 36, .rsv, 0⟩, ⟨35, 32, .rw, 4⟩, ⟨31, 16, .rw, 1024⟩, ⟨15, 0, .rw, 0x1e00⟩]⟩,
  ⟨0x1800b00044, [], 32, [⟨31, 2, .rsv, 0⟩, ⟨1, 1, .rw, 0⟩, ⟨0, 0, .rw, 0⟩]⟩]
/-- Register lines of the DMA block. -/
def regLinesDmaA : List RegLine := [
  ⟨0x1800a00000, [(0x10000, 8), (0x40, 32)], 64, [⟨63, 29, .rsv, 0⟩, ⟨28, 28, .rw, 0⟩, ⟨27, 24, .rw, 4⟩, ⟨23, 6, .rw, 0⟩, ⟨5, 0, .rsv, 0⟩]⟩,
  ⟨0x1800a00008, [(0x10000, 8), (0x40, 32)], 32, [⟨31, 24, .rw, 0⟩, ⟨23, 18, .rsv, 0⟩, ⟨17, 16, .rw, 0⟩, ⟨15, 6, .rsv, 0⟩, ⟨5, 0, .rw, 63⟩]⟩,
  ⟨0x1800a0000c, [(0x10000, 8), (0x40, 32)], 32, [⟨31, 2, .rsv, 0⟩, ⟨1, 1, .w1s, 0⟩, ⟨0, 0, .w1s, 0⟩]⟩,
  ⟨0x1800a00010, [(0x10000, 8), (0x40, 32)], 32, [⟨31, 15, .rsv, 0⟩, ⟨14, 8, .ro, 0⟩, ⟨7, 3, .rsv, 0⟩, ⟨2, 2, .ro, 0⟩, ⟨1, 1, .ro, 0⟩, ⟨0, 0, .ro, 0⟩]⟩,
  ⟨0x1800a00800, [(0x10000, 8), (0x8, 8)], 64, [⟨7, 7, .rw, 1⟩, ⟨15, 15, .rw, 1⟩, ⟨23, 23, .rw, 1⟩, ⟨31, 31, .rw, 1⟩, ⟨39, 39, .rw, 1⟩, ⟨47, 47, .rw, 1⟩, ⟨55, 55, .rw, 1⟩, ⟨63, 63, .rw, 1⟩, ⟨6, 5, .rsv, 0⟩, ⟨14, 13, .rsv, 0⟩, ⟨22, 21, .rsv, 0⟩, ⟨30, 29, .rsv, 0⟩, ⟨38, 37, .rsv, 0⟩, ⟨46, 45, .rsv, 0⟩, ⟨54, 53, .rsv, 0⟩, ⟨62, 61, .rsv, 0⟩, ⟨4, 0, .rw, 0⟩, ⟨12, 8, .rw, 0⟩, ⟨20, 16, .rw, 0⟩, ⟨28, 24, .rw, 0⟩, ⟨36, 32, .rw, 0⟩, ⟨44, 40, .rw, 0⟩, ⟨52, 48, .rw, 0⟩, ⟨60, 56, .rw, 0⟩]⟩,
  ⟨0x1800a00900, [(0x10000, 8)], 64, [⟨63, 32, .w1c, 0⟩, ⟨31, 0, .w1c, 0⟩]⟩,
  ⟨0x1800a00a00, [(0x10000, 8), (0x4, 32)], 32, [⟨31, 8, .rsv, 0⟩, ⟨7, 0, .w1c, 0⟩]⟩,
  ⟨0x1800a80000, [], 32, [⟨31, 16, .rsv, 0⟩, ⟨15, 0, .rw, 64⟩]⟩]
/-- Register lines of the DMA block. -/
def regLinesDmaB : List RegLine := [
  ⟨0x1800a80010, [], 128, [⟨127, 96, .rsv, 0⟩, ⟨95, 0, .rw, 0⟩]⟩,
  ⟨0x1800a00908, [(0x10000, 8)], 64, [⟨63, 32, .rw, 0⟩, ⟨31, 0, .rw, 0⟩]⟩,
  ⟨0x1800a80020, [], 128, [⟨127, 96, .rsv, 0⟩, ⟨95, 0, .rw, 0⟩]⟩]
/-- Register lines of the FH block. -/
def regLinesFhA : List RegLine := [
  ⟨0x1800c00000, [], 32, [⟨31, 11, .rsv, 0⟩, ⟨10, 10, .w1c, 0⟩, ⟨9, 9, .ro, 0⟩, ⟨8, 8, .w1c, 0⟩, ⟨7, 7, .w1c, 0⟩, ⟨6, 6, .w1c, 0⟩, ⟨5, 5, .w1c, 0⟩, ⟨4, 4, .w1c, 0⟩, ⟨3, 3, .w1c, 0⟩, ⟨2, 2, .w1c, 0⟩, ⟨1, 1, .w1c, 0⟩, ⟨0, 0, .w1c, 0⟩]⟩,
  ⟨0x1800c00008, [], 32, [⟨31, 8, .rsv, 0⟩, ⟨7, 0, .ro, 0⟩]⟩,
  ⟨0x1800c10000, [(0x80, 256)], 64, [⟨63, 63, .rw, 0⟩, ⟨62, 62, .rw, 0⟩, ⟨61, 61, .rw, 0⟩, ⟨60, 57, .rw, 0⟩, ⟨56, 53, .rw, 0⟩, ⟨52, 50, .rw, 0⟩, ⟨49, 44, .rw, 0⟩, ⟨43, 37, .rw, 0⟩, ⟨36, 28, .rw, 273⟩, ⟨27, 20, .rsv, 0⟩, ⟨19, 16, .rw, 0⟩, ⟨15, 0, .rw, 0⟩]⟩,
  ⟨0x1800c10008, [(0x80, 256)], 64, [⟨63, 32, .rw, 0⟩, ⟨31, 0, .rw, 0⟩]⟩,
  ⟨0x1800c10010, [(0x80, 256)], 64, [⟨63, 46, .rsv, 0⟩, ⟨45, 32, .rw, 0x3fff⟩, ⟨31, 25, .rsv, 0⟩, ⟨24, 16, .rw, 0⟩, ⟨15, 9, .rsv, 0⟩, ⟨8, 0, .rw, 0⟩]⟩,
  ⟨0x1800c10018, [(0x80, 256)], 32, [⟨31, 28, .rw, 0⟩, ⟨27, 24, .rw, 0⟩, ⟨23, 20, .rw, 0⟩, ⟨19, 18, .rw, 0⟩, ⟨17, 17, .rw, 0⟩, ⟨16, 16, .rw, 0⟩, ⟨15, 0, .rsv, 0⟩]⟩,
  ⟨0x1800c10020, [(0x80, 256)], 64, [⟨63, 63, .rsv, 0⟩, ⟨62, 42, .rw, 0⟩, ⟨41, 21, .rw, 0⟩, ⟨20, 0, .rw, 0⟩]⟩,
  ⟨0x1800c10028, [(0x80, 256)], 128, [⟨127, 112, .rw, 0x1000⟩, ⟨111, 96, .rw, 0⟩, ⟨95, 80, .rw, 0⟩, ⟨79, 64, .rsv, 0⟩, ⟨63, 48, .rw, 0x4000⟩, ⟨47, 32, .rw, 0⟩, ⟨31, 16, .rw, 0⟩, ⟨15, 0, .rw, 0x4000⟩]⟩]
/-- Register lines of the FH block. -/
def regLinesFhB : List RegLine := [
  ⟨0x1800c10038, [(0x80, 256)], 128, [⟨127, 80, .ro, 0⟩, ⟨79, 48, .ro, 0⟩, ⟨47, 16, .ro, 0⟩, ⟨15, 0, .ro, 0⟩]⟩,
  ⟨0x1800c10048, [(0x80, 256)], 128, [⟨127, 96, .rw, 0⟩, ⟨95, 64, .rw, 0⟩, ⟨63, 32, .rw, 0⟩, ⟨31, 0, .rw, 0⟩]⟩,
  ⟨0x1800c10058, [(0x80, 256)], 32, [⟨31, 17, .rsv, 0⟩, ⟨16, 16, .rw, 0⟩, ⟨15, 0, .rw, 0⟩]⟩,
  ⟨0x1800c20000, [(0x20, 64)], 64, [⟨63, 63, .rw, 0⟩, ⟨62, 62, .rw, 0⟩, ⟨61, 56, .rw, 0⟩, ⟨55, 51, .rw, 0⟩, ⟨50, 44, .rw, 0⟩, ⟨43, 35, .rw, 273⟩, ⟨34, 28, .rw, 0⟩, ⟨27, 24, .rw, 2⟩, ⟨23, 6, .rw, 0⟩, ⟨5, 3, .rsv, 0⟩, ⟨2, 0, .rw, 0⟩]⟩,
  ⟨0x1800c20008, [(0x20, 64)], 32, [⟨31, 16, .rsv, 0⟩, ⟨15, 8, .ro, 0⟩, ⟨7, 3, .rsv, 0⟩, ⟨2, 0, .ro, 0⟩]⟩,
  ⟨0x1800c00004, [], 32, [⟨31, 11, .rsv, 0⟩, ⟨10, 10, .rw, 0⟩, ⟨9, 9, .rw, 0⟩, ⟨8, 8, .rw, 0⟩, ⟨7, 7, .rw, 0⟩, ⟨6, 6, .rw, 0⟩, ⟨5, 5, .rw, 0⟩, ⟨4, 4, .rw, 0⟩, ⟨3, 3, .rw, 0⟩, ⟨2, 2, .rw, 0⟩, ⟨1, 1, .rw, 0⟩, ⟨0, 0, .rw, 0⟩]⟩,
  ⟨0x1800c00010, [], 64, [⟨63, 0, .w1c, 0⟩]⟩,
  ⟨0x1800c00018, [], 64, [⟨63, 0, .rw, 0⟩]⟩]
/-- Register lines of the FH block. -/
def regLinesFhC : List RegLine := [
  ⟨0x1800c30000, [(0x200, 16), (0x4, 128)], 32, [⟨31, 16, .rw, 0⟩, ⟨15, 0, .rw, 0⟩]⟩]
/-- Register lines of the DFE block. -/
def regLinesDfeA : List RegLine := [
  ⟨0x1800f00000, [(0x40, 64)], 64, [⟨63, 63, .rw, 0⟩, ⟨62, 56, .rsv, 0⟩, ⟨55, 50, .rw, 0⟩, ⟨49, 48, .rsv, 0⟩, ⟨47, 45, .rw, 0⟩, ⟨44, 42, .rw, 0⟩, ⟨41, 41, .rw, 0⟩, ⟨40, 32, .rsv, 0⟩, ⟨31, 0, .rw, 0⟩]⟩,
  ⟨0x1800f00008, [(0x40, 64)], 64, [⟨63, 56, .rw, 48⟩, ⟨55, 52, .rw, 0⟩, ⟨51, 44, .rw, 0⟩, ⟨43, 40, .rw, 0⟩, ⟨39, 36, .rw, 8⟩, ⟨35, 30, .rw, 0⟩, ⟨29, 24, .rw, 63⟩, ⟨23, 20, .rw, 0⟩, ⟨19, 18, .rw, 0⟩, ⟨17, 8, .rw, 0⟩, ⟨7, 0, .rsv, 0⟩]⟩,
  ⟨0x1800f00010, [(0x40, 64)], 32, [⟨31, 24, .rsv, 0⟩, ⟨23, 16, .ro, 0⟩, ⟨15, 10, .rsv, 0⟩, ⟨9, 9, .ro, 0⟩, ⟨8, 8, .ro, 0⟩, ⟨7, 6, .rsv, 0⟩, ⟨5, 0, .ro, 0⟩]⟩,
  ⟨0x1800f00018, [(0x40, 64)], 128, [⟨127, 96, .ro, 0⟩, ⟨95, 64, .rsv, 0⟩, ⟨63, 0, .ro, 0⟩]⟩,
  ⟨0x1800f10000, [(0x40, 64)], 64, [⟨63, 63, .rw, 0⟩, ⟨62, 62, .rw, 0⟩, ⟨61, 56, .rw, 0⟩, ⟨55, 53, .rw, 0⟩, ⟨52, 50, .rw, 0⟩, ⟨49, 49, .rw, 0⟩, ⟨48, 48, .ro, 0⟩, ⟨47, 32, .rw, 0⟩, ⟨31, 0, .rw, 0⟩]⟩,
  ⟨0x1800f30000, [], 32, [⟨31, 4, .rsv, 0⟩, ⟨3, 3, .w1c, 0⟩, ⟨2, 2, .w1c, 0⟩, ⟨1, 1, .w1c, 0⟩, ⟨0, 0, .w1c, 0⟩]⟩,
  ⟨0x1800f00028, [(0x40, 64)], 32, [⟨31, 0, .rw, 0⟩]⟩,
  ⟨0x1800f10020, [(0x40, 64)], 32, [⟨31, 0, .rw, 0⟩]⟩]
/-- Register lines of the DFE block. -/
def regLinesDfeB : List RegLine := [
  ⟨0x1800f20000, [(0x200, 64), (0x100, 2), (0x4, 64)], 32, [⟨31, 16, .rw, 0⟩, ⟨15, 0, .rw, 0⟩]⟩,
  ⟨0x1800f30004, [], 32, [⟨31, 4, .rsv, 0⟩, ⟨3, 3, .rw, 0⟩, ⟨2, 2, .rw, 0⟩, ⟨1, 1, .rw, 0⟩, ⟨0, 0, .rw, 0⟩]⟩]
/-- Register lines of the JES block. -/
def regLinesJesA : List RegLine := [
  ⟨0x1800e00000, [(0x10, 8)], 64, [⟨63, 63, .rw, 0⟩, ⟨62, 56, .rsv, 0⟩, ⟨55, 48, .rw, 0⟩, ⟨47, 44, .rw, 0⟩, ⟨43, 38, .rw, 0⟩, ⟨37, 32, .rw, 0⟩, ⟨31, 30, .rw, 0⟩, ⟨29, 29, .rw, 0⟩, ⟨28, 24, .rw, 0⟩, ⟨23, 16, .rw, 0⟩, ⟨15, 0, .rsv, 0⟩]⟩,
  ⟨0x1800e00200, [(0x8, 6)], 64, [⟨7, 6, .rsv, 0⟩, ⟨15, 14, .rsv, 0⟩, ⟨23, 22, .rsv, 0⟩, ⟨31, 30, .rsv, 0⟩, ⟨39, 38, .rsv, 0⟩, ⟨47, 46, .rsv, 0⟩, ⟨55, 54, .rsv, 0⟩, ⟨63, 62, .rsv, 0⟩, ⟨5, 0, .rw, 0⟩, ⟨13, 8, .rw, 0⟩, ⟨21, 16, .rw, 0⟩, ⟨29, 24, .rw, 0⟩, ⟨37, 32, .rw, 0⟩, ⟨45, 40, .rw, 0⟩, ⟨53, 48, .rw, 0⟩, ⟨61, 56, .rw, 0⟩]⟩,
  ⟨0x1800e00280, [], 32, [⟨31, 16, .rw, 0⟩, ⟨15, 2, .rsv, 0⟩, ⟨1, 0, .rw, 0⟩]⟩,
  ⟨0x1800e00288, [], 64, [⟨63, 32, .ro, 0⟩, ⟨31, 2, .ro, 0⟩, ⟨1, 0, .ro, 0⟩]⟩,
  ⟨0x1800e00300, [(0x10, 8)], 32, [⟨31, 16, .ro, 0⟩, ⟨15, 0, .rw, 64⟩]⟩,
  ⟨0x1800e00308, [(0x10, 8)], 32, [⟨31, 0, .rw, 0⟩]⟩,
  ⟨0x1800e00390, [], 64, [⟨63, 48, .w1c, 0⟩, ⟨47, 40, .w1c, 0⟩, ⟨39, 32, .w1c, 0⟩, ⟨31, 24, .w1c, 0⟩, ⟨23, 2, .rsv, 0⟩, ⟨1, 1, .w1c, 0⟩, ⟨0, 0, .w1c, 0⟩]⟩,
  ⟨0x1800e00100, [(0x10, 8)], 64, [⟨63, 63, .rw, 0⟩, ⟨62, 56, .rsv, 0⟩, ⟨55, 48, .rw, 0⟩, ⟨47, 44, .rw, 0⟩, ⟨43, 38, .rw, 0⟩, ⟨37, 32, .rw, 0⟩, ⟨31, 30, .rw, 0⟩, ⟨29, 29, .rw, 0⟩, ⟨28, 24, .rw, 0⟩, ⟨23, 16, .rw, 0⟩, ⟨15, 0, .rsv, 0⟩]⟩]
/-- Register lines of the JES block. -/
def regLinesJesB : List RegLine := [
  ⟨0x1800e00240, [(0x8, 6)], 64, [⟨7, 6, .rsv, 0⟩, ⟨15, 14, .rsv, 0⟩, ⟨23, 22, .rsv, 0⟩, ⟨31, 30, .rsv, 0⟩, ⟨39, 38, .rsv, 0⟩, ⟨47, 46, .rsv, 0⟩, ⟨55, 54, .rsv, 0⟩, ⟨63, 62, .rsv, 0⟩, ⟨5, 0, .rw, 0⟩, ⟨13, 8, .rw, 0⟩, ⟨21, 16, .rw, 0⟩, ⟨29, 24, .rw, 0⟩, ⟨37, 32, .rw, 0⟩, ⟨45, 40, .rw, 0⟩, ⟨53, 48, .rw, 0⟩, ⟨61, 56, .rw, 0⟩]⟩,
  ⟨0x1800e00398, [], 64, [⟨63, 48, .rw, 0⟩, ⟨47, 40, .rw, 0⟩, ⟨39, 32, .rw, 0⟩, ⟨31, 24, .rw, 0⟩, ⟨23, 2, .rsv, 0⟩, ⟨1, 1, .rw, 0⟩, ⟨0, 0, .rw, 0⟩]⟩]
/-- Register lines of the EQ block. -/
def regLinesEq : List RegLine := [
  ⟨0x1801100000, [(0x40, 8)], 32, [⟨31, 4, .rsv, 0⟩, ⟨3, 3, .w1s, 0⟩, ⟨2, 2, .w1s, 0⟩, ⟨1, 1, .rw, 0⟩, ⟨0, 0, .rw, 0⟩]⟩,
  ⟨0x1801100008, [(0x40, 8)], 64, [⟨63, 29, .rsv, 0⟩, ⟨28, 28, .rw, 0⟩, ⟨27, 24, .rw, 4⟩, ⟨23, 6, .rw, 0⟩, ⟨5, 3, .rsv, 0⟩, ⟨2, 0, .rw, 0⟩]⟩,
  ⟨0x1801100010, [(0x40, 8)], 32, [⟨31, 20, .rsv, 0⟩, ⟨19, 16, .ro, 0⟩, ⟨15, 2, .rsv, 0⟩, ⟨1, 0, .ro, 0⟩]⟩,
  ⟨0x1801100800, [], 32, [⟨31, 16, .rsv, 0⟩, ⟨15, 8, .w1c, 0⟩, ⟨7, 0, .w1c, 0⟩]⟩,
  ⟨0x1801100804, [], 32, [⟨31, 16, .rsv, 0⟩, ⟨15, 8, .rw, 0⟩, ⟨7, 0, .rw, 0⟩]⟩]
/-- Register lines of the LDPC block. -/
def regLinesLdpcA : List RegLine := [
  ⟨0x1801200000, [(0x40, 6)], 32, [⟨31, 4, .rsv, 0⟩, ⟨3, 3, .w1s, 0⟩, ⟨2, 2, .w1s, 0⟩, ⟨1, 1, .rw, 0⟩, ⟨0, 0, .rw, 0⟩]⟩,
  ⟨0x1801200400, [(0x40, 4)], 32, [⟨31, 4, .rsv, 0⟩, ⟨3, 3, .w1s, 0⟩, ⟨2, 2, .w1s, 0⟩, ⟨1, 1, .rw, 0⟩, ⟨0, 0, .rw, 0⟩]⟩,
  ⟨0x1801200008, [(0x40, 6)], 64, [⟨63, 29, .rsv, 0⟩, ⟨28, 28, .rw, 0⟩, ⟨27, 24, .rw, 4⟩, ⟨23, 6, .rw, 0⟩, ⟨5, 3, .rsv, 0⟩, ⟨2, 0, .rw, 0⟩]⟩,
  ⟨0x1801200408, [(0x40, 4)], 64, [⟨63, 29, .rsv, 0⟩, ⟨28, 28, .rw, 0⟩, ⟨27, 24, .rw, 4⟩, ⟨23, 6, .rw, 0⟩, ⟨5, 3, .rsv, 0⟩, ⟨2, 0, .rw, 0⟩]⟩,
  ⟨0x1801200010, [(0x40, 6)], 32, [⟨31, 20, .rsv, 0⟩, ⟨19, 16, .ro, 0⟩, ⟨15, 2, .rsv, 0⟩, ⟨1, 0, .ro, 0⟩]⟩,
  ⟨0x1801200410, [(0x40, 4)], 32, [⟨31, 20, .rsv, 0⟩, ⟨19, 16, .ro, 0⟩, ⟨15, 2, .rsv, 0⟩, ⟨1, 0, .ro, 0⟩]⟩,
  ⟨0x1801200800, [], 64, [⟨63, 38, .rsv, 0⟩, ⟨37, 32, .w1c, 0⟩, ⟨31, 28, .rsv, 0⟩, ⟨27, 24, .w1c, 0⟩, ⟨23, 22, .rsv, 0⟩, ⟨21, 16, .w1c, 0⟩, ⟨15, 12, .rsv, 0⟩, ⟨11, 8, .w1c, 0⟩, ⟨7, 6, .rsv, 0⟩, ⟨5, 0, .w1c, 0⟩]⟩,
  ⟨0x1801200810, [], 64, [⟨63, 43, .rsv, 0⟩, ⟨42, 40, .ro, 0⟩, ⟨39, 35, .rsv, 0⟩, ⟨34, 32, .ro, 0⟩, ⟨31, 0, .ro, 0⟩]⟩]
/-- Register lines of the LDPC block. -/
def regLinesLdpcB : List RegLine := [
  ⟨0x1801200818, [], 32, [⟨31, 16, .rsv, 0⟩, ⟨15, 8, .rw, 2⟩, ⟨7, 0, .rw, 104⟩]⟩,
  ⟨0x180120081c, [], 32, [⟨31, 16, .rsv, 0⟩, ⟨15, 0, .rw, 64⟩]⟩,
  ⟨0x1801200808, [], 64, [⟨63, 38, .rsv, 0⟩, ⟨37, 32, .rw, 0⟩, ⟨31, 28, .rsv, 0⟩, ⟨27, 24, .rw, 0⟩, ⟨23, 22, .rsv, 0⟩, ⟨21, 16, .rw, 0⟩, ⟨15, 12, .rsv, 0⟩, ⟨11, 8, .rw, 0⟩, ⟨7, 6, .rsv, 0⟩, ⟨5, 0, .rw, 0⟩]⟩]
/-- Register lines of the POL block. -/
def regLinesPol : List RegLine := [
  ⟨0x1801300000, [(0x40, 2)], 32, [⟨31, 4, .rsv, 0⟩, ⟨3, 3, .w1s, 0⟩, ⟨2, 2, .w1s, 0⟩, ⟨1, 1, .rw, 0⟩, ⟨0, 0, .rw, 0⟩]⟩,
  ⟨0x1801300008, [(0x40, 2)], 64, [⟨63, 29, .rsv, 0⟩, ⟨28, 28, .rw, 0⟩, ⟨27, 24, .rw, 4⟩, ⟨23, 6, .rw, 0⟩, ⟨5, 3, .rsv, 0⟩, ⟨2, 0, .rw, 0⟩]⟩,
  ⟨0x1801300010, [(0x40, 2)], 32, [⟨31, 20, .rsv, 0⟩, ⟨19, 16, .ro, 0⟩, ⟨15, 2, .rsv, 0⟩, ⟨1, 0, .ro, 0⟩]⟩,
  ⟨0x1801300800, [], 32, [⟨31, 10, .rsv, 0⟩, ⟨9, 8, .w1c, 0⟩, ⟨7, 2, .rsv, 0⟩, ⟨1, 0, .w1c, 0⟩]⟩,
  ⟨0x1801300804, [], 32, [⟨31, 10, .rsv, 0⟩, ⟨9, 8, .rw, 0⟩, ⟨7, 2, .rsv, 0⟩, ⟨1, 0, .rw, 0⟩]⟩]
/-- Register lines of the CTX block. -/
def regLinesCtxA : List RegLine := [
  ⟨0x1800940000, [], 32, [⟨31, 24, .rsv, 0⟩, ⟨23, 8, .rw, 2200⟩, ⟨7, 1, .rsv, 0⟩, ⟨0, 0, .rw, 0⟩]⟩,
  ⟨0x1800940004, [], 32, [⟨31, 4, .rsv, 0⟩, ⟨3, 3, .w1c, 0⟩, ⟨2, 2, .w1c, 0⟩, ⟨1, 1, .w1c, 0⟩, ⟨0, 0, .w1c, 0⟩]⟩,
  ⟨0x180094000c, [], 32, [⟨31, 7, .rsv, 0⟩, ⟨6, 0, .ro, 0⟩]⟩,
  ⟨0x1800940010, [], 32, [⟨31, 0, .rw, 0⟩]⟩,
  ⟨0x1800940100, [(0x8, 128)], 64, [⟨63, 32, .ro, 0⟩, ⟨31, 16, .rsv, 0⟩, ⟨15, 10, .ro, 0⟩, ⟨9, 5, .rsv, 0⟩, ⟨4, 4, .ro, 0⟩, ⟨3, 3, .ro, 0⟩, ⟨2, 0, .ro, 0⟩]⟩,
  ⟨0x1800900000, [], 32, [⟨31, 5, .rsv, 0⟩, ⟨4, 4, .w1c, 0⟩, ⟨3, 3, .w1c, 0⟩, ⟨2, 2, .w1c, 0⟩, ⟨1, 1, .w1c, 0⟩, ⟨0, 0, .w1c, 0⟩]⟩,
  ⟨0x1800900008, [], 64, [⟨63, 32, .ro, 0⟩, ⟨31, 8, .rsv, 0⟩, ⟨7, 0, .ro, 0⟩]⟩,
  ⟨0x1800900010, [], 64, [⟨63, 32, .ro, 0⟩, ⟨31, 24, .rsv, 0⟩, ⟨23, 16, .ro, 0⟩, ⟨15, 14, .rsv, 0⟩, ⟨13, 8, .ro, 0⟩, ⟨7, 4, .rsv, 0⟩, ⟨3, 0, .ro, 0⟩]⟩]
/-- Register lines of the CTX block. -/
def regLinesCtxB : List RegLine := [
  ⟨0x1800900018, [], 32, [⟨31, 16, .rsv, 0⟩, ⟨15, 0, .rw, 64⟩]⟩,
  ⟨0x1800900020, [], 64, [⟨63, 0, .rw, 0⟩]⟩,
  ⟨0x1800910000, [(0x20, 256)], 256, [⟨255, 200, .rsv, 0⟩, ⟨199, 176, .rw, 0⟩, ⟨175, 160, .rw, 0⟩, ⟨159, 128, .rw, 0⟩, ⟨127, 64, .rw, 0⟩, ⟨63, 40, .rw, 0⟩, ⟨39, 33, .rw, 0⟩, ⟨32, 26, .rw, 0⟩, ⟨25, 24, .rw, 0⟩, ⟨23, 9, .rsv, 0⟩, ⟨8, 8, .w1s, 0⟩, ⟨7, 7, .rw, 0⟩, ⟨6, 6, .rw, 0⟩, ⟨5, 4, .rsv, 0⟩, ⟨3, 3, .w1s, 0⟩, ⟨2, 2, .w1s, 0⟩, ⟨1, 1, .rsv, 0⟩, ⟨0, 0, .rw, 0⟩]⟩,
  ⟨0x1800920000, [(0x8, 256)], 64, [⟨63, 32, .ro, 0⟩, ⟨31, 11, .rsv, 0⟩, ⟨10, 8, .ro, 0⟩, ⟨7, 7, .ro, 0⟩, ⟨6, 6, .ro, 0⟩, ⟨5, 5, .ro, 0⟩, ⟨4, 4, .rsv, 0⟩, ⟨3, 0, .ro, 0⟩]⟩,
  ⟨0x1800930000, [(0x10, 64)], 128, [⟨127, 96, .rw, 0⟩, ⟨95, 64, .rw, 0⟩, ⟨63, 32, .rw, 0⟩, ⟨31, 0, .rw, 0⟩]⟩,
  ⟨0x1800940008, [], 32, [⟨31, 4, .rsv, 0⟩, ⟨3, 3, .rw, 0⟩, ⟨2, 2, .rw, 0⟩, ⟨1, 1, .rw, 0⟩, ⟨0, 0, .rw, 0⟩]⟩,
  ⟨0x1800940014, [], 32, [⟨31, 0, .rw, 0⟩]⟩,
  ⟨0x1800900004, [], 32, [⟨31, 5, .rsv, 0⟩, ⟨4, 4, .rw, 0⟩, ⟨3, 3, .rw, 0⟩, ⟨2, 2, .rw, 0⟩, ⟨1, 1, .rw, 0⟩, ⟨0, 0, .rw, 0⟩]⟩]
/-- Register lines of the OPT block. -/
def regLinesOptA : List RegLine := [
  ⟨0x1800d02000, [(0x20, 256)], 64, [⟨63, 63, .rw, 0⟩, ⟨62, 60, .rsv, 0⟩, ⟨59, 56, .rw, 0⟩, ⟨55, 52, .rw, 0⟩, ⟨51, 51, .rw, 0⟩, ⟨50, 50, .rw, 1⟩, ⟨49, 48, .rsv, 0⟩, ⟨47, 32, .rw, 0⟩, ⟨31, 24, .rw, 0⟩, ⟨23, 20, .rw, 0⟩, ⟨19, 16, .rsv, 0⟩, ⟨15, 0, .rw, 0⟩]⟩,
  ⟨0x1800d02010, [(0x20, 256)], 128, [⟨127, 80, .rw, 0⟩, ⟨79, 48, .rw, 0⟩, ⟨47, 47, .rw, 0⟩, ⟨46, 0, .rsv, 0⟩]⟩,
  ⟨0x1800d00000, [], 64, [⟨63, 32, .w1c, 0⟩, ⟨31, 5, .rsv, 0⟩, ⟨4, 4, .w1c, 0⟩, ⟨3, 3, .w1c, 0⟩, ⟨2, 2, .w1c, 0⟩, ⟨1, 1, .w1c, 0⟩, ⟨0, 0, .rsv, 0⟩]⟩,
  ⟨0x1800d00010, [], 64, [⟨63, 32, .ro, 0⟩, ⟨31, 0, .ro, 0⟩]⟩,
  ⟨0x1800d00018, [], 32, [⟨31, 0, .rw, 0⟩]⟩,
  ⟨0x1800d00020, [], 32, [⟨7, 0, .ro, 0⟩, ⟨15, 8, .ro, 0⟩, ⟨23, 16, .ro, 0⟩, ⟨31, 24, .ro, 0⟩]⟩,
  ⟨0x1800d00040, [(0x8, 3)], 64, [⟨63, 63, .rw, 0⟩, ⟨62, 59, .rw, 4⟩, ⟨58, 40, .rsv, 0⟩, ⟨39, 6, .rw, 0⟩, ⟨5, 0, .rsv, 0⟩]⟩,
  ⟨0x1800d00100, [(0x80, 32)], 64, [⟨63, 63, .rw, 0⟩, ⟨62, 62, .rw, 0⟩, ⟨61, 61, .rw, 0⟩, ⟨60, 58, .rw, 2⟩, ⟨57, 50, .rw, 0⟩, ⟨49, 48, .rsv, 0⟩, ⟨47, 0, .rw, 0⟩]⟩]
/-- Register lines of the OPT block. -/
def regLinesOptB : List RegLine := [
  ⟨0x1800d00108, [(0x80, 32)], 32, [⟨31, 4, .rsv, 0⟩, ⟨3, 3, .w1c, 0⟩, ⟨2, 2, .ro, 0⟩, ⟨1, 1, .ro, 0⟩, ⟨0, 0, .ro, 0⟩]⟩,
  ⟨0x1800d00110, [(0x80, 32)], 128, [⟨127, 96, .rw, 0⟩, ⟨95, 64, .rw, 0⟩, ⟨63, 32, .rw, 0⟩, ⟨31, 0, .rw, 0⟩]⟩,
  ⟨0x1800d00120, [(0x80, 32)], 32, [⟨31, 24, .rsv, 0⟩, ⟨23, 0, .rw, 0x1334⟩]⟩,
  ⟨0x1800d00008, [], 64, [⟨63, 32, .rw, 0⟩, ⟨31, 5, .rsv, 0⟩, ⟨4, 4, .rw, 0⟩, ⟨3, 3, .rw, 0⟩, ⟨2, 2, .rw, 0⟩, ⟨1, 1, .rw, 0⟩, ⟨0, 0, .rsv, 0⟩]⟩,
  ⟨0x1800d00140, [(0x80, 32), (0x8, 4)], 64, [⟨63, 63, .rw, 0⟩, ⟨62, 59, .rw, 4⟩, ⟨58, 40, .rsv, 0⟩, ⟨39, 6, .rw, 0⟩, ⟨5, 0, .rsv, 0⟩]⟩]
/-- Register lines of the ACX block. -/
def regLinesAcxA : List RegLine := [
  ⟨0x1801580000, [], 64, [⟨63, 48, .rsv, 0⟩, ⟨47, 20, .rw, 0⟩, ⟨19, 14, .rsv, 0⟩, ⟨13, 8, .rw, 20⟩, ⟨7, 1, .rsv, 0⟩, ⟨0, 0, .ro, 0⟩]⟩,
  ⟨0x1801550000, [], 32, [⟨31, 24, .ro, 0⟩, ⟨23, 16, .ro, 0⟩, ⟨15, 8, .ro, 0⟩, ⟨7, 0, .rw, 255⟩]⟩,
  ⟨0x1801550008, [], 64, [⟨63, 40, .rsv, 0⟩, ⟨39, 2, .rw, 0⟩, ⟨1, 0, .rsv, 0⟩]⟩,
  ⟨0x1801550010, [], 32, [⟨31, 3, .rsv, 0⟩, ⟨2, 2, .w1c, 0⟩, ⟨1, 1, .w1c, 0⟩, ⟨0, 0, .w1c, 0⟩]⟩,
  ⟨0x1801550018, [], 64, [⟨63, 60, .ro, 0⟩, ⟨59, 40, .rsv, 0⟩, ⟨39, 0, .ro, 0⟩]⟩,
  ⟨0x1801550014, [], 32, [⟨31, 3, .rsv, 0⟩, ⟨2, 2, .rw, 0⟩, ⟨1, 1, .rw, 0⟩, ⟨0, 0, .rw, 0⟩]⟩,
  ⟨0x1801500000, [(0x10000, 2), (0x4, 4160)], 32, [⟨31, 0, .rw, 0⟩]⟩,
  ⟨0x1801520000, [(0x4, 8)], 32, [⟨31, 1, .rsv, 0⟩, ⟨0, 0, .rw, 0⟩]⟩]
/-- Register lines of the ACX block. -/
def regLinesAcxB : List RegLine := [
  ⟨0x1801530000, [(0x8, 8)], 64, [⟨63, 0, .rw, 0⟩]⟩,
  ⟨0x1801537ff8, [], 64, [⟨63, 0, .ro, 0⟩]⟩,
  ⟨0x1801540000, [(0x4, 8)], 32, [⟨31, 1, .rsv, 0⟩, ⟨0, 0, .rw, 0⟩]⟩]
/-- Register lines of the APX block. -/
def regLinesApx : List RegLine := [
  ⟨0x1801400000, [], 64, [⟨63, 56, .rw, 0⟩, ⟨55, 48, .rsv, 0⟩, ⟨47, 32, .rw, 100⟩, ⟨31, 13, .rsv, 0⟩, ⟨12, 8, .rw, 0⟩, ⟨7, 7, .rsv, 0⟩, ⟨6, 4, .rw, 0⟩, ⟨3, 3, .rsv, 0⟩, ⟨2, 0, .rw, 0⟩]⟩,
  ⟨0x1801400008, [], 64, [⟨7, 7, .rw, 0⟩, ⟨15, 15, .rw, 0⟩, ⟨23, 23, .rw, 0⟩, ⟨31, 31, .rw, 0⟩, ⟨39, 39, .rw, 0⟩, ⟨47, 47, .rw, 0⟩, ⟨55, 55, .rw, 0⟩, ⟨63, 63, .rw, 0⟩, ⟨6, 5, .rsv, 0⟩, ⟨14, 13, .rsv, 0⟩, ⟨22, 21, .rsv, 0⟩, ⟨30, 29, .rsv, 0⟩, ⟨38, 37, .rsv, 0⟩, ⟨46, 45, .rsv, 0⟩, ⟨54, 53, .rsv, 0⟩, ⟨62, 61, .rsv, 0⟩, ⟨4, 0, .rw, 0⟩, ⟨12, 8, .rw, 0⟩, ⟨20, 16, .rw, 0⟩, ⟨28, 24, .rw, 0⟩, ⟨36, 32, .rw, 0⟩, ⟨44, 40, .rw, 0⟩, ⟨52, 48, .rw, 0⟩, ⟨60, 56, .rw, 0⟩]⟩,
  ⟨0x1801400010, [], 64, [⟨63, 48, .rsv, 0⟩, ⟨47, 0, .rw, 0⟩]⟩,
  ⟨0x1801400020, [], 64, [⟨63, 32, .w1c, 0⟩, ⟨31, 5, .rsv, 0⟩, ⟨4, 4, .w1c, 0⟩, ⟨3, 3, .w1c, 0⟩, ⟨2, 2, .w1c, 0⟩, ⟨1, 1, .w1c, 0⟩, ⟨0, 0, .w1c, 0⟩]⟩,
  ⟨0x1801400100, [(0x10, 32)], 32, [⟨31, 24, .rsv, 0⟩, ⟨23, 16, .rw, 20⟩, ⟨15, 8, .rw, 8⟩, ⟨7, 0, .rsv, 0⟩]⟩,
  ⟨0x1801400108, [(0x10, 32)], 64, [⟨63, 32, .ro, 0⟩, ⟨31, 20, .rsv, 0⟩, ⟨19, 10, .ro, 0⟩, ⟨9, 2, .rsv, 0⟩, ⟨1, 0, .ro, 0⟩]⟩,
  ⟨0x1801400400, [(0x8, 32)], 64, [⟨63, 32, .rw, 0⟩, ⟨31, 0, .rw, 0⟩]⟩,
  ⟨0x1801400028, [], 64, [⟨63, 32, .rw, 0⟩, ⟨31, 5, .rsv, 0⟩, ⟨4, 4, .rw, 0⟩, ⟨3, 3, .rw, 0⟩, ⟨2, 2, .rw, 0⟩, ⟨1, 1, .rw, 0⟩, ⟨0, 0, .rw, 0⟩]⟩]
/-- Register lines of the PWR block. -/
def regLinesPwrA : List RegLine := [
  ⟨0x1800280000, [], 32, [⟨31, 2, .rsv, 0⟩, ⟨1, 1, .rw, 1⟩, ⟨0, 0, .rw, 1⟩]⟩,
  ⟨0x1800280008, [], 32, [⟨31, 31, .w1s, 0⟩, ⟨30, 26, .rsv, 0⟩, ⟨25, 24, .rw, 0⟩, ⟨23, 20, .rw, 0⟩, ⟨19, 8, .rsv, 0⟩, ⟨7, 0, .rw, 0⟩]⟩,
  ⟨0x180028000c, [], 32, [⟨31, 18, .rsv, 0⟩, ⟨17, 17, .ro, 0⟩, ⟨16, 16, .ro, 0⟩, ⟨15, 14, .rsv, 0⟩, ⟨13, 12, .ro, 0⟩, ⟨11, 8, .ro, 0⟩, ⟨7, 0, .ro, 0⟩]⟩,
  ⟨0x1800280010, [], 32, [⟨31, 6, .rsv, 0⟩, ⟨5, 5, .w1c, 0⟩, ⟨4, 4, .w1c, 0⟩, ⟨3, 3, .w1c, 0⟩, ⟨2, 2, .w1c, 0⟩, ⟨1, 1, .w1c, 0⟩, ⟨0, 0, .w1c, 0⟩]⟩,
  ⟨0x1800280018, [], 64, [⟨3, 0, .ro, 0⟩, ⟨7, 4, .ro, 0⟩, ⟨11, 8, .ro, 0⟩, ⟨15, 12, .ro, 0⟩, ⟨19, 16, .ro, 0⟩, ⟨23, 20, .ro, 0⟩, ⟨27, 24, .ro, 0⟩, ⟨31, 28, .ro, 0⟩, ⟨35, 32, .ro, 0⟩, ⟨39, 36, .ro, 0⟩, ⟨43, 40, .ro, 0⟩, ⟨47, 44, .ro, 0⟩, ⟨51, 48, .ro, 0⟩, ⟨55, 52, .ro, 0⟩, ⟨59, 56, .ro, 0⟩, ⟨63, 60, .ro, 0⟩]⟩,
  ⟨0x1800280020, [], 32, [⟨31, 16, .rsv, 0⟩, ⟨15, 0, .rw, 24⟩]⟩,
  ⟨0x1800280040, [(0x4, 8)], 32, [⟨31, 16, .rw, 1000⟩, ⟨15, 0, .rw, 0⟩]⟩,
  ⟨0x1800280080, [], 32, [⟨31, 6, .rsv, 0⟩, ⟨5, 0, .ro, 0⟩]⟩]
/-- Register lines of the PWR block. -/
def regLinesPwrB : List RegLine := [
  ⟨0x1800280800, [(0x10, 64)], 128, [⟨127, 64, .ro, 0⟩, ⟨63, 60, .ro, 0⟩, ⟨59, 56, .ro, 0⟩, ⟨55, 48, .ro, 0⟩, ⟨47, 40, .rsv, 0⟩, ⟨39, 0, .ro, 0⟩]⟩,
  ⟨0x1800200000, [(0x8, 96)], 32, [⟨31, 24, .rsv, 0⟩, ⟨23, 12, .ro, 0⟩, ⟨11, 8, .ro, 0⟩, ⟨7, 4, .ro, 0⟩, ⟨3, 2, .ro, 0⟩, ⟨1, 1, .rsv, 0⟩, ⟨0, 0, .rw, 0⟩]⟩,
  ⟨0x1800200400, [], 64, [⟨63, 48, .ro, 0⟩, ⟨47, 32, .ro, 0⟩, ⟨31, 16, .ro, 0⟩, ⟨15, 4, .rsv, 0⟩, ⟨3, 3, .ro, 0⟩, ⟨2, 2, .ro, 0⟩, ⟨1, 1, .ro, 0⟩, ⟨0, 0, .ro, 0⟩]⟩,
  ⟨0x1800200410, [], 32, [⟨31, 12, .rsv, 0⟩, ⟨11, 11, .w1c, 0⟩, ⟨10, 10, .w1c, 0⟩, ⟨9, 9, .w1c, 0⟩, ⟨8, 8, .w1c, 0⟩, ⟨7, 7, .w1c, 0⟩, ⟨6, 6, .w1c, 0⟩, ⟨5, 5, .w1c, 0⟩, ⟨4, 4, .w1c, 0⟩, ⟨3, 3, .w1c, 0⟩, ⟨2, 2, .w1c, 0⟩, ⟨1, 1, .w1c, 0⟩, ⟨0, 0, .rsv, 0⟩]⟩,
  ⟨0x1800201000, [(0x10, 8)], 64, [⟨63, 63, .rw, 0⟩, ⟨62, 62, .ro, 0⟩, ⟨61, 48, .rsv, 0⟩, ⟨47, 32, .ro, 0⟩, ⟨31, 20, .rw, 330⟩, ⟨19, 8, .rw, 0⟩, ⟨7, 0, .rsv, 0⟩]⟩,
  ⟨0x1800202000, [], 32, [⟨31, 24, .rsv, 0⟩, ⟨23, 16, .rw, 0⟩, ⟨15, 8, .rw, 0⟩, ⟨7, 1, .rsv, 0⟩, ⟨0, 0, .rw, 1⟩]⟩,
  ⟨0x1800202004, [], 32, [⟨31, 16, .ro, 0⟩, ⟨15, 10, .rsv, 0⟩, ⟨9, 5, .ro, 0⟩, ⟨4, 2, .rsv, 0⟩, ⟨1, 0, .ro, 0⟩]⟩,
  ⟨0x1800202008, [], 64, [⟨63, 32, .ro, 0⟩, ⟨31, 16, .rsv, 0⟩, ⟨15, 0, .ro, 0⟩]⟩]
/-- Register lines of the PWR block. -/
def regLinesPwrC : List RegLine := [
  ⟨0x1800203000, [], 32, [⟨31, 6, .rsv, 0⟩, ⟨5, 1, .w1s, 0⟩, ⟨0, 0, .rsv, 0⟩]⟩,
  ⟨0x1800280014, [], 32, [⟨31, 6, .rsv, 0⟩, ⟨5, 5, .rw, 0⟩, ⟨4, 4, .rw, 0⟩, ⟨3, 3, .rw, 0⟩, ⟨2, 2, .rw, 0⟩, ⟨1, 1, .rw, 0⟩, ⟨0, 0, .rw, 0⟩]⟩,
  ⟨0x1800281000, [(0x100, 16), (0x4, 32)], 32, [⟨7, 7, .ro, 0⟩, ⟨15, 15, .ro, 0⟩, ⟨23, 23, .ro, 0⟩, ⟨31, 31, .ro, 0⟩, ⟨6, 0, .ro, 0⟩, ⟨14, 8, .ro, 0⟩, ⟨22, 16, .ro, 0⟩, ⟨30, 24, .ro, 0⟩]⟩,
  ⟨0x1800200414, [], 32, [⟨31, 12, .rsv, 0⟩, ⟨11, 11, .rw, 0⟩, ⟨10, 10, .rw, 0⟩, ⟨9, 9, .rw, 0⟩, ⟨8, 8, .rw, 0⟩, ⟨7, 7, .rw, 0⟩, ⟨6, 6, .rw, 0⟩, ⟨5, 5, .rw, 0⟩, ⟨4, 4, .rw, 0⟩, ⟨3, 3, .rw, 0⟩, ⟨2, 2, .rw, 0⟩, ⟨1, 1, .rw, 0⟩, ⟨0, 0, .rsv, 0⟩]⟩]
/-- Register lines of the CLK block. -/
def regLinesClk : List RegLine := [
  ⟨0x1800300000, [], 32, [⟨31, 12, .rsv, 0⟩, ⟨11, 8, .rw, 0⟩, ⟨7, 6, .rw, 0⟩, ⟨5, 3, .rsv, 0⟩, ⟨2, 1, .rw, 3⟩, ⟨0, 0, .rsv, 0⟩]⟩,
  ⟨0x1800300004, [], 32, [⟨31, 5, .rsv, 0⟩, ⟨4, 4, .ro, 0⟩, ⟨3, 3, .ro, 0⟩, ⟨2, 2, .ro, 0⟩, ⟨1, 1, .ro, 0⟩, ⟨0, 0, .ro, 0⟩]⟩,
  ⟨0x1800300010, [], 32, [⟨31, 3, .rsv, 0⟩, ⟨2, 2, .w1c, 0⟩, ⟨1, 1, .w1c, 0⟩, ⟨0, 0, .w1c, 0⟩]⟩,
  ⟨0x1800300014, [], 32, [⟨31, 3, .rsv, 0⟩, ⟨2, 2, .rw, 0⟩, ⟨1, 1, .rw, 0⟩, ⟨0, 0, .rw, 0⟩]⟩]
/-- Register lines of the SEC block. -/
def regLinesSecA : List RegLine := [
  ⟨0x1800600000, [], 32, [⟨31, 18, .rsv, 0⟩, ⟨17, 17, .ro, 0⟩, ⟨16, 16, .ro, 0⟩, ⟨15, 14, .ro, 0⟩, ⟨13, 12, .rsv, 0⟩, ⟨11, 8, .ro, 0⟩, ⟨7, 4, .ro, 0⟩, ⟨3, 0, .ro, 0⟩]⟩,
  ⟨0x1800600008, [], 32, [⟨31, 5, .rsv, 0⟩, ⟨4, 4, .w1s, 0⟩, ⟨3, 0, .rw, 0⟩]⟩,
  ⟨0x1800600100, [(0x40, 8)], 512, [⟨511, 0, .ro, 0⟩]⟩,
  ⟨0x1800600400, [(0x40, 16)], 512, [⟨511, 0, .rw, 0⟩]⟩,
  ⟨0x1800600800, [], 512, [⟨511, 0, .rw, 0⟩]⟩,
  ⟨0x1800600840, [], 64, [⟨63, 40, .rsv, 0⟩, ⟨39, 6, .rw, 0⟩, ⟨5, 0, .rsv, 0⟩]⟩,
  ⟨0x1800600848, [], 32, [⟨31, 2, .rsv, 0⟩, ⟨1, 1, .ro, 0⟩, ⟨0, 0, .w1s, 0⟩]⟩,
  ⟨0x1800600888, [], 32, [⟨31, 8, .rsv, 0⟩, ⟨7, 4, .ro, 0⟩, ⟨3, 1, .rsv, 0⟩, ⟨0, 0, .w1s, 0⟩]⟩]
/-- Register lines of the SEC block. -/
def regLinesSecB : List RegLine := [
  ⟨0x1800600900, [], 256, [⟨255, 0, .ro, 0⟩]⟩,
  ⟨0x1800600940, [], 32, [⟨31, 3, .rsv, 0⟩, ⟨2, 2, .ro, 0⟩, ⟨1, 1, .w1s, 0⟩, ⟨0, 0, .w1s, 0⟩]⟩,
  ⟨0x1800600950, [], 64, [⟨63, 0, .ro, 0⟩]⟩,
  ⟨0x1800600a00, [], 32, [⟨31, 7, .rsv, 0⟩, ⟨6, 6, .w1c, 0⟩, ⟨5, 5, .w1c, 0⟩, ⟨4, 4, .w1c, 0⟩, ⟨3, 3, .w1c, 0⟩, ⟨2, 2, .w1c, 0⟩, ⟨1, 1, .w1c, 0⟩, ⟨0, 0, .w1c, 0⟩]⟩,
  ⟨0x1800600300, [], 512, [⟨511, 0, .wo, 0⟩]⟩,
  ⟨0x1800600340, [], 32, [⟨31, 1, .rsv, 0⟩, ⟨0, 0, .w1s, 0⟩]⟩,
  ⟨0x1800600880, [], 64, [⟨63, 40, .rsv, 0⟩, ⟨39, 6, .rw, 0⟩, ⟨5, 0, .rsv, 0⟩]⟩,
  ⟨0x1800600948, [], 64, [⟨63, 40, .rsv, 0⟩, ⟨39, 6, .rw, 0⟩, ⟨5, 0, .rsv, 0⟩]⟩]
/-- Register lines of the SEC block. -/
def regLinesSecC : List RegLine := [
  ⟨0x1800600a04, [], 32, [⟨31, 7, .rsv, 0⟩, ⟨6, 6, .rw, 0⟩, ⟨5, 5, .rw, 0⟩, ⟨4, 4, .rw, 0⟩, ⟨3, 3, .rw, 0⟩, ⟨2, 2, .rw, 0⟩, ⟨1, 1, .rw, 0⟩, ⟨0, 0, .rw, 0⟩]⟩]
/-- Register lines of the FUSE block. -/
def regLinesFuse : List RegLine := [
  ⟨0x1800500000, [], 32, [⟨31, 20, .rsv, 0⟩, ⟨19, 18, .ro, 0⟩, ⟨17, 17, .ro, 0⟩, ⟨16, 16, .ro, 0⟩, ⟨15, 12, .ro, 0⟩, ⟨11, 8, .ro, 0⟩, ⟨7, 4, .ro, 0⟩, ⟨3, 0, .ro, 0⟩]⟩,
  ⟨0x1800500300, [(0x4, 4)], 32, [⟨31, 7, .rsv, 0⟩, ⟨6, 0, .ro, 0⟩]⟩,
  ⟨0x1800500400, [], 128, [⟨127, 0, .ro, 0⟩]⟩,
  ⟨0x1800500100, [(0x40, 4)], 512, [⟨511, 0, .ro, 0⟩]⟩,
  ⟨0x1800500200, [(0x40, 4)], 512, [⟨511, 0, .ro, 0⟩]⟩,
  ⟨0x1800500410, [], 32, [⟨31, 12, .rsv, 0⟩, ⟨11, 0, .ro, 0⟩]⟩,
  ⟨0x1800501000, [(0x4, 512)], 32, [⟨31, 0, .ro, 0⟩]⟩]
/-- Register lines of the SYS block. -/
def regLinesSysA : List RegLine := [
  ⟨0x1800000000, [], 32, [⟨31, 16, .ro, 2176⟩, ⟨15, 12, .ro, 11⟩, ⟨11, 8, .ro, 0⟩, ⟨7, 2, .rsv, 0⟩, ⟨1, 0, .ro, 0⟩]⟩,
  ⟨0x1800000008, [], 32, [⟨31, 1, .rsv, 0⟩, ⟨0, 0, .rw, 1⟩]⟩,
  ⟨0x1800000010, [], 32, [⟨31, 8, .rsv, 0⟩, ⟨7, 0, .ro, 0⟩]⟩,
  ⟨0x1800000020, [], 32, [⟨31, 1, .rsv, 0⟩, ⟨0, 0, .w1c, 0⟩]⟩,
  ⟨0x1800000028, [], 64, [⟨63, 62, .ro, 0⟩, ⟨61, 40, .rsv, 0⟩, ⟨39, 0, .ro, 0⟩]⟩,
  ⟨0x1800000140, [], 128, [⟨1, 0, .rw, 0⟩, ⟨3, 2, .rw, 0⟩, ⟨5, 4, .rw, 0⟩, ⟨7, 6, .rw, 0⟩, ⟨9, 8, .rw, 0⟩, ⟨11, 10, .rw, 0⟩, ⟨13, 12, .rw, 0⟩, ⟨15, 14, .rw, 0⟩, ⟨17, 16, .rw, 0⟩, ⟨19, 18, .rw, 0⟩, ⟨21, 20, .rw, 0⟩, ⟨23, 22, .rw, 0⟩, ⟨25, 24, .rw, 0⟩, ⟨27, 26, .rw, 0⟩, ⟨29, 28, .rw, 0⟩, ⟨31, 30, .rw, 0⟩, ⟨33, 32, .rw, 0⟩, ⟨35, 34, .rw, 0⟩, ⟨37, 36, .rw, 0⟩, ⟨39, 38, .rw, 0⟩, ⟨41, 40, .rw, 0⟩, ⟨43, 42, .rw, 0⟩, ⟨45, 44, .rw, 0⟩, ⟨47, 46, .rw, 0⟩, ⟨49, 48, .rw, 0⟩, ⟨51, 50, .rw, 0⟩, ⟨53, 52, .rw, 0⟩, ⟨55, 54, .rw, 0⟩, ⟨57, 56, .rw, 0⟩, ⟨59, 58, .rw, 0⟩, ⟨61, 60, .rw, 0⟩, ⟨63, 62, .rw, 0⟩, ⟨65, 64, .rw, 0⟩, ⟨67, 66, .rw, 0⟩, ⟨69, 68, .rw, 0⟩, ⟨71, 70, .rw, 0⟩, ⟨73, 72, .rw, 0⟩, ⟨75, 74, .rw, 0⟩, ⟨77, 76, .rw, 0⟩, ⟨79, 78, .rw, 0⟩, ⟨81, 80, .rw, 0⟩, ⟨83, 82, .rw, 0⟩, ⟨85, 84, .rw, 0⟩, ⟨87, 86, .rw, 0⟩, ⟨89, 88, .rw, 0⟩, ⟨91, 90, .rw, 0⟩, ⟨93, 92, .rw, 0⟩, ⟨95, 94, .rw, 0⟩, ⟨97, 96, .rw, 0⟩, ⟨99, 98, .rw, 0⟩, ⟨101, 100, .rw, 0⟩, ⟨103, 102, .rw, 0⟩, ⟨105, 104, .rw, 0⟩, ⟨107, 106, .rw, 0⟩, ⟨109, 108, .rw, 0⟩, ⟨111, 110, .rw, 0⟩, ⟨113, 112, .rw, 0⟩, ⟨115, 114, .rw, 0⟩, ⟨117, 116, .rw, 0⟩, ⟨119, 118, .rw, 0⟩, ⟨121, 120, .rw, 0⟩, ⟨123, 122, .rw, 0⟩, ⟨125, 124, .rw, 0⟩, ⟨127, 126, .rw, 0⟩]⟩,
  ⟨0x1800000150, [], 128, [⟨127, 102, .rsv, 0⟩, ⟨101, 96, .ro, 0⟩, ⟨95, 64, .ro, 0⟩, ⟨63, 34, .rsv, 0⟩, ⟨33, 4, .ro, 0⟩, ⟨3, 2, .rsv, 0⟩, ⟨1, 0, .ro, 0⟩]⟩,
  ⟨0x1800000024, [], 32, [⟨31, 1, .rsv, 0⟩, ⟨0, 0, .rw, 0⟩]⟩]
/-- Register lines of the SYS block. -/
def regLinesSysB : List RegLine := [
  ⟨0x1800000100, [], 64, [⟨63, 0, .rw, 0⟩]⟩,
  ⟨0x1800000108, [], 64, [⟨63, 0, .rw, 0⟩]⟩,
  ⟨0x1800000110, [], 64, [⟨63, 0, .ro, 0⟩]⟩,
  ⟨0x1800000120, [], 64, [⟨63, 0, .w1c, 0⟩]⟩,
  ⟨0x1800000128, [], 64, [⟨63, 0, .rw, 0⟩]⟩]
/-- Register lines of the INT block. -/
def regLinesInt : List RegLine := [
  ⟨0x1800100000, [], 32, [⟨31, 23, .rsv, 0⟩, ⟨22, 0, .ro, 0⟩]⟩,
  ⟨0x1800100004, [], 32, [⟨31, 23, .rsv, 0⟩, ⟨22, 0, .rw, 0⟩]⟩,
  ⟨0x1800100008, [], 32, [⟨31, 1, .rsv, 0⟩, ⟨0, 0, .ro, 0⟩]⟩,
  ⟨0x1800100100, [(0x10, 23)], 64, [⟨63, 0, .ro, 0⟩]⟩,
  ⟨0x1800100108, [(0x10, 23)], 64, [⟨63, 0, .rw, 0⟩]⟩]
/-- Register lines of the CAL block. -/
def regLinesCal : List RegLine := [
  ⟨0x1800400000, [(0x4, 416)], 32, [⟨31, 24, .rsv, 0⟩, ⟨23, 0, .ro, 0⟩]⟩,
  ⟨0x1800410000, [(0x4, 416)], 32, [⟨31, 24, .rsv, 0⟩, ⟨23, 0, .rw, 0⟩]⟩,
  ⟨0x1800420000, [(0x4, 416)], 32, [⟨31, 24, .rsv, 0⟩, ⟨23, 0, .ro, 0⟩]⟩]
/-- The register lines by block number k of R382 (k = 64 stands for the TIL block). -/
def regLinesOf : Nat → List RegLine
  | 0 => regLinesSysA ++ regLinesSysB
  | 1 => regLinesInt
  | 2 => regLinesPwrA ++ regLinesPwrB ++ regLinesPwrC
  | 3 => regLinesClk
  | 4 => regLinesCal
  | 5 => regLinesFuse
  | 6 => regLinesSecA ++ regLinesSecB ++ regLinesSecC
  | 7 => regLinesTmbA ++ regLinesTmbB ++ regLinesTmbC
  | 8 => regLinesOrrA ++ regLinesOrrB
  | 9 => regLinesCtxA ++ regLinesCtxB
  | 10 => regLinesDmaA ++ regLinesDmaB
  | 11 => regLinesMemc
  | 12 => regLinesFhA ++ regLinesFhB ++ regLinesFhC
  | 13 => regLinesOptA ++ regLinesOptB
  | 14 => regLinesJesA ++ regLinesJesB
  | 15 => regLinesDfeA ++ regLinesDfeB
  | 17 => regLinesEq
  | 18 => regLinesLdpcA ++ regLinesLdpcB
  | 19 => regLinesPol
  | 20 => regLinesApx
  | 21 => regLinesAcxA ++ regLinesAcxB
  | 64 => regLinesTilA ++ regLinesTilB
  | _ => []

end Sys2Proof.Machine
end

