-- ==== Sys2Proof/Machine/RegReset.lean ====
section
/-! DEFINITION. What a register word holds at the release of its reset group (R6): the Reset column of its register table,
and for the values that the tables name otherwise (`(8i + j) mod 32`, the tables of R297 and R319, "Fuse") the functions below.
A fused value that the spec does not give is the model's choice (log entry 3). -/

namespace Sys2Proof.Machine

/-- Byte offset of an address within an instance of a register line, if the line covers it. -/
def RegLine.offset (l : RegLine) (a : Nat) : Option Nat :=
  let rec go : List (Nat × Nat) → Nat → Option Nat
    | [], o => if o < (l.width + 7) / 8 then some o else none
    | (st, n) :: is, o => if o / st < n then go is (o % st) else
        -- an index that runs to its end may still be followed by bytes of its last instance
        none
  if a < l.base then none else go l.idx (a - l.base)

/-- The block number k of R382 of a system address; 64 for the TIL block; none outside the control registers. -/
def blockOf (a : Nat) : Option Nat :=
  if a < 0x1800000000 ∨ 0x1810000000 ≤ a then none
  else
    let k := (a - 0x1800000000) / 0x100000
    if 64 ≤ k ∧ k < 68 then some 64 else some k

/-- The register line at an address with the byte offset in its instance, if a register lies there (R384). -/
def regAt (a : Nat) : Option (RegLine × Nat) :=
  match blockOf a with
  | none => none
  | some k => (regLinesOf k).findSome? (fun l => (l.offset a).map (fun o => (l, o)))

/-- The part of a field that lies in the 32-bit word at bit offset `b` of its register, as (lowest bit, width) there. -/
def RegField.inWord (f : RegField) (b : Nat) : Option (Nat × Nat) :=
  let lo := max f.lo b
  let hi := min f.hi (b + 31)
  if hi < lo then none else some (lo - b, hi - lo + 1)

/-- The bits of the word at byte offset `o` that carry one of the access codes. -/
def RegLine.mask (l : RegLine) (o : Nat) (p : Access → Bool) : Nat :=
  l.fields.foldl (fun m f =>
    if p f.acc then
      match f.inWord (8 * o) with
      | some (lo, w) => m ||| ((2 ^ w - 1) <<< lo)
      | none => m
    else m) 0

/-- The Reset column of the word at byte offset `o` of a register. -/
def RegLine.resetWord (l : RegLine) (o : Nat) : Nat :=
  l.fields.foldl (fun m f =>
    match f.inWord (8 * o) with
    | some (lo, w) => m ||| (bitsOf f.reset (8 * o + lo - f.lo) w <<< lo)
    | none => m) 0

/-- Units a kind of R293 has at first shipment, logical and physical. -/
def kindUnits : Nat → Nat × Nat
  | 0 => (64, 72) | 1 => (128, 136) | 2 => (16, 17) | 3 => (15, 16) | 4 => (64, 68) | 5 => (64, 68)
  | 6 => (16, 18) | 7 => (8, 9) | 8 => (6, 7) | 9 => (4, 5) | 10 => (2, 3) | 11 => (8, 9) | 12 => (8, 9)
  | 13 => (1, 2) | 14 => (96, 192) | 15 => (1, 2) | _ => (0, 0)

/-- Phases n + 1 of a domain (R319). -/
def domPhases (d : Nat) : Nat :=
  if d < 72 then 2 else if d < 80 then 3 else
  match d with
  | 80 => 2 | 81 => 2 | 82 => 3 | 83 => 4 | 84 => 5 | 85 => 3 | 86 => 5 | 87 => 5 | 88 => 4 | 89 => 4 | 90 => 5 | 91 => 3
  | _ => 4

/-- The fused physical unit of logical unit `u` of kind `k` (PWR_REP_UMAP): u, or u mod 16 for kind 1. -/
def umapReset (k u : Nat) : Nat :=
  if u < (kindUnits k).1 then (if k = 1 then u % 16 else u) else 0

/-- Four consecutive PWR_REP_UMAP bytes as one word. -/
def umapResetWord (o : Nat) : Nat :=
  let k := o / 0x100
  let u := o % 0x100
  umapReset k u + 256 * umapReset k (u + 1) + 65536 * umapReset k (u + 2) + 16777216 * umapReset k (u + 3)

/-- Spares at first shipment of kind k, saturated at 15 (PWR_REP_LEFT). -/
def leftReset (k : Nat) : Nat := min 15 ((kindUnits k).2 - (kindUnits k).1)

/-- Default n of threshold class k (R297), with 2^20 written as 0. -/
def thrReset : Nat → Nat
  | 3 => 4096 | 5 => 1 | 6 => 16 | 7 => 0 | _ => 64

/-- Packed carriage owners k mod 8, three bits each (DMA_RINGA_OWN). -/
def ringOwnReset : Nat := (List.range 32).foldl (fun m k => m + (k % 8) * 2 ^ (3 * k)) 0

/-- A word of four bytes whose byte j is `f j`. -/
def packBytes (f : Nat → Nat) : Nat := f 0 + 256 * f 1 + 65536 * f 2 + 16777216 * f 3

/-- Reset words that the register tables name by a formula, another table or "Fuse"; none elsewhere. -/
def specialReset (a : Nat) : Option Nat :=
  if 0x1800A00000 ≤ a ∧ a < 0x1800A80000 then
    let o := (a - 0x1800A00000) % 0x10000
    if 0x800 ≤ o ∧ o < 0x840 then some (packBytes (fun j => 0x80 + (o - 0x800 + j) % 32)) else none
  else if 0x1800A80010 ≤ a ∧ a < 0x1800A8001C then some (bitsOf ringOwnReset (8 * (a - 0x1800A80010)) 32)
  else if 0x1800A80020 ≤ a ∧ a < 0x1800A8002C then some (bitsOf ringOwnReset (8 * (a - 0x1800A80020)) 32)
  else if 0x1800E00200 ≤ a ∧ a < 0x1800E00230 then some (packBytes (fun j => a - 0x1800E00200 + j))
  else if 0x1800E00240 ≤ a ∧ a < 0x1800E00270 then some (packBytes (fun j => a - 0x1800E00240 + j))
  else if 0x1800280018 ≤ a ∧ a < 0x1800280020 then
    some ((List.range 8).foldl (fun m j => m + leftReset (2 * (a - 0x1800280018) + j) * 16 ^ j) 0)
  else if 0x1800280040 ≤ a ∧ a < 0x1800280060 then some (1000 * 65536 + thrReset ((a - 0x1800280040) / 4))
  else if 0x1800281000 ≤ a ∧ a < 0x1800282000 then some (umapResetWord (a - 0x1800281000))
  else if 0x1800200000 ≤ a ∧ a < 0x1800200300 then
    let d := (a - 0x1800200000) / 8
    if (a - 0x1800200000) % 8 = 0 then some (domPhases d * 256 + domPhases d * 16 + 1) else none
  else if a = 0x1800202000 then some (110 * 65536 + 105 * 256 + 1)
  else if a = 0x1800500000 then some 15
  else none

/-- What the register word at a system address holds after its group's reset; 0 where no register lies. -/
def resetNat (a : Nat) : Nat :=
  match specialReset a with
  | some v => v
  | none =>
    match regAt a with
    | some (l, o) => l.resetWord o
    | none => 0

/-- What an unlisted register word reads as: its Reset value (R6). -/
def resetWord (a : Nat) : BitVec 32 := BitVec.ofNat 32 (resetNat a)

end Sys2Proof.Machine
end

