-- ==== Sys2Proof/Machine/Sparse.lean ====
section
/-! DEFINITION. Sparse maps as plain data: a list of (key, value) pairs with strictly rising keys and no entry equal to
what an unlisted key reads as.  Memory, the register file and the error map of the model have this form. -/

namespace Sys2Proof.Machine

/-- A sparse map from natural-number keys: (key, value) pairs in the canonical form `Sparse.wf`. -/
abbrev Sparse (α : Type) := List (Nat × α)

/-- The value listed at a key, if one is. -/
def Sparse.find {α : Type} : Sparse α → Nat → Option α
  | [], _ => none
  | (j, v) :: m, k => if k = j then some v else if k < j then none else Sparse.find m k

/-- The value at a key, where an unlisted key reads as `d k`. -/
def Sparse.read {α : Type} (d : Nat → α) (m : Sparse α) (k : Nat) : α := (m.find k).getD (d k)

/-- Remove the entry at a key. -/
def Sparse.erase {α : Type} : Sparse α → Nat → Sparse α
  | [], _ => []
  | (j, v) :: m, k => if k = j then m else if k < j then (j, v) :: m else (j, v) :: Sparse.erase m k

/-- Insert or replace the entry at a key, keys rising. -/
def Sparse.insert {α : Type} : Sparse α → Nat → α → Sparse α
  | [], k, v => [(k, v)]
  | (j, w) :: m, k, v =>
    if k = j then (k, v) :: m else if k < j then (k, v) :: (j, w) :: m else (j, w) :: Sparse.insert m k v

/-- Write a value at a key; writing what an unlisted key reads as removes the entry. -/
def Sparse.write {α : Type} [DecidableEq α] (d : Nat → α) (m : Sparse α) (k : Nat) (v : α) : Sparse α :=
  if v = d k then m.erase k else m.insert k v

/-- Every key of the map is at least `lo`, keys rise strictly, and no entry equals its default. -/
def Sparse.wfFrom {α : Type} [DecidableEq α] (d : Nat → α) : Nat → Sparse α → Bool
  | _, [] => true
  | lo, (k, v) :: m => decide (lo ≤ k) && decide (v ≠ d k) && Sparse.wfFrom d (k + 1) m

/-- The canonical form. -/
def Sparse.wf {α : Type} [DecidableEq α] (d : Nat → α) (m : Sparse α) : Bool := Sparse.wfFrom d 0 m

end Sys2Proof.Machine
end

