-- ==== Sys2Proof/Machine/State.lean ====
section
/-! DEFINITION. The state of the block as plain data: every register word, memory byte, queue, counter, mode and pin that the
spec gives it, the reasons a command can stop, and the state at reset. -/

namespace Sys2Proof.Machine

/-! ## Time base (chapter 02) -/

/-- Network time (R23): seconds, nanoseconds below 10^9, and a fraction in 2^-40 ns. -/
structure NT where
  sec : BitVec 48
  ns : Nat
  frac : BitVec 40
  deriving DecidableEq, Repr

/-- The time base (R23, R28-R35, R406). -/
structure TimeBase where
  nt : NT
  /-- TMB_MONO. -/
  mono : BitVec 64
  /-- The integral term I of R28, per unit. -/
  integ : Rat
  /-- y_p of R28, held until the next update. -/
  yp : Rat
  /-- y_f of R28. -/
  yf : Rat
  /-- Consecutive updates with |θ| ≤ 20 ns since the count restarted (R34), saturated at 16. -/
  near : Nat
  /-- Consecutive updates with |θ| > 100 ns (R34). -/
  far : Nat
  /-- Consecutive updates through which freq_ok = 1 was held (R34), saturated at 16. -/
  freqHeld : Nat
  /-- TMB_MONO at the last phase update (R28, R31). -/
  lastUpd : Option (BitVec 64)
  /-- TMB_MONO when servo_en last became 1 (R31). -/
  servoAt : BitVec 64
  /-- Whole milliseconds of NT at the last frequency measurement (R28). -/
  freqMs : Nat
  /-- The frequency source is lost (R33). -/
  freqLost : Bool
  /-- TMB_MONO at the last carried PPS_IN edge, while its handshake may be busy (R29, R339). -/
  ppsIn : Option (BitVec 64)
  /-- TMB_STAT.state and TMB_CAUSE.ho_enter before a watchdog expiry of the present ck, which a phase update of that ck undoes (R32). -/
  expired : Option (Nat × Bool)
  /-- Seconds of NT, less latency, that PPS_OUT has already passed (R406). -/
  ppsLast : Nat
  /-- TMB_MONO at which the PPS_OUT pulse in progress ends; none while the pin is low. -/
  ppsHigh : Option (BitVec 64)
  deriving DecidableEq, Repr

/-! ## Orrery (chapter 02) -/

/-- A decoded timetable action (R41, format A). -/
inductive Act where
  | issue (j : BitVec 10) (d : BitVec 32)
  | scan (r : BitVec 8) (most : BitVec 8)
  | idle (set : BitVec 8) (len : BitVec 24)
  | agcf (g : BitVec 8) (f : Bool)
  | nfsnap (g : BitVec 8)
  | sig (k : Fin 32)
  deriving DecidableEq, Repr

/-- The instant of a group (R38): for actions without a wait the air time of the last decode, an air instant, or a Conjunction exit
not yet known. -/
inductive GroupInst where
  | now (t : Nat)
  | at (t : Nat)
  | barrier (id : BitVec 8) (since : BitVec 64)
  deriving DecidableEq, Repr

/-- The group an engine is decoding or waiting on: whether CONJ opened it, its actions in order, TMB_MONO of its last decode, and of its
instant once reached. -/
structure Group where
  inst : GroupInst
  conj : Bool
  acts : List Act
  last : BitVec 64
  reached : Option (BitVec 64)
  deriving DecidableEq, Repr

/-- A group whose sets of 8 actions are leaving (R38): the rest, TMB_MONO of the instant, its air time, the next set's number. -/
structure Launching where
  acts : List Act
  reached : BitVec 64
  air : Nat
  k : Nat
  deriving DecidableEq, Repr

/-- One EVERY level (R41): first word, length, runs left (none: without end), time register and period. -/
structure Loop where
  start : Nat
  len : Nat
  left : Option Nat
  ta : Fin 4
  period : Nat
  deriving DecidableEq, Repr

/-- A scan held by a ring unit (R44, R45): cluster and offset of the ring's header, log2 of its size, index of the next descriptor,
descriptors left, TMB_MONO of t_s, next i. -/
structure Scan where
  cl : Nat
  off : Nat
  log : Nat
  next : BitVec 32
  left : Nat
  ts : BitVec 64
  i : Nat
  deriving DecidableEq, Repr

/-- One timeline engine beside its registers. -/
structure Engine where
  active : Bool
  tl : Fin 8
  /-- TMB_MONO of its last decode or loop-back (R39): the next word is decoded in a later ck. -/
  dec : BitVec 64
  /-- The bank that a SWAP makes the running one at its frame boundary (R41, R313); words are decoded from it already. -/
  swap : Option (Fin 2)
  loops : List Loop
  group : Option Group
  launching : List Launching
  scans : List Scan
  deriving DecidableEq, Repr

/-- A deadline on an air timeline. -/
structure Deadline where
  tl : Fin 8
  t : Nat
  deriving DecidableEq, Repr

/-- An event in the event network (R40, R74, R243). -/
inductive EventKind where
  | tileFlag (first span : Nat) (flag : Nat)
  | pointer (cls queue cluster desc : Nat) (dl : Option Deadline)
  | dmaStart (cluster queue : Nat)
  /-- A job descriptor (R243) read from `addr` at its delivery, with the deadline that its ISSUE gives. -/
  | jobDesc (addr : Nat) (dl : Option Deadline)
  /-- A flag on its way to every tile of a context (R248). -/
  | ctxFlag (ctx : Nat) (flag : Nat)
  deriving DecidableEq, Repr

/-- An event with the TMB_MONO at which it arrives. -/
structure Event where
  due : BitVec 64
  kind : EventKind
  deriving DecidableEq, Repr

/-- An idle window [start, start + len) of an idle set on a timeline (R41). -/
structure IdleWin where
  set : Nat
  tl : Fin 8
  start : Nat
  len : Nat
  deriving DecidableEq, Repr

/-- The Orrery: engines, event network, idle windows, and the CONJ line as this chip drives it. -/
structure Orrery where
  eng : Vector Engine 8
  events : List Event
  idle : List IdleWin
  /-- The chip drives CONJ low (R46). -/
  conjLow : Bool
  /-- The CONJ pin is seen high through its synchroniser. -/
  conjHigh : Bool
  /-- START messages sent on the Apsis links and not yet taken by them: (id, T_s, timeline). -/
  starts : List (BitVec 8 × Nat × Fin 8)
  /-- cons words of submission rings to be written in the next ck: address and value (R44). -/
  cons : List (Nat × BitVec 32)
  deriving DecidableEq, Repr

/-! ## Tile (chapters 03 to 05) -/

/-- Where a pending write of a bundle lands (R60, R61). -/
inductive PendReg where
  | s (i : Fin 32)
  | p (i : Fin 16)
  | m (i : Fin 8)
  | cb (i : Fin 8)
  | cl (i : Fin 8)
  | circ
  /-- The value of an accumulator that MVA and MVAH read. -/
  | accView (i : Fin 8)
  deriving DecidableEq, Repr

/-- A write that has been issued and has not landed: the issue slot from which it is seen. -/
structure Pend where
  due : Nat
  reg : PendReg
  val : BitVec 80
  deriving DecidableEq, Repr

/-- One level of the loop stack (R49, R71): LCNT, LSTART, LEND and the i bit. -/
structure TLoop where
  cnt : BitVec 32
  start : BitVec 17
  stop : BitVec 17
  intr : Bool
  deriving DecidableEq, Repr

/-- An operand tile mt of the matrix engine: 64 rows of 64 bytes, 64 row scales (binary16), zero point and signedness. -/
structure MTile where
  data : BitVec 32768
  scale : BitVec 1024
  zp : BitVec 8
  sgn : Bool
  deriving DecidableEq, Repr

/-- An accumulator bank ab of the matrix engine: 64 × 64 cells of 48 bits, the format it holds (15: none), the snapshots of the
row scales of both operands and the rescale table. -/
structure MBank where
  cells : Vector (BitVec 3072) 64
  fmt : BitVec 4
  sa : BitVec 1024
  sb : BitVec 1024
  rt : BitVec 2048
  deriving DecidableEq, Repr

/-- The core of a tile, which a bundle's S and D slots change (R49 to R62). -/
structure TileCore where
  s : Vector (BitVec 32) 32
  p : Vector (BitVec 32) 16
  m : Vector (BitVec 32) 8
  cb : Vector (BitVec 32) 8
  cl : Vector (BitVec 32) 8
  acc : Vector (BitVec 80) 8
  /-- The accumulators as MVA and MVAH see them. -/
  accView : Vector (BitVec 80) 8
  /-- CST.ie, CST.sat, CST.aov, CST.inh. -/
  ie : Bool
  sat : Bool
  aov : Bool
  inh : Bool
  circ : BitVec 32
  ien : BitVec 32
  evf : BitVec 32
  ira : BitVec 32
  /-- The loop stack, innermost level first. -/
  loops : List TLoop
  /-- Index of the next bundle to issue. -/
  pc : BitVec 17
  /-- Index of the bundle in progress. -/
  cur : BitVec 17
  /-- Issue slots so far. -/
  slot : Nat
  pend : List Pend
  /-- Post-modifications of the bundle in progress (R62). -/
  pmods : List (Fin 16 × Int)
  /-- Pointers that the bundle in progress writes by MTC (R62). -/
  mtc : List (Fin 16)
  /-- A taken branch: delay slots left and the target (R70). -/
  delay : Option (Nat × BitVec 17)
  /-- Issues left of the repeated bundle (R72). -/
  rpt : Option Nat
  /-- EI was the last bundle: interrupt sampling still sees ie = 0 (R60). -/
  eiHold : Bool
  /-- The boundary before the next bundle is a loop-back of the outermost loop. -/
  loopBack : Bool
  /-- The word, and its value before, that this bundle's S slot stored to; the P bus read precedes the store (R64). -/
  sOld : Option (Nat × BitVec 32)
  /-- The bundle in progress executes none of its other slots: it waits or faulted. -/
  skip : Bool
  /-- The core is completing its issued bundles; TIL_STAT.state at the end: 0 HALT, 4 yield, 5 fault (R409). -/
  stopping : Option (Fin 8)
  /-- The tile waits or stopped at a WAITE on this flag (R247, R407). -/
  awaited : Option (Fin 32)
  deriving DecidableEq, Repr

/-- What a fault in the bundle in progress restores (R52, R77): the core at the bundle's D stage, and the bytes that the bundle has stored
to, with the value and the ECC error before, newest first. -/
structure BundleUndo where
  core : TileCore
  mem : List (Nat × BitVec 8 × Nat)
  deriving DecidableEq, Repr

/-- An operation in a tile's V-slot queue (R58): its command, the pointer and the modifier that it read at its bundle's A stage, the ck left
of its occupancy once it has started, and for a VF the pointers and the chain descriptor that it read at its start (R94, R98). -/
structure VEntry where
  op : Instr
  ptr : BitVec 32
  step : BitVec 32
  left : Option Nat
  ptrs : List (BitVec 32)
  chain : List Nat
  deriving DecidableEq, Repr

/-- One Ivnar tile beside its registers of the TIL block. -/
structure Tile extends TileCore where
  v : Vector (BitVec 2048) 32
  k : Vector (BitVec 64) 8
  mt : Vector MTile 4
  ab : Vector MBank 4
  /-- The V-slot queue, head first, at most 8 entries (R58). -/
  vq : List VEntry
  undo : Option BundleUndo
  /-- The tile had halted: its last stop was a HALT, a fault or a write of run = 0 (R407). -/
  halted : Bool
  /-- The context unit has ordered a pre-emptive stop (R250). -/
  preStop : Bool
  deriving DecidableEq, Repr

/-! ## Data movement (chapter 06) -/

/-- The LPDDR6 controller's registers as the present frame uses them (R126, R130), and the ring owners (R123). -/
structure MemCtl where
  step : BitVec 64
  rd : BitVec 64
  wr : BitVec 64
  ringA : BitVec 96
  ringB : BitVec 96
  deriving DecidableEq, Repr

/-- A line that a DMA queue has fetched and not yet written (R137): its row, its piece of the row (none: companion entries), its source
bytes, how many of them a remote chip has still to return, and the receivers that it has reached (R140). -/
structure DLine where
  row : Nat
  piece : Option Nat
  data : List (BitVec 8)
  need : Nat
  reached : List Nat
  deriving DecidableEq, Repr

/-- A chance of one ck to move a line (R120 to R123): a port of a cluster memory, a cluster's port of the UE context memory, the tile plane
from one scratchpad to another, a carriage of ring A (false) or B that its owner may fill. -/
inductive Chance where
  | port (c : Fin 8) (x : Fin 16)
  | ue (c : Fin 8)
  | plane (src dst : Nat)
  | carriage (b : Bool) (c : Fin 8)
  deriving DecidableEq, Repr

/-- What has moved in one LPDDR6 slot (R127): the slot, counted from TMB_MONO 0, the positions used, and the channel of each line. -/
structure SlotUse where
  id : Nat
  pos : List Nat
  chan : List Nat
  deriving DecidableEq, Repr

/-- A DMA queue beside its registers (R133-R141). -/
structure DQueue where
  /-- The present descriptor. -/
  desc : Option (BitVec 512)
  /-- prod as read last. -/
  prod : BitVec 32
  cons : BitVec 32
  /-- prod has been read since the release of G1. -/
  seen : Bool
  /-- The first line not fetched: row, piece, and whether the row's companion line has been fetched; lines after it that have (R128), by
  key. -/
  row : Nat
  piece : Nat
  comp : Bool
  ahead : List Nat
  fifo : List DLine
  /-- Data lines written of the present descriptor. -/
  sent : Nat
  /-- Receivers dropped from the present descriptor. -/
  drop : BitVec 8
  /-- Lag counter of each receiver (R141). -/
  lag : Vector Nat 8
  /-- The credit word of each receiver as read last (R140). -/
  credit : Vector (Option (BitVec 32)) 8
  /-- Age counter, and TMB_MONO of the last grant (R138). -/
  age : Nat
  granted : Option (BitVec 64)
  /-- TMB_MONO at which the last fetch issued has returned (R139). -/
  returned : BitVec 64
  /-- Draining after a cancel (R139). -/
  draining : Bool
  /-- Write requests to a remote chip that are not answered (R289). -/
  wout : Nat
  /-- The context unit has asked the queue to pause after its present descriptor; it has paused with work left (R250). -/
  hold : Bool
  paused : Bool
  deriving DecidableEq, Repr

/-- A Comet transfer that a tile has outstanding (R143-R146). -/
structure CTransfer where
  /-- t_r of R144. -/
  hdr : BitVec 64
  /-- t_L of R144. -/
  launch : BitVec 64
  /-- Scratchpad address of its command. -/
  at_ : Nat
  /-- The command, once read. -/
  cmd : Option (BitVec 256)
  /-- The snapshot of a write. -/
  snap : Option (List (BitVec 8))
  /-- The LPDDR6 slot that served its lower part, of a transfer that crosses a 256-byte boundary (R146). -/
  lower : Option Nat
  /-- Its data are in place. -/
  moved : Bool
  deriving DecidableEq, Repr

/-- The Comet path of one cluster (R144): the position after the one that launched last, and the ck of the last launch. -/
structure CometTurn where
  next : Fin 8
  last : Option (BitVec 64)
  deriving DecidableEq, Repr

/-- Data movement beside its registers. -/
structure Movement where
  mem : MemCtl
  /-- Queue n of cluster c at 32c + n. -/
  q : Vector DQueue 256
  /-- The outstanding Comet transfers of each tile, oldest first. -/
  cmt : Vector (List CTransfer) 64
  turn : Vector CometTurn 8
  /-- The last header read of each tile on which no launch rests yet (R144): its ck, prod and cons. -/
  header : Vector (Option (BitVec 64 × BitVec 32 × BitVec 32)) 64
  slot : SlotUse
  /-- The chances taken in the ck at TMB_MONO. -/
  taken : BitVec 64 × List Chance
  deriving DecidableEq, Repr

/-! ## Front end (chapter 07) -/

/-- The symbol buffer of a DDC branch (R173): samples oldest first with I in the low half, at most 16,384, the air instant of the
newest, the air ticks from one sample to the next, and what the mixer and the filter hold of earlier samples (log entry 46). -/
structure Branch where
  x : List (BitVec 32)
  last : Nat
  step : Nat
  filt : Nat
  deriving DecidableEq, Repr

/-- A DFE receive chain beside its registers (R173 to R177). -/
structure RxChain where
  /-- The noise-floor meter: sum, and samples counted. -/
  sum : BitVec 64
  n : Nat
  /-- Air instants of the snapshots taken during the present window, newest first (R177). -/
  snaps : List Nat
  /-- Consecutive windows with P ≤ det_thr. -/
  det : Nat
  /-- A freeze has arrived during the present window, whose update it stops (R175). -/
  stopped : Bool
  /-- TMB_MONO of a release during the present window, from which detection starts anew; TMB_MONO of the end of the last window, and whether
  detection froze the chain then (R175). -/
  released : Option (BitVec 64)
  ended : Option (BitVec 64 × Bool)
  /-- Samples from the first air instant, that of a failure, to the second, the first symbol boundary after the remap, read as 0 (R307). -/
  zeroFrom : Option Nat
  zeroTo : Option Nat
  /-- Air instants within which self-test segments test the chain (R300). -/
  tested : List (Nat × Nat)
  /-- The attenuation code that the compensation multiplies for (R176), and those that have replaced it during the present window, newest first, each
  with the air instant from which it does. -/
  comp : BitVec 6
  comps : List (Nat × BitVec 6)
  /-- Words sent: TMB_MONO and the air instant from which the new compensation applies, and its code. -/
  sent : List (BitVec 64 × Nat × BitVec 6)
  /-- Compensated components that saturated (R176); the spec names no register for the count. -/
  clipped : Nat
  b0 : Branch
  b1 : Branch
  deriving DecidableEq, Repr

/-- A DFE transmit chain beside its registers (R181, R182). -/
structure TxChain where
  /-- The air instants of recorded DPD switches. -/
  swAt : List Nat
  /-- The symbols given to each branch, newest first, at most 280: air instant and samples, prefix first (log entry 46). -/
  syms0 : List (Nat × List (BitVec 32))
  syms1 : List (Nat × List (BitVec 32))
  /-- Samples from the first air instant, that of a failure, to the second, the first symbol boundary after the remap, are 0 (R307). -/
  zeroFrom : Option Nat
  zeroTo : Option Nat
  deriving DecidableEq, Repr

/-- A gain port (R176): waiting words by slot, with their chain and code, and TMB_MONO at which the word in progress ends. -/
structure GainPort where
  waiting : List (Fin 4 × Fin 64 × BitVec 6)
  busy : Option (BitVec 64)
  deriving DecidableEq, Repr

/-- The front end. -/
structure FrontEnd where
  rx : Vector RxChain 64
  tx : Vector TxChain 64
  port : Vector GainPort 16
  deriving DecidableEq, Repr

/-! ## Hard engines (chapters 07 and 08) -/

/-- A pointer in a unit's queue (R187): cluster, offset, and the deadline that an ISSUE gives. -/
structure Ptr where
  cl : Nat
  off : Nat
  dl : Option Deadline
  deriving DecidableEq, Repr

/-- A job that a unit has accepted: its descriptor (128 bytes, or 32 for classes 0 and 1), where it came from, TMB_MONO of its
acceptance, the assist table read then (R205), whether its outputs have been written, and what its record will say (R190). -/
structure EngJob where
  desc : BitVec 1024
  ptr : Ptr
  at_ : BitVec 64
  table : List (BitVec 8)
  moved : Bool
  pfail : Bool
  crcOk : Bool
  capped : Bool
  late : Bool
  iter : Nat
  bound : Nat
  deriving DecidableEq, Repr

/-- A unit of classes 0 to 5 beside its registers. -/
structure HardUnit where
  ptrs : List Ptr
  job : Option EngJob
  draining : Bool
  deriving DecidableEq, Repr

/-! ## Jobs, contexts and the deadline monitor (chapters 09 and 10) -/

/-- A queued or running job (R242, R248): class F jobs have no client. `seq` is the order of issue. -/
structure Job where
  seq : Nat
  tag : BitVec 32
  client : Option (Fin 64)
  flag : Fin 32
  fen : Bool
  /-- The watch that the job armed. -/
  watch : Option (Fin 128)
  tl : Fin 8
  deadline : Option Nat
  psave : Bool
  args : BitVec 256
  deriving DecidableEq, Repr

/-- A context beside CTX_CTXn and CTX_STATn. -/
structure Ctx where
  /-- It holds slots and its ranges lie in the scratchpads (R246). -/
  resident : Bool
  job : Option Job
  /-- The job in progress has started and is resumed at its next start. -/
  started : Bool
  queued : List Job
  /-- Tiles that stopped at a WAITE on a clear flag, with the flag (R247, R252). -/
  awaited : List (Fin 64 × Fin 32)
  /-- Some tile had neither halted nor waited when the context stopped (R247). -/
  runnable : Bool
  /-- The ranges were loaded since the last start: the images are read at the next start (R246). -/
  loaded : Bool
  /-- The stop in progress ends in a save (R247). -/
  toSave : Bool
  /-- TMB_MONO at which a dispatched job starts (R249). -/
  startAt : Option (BitVec 64)
  /-- TMB_MONO at which it became blocked, entered PARK, and last ended a job (R252). -/
  blockedAt : Option (BitVec 64)
  parkAt : BitVec 64
  endedAt : BitVec 64
  draining : Bool
  /-- A checkpoint write is under way (R258). -/
  writing : Bool
  /-- A teardown that has begun and not ended: its cause (R257). -/
  tear : Option Nat
  age : Nat
  /-- The order in which it became urgent (R249). -/
  urgSeq : Nat
  deriving DecidableEq, Repr

/-- A switch under way (R251 to R253): the incoming context, the contexts whose stop it waits for, those it saves, and whether the load follows; it
does not while another holder of the tiles makes the job wait. -/
structure Switch where
  ctx : Fin 256
  stops : List (Fin 256)
  saves : List (Fin 256)
  load : Bool
  deriving DecidableEq, Repr

/-- A watch beside CTX_DMON_STATw (R227 to R231). -/
structure Watch where
  ctx : Fin 256
  /-- The job that armed it. -/
  seq : Nat
  tl : Fin 8
  deadline : Nat
  /-- Address of its record. -/
  record : Nat
  nms : Nat
  onfire : Bool
  two : Bool
  /-- R[0] to R[nms]. -/
  lat : List Nat
  /-- Address of the progress word. -/
  prog : Nat
  succ : BitVec 64
  cand0 : BitVec 64
  cand1 : BitVec 64
  tfb0 : Nat
  tfb1 : Nat
  /-- T_st, or t_c once a switch has been charged (R229). -/
  tst : Nat
  /-- Return switch time in OUT. -/
  tsw : Nat
  /-- E of R229, in RUN. -/
  e : BitVec 64
  oflags : BitVec 4
  outcome : Nat
  /-- t_w of the periodic check decided last, and of the one whose progress word was read last. -/
  decided : Option (BitVec 64)
  seen : Option (BitVec 64)
  /-- t_w of the last periodic check that found it ARMED, RUN or OUT, and that state (R229). -/
  check : Option (BitVec 64 × Nat)
  deriving DecidableEq, Repr

/-- A next action on its way from the monitor (R230, R232): the TMB_MONO at whose end it is pushed, the watch, the action. -/
structure Push where
  due : BitVec 64
  watch : Fin 128
  act : BitVec 64
  deriving DecidableEq, Repr

/-- The context unit and the deadline monitor. -/
structure Contexts where
  ctx : Vector Ctx 256
  switches : List Switch
  watch : Vector Watch 128
  /-- Pushes of the monitor on their way. -/
  pushes : List Push
  /-- The number of the next issue, and of the next promotion. -/
  seq : Nat
  /-- R249: the position in the order of urgency. -/
  urg : Nat
  deriving DecidableEq, Repr

/-! ## Fronthaul and optical ports (chapters 07 and 11) -/

/-- A frame in an ingress engine's buffer (R150): its port, its capture time (NT seconds and quarters of a nanosecond), that of its last bit in
1/1600 ns, the physical lane to which they refer, its bytes without the FCS, and the offset of its next eCPRI message. -/
structure FhFrame where
  port : Fin 32
  sec : BitVec 48
  qns : Nat
  last : Nat
  lane : Nat
  data : List (BitVec 8)
  off : Nat
  deriving DecidableEq, Repr

/-- A batch that is not yet published (R166, R167): T_sym, symbol index in its slot, timeline, hi of the stream that opened it (none for an
FFT output), its slot's address, positions − 1, bytes of a region, flags, messages written for each position and stream, the received mask. -/
structure FhBatch where
  t : Nat
  sym : Nat
  tl : Nat
  hi : Option Int
  slot : Nat
  nstr : Nat
  region : Nat
  flags : Nat
  counts : List ((Nat × Option Nat) × Nat)
  mask : Nat
  closed : Bool
  deriving DecidableEq, Repr

/-- A batch queue beside its registers: unpublished batches in the order in which they opened, the T_sym of closed ones with TMB_MONO, whether ahead
has reached the low-water mark since the last alarm, and whether the read of cons at a publication still waits for its bank (R170). -/
structure FhQueue where
  batches : List FhBatch
  done : List (Nat × BitVec 64)
  armed : Bool
  due : Bool
  deriving DecidableEq, Repr

/-- A transmit ring (R273): prod as read last, and its prefetched head. -/
structure TxRing where
  prod : BitVec 32
  head : Option (BitVec 512)
  deriving DecidableEq, Repr

/-- The frame that a port is sending: its ring (none: an eCPRI response), its bytes with the FCS, and t_dep in quarters of a nanosecond. -/
structure TxFrame where
  ring : Option (Fin 4)
  data : List (BitVec 8)
  sec : BitVec 48
  qns : Nat
  deriving DecidableEq, Repr

/-- An Ethernet port beside its registers. -/
structure Port where
  ring : Vector TxRing 4
  /-- Responses of R277 that wait to be sent. -/
  resp : List (List (BitVec 8))
  sending : Option TxFrame
  deriving DecidableEq, Repr

/-- An optical lane (R266): TMB_MONO since which its signal is absent, and of its last restart pulse or its reduction. -/
structure OptLane where
  lostAt : Option (BitVec 64)
  pulseAt : BitVec 64
  deriving DecidableEq, Repr

/-- Ports and ingress engines. -/
structure Optics where
  /-- The frame buffers, in the order in which their frames are taken (R150). -/
  buf : Vector (List FhFrame) 4
  /-- Frames for ring 1 that wait for an earlier captured one, oldest first (R272). -/
  rxWait : List FhFrame
  /-- Components that the egress engine saturated, by egress stream (R161); the spec names no register for the count. -/
  esat : Vector Nat 256
  /-- The last sequence id of each stream (R153). -/
  seqId : Vector (Option (BitVec 8)) 256
  que : Vector FhQueue 64
  port : Vector Port 32
  lane : Vector OptLane 32
  /-- Engines whose light is below the minimum (R265). -/
  dark : BitVec 4
  deriving DecidableEq, Repr

/-! ## JESD204C links (chapter 11) -/

/-- A receive lane (R283): consecutive valid headers, headers and invalid headers of the present window of 64, the two locks. -/
structure JLane where
  good : Nat
  seen : Nat
  bad : Nat
  lock : Bool
  emb : Bool
  deriving DecidableEq, Repr

/-- The JESD204C interface. -/
structure Jesd where
  lane : Vector JLane 48
  /-- Receive links in data phase. -/
  data : BitVec 8
  /-- Spans of NT, in quarters of a nanosecond, whose multiblocks each receive link released as zeros (R283). -/
  zeros : Vector (List (Nat × Nat)) 8
  /-- JRX_LATk and JTX_LATk, in 2^-8 ns, as taken at the last LEMC (R347). -/
  lat : Vector Int 16
  /-- NT of the alignment of every link's LEMC, in quarters of a nanosecond (R282). -/
  lemc : Option Nat
  /-- Mode 1 has aligned since the last write of JES_SYSREF. -/
  aligned : Bool
  /-- TMB_MONO at the last carried SYSREF edge. -/
  edge : Option (BitVec 64)
  deriving DecidableEq, Repr

/-! ## Apsis links (chapter 11) -/

/-- A flit to send, with its type, and the record of a TIME flit. -/
structure OutFlit where
  ty : Fin 16
  f : Flit
  time : Option TimeRec
  deriving DecidableEq, Repr

/-- An Apsis link beside its registers (R287). -/
structure ApxLink where
  /-- The next seq to send, and the next to accept. -/
  seq : BitVec 10
  expect : BitVec 10
  /-- Flits held for replay, oldest first, and those that wait for credit or room. -/
  unacked : List OutFlit
  wait : List OutFlit
  /-- Credits to spend, and credits to return, per virtual channel. -/
  cred : Vector Nat 3
  owed : Vector Nat 3
  /-- RETRY has been sent since the last flit in order. -/
  reject : Bool
  replays : Nat
  /-- TMB_MONO at the last progress of ack. -/
  progress : BitVec 64
  /-- Flits leaving in the present ck. -/
  out : List OutFlit
  deriving DecidableEq, Repr

/-- A request of this chip (R289): destination, tag, TMB_MONO of its issue, its DMA queue, and the places of a read's bytes: row, piece,
offset in the line, and bytes. -/
structure ApxReq where
  dst : Fin 8
  tag : BitVec 8
  at_ : BitVec 64
  queue : Fin 256
  write : Bool
  parts : List (Nat × Option Nat × Nat × Nat)
  deriving DecidableEq, Repr

/-- A request of another chip that waits for service: the port it came on. -/
structure ApxServe where
  port : Fin 32
  write : Bool
  f : Flit
  deriving DecidableEq, Repr

/-- The Apsis links. -/
structure Apsis where
  link : Vector ApxLink 32
  reqs : List ApxReq
  serve : List ApxServe
  /-- t1 of the time exchange in progress, in 2^-16 ns (R291). -/
  exch : Option Int
  /-- Whole milliseconds of NT at the last exchange. -/
  ms : Nat
  deriving DecidableEq, Repr

/-! ## Repair (chapter 12) -/

/-- What a move of the repair unit does (R293, R301, R303, R308, R312, R315). -/
inductive MoveOp where
  | remap
  | rotate
  | copy
  | firmware
  | microcode
  /-- The periodic test of a spare (R301): `unit` is 0, or the first bank of its cluster. -/
  | spareTest
  deriving DecidableEq, Repr

/-- A move in progress: the unit, the physical unit it takes or tests (a bank's with its cluster: 32 × cluster + bank), and TMB_MONO from
which its next step is due. -/
structure RepMove where
  op : MoveOp
  kind : Nat
  unit : Nat
  spare : Nat
  due : BitVec 64
  /-- Lines copied of a bank; the phase of a rotation: 0 waits for its instant, 1 moves, 2 tests the released unit. -/
  done : Nat
  /-- PWR_REP_REQ asked for it. -/
  req : Bool
  deriving DecidableEq, Repr

/-- An entry of the OTP repair record (R294): the logical unit, the physical unit that failed and the one that took over (none: absent). -/
structure RepEntry where
  kind : Nat
  unit : Nat
  old : Nat
  new : Option Nat
  deriving DecidableEq, Repr

/-- The repair unit beside its registers. -/
structure Repair where
  /-- Events counted in the window of each unit of each threshold class (R297), keyed class × 4096 + unit. -/
  counts : Sparse Nat
  /-- Units that have failed and wait for the repair unit: (kind, logical unit). -/
  failed : List (Nat × Nat)
  moves : List RepMove
  /-- Oldest first, at most 256. -/
  record : List RepEntry
  /-- Physical units that have failed: kind and number. -/
  bad : List (Nat × Nat)
  /-- Memory units that failed without a copy: their lines read as zeros until written (R308). -/
  lost : List (Nat × Nat)
  /-- Next line of each bank that the scrub visits (R298), keyed 16 × cluster + bank, UE banks from 128. -/
  scrub : Sparse Nat
  /-- Self-test segments done in the present period of each unit under test (R300), keyed kind × 256 + unit. -/
  segs : Sparse Nat
  /-- The period, counted from 1, of each unit's last complete self-test (R300), keyed kind × 256 + unit, of its last rotation (R301), keyed 4,096
  higher, and of the last test of each spare (R301), keyed 8,192 higher by its physical unit. -/
  tested : Sparse Nat
  /-- The unit of the last self-test segment, and TMB_MONO at which it ends. -/
  seg : Option (Nat × Nat × BitVec 64)
  deriving DecidableEq, Repr

/-! ## Power, reset groups and crossings (chapter 13) -/

/-- An external crossing (R345): a JESD link, the PCS of an optical port, a gain port. -/
inductive Crossing where
  | jesdRx (k : Fin 8)
  | jesdTx (k : Fin 8)
  | port (p : Fin 32)
  | gain (g : Fin 16)
  deriving DecidableEq, Repr

/-- The power manager beside its registers. -/
structure Power where
  /-- PWR_DOMd.state of each domain (R319 to R322): 0 off, 1 ramping, 2 on, 3 failed. -/
  dom : Vector (BitVec 2) 96
  /-- Domains on their way: the domain, the state that it will report, and `ck` at which it does (R321). -/
  ramp : List (Fin 96 × BitVec 2 × BitVec 64)
  /-- Bit N: reset group GN is held in reset. -/
  held : BitVec 6
  /-- The model's own count of FCK since standby: it runs on through resets of TMB_MONO's group. -/
  ck : BitVec 64
  /-- Sequencing (R323): 0 before step 1, 1 to 5 the step that is ramping or has ramped, 6 complete, 7 switched off by R326 or level 3 until
  sequencing starts anew. -/
  step : Nat
  /-- `ck` at which the domains of the present step report state 2. -/
  ready : BitVec 64
  /-- `ck` at which each group under PWR_RST is released (R343). -/
  release : Vector (Option (BitVec 64)) 6
  /-- RESET_N is low. -/
  resetLow : Bool
  /-- The standby rail is up (R388). -/
  standby : Bool
  /-- The AUX outputs are opened (R326, R332). -/
  auxOpen : Bool
  /-- `ck` since which every reading of tmax has reached T_max + 10 °C (R332). -/
  hotSince : Option (BitVec 64)
  /-- Sum of tmax over the seconds of PWR_THM_AVG, and the readings of the present second (R334). -/
  thmSum : Int
  thmN : Nat
  /-- Crossings one side of which alone was reset (R345). -/
  oneSided : List Crossing
  /-- The PCIE_PERST_N pin is low: driven by the M880 as a root port, by the board otherwise (R396). -/
  perstLow : Bool
  /-- `ck` of the last release of G5. -/
  g5At : BitVec 64
  deriving DecidableEq, Repr

/-- GPIO event crossings (R385): `TMB_MONO` of the last carried edge of each pin, and of the last write of SYS_GPIO_TS. -/
structure Pins where
  gpio : List (Fin 64 × BitVec 64)
  stamp : Option (BitVec 64)
  deriving DecidableEq, Repr

/-! ## Boot and security (chapter 14) -/

/-- The SEC block and the boot ROM beside their registers. -/
structure Security where
  /-- Types of the images that the present boot has installed, and `Power.ck` since which it waits for the host's next image (R360, R361). -/
  loaded : List Nat
  waits : Option (BitVec 64)
  /-- The model digests in effect (R368); SEC_MDk holds the words written. -/
  md : Vector (BitVec 512) 16
  /-- The key command in progress: `Power.ck` at which it finishes, and its bytes (R365). -/
  kcmd : Option (BitVec 64 × List (BitVec 8))
  /-- The quote in progress: `Power.ck` at which it is written, where, and its bytes (R370). -/
  quote : Option (BitVec 64 × Nat × List (BitVec 8))
  deriving DecidableEq, Repr

/-! ## Application cores and PCIe (chapter 14, R284) -/

/-- The privilege modes of a hart (R348). -/
inductive Priv where
  | m
  | hs
  | u
  | vs
  | vu
  deriving DecidableEq, Repr

/-- A line in a cache (R349): its number, which is its address / 64, its bytes, the lowest first, and whether LPDDR6 lacks them. -/
structure CacheLine where
  line : Nat
  data : BitVec 512
  dirty : Bool
  deriving DecidableEq, Repr

/-- A hart (R348, R349). -/
structure Hart where
  x : Vector (BitVec 64) 32
  f : Vector (BitVec 64) 32
  /-- The address of the instruction that it executes. -/
  pc : BitVec 64
  mode : Priv
  /-- The control and status registers, by number; one that is not listed holds its value at reset. -/
  csr : Sparse (BitVec 64)
  /-- The line that a load-reserved has reserved. -/
  lr : Option Nat
  /-- The line of a cbo.clean that completes when it has left for LPDDR6 (R351). -/
  clean : Option Nat
  l1i : List CacheLine
  l1d : List CacheLine
  l2 : List CacheLine
  deriving DecidableEq, Repr

/-- A domain of the interrupt controller beside its registers (R353): its pending and enabled sources, and the inputs at the last ck of the
sources that take them by their edges. -/
structure Aplic where
  ip : BitVec 97
  ie : BitVec 97
  inp : BitVec 97
  deriving DecidableEq, Repr

/-- The application-core complex beside its registers. -/
structure Acx where
  hart : Vector Hart 8
  l3 : List CacheLine
  /-- Lines on their way to LPDDR6, with the instant at which each left the caches. -/
  wb : List (CacheLine × BitVec 64)
  aplic : Vector Aplic 2
  deriving DecidableEq, Repr

/-- An access to control registers that has still to be performed (R352): who makes it (1 PCIe, 2 JTAG), the system address, log2 of its bytes, and
the data of a write. -/
structure RegAccess where
  src : Fin 3
  addr : Nat
  size : Fin 4
  write : Option (BitVec 64)
  deriving DecidableEq, Repr

/-- A request that the root port has sent (R381): a configuration request to bus, device and function, or a memory request of 32-bit or 64-bit
addressing; log2 of its bytes, and the data of a write. -/
inductive PcieRequest where
  | config (bus dev fn reg : Nat) (size : Fin 4) (write : Option (BitVec 64))
  | memory (wide : Bool) (addr : Nat) (size : Fin 4) (write : Option (BitVec 64))
  deriving DecidableEq, Repr

/-- The PCIe port beside PCIE_CFG (R284, R352, R381). -/
structure Pcie where
  /-- The PCIe register accesses of the present ck. -/
  late : List RegAccess
  /-- What the last read from outside, through PCIe, JTAG or I3C, returned. -/
  answer : Option (BitVec 64)
  /-- The last request of the root port. -/
  out : Option PcieRequest
  /-- The bytes of the endpoint's configuration space that the host has written. -/
  cfg : Sparse (BitVec 8)
  /-- The 64 MSI-X vectors: address, data and vector control, as PCIe lays an entry of the table out. -/
  msix : Vector (BitVec 128) 64
  deriving DecidableEq, Repr

/-! ## The whole block -/

/-- Why a command stops the model: the undefined cases of R405, each of which removes every guarantee.  Safe: the model stops
where the spec says nothing. -/
inductive Fault where
  /-- Writing 1 to a reserved bit (R5), raised by REGISTER_WRITE. Safe. -/
  | reservedBit
  /-- Reprogramming an air timeline while events are pending on it (R26, R35), raised by the time-base writes. Safe. -/
  | timelineReprogrammed
  /-- A timetable instant already in the past (R39), raised by GROUP_LAUNCH. Safe. -/
  | instantPast
  /-- Changing control flow in a delay slot (R70), raised by the tile's control-flow instructions. Safe. -/
  | flowInDelaySlot
  /-- Control flow under single-instruction repeat (R72), raised by the tile's control-flow instructions. Safe. -/
  | flowUnderRepeat
  /-- A circular buffer of length 0 (R69), raised by loads, stores and moves that post-modify a circular pointer. Safe. -/
  | circularZero
  /-- A vector register group longer than the register file (R79, R113), raised by V-slot operations. Safe. -/
  | groupTooLong
  /-- Overlapping vector register groups (R79), raised by V-slot operations. Safe. -/
  | groupOverlap
  /-- An access to a powered-off domain or an absent unit (R320, R384), raised by any command whose target is off. Safe. -/
  | poweredOff
  /-- A one-sided reset at an external crossing (R345), raised by the commands of a crossing one side of which was reset. Safe. -/
  | oneSidedReset
  /-- Changing SYS_MODE.det in service (R263), raised by REGISTER_WRITE. Safe. -/
  | detChangedInService
  /-- Two second-port writes to one scratchpad word in one ck (R65, R85, R119), raised at the end of that
  ck. Safe. -/
  | twoPortWrites
  deriving DecidableEq, Repr

/-- Why a command has no meaning in the model. -/
inductive Refusal where
  /-- The command's meaning is not written yet; raised by the dispatch. Safe. -/
  | notModelled (mnemonic : String)
  deriving DecidableEq, Repr

/-- What has happened in the present ck that other effects of the same ck must see; the next ck begins with none. -/
structure SameCk where
  /-- Cause and event bits that the M880 has set, by register word (R4). -/
  set : Sparse (BitVec 32)
  /-- Memory bytes as they stood before the ck where something other than a core port has written them (R65, R119, R129, R168). -/
  old : Sparse (BitVec 8)
  /-- Scratchpad bytes as they stood before the ck where a core port has written them (R65, R119). -/
  core : Sparse (BitVec 8)
  /-- Words (address / 4) that another port has written, with the port (`Port`). -/
  port : Sparse Nat
  /-- Two second-port phases have written one scratchpad word (R65, R119): the ck is the listed undefined case. -/
  clash : Bool
  /-- LPDDR6 bytes as they stood before the present slot where it has written them (R129). -/
  slot : Sparse (BitVec 8)
  /-- Increments of the saturation counters, by register address (R90). -/
  sat : Sparse Nat
  /-- A command of the ck has come to LPDDR6 while LCK is undriven (R337). -/
  waits : Bool
  deriving DecidableEq, Repr

/-- The state of the block. -/
structure State where
  /-- The commands that are waiting, first in, first out. -/
  pending : List Instr
  /-- Register words by system address; an unlisted word holds its Reset value. -/
  regs : Sparse (BitVec 32)
  /-- What has happened in the present ck. -/
  now : SameCk
  /-- Memory bytes by system address: LPDDR6, cluster memories, scratchpads, UE context memory; an unlisted byte reads 0. -/
  mem : Sparse (BitVec 8)
  /-- ECC errors by 64-bit word (address / 8): 1 correctable, 2 uncorrectable; an unlisted word has none. -/
  flaws : Sparse Nat
  /-- The model's own counter: how many free values have been drawn (log entry 1). -/
  fresh : Nat
  tb : TimeBase
  orr : Orrery
  /-- The 64 logical tiles. -/
  tiles : Vector Tile 64
  /-- DMA queues, Comet transfers and the LPDDR6 controller. -/
  mv : Movement
  /-- The DFE receive and transmit chains and the gain ports. -/
  fe : FrontEnd
  /-- The hard-engine units: FFT engines 0-15, the DFE job unit 16, EQ engines 17-24, LDPC decoders 25-30, encoders 31-34, polar codecs 35-36. -/
  hard : Vector HardUnit 37
  /-- Contexts, their jobs and watches. -/
  cx : Contexts
  /-- Ethernet ports and fronthaul ingress. -/
  opt : Optics
  /-- The JESD204C interface. -/
  jes : Jesd
  /-- The Apsis links. -/
  apx : Apsis
  /-- The repair unit. -/
  rep : Repair
  /-- Power manager, domains and reset groups. -/
  pwr : Power
  /-- GPIO event crossings. -/
  pins : Pins
  /-- Boot and security. -/
  sec : Security
  /-- The application cores, their caches and interrupt controller. -/
  acx : Acx
  /-- The PCIe port. -/
  pcie : Pcie
  deriving DecidableEq, Repr

/-- The time base at the release of G1 (R23, R31, R34). -/
def TimeBase.reset : TimeBase :=
  { nt := ⟨0, 0, 0⟩, mono := 0, integ := 0, yp := 0, yf := 0, near := 0, far := 0, freqHeld := 0, lastUpd := none,
    servoAt := 0, freqMs := 0, freqLost := false, ppsIn := none, expired := none, ppsLast := 0, ppsHigh := none }

/-- A halted engine. -/
def Engine.reset : Engine := { active := false, tl := 0, dec := 0, swap := none, loops := [], group := none, launching := [], scans := [] }

/-- The Orrery at the release of G1 (R43, R46). -/
def Orrery.reset : Orrery :=
  { eng := Vector.replicate 8 Engine.reset, events := [], idle := [], conjLow := true, conjHigh := false, starts := [], cons := [] }

/-- Sixty-four binary16 ones, the scales of a created context (R100). -/
def onesF16 : BitVec 1024 := BitVec.ofNat 1024 ((List.range 64).foldl (fun n _ => n * 65536 + 0x3C00) 0)

/-- An operand tile as R100 creates it. -/
def MTile.reset : MTile := { data := 0, scale := onesF16, zp := 0, sgn := false }

/-- An accumulator bank as R100 creates it: clear, of no format. -/
def MBank.reset : MBank := { cells := Vector.replicate 64 0, fmt := 15, sa := onesF16, sb := onesF16, rt := 0 }

/-- A tile at the release of G1: halted, every register 0 (log entry 5). -/
def Tile.reset : Tile :=
  { s := Vector.replicate 32 0, p := Vector.replicate 16 0, m := Vector.replicate 8 0, cb := Vector.replicate 8 0,
    cl := Vector.replicate 8 0, acc := Vector.replicate 8 0, accView := Vector.replicate 8 0, v := Vector.replicate 32 0,
    k := Vector.replicate 8 0, mt := Vector.replicate 4 MTile.reset, ab := Vector.replicate 4 MBank.reset,
    ie := false, sat := false, aov := false, inh := false, circ := 0, ien := 0, evf := 0, ira := 0, loops := [], pc := 0,
    cur := 0, slot := 0, pend := [], pmods := [], mtc := [], delay := none, rpt := none, eiHold := false,
    loopBack := false, sOld := none, skip := false, stopping := none, awaited := none, vq := [],
    undo := none, halted := true, preStop := false }

/-- The controller's working copies at the release of G1: the Reset columns (R130, R123). -/
def MemCtl.reset : MemCtl :=
  let own := BitVec.ofNat 96 ((List.range 32).foldl (fun m k => m + (k % 8) * 2 ^ (3 * k)) 0)
  { step := 0x8448448484484484, rd := 0x0000000404001E00, wr := 0x0000000404001E00, ringA := own, ringB := own }

/-- An idle DMA queue. -/
def DQueue.reset : DQueue :=
  { desc := none, prod := 0, cons := 0, seen := false, row := 0, piece := 0, comp := false, ahead := [], fifo := [], sent := 0, drop := 0,
    lag := Vector.replicate 8 0, credit := Vector.replicate 8 none, age := 0, granted := none, returned := 0, draining := false, wout := 0, hold := false, paused := false }

/-- Data movement at the release of G1. -/
def Movement.reset : Movement :=
  { mem := MemCtl.reset, q := Vector.replicate 256 DQueue.reset, cmt := Vector.replicate 64 [],
    turn := Vector.replicate 8 ⟨0, none⟩, header := Vector.replicate 64 none, slot := ⟨0, [], []⟩, taken := (0, []) }

/-- An empty symbol buffer. -/
def Branch.reset : Branch := { x := [], last := 0, step := 1, filt := 0 }

/-- A receive chain at the release of G2. -/
def RxChain.reset : RxChain :=
  { sum := 0, n := 0, snaps := [], det := 0, stopped := false, released := none, ended := none, zeroFrom := none, zeroTo := none, tested := []
    comp := 0, comps := [], sent := [], clipped := 0, b0 := Branch.reset, b1 := Branch.reset }

/-- The front end at the release of G2. -/
def FrontEnd.reset : FrontEnd :=
  { rx := Vector.replicate 64 RxChain.reset
    tx := Vector.replicate 64 { swAt := [], syms0 := [], syms1 := [], zeroFrom := none, zeroTo := none }
    port := Vector.replicate 16 { waiting := [], busy := none } }

/-- An idle unit. -/
def HardUnit.reset : HardUnit := { ptrs := [], job := none, draining := false }

/-- A context at the release of G1. -/
def Ctx.reset : Ctx :=
  { resident := false, job := none, started := false, queued := [], awaited := [], runnable := false, loaded := false,
    toSave := false, startAt := none, blockedAt := none, parkAt := 0, endedAt := 0, draining := false, writing := false,
    tear := none, age := 0, urgSeq := 0 }

/-- A free watch. -/
def Watch.reset : Watch :=
  { ctx := 0, seq := 0, tl := 0, deadline := 0, record := 0, nms := 0, onfire := false, two := false, lat := [], prog := 0, succ := 0,
    cand0 := 0, cand1 := 0, tfb0 := 0, tfb1 := 0, tst := 0, tsw := 0, e := 0, oflags := 0, outcome := 0, decided := none, seen := none, check := none }

/-- The context unit at the release of G1. -/
def Contexts.reset : Contexts :=
  { ctx := Vector.replicate 256 Ctx.reset, switches := [], watch := Vector.replicate 128 Watch.reset, pushes := [], seq := 0, urg := 0 }

/-- Ports and ingress engines at the release of G4. -/
def Optics.reset : Optics :=
  { buf := Vector.replicate 4 [], rxWait := [], esat := Vector.replicate 256 0, seqId := Vector.replicate 256 none, que := Vector.replicate 64 { batches := [], done := [], armed := false, due := false }
    port := Vector.replicate 32 { ring := Vector.replicate 4 { prod := 0, head := none }, resp := [], sending := none }
    lane := Vector.replicate 32 { lostAt := none, pulseAt := 0 }, dark := 0 }

/-- The JESD204C interface at the release of G2. -/
def Jesd.reset : Jesd :=
  { lane := Vector.replicate 48 { good := 0, seen := 0, bad := 0, lock := false, emb := false }, data := 0, zeros := Vector.replicate 8 [], lat := Vector.replicate 16 0, lemc := none, aligned := false
    edge := none }

/-- A link that is down. -/
def ApxLink.reset : ApxLink :=
  { seq := 0, expect := 0, unacked := [], wait := [], cred := Vector.replicate 3 0, owed := Vector.replicate 3 0, reject := false, replays := 0
    progress := 0, out := [] }

/-- The Apsis links at the release of G4. -/
def Apsis.reset : Apsis := { link := Vector.replicate 32 ApxLink.reset, reqs := [], serve := [], exch := none, ms := 0 }

/-- The repair unit at the release of G0: no unit has failed, nothing is recorded (R294). -/
def Repair.reset : Repair :=
  { counts := [], failed := [], moves := [], record := [], bad := [], lost := [], scrub := [], segs := [], tested := []
    seg := none }

/-- Power at the end of sequencing (R323): the domains of active units on, the spare tiles' domains 64-71 off, every group released. -/
def Power.reset : Power :=
  { dom := Vector.ofFn (fun d => if 64 ≤ d.val ∧ d.val < 72 then 0 else 2), ramp := [], held := 0, ck := 0, step := 6, ready := 0
    release := Vector.replicate 6 none, resetLow := false, standby := true, auxOpen := false, hotSince := none, thmSum := 0, thmN := 0
    oneSided := [], perstLow := false, g5At := 0 }

/-- GPIO crossings at the release of G1. -/
def Pins.reset : Pins := { gpio := [], stamp := none }

/-- The SEC block at the release of G0. -/
def Security.reset : Security := { loaded := [], waits := none, md := Vector.replicate 16 0, kcmd := none, quote := none }

/-- A hart as it leaves reset: machine mode, every register 0, the caches empty (log entry 62). -/
def Hart.reset : Hart :=
  { x := Vector.replicate 32 0, f := Vector.replicate 32 0, pc := 0, mode := .m, csr := [], lr := none, clean := none, l1i := [], l1d := [], l2 := [] }

/-- The application-core complex at the release of G5. -/
def Acx.reset : Acx := { hart := Vector.replicate 8 Hart.reset, l3 := [], wb := [], aplic := Vector.replicate 2 ⟨0, 0, 0⟩ }

/-- The PCIe port at the release of G5: every MSI-X vector masked. -/
def Pcie.reset : Pcie := { late := [], answer := none, out := none, cfg := [], msix := Vector.replicate 64 (BitVec.ofNat 128 (2 ^ 96)) }

/-- The start of a ck. -/
def SameCk.reset : SameCk := { set := [], old := [], core := [], port := [], clash := false, slot := [], sat := [], waits := false }

/-- The block right after reset: power-up sequencing has completed (R323), every reset group has just been released and
every register holds its Reset value (R6) but CLK_STAT, whose PLLs have locked; no memory byte is listed and no command waits. -/
def State.reset : State :=
  { pending := [], regs := [(0x1800300004, 0x1F)], now := SameCk.reset, mem := [], flaws := [], fresh := 0, tb := TimeBase.reset, orr := Orrery.reset,
    tiles := Vector.replicate 64 Tile.reset,
    mv := Movement.reset,
    fe := FrontEnd.reset,
    hard := Vector.replicate 37 HardUnit.reset,
    cx := Contexts.reset,
    opt := Optics.reset,
    jes := Jesd.reset,
    apx := Apsis.reset,
    rep := Repair.reset,
    pwr := Power.reset,
    pins := Pins.reset,
    sec := Security.reset,
    acx := Acx.reset,
    pcie := Pcie.reset }

end Sys2Proof.Machine
end

