-- ==== Sys2Proof/Machine/Ops.lean ====
section
/-! DEFINITION. The named operations over the state: register words and fields, memory, free values, time, the power and
reset guard, and outcomes. -/

namespace Sys2Proof.Machine

/-- The outcome of a command. -/
abbrev Res := Host.Outcome State Fault Refusal

/-- Go on with `f` after a next state. -/
def andThen (r : Res) (f : State → Res) : Res :=
  match r with
  | .next s => f s
  | .fault e => .fault e
  | .refused e => .refused e

/-- Fault with `e` when `c` holds, else go on. -/
def faultIf (c : Bool) (e : Fault) (r : Res) : Res := if c then .fault e else r

/-! ## Registers -/

/-- The register word at a system address. -/
def State.word (s : State) (a : Nat) : BitVec 32 := s.regs.read resetWord a

/-- Store a register word. -/
def State.setWord (s : State) (a : Nat) (v : BitVec 32) : State := { s with regs := s.regs.write resetWord a v }

/-- `n` consecutive register words from `a`, least significant first, as one number (R383). -/
def State.words (s : State) (a : Nat) : Nat → Nat
  | 0 => 0
  | n + 1 => (s.word a).toNat + State.words s (a + 4) n * 2 ^ 32

/-- Store a number in `n` consecutive register words from `a`. -/
def State.setWords (s : State) (a : Nat) : Nat → Nat → State
  | 0, _ => s
  | n + 1, v => State.setWords (s.setWord a (BitVec.ofNat 32 v)) (a + 4) n (v / 2 ^ 32)

/-- First register word of a field, its bit offset there, and the number of words it touches. -/
def Fld.span (f : Fld) : Nat × Nat × Nat := (f.addr + 4 * (f.lo / 32), f.lo % 32, (f.lo % 32 + f.w + 31) / 32)

/-- Read a register field. -/
def State.get (s : State) (f : Fld) : Nat :=
  let (a, sh, n) := f.span
  bitsOf (s.words a n) sh f.w

/-- Write a register field; the other bits of its words keep their values. -/
def State.put (s : State) (f : Fld) (v : Nat) : State :=
  let (a, sh, n) := f.span
  s.setWords a n (setBitsOf (s.words a n) sh f.w v)

/-- A one-bit field as a truth value. -/
def State.flag (s : State) (f : Fld) : Bool := s.get f ≠ 0

/-- The bits of the register word at `a` that the M880 has set in the present ck. -/
def State.setNow (s : State) (a : Nat) : BitVec 32 := s.now.set.read (fun _ => 0) a

/-- The M880 sets bit `i` of the register word at `a`, or of a word after it, in the present ck (R4). -/
def State.markSet (s : State) (a i : Nat) : State :=
  let b := a + 4 * (i / 32)
  { s with now := { s.now with set := s.now.set.write (fun _ => 0) b (s.setNow b ||| BitVec.ofNat 32 (2 ^ (i % 32))) } }

/-- The M880 sets a one-bit field. -/
def State.raise (s : State) (f : Fld) : State := (s.put f 1).markSet f.addr f.lo

/-- Set a one-bit field when `c` holds. -/
def State.raiseIf (s : State) (c : Bool) (f : Fld) : State := if c then s.raise f else s

/-- The M880 sets bit `i` of a field of several bits. -/
def State.raiseBit (s : State) (f : Fld) (i : Nat) : State := (s.put f (s.get f ||| 2 ^ i)).markSet f.addr (f.lo + i)

/-- A signed field. -/
def State.getS (s : State) (f : Fld) : Int := sCast f.w (s.get f)

/-- Increment a 32-bit counter field, which wraps at 2^32. -/
def State.count (s : State) (f : Fld) : State := s.put f (s.get f + 1)

/-! ## Regions of the address map (R380, R119) -/

/-- Base of cluster memory Cc. -/
def clusterBase (c : Nat) : Nat := 0x1000000000 + 0x1000000 * c

/-- Base of the scratchpad window of Ln. -/
def spadBase (n : Nat) : Nat := 0x1100000000 + 0x400000 * n

/-- Base of the UE context memory. -/
def ueBase : Nat := 0x1200000000

/-- A region of the address map that movement can reach (R380). -/
inductive Region where
  | lpddr
  | hole
  | cluster (c : Nat)
  | spad (n : Nat)
  /-- The second 2 MiB of a scratchpad window, which reads 0 and ignores writes (R119). -/
  | spadHigh (n : Nat)
  | ue
  | other
  deriving DecidableEq, Repr

/-- The region of a system address. -/
def regionOf (a : Nat) : Region :=
  if a < 0x0F00000000 then .lpddr
  else if a < 0x1000000000 then .hole
  else if a < 0x1008000000 then .cluster ((a - 0x1000000000) / 0x1000000)
  else if a < 0x1100000000 then .other
  else if a < 0x1110000000 then
    let n := (a - 0x1100000000) / 0x400000
    if (a - 0x1100000000) % 0x400000 < 0x200000 then .spad n else .spadHigh n
  else if a < 0x1200000000 then .other
  else if a < 0x1201000000 then .ue
  else .other

/-- The threshold class and unit of a memory address (R297): tile, bank, UE bank or LPDDR6 channel. -/
def checkUnit (a : Nat) : Option (Nat × Nat) :=
  match regionOf a with
  | .spad n => some (0, n)
  | .cluster c => some (1, 16 * c + a / 64 % 16)
  | .ue => some (2, a / 64 % 16)
  | .lpddr => some (3, a / 64 % 15)
  | _ => none

/-! ## Memory -/

/-- What a memory byte that nothing has written reads as (log entry 4). -/
def memDefault (_ : Nat) : BitVec 8 := 0

/-- The memory byte at a system address. -/
def State.byte (s : State) (a : Nat) : BitVec 8 := s.mem.read memDefault a

/-- The address lies in a memory unit that failed without a copy (R308). -/
def State.lostAt (s : State) (a : Nat) : Bool :=
  !s.rep.lost.isEmpty && match checkUnit a with
    | some u => s.rep.lost.contains u
    | none => false

/-- The ECC error at the 64-bit word of a memory address (R316): 0 none, 1 correctable, 2 uncorrectable; a word of a lost unit reads as
uncorrectable until it is written (R308). -/
def State.flaw (s : State) (a : Nat) : Nat :=
  match s.flaws.find (a / 8) with
  | some e => e
  | none => if s.lostAt a then 2 else 0

/-- The errors left after a write to the word of a memory address: the word is sound again. -/
def State.healed (s : State) (a : Nat) : Sparse Nat := if s.lostAt a then s.flaws.insert (a / 8) 0 else s.flaws.erase (a / 8)

/-- Store a memory byte. -/
def State.setByte (s : State) (a : Nat) (b : BitVec 8) : State := { s with mem := s.mem.write memDefault a b, flaws := s.healed a }

/-- `n` bytes from `a`. -/
def State.bytes (s : State) (a : Nat) : Nat → List (BitVec 8)
  | 0 => []
  | n + 1 => s.byte a :: State.bytes s (a + 1) n

/-- Store bytes from `a` upwards. -/
def State.setBytes (s : State) (a : Nat) : List (BitVec 8) → State
  | [] => s
  | b :: bs => State.setBytes (s.setByte a b) (a + 1) bs

/-- A little-endian number of `n` bytes at `a`. -/
def State.le (s : State) (a n : Nat) : Nat := natOfBytes (s.bytes a n)

/-- Store a little-endian number of `n` bytes at `a`. -/
def State.setLe (s : State) (a n v : Nat) : State := s.setBytes a (bytesOf n v)

/-- Memory is in its canonical form. -/
def Memory.wf (s : State) : Bool := s.mem.wf memDefault

/-- The register file is in its canonical form. -/
def Regs.wf (s : State) : Bool := s.regs.wf resetWord

/-! ## Accesses of one ck (R65, R119, R129, R168)

A port of a memory is a number: of a scratchpad's second port 1 the vector unit, 2 to 6 the D phase in the order in which it performs the accesses of one
ck (context unit, memory plane, tile plane, ring A, ring B), 7 the Comet path and the application-core window, 8 the repair unit; of a cluster memory 9 is
the ingress write plane and any other number the crossbar. -/

/-- A memory byte as a core port reads it: as it stood before the ck where another port has written it in this ck (R65). -/
def State.coreByte (s : State) (a : Nat) : BitVec 8 :=
  match s.now.old.find a with
  | some b => b
  | none => s.byte a

/-- A scratchpad byte as a phase of the second port reads it: as it stood before the ck (R119). -/
def State.phaseByte (s : State) (a : Nat) : BitVec 8 :=
  match s.now.core.find a with
  | some b => b
  | none => s.coreByte a

/-- A memory byte as the crossbar or a second port reads it: a scratchpad's as it stood before the ck (R119), a cluster memory's as it stood before
a write of the ingress write plane in this ck (R168). -/
def State.before (s : State) (a : Nat) : BitVec 8 :=
  match regionOf a with
  | .spad _ => s.phaseByte a
  | .cluster _ => if s.now.port.find (a / 4) = some 9 then s.coreByte a else s.byte a
  | _ => s.byte a

/-- A memory byte as a position of an LPDDR6 slot reads it: as it stood before the slot (R129). -/
def State.slotByte (s : State) (a : Nat) : BitVec 8 :=
  match s.now.slot.find a with
  | some b => b
  | none => s.before a

/-- The D phase of a scratchpad's second port performs the accesses of port `p` (R119). -/
def dPhase (p : Nat) : Bool := 2 ≤ p && p ≤ 6

/-- Port `p` writes a byte of memory, whose earlier value is noted. -/
def State.portByte (s : State) (p a : Nat) (b : BitVec 8) : State :=
  let old := if (s.now.old.find a).isSome || (s.now.core.find a).isSome then s.now.old else s.now.old.insert a (s.byte a)
  let u := s.setByte a b
  { u with now := { u.now with old := old, port := u.now.port.insert (a / 4) p } }

/-- Port `p` writes byte `a` of a scratchpad: over the core's write of the word in this ck the core's value stays (R65); D-phase accesses act in
their order; two other phases clash (R119). -/
def State.spadByte (s : State) (p a : Nat) (b : BitVec 8) : State :=
  if (List.range 4).any fun i => (s.now.core.find (a / 4 * 4 + i)).isSome then s
  else match s.now.port.find (a / 4) with
    | none => s.portByte p a b
    | some q =>
      if dPhase p && dPhase q then (if q ≤ p then s.portByte p a b else s)
      else
        let u := s.portByte p a b
        if p = q then u else { u with now := { u.now with clash := true } }

/-- Port `p` stores a byte where memory lies; the write is dropped elsewhere. Over a crossbar write of the word in this ck the ingress write
plane's value is dropped (R168). -/
def State.putByte (s : State) (p a : Nat) (b : BitVec 8) : State :=
  match regionOf a with
  | .spad _ => s.spadByte p a b
  | .cluster _ => if p = 9 && s.now.port.find (a / 4) ≠ none && s.now.port.find (a / 4) ≠ some 9 then s else s.portByte p a b
  | .ue => s.setByte a b
  | .lpddr =>
    let slot := if (s.now.slot.find a).isSome then s.now.slot else s.now.slot.insert a (s.byte a)
    let u := s.setByte a b
    { u with now := { u.now with slot := slot } }
  | _ => s

/-- Port `p` stores bytes from `a` upwards. -/
def State.putBytes (s : State) (p a : Nat) : List (BitVec 8) → State
  | [] => s
  | b :: bs => State.putBytes (s.putByte p a b) p (a + 1) bs

/-! ## Free values -/

/-- Draw a free value of `w` bits (log entry 1). -/
def State.draw (s : State) (w : Nat) : BitVec w × State := (Config.freeValue w s.fresh, { s with fresh := s.fresh + 1 })

/-- Draw `n` free bytes. -/
def State.drawBytes (s : State) : Nat → List (BitVec 8) × State
  | 0 => ([], s)
  | n + 1 =>
    let (b, s1) := s.draw 8
    let (bs, s2) := State.drawBytes s1 n
    (b :: bs, s2)

/-- Draw a number from 0 to `bound` (R12, log entry 2). -/
def State.drawWithin (s : State) (bound : Nat) : Nat × State :=
  (Config.within bound s.fresh, { s with fresh := s.fresh + 1 })

/-- Put free bytes into `n` bytes of memory from `a`. -/
def State.scramble (s : State) (a n : Nat) : State :=
  let (bs, s1) := s.drawBytes n
  s1.setBytes a bs

/-! ## Time -/

/-- Two instants of TMB_MONO lie in one ek (two ck). -/
def sameEk (a b : BitVec 64) : Bool := a.toNat / 2 = b.toNat / 2

/-- NT as a count of 2^-40 ns. -/
def NT.total (t : NT) : Nat := (t.sec.toNat * 1000000000 + t.ns) * Config.ntFrac + t.frac.toNat

/-- NT from a count of 2^-40 ns; the seconds wrap at 2^48. -/
def NT.ofTotal (n : Nat) : NT :=
  let q := n / Config.ntFrac
  { sec := BitVec.ofNat 48 (q / 1000000000), ns := q % 1000000000, frac := BitVec.ofNat 40 (n % Config.ntFrac) }

/-- NT in ns, exact. -/
def NT.nsQ (t : NT) : Rat := (t.total : Rat) / ((Config.ntFrac : Nat) : Rat)

/-- TMB_MONO. -/
def State.mono (s : State) : BitVec 64 := s.tb.mono

/-- ck of TMB_MONO since an earlier reading. -/
def State.since (s : State) (m : BitVec 64) : Nat := (s.tb.mono - m).toNat

/-- `a` is not later than `b`, as TMB_MONO values. -/
def monoLe (a b : BitVec 64) : Bool := (b - a).toInt ≥ 0

/-- The air-tick count of a timeline (R24) at a network time. -/
def airCount (t : NT) (epoch off : Nat) : Nat :=
  let d := t.nsQ - ((epoch * 1000000000 : Nat) : Rat)
  let raw := (d * 1536 / 3125).floor
  ((raw + off) % (Config.airWrap : Int)).toNat

/-- Timeline `n` counts (R26). -/
def State.timelineOn (s : State) (n : Nat) : Bool := s.flag (TMB_ATn_CFG.en n)

/-- `at_now(n)` (R9, R24, R26): the present air time; 0 while the timeline is disabled. -/
def State.atNow (s : State) (n : Nat) : Nat :=
  if s.timelineOn n then airCount s.tb.nt (s.get TMB_EPOCH.sec) (s.get (TMB_ATn_OFF.off n)) else 0

/-- The difference a − b of R10, in the range −2,516,582,400 to 2,516,582,399. -/
def airDiff (a b : Nat) : Int :=
  let d := ((a : Int) - b) % (Config.airWrap : Int)
  if d < 2516582400 then d else d - Config.airWrap

/-- `a` is later than `b` (R10). -/
def airLater (a b : Nat) : Bool := airDiff a b > 0

/-- The air instant `t` of timeline `n` is reached (R25): it is not later than at_now(n). -/
def State.airReached (s : State) (n t : Nat) : Bool := s.timelineOn n && !airLater t (s.atNow n)

/-- Addition of air ticks under the wrap of R10. -/
def airAdd (a b : Nat) : Nat := (a + b) % Config.airWrap

/-- SYS_MODE.det. -/
def State.det (s : State) : Bool := s.flag SYS_MODE.det

/-! ## Power and reset guards (R320, R344, R384) -/

/-- Domain `d` is on. -/
def State.domOn (s : State) (d : Nat) : Bool := nthD s.pwr.dom.toList d 0 = 2

/-- Reset group `g` is held in reset. -/
def State.held (s : State) (g : Nat) : Bool := s.pwr.held.getLsbD g

/-- FCK runs: the MPLL is locked (R335, R337). -/
def State.fck (s : State) : Bool := s.flag CLK_STAT.mpll

/-- LCK is driven: the LPLL is locked (R335, R337). -/
def State.lck (s : State) : Bool := s.flag CLK_STAT.lpll

/-- ACK is driven: the APLL is locked (R335, R337). -/
def State.ack (s : State) : Bool := s.flag CLK_STAT.apll

/-- An access to memory at `a` while LCK is undriven waits where LPDDR6 lies there (R337); one while G1 is held in reset, whose blocks hold every
memory, sets rstacc (R344). -/
def State.noteAccess (s : State) (a : Nat) : State :=
  let s := s.raiseIf (s.held 1) PWR_CAUSE.rstacc
  if !s.lck && regionOf a = .lpddr then { s with now := { s.now with waits := true } } else s

/-- The effect `f` of a command of group `g`. While G1 is held in reset, memory reads 0 to another group and its writes have no effect (R344); a
command that comes to LPDDR6 while LCK is undriven has no effect yet (R337, log entry 52). -/
def reached (g : Nat) (s : State) (f : State → Res) : Res :=
  if s.lck && !(2 ≤ g && s.held 1) then f s
  else
    let blind : Bool := 2 ≤ g && s.held 1
    match f (if blind then { s with mem := [], flaws := [] } else s) with
    | .next t =>
      if t.now.waits && !s.now.waits then .next s
      else if !blind then .next t
      else
        let u := t.raiseIf (!t.mem.isEmpty) PWR_CAUSE.rstacc
        .next { u with mem := s.mem, flaws := s.flaws, now := { s.now with set := u.now.set, sat := u.now.sat } }
    | r => r

/-- The effect `f` of an access from outside to a unit in domain `d` and reset group `g`: an access to a unit that is off is the
undefined case of R320, an access to a group in reset has no effect and sets PWR_CAUSE.rstacc (R344); without FCK nothing moves (R337). -/
def access (d g : Nat) (s : State) (f : State → Res) : Res :=
  if !s.fck then .next s
  else if !s.domOn d then .fault .poweredOff
  else if s.held g then .next (s.raise PWR_CAUSE.rstacc)
  else reached g s f

/-- The effect `f` of a unit's own event in domain `d` and reset group `g`: nothing happens in a unit that is off, in reset or without its
clock. -/
def inside (d g : Nat) (s : State) (f : State → Res) : Res := if s.fck && s.domOn d && !s.held g then reached g s f else .next s

/-- The physical unit of logical unit `u` of kind `k` (PWR_REP_UMAP, R293). -/
def State.phys (s : State) (k u : Nat) : Nat := s.get (PWR_REP_UMAP.phys k (u / 4) (u % 4))

/-- Logical unit `u` of kind `k` is absent (R295). -/
def State.absent (s : State) (k u : Nat) : Bool := s.flag (PWR_REP_UMAP.absent k (u / 4) (u % 4))

/-- A remap of logical unit `u` of kind `k` waits or is in progress (R303, R307). -/
def State.unitHeld (s : State) (k u : Nat) : Bool :=
  s.rep.failed.contains (k, u) || s.rep.moves.any fun m => m.kind = k && m.unit = u && m.op = .remap

/-- The domain of the physical tile of logical tile `n` (R319). -/
def State.tileDom (s : State) (n : Nat) : Nat := s.phys 0 n

/-- Logical tile `n` is present and powered (R306, R320). -/
def State.tileOn (s : State) (n : Nat) : Bool := !s.absent 0 n && s.domOn (s.tileDom n)

/-- The effect `f` of an access from outside to logical tile `n` (R306, R344, R384). -/
def accessTile (n : Nat) (s : State) (f : State → Res) : Res :=
  if !s.fck then .next s
  else if !s.tileOn n then .fault .poweredOff
  else if s.held 1 then .next (s.raise PWR_CAUSE.rstacc)
  else f s

/-- Traffic on an external crossing one side of which alone was reset is the undefined case of R345. -/
def crossing (x : Crossing) (s : State) (r : Res) : Res := faultIf (s.pwr.oneSided.contains x) .oneSidedReset r

/-- `access` to logical unit `u` of kind `k`: an absent unit is off (R295, R320). -/
def accessUnit (d g k u : Nat) (s : State) (f : State → Res) : Res :=
  access d g s fun s => if s.absent k u then .fault .poweredOff else f s

/-- `inside` for logical unit `u` of kind `k`: nothing happens in an absent unit, nor in one that waits for its remap. -/
def insideUnit (d g k u : Nat) (s : State) (f : State → Res) : Res :=
  inside d g s fun s => if s.absent k u || s.unitHeld k u then .next s else f s

end Sys2Proof.Machine
end

