-- ==== Sys2Proof/Machine/Flags.lean ====
section
/-! DEFINITION. The flags of the tile core: event flags and TIL_CAUSE, the status bits of CST, and the conditions of branches. -/

namespace Sys2Proof.Machine

/-- Tile `t`. -/
def State.tile (s : State) (t : Fin 64) : Tile := s.tiles[t.val]

/-- Replace tile `t`. -/
def State.withTile (s : State) (t : Fin 64) (f : Tile → Tile) : State :=
  { s with tiles := s.tiles.set t.val (f s.tiles[t.val]) }

/-- Set event flag `k` of tile `t`; a flag already set stays set and sets TIL_CAUSE.evf_ovr (R74). -/
def State.setFlag (s : State) (t : Fin 64) (k : Nat) : State :=
  let s := s.raiseIf ((s.tile t).evf.getLsbD k) (TIL_CAUSE.evf_ovr t)
  s.withTile t (fun x => { x with evf := x.evf ||| BitVec.ofNat 32 (2 ^ k) })

/-- An event of the M880 sets event flag `k` of tile `t`, in this ck (R4, R74); one that comes while G1 is held in reset has no effect (R344). -/
def State.setEvf (s : State) (t : Fin 64) (k : Nat) : State :=
  if s.held 1 then s.raise PWR_CAUSE.rstacc else (s.setFlag t k).markSet (TIL_EVF.reg t) k

/-- Set every event flag of a mask (R74). -/
def State.setEvfs (s : State) (t : Fin 64) (m : BitVec 32) : State :=
  (onesOf 32 m.toNat).foldl (fun s k => s.setFlag t k) s

/-- Clear the event flags of a mask (R50, R73). -/
def State.clearEvfs (s : State) (t : Fin 64) (m : BitVec 32) : State :=
  s.withTile t (fun x => { x with evf := x.evf &&& ~~~m })

/-- CST as MFC reads it (R50). -/
def Tile.cst (x : Tile) : BitVec 32 :=
  BitVec.ofNat 32 (x.ie.toNat + 2 * x.sat.toNat + 4 * x.aov.toNat + 8 * x.inh.toNat)

/-- A value as an 80-bit accumulator; any wrap sets CST.aov (R56). -/
def Tile.setAcc (x : Tile) (i : Fin 8) (v : Int) : Tile :=
  let w := BitVec.ofInt 80 v
  { x with acc := x.acc.set i.val w
           aov := x.aov || w.toInt ≠ v
           pend := x.pend ++ [⟨x.slot + 3, .accView i, w⟩] }

/-- The branch condition of R54 on the value of `sa`. -/
def condHolds (evf : BitVec 32) (a : BitVec 32) (c : Fin 8) : Bool :=
  match c.val with
  | 0 => true
  | 1 => a = 0
  | 2 => a ≠ 0
  | 3 => a.toInt < 0
  | 4 => a.toInt ≥ 0
  | 5 => a.toInt > 0
  | 6 => a.toInt ≤ 0
  | _ => evf.getLsbD (a.toNat % 32)

end Sys2Proof.Machine
end

