-- ==== Sys2Proof/Machine/RepLog.lean ====
section
/-! DEFINITION. The repair log and the threshold counts that every failed check of the integrity map feeds (R297, R316, R318). -/

namespace Sys2Proof.Machine

/-- A count or position of a sparse table of numbers. -/
def num (m : Sparse Nat) (k : Nat) : Nat := m.read (fun _ => 0) k

/-- Set a count or position of a sparse table of numbers. -/
def setNum (m : Sparse Nat) (k v : Nat) : Sparse Nat := m.write (fun _ => 0) k v

/-- Write one record to the repair log (R297) and set PWR_REP_CAUSE.log; the log wraps after entry 63. -/
def State.repLog (s : State) (cls kind unit addr : Nat) : State :=
  let i := s.get PWR_REP_LOGP.next
  let s := (s.put (PWR_REP_LOGi.mono i) s.mono.toNat).put (PWR_REP_LOGi.class i) cls
  let s := ((s.put (PWR_REP_LOGi.kind i) kind).put (PWR_REP_LOGi.unit i) unit).put (PWR_REP_LOGi.addr i) addr
  (s.put PWR_REP_LOGP.next (i + 1)).raise PWR_REP_CAUSE.log

/-- The repair kind (R293) of the units of a threshold class (R297), for the classes whose unit a move can replace. -/
def thrKind : Nat → Option Nat
  | 0 => some 0 | 1 => some 1 | 2 => some 2 | 3 => some 3 | 4 => some 12 | 6 => some 8 | _ => none

/-- PWR_REP_THRk.n, where the n of class 7 written as 0 stands for 2^20. -/
def State.thrN (s : State) (k : Nat) : Nat :=
  let n := s.get (PWR_REP_THRk.n k)
  if k = 7 && n = 0 then 2 ^ 20 else n

/-- The samples of a DFE chain that has failed, kind 4 or 5, read as 0 from now on (R307). -/
def State.silence (s : State) (kind unit : Nat) : State :=
  if kind = 4 then
    let t := s.atNow (s.get (DFE_RXc_CFG.at unit))
    let x := nthD s.fe.rx.toList unit RxChain.reset
    { s with fe := { s.fe with rx := s.fe.rx.setIfInBounds unit { x with zeroFrom := some (x.zeroFrom.getD t), zeroTo := none } } }
  else if kind = 5 then
    let t := s.atNow (s.get (DFE_TXc_CFG.at unit))
    let x := nthD s.fe.tx.toList unit FrontEnd.reset.tx[0]
    { s with fe := { s.fe with tx := s.fe.tx.setIfInBounds unit { x with zeroFrom := some (x.zeroFrom.getD t), zeroTo := none } } }
  else s

/-- Name a unit as failed, once, for the repair unit (R303). -/
def State.fail (s : State) (kind unit : Nat) : State :=
  if s.rep.failed.contains (kind, unit) then s
  else
    let s := s.silence kind unit
    { s with rep := { s.rep with failed := s.rep.failed ++ [(kind, unit)] } }

/-- What a threshold crossing with auto = 1 starts (R297, R356): the unit is named as failed; class 4 moves no core and asks the operating
system to move the hart; classes 5 and 7 start nothing. -/
def State.crossed (s : State) (k unit : Nat) : State :=
  if k = 4 then (s.raiseBit ACX_HPARK.evict unit).raise ACX_CAUSE.evict
  else match thrKind k with
    | some kd => s.fail kd unit
    | none => s

/-- Count `n` events of class `k` toward `unit` (R297): a count that reaches the threshold sets det, logs class 6 and, with auto = 1, starts
what `crossed` says. A window of 0 ms disables the class. -/
def State.countEvents (s : State) (k unit n : Nat) : State :=
  if s.get (PWR_REP_THRk.ms k) = 0 then s
  else
  let old := num s.rep.counts (k * 4096 + unit)
  let s := { s with rep := { s.rep with counts := setNum s.rep.counts (k * 4096 + unit) (old + n) } }
  if old < s.thrN k && s.thrN k ≤ old + n then
    let s := (s.raise PWR_REP_CAUSE.det).repLog 6 ((thrKind k).getD 0) unit 0
    if s.flag PWR_REP_CTL.auto then s.crossed k unit else s
  else s

/-- A failed parity check, which detects only: one record of class 2, and 16 events toward threshold class `k` (R297). -/
def State.parityFailed (s : State) (k kind unit : Nat) : State := (s.repLog 2 kind unit 0).countEvents k unit 16

/-- A failed CRC, FCS or FEC check of a stream, port or link: one record of class 5 (R297, R318). -/
def State.crcFailed (s : State) (unit : Nat) : State := s.repLog 5 0 unit 0

/-- `n` failed checks of one ck: a record each, of which the log's 64 entries hold the last. -/
def State.crcsFailed (s : State) (unit n : Nat) : State := iter (fun s => s.crcFailed unit) (if n < 128 then n else 64 + n % 64) s

/-- A parity error of a network-on-chip flit that moves data of cluster `c` (R297, R316). -/
def State.nocParity (s : State) (c : Nat) : State := s.parityFailed 5 0 c

/-- A failed check: one record of class `cls`, and the events it counts toward threshold class `k` (16 when it cannot be
corrected). -/
def State.checkFailed (s : State) (k unit addr : Nat) (correctable : Bool) : State :=
  let s := s.repLog (if correctable then 0 else 1) ((thrKind k).getD 0) unit addr
  s.countEvents k unit (if correctable then 1 else 16)

end Sys2Proof.Machine
end

