-- ==== Sys2Proof/Machine/Memc.lean ====
section
/-! DEFINITION. The memories by system address, and the LPDDR6 controller: slots, reservations and the frame start (chapter 06,
R119, R123 to R131, R380). -/

namespace Sys2Proof.Machine

/-- The unit behind a region is on (R319, R320): LPDDR6 needs its controller, VDD2 and VDDQ domains. -/
def State.regionOn (s : State) : Region → Bool
  | .lpddr | .hole => s.domOn 83 && s.domOn 84 && s.domOn 85
  | .cluster c => s.domOn (72 + c)
  | .spad n | .spadHigh n => s.tileOn n
  | .ue => s.domOn 82
  | .other => true

/-- The region holds bytes. -/
def Region.backed : Region → Bool
  | .lpddr | .cluster _ | .spad _ | .ue => true
  | _ => false

/-- The memory unit behind an address is on: its region, and its bank or channel where one is named (R295, R320). -/
def State.addrOn (s : State) (a : Nat) : Bool :=
  s.regionOn (regionOf a) && match checkUnit a with
    | some (k, u) => k = 0 || !s.absent k u
    | none => true

/-- The units of a range of `n` bytes are on: its ends, and the banks or channels that its lines take in turn. -/
def State.rangeOn (s : State) (a n : Nat) : Bool :=
  s.addrOn a && s.addrOn (a + n - 1) && (List.range (min 16 (n / 64))).all fun i => s.addrOn (a + 64 * i)

/-- An access that reaches the unbacked range records it (R125). -/
def State.noteHole (s : State) (a : Nat) : State :=
  if regionOf a = .hole then (s.raise MEMC_CAUSE.hole).put MEMC_HOLEA.addr a else s

/-- An access of `n` bytes from `a` that reaches the unbacked range records where it first does. -/
def State.noteHoles (s : State) (a n : Nat) : State :=
  if regionOf a = .lpddr && regionOf (a + n - 1) = .hole then s.noteHole 0x0F00000000 else s.noteHole a

/-- A read that does not pass a tile's core port checks ECC (R316): errors are logged and counted, the data delivered unmarked. -/
def State.checkRead (s : State) (a n : Nat) : State :=
  let s := s.noteAccess a
  if s.flaws.isEmpty && s.rep.lost.isEmpty then s
  else (List.range ((a + n + 7) / 8 - a / 8)).foldl (fun s i =>
    let w := 8 * (a / 8 + i)
    match s.flaw w, checkUnit w with
    | 0, _ => s
    | e, some (k, u) => s.checkFailed k u w (decide (e = 1))
    | _, none => s) s

/-- One byte as an engine or the fabric reads it: as it stood before the ck (R119, R168), and zeros where nothing lies. -/
def State.sysByte (s : State) (a : Nat) : BitVec 8 := if (regionOf a).backed then s.before a else 0

/-- `n` bytes from `a` as movement reads them. -/
def State.sysBytes (s : State) (a n : Nat) : List (BitVec 8) := (List.range n).map (fun i => s.sysByte (a + i))

/-- A read of `n` bytes by movement, with its checks and its hole report. -/
def State.sysRead (s : State) (a n : Nat) : List (BitVec 8) × State :=
  if n = 0 then ([], s) else (s.sysBytes a n, (s.checkRead a n).noteHoles a n)

/-- A read of `n` bytes that lie in memory, as a position of an LPDDR6 slot reads them (R129), with its checks. -/
def State.slotRead (s : State) (a n : Nat) : List (BitVec 8) × State :=
  ((List.range n).map fun i => if (regionOf (a + i)).backed then s.slotByte (a + i) else 0, s.checkRead a n)

/-- Store bytes from `a` upwards through the crossbar and the memory plane; writes where no memory lies are dropped. -/
def State.sysPut (s : State) (a : Nat) (bs : List (BitVec 8)) : State := s.putBytes 3 a bs

/-- A write by port `p`, with its hole report. -/
def State.sysWriteBy (s : State) (p a : Nat) (bs : List (BitVec 8)) : State :=
  if bs.isEmpty then s else ((s.putBytes p a bs).noteHoles a bs.length).noteAccess a

/-- A write by movement through the crossbar and the memory plane, with its hole report. -/
def State.sysWrite (s : State) (a : Nat) (bs : List (BitVec 8)) : State := s.sysWriteBy 3 a bs

/-- Set `n` bytes from `a` to what an unlisted byte reads as. -/
def State.clearRange (s : State) (a n : Nat) : State :=
  let s := { s with mem := s.mem.filter (fun e => decide (e.1 < a) || decide (a + n ≤ e.1)) }
  if s.rep.lost.isEmpty then { s with flaws := s.flaws.filter (fun e => decide (8 * e.1 + 7 < a) || decide (a + n ≤ 8 * e.1)) }
  else iter (fun (p : State × Nat) => ({ p.1 with flaws := p.1.healed p.2 }, p.2 + 8)) ((n + 7) / 8) (s, a) |>.1

/-- Copy `n` bytes from `src` to `dst`. -/
def State.copyRange (s : State) (src dst n : Nat) : State :=
  let moved := s.mem.filter (fun e => decide (src ≤ e.1) && decide (e.1 < src + n))
  moved.foldl (fun s e => s.setByte (e.1 - src + dst) e.2) (s.clearRange dst n)

/-! ## Slots and positions (R126, R127, R130) -/

/-- Replace the movement state. -/
def State.withMv (s : State) (f : Movement → Movement) : State := { s with mv := f s.mv }

/-- The share of step `c` in force: 0 read, 1 write, 2 remote, 3 unused. -/
def MemCtl.share (m : MemCtl) (c : Nat) : Nat := bitsOf m.step.toNat (2 * c) 2

/-- Slots of a share in one frame: 31 for each of its steps (R126). -/
def MemCtl.slots (m : MemCtl) (share : Nat) : Nat :=
  31 * ((List.range 32).filter (fun c => m.share c = share)).length

/-- The reservation word of a share: read 0, write 1. -/
def MemCtl.rsv (m : MemCtl) (share : Nat) : BitVec 64 := if share = 0 then m.rd else m.wr

/-- Lines of a reservation of `n` lines a frame that slot `i` of `t` receives (R127). -/
def spread (n i t : Nat) : Nat := n * (i + 1) / t - n * i / t

/-- The positions of slot `i` of a read or write share: Comet, swap, ACX and fabric, and whether they were clipped (R127). -/
def MemCtl.slot (m : MemCtl) (share i : Nat) : Nat × Nat × Nat × Nat × Bool :=
  let r := (m.rsv share).toNat
  let t := m.slots share
  let comet := min 8 (bitsOf r 32 4)
  let swap := spread (bitsOf r 0 16) i t
  let acx := spread (bitsOf r 16 16) i t
  let swap' := min swap (45 - comet)
  let acx' := min acx (45 - comet - swap')
  (comet, swap', acx', 45 - comet - swap' - acx', decide (comet + swap + acx > 45))

/-- Fabric positions of a share in one frame. -/
def MemCtl.fabricTotal (m : MemCtl) (share : Nat) : Nat :=
  (List.range (m.slots share)).foldl (fun n i => n + (m.slot share i).2.2.2.1) 0

/-- A reservation of some slot of the frame is clipped. -/
def MemCtl.clipped (m : MemCtl) : Bool :=
  [0, 1].any (fun sh => (List.range (m.slots sh)).any (fun i => (m.slot sh i).2.2.2.2))

/-- Fabric positions of a share that fall to cluster `c` in one frame (R131). -/
def MemCtl.clusterShare (m : MemCtl) (share c : Nat) : Nat := (m.fabricTotal share + 7 - c) / 8

/-- The share of slot `i` of a frame: none in a refresh slot (R126). -/
def MemCtl.slotShare (m : MemCtl) (i : Nat) : Option Nat := if i % 32 = i / 32 then none else some (m.share (i % 32))

/-- Which slot of its share slot `i` of a frame is, from 0 (R127). -/
def MemCtl.slotIndex (m : MemCtl) (share i : Nat) : Nat := ((List.range i).filter fun j => m.slotShare j = some share).length

/-- Fabric positions of a share in the slots before its slot `i` of the frame. -/
def MemCtl.fabricBefore (m : MemCtl) (share i : Nat) : Nat := (List.range i).foldl (fun n j => n + (m.slot share j).2.2.2.1) 0

/-- The slots of a share hold swap positions (R147). -/
def MemCtl.swapSlots (m : MemCtl) (share : Nat) : Bool := (List.range (m.slots share)).any fun i => (m.slot share i).2.1 ≠ 0

/-- The present slot, counted from TMB_MONO 0, and its number in its frame. -/
def State.slotId (s : State) : Nat := s.mono.toNat / 11
def State.slotNo (s : State) : Nat := s.slotId % 1024

/-- The share of the present slot: 0 read, 1 write, 2 remote; none in a refresh slot, nor while LCK is undriven (R337). -/
def State.shareNow (s : State) : Option Nat := if s.lck then s.mv.mem.slotShare s.slotNo else none

/-- The positions of the present slot, of a read or write share (R127): Comet, swap, ACX, fabric, and whether they were clipped. -/
def State.slotNow (s : State) (share : Nat) : Nat × Nat × Nat × Nat × Bool := s.mv.mem.slot share (s.mv.mem.slotIndex share s.slotNo)

/-- What has moved in the present slot. -/
def State.slotUse (s : State) : SlotUse := if s.mv.slot.id = s.slotId then s.mv.slot else ⟨s.slotId, [], []⟩

/-- The logical channel of an LPDDR6 address (R125). -/
def channelOf (a : Nat) : Nat := a / 64 % 15

/-- The channel of the line at `a` has room for `n` more lines in the present slot (R127: 3). -/
def State.room (s : State) (a n : Nat) : Bool := (s.slotUse.chan.filter (· = channelOf a)).length + n ≤ 3

/-- Use position `p` of the present slot for the line at `a`. -/
def State.usePosition (s : State) (p a : Nat) : State :=
  let u := s.slotUse
  s.withMv fun v => { v with slot := { u with pos := u.pos ++ [p], chan := u.chan ++ [channelOf a] } }

/-- At the start of a slot whose reservations exceed 45 positions clip is set (R127). -/
def State.clipTick (s : State) : State :=
  if s.mono.toNat % 11 ≠ 0 then s
  else match s.shareNow with
    | some sh => s.raiseIf (sh < 2 && (s.slotNow sh).2.2.2.2) MEMC_CAUSE.clip
    | none => s

/-- MEMC_FRAME_START (R126, R127, R130): at TMB_MONO mod 11,264 = 0 the pending step map, reservations and ring owners take
effect, and a slot whose reservations exceed 45 positions sets clip. -/
def execMemcFrameStart (s : State) : Res := inside 83 1 s fun s =>
  if s.mono.toNat % 11264 ≠ 0 then .next s
  else
    let m : MemCtl :=
      { step := BitVec.ofNat 64 (s.get MEMC_STEPMAP.step)
        rd := BitVec.ofNat 64 (s.words MEMC_RSV_RD.reg 2)
        wr := BitVec.ofNat 64 (s.words MEMC_RSV_WR.reg 2)
        ringA := BitVec.ofNat 96 (s.get DMA_RINGA_OWN.own)
        ringB := BitVec.ofNat 96 (s.get DMA_RINGB_OWN.own) }
    .next ((s.withMv fun v => { v with mem := m }).raiseIf m.clipped MEMC_CAUSE.clip)

end Sys2Proof.Machine
end

