-- ==== Sys2Proof/Machine/Batch.lean ====
section
/-! DEFINITION. Positions in air time (R24, R154) and the prepared batches (chapter 07, R166 to R171). -/

namespace Sys2Proof.Machine

/-! ## Positions in air time -/

/-- What at_decode gives (R24). -/
structure AirPos where
  frame : Nat
  subframe : Nat
  slot : Nat
  symbol : Nat
  tick : Nat
  deriving DecidableEq, Repr

/-- Useful length and cyclic prefix of a symbol at numerology `mu` (R24). -/
def symLen (mu : Nat) (ecp : Bool) : Nat × Nat := (32768 >>> mu, if ecp then 8192 >>> mu else 2304 >>> mu)

/-- Symbols of a slot. -/
def slotSymbols (ecp : Bool) : Nat := if ecp then 12 else 14

/-- Index of the symbol within its half-subframe, and the tick within it, `r` at after the half-subframe's start. -/
def halfPos (mu : Nat) (ecp : Bool) (r : Nat) : Nat × Nat :=
  let (su, cp) := symLen mu ecp
  let l0 := su + cp + (if ecp then 0 else 256)
  if r < l0 then (0, r) else (1 + (r - l0) / (su + cp), (r - l0) % (su + cp))

/-- at_decode (R24). -/
def atDecode (t mu : Nat) (ecp : Bool) : AirPos :=
  let r := t % 4915200
  let (k, tick) := halfPos mu ecp (r % 245760)
  let ks := r % 491520 / 245760 * (slotSymbols ecp * 2 ^ mu / 2) + k
  { frame := t / 4915200, subframe := r / 491520, slot := ks / slotSymbols ecp, symbol := ks % slotSymbols ecp, tick := tick }

/-- The start of the first symbol at or after `t`. -/
def symbolFrom (t mu : Nat) (ecp : Bool) : Nat :=
  let (k, tick) := halfPos mu ecp (t % 245760)
  let (su, cp) := symLen mu ecp
  if tick = 0 then t else airAdd t (su + cp + (if k = 0 && !ecp then 256 else 0) - tick)

/-- T_sym of R154: the frame nearest the capture with this frameId. -/
def tSym (tc fid sf slot sym mu : Nat) (ecp : Bool) : Nat :=
  let d0 := (tc / 4915200 + 256 - fid % 256) % 256
  let d : Int := if d0 ≥ 128 then (d0 : Int) - 256 else d0
  let f := (((tc / 4915200 : Nat) : Int) - d + 1024).toNat % 1024
  let (su, cp) := symLen mu ecp
  let ks := slot * slotSymbols ecp + sym
  let nh := slotSymbols ecp * 2 ^ mu / 2
  let k := ks % nh
  let off := ks / nh * 245760 + (if k = 0 then 0 else k * (su + cp) + (if ecp then 0 else 256))
  (f * 4915200 + sf * 491520 + off) % Config.airWrap

/-- µ and ecp of a timeline. -/
def State.numerology (s : State) (tl : Nat) : Nat × Bool := (s.get (TMB_ATn_CFG.mu tl), s.flag (TMB_ATn_CFG.ecp tl))

/-! ## Batch queues -/

/-- Batch queue `q`. -/
def State.bq (s : State) (q : Fin 64) : FhQueue := s.opt.que[q.val]

/-- Replace batch queue `q`; FH_QUEq_STAT.open counts its open batches. -/
def State.withBq (s : State) (q : Fin 64) (f : FhQueue → FhQueue) : State :=
  let s := { s with opt := { s.opt with que := s.opt.que.set q.val (f s.opt.que[q.val]) } }
  s.put (FH_QUEq_STAT.open q) ((s.bq q).batches.filter fun b => !b.closed).length

/-- L of batch queue `q`. -/
def State.bqLog (s : State) (q : Fin 64) : Nat :=
  let l := s.get (FH_QUEq_CFG.log2depth q)
  if 1 ≤ l && l ≤ 7 then l else 1

/-- System address of byte `o` of the ring of batch queue `q`. -/
def State.bqAddr (s : State) (q : Fin 64) (o : Nat) : Nat :=
  clusterBase (s.get (FH_QUEq_CFG.cluster q)) + (64 * s.get (FH_QUEq_CFG.offset q) + o) % 2 ^ 24

/-- The cluster memory of batch queue `q` is on. -/
def State.bqOn (s : State) (q : Fin 64) : Bool := s.domOn (72 + s.get (FH_QUEq_CFG.cluster q))

/-- Bytes of a region of batch queue `q` (R166). -/
def State.bqRegion (s : State) (q : Fin 64) : Nat := 64 * ceilDiv (48 * s.get (FH_QUEq_CFG.nprb q)) 64

/-- The ingress write plane gives engine `q` mod 4 the bank of the header of queue `q` in the present ck (R168). -/
def State.planeGives (s : State) (q : Fin 64) : Bool :=
  let e := q.val % 4
  (2 * e + 2 * s.mono.toNat) % 16 = s.bqAddr q 0 / 64 % 16 / 2 * 2

/-- Read cons of batch queue `q` (R170) as it stood before the ck: ahead is kept, and the low-water alarm of bit q is raised once ahead has fallen
below the mark after it had reached it. -/
def State.consRead (s : State) (q : Fin 64) : State :=
  let cons := natOfBytes ((List.range 4).map fun i => s.coreByte (s.bqAddr q (4 + i)))
  let ahead := (BitVec.ofNat 32 (s.le (s.bqAddr q 0) 4) - BitVec.ofNat 32 cons).toNat
  let s := (s.put (FH_QUEq_STAT.ahead q) ahead).withBq q fun x => { x with due := false }
  let lw := s.get (FH_QUEq_CFG.lw q)
  if ahead ≥ lw then s.withBq q fun x => { x with armed := true }
  else if (s.bq q).armed then (s.raiseBit FH_LWCAUSE.q q).withBq q fun x => { x with armed := false }
  else s

/-- The ingress write plane stores bytes (R168). -/
def State.planePut (s : State) (a : Nat) (bs : List (BitVec 8)) : State := s.putBytes 9 a bs

/-- The 64 bytes of a batch header (R166). -/
def FhBatch.header (b : FhBatch) : List (BitVec 8) :=
  bytesOf 8 b.t ++ bytesOf 1 b.flags ++ bytesOf 1 b.sym ++ bytesOf 6 0 ++ bytesOf 16 b.mask ++ bytesOf 32 0

/-- Publish a batch (R166, R169): its header, then prod + 1, the consumer's flag, and a read of cons in the first ck in which the plane gives the
header's bank (R170). -/
def State.publish (s : State) (q : Fin 64) (b : FhBatch) : State :=
  let a := s.bqAddr q 0
  let s := (s.planePut b.slot b.header).planePut a (bytesOf 4 (s.le a 4 + 1))
  let t := Fin.ofNat 64 (s.get (FH_QUEq_CFG.tile q))
  let s := if s.flag (FH_QUEq_CFG.ev q) then s.setEvf t (s.get (FH_QUEq_CFG.flag q)) else s
  if s.planeGives q then s.consRead q else s.withBq q fun x => { x with due := true }

/-- A publication of queue `q` on the way from `s` to `t` has sent its event to a tile that is off (R320): prod of the ring has moved. -/
def State.flagLost (s t : State) (q : Fin 64) : Bool :=
  s.flag (FH_QUEq_CFG.ev q) && !s.tileOn (s.get (FH_QUEq_CFG.tile q)) && s.le (s.bqAddr q 0) 4 ≠ t.le (s.bqAddr q 0) 4

/-- Publish the closed batches at the head of the queue, in the order in which they opened (R167). -/
def State.publishAll (q : Fin 64) : Nat → State → State
  | 0, s => s
  | n + 1, s =>
    match (s.bq q).batches with
    | b :: rest => if b.closed then State.publishAll q n ((s.withBq q fun x => { x with batches := rest }).publish q b) else s
    | [] => s

/-- How long a closed T_sym is remembered, in ck: 5 s, half the wrap of air time (log entry 17). -/
def closedFor : Nat := 11000000000

/-- Close the open batch of `t` (R167). -/
def State.closeBatch (s : State) (q : Fin 64) (t : Nat) : State :=
  let s := s.withBq q fun x =>
    { x with batches := x.batches.map (fun b => if b.t = t && !b.closed then { b with closed := true } else b)
             done := (t, s.mono) :: x.done.filter fun d => s.since d.2 < closedFor }
  State.publishAll q (s.bq q).batches.length s

/-- A fifth T_sym closes the oldest open batch, whether or not a batch can open then (R167). -/
def State.makeOpen (s : State) (q : Fin 64) : State :=
  let opened := (s.bq q).batches.filter fun b => !b.closed
  match opened with
  | b :: _ => if opened.length ≥ 4 then s.closeBatch q b.t else s
  | [] => s

/-- Open a batch for `t` (R167, R171); none when the ring has no room. -/
def State.openBatch (s : State) (q : Fin 64) (t sym tl : Nat) (hi : Option Int) : Option State :=
  let opened := (s.bq q).batches.filter fun b => !b.closed
  if s.get (FH_QUEq_STAT.ahead q) + opened.length ≥ 2 ^ s.bqLog q then none
  else
    let nstr := s.get (FH_QUEq_CFG.nstr q)
    let region := s.bqRegion q
    let i := (s.le (s.bqAddr q 0) 4 + (s.bq q).batches.length) % 2 ^ s.bqLog q
    let slot := s.bqAddr q (64 + i * (64 + (nstr + 1) * region))
    some (s.withBq q fun x =>
      { x with batches := x.batches ++ [⟨t, sym, tl, hi, slot, nstr, region, 0, [], 0, false⟩] })

/-- The count of messages of a position and a stream (none: an FFT output) in a list of counts. -/
def countAt (cs : List ((Nat × Option Nat) × Nat)) (k : Nat × Option Nat) : Nat := (cs.find? fun c => c.1 = k).elim 0 Prod.snd

/-- A message of one symbol for a batch queue: T_sym, symbol index, timeline, hi, position, messages for a delivery, flags, the stream that
FH_LAST names, and elements' bytes by output PRB. -/
structure BatchMsg where
  t : Nat
  sym : Nat
  tl : Nat
  hi : Option Int
  pos : Nat
  nmsg : Nat
  flags : Nat
  str : Option Nat
  prbs : List (Nat × List (BitVec 8))
  deriving DecidableEq, Repr

/-- Write a message into the open batch `b` (R160, R166, R167): PRBs that lie beyond the region, or whose position has no region, are not
written and set cap; the position delivers after `nmsg` messages of the stream, and the last delivery closes the batch. Messages are written by the
ingress write plane, FFT outputs through the crossbar (R168, R180). -/
def State.fillBatch (s : State) (q : Fin 64) (b : FhBatch) (m : BatchMsg) : State :=
  let fit := m.prbs.filter fun p => m.pos ≤ b.nstr && 48 * p.1 + 48 ≤ b.region
  let cap := fit.length < m.prbs.length
  let base := b.slot + 64 + m.pos * b.region
  let s := s.raiseIf cap FH_CAUSE.cap
  let s := match m.str with
    | some k => if cap then s.put FH_LAST.str k else s
    | none => s
  let s := fit.foldl (fun s p => s.putBytes (if m.str.isSome then 9 else 3) (base + 48 * p.1) p.2) s
  let key := (m.pos, m.str)
  let n := countAt b.counts key + 1
  let mask := if m.pos ≤ b.nstr && n ≥ m.nmsg then b.mask ||| 2 ^ m.pos else b.mask
  let b' : FhBatch :=
    { b with flags := b.flags ||| m.flags ||| (if cap then 4 else 0), mask := mask
             counts := (key, n) :: b.counts.filter fun c => c.1 ≠ key }
  let s := s.withBq q fun x => { x with batches := x.batches.map fun y => if y.t = b.t && !y.closed then b' else y }
  if mask = 2 ^ (b.nstr + 1) - 1 then s.closeBatch q b.t else s

/-- What became of a message. -/
inductive Placed where
  | written
  | full
  | stale
  deriving DecidableEq, Repr

/-- Place a message (R167, R171): into the open batch of its T_sym, else into a new one; for a T_sym already closed it is stale, and without
a batch it is dropped. -/
def State.place (s : State) (q : Fin 64) (m : BatchMsg) : State × Placed :=
  let isOpen (b : FhBatch) : Bool := b.t = m.t && !b.closed
  if !s.flag (FH_QUEq_CFG.en q) then (s.raise FH_CAUSE.qfull, .full)
  else match (s.bq q).batches.find? isOpen with
    | some b => (s.fillBatch q b m, .written)
    | none =>
      if (s.bq q).done.any fun d => d.1 = m.t && s.since d.2 < closedFor then (s, .stale)
      else
        let s := s.makeOpen q
        match s.openBatch q m.t m.sym m.tl m.hi with
        | none => (s.raise FH_CAUSE.qfull, .full)
        | some s =>
          match (s.bq q).batches.find? isOpen with
          | some b => (s.fillBatch q b m, .written)
          | none => (s, .full)

/-- BATCH_TIMEOUT (R167): the open batches of queue `q` whose T_sym + hi at_now has passed close. -/
def execBatchTimeout (q : Fin 64) (s : State) : Res := inside 82 4 s fun s =>
  let due := (s.bq q).batches.filter fun b => !b.closed && match b.hi with
    | some h => s.timelineOn b.tl && airDiff (s.atNow b.tl) (((b.t : Int) + h) % (Config.airWrap : Int)).toNat > 0
    | none => false
  if due.isEmpty then .next s
  else faultIf (!s.bqOn q) .poweredOff <|
    let t := due.foldl (fun s b => s.closeBatch q b.t) s
    faultIf (s.flagLost t q) .poweredOff (.next t)

/-- CONS_READ (R168, R170): from TMB_MONO mod 1,024 = 16q, or from a publication, in the first ck in which the write plane gives engine q mod 4
the header's bank. -/
def execConsRead (q : Fin 64) (s : State) : Res := inside 82 4 s fun s =>
  if ((s.mono.toNat + 1024 - 16 * q.val) % 1024 < 8 || (s.bq q).due) && s.planeGives q && s.flag (FH_QUEq_CFG.en q) then
    faultIf (!s.bqOn q) .poweredOff (.next (s.consRead q))
  else .next s

/-- The reads of cons that publications left waiting for their bank take place when the write plane gives it (R170). -/
def State.fhTick (s : State) : State :=
  (List.finRange 64).foldl (fun s q => if (s.bq q).due && s.planeGives q && s.bqOn q then s.consRead q else s) s

end Sys2Proof.Machine
end

