-- ==== Sys2Proof/Machine/Float.lean ====
section
/-! DEFINITION. IEEE 754 binary16, binary32 and binary64 as exact values: decoding, encoding with round to nearest even, and the
arithmetic of R82.  A result is computed exactly over the rationals and rounded once. -/

namespace Sys2Proof.Machine

/-- A floating-point value; `fin` holds a nonzero rational. -/
inductive FV where
  | nan (payload : Nat)
  | inf (neg : Bool)
  | zero (neg : Bool)
  | fin (q : Rat)
  deriving DecidableEq, Repr

/-- A binary format: width, precision in bits, exponent bias. -/
structure FFmt where
  w : Nat
  prec : Nat
  bias : Nat
  deriving DecidableEq, Repr

/-- binary16. -/
def f16 : FFmt := ⟨16, 11, 15⟩
/-- binary32. -/
def f32 : FFmt := ⟨32, 24, 127⟩
/-- binary64. -/
def f64 : FFmt := ⟨64, 53, 1023⟩

/-- Bits of the fraction field. -/
def FFmt.fracW (f : FFmt) : Nat := f.prec - 1

/-- The largest biased exponent: infinities and NaNs. -/
def FFmt.expMax (f : FFmt) : Nat := 2 * f.bias + 1

/-- Decode a bit pattern. -/
def FFmt.dec (f : FFmt) (b : Nat) : FV :=
  let frac := b % 2 ^ f.fracW
  let ex := b / 2 ^ f.fracW % (f.expMax + 1)
  let neg : Bool := b / 2 ^ (f.w - 1) % 2 = 1
  if ex = f.expMax then (if frac = 0 then .inf neg else .nan (b % 2 ^ f.w))
  else if ex = 0 then
    if frac = 0 then .zero neg
    else
      let q := (frac : Rat) * pow2 (1 - (f.bias : Int) - f.fracW)
      .fin (if neg then -q else q)
  else
    let q := ((2 ^ f.fracW + frac : Nat) : Rat) * pow2 ((ex : Int) - f.bias - f.fracW)
    .fin (if neg then -q else q)

/-- floor(log2 q) of a positive rational. -/
def log2Q (q : Rat) : Int :=
  let e : Int := (Nat.log2 q.num.toNat : Int) - Nat.log2 q.den
  if q < pow2 e then e - 1 else if q ≥ pow2 (e + 1) then e + 1 else e

/-- Round a positive rational to the format's grid by `rnd`: the integer multiple of the quantum, and the quantum's exponent. -/
def FFmt.grid (f : FFmt) (rnd : Rat → Int) (q : Rat) : Int × Int :=
  let e := max (log2Q q) (1 - (f.bias : Int))
  let k := e - f.fracW
  (rnd (q * pow2 (-k)), k)

/-- Encode a sign and a positive rational with rounding `rnd`; overflow gives an infinity. -/
def FFmt.encPos (f : FFmt) (rnd : Rat → Int) (neg : Bool) (q : Rat) : Nat :=
  let sgn := if neg then 2 ^ (f.w - 1) else 0
  let (n, k) := f.grid rnd q
  -- the exponent field counts quanta from the subnormal quantum, so a carry into the next binade needs no case
  let field := (k - (1 - (f.bias : Int) - f.fracW)).toNat * 2 ^ f.fracW + n.toNat
  sgn + min field (f.expMax * 2 ^ f.fracW)

/-- The quiet NaN of R82. -/
def FFmt.qnan (f : FFmt) : Nat := f.expMax * 2 ^ f.fracW + 2 ^ (f.fracW - 1)

/-- Encode a value, rounding to nearest even. A NaN but the invalid result of R82 has the sign and the payload that its operation gave, which the
spec leaves open (log entry 6). -/
def FFmt.enc (f : FFmt) : FV → Nat
  | .nan p => if p = 0 then f.qnan else p / 2 ^ (f.w - 1) % 2 * 2 ^ (f.w - 1) + (f.qnan ||| p % 2 ^ (f.fracW - 1))
  | .inf n => (if n then 2 ^ (f.w - 1) else 0) + f.expMax * 2 ^ f.fracW
  | .zero n => if n then 2 ^ (f.w - 1) else 0
  | .fin q => if q < 0 then f.encPos rne true (-q) else if q = 0 then 0 else f.encPos rne false q

/-- Round a value to the format. -/
def FFmt.round (f : FFmt) (v : FV) : FV := f.dec (f.enc v)

/-- The NaN of an invalid operation. -/
def FV.invalid : FV := .nan 0

/-- A rational as a value; 0 is +0. -/
def FV.ofRat (q : Rat) : FV := if q = 0 then .zero false else .fin q

/-- An integer as a value. -/
def FV.ofInt (i : Int) : FV := .ofRat i

/-- Sign: negative values, −0 and −∞. -/
def FV.isNeg : FV → Bool
  | .nan _ => false | .inf n => n | .zero n => n | .fin q => q < 0

/-- NaN. -/
def FV.isNan : FV → Bool
  | .nan _ => true | _ => false

/-- The rational of a finite value; 0 for the others. -/
def FV.toRat : FV → Rat
  | .fin q => q | _ => 0

/-- Negation. -/
def FV.neg : FV → FV
  | .nan p => .nan p | .inf n => .inf (!n) | .zero n => .zero (!n) | .fin q => .fin (-q)

/-- Magnitude. -/
def FV.abs : FV → FV
  | .nan p => .nan p | .inf _ => .inf false | .zero _ => .zero false | .fin q => .fin (if q < 0 then -q else q)

/-- The NaN of an operation on `a` and `b`, one of which is NaN. -/
def FV.nan2 (a b : FV) : FV :=
  let p : FV → Nat | .nan p => p | _ => 0
  .nan (Config.nanPayload (p a) (p b))

/-- Exact sum; an exact zero of opposite signs is +0. -/
def FV.add (a b : FV) : FV :=
  match a, b with
  | .nan _, _ => nan2 a b
  | _, .nan _ => nan2 a b
  | .inf m, .inf n => if m = n then .inf m else invalid
  | .inf m, _ => .inf m
  | _, .inf n => .inf n
  | .zero m, .zero n => .zero (m && n)
  | .zero _, x => x
  | x, .zero _ => x
  | .fin p, .fin q => ofRat (p + q)

/-- Exact difference. -/
def FV.sub (a b : FV) : FV :=
  match b with
  | .nan _ => nan2 a b
  | _ => add a b.neg

/-- Exact product. -/
def FV.mul (a b : FV) : FV :=
  match a, b with
  | .nan _, _ => nan2 a b
  | _, .nan _ => nan2 a b
  | .inf m, .inf n => .inf (m != n)
  | .inf _, .zero _ => invalid
  | .zero _, .inf _ => invalid
  | .inf m, .fin q => .inf (m != decide (q < 0))
  | .fin p, .inf n => .inf (n != decide (p < 0))
  | .zero m, x => .zero (m != x.isNeg)
  | x, .zero n => .zero (n != x.isNeg)
  | .fin p, .fin q => .fin (p * q)

/-- A fused product and sum `d + a × b` (R86): an invalid product gives the NaN of R82 unless `d` is one itself. -/
def FV.fma (d a b : FV) : FV :=
  let p := mul a b
  if p = invalid && !a.isNan && !b.isNan && !d.isNan then invalid else add d p

/-- Exact quotient; a division by ±0 gives ±∞, 0/0 and ∞/∞ are invalid. -/
def FV.div (a b : FV) : FV :=
  match a, b with
  | .nan _, _ => nan2 a b
  | _, .nan _ => nan2 a b
  | .inf _, .inf _ => invalid
  | .zero _, .zero _ => invalid
  | .inf m, x => .inf (m != x.isNeg)
  | x, .inf n => .zero (n != x.isNeg)
  | .zero m, x => .zero (m != x.isNeg)
  | x, .zero n => .inf (n != x.isNeg)
  | .fin p, .fin q => .fin (p / q)

/-- `a < b` in the order of VMIN (R86), in which −0 < +0; no NaN operand. -/
def FV.ltTotal (a b : FV) : Bool :=
  match a, b with
  | .nan _, _ => false
  | _, .nan _ => false
  | .inf m, .inf n => m && !n
  | .inf m, _ => m
  | _, .inf n => !n
  | .zero m, .zero n => m && !n
  | _, _ => a.toRat < b.toRat

/-- Numeric equality; false with NaN. -/
def FV.eqNum (a b : FV) : Bool :=
  match a, b with
  | .nan _, _ => false
  | _, .nan _ => false
  | .zero _, .zero _ => true
  | _, _ => a = b

/-- Numeric order; false with NaN. -/
def FV.ltNum (a b : FV) : Bool := ltTotal a b && !eqNum a b

/-- The smaller by the rules of VMIN: a NaN operand yields the other. -/
def FV.min (a b : FV) : FV := if a.isNan then b else if b.isNan then a else if ltTotal b a then b else a

/-- The larger by the rules of VMAX. -/
def FV.max (a b : FV) : FV := if a.isNan then b else if b.isNan then a else if ltTotal a b then b else a


/-! ## Elementary functions: the f32 nearest to the exact value (R95)

The function value is bracketed by a fixed-point computation with 320 fraction bits, far below the spacing of binary32 (log entry 8). -/

/-- Fraction bits of the fixed-point computation. -/
def fixBits : Nat := 320

/-- e^x for 0 ≤ x < 2^-8 in fixed point: 40 Taylor terms. -/
def expSmall (x : Int) : Int :=
  let one : Int := (2 ^ fixBits : Nat)
  ((List.range 40).foldl (fun (acc : Int × Int) (k : Nat) =>
    let t := acc.2 * x / one / ((k : Int) + 1)
    (acc.1 + t, t)) (one, one)).1

/-- e^x for 0 ≤ x < 256 in fixed point, by 16 squarings of e^(x / 2^16). -/
def expFix (x : Rat) : Int :=
  let one : Int := (2 ^ fixBits : Nat)
  let r := (x / 65536 * ((2 ^ fixBits : Nat) : Rat)).floor
  iter (fun y => y * y / one) 16 (expSmall r)

/-- e^x as a rational within the precision of the computation. -/
def expQ (x : Rat) : Rat :=
  let one : Rat := ((2 ^ fixBits : Nat) : Rat)
  if x < 0 then one / (expFix (-x) : Rat) else (expFix x : Rat) / one

/-- EXP of R95. -/
def fexp : FV → FV
  | .nan p => .nan (Config.nanPayload p 0)
  | .inf n => if n then .zero false else .inf false
  | .zero _ => .fin 1
  | .fin q => if q > 128 then .inf false else if q < -128 then .zero false else .fin (expQ q)

/-- RECIP of R95. -/
def frecip (v : FV) : FV := FV.div (.fin 1) v

/-- The integer square root, bit by bit from the top. -/
def isqrt (n : Nat) : Nat :=
  (List.range (Nat.log2 n / 2 + 1)).reverse.foldl (fun r i => if (r + 2 ^ i) * (r + 2 ^ i) ≤ n then r + 2 ^ i else r) 0

/-- 1/√q of a positive rational: a value between the two neighbours at 2^-200 relative spacing, exact when rational there. -/
def rsqrtQ (q : Rat) : Rat :=
  -- √(den / num) = √(den × num) / num, scaled by 2^400
  let n := q.den * q.num.toNat * 2 ^ 800
  let r := isqrt n
  let r2 : Rat := if r * r = n then (r : Rat) else (r : Rat) + 1 / 2
  r2 / ((q.num.toNat * 2 ^ 400 : Nat) : Rat)

/-- RSQRT of R95. -/
def frsqrt : FV → FV
  | .nan p => .nan (Config.nanPayload p 0)
  | .inf n => if n then FV.invalid else .zero false
  | .zero n => .inf n
  | .fin q => if q < 0 then FV.invalid else .fin (rsqrtQ q)

/-- TANH of R95. -/
def ftanh : FV → FV
  | .nan p => .nan (Config.nanPayload p 0)
  | .inf n => .fin (if n then -1 else 1)
  | .zero n => .zero n
  | .fin q =>
    let a := if q < 0 then -q else q
    let v : Rat := if a > 64 then 1 else let e := expQ (2 * a); (e - 1) / (e + 1)
    .fin (if q < 0 then -v else v)

/-- SIGM of R95. -/
def fsigm : FV → FV
  | .nan p => .nan (Config.nanPayload p 0)
  | .inf n => if n then .zero false else .fin 1
  | .zero _ => .fin (1 / 2)
  | .fin q => if q > 128 then .fin 1 else if q < -128 then .zero false else let e := expQ q; .fin (e / (1 + e))

end Sys2Proof.Machine
end

