-- ==== Sys2Proof/Machine/BaseGraph.lean ====
section
/-! DEFINITION. The base graphs of the LDPC codes and linear equations over bits (chapter 08, R203, R208, R210).  The columns of the rows are those of
38.212 Tables 5.3.2-2 and 5.3.2-3, which the spec names and does not print: their totals are those of R208 (log entry 10). -/

namespace Sys2Proof.Machine

/-! ## Columns of the non-zero entries, row by row -/

/-- Core rows of base graph 1. -/
def bg1Core : List (List Nat) :=
  [[0, 1, 2, 3, 5, 6, 9, 10, 11, 12, 13, 15, 16, 18, 19, 20, 21, 22, 23], [0, 2, 3, 4, 5, 7, 8, 9, 11, 12, 14, 15, 16, 17, 19, 21, 22, 23, 24],
   [0, 1, 2, 4, 5, 6, 7, 8, 9, 10, 13, 14, 15, 17, 18, 19, 20, 24, 25], [0, 1, 3, 4, 6, 7, 8, 10, 11, 12, 13, 14, 16, 17, 18, 20, 21, 22, 25]]

/-- Rows 4 to 24 of base graph 1. -/
def bg1Mid : List (List Nat) :=
  [[0, 1, 26], [0, 1, 3, 12, 16, 21, 22, 27], [0, 6, 10, 11, 13, 17, 18, 20, 28], [0, 1, 4, 7, 8, 14, 29],
   [0, 1, 3, 12, 16, 19, 21, 22, 24, 30], [0, 1, 10, 11, 13, 17, 18, 20, 31], [1, 2, 4, 7, 8, 14, 32], [0, 1, 12, 16, 21, 22, 23, 33],
   [0, 1, 10, 11, 13, 18, 34], [0, 3, 7, 20, 23, 35], [0, 12, 15, 16, 17, 21, 36], [0, 1, 10, 13, 18, 25, 37], [1, 3, 11, 20, 22, 38],
   [0, 14, 16, 17, 21, 39], [1, 12, 13, 18, 19, 40], [0, 1, 7, 8, 10, 41], [0, 3, 9, 11, 22, 42], [1, 5, 16, 20, 21, 43], [0, 12, 13, 17, 44],
   [1, 2, 10, 18, 45], [0, 3, 4, 11, 22, 46]]

/-- Rows 25 to 45 of base graph 1. -/
def bg1High : List (List Nat) :=
  [[1, 6, 7, 14, 47], [0, 2, 4, 15, 48], [1, 6, 8, 49], [0, 4, 19, 21, 50], [1, 14, 18, 25, 51], [0, 10, 13, 24, 52], [1, 7, 22, 25, 53],
   [0, 12, 14, 24, 54], [1, 2, 11, 21, 55], [0, 7, 15, 17, 56], [1, 6, 12, 22, 57], [0, 14, 15, 18, 58], [1, 13, 23, 59], [0, 9, 10, 12, 60],
   [1, 3, 7, 19, 61], [0, 8, 17, 62], [1, 3, 9, 18, 63], [0, 4, 24, 64], [1, 16, 18, 25, 65], [0, 7, 9, 22, 66], [1, 6, 10, 67]]

/-- Core rows of base graph 2. -/
def bg2Core : List (List Nat) :=
  [[0, 1, 2, 3, 6, 9, 10, 11], [0, 3, 4, 5, 6, 7, 8, 9, 11, 12], [0, 1, 3, 4, 8, 10, 12, 13], [1, 2, 4, 5, 6, 7, 8, 9, 10, 13]]

/-- Rows 4 to 41 of base graph 2. -/
def bg2High : List (List Nat) :=
  [[0, 1, 11, 14], [0, 1, 5, 7, 11, 15], [0, 5, 7, 9, 11, 16], [1, 5, 7, 11, 13, 17], [0, 1, 12, 18], [1, 8, 10, 11, 19], [0, 1, 6, 7, 20],
   [0, 7, 9, 13, 21], [1, 3, 11, 22], [0, 1, 8, 13, 23], [1, 6, 11, 13, 24], [0, 10, 11, 25], [1, 9, 11, 12, 26], [1, 5, 11, 12, 27],
   [0, 6, 7, 28], [0, 1, 10, 29], [1, 4, 11, 30], [0, 8, 13, 31], [1, 2, 32], [0, 3, 5, 33], [1, 2, 9, 34], [0, 5, 35], [2, 7, 12, 13, 36],
   [0, 6, 37], [1, 2, 5, 38], [0, 4, 39], [2, 5, 7, 9, 40], [1, 13, 41], [0, 5, 12, 42], [2, 7, 10, 43], [0, 12, 13, 44], [1, 5, 11, 45],
   [0, 2, 7, 46], [10, 13, 47], [1, 5, 11, 48], [0, 7, 12, 49], [2, 10, 13, 50], [1, 5, 11, 51]]

/-- Columns of the non-zero entries of row `r` of base graph 2 or 1, rising (38.212 Tables 5.3.2-2 and 5.3.2-3; PRESUMED, log entry 10). -/
def bgColumns (bg2 : Bool) (r : Nat) : List Nat :=
  ((if bg2 then bg2Core ++ bg2High else bg1Core ++ bg1Mid ++ bg1High)[r]?).getD []

/-! ## Linear equations over bits

An equation is a number: bit `i` is the coefficient of unknown `i`, bit `n` its right side. -/

/-- Gauss and Jordan's elimination of the `k` unknowns from `i` on: the equations left, and the pivots, each with the unknown that it gives. -/
def bitPivots : Nat → Nat → List Nat → List (Nat × Nat) → List (Nat × Nat)
  | 0, _, _, piv => piv
  | k + 1, i, eqs, piv =>
    match eqs.find? fun e => e.testBit i with
    | none => bitPivots k (i + 1) eqs piv
    | some p =>
      let clear (e : Nat) : Nat := if e.testBit i then e ^^^ p else e
      bitPivots k (i + 1) ((eqs.erase p).map clear) ((i, p) :: piv.map fun q => (q.1, clear q.2))

/-- The `n` unknowns of the equations; one that they leave open is false. -/
def bitSolve (n : Nat) (eqs : List Nat) : List Bool :=
  let piv := bitPivots n 0 eqs []
  (List.range n).map fun i =>
    match piv.find? fun q => q.1 = i with
    | some q => q.2.testBit n
    | none => false

end Sys2Proof.Machine
end

