-- ==== Sys2Proof/Machine/EngDesc.lean ====
section
/-! DEFINITION. The descriptors of the receiver engines: the common header, the fields of each class, and what makes a descriptor bad
(chapter 08, R188, R189, R195, R202, R210, R212). -/

namespace Sys2Proof.Machine

/-- Bits `[lo + w - 1 : lo]` of byte `b` of an engine descriptor. -/
def ef (d : BitVec 1024) (b lo w : Nat) : Nat := bitsOf d.toNat (8 * b + lo) w

/-- The system address of an address in the form of R188. -/
def clAddr (a : Nat) : Nat := clusterBase (a / 2 ^ 24 % 8) + a % 2 ^ 24

/-! ## Common header (R188) -/

def eTag (d : BitVec 1024) : Nat := ef d 0 0 32
def eOp (d : BitVec 1024) : Nat := ef d 4 0 4
def eDlEn (d : BitVec 1024) : Bool := ef d 4 4 1 = 1
def eAt (d : BitVec 1024) : Nat := ef d 4 5 3
def eEv (d : BitVec 1024) : Bool := ef d 4 8 1 = 1
def eFlag (d : BitVec 1024) : Nat := ef d 4 9 5
def eTile (d : BitVec 1024) : Fin 64 := Fin.ofNat 64 (ef d 4 14 6)
def eDeadline (d : BitVec 1024) : Nat := ef d 8 0 33
def eClog (d : BitVec 1024) : Nat := min 12 (ef d 16 27 4)
/-- System address of byte `o` of the completion ring. -/
def eRing (d : BitVec 1024) (o : Nat) : Nat := clusterBase (ef d 16 24 3) + (64 * ef d 16 6 18 + o) % 2 ^ 24
def eJen (d : BitVec 1024) : Bool := ef d 20 27 1 = 1
/-- System address of the join word. -/
def eJoin (d : BitVec 1024) : Nat := clusterBase (ef d 20 24 3) + 4 * ef d 20 2 22

/-- A next action in the layout of R188 bytes 24-31: next, cluster, class, unit, and its RSV fields are 0. -/
structure NextPtr where
  next : Nat
  cl : Nat
  cls : Nat
  unit : Nat
  ok : Bool
  deriving DecidableEq, Repr

/-- Read the 64 bits of a next action. -/
def nextPtr (w : Nat) : NextPtr :=
  { next := 128 * bitsOf w 7 17, cl := bitsOf w 24 3, cls := bitsOf w 27 3, unit := bitsOf w 32 6
    ok := bitsOf w 30 2 = 0 && bitsOf w 0 7 = 0 && bitsOf w 38 26 = 0 }

def eNext (d : BitVec 1024) : NextPtr := nextPtr (ef d 24 0 64)

/-- A non-zero RSV field of the common header. -/
def headerRsv (d : BitVec 1024) : Bool :=
  ef d 4 20 12 ≠ 0 || ef d 8 33 31 ≠ 0 || ef d 16 31 1 ≠ 0 || ef d 16 0 6 ≠ 0 || ef d 20 28 4 ≠ 0 || ef d 20 0 2 ≠ 0
    || !(eNext d).ok

/-- A descriptor with the deadline that its pointer carries, in place of its own (R188). -/
def withDeadline (d : BitVec 1024) : Option Deadline → BitVec 1024
  | none => d
  | some x =>
    let n := setBitsOf (setBitsOf d.toNat (32 + 4) 4 (1 + 2 * x.tl.val)) 64 33 x.t
    BitVec.ofNat 1024 n

/-! ## EQ (R195) -/

def qNr (d : BitVec 1024) : Nat := ef d 41 0 8 + 1
def qNprb (d : BitVec 1024) : Nat := ef d 44 0 16
def qG (d : BitVec 1024) : Nat := ef d 46 0 8
def qL (d : BitVec 1024) : Nat := ef d 47 0 8
def qDsym (d : BitVec 1024) : Nat := ef d 48 0 14
/-- Data symbols: bits also set in dsym are ignored. -/
def qSym (d : BitVec 1024) : List Nat := (onesOf 14 (ef d 50 0 14)).filter (fun i => !(qDsym d).testBit i)
def qType2 (d : BitVec 1024) : Bool := ef d 52 0 1 = 1
def qDouble (d : BitVec 1024) : Bool := ef d 52 1 1 = 1
def qNrls (d : BitVec 1024) : Nat := min (ef d 53 0 8) (qNr d)
def qNue (d : BitVec 1024) : Nat := ef d 58 0 8 + 1
def qUet (d : BitVec 1024) : Nat := clAddr (ef d 60 0 32)
def qFbl (d : BitVec 1024) : Nat := clAddr (ef d 72 0 32)

/-- Entry `i` of the UE table, 16 bytes. -/
def State.ueEntry (s : State) (d : BitVec 1024) (i : Nat) : Nat := s.le (qUet d + 16 * i) 16

/-- DMRS ports of a UE, ascending. -/
def uePorts (e : Nat) : List Nat := onesOf 12 (bitsOf e 0 12)
def ueQm (e : Nat) : Nat := bitsOf e 24 8
def ueLlr (e : Nat) : Nat := clAddr (bitsOf e 96 32)

/-- The UE table of a job. -/
def State.ues (s : State) (d : BitVec 1024) : List Nat := (List.range (qNue d)).map (s.ueEntry d)

/-- ν of a job: layers of all its UEs. -/
def State.layers (s : State) (d : BitVec 1024) : Nat := (s.ues d).foldl (fun n e => n + (uePorts e).length) 0

/-- A value of an EQ descriptor that R189 and R195 call bad. -/
def State.eqBad (s : State) (d : BitVec 1024) : Bool :=
  eOp d > 1 || qNprb d = 0 || ef d 38 0 16 < ef d 42 0 16 + qNprb d || qG d > 4 || !(qL d = 4 || qL d = 6 || qL d = 8)
    || ef d 52 2 6 ≠ 0 || ef d 78 1 7 ≠ 0 || ef d 79 0 392 ≠ 0
    || (s.ues d).any (fun e => !(ueQm e = 2 || ueQm e = 4 || ueQm e = 6 || ueQm e = 8)) || s.layers d > 32
    || (eOp d = 1 && (ef d 76 0 8 = 0 || ef d 76 0 8 > 3 || s.le (qFbl d) 2 > 256))

/-! ## LDPC (R202, R210) -/

def lBg2 (d : BitVec 1024) : Bool := ef d 32 0 8 = 1
def lCrc (d : BitVec 1024) : Nat := ef d 33 0 8
def lHarq (d : BitVec 1024) : Nat := ef d 34 0 8
def lAssist (d : BitVec 1024) : Bool := ef d 35 0 1 = 1
def lMaxit (d : BitVec 1024) : Nat := ef d 36 0 8
def lQm (d : BitVec 1024) : Nat := ef d 37 0 8
def lRv (d : BitVec 1024) : Nat := ef d 38 0 8
def lZc (d : BitVec 1024) : Nat := ef d 40 0 16
def lKp (d : BitVec 1024) : Nat := ef d 42 0 16
def lE (d : BitVec 1024) : Nat := ef d 48 0 32
def lIn (d : BitVec 1024) : Nat := clAddr (ef d 56 0 32)
def lOut (d : BitVec 1024) : Nat := clAddr (ef d 60 0 32)
def lHbuf (d : BitVec 1024) : Nat := clAddr (ef d 64 0 32)
def lAtab (d : BitVec 1024) : Nat := clAddr (ef d 68 0 32)
def lKb (d : BitVec 1024) : Nat := if lBg2 d then 10 else 22
/-- N = 66 Z_c or 50 Z_c. -/
def lN (d : BitVec 1024) : Nat := (if lBg2 d then 50 else 66) * lZc d
def lNcb (d : BitVec 1024) : Nat := let n := ef d 52 0 32; if n = 0 || n > lN d then lN d else n

/-- The lifting sizes of 38.212 Table 5.3.2-1, with their set index: a × 2^j up to 384 (log entry 11). -/
def liftingSet (z : Nat) : Option Nat :=
  (List.range 8).find? fun i => (List.range 8).any fun j => nthD [2, 3, 5, 7, 9, 11, 13, 15] i 0 * 2 ^ j = z && z ≤ 384

/-- Bad in both directions of LDPC. -/
def ldpcCommonBad (d : BitVec 1024) : Bool :=
  eOp d ≠ 0 || ef d 32 0 8 > 1 || !(lQm d = 1 || lQm d = 2 || lQm d = 4 || lQm d = 6 || lQm d = 8 || lQm d = 10) || lRv d > 3
    || ef d 39 0 8 ≠ 0 || (liftingSet (lZc d)).isNone || lKp d > lKb d * lZc d || ef d 44 0 32 ≠ 0 || lE d = 0
    || lE d % lQm d ≠ 0 || ef d 72 0 448 ≠ 0

/-- A decoder descriptor that R202 calls bad; a crc or harq code without a meaning counts as bad (log entry 12). -/
def decBad (d : BitVec 1024) : Bool :=
  ldpcCommonBad d || lCrc d > 3 || lHarq d > 2 || ef d 35 1 7 ≠ 0 || lMaxit d = 0 || lMaxit d > 32

/-- An encoder descriptor that R210 calls bad. -/
def encBad (d : BitVec 1024) : Bool :=
  ldpcCommonBad d || lCrc d ≠ 0 || lHarq d ≠ 0 || ef d 35 0 8 ≠ 0 || lMaxit d ≠ 0 || ef d 64 0 32 ≠ 0 || ef d 68 0 32 ≠ 0

/-! ## Polar (R212) -/

def pCrc (d : BitVec 1024) : Nat := ef d 32 0 8
def pIl (d : BitVec 1024) : Bool := ef d 33 0 1 = 1
def pBil (d : BitVec 1024) : Bool := ef d 33 1 1 = 1
def pUci (d : BitVec 1024) : Bool := ef d 33 2 1 = 1
def pRmask (d : BitVec 1024) : Bool := ef d 33 3 1 = 1
def pNmax (d : BitVec 1024) : Nat := ef d 34 0 8
def pK (d : BitVec 1024) : Nat := ef d 36 0 16
def pRnti (d : BitVec 1024) : Nat := ef d 38 0 16
def pE (d : BitVec 1024) : Nat := ef d 40 0 32
def pIn (d : BitVec 1024) : Nat := clAddr (ef d 44 0 32)
def pOut (d : BitVec 1024) : Nat := clAddr (ef d 48 0 32)

/-- ceil(log2 n). -/
def clog2 (n : Nat) : Nat := if n ≤ 1 then 0 else Nat.log2 (n - 1) + 1

/-- n of the mother code length N = 2^n (38.212 5.3.1, log entry 11). -/
def polarLog (k e nmax : Nat) : Nat :=
  let c := clog2 e
  let n1 := if 8 * e ≤ 9 * 2 ^ (c - 1) && 16 * k < 9 * e then c - 1 else c
  max 5 (min (min n1 (clog2 (8 * k))) nmax)

def pN (d : BitVec 1024) : Nat := 2 ^ polarLog (pK d) (pE d) (pNmax d)

/-- A polar descriptor that R212 calls bad; a crc code without a meaning counts as bad (log entry 12). -/
def polBad (d : BitVec 1024) : Bool :=
  eOp d > 3 || pCrc d > 3 || ef d 33 4 4 ≠ 0 || !(pNmax d = 9 || pNmax d = 10) || ef d 35 0 8 ≠ 0 || pE d = 0 || pE d > 8192
    || pK d = 0 || (if eOp d ≤ 1 then pK d > 1023 || pK d > pN d else pK d > 11) || ef d 52 0 608 ≠ 0

/-- A descriptor of class `cls` that its unit skips (R189). -/
def State.descBad (s : State) (cls : Nat) (d : BitVec 1024) : Bool :=
  match cls with
  | 2 => headerRsv d || s.eqBad d
  | 3 => headerRsv d || decBad d
  | 4 => headerRsv d || encBad d
  | 5 => headerRsv d || polBad d
  | _ => false

end Sys2Proof.Machine
end

