-- ==== Sys2Proof/Machine/EngBound.lean ====
section
/-! DEFINITION. The shape of a receiver-engine job and the occupancy bound that its unit computes at acceptance (chapter 08, R192, R195, R201, R203,
R208, R211, R214; chapter 12, R299). -/

namespace Sys2Proof.Machine

/-- T_p of R192 in ek for `n` lines, with H = n. -/
def portBound (n : Nat) : Nat := ceilDiv (2 * n + 21) 2

/-! ## EQ (R195, R196, R200) -/

def qPrb0 (d : BitVec 1024) : Nat := ef d 42 0 16
/-- Positions per PRB, c_t. -/
def qCt (d : BitVec 1024) : Nat := if qType2 d then 2 else 3
/-- Positions of the allocation. -/
def qPos (d : BitVec 1024) : Nat := qCt d * qNprb d
/-- Positions of a full group. -/
def qGpos (d : BitVec 1024) : Nat := qCt d * 2 ^ qG d
def qNg (d : BitVec 1024) : Nat := ceilDiv (qNprb d) (2 ^ qG d)
/-- Positions of group `g`; the last may be short. -/
def qGlen (d : BitVec 1024) (g : Nat) : Nat := min (qGpos d) (qPos d - qGpos d * g)
/-- DMRS occasions: single symbols, or pairs of consecutive DMRS symbols. -/
def dmrsPairs : List Nat → List (List Nat)
  | a :: b :: r => [a, b] :: dmrsPairs r
  | [a] => [[a]]
  | [] => []
def qOccs (d : BitVec 1024) : List (List Nat) :=
  let l := onesOf 14 (qDsym d)
  if qDouble d then dmrsPairs l else l.map fun x => [x]

/-- A layer: its UE, the UE's table entry, its port, and its place among the UE's layers. -/
structure EqLayer where
  ue : Nat
  entry : Nat
  port : Nat
  k : Nat
  deriving DecidableEq, Repr

/-- The layers in UE table order. -/
def State.eqLayers (s : State) (d : BitVec 1024) : List EqLayer :=
  ((s.ues d).zipIdx).flatMap fun (e, u) => ((uePorts e).zipIdx).map fun (p, k) => ⟨u, e, p, k⟩

/-- Codeword bits of a UE in the job. -/
def ueBits (d : BitVec 1024) (e : Nat) : Nat := (qSym d).length * 12 * qNprb d * (uePorts e).length * ueQm e

/-- An entry of the pass list: UE, passed, first codeword bit, E, address of the re-encoded bits. -/
structure PassEntry where
  ue : Nat
  passed : Bool
  first : Nat
  e : Nat
  bits : Nat
  deriving DecidableEq, Repr

/-- The pass list. -/
def State.passList (s : State) (d : BitVec 1024) : List PassEntry :=
  (List.range (s.le (qFbl d) 2)).map fun i =>
    let x := s.le (qFbl d + 16 + 16 * i) 16
    ⟨bitsOf x 0 8, bitsOf x 8 1 = 1, bitsOf x 32 32, bitsOf x 64 32, clAddr (bitsOf x 96 32)⟩

/-- Lines that an EQ job moves. -/
def State.eqLines (s : State) (d : BitVec 1024) : Nat :=
  qNr d * ceilDiv (48 * qNprb d) 64 * ((qSym d).length + (qOccs d).flatten.length)
    + ((s.ues d).map fun e => ceilDiv (ueBits d e) 64).sum

/-- T_w(ν). -/
def eqTw (d : BitVec 1024) (nu : Nat) : Nat := 24 + ceilDiv (qNr d ^ 3 + 9 * qNr d ^ 2 * nu) 1536

/-- T_eq with H = n (R201, R299), in ek. -/
def State.eqBound (s : State) (d : BitVec 1024) : Nat :=
  let nu := s.layers d
  let no := (qOccs d).length
  let npos := qPos d * no
  let nre := (qSym d).length * 12 * qNprb d
  let tp := 2 * s.eqLines d + 21
  let tc :=
    if eOp d = 0 then
      ceilDiv (npos * qNrls d * nu * (2 * qL d ^ 2 + 4 * qL d)) 256 + ceilDiv (npos * qNr d * nu * qL d) 256
        + ceilDiv (npos * nu * (qNr d * (qNr d + 1) / 2)) 256 + qNg d * no * eqTw d nu + ceilDiv (nre * nu * (qNr d + 8)) 256
    else
      let ps := s.passList d
      let res (want : Bool) : Nat := (ps.map fun p => if p.passed = want then
          p.e / max 1 (ueQm (s.ueEntry d p.ue)) else 0).sum
      let rem := ((s.eqLayers d).filter fun y => ps.any fun p => p.ue = y.ue && !p.passed).length
      ceilDiv (res true * qNr d * 4) 256 + qNg d * no * eqTw d rem + ceilDiv (res false * (qNr d + 8)) 256
  64 + max tc (ceilDiv tp 2)

/-! ## Rate matching (38.212 5.4.2) -/

/-- k0 of a redundancy version (Table 5.4.2.1-2). -/
def lK0 (d : BitVec 1024) : Nat :=
  let m := if lBg2 d then nthD [0, 13, 25, 43] (lRv d) 0 else nthD [0, 17, 33, 56] (lRv d) 0
  m * lNcb d / lN d * lZc d

/-- Circular-buffer positions of the fillers: K′ − 2Z_c to K − 2Z_c − 1. -/
def lFiller (d : BitVec 1024) (p : Nat) : Bool := lKp d ≤ p + 2 * lZc d && p + 2 * lZc d < lKb d * lZc d

/-- The positions that bit selection visits in one turn from k0. -/
def lTurn (d : BitVec 1024) : List Nat :=
  ((List.range (lNcb d)).map fun i => (lK0 d + i) % lNcb d).filter fun p => !lFiller d p

/-- Circular-buffer position of each of the E selected bits, in order. -/
def lSelect (d : BitVec 1024) : List Nat :=
  let t := lTurn d
  if t.isEmpty then [] else
    let v := t.toArray
    (List.range (lE d)).map fun j => v.getD (j % v.size) 0

/-! ## The base graph -/

/-- Rows of the base graph. -/
def lMb (d : BitVec 1024) : Nat := if lBg2 d then 42 else 46

/-- Columns of row `r`. -/
def lCols (d : BitVec 1024) (r : Nat) : List Nat := bgColumns (lBg2 d) r

/-- Highest column that holds a received or combined position; a column is 2 above its circular-buffer group. -/
def lTop (d : BitVec 1024) : Nat :=
  let ps := if lHarq d = 2 then lTurn d else (lSelect d)
  ps.foldl (fun m p => max m (p / lZc d + 2)) 0

/-- n_L of R203. -/
def lNl (d : BitVec 1024) : Nat := max 4 (min (lMb d) (lTop d + 1 - lKb d))

/-- e_act: non-zero entries of the rows in use. -/
def lEact (d : BitVec 1024) : Nat := ((List.range (lNl d)).map fun r => (lCols d r).length).sum

/-- T_it of R208, in ek. -/
def lTit (d : BitVec 1024) : Nat := lNl d + ceilDiv (lEact d * lZc d) 1280

/-- The core time of one block at the iteration limit and its port time (R208, R299), in ek. -/
def decBound (d : BitVec 1024) : Nat :=
  34 + lMaxit d * lTit d
    + portBound (ceilDiv (lE d) 64 + ceilDiv (lKp d) 512 + lHarq d * ceilDiv (lNcb d) 64 + 8 * (lAssist d).toNat)

/-- An encoder block (R211, R299), in ek. -/
def encBound (d : BitVec 1024) : Nat :=
  24 + ceilDiv (lKb d * lZc d) 32 + ceilDiv (lE d) 256 + portBound (ceilDiv (lKp d) 512 + ceilDiv (lE d) 512)

/-! ## Polar codecs (R214) -/

/-- A polar job (R214, R299), in ek. -/
def polBound (d : BitVec 1024) : Nat :=
  let n := polarLog (pK d) (pE d) (pNmax d)
  (match eOp d with
    | 0 => 48 + ceilDiv (2 ^ n * n) 16 + 2 * pK d
    | 1 => 16 + ceilDiv (2 ^ n * n) 64 + ceilDiv (pE d) 64
    | 2 => 32 + ceilDiv (pE d * 2 ^ pK d) 256
    | _ => 16 + ceilDiv (pE d) 64)
    + portBound (if eOp d % 2 = 0 then ceilDiv (pE d) 64 + ceilDiv (pK d) 512 else ceilDiv (pK d) 512 + ceilDiv (pE d) 512)

/-- The occupancy bound of a job of class `cls` from the descriptor and the tables as they stand at acceptance, in ek (R299). -/
def State.engBound (s : State) (cls : Nat) (d : BitVec 1024) : Nat :=
  match cls with
  | 2 => s.eqBound d
  | 3 => decBound d
  | 4 => encBound d
  | 5 => polBound d
  | _ => 0

end Sys2Proof.Machine
end

