-- ==== Sys2Proof/Machine/Queue.lean ====
section
/-! DEFINITION. The pointer queues and rings of the hard engines: entry, acceptance, records, joins and completion (chapters 07 and 08,
R183, R186 to R191, R193). -/

namespace Sys2Proof.Machine

/-- Logical units of a class (R186). -/
def unitCount : Nat → Nat
  | 0 => 16 | 1 => 1 | 2 => 8 | 3 => 6 | 4 => 4 | 5 => 2 | _ => 0

/-- Position of a unit in `State.hard`. -/
def unitIx (cls u : Nat) : Fin 37 :=
  Fin.ofNat 37 ((match cls with | 0 => 0 | 1 => 16 | 2 => 17 | 3 => 25 | 4 => 31 | _ => 35) + u)

/-- A unit. -/
def State.unit (s : State) (cls u : Nat) : HardUnit := s.hard[(unitIx cls u).val]

/-- Replace a unit. -/
def State.withUnit (s : State) (cls u : Nat) (f : HardUnit → HardUnit) : State :=
  { s with hard := s.hard.set (unitIx cls u).val (f s.hard[(unitIx cls u).val]) }

/-- Power domain and reset group of a class (R319, R343). -/
def clsDomain : Nat → Nat × Nat
  | 0 => (86, 2) | 1 => (86, 2) | 2 => (88, 3) | _ => (89, 3)

/-- Address of ENG_CTL of a unit of classes 2 to 5. -/
def engBase (cls u : Nat) : Nat :=
  match cls with
  | 2 => EQ_ENG_CTL.reg u
  | 3 => LDPCD_ENG_CTL.reg u
  | 4 => LDPCE_ENG_CTL.reg u
  | _ => POL_ENG_CTL.reg u

def engEn (cls u : Nat) : Fld := ⟨engBase cls u, 0, 1⟩
def engPoll (cls u : Nat) : Fld := ⟨engBase cls u, 1, 1⟩
def engRingEn (cls u : Nat) : Fld := ⟨engBase cls u + 8, 28, 1⟩
def engRingLog (cls u : Nat) : Fld := ⟨engBase cls u + 8, 24, 4⟩
def engRingOff (cls u : Nat) : Fld := ⟨engBase cls u + 8, 6, 18⟩
def engRingCl (cls u : Nat) : Fld := ⟨engBase cls u + 8, 0, 3⟩
def engNq (cls u : Nat) : Fld := ⟨engBase cls u + 0x10, 16, 4⟩
def engState (cls u : Nat) : Fld := ⟨engBase cls u + 0x10, 0, 2⟩

/-- The unit's overflow and bad bits. -/
def engOvf : Nat → Fld
  | 2 => EQ_CAUSE.ovf | 3 => LDPC_CAUSE.dec_ovf | 4 => LDPC_CAUSE.enc_ovf | _ => POL_CAUSE.ovf
def engBad : Nat → Fld
  | 2 => EQ_CAUSE.bad | 3 => LDPC_CAUSE.dec_bad | 4 => LDPC_CAUSE.enc_bad | _ => POL_CAUSE.bad

/-- ENG_STAT follows the unit: pointers queued, and 0 idle, 1 running, 2 draining, 3 disabled. -/
def State.syncUnit (s : State) (cls u : Nat) : State :=
  if cls < 2 then s
  else
    let x := s.unit cls u
    let st := if x.draining && x.job.isSome then 2 else if x.job.isSome then 1 else if s.flag (engEn cls u) then 0 else 3
    (s.put (engNq cls u) x.ptrs.length).put (engState cls u) st

/-- Descriptor bytes of a class. -/
def descBytes (cls : Nat) : Nat := if cls < 2 then 32 else 128

/-! ## Records (R189, R190) -/

/-- Status byte of a completion record. -/
def statusByte (done pfail crcOk capped late cut bad : Bool) : Nat :=
  done.toNat + 2 * pfail.toNat + 4 * crcOk.toNat + 8 * capped.toNat + 16 * late.toNat + 32 * cut.toNat + 64 * bad.toNat

/-- Write a completion record and advance prod; clog = 0 writes none (R190). -/
def State.engRecord (s : State) (d : BitVec 1024) (status iter : Nat) : State :=
  if eClog d = 0 then s
  else
    let prod := s.le (eRing d 0) 4
    let a := eRing d (64 + 16 * (prod % 2 ^ eClog d))
    let s := ((s.setLe a 4 (eTag d)).setLe (a + 4) 1 status).setLe (a + 5) 1 iter
    let s := (s.setLe (a + 6) 2 0).setLe (a + 8) 8 (s.atNow (eAt d))
    s.setLe (eRing d 0) 4 (prod + 1)

/-- The cluster of a completion ring is off. -/
def State.recordOff (s : State) (d : BitVec 1024) : Bool := eClog d ≠ 0 && !s.domOn (72 + ef d 16 24 3)

/-- The record of a job, or its flag, would reach a unit that is off (R320). -/
def State.reportOff (s : State) (d : BitVec 1024) : Bool := s.recordOff d || eEv d && !s.tileOn (eTile d)

/-- Report the end of a job, also of one that is skipped or cut: the record, then with ev = 1 the flag (R189, R190, R193). -/
def State.engReport (s : State) (d : BitVec 1024) (status iter : Nat) : State :=
  let s := s.engRecord d status iter
  if eEv d then s.setEvf (eTile d) (eFlag d) else s

/-! ## Acceptance (R183, R187, R189) -/

/-- The repair kind of a class (R293); the DFE job unit has none. -/
def clsRepKind : Nat → Nat
  | 0 => 6 | 2 => 7 | 3 => 8 | 4 => 9 | 5 => 10 | _ => 16

/-- The unit takes pointers: pointers of a failed unit wait for its remap (R307). -/
def State.present (s : State) (cls u : Nat) : Bool := !s.absent (clsRepKind cls) u && !s.unitHeld (clsRepKind cls) u

/-- The unit accepts work now. -/
def State.accepts (s : State) (cls u : Nat) : Bool :=
  cls < 2 || (s.flag (engEn cls u) && !(s.unit cls u).draining)

/-- The deadline of a descriptor has passed (R190, R206). -/
def State.lateNow (s : State) (d : BitVec 1024) : Bool := eDlEn d && airDiff (eDeadline d) (s.atNow (eAt d)) ≤ 0

/-- A capture descriptor accepted after its instant (R182). -/
def State.captureLate (s : State) (d : BitVec 1024) : Bool :=
  let j := Config.dfeJob (d.setWidth 256)
  let tl := s.get (DFE_TXc_CFG.at j.chain)
  j.capture && s.timelineOn tl && airLater (s.atNow tl) (j.t % Config.airWrap)

/-- Accept the pointers at the head of the queue until one starts a job; `n` bounds the bad ones that are skipped.  A decoder reads its assist
table with the descriptor (R187, R205); the occupancy bound is computed here (R299). -/
def State.engAccept (cls u : Nat) : Nat → State → Res
  | 0, s => .next (s.syncUnit cls u)
  | n + 1, s =>
    let x := s.unit cls u
    match x.ptrs, x.job.isNone && s.accepts cls u && s.present cls u with
    | p :: rest, true =>
      let a := clusterBase p.cl + p.off
      if !s.addrOn a then .fault .poweredOff
      else
        let d := BitVec.ofNat 1024 (s.le a (descBytes cls))
        let d := if cls < 2 then d else withDeadline d p.dl
        let s := (s.checkRead a (descBytes cls)).withUnit cls u fun x => { x with ptrs := rest }
        if s.descBad cls d then
          if s.reportOff d then .fault .poweredOff
          else State.engAccept cls u n ((s.engReport d (statusByte false false false false false false true) 0).raiseBit (engBad cls) u)
        else if cls = 3 && lAssist d && !s.addrOn (lAtab d) then .fault .poweredOff
        else
          let s := if cls = 3 && lAssist d then s.checkRead (lAtab d) 512 else s
          let table := if cls = 3 && lAssist d then s.bytes (lAtab d) 512 else []
          let late := if cls ≥ 2 then s.lateNow d else cls = 1 && s.captureLate d
          let j : EngJob := ⟨d, p, s.mono, table, false, false, false, false, late, 0, s.engBound cls d⟩
          let s := s.raiseIf (cls = 1 && late) DFE_CAUSE.late
          .next ((s.withUnit cls u fun x => { x with job := some j }).syncUnit cls u)
    | _, _ => .next (s.syncUnit cls u)

/-- A pointer arrives at unit `u` of class `cls` (R183, R186, R187): dropped with its overflow bit set when the queue holds 8
entries or the unit is disabled or draining; to a group in reset it has no effect (R344); classes 6 and 7 and units that do not exist issue nothing. -/
def State.pushPtr (s : State) (cls u : Nat) (p : Ptr) : Res :=
  if cls > 5 || u ≥ unitCount cls then .next s
  else
    let (d, g) := clsDomain cls
    if !s.domOn d || s.absent (clsRepKind cls) u then .fault .poweredOff
    else if s.held g then .next (s.raise PWR_CAUSE.rstacc)
    else if cls < 2 then
      if (s.unit cls u).ptrs.length ≥ 8 then .next (s.raise DFE_CAUSE.ovf)
      else State.engAccept cls u 9 (s.withUnit cls u fun x => { x with ptrs := x.ptrs ++ [p] })
    else if (s.unit cls u).ptrs.length ≥ 8 || !s.accepts cls u then .next (s.raiseBit (engOvf cls) u)
    else State.engAccept cls u 9 (s.withUnit cls u fun x => { x with ptrs := x.ptrs ++ [p] })

/-- Push a next action (R191, R227): next = 0 pushes nothing. -/
def State.pushNext (s : State) (n : NextPtr) : Res :=
  if n.next = 0 then .next s else s.pushPtr n.cls n.unit ⟨n.cl, n.next, none⟩

end Sys2Proof.Machine
end

