-- ==== Sys2Proof/Machine/Eq.lean ====
section
/-! DEFINITION. The EQ engines: estimation, detection and feedback passes (chapter 08, R195 to R201).  R197 fixes its arithmetic; the
values of the other steps pass through `Config.eqStep` (log entry 15). -/

namespace Sys2Proof.Machine

/-! ## Binary32 complex arithmetic: each operation rounded, no fusing (R197) -/

/-- A complex number of binary32 parts. -/
structure C32 where
  re : FV
  im : FV
  deriving DecidableEq, Repr

def r32 (v : FV) : FV := f32.round v
def C32.zero : C32 := ⟨.zero false, .zero false⟩
def C32.real (v : FV) : C32 := ⟨v, .zero false⟩
def C32.conj (a : C32) : C32 := ⟨a.re, a.im.neg⟩
def C32.add (a b : C32) : C32 := ⟨r32 (a.re.add b.re), r32 (a.im.add b.im)⟩
def C32.sub (a b : C32) : C32 := ⟨r32 (a.re.sub b.re), r32 (a.im.sub b.im)⟩
def C32.mul (a b : C32) : C32 :=
  ⟨r32 ((r32 (a.re.mul b.re)).sub (r32 (a.im.mul b.im))), r32 ((r32 (a.re.mul b.im)).add (r32 (a.im.mul b.re)))⟩
def C32.scale (a : C32) (f : FV) : C32 := ⟨r32 (a.re.mul f), r32 (a.im.mul f)⟩
def C32.over (a : C32) (f : FV) : C32 := ⟨r32 (a.re.div f), r32 (a.im.div f)⟩
def C32.norm (a : C32) : FV := r32 ((r32 (a.re.mul a.re)).add (r32 (a.im.mul a.im)))

/-- A value of step `k` (log entry 15). -/
def eqV (k : Nat) (v : FV) : FV := f32.dec (Config.eqStep k (BitVec.ofNat 32 (f32.enc v))).toNat
def eqC (k : Nat) (a : C32) : C32 := ⟨eqV k a.re, eqV k a.im⟩

/-- A sum in ascending index. -/
def csum : List C32 → C32
  | [] => .zero
  | x :: xs => xs.foldl C32.add x
def fsum : List FV → FV
  | [] => .zero false
  | x :: xs => xs.foldl (fun a b => r32 (a.add b)) x

/-- Σ a_t b_t. -/
def cdot (a b : List C32) : C32 := csum (List.zipWith C32.mul a b)

abbrev CMat := List (List C32)
def CMat.at (m : CMat) (i j : Nat) : C32 := nthD (nthD m i []) j .zero
def cmat (r c : Nat) (f : Nat → Nat → C32) : CMat := (List.range r).map fun i => (List.range c).map (f i)

/-- The square root rounded to binary32. -/
def fsqrt : FV → FV
  | .fin q => if q < 0 then FV.invalid else r32 (.fin ((isqrt (q * ((2 ^ 640 : Nat) : Rat)).floor.toNat : Rat) / ((2 ^ 320 : Nat) : Rat)))
  | .inf false => .inf false
  | .inf true => FV.invalid
  | v => v

/-! ## Scrambling and constellations of 38.211 (log entry 11) -/

/-- One step of a 31-bit Gold register with the given taps. -/
def goldStep (taps : Nat → Bool) (x : Nat) : Nat := x / 2 + (if taps x then 2 ^ 30 else 0)
def goldX1 (x : Nat) : Nat := goldStep (fun x => x.testBit 3 != x.testBit 0) x
def goldX2 (x : Nat) : Nat := goldStep (fun x => (x.testBit 3 != x.testBit 2) != (x.testBit 1 != x.testBit 0)) x

/-- `n` bits of the scrambling sequence from its registers. -/
def goldBits : Nat → Nat → Nat → List Bool
  | 0, _, _ => []
  | n + 1, a, b => (a.testBit 0 != b.testBit 0) :: goldBits n (goldX1 a) (goldX2 b)

/-- The first `n` bits of the sequence of c_init (38.211 5.2.1). -/
def gold (cinit n : Nat) : List Bool := goldBits n (iter goldX1 1600 1) (iter goldX2 1600 (cinit % 2 ^ 31))

/-- The odd amplitude that the bits of one axis select. -/
def qamLevel : List Bool → Int
  | [] => 0
  | b :: bs => (if b then -1 else 1) * ((2 ^ bs.length : Nat) - qamLevel bs)

/-- Bits of one axis: b_0, b_2, … or b_1, b_3, …. -/
def axisBits (bs : List Bool) (o : Nat) : List Bool := (List.range (bs.length / 2)).map fun i => nthD bs (2 * i + o) false

/-- The constellation point of Qm bits (38.211 5.1), scaled to unit mean power. -/
def qamPoint (bs : List Bool) : C32 :=
  let n := fsqrt (.fin (nthD [1, 2, 10, 42, 170] (bs.length / 2) 1))
  ⟨r32 ((FV.ofInt (qamLevel (axisBits bs 0))).div n), r32 ((FV.ofInt (qamLevel (axisBits bs 1))).div n)⟩

/-- Bit strings of length `n`. -/
def bitStrings (n : Nat) : List (List Bool) := (List.range (2 ^ n)).map fun v => (List.range n).map fun i => v.testBit (n - 1 - i)

/-! ## The job's shape (R195, R196) -/

/-- λ; 0 counts as 1. -/
def qLambda (d : BitVec 1024) : FV := let l := ef d 54 0 16; if l = 0 then .fin 1 else .fin ((l : Rat) / 65536)
def qDelta (d : BitVec 1024) : FV := f16.dec (ef d 56 0 16)
def qLsh (d : BitVec 1024) : Int := sCast 8 (ef d 59 0 8)
def qInit (d : BitVec 1024) : Bool := ef d 78 0 1 = 1
def qBeta (d : BitVec 1024) : FV := .ofRat ((ef d 77 0 8 : Rat) / 256)

/-- Tap offsets −L/2 to −1 and 1 to L/2. -/
def qTaps (d : BitVec 1024) : List Int :=
  let h := qL d / 2
  ((List.range h).map fun (i : Nat) => (i : Int) - h) ++ ((List.range h).map fun (i : Nat) => (i : Int) + 1)

/-- Bytes of a region of the batch ring (R166). -/
def qRegion (d : BitVec 1024) : Nat := 64 * ceilDiv (48 * ef d 38 0 16) 64

/-- Address of the slot of symbol `l` in the batch ring. -/
def qSlot (d : BitVec 1024) (l : Nat) : Nat :=
  let i := (ef d 36 0 8 + l) % 2 ^ (Config.batchDepth d)
  clAddr (ef d 32 0 32) + 64 + i * (64 + (ef d 37 0 8 + 1) * qRegion d)

/-- y of antenna `a` on symbol `l`, subcarrier `k` of the allocation. -/
def State.eqY (s : State) (d : BitVec 1024) (a l k : Nat) : C32 :=
  let at_ := qSlot d l + 64 + (ef d 40 0 8 + a) * qRegion d + 48 * qPrb0 d + 4 * k
  ⟨.ofInt (sCast 16 (s.le at_ 2)), .ofInt (sCast 16 (s.le (at_ + 2) 2))⟩

/-- Subcarriers, within the allocation, of position `n` for a port: the two REs of its CDM group (38.211 6.4.1.1, log entry 11). -/
def dmrsRes (type2 : Bool) (port n : Nat) : List Nat :=
  if type2 then
    let k := 6 * n + 2 * (port / 2 % 3)
    [k, k + 1]
  else
    let k := 4 * n + port / 2 % 2
    [k, k + 2]

/-- c_init of the DMRS sequence of a UE's entry on symbol `l` of slot `ns` of a frame (38.211 6.4.1.1.1.1). -/
def dmrsInit (entry symbols ns l : Nat) : Nat :=
  let nid := bitsOf entry 32 16
  (2 ^ 17 * (symbols * ns + l + 1) * (2 * nid + 1) + 2 * nid + bitsOf entry 16 1) % 2 ^ 31

/-- The first `n` elements r(m) of the DMRS sequence of `cinit` (38.211 6.4.1.1.1.1). -/
def dmrsSeq (cinit n : Nat) : List C32 :=
  let c := (gold cinit (2 * n)).toArray
  let h := fsqrt (.fin (1 / 2))
  let v (i : Nat) : FV := if c.getD i false then h.neg else h
  (List.range n).map fun m => ⟨v (2 * m), v (2 * m + 1)⟩

/-- Place in the sequence of subcarrier `k` of the region for a port, and the place k′ of the RE in its CDM pair (38.211 6.4.1.1.3). -/
def dmrsPlace (type2 : Bool) (port k : Nat) : Nat × Nat :=
  let k' := if type2 then k % 6 - 2 * (port / 2 % 3) else k % 4 / 2
  (2 * (if type2 then k / 6 else k / 4) + k', k')

/-- The orthogonal cover of a port at place k′ in frequency and l′ in time is −1 (38.211 Tables 6.4.1.1.3-1 and 6.4.1.1.3-2). -/
def dmrsFlip (type2 : Bool) (port k' l' : Nat) : Bool := (k' = 1 && port % 2 = 1) != (l' = 1 && decide (port ≥ if type2 then 6 else 4))

/-- The DMRS sequence of a layer on symbol `l`, over the region up to the end of the allocation: the slot is that of the batch's T_sym. -/
def State.eqDmrs (s : State) (d : BitVec 1024) (y : EqLayer) (l : Nat) : List C32 :=
  let (mu, ecp) := s.numerology (eAt d)
  let p := atDecode (s.le (qSlot d l) 8) mu ecp
  dmrsSeq (dmrsInit y.entry (slotSymbols ecp) (p.subframe * 2 ^ mu + p.slot) l) (6 * (qPrb0 d + qNprb d))

/-- h̄ of an occasion, antenna, layer and position inside the allocation (R196); `seqs` are the layer's sequences on the occasion's symbols. -/
def State.eqHb (s : State) (d : BitVec 1024) (occ : List Nat) (seqs : List (Array C32)) (a : Nat) (y : EqLayer) (n : Nat) : C32 :=
  let ps := (occ.zip seqs).zipIdx.flatMap fun ((l, seq), l') => (dmrsRes (qType2 d) y.port n).map fun k =>
    let (m, k') := dmrsPlace (qType2 d) y.port (12 * qPrb0 d + k)
    let r := seq.getD m .zero
    let r := if dmrsFlip (qType2 d) y.port k' l' then C32.zero.sub r else r
    (s.eqY d a l k).mul r.conj
  eqC 1 ((csum ps).over (FV.ofInt ps.length))

/-- h̄ of one occasion: antenna, then layer, then position. -/
abbrev HTab := List CMat
def HTab.at (h : HTab) (a p : Nat) (n : Int) : C32 := if n < 0 then .zero else (nthD h a []).at p n.toNat

/-- h̄ of every occasion. -/
def State.eqHbs (s : State) (d : BitVec 1024) : List HTab :=
  let ls := s.eqLayers d
  (qOccs d).map fun occ =>
    let seqs := ls.map fun y => (y, occ.map fun l => (s.eqDmrs d y l).toArray)
    (List.range (qNr d)).map fun a => seqs.map fun (y, q) => (List.range (qPos d)).map (s.eqHb d occ q a y)

/-! ## The tracked filter (R197) -/

structure Rls where
  p : CMat
  w : List C32
  deriving DecidableEq, Repr

/-- S_g. -/
def qStateStride (d : BitVec 1024) : Nat := 64 * ceilDiv (8 * qL d * (qL d + 1)) 64

/-- A binary32 complex number in memory. -/
def State.c32 (s : State) (a : Nat) : C32 := ⟨f32.dec (s.le a 4), f32.dec (s.le (a + 4) 4)⟩
def State.putC32 (s : State) (a : Nat) (x : C32) : State := s.sysPut a (bytesOf 4 (f32.enc x.re) ++ bytesOf 4 (f32.enc x.im))
def State.putCs (s : State) (a : Nat) : List C32 → State
  | [] => s
  | x :: xs => State.putCs (s.putC32 a x) (a + 8) xs

/-- The filter of group `g` at the start. -/
def State.rlsStart (s : State) (d : BitVec 1024) (g : Nat) : Rls :=
  let l := qL d
  if qInit d then
    ⟨cmat l l fun i j => if i = j then C32.real (.fin 1024) else .zero, (List.range l).map fun _ => C32.real (r32 ((FV.fin 1).div (FV.ofInt l)))⟩
  else
    let a := clAddr (ef d 64 0 32) + qStateStride d * g
    ⟨cmat l l fun i j => s.c32 (a + 8 * (l * i + j)), (List.range l).map fun i => s.c32 (a + 8 * (l * l + i))⟩

/-- One update of the filter (R197). -/
def rlsStep (lam : FV) (x : Rls) (u : List C32) (h : C32) : Rls :=
  let cu := u.map C32.conj
  let pu := x.p.map fun row => cdot row u
  let den := r32 (lam.add (cdot cu pu).re)
  if den.isNan || den = .zero false || den = .zero true then x
  else
    let k := pu.map fun v => v.over den
    let e := h.sub (cdot (x.w.map C32.conj) u)
    let w := List.zipWith (fun w k => w.add (k.mul e.conj)) x.w k
    let up := (List.range u.length).map fun j => cdot cu (x.p.map fun row => nthD row j .zero)
    let p := List.zipWith (fun row ki => List.zipWith (fun v uj => (v.sub (ki.mul uj)).over lam) row up) x.p k
    ⟨p, w⟩

/-- The taps' inputs at position `n`. -/
def rlsIn (d : BitVec 1024) (h : HTab) (a p n : Nat) : List C32 := (qTaps d).map fun o => h.at a p ((n : Int) + o)

/-- The filter of group `g` after the job's updates. -/
def rlsRun (d : BitVec 1024) (hs : List HTab) (nu g : Nat) (x : Rls) : Rls :=
  hs.foldl (fun x h => (List.range (qGlen d g)).foldl (fun x i => (List.range nu).foldl (fun x p =>
    (List.range (qNrls d)).foldl (fun x a =>
      let n := qGpos d * g + i
      rlsStep (qLambda d) x (rlsIn d h a p n) (h.at a p n)) x) x) x) x

/-- hp: the prediction. -/
def rlsPredict (d : BitVec 1024) (x : Rls) (h : HTab) (a p n : Nat) : C32 := cdot (x.w.map C32.conj) (rlsIn d h a p n)

/-! ## The detector (R198, R199) -/

/-- Ĥ_g and R_g of a group and occasion. -/
structure EqEst where
  h : CMat
  r : CMat
  deriving DecidableEq, Repr

/-- Estimates of group `g` on one occasion. -/
def eqEstimate (d : BitVec 1024) (x : Rls) (h : HTab) (nu g : Nat) : EqEst :=
  let nr := qNr d
  let n0 := qGpos d * g
  let es : CMat := (List.range (qGlen d g)).flatMap fun i => (List.range nu).map fun p => (List.range nr).map fun a =>
    (h.at a p ((n0 + i : Nat) : Int)).sub (rlsPredict d x h a p (n0 + i))
  let cnt := FV.ofInt (qGlen d g * nu : Nat)
  { h := cmat nr nu fun a p => rlsPredict d x h a p (n0 + qGlen d g / 2)
    r := cmat nr nr fun a b =>
      let m := (csum (es.map fun e => (nthD e a .zero).mul (nthD e b .zero).conj)).over cnt
      eqC 2 (if a = b then ⟨r32 (m.re.add (qDelta d)), m.im⟩ else m) }

/-- The Cholesky factor, as a list of columns (R198). -/
def cholesky (delta : FV) (c : CMat) (n : Nat) : CMat :=
  (List.range n).foldl (fun cols j =>
    let lij (i k : Nat) : C32 := nthD (nthD cols k []) i .zero
    let rad := r32 ((c.at j j).re.sub (fsum ((List.range j).map fun k => (lij j k).norm)))
    let dj := fsqrt (if rad.isNan || !(FV.ltNum (.zero false) rad) then delta else rad)
    cols ++ [(List.range n).map fun i =>
      if i < j then C32.zero else if i = j then C32.real dj
      else ((c.at i j).sub (csum ((List.range j).map fun k => (lij i k).mul (lij j k).conj))).over dj]) []

/-- C^−1 b for one column, by forward and back substitution. -/
def cholSolve (cols : CMat) (n : Nat) (b : List C32) : List C32 :=
  let l (i k : Nat) : C32 := nthD (nthD cols k []) i .zero
  let y := (List.range n).foldl (fun y i =>
    y ++ [((nthD b i .zero).sub (csum (y.zipIdx.map fun (v, k) => (l i k).mul v))).over (l i i).re]) []
  (List.range n).reverse.foldl (fun x i =>
    (((nthD y i .zero).sub (csum (x.zipIdx.map fun (v, k) => (l (i + 1 + k) i).conj.mul v))).over (l i i).re) :: x) []

/-- W and μ of an estimate over the columns `cs` of Ĥ. -/
def eqWeights (d : BitVec 1024) (x : EqEst) (cs : List Nat) : CMat × List FV :=
  let nr := qNr d
  let h := cmat nr cs.length fun a i => x.h.at a (nthD cs i 0)
  let c := cmat nr nr fun a b => (csum ((List.range cs.length).map fun i => (h.at a i).mul (h.at b i).conj)).add (x.r.at a b)
  let f := cholesky (qDelta d) c nr
  let w := (List.range cs.length).map fun i => (cholSolve f nr (h.map fun row => nthD row i .zero)).map fun v => eqC 3 v.conj
  let lo : FV := .fin (1 / 65536)
  let hi : FV := .fin (65535 / 65536)
  (w, w.zipIdx.map fun (row, i) => FV.max lo (FV.min hi (eqV 4 (cdot row (h.map fun r => nthD r i .zero)).re)))

/-- The nearest occasion in time to symbol `l`, ties to the earlier. -/
def nearestOcc (d : BitVec 1024) (l : Nat) : Nat :=
  let dist (occ : List Nat) : Nat := occ.foldl (fun m x => min m (if x ≤ l then l - x else x - l)) 100
  ((qOccs d).zipIdx.foldl (fun (best : Nat × Nat) (p : List Nat × Nat) => if dist p.1 < best.1 then (dist p.1, p.2) else best) (101, 0)).2

/-- LLR_b of R199 for the value z. -/
def eqLlr (qm : Nat) (z : C32) (mu : FV) (b : Nat) : FV :=
  let dist (v : Bool) : FV := ((bitStrings qm).filter fun t => nthD t b false = v).foldl (fun m t =>
    let x := (z.sub (qamPoint t)).norm
    if m.isNan || x.isNan then FV.invalid else FV.min m x) (.inf false)
  eqV 6 (r32 ((r32 ((dist true).sub (dist false))).mul (r32 (mu.div (r32 ((FV.fin 1).sub mu))))))

/-- The byte of an LLR: sat(rne(LLR × 2^lsh)), NaN 0, the sign flipped by the scrambling bit. -/
def llrByte (lsh : Int) (v : FV) (flip : Bool) : BitVec 8 :=
  let n : Int := match v with
    | .nan _ => 0
    | .inf m => if m then -127 else 127
    | .zero _ => 0
    | .fin q => sat (rne (q * pow2 lsh)) (-127) 127
  BitVec.ofInt 8 (if flip then -n else n)

/-- Scrambling bits of a UE over `n` codeword bits. -/
def ueScramble (e n : Nat) : List Bool := gold (bitsOf e 64 16 * 2 ^ 15 + bitsOf e 48 16) n

/-- Detect the layers `cs` and write the LLRs of the codeword bits that `want` names (R199); `y` gives the observations. -/
def State.eqWrite (s : State) (d : BitVec 1024) (ests : List (List EqEst)) (cs : List Nat) (y : Nat → Nat → Nat → C32)
    (want : Nat → Nat → Bool) : State :=
  let ls := s.eqLayers d
  let ws := ests.map fun os => os.map fun x => eqWeights d x cs
  let scr := (s.ues d).map fun e => ueScramble e (ueBits d e)
  (qSym d).zipIdx.foldl (fun s (l, li) => (List.range (12 * qNprb d)).foldl (fun s k =>
    let wm := nthD (nthD ws (k / 12 / 2 ^ qG d) []) (nearestOcc d l) ([], [])
    let yv := (List.range (qNr d)).map fun a => y a l k
    cs.zipIdx.foldl (fun s (c, i) =>
      match ls[c]? with
      | none => s
      | some lay =>
        let qm := ueQm lay.entry
        let mu := nthD wm.2 i (.fin 1)
        let z := eqC 5 ((cdot (nthD wm.1 i []) yv).over mu)
        let at_ := ((li * 12 * qNprb d + k) * (uePorts lay.entry).length + lay.k) * qm
        (List.range qm).foldl (fun s b =>
          if want lay.ue (at_ + b) then
            s.putByte 3 (ueLlr lay.entry + at_ + b) (llrByte (qLsh d) (eqLlr qm z mu b) (nthD (nthD scr lay.ue []) (at_ + b) false))
          else s) s) s) s) s

/-- Address of Ĥ_g and R_g of group `g` and occasion `o` in the work area: group-major. -/
def eqWork (d : BitVec 1024) (nu g o : Nat) : Nat :=
  clAddr (ef d 68 0 32) + 8 * (qNr d * nu + qNr d * qNr d) * (g * (qOccs d).length + o)

/-- Keep an estimate in the work area. -/
def State.eqKeep (s : State) (d : BitVec 1024) (nu g o : Nat) (x : EqEst) : State :=
  s.putCs (eqWork d nu g o) (x.h.flatten ++ x.r.flatten)

/-- Keep every estimate. -/
def State.eqKeepAll (s : State) (d : BitVec 1024) (nu : Nat) (ests : List (List EqEst)) : State :=
  ests.zipIdx.foldl (fun s (os, g) => os.zipIdx.foldl (fun s (x, o) => s.eqKeep d nu g o x) s) s

/-- Op 0 (R196 to R199): filters written back, estimates kept, LLRs of every layer written. -/
def State.eqDetect (s : State) (d : BitVec 1024) : State :=
  let nu := s.layers d
  let hs := s.eqHbs d
  let fs := (List.range (qNg d)).map fun g => rlsRun d hs nu g (s.rlsStart d g)
  let ests := fs.zipIdx.map fun (x, g) => hs.map fun h => eqEstimate d x h nu g
  let s' := s.eqWrite d ests (List.range nu) (fun a l k => s.eqY d a l k) (fun _ _ => true)
  let s' := fs.zipIdx.foldl (fun s' (x, g) => s'.putCs (clAddr (ef d 64 0 32) + qStateStride d * g) (x.p.flatten ++ x.w)) s'
  s'.eqKeepAll d nu ests

/-! ## Feedback passes (R200) -/

/-- Bit `k` of packed bits at `a`, in the order of R207. -/
def State.packedBit (s : State) (a k : Nat) : Bool := (s.byte (a + k / 8)).getLsbD (7 - k % 8)

/-- The re-encoded bit at position `i` of the codeword of UE `u`, if its block passed. -/
def State.passBit (s : State) (ps : List PassEntry) (u i : Nat) : Option Bool :=
  match ps.find? fun p => p.ue = u && p.passed && p.first ≤ i && i < p.first + p.e with
  | some p => some (s.packedBit p.bits (i - p.first))
  | none => none

/-- The symbol s of a layer at the RE whose first codeword bit is `at_`, if decoded. -/
def State.passSymbol (s : State) (ps : List PassEntry) (scr : List (List Bool)) (lay : EqLayer) (at_ : Nat) : Option C32 :=
  let bs := (List.range (ueQm lay.entry)).map fun b =>
    (s.passBit ps lay.ue (at_ + b)).map fun v => v != nthD (nthD scr lay.ue []) (at_ + b) false
  if bs.all Option.isSome then some (qamPoint (bs.map fun b => b.getD false)) else none

/-- First codeword bit of layer `lay` at data symbol number `li`, subcarrier `k`. -/
def reBit (d : BitVec 1024) (lay : EqLayer) (li k : Nat) : Nat :=
  ((li * 12 * qNprb d + k) * (uePorts lay.entry).length + lay.k) * ueQm lay.entry

/-- The estimates kept by the passes before. -/
def State.eqKept (s : State) (d : BitVec 1024) (nu g o : Nat) : EqEst :=
  let a := eqWork d nu g o
  let nr := qNr d
  ⟨cmat nr nu fun i j => s.c32 (a + 8 * (nu * i + j)), cmat nr nr fun i j => s.c32 (a + 8 * (nr * nu + nr * i + j))⟩

/-- The decoded layers of an RE: number and symbol. -/
def State.decoded (s : State) (d : BitVec 1024) (ps : List PassEntry) (scr : List (List Bool)) (li k : Nat) : List (Nat × C32) :=
  (s.eqLayers d).zipIdx.filterMap fun (lay, i) => (s.passSymbol ps scr lay (reBit d lay li k)).map fun x => (i, x)

/-- Observations at an RE less the decoded layers in `ds`, under the columns of Ĥ. -/
def eqRemove (h : CMat) (y : List C32) (ds : List (Nat × C32)) : List C32 :=
  y.zipIdx.map fun (v, a) => ds.foldl (fun v (i, x) => v.sub ((h.at a i).mul x)) v

/-- Refine column `i` of Ĥ over the REs of a group and occasion where layer `i` is decoded: each RE carries its observations and decoded
layers. -/
def eqRefine (beta : FV) (res : List (List C32 × List (Nat × C32))) (h : CMat) (i : Nat) : CMat :=
  let hit := res.filterMap fun (y, ds) => (ds.find? fun p => p.1 = i).map fun p => (eqRemove h y (ds.filter fun q => q.1 ≠ i), p.2)
  if hit.isEmpty then h
  else
    let den := fsum (hit.map fun p => p.2.norm)
    h.zipIdx.map fun (row, a) =>
      let hdd := eqC 7 ((csum (hit.map fun p => (nthD p.1 a .zero).mul p.2.conj)).over den)
      let v := nthD row i .zero
      row.set i (v.add ((hdd.sub v).scale beta))

/-- Op 1 (R200): a list with no failed block does nothing. -/
def State.eqFeedback (s : State) (d : BitVec 1024) : State :=
  let ps := s.passList d
  if ps.all PassEntry.passed then s
  else
    let ls := s.eqLayers d
    let nu := ls.length
    let scr := (s.ues d).map fun e => ueScramble e (ueBits d e)
    let occs := (List.range (qOccs d).length)
    let re (l li k : Nat) : List C32 × List (Nat × C32) := ((List.range (qNr d)).map fun a => s.eqY d a l k, s.decoded d ps scr li k)
    let ests := (List.range (qNg d)).map fun g => occs.map fun o =>
      let x := s.eqKept d nu g o
      let res := (qSym d).zipIdx.flatMap fun (l, li) =>
        if nearestOcc d l = o then
          (List.range (12 * qNprb d)).filterMap fun k => if k / 12 / 2 ^ qG d = g then some (re l li k) else none
        else []
      { x with h := (List.range nu).foldl (eqRefine (qBeta d) res) x.h }
    let failedUe (u : Nat) : Bool := ps.any fun p => p.ue = u && !p.passed
    let cs := (ls.zipIdx.filter fun p => failedUe p.1.ue).map fun p => p.2
    let clean (a l k : Nat) : C32 :=
      let li := ((qSym d).idxOf l)
      let h := (nthD (nthD ests (k / 12 / 2 ^ qG d) []) (nearestOcc d l) ⟨[], []⟩).h
      nthD (eqRemove h ((List.range (qNr d)).map fun a => s.eqY d a l k) (s.decoded d ps scr li k)) a .zero
    let want (u i : Nat) : Bool := ps.any fun p => p.ue = u && !p.passed && p.first ≤ i && i < p.first + p.e
    (s.eqWrite d ests cs clean want).eqKeepAll d nu ests

/-! ## The memory a job touches -/

/-- The UEs with a failed block, as entries of the UE table. -/
def State.failedUes (s : State) (d : BitVec 1024) : List Nat :=
  ((s.ues d).zipIdx.filter fun (_, u) => (s.passList d).any fun p => p.ue = u && !p.passed).map Prod.fst

/-- Addresses that an EQ job reads or writes: op 0 everything but the pass list; op 1 the pass list and, when a block failed, the batches, the work
area, the re-encoded bits of the passed blocks and the LLRs of the UEs with failed blocks. -/
def State.eqAddrs (s : State) (d : BitVec 1024) : List Nat :=
  if eOp d = 0 then [clAddr (ef d 32 0 32), qUet d, clAddr (ef d 64 0 32), clAddr (ef d 68 0 32)] ++ (s.ues d).map ueLlr
  else if (s.passList d).all PassEntry.passed then [qFbl d]
  else [qFbl d, clAddr (ef d 32 0 32), qUet d, clAddr (ef d 68 0 32)] ++ (s.failedUes d).map ueLlr
    ++ ((s.passList d).filter PassEntry.passed).map PassEntry.bits

/-- The ranges that an EQ job reads, address and bytes, in order. -/
def State.eqReads (s : State) (d : BitVec 1024) : List (Nat × Nat) :=
  let y (l : Nat) : List (Nat × Nat) := (List.range (qNr d)).map fun a =>
    (qSlot d l + 64 + (ef d 40 0 8 + a) * qRegion d + 48 * qPrb0 d, 48 * qNprb d)
  let dat := (qSym d).flatMap y
  if eOp d = 0 then
    (qUet d, 16 * qNue d) :: (onesOf 14 (qDsym d)).flatMap (fun l => (qSlot d l, 8) :: y l) ++ dat
      ++ (if qInit d then [] else [(clAddr (ef d 64 0 32), qStateStride d * qNg d)])
  else
    let ps := s.passList d
    (qFbl d, 16 + 16 * ps.length) ::
      (if ps.all PassEntry.passed then []
        else (qUet d, 16 * qNue d) :: dat
          ++ [(eqWork d (s.layers d) 0 0, 8 * (qNr d * s.layers d + qNr d * qNr d) * (qNg d * (qOccs d).length))]
          ++ (ps.filter PassEntry.passed).map fun p => (p.bits, ceilDiv p.e 8))

/-- Check every range of a list as it is read (R316). -/
def State.checkReads (s : State) (rs : List (Nat × Nat)) : State := rs.foldl (fun s r => s.checkRead r.1 r.2) s


end Sys2Proof.Machine
end

