-- ==== Sys2Proof/Machine/Ldpc.lean ====
section
/-! DEFINITION. The LDPC decoders and encoders (chapter 08, R202 to R211).  The shift values of 38.212 are
constants of Config (log entry 10); its rate matching, its parity equations and its CRCs are written out (log entry 11). -/

namespace Sys2Proof.Machine

/-! ## Packed bits and CRCs -/

/-- `n` bits packed from `a`: bit k at byte k/8, bit 7 − (k mod 8) (R207). -/
def State.bitsAt (s : State) (a n : Nat) : List Bool := (List.range n).map fun k => (s.byte (a + k / 8)).getLsbD (7 - k % 8)

/-- The bytes of packed bits; `pad` fills the last byte. -/
def packBits (pad : BitVec 8) (bs : List Bool) : List (BitVec 8) :=
  (List.range (ceilDiv bs.length 8)).map fun i =>
    BitVec.ofNat 8 ((List.range 8).foldl (fun v j =>
      let b := match bs[8 * i + j]? with | some b => b | none => pad.getLsbD (7 - j)
      2 * v + b.toNat) 0)

/-- Write the packed output bits of a job; the bits that fill the last byte are open, and fixed by the job (R194; log entry 11). -/
def State.putBits (s : State) (d : BitVec 1024) (a : Nat) (bs : List Bool) : State := s.sysPut a (packBits (Config.padBits d bs) bs)

/-- The remainder of a bit string by a generator of degree `w` (38.212 5.1). -/
def crcRem (w poly : Nat) (bs : List Bool) : Nat :=
  bs.foldl (fun r b =>
    let r2 := (r * 2 + b.toNat)
    if r2 ≥ 2 ^ w then (r2 - 2 ^ w) ^^^ poly else r2) 0

/-- CRC bits, most significant first, of a message. -/
def crcBits (w poly : Nat) (bs : List Bool) : List Bool :=
  let r := crcRem w poly (bs ++ List.replicate w false)
  (List.range w).map fun i => r.testBit (w - 1 - i)

/-- Length and generator of the decoder's crc codes: CRC24B, CRC24A, CRC16. -/
def ldpcCrc : Nat → Option (Nat × Nat)
  | 1 => some (24, 0x800063)
  | 2 => some (24, 0x864CFB)
  | 3 => some (16, 0x1021)
  | _ => none

/-! ## The parity equations -/

/-- Position in the selected order of the bit sent at place `n` (5.4.2.2). -/
def lInter (d : BitVec 1024) (n : Nat) : Nat := n % lQm d * (lE d / lQm d) + n / lQm d

/-- The variable that check row `c` of layer `r` meets in column `j`. -/
def lVar (d : BitVec 1024) (r c j : Nat) : Nat :=
  j * lZc d + (c + Config.bgShift (lBg2 d) ((liftingSet (lZc d)).getD 0) r j) % lZc d

/-! ## Decoding (R203 to R207) -/

/-- An s8 value. -/
def State.s8 (s : State) (a : Nat) : Int := (s.byte a).toInt

/-- Combined circular-buffer values (R203). -/
def State.lCombine (s : State) (d : BitVec 1024) : Array Int :=
  let start : Array Int := ((List.range (lNcb d)).map fun p => if lHarq d = 2 then sat (s.s8 (lHbuf d + p)) (-127) 127 else 0).toArray
  let pos := (lSelect d).toArray
  (List.range (if pos.isEmpty then 0 else lE d)).foldl (fun v n =>
    let p := pos.getD (lInter d n) 0
    v.setIfInBounds p (sat (v.getD p 0 + s.s8 (lIn d + n)) (-127) 127)) start

/-- Channel values of every variable (R203). -/
def lChannel (d : BitVec 1024) (v : Array Int) : Array Int :=
  ((List.range (lN d + 2 * lZc d)).map fun i =>
    if lKp d ≤ i && i < lKb d * lZc d then 2047
    else if i < 2 * lZc d then 0
    else v.getD (i - 2 * lZc d) 0).toArray

/-- Class of an edge (R204). -/
def lClass (d : BitVec 1024) (r j : Nat) : Nat :=
  4 * (decide (r ≥ 4)).toNat + (if j < 2 then 0 else if j < lKb d then 1 else if j < lKb d + 4 then 2 else 3)

/-- α and β of an iteration and class, from the assist table `tbl` that the decoder read at acceptance (R205). -/
def State.lAssistAt (s : State) (d : BitVec 1024) (tbl : List (BitVec 8)) (it c : Nat) : Nat × Nat :=
  if lAssist d then ((nthD tbl (16 * it + 2 * c) 0).toNat, (nthD tbl (16 * it + 2 * c + 1) 0).toNat)
  else (s.get LDPC_DEFAS.alpha, s.get LDPC_DEFAS.beta)

/-- Posteriors and messages; the message of edge `t` of check row `c` of layer `r` stands at ((32 r + t) Z_c + c). -/
structure LdpcMem where
  l : Array Int
  r : Array Int
  deriving Repr

/-- One check row (R204). -/
def State.lRow (s : State) (d : BitVec 1024) (tbl : List (BitVec 8)) (it r c : Nat) (m : LdpcMem) : LdpcMem :=
  let cols := lCols d r
  let key (t : Nat) : Nat := (32 * r + t) * lZc d + c
  let q := cols.zipIdx.map fun (j, t) => sat (m.l.getD (lVar d r c j) 0 - m.r.getD (key t) 0) (-2047) 2047
  cols.zipIdx.foldl (fun m (j, t) =>
    let others := q.eraseIdx t
    let mn := others.foldl (fun a x => min a x.natAbs) 2047
    let sg : Int := others.foldl (fun a x => if x < 0 then -a else a) 1
    let (al, be) := s.lAssistAt d tbl it (lClass d r j)
    let msg := sg * sat (rne (((mn * al : Nat) : Rat) / 128 - (be : Rat) / 4)) 0 127
    { l := m.l.setIfInBounds (lVar d r c j) (sat (nthD q t 0 + msg) (-2047) 2047), r := m.r.setIfInBounds (key t) msg }) m

/-- The syndrome over rows 0 to n_L − 1 is zero. -/
def lClean (d : BitVec 1024) (m : LdpcMem) : Bool :=
  (List.range (lNl d)).all fun r => (List.range (lZc d)).all fun c =>
    !((lCols d r).foldl (fun p j => p != decide (m.l.getD (lVar d r c j) 0 < 0)) false)

/-- Run up to `n` iterations from iteration `it` (R204): the memories and the iterations run. -/
def State.lIterate (s : State) (d : BitVec 1024) (tbl : List (BitVec 8)) : Nat → Nat → LdpcMem → LdpcMem × Nat
  | 0, it, m => (m, it)
  | n + 1, it, m =>
    let m := (List.range (lNl d)).foldl (fun m r => (List.range (lZc d)).foldl (fun m c => s.lRow d tbl it r c m) m) m
    if !s.det && lClean d m then (m, it + 1) else State.lIterate s d tbl n (it + 1) m

/-- R of R206: the air ticks left at the core's start. -/
def State.lLeft (s : State) (d : BitVec 1024) : Int := airDiff (eDeadline d) (s.atNow (eAt d))

/-- I_cap of R206. -/
def State.lCap (s : State) (d : BitVec 1024) : Nat :=
  if !eDlEn d then lMaxit d
  else
    let b := (max (s.lLeft d) 0).toNat * 6875 / 3072
    min (lMaxit d) ((b - 34 - s.get LDPC_DMARG.ek) / lTit d)

/-- Decode one block (R203 to R207): the outputs and HARQ buffer written, and (pfail, crc_ok, capped, late, iterations). -/
def State.ldpcDecode (s : State) (d : BitVec 1024) (tbl : List (BitVec 8)) : State × Bool × Bool × Bool × Bool × Nat :=
  let v := s.lCombine d
  let cap := s.lCap d
  let m0 : LdpcMem := ⟨lChannel d v, Array.replicate (32 * lNl d * lZc d) 0⟩
  let (m, it) := s.lIterate d tbl cap 0 m0
  let pfail := !lClean d m
  let bits := (List.range (lKp d)).map fun i => decide (m.l.getD i 0 < 0)
  let ok := match ldpcCrc (lCrc d) with
    | some (w, g) => w ≤ lKp d && crcRem w g bits = 0
    | none => false
  let s' := s.putBits d (lOut d) bits
  let s' := if lHarq d = 0 then s' else s'.sysPut (lHbuf d) (v.toList.map fun x => BitVec.ofInt 8 x)
  (s', pfail, ok, pfail && cap < lMaxit d, eDlEn d && s.lLeft d ≤ 0, it)

/-- A block in which a decoder memory had a parity error (R209): it completes with the values read, which are damaged and open, so the output, a
HARQ buffer that the damaged input or staging memory fills, the iterations run and what the record says of them are free values. -/
def State.ldpcDamaged (s : State) (d : BitVec 1024) (perr : BitVec 4) : State × Bool × Bool × Bool × Bool × Nat :=
  let v := s.lCombine d
  let cap := s.lCap d
  let late := eDlEn d && s.lLeft d ≤ 0
  let (bits, s) := s.draw (lKp d)
  let (open_, s) := s.draw 2
  let (it, s) := s.drawWithin cap
  let s := s.putBits d (lOut d) ((List.range (lKp d)).map bits.getLsbD)
  let (hb, s) := if perr.getLsbD 2 || perr.getLsbD 3 then s.drawBytes (lNcb d) else (v.toList.map fun x => BitVec.ofInt 8 x, s)
  let s := if lHarq d = 0 then s else s.sysPut (lHbuf d) hb
  let pfail := open_.getLsbD 0
  (s, pfail, (ldpcCrc (lCrc d)).isSome && open_.getLsbD 1, pfail && cap < lMaxit d, late, it)

/-- Report the parity errors of the memories `perr` of decoder `u` (R209, R297, R318): the decoder's cause bit, the memory, decoder and tag, a log
record, and 16 events of threshold class 6 for each. -/
def State.ldpcReport (s : State) (u : Nat) (perr : BitVec 4) (tag : Nat) : State :=
  (onesOf 4 perr.toNat).foldl (fun s m =>
    let s := (((s.raiseBit LDPC_CAUSE.perr u).put LDPC_PERRA.mem m).put LDPC_PERRA.dec u).put LDPC_PERRA.tag tag
    s.parityFailed 6 8 u) s

/-! ## Encoding (R210) -/

/-- The parity equations of the core rows over the core parity bits: check row `c` of row `r`, with the information bits `w` on the right. -/
def lCoreEq (d : BitVec 1024) (w : Array Bool) (r c : Nat) : Nat :=
  let n := 4 * lZc d
  let k := lKb d * lZc d
  (lCols d r).foldl (fun e j =>
    let p := lVar d r c j
    if j < lKb d then (if w.getD p false then e ^^^ 2 ^ n else e) else e ^^^ 2 ^ (p - k)) 0

/-- The codeword of K information bits (38.212 5.3.2): the core parity bits solve the equations of rows 0 to 3; each further row gives the bits of
its own column. -/
def lCodeword (d : BitVec 1024) (info : List Bool) : Array Bool :=
  let z := lZc d
  let w := info.toArray
  let core := bitSolve (4 * z) ((List.range 4).flatMap fun r => (List.range z).map (lCoreEq d w r))
  let w := (info ++ core ++ List.replicate ((lMb d - 4) * z) false).toArray
  (List.range (lMb d - 4)).foldl (fun w i => (List.range z).foldl (fun w c =>
    let own := lKb d + 4 + i
    let v := ((lCols d (4 + i)).filter fun j => j ≠ own).foldl (fun b j => b != w.getD (lVar d (4 + i) c j) false) false
    w.setIfInBounds (lVar d (4 + i) c own) v) w) w

/-- The E output bits. -/
def State.ldpcEncode (s : State) (d : BitVec 1024) : List Bool :=
  let w := lCodeword d (s.bitsAt (lIn d) (lKp d) ++ List.replicate (lKb d * lZc d - lKp d) false)
  let e := ((lSelect d).map fun p => w.getD (p + 2 * lZc d) false).toArray
  (List.range (lE d)).map fun n => e.getD (lInter d n) false

end Sys2Proof.Machine
end

