-- ==== Sys2Proof/Machine/Polar.lean ====
section
/-! DEFINITION. The polar codecs: polar and small-block codes (chapter 08, R212 to R214).  The tables of 38.212 are constants of Config (log
entry 10); its construction, rate matching and CRCs are written out (log entry 11). -/

namespace Sys2Proof.Machine

/-- Length and generator of the codec's crc codes: CRC6, CRC11, CRC24C. -/
def polarCrc : Nat → Nat × Nat
  | 1 => (6, 0x21)
  | 2 => (11, 0x621)
  | 3 => (24, 0xB2B117)
  | _ => (0, 0)

/-! ## Construction (38.212 5.3.1.2, 5.4.1) -/

/-- Sub-block interleaver (Table 5.4.1.1-1). -/
def subBlock (n i : Nat) : Nat :=
  let p := [0, 1, 2, 4, 3, 5, 6, 7, 8, 16, 9, 17, 10, 18, 11, 19, 12, 20, 13, 21, 14, 22, 15, 23, 24, 25, 26, 28, 27, 29, 30, 31]
  nthD p (32 * i / n) 0 * (n / 32) + i % (n / 32)

/-- Rate matching punctures, rather than shortens, when K/E ≤ 7/16. -/
def pPunct (d : BitVec 1024) : Bool := 16 * pK d ≤ 7 * pE d

/-- Indices frozen by rate matching. -/
def pDropped (d : BitVec 1024) : List Nat :=
  let n := pN d
  let e := pE d
  if e ≥ n then []
  else if pPunct d then
    let t := if 4 * e ≥ 3 * n then ceilDiv (3 * n - 2 * e) 4 else ceilDiv (9 * n - 4 * e) 16
    List.range t ++ (List.range (n - e)).map (subBlock n)
  else (List.range (n - e)).map fun i => subBlock n (e + i)

/-- Parity-check bits: 3 with uci = 1 and 12 ≤ K ≤ 19 (R212). -/
def pNpc (d : BitVec 1024) : Nat := if pUci d && 12 ≤ pK d && pK d ≤ 19 then 3 else 0

/-- Those of them placed by row weight. -/
def pNwm (d : BitVec 1024) : Nat := if pNpc d = 3 && pE d + 3 > pK d + 192 then 1 else 0

/-- Information and parity-check indices, least reliable first. -/
def pInfo (d : BitVec 1024) : List Nat :=
  let rel := ((List.range 1024).map Config.polarSequence).filter fun i => i < pN d && !(pDropped d).contains i
  rel.drop (rel.length - (pK d + pNpc d))

/-- Ones in the binary form of an index: the logarithm of its row's weight. -/
def weight10 (i : Nat) : Nat := (onesOf 10 i).length

/-- Indices of the parity-check bits. -/
def pPc (d : BitVec 1024) : List Nat :=
  let q := pInfo d
  let low := q.take (pNpc d - pNwm d)
  let rest := q.drop (pNpc d)
  let wmin := rest.foldl (fun m i => min m (weight10 i)) 10
  low ++ ((rest.reverse.filter fun i => weight10 i = wmin).take (pNwm d))

/-- The input interleaver (5.3.1.1): index of the bit at place `k`. -/
def pIlv (k : Nat) : List Nat :=
  ((List.range 164).filter fun m => Config.polarInterleave m + k ≥ 164).map fun m => Config.polarInterleave m + k - 164

/-- u from the bits c′ (5.3.1.2): the register y, and the bits left. -/
def pFill (info pc : List Nat) : Nat → Nat → List Bool → List Bool → List Bool
  | 0, _, _, _ => []
  | m + 1, i, y, c =>
    let y := y.drop 1 ++ y.take 1
    if !info.contains i then false :: pFill info pc m (i + 1) y c
    else if pc.contains i then nthD y 0 false :: pFill info pc m (i + 1) y c
    else
      let b := nthD c 0 false
      b :: pFill info pc m (i + 1) ((nthD y 0 false != b) :: y.drop 1) (c.drop 1)

/-- u G_N over 2^n bits. -/
def pEnc : Nat → List Bool → List Bool
  | 0, u => u
  | n + 1, u =>
    let a := pEnc n (u.take (2 ^ n))
    let b := pEnc n (u.drop (2 ^ n))
    List.zipWith (· != ·) a b ++ b

/-- Codeword index of each of the E sent bits before channel interleaving (5.4.1.2). -/
def pSelect (d : BitVec 1024) : List Nat :=
  let n := pN d
  let e := pE d
  (List.range e).map fun k =>
    subBlock n (if e ≥ n then k % n else if pPunct d then k + n - e else k)

/-- Order in which the triangular interleaver reads (5.4.1.3). -/
def pTriangle (e : Nat) : List Nat :=
  let t := ((List.range (e + 1)).find? fun t => t * (t + 1) / 2 ≥ e).getD 0
  let row (i : Nat) : Nat := i * t - i * (i - 1) / 2
  (List.range t).flatMap fun j => (List.range (t - j)).filterMap fun i =>
    if row i + j < e then some (row i + j) else none

/-- Place in the selected order of each sent bit. -/
def pOrder (d : BitVec 1024) : List Nat := if pBil d then pTriangle (pE d) else List.range (pE d)

/-! ## Encoding (R212) -/

/-- A CRC as sent: with rmask its last 16 bits are scrambled by the RNTI. -/
def pMask (d : BitVec 1024) (crc : List Bool) : List Bool :=
  if pRmask d then crc.zipIdx.map fun (b, i) =>
    if i + 16 < crc.length then b else b != (pRnti d).testBit (crc.length - 1 - i)
  else crc

/-- The K bits: the message and its CRC. -/
def State.pMessage (s : State) (d : BitVec 1024) : List Bool :=
  let (w, g) := polarCrc (pCrc d)
  let m := s.bitsAt (pIn d) (pK d - w)
  m ++ pMask d (crcBits w g m)

/-- Polar encode. -/
def State.polarEncode (s : State) (d : BitVec 1024) : List Bool :=
  let c := s.pMessage d
  let c := if pIl d then (pIlv (pK d)).map fun i => nthD c i false else c
  let x := (pEnc (polarLog (pK d) (pE d) (pNmax d)) (pFill (pInfo d) (pPc d) (pN d) 0 (List.replicate 5 false) c)).toArray
  let e := ((pSelect d).map fun i => x.getD i false).toArray
  (pOrder d).map fun i => e.getD i false

/-! ## Decoding (R213) -/

/-- s12 with saturation. -/
def sat12 (x : Int) : Int := sat x (-2048) 2047
/-- f of R213. -/
def pF (a b : Int) : Int := sat12 (a.sign * b.sign * (min a.natAbs b.natAbs : Nat))
/-- g of R213. -/
def pG (a b : Int) (u : Bool) : Int := sat12 (b + (if u then -a else a))

/-- λ of the bit after the bits `u` of a path. -/
def pLlr : Nat → List Int → List Bool → Int
  | 0, l, _ => nthD l 0 0
  | n + 1, l, u =>
    let a := l.take (2 ^ n)
    let b := l.drop (2 ^ n)
    if u.length < 2 ^ n then pLlr n (List.zipWith pF a b) u
    else
      let x := pEnc n (u.take (2 ^ n))
      pLlr n ((List.zipWith Prod.mk a b).zipWith (fun p v => pG p.1 p.2 v) x) (u.drop (2 ^ n))

/-- Bit strings in the order of the numbers that they spell, first bit most significant. -/
def bitsLe : List Bool → List Bool → Bool
  | [], _ => true
  | _ :: _, [] => false
  | a :: as, b :: bs => if a = b then bitsLe as bs else !a

/-- A path: its bits and metric. -/
abbrev PPath := List Bool × Nat

/-- Paths in order of metric, ties to the lower bits. -/
def pathLe (p q : PPath) : Bool := p.2 < q.2 || (p.2 = q.2 && bitsLe p.1 q.1)

def insertPath (p : PPath) : List PPath → List PPath
  | [] => [p]
  | q :: qs => if pathLe p q then p :: q :: qs else q :: insertPath p qs

def sortPaths : List PPath → List PPath
  | [] => []
  | p :: ps => insertPath p (sortPaths ps)

/-- A path with one bit more. -/
def pathBit (lam : Int) (p : PPath) (b : Bool) : PPath := (p.1 ++ [b], if b = decide (lam < 0) then p.2 else p.2 + lam.natAbs)

/-- Decode `m` bits from index `i`: frozen bits are 0, the others split each path and the 8 best survive. -/
def pDecode (n : Nat) (chan : List Int) (info : List Nat) : Nat → Nat → List PPath → List PPath
  | 0, _, ps => ps
  | m + 1, i, ps =>
    let step := if info.contains i then
        (sortPaths (ps.flatMap fun p => let l := pLlr n chan p.1; [pathBit l p false, pathBit l p true])).take 8
      else ps.map fun p => pathBit (pLlr n chan p.1) p false
    pDecode n chan info m (i + 1) step

/-- Channel LLRs of the N codeword bits: repeats add, punctured bits are 0, shortened bits are certain. -/
def State.pChannel (s : State) (d : BitVec 1024) : List Int :=
  let n := pN d
  let start : Array Int := if pE d < n && !pPunct d then
      (List.range (n - pE d)).foldl (fun (v : Array Int) i => v.setIfInBounds (subBlock n (pE d + i)) 2047) (Array.replicate n 0)
    else Array.replicate n 0
  let sel := (pSelect d).toArray
  ((pOrder d).zipIdx.foldl (fun (v : Array Int) (k, j) =>
    let p := sel.getD k 0
    v.setIfInBounds p (sat12 (v.getD p 0 + s.s8 (pIn d + j)))) start).toList

/-- c of a path, and whether its parity checks hold. -/
def pExtract (d : BitVec 1024) (u : List Bool) : List Bool × Bool :=
  let info := pInfo d
  let pc := pPc d
  let c := (u.zipIdx.filter fun p => info.contains p.2 && !pc.contains p.2).map fun p => p.1
  let ok := decide (pFill info pc (pN d) 0 (List.replicate 5 false) c = u)
  let c := if pIl d then
      (List.range (pK d)).map fun i => nthD c ((pIlv (pK d)).idxOf i) false
    else c
  (c, ok)

/-- The CRC of K bits holds. -/
def pCrcHolds (d : BitVec 1024) (c : List Bool) : Bool :=
  let (w, g) := polarCrc (pCrc d)
  let m := c.take (pK d - w)
  decide (c.drop (pK d - w) = pMask d (crcBits w g m))

/-- Polar decode: the bits less the CRC, and crc_ok. -/
def State.polarDecode (s : State) (d : BitVec 1024) : List Bool × Bool :=
  let n := polarLog (pK d) (pE d) (pNmax d)
  let ps := sortPaths (pDecode n (s.pChannel d) (pInfo d) (pN d) 0 [([], 0)])
  let keep (c : List Bool) : List Bool := c.take (pK d - (polarCrc (pCrc d)).1)
  match ps.find? fun p => let (c, ok) := pExtract d p.1; ok && pCrcHolds d c with
  | some p => (keep (pExtract d p.1).1, pCrc d ≠ 0)
  | none => (keep (pExtract d (nthD ps 0 ([], 0)).1).1, false)

/-! ## Small blocks (38.212 5.3.3, 5.4.3) -/

/-- The code of K = 1 to 11 bits. -/
def smallCode (c : List Bool) : List Bool :=
  match c with
  | [a] => [a]
  | [a, b] => [a, b, a != b]
  | _ => (List.range 32).map fun i => c.zipIdx.foldl (fun v (b, k) => v != (b && Config.smallBasis i k)) false

/-- E bits of a small block. -/
def smallEncode (c : List Bool) (e : Nat) : List Bool :=
  let x := (smallCode c).toArray
  (List.range e).map fun k => x.getD (k % x.size) false

/-- Small-block decode: the message of greatest correlation, ties to the lower value. -/
def State.smallDecode (s : State) (d : BitVec 1024) : List Bool :=
  let l := (List.range (pE d)).map fun i => s.s8 (pIn d + i)
  let msg (v : Nat) : List Bool := (List.range (pK d)).map fun i => v.testBit (pK d - 1 - i)
  let corr (v : Nat) : Int := (List.zipWith (fun (x : Int) (c : Bool) => if c then -x else x) l (smallEncode (msg v) (pE d))).sum
  msg ((List.range (2 ^ pK d)).foldl (fun best v => if corr v > corr best then v else best) 0)

end Sys2Proof.Machine
end

