-- ==== Sys2Proof/Machine/Engines.lean ====
section
/-! DEFINITION. The commands of the receiver engines: ring polls, operations, job ends, drain, cut, timers and enables (chapter 08, R186 to
R214; chapter 12, R299). -/

namespace Sys2Proof.Machine

/-- The class number of R186. -/
def clsNum : HardClass → Nat
  | .eq => 2 | .dec => 3 | .enc => 4 | .pol => 5

/-- The port-12 unit number (R186). -/
def portUnit : HardClass → Nat → Nat
  | .eq, u => 12 + u | .dec, u => 6 + u | .enc, u => 2 + u | .pol, u => u

/-- The repair kind of a class (R293). -/
def clsKind : HardClass → Nat
  | .eq => 7 | .dec => 8 | .enc => 9 | .pol => 10

/-- An event of unit `u` of a class: nothing happens for a unit that does not exist, is off or in reset, or waits for its remap (R307). -/
def unitEvent (k : HardClass) (u : Nat) (s : State) (f : State → Res) : Res :=
  if u ≥ unitCount (clsNum k) then .next s else insideUnit (clsDomain (clsNum k)).1 (clsDomain (clsNum k)).2 (clsKind k) u s f

/-- A write of ENG_CTL of unit `u` of a class; a unit that does not exist has no register. -/
def unitWrite (k : HardClass) (u : Nat) (s : State) (f : State → State) : Res :=
  if u ≥ unitCount (clsNum k) then .next s
  else accessUnit (clsDomain (clsNum k)).1 (clsDomain (clsNum k)).2 (clsKind k) u s fun s => .next (f s)

/-- Every address lies in memory that is on. -/
def State.allOn (s : State) (as : List Nat) : Bool := as.all fun a => s.addrOn a

/-- ENGINE_RING_POLL (R187): a polling unit with an empty pointer queue reads prod at TMB_MONO mod 256 = 8u; a ring that is too
full sets bad; else one descriptor is taken, accepted when the unit is free, and cons + 1 written. -/
def execEngineRingPoll (k : HardClass) (u : Fin 8) (s : State) : Res := unitEvent k u s fun s =>
  let c := clsNum k
  let x := s.unit c u
  if s.mono.toNat % 256 ≠ 8 * portUnit k u || !s.accepts c u || !s.flag (engPoll c u) || !s.flag (engRingEn c u)
      || !x.ptrs.isEmpty then .next s
  else
    let cl := s.get (engRingCl c u)
    let off := 64 * s.get (engRingOff c u)
    let l := s.get (engRingLog c u)
    let l := if 4 ≤ l && l ≤ 12 then l else 4
    faultIf (!s.addrOn (clusterBase cl + off)) .poweredOff <|
      let prod := BitVec.ofNat 32 (s.le (clusterBase cl + off) 4)
      let cons := BitVec.ofNat 32 (s.le (clusterBase cl + off + 4) 4)
      let s := s.checkRead (clusterBase cl + off) 8
      if prod = cons then .next s
      else if (prod - cons).toNat > 2 ^ l then .next (s.raiseBit (engBad c) u)
      else
        let s := s.setLe (clusterBase cl + off + 4) 4 (cons + 1).toNat
        State.engAccept c u 1 (s.withUnit c u fun x =>
          { x with ptrs := [⟨cl, (off + 64 + 128 * (cons.toNat % 2 ^ l)) % 2 ^ 24, none⟩] })

/-! ## Operations -/

/-- Run operation `op` of the accepted job of a unit, once: `as` are the addresses it touches, `f` its effect. -/
def engOp (k : HardClass) (u op : Nat) (as : State → BitVec 1024 → List Nat) (f : State → EngJob → State × EngJob) (s : State) : Res :=
  unitEvent k u s fun s =>
    match (s.unit (clsNum k) u).job with
    | none => .next s
    | some j =>
      if j.moved || eOp j.desc ≠ op then .next s
      else faultIf (!s.allOn (as s j.desc)) .poweredOff <|
        let (s, j) := f s j
        .next (s.withUnit (clsNum k) u fun x => { x with job := some { j with moved := true } })

/-- ESTIMATE_AND_DETECT (R196 to R199): EQ op 0. -/
def execEstimateAndDetect (u : Fin 8) (s : State) : Res :=
  engOp .eq u 0 State.eqAddrs (fun s j => ((s.checkReads (s.eqReads j.desc)).eqDetect j.desc, j)) s

/-- FEEDBACK_PASS (R200): EQ op 1. -/
def execFeedbackPass (u : Fin 8) (s : State) : Res :=
  engOp .eq u 1 State.eqAddrs (fun s j => ((s.checkReads (s.eqReads j.desc)).eqFeedback j.desc, j)) s

/-- Addresses of an LDPC job. -/
def ldpcAddrs (d : BitVec 1024) : List Nat :=
  [lIn d, lOut d] ++ (if lHarq d = 0 then [] else [lHbuf d])

/-- DECODE (R203 to R207): decoder op 0.  The operand names the decoder memories that had a parity error in the block (R209): bit 0 posterior, 1
message, 2 input buffer, 3 HARQ staging. -/
def execDecode (d : Decoding) (s : State) : Res :=
  let perr := d.perr
  engOp .dec d.u 0 (fun _ d => ldpcAddrs d) (fun s j =>
    let s := s.checkReads ((lIn j.desc, lE j.desc) :: if lHarq j.desc = 2 then [(lHbuf j.desc, lNcb j.desc)] else [])
    let (s, pf, ok, cp, lt, it) := if perr = 0 then s.ldpcDecode j.desc j.table else s.ldpcDamaged j.desc perr
    (s.ldpcReport d.u perr (eTag j.desc), { j with pfail := pf, crcOk := ok, capped := cp, late := lt, iter := it })) s

/-- ENCODE (R210): encoder op 0. -/
def execEncode (u : Fin 4) (s : State) : Res :=
  engOp .enc u 0 (fun _ d => ldpcAddrs d) (fun s j =>
    ((s.checkRead (lIn j.desc) (ceilDiv (lKp j.desc) 8)).putBits j.desc (lOut j.desc) (s.ldpcEncode j.desc), j)) s

/-- Addresses of a polar job. -/
def polarAddrs (d : BitVec 1024) : List Nat := [pIn d, pOut d]

/-- POLAR_DECODE (R213): codec op 0. -/
def execPolarDecode (u : Fin 2) (s : State) : Res :=
  engOp .pol u 0 (fun _ d => polarAddrs d) (fun s j =>
    let (bs, ok) := s.polarDecode j.desc
    ((s.checkRead (pIn j.desc) (pE j.desc)).putBits j.desc (pOut j.desc) bs, { j with crcOk := ok })) s

/-- POLAR_ENCODE (R212): codec op 1. -/
def execPolarEncode (u : Fin 2) (s : State) : Res :=
  engOp .pol u 1 (fun _ d => polarAddrs d) (fun s j =>
    ((s.checkRead (pIn j.desc) (ceilDiv (pK j.desc) 8)).putBits j.desc (pOut j.desc) (s.polarEncode j.desc), j)) s

/-- SMALL_BLOCK_DECODE (R213): codec op 2. -/
def execSmallBlockDecode (u : Fin 2) (s : State) : Res :=
  engOp .pol u 2 (fun _ d => polarAddrs d) (fun s j =>
    ((s.checkRead (pIn j.desc) (pE j.desc)).putBits j.desc (pOut j.desc) (s.smallDecode j.desc), j)) s

/-- SMALL_BLOCK_ENCODE (R212): codec op 3. -/
def execSmallBlockEncode (u : Fin 2) (s : State) : Res :=
  engOp .pol u 3 (fun _ d => polarAddrs d) (fun s j =>
    ((s.checkRead (pIn j.desc) 2).putBits j.desc (pOut j.desc) (smallEncode (s.bitsAt (pIn j.desc) (pK j.desc)) (pE j.desc)), j)) s

/-! ## Ends of jobs (R190, R191, R193) -/

/-- The address of ENG_CTL's W1S bits. -/
def engDrain (cls u : Nat) : Fld := ⟨engBase cls u, 2, 1⟩
def engCut (cls u : Nat) : Fld := ⟨engBase cls u, 3, 1⟩

/-- The unit is free: a drain or cut ends here, clearing en; else the next pointer is accepted. -/
def State.engFree (s : State) (c u : Nat) : Res :=
  let s := s.withUnit c u fun x => { x with job := none }
  if (s.unit c u).draining then
    .next (((((s.withUnit c u fun x => { x with draining := false }).put (engEn c u) 0).put (engDrain c u) 0).put (engCut c u) 0).syncUnit c u)
  else State.engAccept c u 9 s

/-- The join and next of a job (R191). -/
def State.engJoin (s : State) (d : BitVec 1024) : Res :=
  if eJen d then
    faultIf (!s.addrOn (eJoin d)) .poweredOff <|
      let v := BitVec.ofNat 32 (s.le (eJoin d) 4) - 1
      let s := s.setLe (eJoin d) 4 v.toNat
      if v = 0 then s.pushNext (eNext d) else .next s
  else s.pushNext (eNext d)

/-- ENGINE_JOB_END (R190, R191): the outputs being written, the record and prod are, the flag is set, then the join and next; a draining
unit stops, any other accepts its next pointer. -/
def execEngineJobEnd (k : HardClass) (u : Fin 8) (s : State) : Res := unitEvent k u s fun s =>
  let c := clsNum k
  match (s.unit c u).job with
  | none => .next s
  | some j =>
    if !j.moved then .next s
    else faultIf (s.reportOff j.desc) .poweredOff <|
      let s := s.engReport j.desc (statusByte true j.pfail j.crcOk j.capped j.late false false) j.iter
      andThen (s.engJoin j.desc) fun s => s.engFree c u

/-- Drain a unit (R193): the running job ends, nothing more is accepted; an idle unit is disabled at once. -/
def State.engDrainUnit (s : State) (c u : Nat) : State :=
  if (s.unit c u).job.isSome then
    ((s.withUnit c u fun x => { x with draining := true }).put (engDrain c u) 1).syncUnit c u
  else (s.put (engEn c u) 0).syncUnit c u

/-- ENGINE_DRAIN (R193). -/
def execEngineDrain (k : HardClass) (u : Fin 8) (s : State) : Res := unitWrite k u s fun s => s.engDrainUnit (clsNum k) u

/-- The output ranges of a job: address and bytes. -/
def State.engOutputs (s : State) (k : HardClass) (d : BitVec 1024) : List (Nat × Nat) :=
  match k with
  | .eq =>
    (s.ues d).map (fun e => (ueLlr e, ueBits d e))
      ++ [(clAddr (ef d 64 0 32), if eOp d = 0 then qStateStride d * qNg d else 0), (eqWork d (s.layers d) 0 0, eqWork d (s.layers d) (qNg d) 0 - eqWork d (s.layers d) 0 0)]
  | .dec => [(lOut d, ceilDiv (lKp d) 8), (lHbuf d, if lHarq d = 0 then 0 else lNcb d)]
  | .enc => [(lOut d, ceilDiv (lE d) 8)]
  | .pol => [(pOut d, ceilDiv (if eOp d % 2 = 0 then pK d - (if eOp d = 0 then (polarCrc (pCrc d)).1 else 0) else pE d) 8)]

/-- Cut a unit (R193): with det = 1 a drain; else the running job stops with a cut record and its flag,
its outputs in flight are free, and en clears. -/
def State.engCutUnit (s : State) (k : HardClass) (u : Nat) : Res :=
  let c := clsNum k
  if s.det then .next (s.engDrainUnit c u)
  else match (s.unit c u).job with
    | none => .next ((s.put (engEn c u) 0).syncUnit c u)
    | some j =>
      faultIf (s.reportOff j.desc || (!j.moved && !s.allOn ((s.engOutputs k j.desc).map Prod.fst))) .poweredOff <|
        let s := if j.moved then s else (s.engOutputs k j.desc).foldl (fun s (a, n) => s.scramble a n) s
        let s := s.engReport j.desc (statusByte false false false false j.late true false) 0
        (s.withUnit c u fun x => { x with draining := true }).engFree c u

/-- ENGINE_CUT (R193). -/
def execEngineCut (k : HardClass) (u : Fin 8) (s : State) : Res :=
  if u ≥ unitCount (clsNum k) then .next s
  else accessUnit (clsDomain (clsNum k)).1 (clsDomain (clsNum k)).2 (clsKind k) u s fun s => s.engCutUnit k u

/-- Let a unit accept again (R193). -/
def State.engEnableUnit (s : State) (k : HardClass) (u : Nat) (poll : Bool) : Res :=
  let c := clsNum k
  State.engAccept c u 9 ((s.put (engPoll c u) poll.toNat).put (engEn c u) 1)

/-- ENGINE_ENABLE (R193): a write of en = 1, with poll. -/
def execEngineEnable (k : HardClass) (u : Fin 8) (poll : Bool) (s : State) : Res :=
  if u ≥ unitCount (clsNum k) then .next s
  else accessUnit (clsDomain (clsNum k)).1 (clsDomain (clsNum k)).2 (clsKind k) u s fun s => s.engEnableUnit k u poll

/-! ## Job timers (R299) -/

/-- JOB_TIMER (R299): a job that runs for more than twice the bound of its acceptance plus 2,200 ek is logged once with class 4, and its unit has failed. -/
def execJobTimer (k : HardClass) (u : Fin 8) (s : State) : Res := unitEvent k u s fun s =>
  match (s.unit (clsNum k) u).job with
  | none => .next s
  | some j =>
    if s.since j.at_ / 2 > 2 * j.bound + 2200 && !s.rep.failed.contains (clsKind k, u.val) then
      .next ((s.repLog 4 (clsKind k) u 0).fail (clsKind k) u)
    else .next s

end Sys2Proof.Machine
end

