-- ==== Sys2Proof/Machine/TimeBase.lean ====
section
/-! DEFINITION. The time base: network time, the servo, holdover, the air timelines and PPS (chapter 02, R23 to R35, R406). -/

namespace Sys2Proof.Machine

/-- Replace the time base. -/
def State.withTb (s : State) (f : TimeBase → TimeBase) : State := { s with tb := f s.tb }

/-- The gain m × 2^-s of TMB_KP, TMB_KI or TMB_KF. -/
def gain (m sh : Nat) : Rat := (m : Rat) * pow2 (-(sh : Int))

/-- The servo correction y_f + y_p before the clamp (R28). -/
def State.correction (s : State) : Rat := s.tb.yf + s.tb.yp

/-- YLIM of R28. -/
def State.ylim (s : State) : Rat := (s.get TMB_YLIM.ppb : Rat) / 1000000000

/-- TMB_NT_INC for the present registers (R28): nominal while the servo is off, kept in holdover (R31), else the clamped
correction, with ylim set whenever the clamp acts. -/
def State.updateInc (s : State) : State :=
  let nom := s.get TMB_NT_INC_NOM.inc
  if !s.flag TMB_CTL.servo_en then s.put TMB_NT_INC.inc nom
  else if s.get TMB_STAT.state = 2 then s
  else
    let y := s.correction
    let c := satQ y (-s.ylim) s.ylim
    (s.raiseIf (c ≠ y) TMB_CAUSE.ylim).put TMB_NT_INC.inc (uCast 48 ((nom : Int) + rne ((nom : Rat) * c)))

/-- Enter holdover (R31). -/
def State.enterHoldover (s : State) : State :=
  if s.get TMB_STAT.state = 2 then s else (s.put TMB_STAT.state 2).raise TMB_CAUSE.ho_enter

/-- The frequency source selected by TMB_CTL.freq_src is one of 0 to 32. -/
def State.freqSelected (s : State) : Bool := s.get TMB_CTL.freq_src ≤ 32

/-- The counts of R34 after an update with phase error `θ`. -/
def TimeBase.countUpdate (t : TimeBase) (θ : Rat) (freqOk : Bool) : TimeBase :=
  let a := if θ < 0 then -θ else θ
  { t with near := if a ≤ 20 then min 16 (t.near + 1) else 0
           far := if a > 100 then t.far + 1 else 0
           freqHeld := if freqOk then min 16 (t.freqHeld + 1) else 0 }

/-- I and y_p after an update with phase error `θ` (R28). -/
def State.servoTerms (s : State) (θ : Rat) : State :=
  s.withTb (fun t =>
    let i := t.integ + gain (s.get TMB_KI.m) (s.get TMB_KI.s) * θ
    { t with integ := i, yp := -(gain (s.get TMB_KP.m) (s.get TMB_KP.s) * θ + i) })

/-- TMB_STAT.state after an update outside holdover (R34). -/
def State.updateLock (s : State) : State :=
  if s.get TMB_STAT.state = 1 then
    if s.tb.far ≥ 4 then s.put TMB_STAT.state 0 else s
  else if s.tb.near ≥ 16 && (!s.freqSelected || s.tb.freqHeld ≥ 16) then s.put TMB_STAT.state 1
  else s

/-- Undo a watchdog expiry of the present ck: the two in one ck count as an update (R32). -/
def State.undoExpiry (s : State) : State :=
  match s.tb.expired with
  | none => s
  | some (st, was) => ((s.put TMB_STAT.state st).put TMB_CAUSE.ho_enter was.toNat).withTb fun t => { t with expired := none }

/-- One phase update with phase error `θ` in ns (R28, R32, R34): it restarts the watchdog and sets phase_ok; with servo_en = 1
it ends a holdover that nothing forces, moves the servo terms and counts toward lock. -/
def State.phaseUpdate (s : State) (θ : Rat) : State :=
  let s := s.undoExpiry
  let s := (s.withTb (fun t => { t with lastUpd := some t.mono })).put TMB_STAT.phase_ok 1
  if !s.flag TMB_CTL.servo_en then s
  else if s.get TMB_STAT.state = 2 then
    if s.flag TMB_CTL.ho_force then s
    else
      let s := (s.put TMB_STAT.state 0).raise TMB_CAUSE.ho_exit
      let s := s.withTb (fun t => ({ t with near := 0, far := 0, freqHeld := 0 }).countUpdate θ (s.flag TMB_STAT.freq_ok))
      (s.servoTerms θ).updateInc
  else
    let s := s.withTb (fun t => t.countUpdate θ (s.flag TMB_STAT.freq_ok))
    ((s.servoTerms θ).updateLock).updateInc

/-- TMB_STAT.phase_ok in the present ck: an update within the last TMB_WDOG.ms milliseconds, or any update when ms = 0. -/
def State.phaseOk (s : State) : Bool :=
  match s.tb.lastUpd with
  | none => false
  | some m => s.get TMB_WDOG.ms = 0 || s.since m ≤ s.get TMB_WDOG.ms * Config.ckPerMs

/-- An engine bound to timeline `n` is running. -/
def State.engineBound (s : State) (n : Fin 8) : Bool := s.orr.eng.toList.any (fun e => e.active && e.tl = n)

/-- An engine bound to any enabled timeline is running. -/
def State.anyEngineBound (s : State) : Bool :=
  (List.range 8).any (fun n => s.timelineOn n && s.orr.eng.toList.any (fun e => e.active && e.tl.val = n))

/-- A unit of the fabric domain 82 and group G1 reached from outside: SYS, INT, TMB, ORR and CTX (R319, R343). -/
def fabric (s : State) (f : State → Res) : Res := access 82 1 s f

/-! ## The commands -/

/-- SNAP (R23): NT, TMB_MONO and all eight air-tick counts of one ck go into the snapshot registers. -/
def execSnap (s : State) : Res := fabric s fun s =>
  let nt := s.tb.nt
  let s := s.put TMB_SNAP_SEC.sec nt.sec.toNat
  let s := (s.put TMB_SNAP_NS.ns nt.ns).put TMB_SNAP_NS.frac (nt.frac.toNat / 256)
  let s := s.put TMB_SNAP_MONO.ck s.tb.mono.toNat
  .next ((List.range 8).foldl (fun s n => s.put (TMB_SNAP_ATn.at n) (s.atNow n)) s)

/-- PHERR_WRITE (R28): with phase_src = 0 one phase update of θ in 2^-16 ns; otherwise the write is no update. -/
def execPherrWrite (theta : BitVec 48) (s : State) : Res := fabric s fun s =>
  if s.get TMB_CTL.phase_src = 0 then .next (s.phaseUpdate ((theta.toInt : Rat) / 65536)) else .next s

/-- The signed value of calibration item `i` in force, CAL_E_ (R346). -/
def State.cal (s : State) (i : Nat) : Int := s.getS (CAL_E.val i)

/-- The phase error of a PPS capture at `t` ns (R28): t less the nearest whole second, in [−0.5 s, 0.5 s). -/
def ppsError (t : Rat) : Rat :=
  let r := t - (((t / 1000000000).floor * 1000000000 : Int) : Rat)
  if r < 500000000 then r else r - 1000000000

/-- The PPS_IN handshake is still busy (R29, R339): within a bound of 6 ns = 14 ck of the last carried edge (R340). -/
def State.ppsBusy (s : State) : Bool :=
  match s.tb.ppsIn with
  | none => false
  | some m => s.since m < Config.within 14 m.toNat

/-- PPS_IN_EDGE (R29): an edge while the crossing is busy is lost with pps_ovr; a carried edge, corrected by CAL_E_PPS_IN_LAT,
is a phase update when phase_src = 1. -/
def execPpsInEdge (sec : BitVec 48) (qns : Fin 4000000000) (s : State) : Res := fabric s fun s =>
  if s.ppsBusy then .next (s.raise TMB_CAUSE.pps_ovr)
  else
    let s := s.withTb (fun t => { t with ppsIn := some t.mono })
    let t : Rat := ((sec.toNat * 1000000000 : Nat) : Rat) + (qns.val : Rat) / 4 - (s.cal 333 : Rat) / 256
    if s.get TMB_CTL.phase_src = 1 then .next (s.phaseUpdate (ppsError t)) else .next s

/-- FREQUENCY_LOOP_MEASUREMENT (R28, R33): at a new millisecond of NT with a source selected and present, freq_ok is set, and y_f
moves by KF × e unless the servo is off or in holdover. `meas` is N_meas in 2^-16 cycles, `nom` is N_nom in cycles. -/
def execFrequencyLoopMeasurement (meas : Nat) (nom : Nat) (s : State) : Res := inside 82 1 s fun s =>
  let ms := s.tb.nt.total / (1000000 * Config.ntFrac)
  if !s.freqSelected || s.tb.freqLost || ms ≤ s.tb.freqMs then .next s
  else
    let s := (s.withTb (fun t => { t with freqMs := ms })).put TMB_STAT.freq_ok 1
    if !s.flag TMB_CTL.servo_en || s.get TMB_STAT.state = 2 then .next s
    else
      let e : Rat := ((meas : Rat) / 65536 - nom) / nom
      .next (s.withTb (fun t => { t with yf := t.yf + gain (s.get TMB_KF.m) (s.get TMB_KF.s) * e })).updateInc

/-- The instant from which the watchdog of R31 counts. -/
def State.watchdogFrom (s : State) : BitVec 64 :=
  match s.tb.lastUpd with
  | none => s.tb.servoAt
  | some m => if s.since m < s.since s.tb.servoAt then m else s.tb.servoAt

/-- WATCHDOG_EXPIRY (R31, R32): with servo_en = 1 and ms ≠ 0, holdover begins once ms × 2,200,000 ck have passed without an update; an
update in the ck of the expiry undoes it. -/
def execWatchdogExpiry (s : State) : Res := inside 82 1 s fun s =>
  let ms := s.get TMB_WDOG.ms
  if s.flag TMB_CTL.servo_en && ms ≠ 0 && s.since s.watchdogFrom ≥ ms * Config.ckPerMs && s.get TMB_STAT.state ≠ 2 then
    .next (s.enterHoldover.withTb fun t => { t with expired := some (s.get TMB_STAT.state, s.flag TMB_CAUSE.ho_enter) })
  else .next s

/-- HO_FORCE (R31): ho_force = 1 is stored, and forces holdover while servo_en = 1. -/
def execHoForce (s : State) : Res := fabric s fun s =>
  let s := s.put TMB_CTL.ho_force 1
  if s.flag TMB_CTL.servo_en then .next s.enterHoldover else .next s

/-- SERVO_EN_WRITE (R32, R34): 0 ends any holdover, returns the state to free run and TMB_NT_INC to nominal; 1 restarts the lock
count and resumes from the frozen I and y_f, in holdover if a condition of R31 holds. -/
def execServoEnWrite (v : Bool) (s : State) : Res := fabric s fun s =>
  if v then
    let s := if s.flag TMB_CTL.servo_en then s else s.withTb (fun t => { t with servoAt := t.mono })
    let s := (s.put TMB_CTL.servo_en 1).withTb (fun t => { t with near := 0, freqHeld := 0 })
    if s.flag TMB_CTL.ho_force || s.get TMB_CTL.phase_src = 3 then .next s.enterHoldover else .next s.updateInc
  else
    let s := s.raiseIf (s.get TMB_STAT.state = 2) TMB_CAUSE.ho_exit
    .next ((s.put TMB_CTL.servo_en 0).put TMB_STAT.state 0).updateInc

/-- FREQUENCY_SOURCE_LOST (R33): freq_lost is set, freq_ok clears and y_f is frozen. -/
def execFrequencySourceLost (s : State) : Res := inside 82 1 s fun s =>
  .next (((s.raise TMB_CAUSE.freq_lost).put TMB_STAT.freq_ok 0).withTb (fun t => { t with freqLost := true, freqHeld := 0 }))

/-- FREQUENCY_SOURCE_RETURN (R33): y_f resumes from its frozen value; freq_ok returns at the next measurement. -/
def execFrequencySourceReturn (s : State) : Res := inside 82 1 s fun s =>
  .next (s.withTb (fun t => { t with freqLost := false }))

/-- PHASE_SRC_WRITE (R31): the source of phase updates changes; 3 enters holdover while servo_en = 1. -/
def execPhaseSrcWrite (v : Fin 4) (s : State) : Res := fabric s fun s =>
  let s := s.put TMB_CTL.phase_src v.val
  if s.flag TMB_CTL.servo_en && v.val = 3 then .next s.enterHoldover else .next s

/-- Whole seconds of NT less the PPS output latency (R406). -/
def State.ppsSeconds (s : State) : Nat :=
  let lat : Rat := (s.cal 334 : Rat) / 256
  ((s.tb.nt.nsQ + lat) / 1000000000).floor.toNat

/-- The Apsis time exchange counts its milliseconds from `ms` where NT has gone back behind the last exchange (R291). -/
def State.withExchange (s : State) (ms : Nat) : State := { s with apx := { s.apx with ms := min s.apx.ms ms } }

/-- PHASE_STEP (R35): NT moves by the signed step in 2^-16 ns; undefined while an engine bound to an enabled timeline runs. After a step back
the next frequency measurement and the next time exchange are due at the next millisecond that NT begins (R28, R291). -/
def execPhaseStep (step : BitVec 48) (s : State) : Res := fabric s fun s =>
  faultIf s.anyEngineBound .timelineReprogrammed <|
    let n : Int := (s.tb.nt.total : Int) + step.toInt * (2 ^ 24 : Nat)
    let s := s.withTb (fun t =>
      { t with nt := NT.ofTotal (n % ((2 ^ 48 * 1000000000 * Config.ntFrac : Nat) : Int)).toNat })
    let ms := s.tb.nt.total / (1000000 * Config.ntFrac)
    .next ((s.withTb (fun t => { t with ppsLast := s.ppsSeconds, freqMs := min t.freqMs ms })).withExchange ms)

/-- Engine `n`. -/
def State.engine (s : State) (n : Fin 8) : Engine := s.orr.eng[n.val]

/-- Replace engine `n`. -/
def State.withEngine (s : State) (n : Fin 8) (f : Engine → Engine) : State :=
  { s with orr := { s.orr with eng := s.orr.eng.set n.val (f s.orr.eng[n.val]) } }

/-- Start engine `n` at word 0 of the bank its control register names (R39, R43). -/
def State.startEngine (s : State) (n : Fin 8) : State :=
  let tl : Fin 8 := Fin.ofNat 8 (s.get (ORR_ENGn_CTL.at n))
  let s := s.withEngine n (fun e => { e with active := true, tl := tl, dec := s.mono, swap := none, loops := [], group := none })
  ((s.put (ORR_ENGn_STAT.state n) 1).put (ORR_ENGn_STAT.bank n) (s.get (ORR_ENGn_CTL.bank n))).put (ORR_ENGn_STAT.pc n) 0

/-- Start the engines that wait, with run = 1, for their timeline to count. R26 says only that such an engine does not leave the halted
state; that run = 1 stays and that the engine starts when the timeline is enabled is the model's choice (DESIGN CHOICE, log entry 33). -/
def State.startWaiting (s : State) (tl : Nat) : State :=
  (List.finRange 8).foldl (fun s (n : Fin 8) =>
    if s.flag (ORR_ENGn_CTL.run n) && !(s.engine n).active && s.get (ORR_ENGn_CTL.at n) = tl then s.startEngine n else s) s

/-- TIMELINE_ENABLE (R26): a write of TMB_ATn_CFG; undefined while the timeline counts and an engine bound to it runs. -/
def execTimelineEnable (n : Fin 8) (dup ecp : Bool) (mu : Fin 4) (en : Bool) (s : State) : Res := fabric s fun s =>
  faultIf (s.timelineOn n && s.engineBound n) .timelineReprogrammed <|
    let s := ((s.put (TMB_ATn_CFG.dup n) dup.toNat).put (TMB_ATn_CFG.ecp n) ecp.toNat).put (TMB_ATn_CFG.mu n) mu.val
    let s := s.put (TMB_ATn_CFG.en n) en.toNat
    .next (if en then s.startWaiting n else s)

/-- TIMELINE_OFFSET_WRITE (R26): moves the timeline at once; undefined while it counts and an engine bound to it runs. -/
def execTimelineOffsetWrite (n : Fin 8) (off : BitVec 33) (s : State) : Res := fabric s fun s =>
  faultIf (s.timelineOn n && s.engineBound n) .timelineReprogrammed <| .next (s.put (TMB_ATn_OFF.off n) off.toNat)

/-- EPOCH_WRITE (R26): moves every enabled timeline; undefined while an engine bound to an enabled timeline runs. -/
def execEpochWrite (sec : BitVec 48) (s : State) : Res := fabric s fun s =>
  faultIf s.anyEngineBound .timelineReprogrammed <| .next (s.put TMB_EPOCH.sec sec.toNat)

/-- PPSO_WRITE (R406): width acts from the next pulse; a write of en = 1 makes the next whole second at least 1 µs away the
first pulse; a pulse in progress is not touched. -/
def execPpsoWrite (width : BitVec 8) (en : Bool) (s : State) : Res := fabric s fun s =>
  let was := s.flag TMB_PPSO.en
  let s := (s.put TMB_PPSO.width width.toNat).put TMB_PPSO.en en.toNat
  if en && !was then
    let next := ((s.tb.nt.nsQ + 1000) / 1000000000).ceil.toNat
    .next (s.withTb (fun t => { t with ppsLast := next - 1 }))
  else .next s

/-- PPS_OUT_RISE (R406): with en = 1, once NT less the output latency has crossed a whole second, PPS_OUT goes high for `width` µs. -/
def execPpsOutRise (s : State) : Res := inside 82 1 s fun s =>
  if s.flag TMB_PPSO.en && s.ppsSeconds > s.tb.ppsLast then
    let us := max 1 (s.get TMB_PPSO.width)
    .next (s.withTb (fun t =>
      { t with ppsLast := s.ppsSeconds, ppsHigh := some (t.mono + BitVec.ofNat 64 (us * Config.ckPerUs)) }))
  else .next s

/-- PPS_OUT_FALL (R406): PPS_OUT goes low when the width with which the pulse began has expired. -/
def execPpsOutFall (s : State) : Res := inside 82 1 s fun s =>
  match s.tb.ppsHigh with
  | none => .next s
  | some e => if (s.tb.mono - e).toInt ≥ 0 then .next (s.withTb (fun t => { t with ppsHigh := none })) else .next s

end Sys2Proof.Machine
end

