-- ==== Sys2Proof/Machine/Eth.lean ====
section
/-! DEFINITION. Ethernet frames, their times and the receive rings (chapter 11, R36, R268, R271, R272). -/

namespace Sys2Proof.Machine

/-- Increase a counter field that stops at 0xFFFF_FFFF. -/
def State.countUp (s : State) (f : Fld) (n : Nat) : State := s.put f (min (s.get f + n) (2 ^ 32 - 1))

/-! ## Times -/

/-- NT of a count of quarters of a nanosecond. -/
def NT.ofQuarters (q : Nat) : NT := NT.ofTotal (q * 2 ^ 38)

/-- A time in quarters of a nanosecond less a latency in 2^-8 ns, truncated to a quarter. -/
def lessLatency (sec : BitVec 48) (qns : Nat) (lat : Int) : Nat :=
  ((((sec.toNat * 4000000000 + qns : Nat) : Rat) - (lat : Rat) / 64).floor).toNat

/-- Seconds of a count of quarters. -/
def qSec (q : Nat) : Nat := q / 4000000000 % 2 ^ 48

/-- Quarters below a second: ns in bits [31:2] and qns in bits [1:0] of a descriptor's word. -/
def qBelow (q : Nat) : Nat := q % 4000000000

/-! ## Ports -/

/-- The engine's domain and group of port `p` (R319, R343). -/
def portUnitOf (p : Fin 32) : Nat := 92 + p.val / 8

/-- Lanes of port `p`, physical lane 0 first (R267). -/
def State.portLanes (s : State) (p : Fin 32) : List Nat := (onesOf 8 (s.get (OPT_Pp_CFG.lanes p))).map fun i => 8 * (p.val / 8) + i

/-- Physical lane 0 of port `p`, to which its timestamps refer (R278). -/
def State.portLane (s : State) (p : Fin 32) : Nat := nthD (s.portLanes p) 0 0

/-- Port `p` carries Ethernet frames now. -/
def State.ethUp (s : State) (p : Fin 32) : Bool :=
  s.flag (OPT_Pp_CFG.en p) && !s.flag (OPT_Pp_CFG.apx p) && s.flag (OPT_Pp_STAT.up p)

/-! ## Frames -/

/-- One bit of the reflected CRC-32. -/
def crc32Step (c : BitVec 32) : BitVec 32 := if c.getLsbD 0 then (c >>> 1) ^^^ 0xEDB88320 else c >>> 1

/-- The IEEE 802.3 FCS of a byte string. -/
def crc32 (bs : List (BitVec 8)) : BitVec 32 :=
  ~~~(bs.foldl (fun c b => iter crc32Step 8 (c ^^^ b.setWidth 32)) (BitVec.allOnes 32))

/-- A big-endian number of `n` bytes at offset `o`. -/
def beAt (bs : List (BitVec 8)) (o n : Nat) : Nat := natOfBytesBE ((bs.drop o).take n)

/-- A VLAN TPID (log entry 22). -/
def isTpid (t : Nat) : Bool := t = 0x8100 || t = 0x88A8

/-- Offset of the EtherType, after up to two VLAN tags. -/
def etherAt (bs : List (BitVec 8)) : Nat :=
  if isTpid (beAt bs 12 2) then if isTpid (beAt bs 16 2) then 20 else 16 else 12

/-- UDP over IPv4 or IPv6 to port 319 or 320, behind the EtherType at `o`. -/
def ptpUdp (bs : List (BitVec 8)) (o : Nat) : Bool :=
  let ty := beAt bs o 2
  let h := o + 2
  let port :=
    if ty = 0x0800 && beAt bs (h + 9) 1 = 17 then beAt bs (h + 4 * (beAt bs h 1 % 16) + 2) 2
    else if ty = 0x86DD && beAt bs (h + 6) 1 = 17 then beAt bs (h + 42) 2
    else 0
  port = 319 || port = 320

/-- Where a frame goes (R271). -/
inductive RxDest where
  | ingress
  | ring (r : Fin 3) (ptp : Bool)
  deriving DecidableEq, Repr

/-- Receive classification (R271): the first row that matches. -/
def classify (fh : Bool) (bs : List (BitVec 8)) : RxDest :=
  let o := etherAt bs
  let ty := beAt bs o 2
  if ty = 0xAEFE then if fh then .ingress else .ring 1 false
  else if ty = 0x88F7 || ptpUdp bs o then .ring 0 true
  else if ty = 0x8809 && beAt bs (o + 2) 1 = 0x0A && o + 2 < bs.length then .ring 0 false
  else .ring 2 false

/-! ## Rings -/

/-- L of a ring register: 4 to 12, other values count as 4. -/
def ringLog (l : Nat) : Nat := if 4 ≤ l && l ≤ 12 then l else 4

/-- Write a frame to receive ring `r` (R272): dropped and counted when the ring is disabled or full. An access to the unbacked range is recorded
(R125); prod is the M880's word, as it has written it last. -/
def State.toRing (s : State) (r : Fin 3) (ptp : Bool) (p : Fin 32) (q : Nat) (bs : List (BitVec 8)) : Res :=
  let drop (s : State) : State := s.countUp (OPT_Pp_CNT.drop p) 1
  if !s.flag (OPT_RXRr.en r) then .next (drop s)
  else
    let h := 64 * s.get (OPT_RXRr.addr r)
    let l := ringLog (s.get (OPT_RXRr.log2size r))
    faultIf (!s.addrOn h) .poweredOff <|
      let (hd, s) := s.sysRead h 8
      let prod := BitVec.ofNat 32 (s.le h 4)
      let cons := BitVec.ofNat 32 (natOfBytes (hd.drop 4))
      if (prod - cons).toNat = 2 ^ l then .next ((drop s).raise OPT_CAUSE.rxfull)
      else
        let a := h + 64 + 32 * (prod.toNat % 2 ^ l)
        let (de, s) := s.sysRead a 10
        let buf := natOfBytes (de.take 5)
        let size := natOfBytes (de.drop 8)
        faultIf (!s.rangeOn buf (max 1 (min bs.length size))) .poweredOff <|
          let s := s.sysWrite buf (bs.take size)
          let s := s.sysWrite (a + 10) (bytesOf 2 bs.length ++ bytesOf 1 p.val ++ bytesOf 1 ((decide (bs.length > size)).toNat + 2 * ptp.toNat))
          let s := s.sysWrite (a + 16) (bytesOf 6 (qSec q) ++ bytesOf 4 (qBelow q))
          .next (s.sysWrite h (bytesOf 4 (prod + 1).toNat))

end Sys2Proof.Machine
end

