-- ==== Sys2Proof/Machine/Trig.lean ====
section
/-! DEFINITION. Cosine and sine of a fraction of a turn in fixed point, powers of 10^(1/40), and complex integers (chapter 07). -/

namespace Sys2Proof.Machine

/-- arctan(1/n) × 2^fixBits, by its series. -/
def atanInv (n : Nat) : Int :=
  ((List.range 150).map fun k =>
    (if k % 2 = 0 then (1 : Int) else -1) * ((2 ^ fixBits / (n ^ (2 * k + 1) * (2 * k + 1)) : Nat) : Int)).sum

/-- π × 2^fixBits (Machin). -/
def piFix : Int := 16 * atanInv 5 - 4 * atanInv 239

/-- Terms of the cosine series from term `k` on: x², the term before, and the terms left. -/
def cosTerms (x2 : Int) : Nat → Nat → Int → Int
  | 0, _, t => t
  | n + 1, k, t => t + cosTerms x2 n (k + 1) (-(t * x2 / (2 ^ fixBits : Int)) / ((2 * k + 1) * (2 * k + 2) : Nat))

/-- cos(2π m/n) × 2^fixBits for 0 ≤ m/n ≤ 1/4, exact at both ends. -/
def cosQuarter (m n : Nat) : Int :=
  if m = 0 then (2 ^ fixBits : Int)
  else if 4 * m = n then 0
  else
    let x := 2 * piFix * m / n
    cosTerms (x * x / (2 ^ fixBits : Int)) 80 0 (2 ^ fixBits : Int)

/-- cos(2π m/n) × 2^fixBits, n a multiple of 4 (log entry 8). -/
def cosTurn (m n : Nat) : Int :=
  let m := m % n
  let m := if 2 * m ≤ n then m else n - m
  if 4 * m ≤ n then cosQuarter m n else -(cosQuarter (n / 2 - m) n)

/-- sin(2π m/n) × 2^fixBits, n a multiple of 4. -/
def sinTurn (m n : Nat) : Int := cosTurn (m % n + 3 * n / 4) n

/-- A complex number of two integers. -/
structure CInt where
  re : Int
  im : Int
  deriving DecidableEq, Repr

/-- A ci16 element, I in the low half. -/
def CInt.ofWord (w : BitVec 32) : CInt := ⟨(w.extractLsb' 0 16).toInt, (w.extractLsb' 16 16).toInt⟩

/-- As a ci16 element. -/
def CInt.word (z : CInt) : BitVec 32 := BitVec.ofInt 16 z.im ++ BitVec.ofInt 16 z.re

/-- The components of complex numbers, in order. -/
def components (zs : List CInt) : List Int := zs.flatMap fun z => [z.re, z.im]

/-- The four bytes of a ci16 element. -/
def CInt.bytes (z : CInt) : List (BitVec 8) := bytesOf 4 z.word.toNat

/-- Clamp to s16; whether it saturated. -/
def satS16 (x : Int) : Int × Bool := (sat x (-32768) 32767, decide (x < -32768) || decide (x > 32767))

/-- Round and saturate two components to ci16, with the number of saturations. -/
def satC (re im : Rat) : CInt × Nat :=
  let (a, p) := satS16 (rne re)
  let (b, q) := satS16 (rne im)
  (⟨a, b⟩, p.toNat + q.toNat)

/-- The largest r below 2^n with r^k ≤ x. -/
def kRoot (k x : Nat) : Nat → Nat → Nat
  | 0, r => r
  | n + 1, r => kRoot k x n (if (r + 2 ^ n) ^ k ≤ x then r + 2 ^ n else r)

/-- rne(2^12 × 10^(a/40)) (R176): an exact half does not occur. -/
def gainCode (a : Nat) : Nat := (kRoot 40 (8192 ^ 40 * 10 ^ a) 20 0 + 1) / 2

/-- sat(rne(−40 × log10 q), 0, 255) for q > 0 (R174): how many half-steps k + 1/2 it exceeds. -/
def dbfs (q : Rat) : Nat := ((List.range 255).filter fun k => q ^ 80 * ((10 ^ (2 * k + 1) : Nat) : Rat) < 1).length

end Sys2Proof.Machine
end

