-- ==== Sys2Proof/Machine/Fronthaul.lean ====
section
/-! DEFINITION. Fronthaul ingress: frames, eCPRI messages, decompression, shaping and IQ conversion (chapter 07, R150 to R165; chapter 11,
R271, R277). -/

namespace Sys2Proof.Machine

/-! ## Frames (R150, R268, R271) -/

/-- Replace the frame buffer of ingress engine `e`. -/
def State.withBuf (s : State) (e : Fin 4) (f : List FhFrame → List FhFrame) : State :=
  { s with opt := { s.opt with buf := s.opt.buf.set e.val (f s.opt.buf[e.val]) } }

/-- The capture time of a frame, in quarters of a nanosecond. -/
def FhFrame.time (f : FhFrame) : Nat := f.sec.toNat * 4000000000 + f.qns

/-- Gb/s of a port rate (R267), as the divisor of 400. -/
def rateDivisor : Nat → Nat
  | 0 => 16 | 1 => 8 | 2 => 4 | 3 => 2 | _ => 1

/-- A frame of `n` bytes with its FCS, captured on port `p` at `q` quarters of a nanosecond. -/
def State.captured (s : State) (p : Fin 32) (q n : Nat) (bs : List (BitVec 8)) : FhFrame :=
  { port := p, sec := BitVec.ofNat 48 (qSec q), qns := qBelow q, last := 400 * q + 32 * n * rateDivisor (s.get (OPT_Pp_CFG.rate p))
    lane := s.portLane p, data := bs, off := etherAt bs + 2 }

/-- Some message of the frame has been handled. -/
def FhFrame.begun (f : FhFrame) : Bool := f.off ≠ etherAt f.data + 2

/-- Put a frame into a buffer in the order of the capture times of last bits, ties to the lower lane; a frame in progress stays the first (R150). -/
def insertFrame (f : FhFrame) : List FhFrame → List FhFrame
  | [] => [f]
  | g :: gs => if !g.begun && (f.last < g.last || (f.last = g.last && f.lane < g.lane)) then f :: g :: gs else g :: insertFrame f gs

/-! ## eCPRI messages (R151) -/

/-- An eCPRI message at offset `off` of a frame: revision, type, payload size, payload, and the offset of the next one (log entry 22). -/
structure Ecpri where
  rev : Nat
  ty : Nat
  size : Nat
  payload : List (BitVec 8)
  next : Option Nat
  deriving DecidableEq, Repr

/-- The message at a frame's offset: none without a whole common header. -/
def FhFrame.msg (f : FhFrame) : Option Ecpri :=
  if f.off + 4 > f.data.length then none
  else
    let b := beAt f.data f.off 1
    let n := beAt f.data (f.off + 2) 2
    some { rev := b / 16, ty := beAt f.data (f.off + 1) 1, size := n, payload := (f.data.drop (f.off + 4)).take n
           next := if b % 2 = 1 then some (f.off + 4 + 4 * ceilDiv n 4) else none }

/-- The message is dropped with hdr: no header, another revision, a size above 9,000, or a type that is not supported (R151). -/
def badMsg : Option Ecpri → Bool
  | none => true
  | some m => m.rev ≠ 1 || m.size > 9000 || !(m.ty = 0 || m.ty = 2 || m.ty = 5)

/-- Some message that the frame still holds, within `fuel`, goes to ring 1 (R151, R271, R277). -/
def FhFrame.feedsRing (f : FhFrame) : (fuel : Nat) → Bool
  | 0 => false
  | fuel + 1 =>
    match f.msg with
    | none => false
    | some m =>
      (!badMsg (some m) && (m.ty = 2 || (m.ty = 5 && !(beAt m.payload 1 1 ≤ 1 && m.payload.length ≥ 2)))) ||
        match m.next with
        | some o => FhFrame.feedsRing { f with off := o } fuel
        | none => false

/-- A frame captured before `f` waits in an ingress engine with a message for ring 1. -/
def State.ringWaits (s : State) (f : FhFrame) : Bool :=
  s.opt.buf.toList.any fun b => b.any fun g => decide (g.time < f.time) && g.feedsRing g.data.length

/-- Write the frames that wait for ring 1, in the order of their capture timestamps, until one must wait on (R272). -/
def ringFlush : (n : Nat) → State → Res
  | 0, s => .next s
  | n + 1, s =>
    match s.opt.rxWait with
    | [] => .next s
    | f :: rest =>
      if s.ringWaits f then .next s
      else andThen (State.toRing { s with opt := { s.opt with rxWait := rest } } 1 false f.port f.time f.data) (ringFlush n)

/-- Put a frame among those that wait for ring 1, in the order of capture timestamps. -/
def insertWait (f : FhFrame) : List FhFrame → List FhFrame
  | [] => [f]
  | g :: gs => if f.time < g.time then f :: g :: gs else g :: insertWait f gs

/-- A frame goes to ring 1 (R271, R272). -/
def State.holdRing (s : State) (f : FhFrame) : State := { s with opt := { s.opt with rxWait := insertWait f s.opt.rxWait } }

/-- Write what may now be written of the frames for ring 1. -/
def State.flushRing (s : State) : Res := ringFlush s.opt.rxWait.length s

/-- The FEC of port `p` reports the codewords of a frame (R297, R316): they are counted and logged, and count toward class 7 of the lane. -/
def State.fecChecked (s : State) (p : Fin 32) (r : FecReport) : State :=
  if r.corr = 0 && r.unc = 0 then s
  else
    let s := (s.countUp (OPT_Pp_CNT.corr p) r.corr.toNat).countUp (OPT_Pp_CNT.unc p) r.unc.toNat
    (s.crcsFailed p (r.corr.toNat + r.unc.toNat)).countEvents 7 (nthD (s.portLanes p) r.lane (s.portLane p)) (r.corr.toNat + 16 * r.unc.toNat)

/-- FRAME_RECEIVE (R36, R150, R268, R271, R272): a frame of port `p` with its FCS and its arrival at the PCS; frames too long or with a bad FCS
are dropped and counted, a bad FCS logged, as is every one whose FEC meets an uncorrectable codeword (R316), and the others go where the classification says, the frames of an ingress engine in the order of their last bits. -/
def execFrameReceive (p : Fin 32) (time : Stamp) (data : List (BitVec 8)) (fec : FecReport) (s : State) : Res :=
  inside (portUnitOf p) 4 s fun s =>
    let s := if s.flag (OPT_Pp_CFG.en p) && s.flag (OPT_Pp_STAT.up p) then s.fecChecked p fec else s
    if !s.ethUp p then .next s
    else if data.length > 9216 then .next (s.countUp (OPT_Pp_CNT.drop p) 1)
    else
      let bs := data.take (data.length - 4)
      if data.length < 4 || fec.unc ≠ 0 || natOfBytes (data.drop (data.length - 4)) ≠ (crc32 bs).toNat then
        .next ((s.countUp (OPT_Pp_CNT.fcs p) 1).crcFailed p)
      else
        let q := lessLatency time.sec time.qns.val (s.cal (335 + s.portLane p))
        let f := s.captured p q data.length bs
        match classify (s.flag (OPT_Pp_CFG.fh p)) bs with
        | .ring r ptp => if r = 1 then (s.holdRing f).flushRing else s.toRing r ptp p q bs
        | .ingress =>
          let e : Fin 4 := Fin.ofNat 4 (p.val / 8)
          let held := (s.opt.buf[e.val].map fun f => f.data.length + 4).sum
          if held + data.length > 262144 then .next (s.raise FH_CAUSE.ovr)
          else .next (s.withBuf e (insertFrame f))

/-- The engine is done with the message at the head: the next one of the frame follows, or the frame leaves the buffer. -/
def State.msgDone (s : State) (e : Fin 4) : State :=
  s.withBuf e fun b => match b with
    | [] => []
    | f :: rest =>
      match f.msg with
      | some m => match m.next with
        | some o => { f with off := o } :: rest
        | none => rest
      | none => rest

/-- Handle the head message of ingress engine `e` when it has type `ty`; a bad message is dropped whatever row comes to it. Frames that waited
for it on ring 1 follow (R272). -/
def headMessage (e : Fin 4) (ty : Nat) (s : State) (f : FhFrame → Ecpri → State → Res) : Res :=
  inside (92 + e.val) 4 s fun s =>
    match s.opt.buf[e.val] with
    | [] => .next s
    | fr :: _ =>
      if badMsg fr.msg then ((s.raise FH_CAUSE.hdr).msgDone e).flushRing
      else match fr.msg with
        | none => .next s
        | some m => if m.ty ≠ ty then .next s else andThen (f fr m s) fun s => (s.msgDone e).flushRing

/-- REAL_TIME_CONTROL_MESSAGE (R151, R271): a type 2 message goes, in its frame, to ring 1. -/
def execRealTimeControlMessage (e : Fin 4) (s : State) : Res := headMessage e 2 s fun fr _ s => .next (s.holdRing fr)

/-- The response to a one-way delay request (R277), with the shortest Ethernet frame's padding. -/
def owdResponse (mac : Nat) (fr : FhFrame) (m : Ecpri) : List (BitVec 8) :=
  let o := etherAt fr.data
  let q := fr.time
  let bs := (fr.data.drop 6).take 6 ++ bytesBE 6 mac ++ (fr.data.drop 12).take (o - 12) ++ bytesBE 2 0xAEFE
    ++ [0x10, 0x05] ++ bytesBE 2 20 ++ m.payload.take 1 ++ [0x02] ++ bytesBE 6 (qSec q) ++ bytesBE 4 (qBelow q / 4) ++ bytesBE 8 (q % 4 * 0x4000)
  bs ++ List.replicate (60 - bs.length) 0

/-- ONE_WAY_DELAY_MEASUREMENT (R151, R277): action types 0 and 1 are answered by a response that waits on the port; the others go to ring 1
(log entry 23 for those above 5). -/
def execOneWayDelayMeasurement (e : Fin 4) (s : State) : Res := headMessage e 5 s fun fr m s =>
  if beAt m.payload 1 1 ≤ 1 && m.payload.length ≥ 2 then
    let x := s.opt.port[fr.port.val]
    let x := { x with resp := x.resp ++ [owdResponse (s.get (OPT_Pp_CFG.mac fr.port)) fr m] }
    .next { s with opt := { s.opt with port := s.opt.port.set fr.port.val x } }
  else .next (s.holdRing fr)

/-! ## Decompression (R156 to R159) -/

/-- The method has a parameter byte. -/
def hasParam (meth : Nat) : Bool := 1 ≤ meth && meth ≤ 3

/-- Bytes per PRB. -/
def prbBytes (meth w : Nat) : Nat := 3 * w + (hasParam meth).toNat

/-- The table lists width `w` for a supported method. -/
def widthOk (meth w : Nat) : Bool :=
  match meth with
  | 0 | 1 | 2 => 1 ≤ w && w ≤ 16
  | 3 => 4 ≤ w && w ≤ 16
  | _ => 1 ≤ w && w ≤ 8

/-- One component (R157): code `u` of `w` bits with parameter `par`, scale and csf of method 4. -/
def prbValue (meth w par scale csf u : Nat) : Rat :=
  let m : Rat := (sCast w u : Int)
  match meth with
  | 0 => m * pow2 (16 - w)
  | 1 => m * pow2 (par % 16 : Nat)
  | 2 => m * pow2 (16 - w) * par / 128
  | 3 =>
    let big := 2 ^ (w - 4)
    let mag : Rat := (((big + u % big) * 2 ^ (u / big % 8) : Nat) : Rat) - (big : Rat)
    (if u.testBit (w - 1) then -mag else mag) * pow2 (par % 16 : Nat)
  | _ => (2 * m + csf) * scale * pow2 (-(w : Int))

/-- A PRB (R157) from its bytes: 12 elements, and the saturations. -/
def prbDec (meth w scale csf : Nat) (bs : List (BitVec 8)) : List CInt × Nat :=
  let p := (hasParam meth).toNat
  let par := beAt bs 0 p
  let n := beAt bs p (3 * w)
  let x (k : Nat) : Rat := prbValue meth w par scale csf (bitsOf n (24 * w - w * (k + 1)) w)
  let zs := (List.range 12).map fun i => satC (x (2 * i)) (x (2 * i + 1))
  (zs.map Prod.fst, (zs.map Prod.snd).sum)

/-- A PRB of a message: sections with symInc so far, carrier PRB, whether it was decoded, and its elements. -/
structure UPrb where
  inc : Nat
  prb : Nat
  decoded : Bool
  re : List CInt
  deriving DecidableEq, Repr

/-- What the sections of a message hold. -/
structure USecs where
  prbs : List UPrb
  sat : Nat
  short : Bool
  bad : Bool
  deriving DecidableEq, Repr

/-- Twelve zero elements. -/
def zeroPrb : List CInt := List.replicate 12 ⟨0, 0⟩

/-- The values of stream `m` that decoding needs. -/
structure UStream where
  static : Bool
  meth : Nat
  width : Nat
  nprb : Nat
  scale : Nat
  csf : Nat
  deriving DecidableEq, Repr

/-- Stream `m`. -/
def State.ustream (s : State) (m : Nat) : UStream :=
  { static := s.flag (FH_STRm_CFG.static m), meth := s.get (FH_STRm_CFG.meth m), width := s.get (FH_STRm_CFG.width m)
    nprb := s.get (FH_STRm_CFG.nprb m), scale := s.get (FH_STRm_MC.scale m), csf := s.get (FH_STRm_MC.csf m) }

/-- The sections of a message from `bs` on (R152, R156 to R159, log entry 22); `fuel` bounds their number. -/
def parseSections (x : UStream) : Nat → Nat → List (BitVec 8) → USecs → USecs
  | 0, _, _, u => u
  | fuel + 1, inc, bs, u =>
    let h := if x.static then 4 else 6
    if bs.length < h then u
    else
      let v := beAt bs 0 3
      let rb := v / 2 ^ 11 % 2
      let inc := inc + v / 2 ^ 10 % 2
      let start := v % 2 ^ 10
      let num := beAt bs 3 1
      let meth := if x.static then x.meth else beAt bs 4 1 % 16
      let w := if x.static then x.width else beAt bs 4 1 / 16
      let w := if w = 0 then 16 else w
      let n := if num = 0 then ceilDiv (x.nprb - start) (1 + rb) else num
      let put (f : Nat → UPrb) : List UPrb := u.prbs ++ (List.range n).map f
      let zero (i : Nat) : UPrb := ⟨inc, start + (1 + rb) * i, false, zeroPrb⟩
      let rest := bs.drop h
      if meth > 4 then { u with prbs := put zero, bad := true }
      else
        let b := prbBytes meth w
        if !widthOk meth w then parseSections x fuel inc (rest.drop (n * b)) { u with prbs := put zero, bad := true }
        else
          let k := min n (rest.length / b)
          let ds := (List.range k).map fun i => prbDec meth w x.scale x.csf ((rest.drop (b * i)).take b)
          let u := { u with prbs := put fun i => if i < k then ⟨inc, start + (1 + rb) * i, true, (nthD ds i ([], 0)).1⟩ else zero i
                            sat := u.sat + (ds.map Prod.snd).sum }
          if k < n then { u with short := true } else parseSections x fuel inc (rest.drop (n * b)) u

/-! ## Shaping (R162 to R164) -/

/-- Tap `t` of phase `ph` of coefficient set `k` (R163). -/
def State.tap (s : State) (k ph t : Nat) : Int :=
  if t % 2 = 0 then s.getS (FH_RST.lo k (8 * ph + t / 2)) else s.getS (FH_RST.hi k (8 * ph + t / 2))

/-- PRBs of elements laid from output PRB `p` on. -/
def prbRun (p : Nat) (zs : List CInt) : List (Nat × List CInt) := (List.range (zs.length / 12)).map fun i => (p + i, (zs.drop (12 * i)).take 12)

/-- Resize (R163). -/
def State.resize (s : State) (m : Nat) (ps : List (Nat × List CInt)) : List (Nat × List CInt) × Nat :=
  let u := s.get (FH_STRm_SHP.rs_u m)
  let d := s.get (FH_STRm_SHP.rs_d m)
  if u = 0 || d = 0 || u = d then (ps, 0)
  else
    let x := ps.flatMap Prod.snd
    let k := s.get (FH_STRm_SHP.rs_set m)
    let ys := (List.range (12 * (x.length * u / (12 * d)))).map fun j =>
      let a := (List.range 16).foldl (fun (a : CInt) (t : Nat) =>
        let i : Int := ((j * d / u : Nat) : Int) + (t : Int) - 8
        let z := if i < 0 then ⟨0, 0⟩ else nthD x i.toNat ⟨0, 0⟩
        let h := s.tap k (j * d % u) t
        ⟨a.re + z.re * h, a.im + z.im * h⟩) ⟨0, 0⟩
      satC ((a.re : Rat) / 16384) ((a.im : Rat) / 16384)
    let at_ := ps.map Prod.fst
    let base := if at_ = List.range at_.length then 0 else Config.resizePlace u d at_
    (prbRun base (ys.map Prod.fst), (ys.map Prod.snd).sum)

/-- Replace the elements of PRBs in order. -/
def refill : List (Nat × List CInt) → List CInt → List (Nat × List CInt)
  | [], _ => []
  | p :: ps, zs => (p.1, zs.take 12) :: refill ps (zs.drop 12)

/-- Flip (R164): 1 reverses the elements, 2 conjugates, 3 both. -/
def flipPrbs (f : Nat) (ps : List (Nat × List CInt)) : List (Nat × List CInt) × Nat :=
  let zs := ps.flatMap Prod.snd
  let zs := if f % 2 = 1 then zs.reverse else zs
  if f / 2 % 2 = 1 then
    (refill ps (zs.map fun z => ⟨z.re, (satS16 (-z.im)).1⟩), (zs.filter fun z => z.im = -32768).length)
  else (refill ps zs, 0)

/-- r of R164 for a phase in 2^-21 turn. -/
def rotor (ph : Nat) : CInt :=
  let f (x : Int) : Int := sat (rne ((x : Rat) / ((2 ^ (fixBits - 15) : Nat) : Rat))) (-32767) 32767
  ⟨f (cosTurn (ph % 2 ^ 21) (2 ^ 21)), f (sinTurn (ph % 2 ^ 21) (2 ^ 21))⟩

/-- Rotate (R164): element k of the stream's output in symbol `l`. -/
def State.rotate (s : State) (m l : Nat) (ps : List (Nat × List CInt)) : List (Nat × List CInt) × Nat :=
  if !s.flag (FH_STRm_SHP.rot m) then (ps, 0)
  else
    let ph (k : Nat) : Nat := s.get (FH_STRm_ROT.phi0 m) + k * s.get (FH_STRm_ROT.dk m) + l * s.get (FH_STRm_ROT.dl m)
    let out := ps.map fun (p, zs) => (p, zs.zipIdx.map fun ((z : CInt), i) =>
      let r := rotor (ph (12 * p + i))
      satC ((z.re * r.re - z.im * r.im : Int) / 32768 : Rat) ((z.re * r.im + z.im * r.re : Int) / 32768 : Rat))
    (out.map fun (p, zs) => (p, zs.map Prod.fst), (out.flatMap fun p => p.2.map Prod.snd).sum)

/-- Mode 0 (R162): crop, resize, flip, rotate the PRBs of one symbol; answers output PRBs and saturations. -/
def State.shape (s : State) (m l : Nat) (ps : List (Nat × List CInt)) : List (Nat × List CInt) × Nat :=
  let first := s.get (FH_STRm_CROP.first m)
  let cnt := s.get (FH_STRm_CROP.cnt m)
  let last := if cnt = 0 then s.get (FH_STRm_CFG.nprb m) else first + cnt
  let kept := (ps.filter fun p => first ≤ p.1 && p.1 < last).map fun p => (p.1 - first, p.2)
  let (ps, a) := s.resize m kept
  let (ps, b) := flipPrbs (s.get (FH_STRm_SHP.flip m)) ps
  let (ps, c) := s.rotate m l ps
  (ps, a + b + c)

/-! ## IQ conversion (R165) -/

/-- gain × A × (x − dc). -/
def State.iqConvert (s : State) (m : Nat) (z : CInt) : CInt × Nat :=
  let f (x : Fld) : Int := s.getS x
  let i := z.re - f (FH_STRm_IQC.dci m)
  let q := z.im - f (FH_STRm_IQC.dcq m)
  let g : Int := s.get (FH_STRm_IQC.gain m)
  satC ((g * (f (FH_STRm_IQC.a11 m) * i + f (FH_STRm_IQC.a12 m) * q) : Int) / 67108864 : Rat)
    ((g * (f (FH_STRm_IQC.a21 m) * i + f (FH_STRm_IQC.a22 m) * q) : Int) / 67108864 : Rat)

/-- FH_STRm_IQM over the decoded elements of a message. -/
def State.iqMeasure (s : State) (m : Nat) (zs : List CInt) : State :=
  let s := s.put (FH_STRm_IQM.n m) zs.length
  let s := (s.put (FH_STRm_IQM.sumi m) (uCast 32 (zs.map CInt.re).sum)).put (FH_STRm_IQM.sumq m) (uCast 32 (zs.map CInt.im).sum)
  s.put (FH_STRm_IQM.pwr m) (zs.map fun z => (z.re * z.re + z.im * z.im).toNat).sum

/-- Mode 1 on the PRBs of one symbol: written zeros stay zero. -/
def State.iqPrbs (s : State) (m : Nat) (us : List UPrb) : List (Nat × List CInt) × Nat :=
  let out := us.map fun u => (u.prb, if u.decoded then u.re.map (s.iqConvert m) else u.re.map fun z => (z, 0))
  (out.map fun (p, zs) => (p, zs.map Prod.fst), (out.flatMap fun p => p.2.map Prod.snd).sum)

/-! ## U-plane messages (R152 to R155, R160, R162, R167) -/

/-- The lowest stream entry that matches (R153). -/
def State.streamOf (s : State) (pcid fidx : Nat) : Option Nat :=
  (List.range 256).find? fun m =>
    s.flag (FH_STRm_CFG.en m) && s.get (FH_STRm_CFG.eaxc m) = pcid && s.flag (FH_STRm_CFG.prach m) = decide (fidx ≠ 0)

/-- Note the sequence id of stream `m` and count a gap (R153). -/
def State.noteSeq (s : State) (m : Nat) (id : BitVec 8) : State :=
  let m' : Fin 256 := Fin.ofNat 256 m
  let s := match s.opt.seqId[m'.val] with
    | some old => if id = old + 1 then s else s.countUp (FH_STRm_CNT.seq m) 1
    | none => s
  { s with opt := { s.opt with seqId := s.opt.seqId.set m'.val (some id) } }

/-- Note an error of stream `m` in FH_LAST. -/
def State.noteLast (s : State) (c : Bool) (f : Fld) (m : Nat) : State := if c then (s.raise f).put FH_LAST.str m else s

/-- A message's symbol, shaped: symbol number from the first slot symbol on, and its PRBs. -/
structure USym where
  sym : Nat
  prbs : List (Nat × List CInt)
  deriving DecidableEq, Repr

/-- Keep at most `n` PRBs over the symbols of a message (R160); answers whether any was left out. -/
def capPrbs : Nat → List USym → List USym × Bool
  | _, [] => ([], false)
  | n, u :: us =>
    let (r, c) := capPrbs (n - u.prbs.length) us
    ({ u with prbs := u.prbs.take n } :: r, c || decide (u.prbs.length > n))

/-- Place the symbols of a message in turn (R167, R171); `mk` makes the batch message. -/
def State.placeAll (s : State) (m : Nat) (q : Fin 64) (mk : USym → BatchMsg) : List USym → State
  | [] => s
  | u :: us =>
    let (s, r) := s.place q (mk u)
    let s := if r = .stale then (s.countUp (FH_STRm_CNT.stale m) 1).raise FH_CAUSE.stale else s
    State.placeAll s m q mk us

/-- The decoded message of stream `m` goes through its stage and into its batches; `first` is symbolId, `tsym` gives T_sym. With `perr` the flit that
takes its first PRB to the ingress write plane fails its parity and delivers the bytes that it then has (R316). -/
def State.deliverUPlane (s : State) (perr : Bool) (m first : Nat) (ecp : Bool) (tl : Nat) (tsym : Nat → Nat) (u : USecs) : State :=
  let s := s.noteLast u.short FH_CAUSE.short m
  let s := s.noteLast u.bad FH_CAUSE.badcomp m
  let mode := s.flag (FH_STRm_SHP.mode m)
  let mask := s.get (FH_STRm_CROP.sym m)
  let syms := ((u.prbs.map UPrb.inc).eraseDups.map fun i => first + i).filter fun k => mode || mask.testBit (k % slotSymbols ecp)
  let s := if mode then s.iqMeasure m (((u.prbs.filter UPrb.decoded).take 2250).flatMap UPrb.re) else s
  let outs := syms.map fun k =>
    let us := u.prbs.filter fun x => first + x.inc = k
    let (ps, n) := if mode then s.iqPrbs m us else s.shape m (k % slotSymbols ecp) (us.map fun x => (x.prb, x.re))
    (({ sym := k, prbs := ps } : USym), n)
  let (outs', cap) := capPrbs 2250 (outs.map Prod.fst)
  let s := (s.noteLast cap FH_CAUSE.cap m).countUp (FH_STRm_CNT.sat m) (u.sat + (outs.map Prod.snd).sum)
  let q := Fin.ofNat 64 (s.get (FH_STRm_CFG.queue m))
  let (noise, s) := if perr then s.drawBytes 48 else ([], s)
  let s := if perr then s.nocParity (s.get (FH_QUEq_CFG.cluster q)) else s
  let bytes (x : USym) (i : Nat) (cs : List CInt) : List (BitVec 8) :=
    if perr && i = 0 && decide (outs'.head?.map USym.sym = some x.sym) then noise else cs.flatMap CInt.bytes
  s.placeAll m q (fun x =>
    { t := tsym x.sym, sym := x.sym % slotSymbols ecp, tl := tl, hi := some (s.getS (FH_STRm_WIN.hi m)), pos := s.get (FH_STRm_CFG.pos m)
      nmsg := s.get (FH_STRm_CFG.nmsg m) + 1, flags := u.short.toNat + 2 * u.bad.toNat + 4 * cap.toNat, str := some m
      prbs := x.prbs.zipIdx.map fun (p, i) => (p.1, bytes x i p.2) }) outs'

/-- The air time of a capture on a timeline (R24, R154). -/
def State.airOf (s : State) (tl q : Nat) : Nat := airCount (NT.ofQuarters q) (s.get TMB_EPOCH.sec) (s.get (TMB_ATn_OFF.off tl))

/-- IQ_DATA_MESSAGE (R152 to R167): the type 0 message at the head of engine `e` is matched, judged against its window, decoded, shaped and
written into its batches. -/
def execIqDataMessage (e : Carried 4) (s : State) : Res := headMessage e.val 0 s fun fr msg s =>
  let b := msg.payload
  if b.length < 8 then .next (s.raise FH_CAUSE.hdr)
  else if beAt b 4 1 ≥ 128 then .next (s.raise FH_CAUSE.dir)
  else match s.streamOf (beAt b 0 2) (beAt b 4 1 % 16) with
    | none => .next (s.raise FH_CAUSE.nomatch)
    | some m =>
      let s := s.noteSeq m (BitVec.ofNat 8 (beAt b 2 1))
      let tl := s.get (FH_STRm_CFG.at m)
      let (mu, ecp) := s.numerology tl
      let v := beAt b 6 2
      let sf := v / 4096
      let slot := v / 64 % 64
      let sym := v % 64
      if sf > 9 || slot ≥ 2 ^ mu || sym ≥ slotSymbols ecp then .next (s.raise FH_CAUSE.hdr)
      else
        let tc := s.airOf tl fr.time
        let ts (k : Nat) : Nat := tSym tc (beAt b 5 1) sf slot k mu ecp
        let δ := airDiff tc (ts sym)
        if δ < s.getS (FH_STRm_WIN.lo m) then .next ((s.countUp (FH_STRm_CNT.early m) 1).raise FH_CAUSE.early)
        else if δ > s.getS (FH_STRm_WIN.hi m) then .next ((s.countUp (FH_STRm_CNT.stale m) 1).raise FH_CAUSE.stale)
        else
          let q := Fin.ofNat 64 (s.get (FH_STRm_CFG.queue m))
          faultIf (s.flag (FH_QUEq_CFG.en q) && !s.bqOn q) .poweredOff <|
            let t := s.deliverUPlane e.perr m sym ecp tl ts (parseSections (s.ustream m) b.length 0 (b.drop 8) ⟨[], 0, false, false⟩)
            faultIf (s.flagLost t q) .poweredOff (.next t)

end Sys2Proof.Machine
end

