-- ==== Sys2Proof/Machine/Jesd.lean ====
section
/-! DEFINITION. The JESD204C links: enabling, SYSREF, lane locks and releases (chapters 07 and 11, R184, R185, R280 to R283). -/

namespace Sys2Proof.Machine

/-- Bits of a link configuration word. -/
def jf (c : BitVec 64) (lo w : Nat) : Nat := bitsOf c.toNat lo w

/-- F of R184 matches: F × 8L = 2 × nstr × S × N'. -/
def jesdFits (c : BitVec 64) : Bool :=
  (jf c 24 5 + 1) * 8 * (jf c 44 4 + 1) = 2 * (jf c 38 6 + 1) * (jf c 30 2 + 1) * (if jf c 29 1 = 1 then 12 else 16)

/-- Logical lanes of a link configuration. -/
def jesdLanes (c : BitVec 64) : List Nat := (List.range (jf c 44 4 + 1)).map fun i => jf c 48 8 + i

/-! ## Transport (R184; log entry 47) -/

/-- A component as a link with N' = 12 carries it: its upper 12 bits. -/
def jesdHalf (np12 : Bool) (x : BitVec 16) : BitVec 16 := if np12 then x &&& 0xFFF0 else x

/-- A sample as a link carries it. -/
def jesdCarry (np12 : Bool) (w : BitVec 32) : BitVec 32 := jesdHalf np12 (w.extractLsb' 16 16) ++ jesdHalf np12 (w.extractLsb' 0 16)

/-- The bits of a component on the link, most significant first. -/
def jesdBits (np12 : Bool) (x : BitVec 16) : List Bool := (List.range (if np12 then 12 else 16)).map fun i => x.getLsbD (15 - i)

/-- The component that a run of bits carries. -/
def jesdUnbits (bs : List Bool) : BitVec 16 := bs.zipIdx.foldl (fun x (b, i) => if b then x ||| BitVec.ofNat 16 (2 ^ (15 - i)) else x) 0

/-- Eight bits as an octet, the first the most significant. -/
def octetOf (bs : List Bool) : BitVec 8 := bs.zipIdx.foldl (fun x (b, i) => if b then x ||| BitVec.ofNat 8 (2 ^ (7 - i)) else x) 0

/-- The bits of a frame: the S samples of converter 2i, then those of converter 2i + 1, for each stream i in turn. -/
def jesdFrameBits (np12 : Bool) (xs : List (List (BitVec 32))) : List Bool :=
  xs.flatMap fun x => x.flatMap (fun w => jesdBits np12 (w.extractLsb' 0 16)) ++ x.flatMap (fun w => jesdBits np12 (w.extractLsb' 16 16))

/-- Pack a frame, S samples of each stream, into the F octets of each lane. -/
def jesdPack (np12 : Bool) (lanes f : Nat) (xs : List (List (BitVec 32))) : List (List (BitVec 8)) :=
  let bits := jesdFrameBits np12 xs
  (List.range lanes).map fun l => (List.range f).map fun o => octetOf ((bits.drop (8 * (f * l + o))).take 8)

/-- Unpack the octets of a frame's lanes into the S samples of each of `n` streams. -/
def jesdUnpack (np12 : Bool) (n sn : Nat) (ls : List (List (BitVec 8))) : List (List (BitVec 32)) :=
  let bits := ls.flatMap fun l => l.flatMap fun o => (List.range 8).map fun i => o.getLsbD (7 - i)
  let w := if np12 then 12 else 16
  let at_ (k : Nat) : BitVec 16 := jesdUnbits ((bits.drop (w * k)).take w)
  (List.range n).map fun i => (List.range sn).map fun j => at_ (sn * (2 * i + 1) + j) ++ at_ (sn * (2 * i) + j)

/-- Address of the configuration of a link. -/
def jesdCfg (tx : Bool) (k : Nat) : Nat := if tx then JES_TXk_CFG.reg k else JES_RXk_CFG.reg k

/-- The configuration word of a link. -/
def State.jesd (s : State) (tx : Bool) (k : Nat) : BitVec 64 := BitVec.ofNat 64 (s.words (jesdCfg tx k) 2)

/-- Physical lane of a logical lane (R281). -/
def State.jesdPhys (s : State) (tx : Bool) (l : Nat) : Nat :=
  if l < 48 then if tx then s.get (JES_TXMAPi.phy (l / 8) (l % 8)) else s.get (JES_RXMAPi.phy (l / 8) (l % 8)) else 64 + l

/-- Two logical lanes of enabled links, this one with configuration `c` among them, have one physical lane (R281). -/
def State.jesdClash (s : State) (tx : Bool) (k : Fin 8) (c : BitVec 64) : Bool :=
  let others := (List.finRange 8).filter fun o => o ≠ k && jf (s.jesd tx o) 63 1 = 1
  let lanes := jesdLanes c ++ others.flatMap fun (o : Fin 8) => jesdLanes (s.jesd tx o)
  let phys := lanes.map (s.jesdPhys tx)
  phys.eraseDups.length < phys.length

/-- Receive link `k` has sync-header and extended-multiblock lock on every lane (R283). -/
def State.jesdLocked (s : State) (k : Nat) : Bool :=
  let c := s.jesd false k
  jf c 63 1 = 1 && (jesdLanes c).all fun l => if h : l < 48 then s.jes.lane[l].lock && s.jes.lane[l].emb else false

/-- Data phase of the receive links follows their locks; leaving it sets unlock (R283). -/
def State.jesdPhase (s : State) : State :=
  (List.range 8).foldl (fun s k =>
    let was := s.jes.data.getLsbD k
    let now := s.jesdLocked k
    let bit := BitVec.ofNat 8 (2 ^ k)
    let s := if was && !now then s.raiseBit JES_CAUSE.unlock k else s
    { s with jes := { s.jes with data := if now then s.jes.data ||| bit else s.jes.data &&& ~~~bit } }) s

/-- JESD_LINK_ENABLE (R184, R281): a write of a link's configuration. A link whose F breaks R184, or two of whose lanes clash, does not enable:
en stays 0 and its cfg bit is set. -/
def execJesdLinkEnable (tx : Bool) (k : Fin 8) (cfg : BitVec 64) (s : State) : Res := access 91 2 s fun s =>
  faultIf (jf cfg 0 16 ≠ 0 || jf cfg 56 7 ≠ 0) .reservedBit <|
  faultIf (jf cfg 63 1 = 1 && s.pwr.oneSided.contains (if tx then .jesdTx k else .jesdRx k)) .oneSidedReset <|
    let bad := jf cfg 63 1 = 1 && (!jesdFits cfg || s.jesdClash tx k cfg)
    let s := if bad then s.raiseBit JES_CAUSE.cfg (k.val + (if tx then 8 else 0)) else s
    .next (s.setWords (jesdCfg tx k) 2 (if bad then cfg.toNat % 2 ^ 63 else cfg.toNat)).jesdPhase

/-- SYNC_HEADER_LOCK (R283): a sync header on a logical lane, valid or not, and whether its sync-header stream shows extended-multiblock lock:
lock after 64 valid ones in a row, lost after 16 invalid ones of 64. -/
def execSyncHeaderLock (lane : Fin 48) (valid emb : Bool) (s : State) : Res := inside 91 2 s fun s =>
  let x := s.jes.lane[lane.val]
  let y : JLane :=
    if x.lock then
      let bad := x.bad + (if valid then 0 else 1)
      if bad ≥ 16 then { good := 0, seen := 0, bad := 0, lock := false, emb := false }
      else if x.seen ≥ 63 then { x with seen := 0, bad := 0, emb := emb }
      else { x with seen := x.seen + 1, bad := bad, emb := emb }
    else
      let good := if valid then x.good + 1 else 0
      if good ≥ 64 then { good := 0, seen := 0, bad := 0, lock := true, emb := emb } else { x with good := good }
  .next (State.jesdPhase { s with jes := { s.jes with lane := s.jes.lane.set lane.val y } })


/-! ## SYSREF (R282) -/

/-- LEMC period of a configuration, in quarters of a nanosecond, for samples at 491.52 MHz / 2^div. -/
def lemcPeriod (c : BitVec 64) (div : Nat) : Rat :=
  (((jf c 16 8 + 1) * 256 * (jf c 30 2 + 1) * 2 ^ div * 3125 : Nat) : Rat) / (((jf c 24 5 + 1) * 384 : Nat) : Rat)

/-- NT in quarters of a nanosecond. -/
def State.ntQuarters (s : State) : Nat := s.tb.nt.total / 2 ^ 38

/-- For how long the zeros of a late multiblock are remembered: 1 ms, in quarters of a nanosecond. -/
def zerosFor : Nat := 4000000

/-- Receive link `k` releases zeros in place of the extended multiblock that is due now, of one LEMC period (R283). -/
def State.releaseZeros (s : State) (k : Fin 8) : State :=
  let q := s.ntQuarters
  let z := (q, q + (lemcPeriod (s.jesd false k) (s.get CLK_CFG.div)).ceil.toNat)
  { s with jes := { s.jes with zeros := s.jes.zeros.set k.val (z :: (s.jes.zeros[k.val]).filter fun w => decide (q < w.2 + zerosFor)) } }

/-- LEMC_RELEASE (R283, R185): receive link `k` in data phase releases an extended multiblock whose latest lane arrived `arr` ek after LEMC; later
than rbd is too late, and zeros are released instead; `crc` of its multiblocks failed their CRC-12, each of which is logged (R297). -/
def execLemcRelease (k : Fin 8) (arr : BitVec 16) (crc : BitVec 32) (s : State) : Res := inside 91 2 s fun s => crossing (.jesdRx k) s <|
  if !s.jes.data.getLsbD k.val then .next s
  else
    let s := s.put (JES_RXk_RBD.arr k) arr.toNat
    let s := if arr.toNat > s.get (JES_RXk_RBD.rbd k) then (s.raiseBit JES_CAUSE.rbd_late k).releaseZeros k else s
    .next (if crc = 0 then s else ((s.countUp (JES_RXk_CRC.count k) crc.toNat).crcsFailed k crc.toNat).raiseBit JES_CAUSE.crc k)

/-- `q` falls on an LEMC boundary of the configuration, to within 0.25 ns. -/
def onLemc (c : BitVec 64) (div lemc : Nat) (q : Nat) : Bool :=
  let t := lemcPeriod c div
  let d : Rat := (q : Rat) - (lemc : Rat)
  let r := d - (d / t).floor * t
  r ≤ 1 || t - r ≤ 1

/-- The edge at `q` is off the boundary of some enabled link. -/
def State.sysrefOff (s : State) (q : Nat) : Bool :=
  match s.jes.lemc with
  | none => false
  | some l => [false, true].any fun tx => (List.range 8).any fun k =>
      jf (s.jesd tx k) 63 1 = 1 && !onLemc (s.jesd tx k) (s.get CLK_CFG.div) l q

/-- An LEMC boundary of an enabled link of configuration `c` has passed since NT was `p` quarters of a nanosecond. -/
def State.lemcPassed (s : State) (c : BitVec 64) (p : Nat) : Bool :=
  let periods (q lemc : Nat) : Int := (((q : Rat) - (lemc : Rat)) / lemcPeriod c (s.get CLK_CFG.div)).floor
  match s.jes.lemc with
  | none => false
  | some lemc => jf c 63 1 = 1 && periods s.ntQuarters lemc ≠ periods p lemc

/-- One ck of the links, of the receive links 0 to 7 and then the transmit links: at an LEMC of a link the latency that its calibration item then
gives is taken (R347). -/
def State.lemcTick (s : State) : State :=
  if s.jes.lemc.isNone then s
  else
    let before := (s.tb.nt.total - s.get TMB_NT_INC.inc) / 2 ^ 38
    let lat := Vector.ofFn fun (i : Fin 16) =>
      if s.lemcPassed (s.jesd (decide (8 ≤ i.val)) (i.val % 8)) before then s.cal (399 + i.val) else s.jes.lat[i.val]
    { s with jes := { s.jes with lat := lat } }

/-- JES_SYSREF.off in quarters of a nanosecond: one ek is 1/1.1 ns. -/
def State.sysrefOffset (s : State) : Nat := s.get JES_SYSREF.off * 40 / 11

/-- SYSREF_EDGE (R282): an edge while the crossing is busy is lost; a carried one is timestamped and acts by JES_SYSREF.mode. -/
def execSysrefEdge (sec : BitVec 48) (qns : Fin 4000000000) (s : State) : Res := inside 91 2 s fun s =>
  let busy := match s.jes.edge with
    | some m => decide (s.since m < Config.within 18 m.toNat)
    | none => false
  if busy then .next (s.raise JES_CAUSE.sr_ovr)
  else
    let q := lessLatency sec qns.val (s.cal 415)
    let s := { s with jes := { s.jes with edge := some s.mono } }
    let s := ((s.put JES_SRTS.sec (qSec q)).put JES_SRTS.ns (qBelow q / 4)).put JES_SRTS.qns (qBelow q % 4)
    let b := q + s.sysrefOffset
    let align (s : State) : State := { s with jes := { s.jes with lemc := some b, aligned := true } }
    match s.get JES_SYSREF.mode with
    | 0 => .next s
    | 1 => .next (if s.jes.aligned then s else align s)
    | 2 => .next (align (s.raiseIf (s.sysrefOff b) JES_CAUSE.sr_mis))
    | _ => .next (s.raiseIf (s.sysrefOff b) JES_CAUSE.sr_mis)

end Sys2Proof.Machine
end

