-- ==== Sys2Proof/Machine/ApxLink.lean ====
section
/-! DEFINITION. The sending side of the Apsis links and this chip's requests (chapter 11, R285 to R289). -/

namespace Sys2Proof.Machine

/-- Replace the Apsis links. -/
def State.withApx (s : State) (f : Apsis → Apsis) : State := { s with apx := f s.apx }

/-- The link of port `p`. -/
def State.link (s : State) (p : Fin 32) : ApxLink := s.apx.link[p.val]

/-- Replace the link of port `p`; APX_Lp_STAT.unacked counts the flits held. -/
def State.withLink (s : State) (p : Fin 32) (f : ApxLink → ApxLink) : State :=
  let s := s.withApx fun a => { a with link := a.link.set p.val (f a.link[p.val]) }
  s.put (APX_Lp_STAT.unacked p) (s.link p).unacked.length

/-- The virtual channel of a flit type (R286). -/
def flitVc : Nat → Nat
  | 1 | 3 => 0
  | 2 | 4 => 1
  | _ => 2

/-- A flit of no content. -/
def Flit.blank : Flit := { seq := 0, ack := 0, crd := 0, crdvc := 0, dst := 0, src := 0, len := 0, tag := 0, addr := 0, payload := [] }

/-- The ack and the returned credits that the next flit of a link carries (R287): up to 63 of one channel. -/
def ApxLink.stamp (x : ApxLink) (f : Flit) : Flit × ApxLink :=
  let v := if x.owed[0] ≠ 0 then 0 else if x.owed[1] ≠ 0 then 1 else 2
  let n := min 63 (nthD x.owed.toList v 0)
  ({ f with ack := x.expect - 1, crd := Fin.ofNat 64 n, crdvc := Fin.ofNat 4 v },
   { x with owed := x.owed.set! v (nthD x.owed.toList v 0 - n) })

/-- Send a flit that consumes no seq: IDLE, RETRY or INIT. -/
def ApxLink.control (x : ApxLink) (ty : Fin 16) (f : Flit) : ApxLink :=
  let (f, x) := x.stamp f
  { x with out := x.out ++ [⟨ty, f, none⟩] }

/-- Send the waiting flits that have credit, while fewer than 512 are held (R287); `n` bounds their number. -/
def ApxLink.pump (now : BitVec 64) : Nat → ApxLink → ApxLink
  | 0, x => x
  | n + 1, x =>
    if x.unacked.length ≥ 512 then x
    else
      match x.wait.findIdx? (fun o => nthD x.cred.toList (flitVc o.ty) 0 ≠ 0) with
      | none => x
      | some i =>
        match x.wait[i]? with
        | none => x
        | some o =>
          let v := flitVc o.ty
          let x := { x with wait := x.wait.eraseIdx i, cred := x.cred.set! v (nthD x.cred.toList v 0 - 1) }
          let (f, x) := x.stamp { o.f with seq := x.seq }
          let o : OutFlit := { o with f := f }
          ApxLink.pump now n
            { x with seq := x.seq + 1, progress := if x.unacked.isEmpty then now else x.progress
                     unacked := x.unacked ++ [o], out := x.out ++ [o] }

/-- Put a flit on link `p`: it leaves at once when the link is up and has credit. -/
def State.linkSend (s : State) (p : Fin 32) (o : OutFlit) : State :=
  s.withLink p fun x =>
    let x := { x with wait := x.wait ++ [o] }
    if s.get (APX_Lp_STAT.state p) = 2 then ApxLink.pump s.mono x.wait.length x else x

/-- Send a flit toward its destination by APX_ROUTE (R288); with no valid route it is discarded and noroute is set. -/
def State.routeSend (s : State) (o : OutFlit) : State :=
  if s.flag (APX_ROUTE.valid o.f.dst) then s.linkSend (Fin.ofNat 32 (s.get (APX_ROUTE.port o.f.dst))) o
  else s.raise APX_CAUSE.noroute

/-- This chip's id. -/
def State.apxId (s : State) : Fin 8 := Fin.ofNat 8 (s.get APX_CFG.id)

/-- A tag of destination `d` that no outstanding request uses (R289). -/
def State.freeTag (s : State) (d : Fin 8) : Option (BitVec 8) :=
  ((List.range 256).map (BitVec.ofNat 8)).find? fun t => !s.apx.reqs.any fun r => r.dst = d && r.tag = t

/-- Issue a request to chip `d` (R286, R289): none when no tag is free. -/
def State.apxRequest (s : State) (d : Fin 8) (write : Bool) (addr : Nat) (len : Nat) (data : List (BitVec 8)) (q : Fin 256)
    (parts : List (Nat × Option Nat × Nat × Nat)) : Option State :=
  match s.freeTag d with
  | none => none
  | some t =>
    let f : Flit :=
      { Flit.blank with dst := d, src := s.apxId, len := BitVec.ofNat 8 (len - 1), tag := t, addr := BitVec.ofNat 40 addr, payload := data }
    let s := s.withApx fun a => { a with reqs := a.reqs ++ [⟨d, t, s.mono, q, write, parts⟩] }
    some (s.routeSend ⟨if write then 3 else 1, f, none⟩)

/-- The runs of `n` bytes from `a` that stay within one 256-byte block: distance from `a`, and bytes (R286). -/
def blockRuns (a n : Nat) : List (Nat × Nat) :=
  let first := min n (256 - a % 256)
  if n = 0 then [] else
    (0, first) :: ((List.range (ceilDiv (n - first) 256)).map fun i => (first + 256 * i, min 256 (n - first - 256 * i)))

end Sys2Proof.Machine
end

