-- ==== Sys2Proof/Machine/Operands.lean ====
section
/-! DEFINITION. The operands of the tile core: scalar registers, pointers with linear and circular post-modify, scratchpad
accesses, and the landing of pending register writes (R49, R60 to R62, R66, R69). -/

namespace Sys2Proof.Machine

/-- Scalar register `i`; s0 reads 0 (R49). -/
def Tile.sreg (x : Tile) (i : Fin 32) : BitVec 32 := if i = 0 then 0 else x.s[i.val]

/-- Issue a write of scalar register `i` that is seen `n` issue slots later; writes of s0 are ignored (R49, R60). -/
def Tile.later (x : Tile) (n : Nat) (i : Fin 32) (v : BitVec 32) : Tile :=
  if i = 0 then x else { x with pend := x.pend ++ [⟨x.slot + n, .s i, v.setWidth 80⟩] }

/-- Issue a write of a control register, seen by the next bundle (R60). -/
def Tile.ctl (x : Tile) (r : PendReg) (v : BitVec 32) : Tile :=
  { x with pend := x.pend ++ [⟨x.slot + 1, r, v.setWidth 80⟩] }

/-- One pending write lands. -/
def Tile.land (x : Tile) (w : Pend) : Tile :=
  let v : BitVec 32 := w.val.setWidth 32
  match w.reg with
  | .s i => { x with s := x.s.set i.val v }
  | .p i => { x with p := x.p.set i.val v }
  | .m i => { x with m := x.m.set i.val v }
  | .cb i => { x with cb := x.cb.set i.val v }
  | .cl i => { x with cl := x.cl.set i.val v }
  | .circ => { x with circ := v }
  | .accView i => { x with accView := x.accView.set i.val w.val }

/-- Every write due at issue slot `n` lands, in program order (R61). -/
def Tile.landAt (x : Tile) (n : Nat) : Tile :=
  let (now, rest) := x.pend.partition (fun w => w.due ≤ n)
  now.foldl Tile.land { x with pend := rest }

/-- The pointer after a post-modify by `d` in total (R69). -/
def Tile.postMod (x : Tile) (p : Fin 16) (d : Int) : BitVec 32 :=
  let v := x.p[p.val]
  if x.circ.getLsbD p.val then
    let j : Fin 8 := Fin.ofNat 8 p.val
    let pn : Nat := v.toNat % 2 ^ 21
    let cb : Nat := x.cb[j.val].toNat % 2 ^ 21
    let cl : Nat := x.cl[j.val].toNat % 2 ^ 21
    BitVec.ofInt 32 (((cb : Int) + ((pn : Int) + d - cb) % (cl : Int)) % ((2 ^ 21 : Nat) : Int))
  else v + BitVec.ofInt 32 d

/-- A post-modify of pointer `p` would go through a circular buffer of length 0 (R69); a bundle's MTC of the pointer discards it. -/
def Tile.circZero (x : Tile) (p : Fin 16) : Bool :=
  x.circ.getLsbD p.val && x.cl[p.val % 8].toNat % 2 ^ 21 = 0 && !x.mtc.contains p

/-- The bundle's post-modifications take effect, summed for each pointer, unless MTC wrote the pointer (R62). -/
def Tile.applyPmods (x : Tile) : Tile :=
  let y := (List.finRange 16).foldl (fun (y : Tile) (p : Fin 16) =>
    if x.pmods.any (fun q => q.1 = p) && !x.mtc.contains p then
      let d := x.pmods.foldl (fun (a : Int) q => if q.1 = p then a + q.2 else a) 0
      { y with p := y.p.set p.val (x.postMod p d) }
    else y) x
  { y with pmods := [], mtc := [] }

/-- One issue slot passes: the bundle's post-modifications take effect and the writes that are due land (R61). -/
def Tile.nextSlot (x : Tile) : Tile :=
  let y := x.applyPmods
  { y with slot := y.slot + 1 }.landAt (y.slot + 1)

/-- Every issued bundle completes: all pending writes land (R409). -/
def Tile.settle (x : Tile) : Tile :=
  let y := x.applyPmods
  let last := y.pend.foldl (fun m w => max m w.due) y.slot
  (iter Tile.nextSlot (last - y.slot) y).landAt last

/-- Note a post-modify of pointer `p` by `d` in this bundle (R62). -/
def Tile.addPmod (x : Tile) (p : Fin 16) (d : Int) : Tile := { x with pmods := x.pmods ++ [(p, d)] }

/-- The scratchpad byte address that pointer `p` forms, with the low bits of an access of 2^sz bytes cleared (R49, R66). -/
def Tile.addrOf (x : Tile) (p : Fin 16) (sz : Nat) : Nat :=
  let a := x.p[p.val].toNat % 2 ^ 21
  a - a % 2 ^ sz

/-- The system address of byte `a` of the scratchpad of tile `t`. -/
def spad (t : Fin 64) (a : Nat) : Nat := spadBase t + a

/-- A little-endian number of `n` bytes at `a` as a core port reads it. -/
def State.coreLe (s : State) (a n : Nat) : Nat := natOfBytes ((List.range n).map fun i => s.coreByte (a + i))

/-- Note the byte at `a`, and the error of its word, before the bundle in progress stores there. -/
def Tile.noteByte (x : Tile) (a : Nat) (b : BitVec 8) (e : Nat) : Tile :=
  { x with undo := x.undo.map fun u => { u with mem := (a, b, e) :: u.mem } }

/-- Store one byte through the core port of tile `t`: over a second-port write of the same ck the core's value stays (R65). -/
def State.corePutByte (s : State) (t : Fin 64) (a : Nat) (b : BitVec 8) : State :=
  let core := if (s.now.core.find a).isSome then s.now.core else s.now.core.insert a (s.coreByte a)
  let u := (s.withTile t fun x => x.noteByte a (s.byte a) (s.flaw a)).setByte a b
  { u with now := { u.now with core := core, old := u.now.old.erase a } }

/-- Store bytes from `a` upwards through the core port of tile `t`. -/
def State.corePut (s : State) (t : Fin 64) (a : Nat) : List (BitVec 8) → State
  | [] => s
  | b :: bs => State.corePut (s.corePutByte t a b) t (a + 1) bs

/-- Store a little-endian number of `n` bytes at `a` through the core port of tile `t`. -/
def State.coreSetLe (s : State) (t : Fin 64) (a n v : Nat) : State := s.corePut t a (bytesOf n v)

/-- Put one byte back, with the error that its word had. -/
def State.putBack (s : State) (e : Nat × BitVec 8 × Nat) : State :=
  let s := s.setByte e.1 e.2.1
  if e.2.2 = 0 then s else { s with flaws := s.flaws.insert (e.1 / 8) e.2.2 }

/-- Undo what the slots of the bundle in progress have done (R52, R77): the core returns to the bundle's D stage, with the event flags that
have come since, and the bytes it stored to hold their values again. -/
def State.unissue (s : State) (t : Fin 64) : State :=
  match (s.tile t).undo with
  | none => s
  | some u =>
    (u.mem.foldl State.putBack s).withTile t fun x =>
      { x with toTileCore := { u.core with evf := x.evf ||| u.core.evf }, undo := none }

/-- The tile faults (R77): the cause bit is set, TIL_STAT.pc names the bundle, the core completes what it has issued, and the tile counts as a
failed unit (R303). -/
def State.tileFault (s : State) (t : Fin 64) (c : Fld) : State :=
  let s := ((s.fail 0 t).raise c).put (TIL_STAT.pc t) (s.tile t).cur.toNat
  s.withTile t (fun x => { x with stopping := some 5, skip := true, delay := none, rpt := none })

/-- The bundle in progress faults and executes none of its slots (R52, R77). -/
def State.bundleFault (s : State) (t : Fin 64) (c : Fld) : State := (s.unissue t).tileFault t c

/-- A core-port read of 2^sz bytes at scratchpad address `a` (R66): a single-bit error is corrected, sets ecc1 and records the
address; a double-bit error gives no value and faults the tile with ecc2. Each error is
logged and counted (R297). -/
def State.coreRead (s : State) (t : Fin 64) (a sz : Nat) : Option (BitVec 32) × State :=
  let v := BitVec.ofNat 32 (s.coreLe (spad t a) (2 ^ sz))
  match s.flaw (spad t a) with
  | 0 => (some v, s)
  | 1 => (some v, ((s.raise (TIL_CAUSE.ecc1 t)).put (TIL_ECCA.addr t) a).checkFailed 0 t (spad t a) true)
  | _ => (none, (s.checkFailed 0 t (spad t a) false).bundleFault t (TIL_CAUSE.ecc2 t))

end Sys2Proof.Machine
end

