-- ==== Sys2Proof/Machine/Bundle.lean ====
section
/-! DEFINITION. The issue of bundles: where the next bundle comes from (delay slots, loops, repeats), and the frame of every
S-slot command, which begins a bundle, and of every D- and V-slot command, which belongs to the bundle in progress (R58 to R73). -/

namespace Sys2Proof.Machine

/-- The core is issuing bundles: TIL_CTL.run = 1 and it is not completing a stop. -/
def State.tileRuns (s : State) (t : Fin 64) : Bool :=
  s.flag (TIL_CTL.run t) && (s.tile t).stopping.isNone && s.fck && s.tileOn t && !s.held 1

/-- The bundle after bundle `c` in sequence, with the loop levels that end there (R71): an inner loop completes before the
enclosing loop-back. -/
def seqAfter : List TLoop → BitVec 17 → BitVec 17 × List TLoop × Bool
  | [], c => (c + 1, [], false)
  | l :: ls, c =>
    if l.stop = c then
      if l.cnt.toNat > 1 then (l.start, { l with cnt := l.cnt - 1 } :: ls, ls.isEmpty)
      else seqAfter ls c
    else (c + 1, l :: ls, false)

/-- The loop levels that a taken branch to `c` leaves active: the levels whose body does not hold the target are popped (R71). -/
def popOutside : List TLoop → BitVec 17 → List TLoop
  | [], _ => []
  | l :: ls, c => if l.start.toNat ≤ c.toNat && c.toNat ≤ l.stop.toNat then l :: ls else popOutside ls c

/-- Go on in sequence after bundle `c`. -/
def Tile.goSeq (x : Tile) (c : BitVec 17) : Tile :=
  let (pc, ls, lb) := seqAfter x.loops c
  { x with pc := pc, loops := ls, loopBack := lb }

/-- Choose the next bundle after the one in progress: the next delay slot or the branch target (R70), the repeated bundle
again (R72), or the next in sequence. -/
def Tile.advance (x : Tile) : Tile :=
  match x.delay with
  | some (k, tgt) =>
    if k ≤ 1 then { x with pc := tgt, delay := none, loops := popOutside x.loops tgt }
    else { x with pc := x.cur + 1, delay := some (k - 1, tgt) }
  | none =>
    match x.rpt with
    | some k => if k > 1 then { x with pc := x.cur, rpt := some (k - 1) } else { x with rpt := none }.goSeq x.cur
    | none => x.goSeq x.cur

/-- A bundle enters D: an issue slot passes, the writes that are due land, and the bundle becomes the one in progress; what a
fault of it restores is noted. -/
def Tile.begin (x : Tile) : Tile :=
  let y : Tile := { x.nextSlot with cur := x.pc, eiHold := false, loopBack := false, sOld := none, skip := false }
  { y with undo := some { core := y.toTileCore, mem := [] } }

/-- What a bundle's S slot does to the order of bundles, for the undefined cases of R70 and R72. -/
inductive FlowKind where
  /-- No change. -/
  | plain
  /-- WAITE, WAITV and YIELD: not allowed under RPT. -/
  | waits
  /-- Control flow: not allowed in a delay slot nor under RPT. -/
  | flow
  deriving DecidableEq, Repr

/-- The frame of an S-slot command on tile `t`: nothing happens unless the core issues bundles; the bundle begins; the undefined
cases of R70 and R72 fault; `f` is the slot's effect. -/
def bundle (t : Fin 64) (k : FlowKind) (s : State) (f : State → Res) : Res :=
  if !s.tileRuns t then .next s
  else
    let s := s.withTile t Tile.begin
    let x := s.tile t
    let s := (s.put (TIL_STAT.pc t) x.cur.toNat).put (TIL_STAT.state t) 1
    if x.delay.isSome && (k = .flow || x.loops.any (fun l => l.stop = x.cur)) then .fault .flowInDelaySlot
    else if x.rpt.isSome && k ≠ .plain then .fault .flowUnderRepeat
    else f s

/-- An S-slot command that writes tile state by `f` and goes on to the next bundle. -/
def sPlain (t : Fin 64) (s : State) (f : Tile → Tile) : Res :=
  bundle t .plain s fun s => .next (s.withTile t (fun x => (f x).advance))

/-- An S-slot operation whose result `v` is seen by the next bundle (R53, R60). -/
def sAlu (t : Fin 64) (sd : Fin 32) (s : State) (v : Tile → BitVec 32) : Res :=
  sPlain t s fun x => x.later 1 sd (v x)

/-- The frame of a D- or V-slot command on tile `t`: it belongs to the bundle in progress, and executes only when that
bundle's slots execute. -/
def slotOf (t : Fin 64) (s : State) (f : State → Res) : Res :=
  if s.flag (TIL_CTL.run t) && s.fck && s.tileOn t && !s.held 1 && !(s.tile t).skip then f s else .next s

end Sys2Proof.Machine
end

