-- ==== Sys2Proof/Machine/VecOps.lean ====
section
/-! DEFINITION. Elements, register groups, masks, types and element arithmetic of the vector unit (R78 to R83, R86), the codes of the
narrow formats (R89) and the saturation counters (R90). -/

namespace Sys2Proof.Machine

/-! ## Types (R81) -/

/-- Width in bits of an element type. -/
def tyWidth (ty : Nat) : Nat := if ty < 2 then 8 else if ty = 2 ∨ ty = 3 ∨ ty = 5 then 16 else 32

/-- s8, u8, s16, u16 and s32. -/
def tyInt (ty : Nat) : Bool := ty ≤ 4
/-- f16 and f32. -/
def tyFloat (ty : Nat) : Bool := ty = 5 || ty = 6
/-- ci16. -/
def tyCplx (ty : Nat) : Bool := ty = 7
/-- s8, s16 and s32. -/
def tySigned (ty : Nat) : Bool := ty = 0 || ty = 2 || ty = 4
/-- The binary format of a float type. -/
def tyFmt (ty : Nat) : FFmt := if ty = 5 then f16 else f32
/-- Least value of an integer type. -/
def tyMin (ty : Nat) : Int := if tySigned ty then -((2 ^ (tyWidth ty - 1) : Nat) : Int) else 0
/-- Greatest value of an integer type. -/
def tyMax (ty : Nat) : Int := if tySigned ty then (2 ^ (tyWidth ty - 1) : Nat) - 1 else (2 ^ tyWidth ty : Nat) - 1
/-- The integer that a bit pattern of an integer type holds. -/
def tyVal (ty x : Nat) : Int := if tySigned ty then sCast (tyWidth ty) x else ((x % 2 ^ tyWidth ty : Nat) : Int)

/-- The components of a ci16 pattern: real in the low half. -/
def cplx (x : Nat) : Int × Int := (sCast 16 x, sCast 16 (x / 65536))
/-- A ci16 pattern from components, each the low 16 bits. -/
def mkCplx (re im : Int) : Nat := uCast 16 re + 65536 * uCast 16 im

/-! ## Register groups (R78, R79) -/

/-- Registers that `n` elements of `w` bits occupy. -/
def groupLen (n w : Nat) : Nat := ceilDiv (n * w) 2048

/-- Register `r` lies in the group of `g` registers from `v` (modulo 32). -/
def inGroup (v g r : Nat) : Bool := (r + 32 - v % 32) % 32 < g

/-- Two groups share a register. -/
def groupsMeet (v g u h : Nat) : Bool := (List.range 32).any (fun r => inGroup v g r && inGroup u h r)

/-- Element `i` of `w` bits of the group at `v` (R78). -/
def Tile.elem (x : Tile) (v w i : Nat) : Nat := bitsOf (nthD x.v.toList ((v + i * w / 2048) % 32) 0).toNat (i * w % 2048) w

/-- The first `n` elements of `w` bits of the group at `v`. -/
def Tile.elems (x : Tile) (v w n : Nat) : List Nat := (List.range n).map (x.elem v w)

/-- Write element `i` of `w` bits of the group at `v`; the other bits keep their values (R80). -/
def Tile.setElem (x : Tile) (v w i e : Nat) : Tile :=
  let r : Fin 32 := Fin.ofNat 32 (v + i * w / 2048)
  { x with v := x.v.set r.val (BitVec.ofNat 2048 (setBitsOf x.v[r.val].toNat (i * w % 2048) w e)) }

/-- Write the elements of a group that hold a value, in ascending order. -/
def Tile.setElems (x : Tile) (v w : Nat) (es : List (Option Nat)) : Tile :=
  (es.zip (List.range es.length)).foldl (fun x p =>
    match p.1 with
    | some e => x.setElem v w p.2 e
    | none => x) x

/-- Element `i` is enabled under the mask field `k` (R83). -/
def Tile.enabled (x : Tile) (k : Fin 8) (i : Nat) : Bool := k = 0 || x.k[k.val].getLsbD (i % 64)

/-- What a VV result list leaves in the destination under the mask (R83): disabled elements keep their value, or are written 0 with km. -/
def Tile.masked (x : Tile) (k : Fin 8) (km : Bool) (es : List Nat) : List (Option Nat) :=
  (es.zip (List.range es.length)).map (fun p => if x.enabled k p.2 then some p.1 else if km then some 0 else none)

/-- The undefined cases of R79 for a destination group and source groups (start, width, elements): too long a group; a destination
that shares a register with a source and is not the same group of an element-wise operation. -/
def groupFault (elementwise : Bool) (dst : Option (Nat × Nat × Nat)) (srcs : List (Nat × Nat × Nat)) : Option Fault :=
  let tooLong := fun (g : Nat × Nat × Nat) => groupLen g.2.2 g.2.1 > 32
  if srcs.any tooLong || dst.any tooLong then some .groupTooLong
  else match dst with
    | none => none
    | some (v, w, n) =>
      if srcs.any (fun g => groupsMeet v (groupLen n w) g.1 (groupLen g.2.2 g.2.1) && !(elementwise && g.1 = v && g.2.1 = w)) then
        some .groupOverlap
      else none

/-- Stop on the undefined case of R79, else go on. -/
def groupGuard (f : Option Fault) (r : Res) : Res :=
  match f with
  | some e => .fault e
  | none => r

/-- What a V-slot operation is: whether its encoding is not reserved (R52), its undefined case of R79, the ck of its occupancy and latency
(R91, R92, R97, R115), and its effect when it is complete. -/
structure VDef where
  ok : Bool
  guard : Option Fault
  busy : State → Nat
  run : VEntry → State → Res

/-- Beats of `n` elements (R80). -/
def beats (n : Nat) : Nat := ceilDiv n 64

/-- A little-endian number of `n` bytes at scratchpad address `a` of tile `t`, as the second port reads it (R119). -/
def State.vLe (s : State) (t : Fin 64) (a n : Nat) : Nat := natOfBytes ((List.range n).map fun i => s.phaseByte (spad t a + i))

/-- Store a little-endian number of `n` bytes there through phase V (R118). -/
def State.vSetLe (s : State) (t : Fin 64) (a n v : Nat) : State := s.putBytes 1 (spad t a) (bytesOf n v)

/-- Log the ECC errors that a second-port read of tile `t`'s scratchpad meets (R316): the data are delivered unmarked. -/
def State.portErrors (s : State) (t : Fin 64) (addrs : List Nat) : State :=
  if s.flaws.isEmpty && s.rep.lost.isEmpty then s
  else addrs.foldl (fun s a =>
    match s.flaw (spad t a) with
    | 0 => s
    | e => s.checkFailed 0 t (spad t a) (decide (e = 1))) s

/-- Log the ECC errors of the 64-bit words of `n` bytes from `a`. -/
def State.portErrorsIn (s : State) (t : Fin 64) (a n : Nat) : State :=
  s.portErrors t ((List.range ((a % 8 + n + 7) / 8)).map fun i => (a + 8 * i) % 2 ^ 21)

/-! ## Element arithmetic (R82, R86) -/

/-- The operand patterns that VMIN and VMAX choose between (R86): in float a NaN operand yields the other one, and the operand's bits are kept. -/
def pickBits (ty : Nat) (mx : Bool) (a b : Nat) : Nat :=
  if tyInt ty then (if decide (tyVal ty a ≤ tyVal ty b) != mx then a else b)
  else
    let p := (tyFmt ty).dec a
    let q := (tyFmt ty).dec b
    if p.isNan then b else if q.isNan then a
    else if mx then (if FV.ltTotal p q then b else a) else if FV.ltTotal q p then b else a

/-- An element-wise operation by type: integers are computed exactly and narrowed by `fix`, floats rounded once, ci16 by component. -/
def elemOp (ty : Nat) (int : Int → Int → Int) (flt : FV → FV → FV) (fix : Nat → Int → Nat) (a b : Nat) : Nat :=
  if tyInt ty then fix ty (int (tyVal ty a) (tyVal ty b))
  else if tyFloat ty then (tyFmt ty).enc (flt ((tyFmt ty).dec a) ((tyFmt ty).dec b))
  else
    let (ar, ai) := cplx a
    let (br, bi) := cplx b
    fix 2 (int ar br) + 65536 * fix 2 (int ai bi)

/-- Wrap to the type's width. -/
def wrapTy (ty : Nat) (v : Int) : Nat := uCast (tyWidth ty) v
/-- Saturate to the type's range. -/
def satTy (ty : Nat) (v : Int) : Nat := uCast (tyWidth ty) (sat v (tyMin ty) (tyMax ty))

/-- The sign bit of a float pattern cleared or flipped: VABS and VNEG of floats. -/
def absBits (w x : Nat) : Nat := x % 2 ^ (w - 1)
/-- The sign bit flipped. -/
def negBits (w x : Nat) : Nat := if x < 2 ^ (w - 1) then x + 2 ^ (w - 1) else x - 2 ^ (w - 1)

/-- A comparison by type; `c` takes "less" and "equal". -/
def compare2 (ty : Nat) (c : Bool → Bool → Bool) (a b : Nat) : Bool :=
  if tyInt ty then c (decide (tyVal ty a < tyVal ty b)) (decide (tyVal ty a = tyVal ty b))
  else if tyFloat ty then
    let p := (tyFmt ty).dec a
    let q := (tyFmt ty).dec b
    c (FV.ltNum p q) (FV.eqNum p q)
  else c false (decide (a = b))

/-- A float value as an integer of type `ty` (R82): rne, NaN gives 0, out of range saturates. -/
def floatToInt (ty : Nat) (v : FV) : Int :=
  match v with
  | .nan _ => 0
  | .inf n => if n then tyMin ty else tyMax ty
  | .zero _ => 0
  | .fin q => sat (rne q) (tyMin ty) (tyMax ty)

/-- VCVT between int and float types (R82, R86). -/
def convert (src dst x : Nat) : Nat :=
  if src = dst then x
  else if tyInt src then
    if tyInt dst then satTy dst (tyVal src x) else (tyFmt dst).enc (FV.ofInt (tyVal src x))
  else
    let v := (tyFmt src).dec x
    if tyInt dst then satTy dst (floatToInt dst v)
    else match v with
      | .nan p => (tyFmt dst).enc (.nan (Config.nanPayload p 0))
      | v => (tyFmt dst).enc v

/-! ## Narrow formats (R89) -/

/-- The eight GN4 magnitudes over 1,024. -/
def gn4Mag (m : Nat) : Rat := (nthD [0, 88, 179, 275, 380, 502, 658, 1024] m 0 : Rat) / 1024

/-- The CT8 magnitude of a 7-bit code. -/
def ct8Mag (m : Nat) : Rat :=
  let e := m / 16
  let f := m % 16
  if e = 0 then (f : Rat) / 16 * pow2 (-6) else (1 + (f : Rat) / 16) * pow2 ((e : Int) - 7)

/-- `nearest` of R89: the largest code whose lower midpoint the value reaches, a tie going to the even code. -/
def nearestCode (r : Rat) (top : Nat) (val : Nat → Rat) : Nat :=
  (List.range top).foldl (fun m i =>
    let j := i + 1
    let mid := (val i + val j) / 2
    if r > mid || (r = mid && j % 2 = 0) then j else m) 0

/-- A code and whether the element saturated. -/
abbrev Coded := Nat × Bool

/-- Sign-magnitude encoding shared by GN4 and CT8: `top` is the largest code, `lim` its magnitude, `sgn` the sign bit. -/
def magEnc (top : Nat) (lim : Rat) (val : Nat → Rat) (sgn : Nat) (x scale : FV) : Coded :=
  match scale, x with
  | .zero _, _ => (0, false)
  | .nan _, _ => (0, false)
  | _, .nan _ => (0, false)
  | _, _ =>
    match FV.div x scale with
    | .inf n => ((if n then sgn else 0) + top, true)
    | .fin q =>
      let a := if q < 0 then -q else q
      let (m, st) := if a > lim then (top, true) else (nearestCode a top val, false)
      (if m = 0 then 0 else (if q < 0 then sgn else 0) + m, st)
    | _ => (0, false)

/-- `gn4_enc`. -/
def gn4Enc (x scale : FV) : Coded := magEnc 7 1 gn4Mag 8 x scale
/-- `ct8_enc`. -/
def ct8Enc (x scale : FV) : Coded := magEnc 127 (31 / 16) ct8Mag 128 x scale

/-- `i8_enc`. An infinite element under an infinite scale, whose quotient R89 leaves open, gives a free code and DESIGN CHOICE (log entry 7) counts
no saturation. -/
def i8Enc (x scale : FV) (zp : Int) (sgn : Bool) : Coded :=
  let lo : Int := if sgn then -128 else 0
  let hi : Int := if sgn then 127 else 255
  match scale with
  | .zero _ => (0, false)
  | .nan _ => (0, false)
  | _ =>
    let x := if x.isNan then FV.zero false else x
    match x, scale with
    | .inf _, .inf _ => (Config.i8InfInf.toNat, false)
    | _, _ =>
      match FV.div x scale with
      | .inf n => (uCast 8 (if n then lo else hi), true)
      | v =>
        let q := rne (v.toRat + (zp : Rat))
        (uCast 8 (sat q lo hi), decide (q < lo ∨ q > hi))

/-- A scale times an exact real (R89), before the cast: an exact 0 is +0, 0 × ∞ is invalid. -/
def scaleBy (s : FV) (r : Rat) : FV :=
  match s with
  | .nan p => .nan (Config.nanPayload p 0)
  | .inf n => if r = 0 then FV.invalid else .inf (n != decide (r < 0))
  | .zero _ => .zero false
  | .fin q => FV.ofRat (q * r)

/-- The real that a GN4 code stands for, before the scale; 0b1000 is 0. -/
def gn4Real (k : Nat) : Rat := (if k / 8 % 2 = 1 then -1 else 1) * gn4Mag (k % 8)
/-- The real that a CT8 code stands for, before the scale; 0x80 is 0. -/
def ct8Real (k : Nat) : Rat := (if k / 128 % 2 = 1 then -1 else 1) * ct8Mag (k % 128)
/-- The integer that an I8 code stands for, less the zero point. -/
def i8Real (k : Nat) (zp : Int) (sgn : Bool) : Rat := (((if sgn then sCast 8 k else (k % 256 : Nat)) - zp : Int) : Rat)

/-- Count saturated elements into TIL_VSATc, which stops at 2^32 − 1 (R90); the increments of this ck are noted for a write of the same ck. -/
def State.countSat (s : State) (t : Fin 64) (c n : Nat) : State :=
  let a := TIL_VSATc.reg t c
  let s := s.put (TIL_VSATc.count t c) (min (2 ^ 32 - 1) (s.get (TIL_VSATc.count t c) + n))
  { s with now := { s.now with sat := s.now.sat.write (fun _ => 0) a (s.now.sat.read (fun _ => 0) a + n) } }

end Sys2Proof.Machine
end

