-- ==== Sys2Proof/Machine/Dma.lean ====
section
/-! DEFINITION. The DMA queues (chapter 06, R131 to R142).  A queue fetches lines ahead into its own queue of lines and writes them in
order; COPY, FILL and MULTICAST_COPY carry how many lines are fetched and how many written by the opportunities that they stand
for.  Lines of a remote chip travel as RD and WR requests (R285 to R289). -/

namespace Sys2Proof.Machine

/-- Queue `q` of cluster `c`. -/
def State.dq (s : State) (c : Fin 8) (q : Fin 32) : DQueue := s.mv.q[32 * c.val + q.val]

/-- Replace queue `q` of cluster `c`. -/
def State.withDq (s : State) (c : Fin 8) (q : Fin 32) (f : DQueue → DQueue) : State :=
  s.withMv fun v => { v with q := v.q.set (32 * c.val + q.val) (f v.q[32 * c.val + q.val]) }

/-! ## Descriptors (R134) -/

/-- Bits `[lo + w - 1 : lo]` of byte `b` of a descriptor. -/
def dfield (d : BitVec 512) (b lo w : Nat) : Nat := bitsOf d.toNat (8 * b + lo) w

def dSrc (d : BitVec 512) : Nat := dfield d 0 0 40
def dDst (d : BitVec 512) : Nat := dfield d 8 0 40
def dCsrc (d : BitVec 512) : Nat := dfield d 16 0 40
def dCdst (d : BitVec 512) : Nat := dfield d 24 0 40
/-- Source bytes per row. -/
def dRow (d : BitVec 512) : Nat := dfield d 32 0 16 + 1
/-- Rows. -/
def dRows (d : BitVec 512) : Nat := dfield d 34 0 16 + 1
def dSstride (d : BitVec 512) : Int := sCast 32 (dfield d 36 0 32)
def dDstride (d : BitVec 512) : Int := sCast 32 (dfield d 40 0 32)
def dOp (d : BitVec 512) : Nat := dfield d 44 0 4
def dConv (d : BitVec 512) : Nat := dfield d 44 4 4
def dComp (d : BitVec 512) : Bool := dfield d 44 8 1 = 1
def dEv (d : BitVec 512) : Bool := dfield d 44 9 1 = 1
def dFlag (d : BitVec 512) : Nat := dfield d 44 10 5
def dChip (d : BitVec 512) : Nat := dfield d 44 15 3
/-- Receivers of op 2. -/
def dReceivers (d : BitVec 512) : Nat := dfield d 44 18 3 + 1
def dReceiver (d : BitVec 512) (j : Nat) : Fin 64 := Fin.ofNat 64 (dfield d 48 (6 * j) 6)
/-- The tile whose flag is set: bits [53:48] of bytes 48-55. -/
def dEvtile (d : BitVec 512) : Fin 64 := Fin.ofNat 64 (dfield d 48 48 6)
def dCredit (d : BitVec 512) : Nat := dfield d 56 0 21
/-- m of R140. -/
def dRing (d : BitVec 512) : Nat := dfield d 40 0 12 + 1

/-- A descriptor that R135 skips: a reserved op or conversion, or a non-zero RSV field. -/
def dReserved (d : BitVec 512) : Bool :=
  dOp d > 2 || dConv d > 3 || dfield d 0 40 24 ≠ 0 || dfield d 8 40 24 ≠ 0 || dfield d 16 40 24 ≠ 0 || dfield d 24 40 24 ≠ 0
    || dfield d 44 21 11 ≠ 0 || dfield d 48 54 10 ≠ 0 || dfield d 56 21 43 ≠ 0

/-- Source and destination bytes of an element (R136). -/
def convBytes (d : BitVec 512) : Nat × Nat :=
  match dConv d with
  | 1 => (4, 2)
  | 2 => (2, 4)
  | 3 => (2, 2)
  | _ => (1, 1)

/-- Bytes of a row as written: an incomplete last element is dropped (R136). -/
def dRowOut (d : BitVec 512) : Nat := dRow d / (convBytes d).1 * (convBytes d).2

/-- Lines of a row as written. -/
def dPieces (d : BitVec 512) : Nat := max 1 (ceilDiv (dRowOut d) 64)

/-- The conversion of one element (R136, R82). -/
def convElem (conv n : Nat) : Nat :=
  match conv with
  | 1 => convert 6 5 n
  | 2 => convert 5 6 n
  | 3 => f16.enc (FV.ofInt (sCast 16 n))
  | _ => n

/-- The conversion of a run of bytes, `n` elements from the front. -/
def convRun (d : BitVec 512) : Nat → List (BitVec 8) → List (BitVec 8)
  | 0, _ => []
  | n + 1, bs =>
    let (a, b) := convBytes d
    bytesOf b (convElem (dConv d) (natOfBytes (bs.take a))) ++ convRun d n (bs.drop a)

/-- A 40-bit address at a signed distance. -/
def addr40 (a : Nat) (d : Int) : Nat := uCast 40 ((a : Int) + d)

/-- The descriptor names a remote chip as its source (R134, R285); for op 1 a remote chip is the destination, for op 2 the source. -/
def dRemoteSrc (d : BitVec 512) : Bool :=
  dChip d ≠ 0 && (dOp d = 2 || (dOp d = 0 && Config.chipIsSource d))

/-- The descriptor names a remote chip as its destination. -/
def dRemoteDst (d : BitVec 512) : Bool := dChip d ≠ 0 && !dRemoteSrc d

/-! ## Running the ring (R133) -/

/-- Cluster memory address of byte `o` of the queue's ring. -/
def State.dmaRing (s : State) (c : Fin 8) (q : Fin 32) (o : Nat) : Nat :=
  clusterBase c + (64 * s.get (DMA_Qn_RING.offset c q) + o) % 0x1000000

/-- L of DMA_Qn_RING: values other than 4 to 12 count as 4. -/
def State.dmaLog (s : State) (c : Fin 8) (q : Fin 32) : Nat :=
  let l := s.get (DMA_Qn_RING.log2size c q)
  if 4 ≤ l && l ≤ 12 then l else 4

/-- Set the queue's bit in DMA_Cc_CAUSE.bad. -/
def State.dmaBad (s : State) (c : Fin 8) (q : Fin 32) : State := s.raiseBit (DMA_Cc_CAUSE.bad c) q

/-- Advance cons past the present descriptor and write it to the ring's header. -/
def State.dmaAdvance (s : State) (c : Fin 8) (q : Fin 32) : State :=
  let cons := (s.dq c q).cons + 1
  (s.withDq c q fun x => { x with cons := cons, desc := none }).setLe (s.dmaRing c q 4) 4 cons.toNat

/-- The queue stops. -/
def State.dmaStop (s : State) (c : Fin 8) (q : Fin 32) : State := s.put (DMA_Qn_STAT.busy c q) 0

/-- Take the next descriptor (R133, R135): at prod, prod is read once more; a ring that is too full sets bad and stops; a reserved
descriptor sets bad and is skipped.  `n` bounds the skips by the ring's size. -/
def State.dmaNext (s : State) (c : Fin 8) (q : Fin 32) : Nat → State
  | 0 => s.dmaStop c q
  | n + 1 =>
    let cons := (s.dq c q).cons
    let s := if (s.dq c q).prod = cons then
        s.withDq c q fun x => { x with prod := BitVec.ofNat 32 (s.le (s.dmaRing c q 0) 4) } else s
    let prod := (s.dq c q).prod
    let size := 2 ^ s.dmaLog c q
    if prod = cons then s.dmaStop c q
    else if (prod - cons).toNat > size then (s.dmaBad c q).dmaStop c q
    else
      let a := s.dmaRing c q (64 + 64 * (cons.toNat % size))
      let d := BitVec.ofNat 512 (s.le a 64)
      if dReserved d then State.dmaNext ((s.dmaBad c q).dmaAdvance c q) c q n
      else s.withDq c q fun x =>
        { x with desc := some d, row := 0, piece := 0, comp := false, ahead := [], fifo := [], sent := 0, drop := 0, lag := Vector.replicate 8 0
                 credit := Vector.replicate 8 none }

/-- A stop is ordered of a context whose DMA queues include queue `q` of cluster `c` (R250). -/
def State.stopHolds (s : State) (c : Fin 8) (q : Fin 32) : Bool :=
  (List.finRange 256).any fun n => s.cx.ctx[n.val].job.isSome && s.get (CTX_STATn.state n) = 6 && (s.get (CTX_CTXn.qmask n)).testBit q.val
    && bitsOf (s.get (CTX_CTXn.tiles n)) (8 * c.val) 8 ≠ 0

/-- The queue starts (R133), to pause after its present descriptor when a stop holds it (R250): no effect while it is disabled or busy. -/
def State.dmaStart (s : State) (c : Fin 8) (q : Fin 32) : State :=
  if !s.flag (DMA_Qn_RING.en c q) || s.flag (DMA_Qn_STAT.busy c q) then s
  else
    let s := (s.put (DMA_Qn_STAT.busy c q) 1).put (DMA_Qn_STAT.cancelled c q) 0
    let s := s.withDq c q fun x =>
      { x with prod := BitVec.ofNat 32 (s.le (s.dmaRing c q 0) 4), cons := BitVec.ofNat 32 (s.le (s.dmaRing c q 4) 4)
               seen := true, hold := s.stopHolds c q, paused := false }
    s.dmaNext c q (2 * 2 ^ s.dmaLog c q + 2)

/-- Lines in write requests to a remote chip that are not answered: fetched and not yet written (R137). -/
def State.dmaRemoteOut (s : State) (c : Fin 8) (q : Fin 32) : Nat :=
  ((s.apx.reqs.filter fun r => r.write && r.queue.val = 32 * c.val + q.val).flatMap fun r => r.parts.map fun p => (p.1, p.2.1)).eraseDups.length

/-- The outstanding lines of a queue (R137). -/
def State.dmaOut (s : State) (c : Fin 8) (q : Fin 32) : Nat := (s.dq c q).fifo.length + s.dmaRemoteOut c q

/-- Keep DMA_Qn_STAT.nout at the number of outstanding lines (R137). -/
def State.dmaCount (s : State) (c : Fin 8) (q : Fin 32) : State := s.put (DMA_Qn_STAT.nout c q) (s.dmaOut c q)

/-- Cancel the queue (R139): fetched lines are dropped, cons becomes the prod it read last, if it has read one, and a busy queue drains. -/
def State.dmaCancel (s : State) (c : Fin 8) (q : Fin 32) : State :=
  let busy := s.flag (DMA_Qn_STAT.busy c q)
  let x := s.dq c q
  let s := s.withDq c q fun x =>
    { x with desc := none, fifo := [], ahead := [], cons := if x.seen then x.prod else x.cons, draining := busy, hold := false, paused := false }
  let s := if x.seen then s.setLe (s.dmaRing c q 4) 4 x.prod.toNat else s
  (s.put (DMA_Qn_STAT.cancelled c q) 1).dmaCount c q

/-- A DMA register access guard: the fabric domain 82 and group G1. -/
def dmaAccess (s : State) (f : State → Res) : Res := access 82 1 s f

/-- The queue lies in a cluster memory that is off: its ring cannot be reached (R320). -/
def ringOn (c : Fin 8) (s : State) (r : Res) : Res := faultIf (!s.domOn (72 + c.val)) .poweredOff r

/-- DMA_GO (R133). -/
def execDmaGo (c : Fin 8) (q : Fin 32) (s : State) : Res := dmaAccess s fun s =>
  if s.flag (DMA_Qn_RING.en c q) then ringOn c s (.next (s.dmaStart c q)) else .next s

/-- DMA_CANCEL (R139). -/
def execDmaCancel (c : Fin 8) (q : Fin 32) (s : State) : Res := dmaAccess s fun s =>
  ringOn c s (.next (s.dmaCancel c q))

/-- The last fetch that the queue issued has returned, those from a remote chip included (R139). -/
def State.dmaReturned (s : State) (c : Fin 8) (q : Fin 32) : Bool :=
  decide ((s.dq c q).returned.toNat ≤ s.mono.toNat) && !s.apx.reqs.any fun r => !r.write && r.queue.val = 32 * c.val + q.val

/-- CANCEL_DRAIN_END (R139): busy clears when the last issued fetch has returned. -/
def execCancelDrainEnd (c : Fin 8) (q : Fin 32) (s : State) : Res := inside 82 1 s fun s =>
  if (s.dq c q).draining && s.dmaReturned c q then
    .next (((s.withDq c q fun x => { x with draining := false }).put (DMA_Qn_STAT.busy c q) 0).dmaCount c q)
  else .next s

/-! ## Lines -/

/-- A source region that R135 allows queue `c`. -/
def sourceAllowed (c : Fin 8) : Region → Bool
  | .lpddr | .hole | .ue => true
  | .cluster b => b = c.val
  | .spad n => n / 8 = c.val
  | _ => false

/-- A destination region that R135 allows. -/
def destAllowed : Region → Bool
  | .other => false
  | _ => true

/-- Fetch `n` bytes at `a`: bytes outside the allowed regions read 0 and set bad. -/
def State.dmaRead (s : State) (c : Fin 8) (q : Fin 32) (a n : Nat) : List (BitVec 8) × State :=
  let ok (i : Nat) : Bool := sourceAllowed c (regionOf (a + i))
  if n = 0 then ([], s)
  else
    let s' := (s.checkRead a n).noteHoles a n
    let s' := if (List.range n).all ok then s' else s'.dmaBad c q
    ((List.range n).map (fun i => if ok i && (regionOf (a + i)).backed then s.slotByte (a + i) else 0), s')

/-- The port by which queue cluster `c` writes at `a` (R119, R123): the memory plane, the tile plane from a scratchpad, or a ring. -/
def dmaPort (c : Fin 8) (src a : Nat) : Nat :=
  match regionOf a with
  | .spad n => if n / 8 = c then (match regionOf src with | .spad _ => 4 | _ => 3) else if (n / 8 + 8 - c.val) % 8 ≤ 4 then 5 else 6
  | _ => 3

/-- Write bytes at `a` by port `p`: those outside the allowed regions are dropped and set bad. -/
def State.dmaWrite (s : State) (c : Fin 8) (q : Fin 32) (p a : Nat) (bs : List (BitVec 8)) : State :=
  let s := s.sysWriteBy p a bs
  if (List.range bs.length).all (fun i => destAllowed (regionOf (a + i))) then s else s.dmaBad c q

/-- The companion line of row `r` starts there: its entry is the first of its 64-byte line (R142). -/
def compStarts (d : BitVec 512) (r : Nat) : Bool :=
  dComp d && (r = 0 || (dCsrc d + 2 * r) / 64 ≠ (dCsrc d + 2 * (r - 1)) / 64)

/-- Entries of the companion line that starts at row `r`. -/
def compEntries (d : BitVec 512) (r : Nat) : Nat :=
  ((List.range (min 33 (dRows d - r))).filter (fun k => (dCsrc d + 2 * (r + k)) / 64 = (dCsrc d + 2 * r) / 64)).length

/-- A place in a descriptor's stream of lines: row, piece, and whether the row's companion line has passed. -/
structure LinePos where
  row : Nat
  piece : Nat
  comp : Bool
  deriving DecidableEq, Repr

/-- A line to fetch: source address, source bytes, and its row and piece (none: companion entries). -/
structure FLine where
  addr : Nat
  len : Nat
  row : Nat
  piece : Option Nat
  deriving DecidableEq, Repr

/-- The order of lines in a descriptor's stream. -/
def lineKey (row : Nat) (piece : Option Nat) : Nat :=
  4096 * row + match piece with
    | some p => p + 1
    | none => 0

/-- The line at a place of the stream; none beyond its end. -/
def LinePos.line (p : LinePos) (d : BitVec 512) : Option FLine :=
  if p.row ≥ dRows d then none
  else if compStarts d p.row && !p.comp then some ⟨dCsrc d + 2 * p.row, 2 * compEntries d p.row, p.row, none⟩
  else
    let (a, b) := convBytes d
    let out := min 64 (dRowOut d - 64 * p.piece)
    some ⟨addr40 (dSrc d) (dSstride d * p.row + (64 * p.piece / b * a : Nat)), out / b * a, p.row, some p.piece⟩

/-- The place after the line at a place. -/
def LinePos.next (p : LinePos) (d : BitVec 512) : LinePos :=
  if compStarts d p.row && !p.comp then { p with comp := true }
  else if p.piece + 1 < dPieces d then { p with piece := p.piece + 1 } else ⟨p.row + 1, 0, false⟩

/-- The place of the first line not fetched. -/
def DQueue.pos (x : DQueue) : LinePos := ⟨x.row, x.piece, x.comp⟩

/-- The next line of the queue in stream order; none when all have been fetched. -/
def DQueue.nextLine (x : DQueue) (d : BitVec 512) : Option FLine := x.pos.line d

/-- The next `n` lines from a place of the stream that have not been fetched, within `fuel` places (R128). -/
def windowFrom (d : BitVec 512) (ahead : List Nat) : (fuel n : Nat) → LinePos → List FLine
  | 0, _, _ => []
  | fuel + 1, n, p =>
    if n = 0 then []
    else match p.line d with
      | none => []
      | some l =>
        if ahead.contains (lineKey l.row l.piece) then windowFrom d ahead fuel n (p.next d) else l :: windowFrom d ahead fuel (n - 1) (p.next d)

/-- The window of the queue (R128): its next 45 lines that have not been issued. -/
def DQueue.window (x : DQueue) (d : BitVec 512) : List FLine := windowFrom d x.ahead (45 + x.ahead.length) 45 x.pos

/-- The first place from `p` whose line has not been fetched, with the keys of those passed taken out of `ahead`. -/
def skipFetched (d : BitVec 512) : (fuel : Nat) → LinePos → List Nat → LinePos × List Nat
  | 0, p, ahead => (p, ahead)
  | fuel + 1, p, ahead =>
    match p.line d with
    | none => (p, ahead)
    | some l =>
      let k := lineKey l.row l.piece
      if ahead.contains k then skipFetched d fuel (p.next d) (ahead.erase k) else (p, ahead)

/-- Put a fetched line into the queue's lines, in stream order. -/
def insertLine (l : DLine) : List DLine → List DLine
  | [] => [l]
  | m :: ms => if lineKey l.row l.piece < lineKey m.row m.piece then l :: m :: ms else m :: insertLine l ms

/-- The queue after fetching line `l`; `need` of its bytes have still to come. -/
def DQueue.fetched (x : DQueue) (d : BitVec 512) (l : FLine) (bs : List (BitVec 8)) (need : Nat) : DQueue :=
  let (p, ahead) := skipFetched d (x.ahead.length + 2) x.pos (lineKey l.row l.piece :: x.ahead)
  { x with fifo := insertLine ⟨l.row, l.piece, bs, need, []⟩ x.fifo, row := p.row, piece := p.piece, comp := p.comp, ahead := ahead }

/-- The queue's first line may be sent: every line before it in the stream has been (R135). -/
def DQueue.front (x : DQueue) (d : BitVec 512) : Option DLine :=
  match x.fifo with
  | [] => none
  | l :: _ =>
    match x.nextLine d with
    | none => some l
    | some n => if lineKey l.row l.piece < lineKey n.row n.piece then some l else none

/-- The four bytes of a fill pattern, repeated from the start of each row. -/
def fillBytes (d : BitVec 512) (start n : Nat) : List (BitVec 8) :=
  (List.range n).map (fun i => BitVec.ofNat 8 (dfield d 0 (8 * ((start + i) % 4)) 8))

/-- The bytes of a line as written: the conversion of R136. -/
def DLine.out (l : DLine) (d : BitVec 512) : List (BitVec 8) :=
  if l.piece.isSome then convRun d (l.data.length / (convBytes d).1) l.data else l.data

/-- A piece of remote data: its address, bytes, row and piece of the row. -/
structure RPiece where
  addr : Nat
  len : Nat
  row : Nat
  piece : Option Nat
  data : List (BitVec 8)
  deriving DecidableEq, Repr

/-- Join up to 4 contiguous pieces of one row (R286); `g` is the open group, in order. -/
def joinPieces : List RPiece → List RPiece → List (List RPiece)
  | g, [] => if g.isEmpty then [] else [g]
  | g, x :: xs =>
    match g.getLast? with
    | some y => if y.row = x.row && y.addr + y.len = x.addr && g.length < 4 then joinPieces (g ++ [x]) xs else g :: joinPieces [x] xs
    | none => joinPieces [x] xs

/-- Where bytes `[o, o + n)` of a group of pieces lie: row, piece, offset in the line, bytes. -/
def groupParts (o n : Nat) : Nat → List RPiece → List (Nat × Option Nat × Nat × Nat)
  | _, [] => []
  | at_, x :: xs =>
    let lo := max o at_
    let hi := min (o + n) (at_ + x.len)
    (if lo < hi then [(x.row, x.piece, lo - at_, hi - lo)] else []) ++ groupParts o n (at_ + x.len) xs

/-- The chip that a descriptor's chip field names (R285). -/
def State.dmaChip (s : State) (d : BitVec 512) : Fin 8 := Fin.ofNat 8 (s.apxId.val ^^^ dChip d)

/-- Queue number of queue `q` of cluster `c`. -/
def dmaIndex (c : Fin 8) (q : Fin 32) : Fin 256 := Fin.ofNat 256 (32 * c.val + q.val)

/-- Issue the requests of one group: one for each 256-byte block it touches. -/
def State.dmaRequest (s : State) (c : Fin 8) (q : Fin 32) (d : BitVec 512) (write : Bool) (g : List RPiece) : State :=
  let addr := match g with | x :: _ => x.addr | [] => 0
  let data := g.flatMap RPiece.data
  (blockRuns addr (g.map RPiece.len).sum).foldl (fun s (o, n) =>
    match s.apxRequest (s.dmaChip d) write (addr + o) n ((data.drop o).take n) (dmaIndex c q) (groupParts o n 0 g) with
    | some s => if write then s.withDq c q fun x => { x with wout := x.wout + 1 } else s
    | none => s) s

/-- Tags for `n` lines, of at most two requests each, are free. -/
def State.dmaTags (s : State) (d : BitVec 512) (n : Nat) : Bool := (s.apx.reqs.filter fun r => r.dst = s.dmaChip d).length + 2 * n ≤ 256

/-- Scratchpad address of offset `o` of receiver `j` (R140). -/
def receiverAddr (d : BitVec 512) (j o : Nat) : Nat := spadBase (dReceiver d j) + o % 0x200000

/-- Receivers that have not been dropped. -/
def DQueue.receivers (x : DQueue) (d : BitVec 512) : List Nat := (List.range (dReceivers d)).filter (fun j => !x.drop.getLsbD j)

/-- Receiver `j` holds credit for line `k` (R140): k − consumed < m, of the count read last; before the first read there is none. -/
def DQueue.hasCredit (x : DQueue) (d : BitVec 512) (k j : Nat) : Bool :=
  match nthD x.credit.toList j none with
  | some v => decide ((k : Int) - v.toNat < dRing d)
  | none => false

/-- Where the line of a row and piece goes: its addresses, one, or one per receiver for op 2, with the receiver. -/
def DQueue.targets (x : DQueue) (d : BitVec 512) (row : Nat) (piece : Option Nat) : List (Nat × Nat) :=
  if dOp d = 2 then
    let o := match piece with
      | some p => dDst d + 64 * ((row * dPieces d + p) % dRing d)
      | none => dCdst d + 2 * row
    (x.receivers d).map (fun j => (j, receiverAddr d j o))
  else match piece with
    | some p => [(0, addr40 (dDst d) (dDstride d * row + (64 * p : Nat)))]
    | none => [(0, addr40 (dCdst d) (2 * row : Nat))]

/-- Source address of the line of a row and piece. -/
def sourceOf (d : BitVec 512) (row : Nat) (piece : Option Nat) : Nat :=
  match piece with
  | some p => addr40 (dSrc d) (dSstride d * row + (64 * p / (convBytes d).2 * (convBytes d).1 : Nat))
  | none => dCsrc d + 2 * row

/-! ## Opportunities (R120 to R123, R127 to R131, R138) -/

/-- What moving a line takes: nothing that is dealt, a fabric position of the present slot of a share, or a chance of the present ck. -/
inductive Need where
  | free
  | position (share : Nat)
  | chance (ch : Chance)
  deriving DecidableEq, Repr

/-- The ring from cluster `a` to cluster `b` is ring B (R123). -/
def onRingB (a b : Nat) : Bool := decide ((b + 8 - a) % 8 > 4)

/-- The port of the cluster memory of `c` that serves a line whose other end lies in region `r` (R120). -/
def portTo (c : Fin 8) (r : Region) : Fin 16 :=
  let ring (b : Nat) : Fin 16 := if b = c.val then 10 else if onRingB c b then 9 else 8
  match r with
  | .spad n | .spadHigh n => if n / 8 = c.val then Fin.ofNat 16 (n % 8) else ring (n / 8)
  | .cluster b => ring b
  | _ => 10

/-- What fetching the line at `a`, bound for region `r`, takes. -/
def fetchNeed (c : Fin 8) (a : Nat) (r : Region) : Need :=
  match regionOf a with
  | .lpddr => .position 0
  | .cluster b => if b = c.val then .chance (.port c (portTo c r)) else .free
  | .ue => .chance (.ue c)
  | _ => .free

/-- What writing a line from region `r` at `a` takes. -/
def writeNeed (c : Fin 8) (r : Region) (a : Nat) : Need :=
  match regionOf a with
  | .lpddr => .position 1
  | .cluster b => if b = c.val then .chance (.port c (portTo c r)) else .chance (.carriage (onRingB c b) c)
  | .spad n | .spadHigh n =>
    if n / 8 ≠ c.val then .chance (.carriage (onRingB c (n / 8)) c)
    else match r with
      | .spad m => if m = n then .free else .chance (.plane m n)
      | _ => .free
  | .ue => .chance (.ue c)
  | _ => .free

/-- The owner of the carriage of a ring that passes station `c` now (R123). -/
def State.carriageOwner (s : State) (b : Bool) (c : Fin 8) (t : Nat) : Nat :=
  let k := if b then (t + 4 * c.val) % 32 else (t + 128 - 4 * c.val) % 32
  bitsOf (if b then s.mv.mem.ringB else s.mv.mem.ringA).toNat (3 * k) 3

/-- Owned carriages that have passed the cluster's station since the start of the frame: the counter k of R131. -/
def State.carriageCount (s : State) (b : Bool) (c : Fin 8) : Nat :=
  let t := s.mono.toNat % 11264
  let owned (n : Nat) : Nat := ((List.range n).filter fun i => s.carriageOwner b c i = c.val).length
  t / 32 * owned 32 + owned (t % 32)

/-- The schedule gives the chance now, for the line at `a` (R120 to R123). -/
def State.chanceNow (s : State) (ch : Chance) (a : Nat) : Bool :=
  let t := s.mono.toNat
  match ch with
  | .port _ x => (x.val + t) % 16 = a / 64 % 16
  | .ue c => (c.val + t) % 16 = a / 64 % 16
  | .plane m n => (m % 8 + 1 + t % 7) % 8 = n % 8
  | .carriage b c => s.carriageOwner b c t = c.val

/-- What a chance is used by: a position sends one line in a ck. -/
def Chance.key : Chance → Chance
  | .plane m _ => .plane m m
  | ch => ch

/-- The chances taken in this ck. -/
def State.takenNow (s : State) : List Chance := if s.mv.taken.1 = s.mono then s.mv.taken.2 else []

/-- Take a chance of this ck. -/
def State.take (s : State) (ch : Chance) : State :=
  let l := s.takenNow
  s.withMv fun v => { v with taken := (s.mono, ch.key :: l) }

/-- The queue may fetch a further line: it has one, within its outstanding limit (R137). -/
def State.mayFetch (s : State) (c : Fin 8) (q : Fin 32) : Bool := s.dmaOut c q ≤ s.get (DMA_Qn_CFG.outst c q)

/-- What the next line of the queue that is not fetched takes, and its address; none where it may not fetch or has no line to reach. -/
def State.fetchWants (s : State) (c : Fin 8) (q : Fin 32) : Option (Need × Nat) :=
  let x := s.dq c q
  match x.desc with
  | none => none
  | some d =>
    if dOp d = 1 || dRemoteSrc d || !s.mayFetch c q then none
    else (x.nextLine d).map fun l =>
      (fetchNeed c l.addr (regionOf (((x.targets d l.row l.piece).map Prod.snd).headD 0)), l.addr)

/-- The receivers of a line that it has still to reach. -/
def DQueue.left (x : DQueue) (d : BitVec 512) (l : DLine) : List (Nat × Nat) := (x.targets d l.row l.piece).filter fun p => !l.reached.contains p.1

/-- The line is held for want of credit of some receiver (R140). -/
def DQueue.held (x : DQueue) (d : BitVec 512) (l : DLine) : Bool :=
  dOp d = 2 && match l.piece with
    | some p => !(x.receivers d).all (x.hasCredit d (l.row * dPieces d + p))
    | none => false

/-- The region that a line of a descriptor comes from; a fill has none. -/
def lineFrom (d : BitVec 512) (row : Nat) (piece : Option Nat) : Region :=
  if (dOp d = 1 && piece.isSome) || dRemoteSrc d then .other else regionOf (sourceOf d row piece)

/-- What the first line of the queue takes to be written, for each place it has still to reach, with its address. -/
def State.writeWants (s : State) (c : Fin 8) (q : Fin 32) : List (Need × Nat) :=
  let x := s.dq c q
  match x.desc with
  | none => []
  | some d =>
    match x.front d with
    | none => []
    | some l =>
      if l.need ≠ 0 || dRemoteDst d || x.held d l then []
      else (x.left d l).map fun p => (writeNeed c (lineFrom d l.row l.piece) p.2, p.2)

/-- The present line of the queue can use a chance of this ck. -/
def State.canTake (s : State) (c : Fin 8) (q : Fin 32) (ch : Chance) : Bool :=
  ((s.fetchWants c q).toList ++ s.writeWants c q).any fun p =>
    match p.1 with
    | .chance h => h.key = ch.key && s.chanceNow h p.2
    | _ => false

/-- The line that the queue would move in a position of the present slot of a share (R128): the lowest-addressed line of its window with room on
its channel to fetch, its first line to write. -/
def State.slotLine (s : State) (c : Fin 8) (q : Fin 32) (share : Nat) : Option Nat :=
  let x := s.dq c q
  if share = 0 then
    match x.desc with
    | none => none
    | some d =>
      if dOp d = 1 || dRemoteSrc d || !s.mayFetch c q then none
      else
        let fit := ((x.window d).map FLine.addr).filter fun a => regionOf a = .lpddr && s.room a 1
        fit.foldl (fun m a => match m with | some b => some (min a b) | none => some a) none
  else ((s.writeWants c q).find? fun p => p.1 = .position 1 && s.room p.2 1).map Prod.snd

/-- Queue `p` comes before queue `q` in the fall-back (R138): urgent, then higher prio, then the lower number. -/
def State.before2 (s : State) (c : Fin 8) (p q : Fin 32) : Bool :=
  let u (n : Fin 32) : Nat := s.get (DMA_Qn_STAT.urgent c n)
  let r (n : Fin 32) : Nat := s.get (DMA_Qn_CFG.prio c n)
  decide (u q < u p) || (u p = u q && (decide (r q < r p) || (r p = r q && decide (p.val < q.val))))

/-- The queue that wheel entry `k` mod 64 of cluster `c` names, if it is enabled (R131). -/
def State.wheelAt (s : State) (c : Fin 8) (k : Nat) : Option (Fin 32) :=
  let i := k % 64
  if s.flag (DMA_Cc_WHEELi.en c (i / 8) (i % 8)) then some (Fin.ofNat 32 (s.get (DMA_Cc_WHEELi.queue c (i / 8) (i % 8)))) else none

/-- The queue of cluster `c` that a dealt opportunity goes to, of those that `can` use it (R131, R138): the one that its wheel entry names; else, with
det = 0, the first of the fall-back. An opportunity that only passes to the fall-back has no entry. -/
def State.grantee (s : State) (c : Fin 8) (k : Option Nat) (can : Fin 32 → Bool) : Option (Fin 32) :=
  match (k.bind (s.wheelAt c)).filter can with
  | some q => some q
  | none =>
    if s.det then none
    else ((List.finRange 32).filter can).foldl (fun m q =>
      match m with
      | some p => if s.before2 c q p then some q else some p
      | none => some q) none

/-- A swap of the share's direction is under way: a load, or a save or checkpoint (R147). -/
def State.swapping (s : State) (share : Nat) : Bool :=
  (List.finRange 256).any fun n => s.get (CTX_STATn.state n) = (if share = 0 then 2 else 8) || (share = 1 && (s.cx.ctx[n.val]).writing)

/-- The unused positions of the present slot of a share that may go to cluster `c`, with their count k (R127, R131): its fabric positions; and with
det = 0 the ACX positions, while no application-core line waits, and the swap positions of a share in which no swap is under way, which
pass to the fall-back (R130). DESIGN CHOICE (log entry 42): position p of those passes to cluster p mod 8. -/
def State.positions (s : State) (share : Nat) (c : Fin 8) : List (Nat × Option Nat) :=
  if s.shareNow ≠ some share then []
  else
    let (comet, swap, acx, fab, _) := s.slotNow share
    let base := s.mv.mem.fabricBefore share (s.mv.mem.slotIndex share s.slotNo)
    let used := s.slotUse.pos
    let first := comet + swap + acx
    let own := (List.range fab).filterMap fun i =>
      if (base + i) % 8 = c.val && !used.contains (first + i) then some (first + i, some ((base + i) / 8)) else none
    let pass := if s.det then [] else
      (List.range (swap + acx)).filterMap fun i =>
        let p := comet + i
        if p % 8 = c.val && !used.contains p && (if i ≥ swap then share = 0 || s.acx.wb.isEmpty else !s.swapping share) then some (p, none) else none
    own ++ pass

/-- The position of the present slot that goes to the queue (R130, R131, R138). -/
def State.positionFor (s : State) (share : Nat) (c : Fin 8) (q : Fin 32) : Option Nat :=
  let can (p : Fin 32) : Bool := (s.slotLine c p share).isSome
  if !can q then none
  else ((s.positions share c).find? fun p => s.grantee c p.2 can = some q).map Prod.fst

/-- A chance of this ck goes to the queue: a carriage by the wheel, the others to the lowest-numbered queue that can use it (R131). -/
def State.chanceFor (s : State) (c : Fin 8) (q : Fin 32) (ch : Chance) (a : Nat) : Bool :=
  s.chanceNow ch a && !s.takenNow.contains ch.key &&
    match ch with
    | .carriage b _ => s.grantee c (some (s.carriageCount b c)) (fun p => s.canTake c p ch) = some q
    | _ => (List.finRange 32).all fun p => q.val ≤ p.val || !s.canTake c p ch

/-- A grant of a dealt opportunity: an urgent queue's age restarts and it ceases to be urgent (R138). -/
def State.dmaGrant (s : State) (c : Fin 8) (q : Fin 32) : State :=
  let s := s.withDq c q fun x => { x with granted := some s.mono }
  if s.flag (DMA_Qn_STAT.urgent c q) then (s.withDq c q fun x => { x with age := 0 }).put (DMA_Qn_STAT.urgent c q) 0 else s

/-- Take what moving the line at `a` needs, when the queue has it now. -/
def State.acquire (s : State) (c : Fin 8) (q : Fin 32) (n : Need) (a : Nat) : Option State :=
  match n with
  | .free => some s
  | .position sh => if s.slotLine c q sh = some a then (s.positionFor sh c q).map fun p => (s.usePosition p a).dmaGrant c q else none
  | .chance ch =>
    if s.chanceFor c q ch a then some (match ch with | .carriage _ _ => (s.take ch).dmaGrant c q | _ => s.take ch) else none

/-! ## Fetching and writing (R128, R135, R137, R140) -/

/-- ck from the issue of a fetch to its return (R139). -/
def fetchTime (r : Region) : Nat :=
  match r with
  | .lpddr => 104
  | .ue => 18
  | _ => 6

/-- The ck from which a fetch counts: the start of its slot for LPDDR6 (R137). -/
def State.fetchAt (s : State) (r : Region) : Nat := if r = .lpddr then 11 * s.slotId else s.mono.toNat

/-- Note when a fetch from region `r` returns. -/
def State.noteFetch (s : State) (c : Fin 8) (q : Fin 32) (r : Region) : State :=
  s.withDq c q fun x => { x with returned := BitVec.ofNat 64 (max x.returned.toNat (s.fetchAt r + fetchTime r)) }

/-- The line that the queue fetches next: the lowest-addressed of its window that a position of the present slot takes, while LPDDR6 lies there
(R128); otherwise the next of its stream. -/
def State.pickLine (s : State) (c : Fin 8) (q : Fin 32) (d : BitVec 512) : Option FLine :=
  let x := s.dq c q
  match x.nextLine d with
  | none => none
  | some l =>
    if dOp d ≠ 1 && !dRemoteSrc d && regionOf l.addr = .lpddr then
      match s.slotLine c q 0 with
      | some a => (x.window d).find? fun m => m.addr = a
      | none => none
    else some l

/-- Fetch up to `n` further lines of the present descriptor, as the opportunities of the present ck and slot allow; the lines of a remote source
are collected in `rs`. -/
def State.dmaFetch (c : Fin 8) (q : Fin 32) (d : BitVec 512) : Nat → List RPiece → State → Res
  | 0, rs, s => .next ((joinPieces [] rs).foldl (fun s g => s.dmaRequest c q d false g) s)
  | n + 1, rs, s =>
    let x := s.dq c q
    let done : Res := .next ((joinPieces [] rs).foldl (fun s g => s.dmaRequest c q d false g) s)
    match s.pickLine c q d with
    | none => done
    | some l =>
      if !s.mayFetch c q then done
      else if dOp d = 1 && l.piece.isSome then
        State.dmaFetch c q d n rs (s.withDq c q fun x => x.fetched d l (fillBytes d (64 * l.piece.getD 0 / (convBytes d).2 * (convBytes d).1) l.len) 0)
      else if dRemoteSrc d then
        if !s.dmaTags d (rs.length + 1) then done
        else
          State.dmaFetch c q d n (if l.len = 0 then rs else rs ++ [⟨l.addr, l.len, l.row, l.piece, []⟩])
            (s.withDq c q fun x => x.fetched d l (List.replicate l.len 0) l.len)
      else
        let r := regionOf (((x.targets d l.row l.piece).map Prod.snd).headD 0)
        match s.acquire c q (fetchNeed c l.addr r) l.addr with
        | none => done
        | some s =>
          if sourceAllowed c (regionOf l.addr) && !s.rangeOn l.addr (max 1 l.len) then .fault Fault.poweredOff
          else
            let (bs, s) := s.dmaRead c q l.addr l.len
            State.dmaFetch c q d n rs ((s.withDq c q fun x => x.fetched d l bs 0).noteFetch c q (regionOf l.addr))

/-- The places that a line reaches now, of those it has still to reach, each with what it takes: a multicast line reaches all receivers of the
queue's cluster in one ck and each other one by a carriage of its own (R140). -/
def State.reach (s : State) (c : Fin 8) (q : Fin 32) (r : Region) (ps : List (Nat × Nat)) : List (Nat × Nat) × State :=
  ps.foldl (fun (m : List (Nat × Nat) × State) p =>
    match m.2.acquire c q (writeNeed c r p.2) p.2 with
    | some s => (m.1 ++ [p], s)
    | none => m) ([], s)

/-- Write up to `n` fetched lines, in order (R135, R140), as the opportunities of the present ck and slot allow; the lines of a remote destination are
collected in `rs`. -/
def State.dmaSend (c : Fin 8) (q : Fin 32) (d : BitVec 512) : Nat → List RPiece → State → Res
  | 0, rs, s => .next ((joinPieces [] rs).foldl (fun s g => s.dmaRequest c q d true g) s)
  | n + 1, rs, s =>
    let x := s.dq c q
    let done : Res := .next ((joinPieces [] rs).foldl (fun s g => s.dmaRequest c q d true g) s)
    match x.front d with
    | none => done
    | some l =>
      let rest : DQueue :=
        { x with fifo := x.fifo.drop 1, sent := if l.piece.isSome then x.sent + 1 else x.sent
                 lag := if l.piece.isSome then Vector.replicate 8 0 else x.lag }
      let bs := l.out d
      if l.need ≠ 0 then done
      else if dRemoteDst d then
        if !s.dmaTags d (rs.length + 1) then done
        else
          let a := ((x.targets d l.row l.piece).map Prod.snd).headD 0
          State.dmaSend c q d n (if bs.isEmpty then rs else rs ++ [⟨a, bs.length, l.row, l.piece, bs⟩]) (s.withDq c q fun _ => rest)
      else if x.held d l then done
      else
        let left := x.left d l
        let (now, s') := s.reach c q (lineFrom d l.row l.piece) left
        if !now.all (fun p => s.rangeOn p.2 (max 1 bs.length)) then .fault Fault.poweredOff
        else
          let u := now.foldl (fun u p => u.dmaWrite c q (dmaPort c (sourceOf d l.row l.piece) p.2) p.2 bs) s'
          if now.length = left.length then
            State.dmaSend c q d n rs (u.withDq c q fun y => { rest with granted := y.granted, age := y.age })
          else .next (u.withDq c q fun y => { y with fifo := { l with reached := l.reached ++ now.map Prod.fst } :: y.fifo.drop 1 })

/-- A flit of the line fetched last fails its parity on the network-on-chip (R316): the line is delivered unmarked, with the bytes that it then
has. -/
def State.dmaParity (s : State) (c : Fin 8) (q : Fin 32) (perr : Bool) : State :=
  match perr, (s.dq c q).fifo.getLast? with
  | true, some l =>
    let (bs, s) := s.drawBytes l.data.length
    (s.withDq c q fun x => { x with fifo := x.fifo.dropLast ++ [{ l with data := bs }] }).nocParity c
  | _, _ => s

/-- Move lines of the present descriptor, when its op is `op`; `perr` says that a flit of them fails its parity. -/
def State.dmaMove (op : Nat) (c : Fin 8) (q : Fin 32) (fetch write : Nat) (perr : Bool) (s : State) : Res :=
  match (s.dq c q).desc with
  | none => .next s
  | some d =>
    if dOp d ≠ op then .next s
    else andThen (State.dmaFetch c q d fetch [] s) fun s =>
      andThen (State.dmaSend c q d write [] (s.dmaParity c q perr)) fun s => .next (s.dmaCount c q)

/-- COPY (R134 to R137): lines of a descriptor with op 0 are fetched and written. -/
def execCopy (c : Fin 8) (q : Fin 32) (fetch : Fin 128) (write : Carried 128) (s : State) : Res :=
  inside 82 1 s fun s => s.dmaMove 0 c q fetch write.val write.perr

/-- FILL (R134): lines of a descriptor with op 1 are written from its pattern. -/
def execFill (c : Fin 8) (q : Fin 32) (fetch : Fin 128) (write : Carried 128) (s : State) : Res :=
  inside 82 1 s fun s => s.dmaMove 1 c q fetch write.val write.perr

/-- MULTICAST_COPY (R140): lines of a descriptor with op 2 go to every receiver under credit. -/
def execMulticastCopy (c : Fin 8) (q : Fin 32) (fetch : Fin 128) (write : Carried 128) (s : State) : Res :=
  inside 82 1 s fun s => s.dmaMove 2 c q fetch write.val write.perr

/-- Every line of the present descriptor has been fetched and written, and every remote write answered. -/
def DQueue.allWritten (x : DQueue) (d : BitVec 512) : Bool := x.row ≥ dRows d && x.fifo.isEmpty && x.wout = 0

/-- The tiles whose flag a completion sets (R135). -/
def DQueue.evTiles (x : DQueue) (d : BitVec 512) : List (Fin 64) :=
  if !dEv d then [] else if dOp d = 2 then (x.receivers d).map (dReceiver d) else [dEvtile d]

/-- After a descriptor: pause when the context unit has asked for it (R250), else take the next. -/
def State.dmaAfter (s : State) (c : Fin 8) (q : Fin 32) : State :=
  if (s.dq c q).hold then (s.withDq c q fun x => { x with hold := false, paused := true }).dmaStop c q
  else s.dmaNext c q (2 * 2 ^ s.dmaLog c q + 2)

/-- DESCRIPTOR_COMPLETION (R135): once every line is written, cons advances, flags are set and the next descriptor is taken. -/
def execDescriptorCompletion (c : Fin 8) (q : Fin 32) (s : State) : Res := inside 82 1 s fun s =>
  match (s.dq c q).desc with
  | none => .next s
  | some d =>
    let x := s.dq c q
    if !x.allWritten d then .next s
    else if !(x.evTiles d).all (fun t => s.tileOn t) then .fault Fault.poweredOff
    else
      let s := s.dmaAdvance c q
      let s := (x.evTiles d).foldl (fun s t => s.setEvf t (dFlag d)) s
      .next (s.dmaAfter c q)

/-- MULTICAST_RECEIVER_DROP (R141): a receiver whose lag counter exceeds 64 ck × lag is dropped from the present descriptor. -/
def execMulticastReceiverDrop (c : Fin 8) (q : Fin 32) (i : Fin 8) (s : State) : Res := inside 82 1 s fun s =>
  let x := s.dq c q
  match x.desc with
  | none => .next s
  | some d =>
    let lim := s.get (DMA_Qn_CFG.lag c q)
    if dOp d = 2 && i.val < dReceivers d && lim ≠ 0 && !x.drop.getLsbD i && x.lag[i.val] > 64 * lim then
      .next (((s.withDq c q fun x => { x with drop := x.drop ||| BitVec.ofNat 8 (2 ^ i.val) }).raiseBit (DMA_Cc_MCDROPn.rcv c q) i).raiseBit
        (DMA_Cc_CAUSE.mc_drop c) q)
    else .next s

/-- STARVATION_PROMOTION (R138): with det = 0 a queue whose age exceeds DMA_AGE becomes urgent for one grant. -/
def execStarvationPromotion (c : Fin 8) (q : Fin 32) (s : State) : Res := inside 82 1 s fun s =>
  let us := s.get DMA_AGE.us
  if !s.det && us ≠ 0 && (s.dq c q).age > us * Config.ckPerUs then .next (s.raise (DMA_Qn_STAT.urgent c q)) else .next s

/-! ## What every ck does -/

/-- Some line that the queue could move now would use a dealt opportunity: a fabric position or a carriage (R138). -/
def State.waitsDealt (s : State) (c : Fin 8) (q : Fin 32) : Bool :=
  let dealt (n : Need) : Bool := match n with
    | .position _ => true
    | .chance (.carriage _ _) => true
    | _ => false
  ((s.fetchWants c q).toList ++ s.writeWants c q).any fun p => dealt p.1

/-- The lag counters of a multicast that waits for credit advance (R141). -/
def DQueue.lagTick (x : DQueue) (d : BitVec 512) : DQueue :=
  match x.front d with
  | some l =>
    match l.piece with
    | some p =>
      if dOp d = 2 then
        { x with lag := Vector.ofFn (fun (j : Fin 8) =>
            if (x.receivers d).contains j.val && !x.hasCredit d (l.row * dPieces d + p) j then x.lag[j.val] + 1 else x.lag[j.val]) }
      else x
    | none => x
  | none => x

/-- In a ck with TMB_MONO mod 16 = 2i the credit word of receiver i of a multicast is read (R140). -/
def State.creditTick (s : State) (x : DQueue) (d : BitVec 512) : DQueue :=
  let t := s.mono.toNat % 16
  let i := t / 2
  if dOp d = 2 && t % 2 = 0 && (x.receivers d).contains i then
    { x with credit := x.credit.set! i (some (BitVec.ofNat 32 (s.le (receiverAddr d i (dCredit d)) 4))) }
  else x

/-- One ck of every queue: the lag counters advance, with det = 0 the age counters of queues that waited without a grant, and credit is read. -/
def State.dmaTick (s : State) : State :=
  s.withMv fun v => { v with q := Vector.ofFn (fun (i : Fin 256) =>
    let x := v.q[i.val]
    match x.desc with
    | none => x
    | some d =>
      let y := s.creditTick (x.lagTick d) d
      if !s.det && x.granted ≠ some (s.mono - 1) && s.waitsDealt (Fin.ofNat 8 (i.val / 32)) (Fin.ofNat 32 i.val) then { y with age := y.age + 1 } else y) }

end Sys2Proof.Machine
end

