-- ==== Sys2Proof/Machine/Comet.lean ====
section
/-! DEFINITION. The Comet path (chapter 06, R143 to R146).  A tile's header is read in every even ck, its command 2 ck and a write's snapshot 4 ck
after the header read that a launch rests on, as the ck pass. -/

namespace Sys2Proof.Machine

/-- The outstanding transfers of tile `t`. -/
def State.comets (s : State) (t : Fin 64) : List CTransfer := s.mv.cmt[t.val]

/-- Replace the outstanding transfers of tile `t`; TIL_CMTSTAT.nout counts them. -/
def State.setComets (s : State) (t : Fin 64) (l : List CTransfer) : State :=
  (s.withMv fun v => { v with cmt := v.cmt.set t.val l }).put (TIL_CMTSTAT.nout t) l.length

/-- Scratchpad bytes of tile `t` from `a`, each address modulo 2^21 (R143). -/
def State.spadBytes (s : State) (t : Fin 64) (a n : Nat) : List (BitVec 8) :=
  (List.range n).map (fun i => s.byte (spad t ((a + i) % 0x200000)))

/-- Store scratchpad bytes of tile `t` from `a` in its Comet path's W phase, each address modulo 2^21. -/
def State.setSpadBytes (s : State) (t : Fin 64) (a : Nat) : List (BitVec 8) → State
  | [] => s
  | b :: bs => State.setSpadBytes (s.putByte 7 (spad t (a % 0x200000)) b) t (a + 1) bs

/-- Scratchpad address of the ring header. -/
def State.cometBase (s : State) (t : Fin 64) : Nat := 64 * s.get (TIL_CMT.base t)

/-- The header of the ring: prod and cons. -/
def State.cometHeader (s : State) (t : Fin 64) : BitVec 32 × BitVec 32 :=
  (BitVec.ofNat 32 (natOfBytes (s.spadBytes t (s.cometBase t) 4)), BitVec.ofNat 32 (natOfBytes (s.spadBytes t (s.cometBase t + 4) 4)))

/-- The last header read of tile `t` found a command to launch, and no launch rests on that read yet (R144); log entry 42. -/
def State.cometPending (s : State) (t : Fin 64) : Bool :=
  s.get (TIL_CMT.n t) ≠ 0 && (s.comets t).length < 64 && s.tileOn t &&
    match s.mv.header[t.val] with
    | some h => h.1 = s.mono - BitVec.ofNat 64 (s.mono.toNat % 2) && h.2.1 ≠ h.2.2
    | none => false

/-- The tile that the cluster of `t` launches next with det = 0: the first position with a launch pending, from the one after the
last launch (R144). -/
def State.cometTurn (s : State) (c : Fin 8) : Option (Fin 64) :=
  ((List.range 8).map (fun i => Fin.ofNat 64 (8 * c.val + (s.mv.turn[c.val].next.val + i) % 8))).find? s.cometPending

/-- Cluster of a tile position. -/
def clusterOf (t : Fin 64) : Fin 8 := Fin.ofNat 8 (t.val / 8)

/-- Tile `t` may launch in this ck (R144). -/
def State.cometMayLaunch (s : State) (t : Fin 64) : Bool :=
  if s.det then s.mono.toNat % 64 = t.val && s.cometPending t
  else s.cometTurn (clusterOf t) = some t && s.mv.turn[(clusterOf t).val].last ≠ some s.mono

/-- COMET_LAUNCH (R144): the command at the cons of the header read is launched and cons advanced. -/
def execCometLaunch (t : Fin 64) (s : State) : Res :=
  if !s.fck || s.held 1 || !s.cometMayLaunch t then .next s
  else match s.mv.header[t.val] with
    | none => .next s
    | some h =>
      let cons := h.2.2
      let n := min 6 (s.get (TIL_CMT.n t))
      let a := s.cometBase t + 64 + 32 * (cons.toNat % 2 ^ n)
      let tr : CTransfer := { hdr := h.1, launch := s.mono, at_ := a, cmd := none, snap := none, lower := none, moved := false }
      let s := s.setSpadBytes t (s.cometBase t + 4) (bytesOf 4 (cons + 1).toNat)
      let s := s.withMv fun v =>
        { v with turn := v.turn.set (clusterOf t).val ⟨Fin.ofNat 8 (t.val % 8 + 1), some s.mono⟩, header := v.header.set t.val none }
      .next (s.setComets t (s.comets t ++ [tr]))

/-! ## Commands (R143) -/

/-- Bits `[lo + w - 1 : lo]` of byte `b` of a Comet command. -/
def cfield (d : BitVec 256) (b lo w : Nat) : Nat := bitsOf d.toNat (8 * b + lo) w

def cRemote (d : BitVec 256) : Nat := cfield d 0 0 40
def cLocal (d : BitVec 256) : Nat := cfield d 8 0 21
/-- Bytes of the transfer. -/
def cLen (d : BitVec 256) : Nat := cfield d 12 0 8 + 1
def cOp (d : BitVec 256) : Nat := cfield d 13 0 8
def cEv (d : BitVec 256) : Bool := cfield d 14 0 1 = 1
def cFlag (d : BitVec 256) : Nat := cfield d 14 1 5

/-- The DMA queue whose DMA_Qn_CTL holds a range, with the byte offset in it, if it is one of cluster `c`. -/
def ctlTarget (c : Fin 8) (a n : Nat) : Option (Fin 32 × Nat) :=
  let o := a - (0x1800A00000 + 0x10000 * c.val)
  if 0x1800A00000 + 0x10000 * c.val ≤ a && o < 0x800 && 0xC ≤ o % 0x40 && o % 0x40 + n ≤ 0x10 then
    some (Fin.ofNat 32 (o / 0x40), o % 0x40 - 0xC)
  else none

/-- The remote range lies wholly within one Comet target of tile `t`. -/
def cometTarget (t : Fin 64) (a n : Nat) : Bool :=
  ((regionOf a).backed && regionOf a = regionOf (a + n - 1)) || (ctlTarget (clusterOf t) a n).isSome

/-- A command that is skipped (R143). -/
def cometBad (t : Fin 64) (d : BitVec 256) : Bool :=
  cOp d > 1 || cfield d 0 40 24 ≠ 0 || cfield d 8 21 11 ≠ 0 || cfield d 14 6 2 ≠ 0 || cfield d 15 0 136 ≠ 0
    || !cometTarget t (cRemote d) (cLen d)

/-! ## What every ck does -/

/-- In the W phase 2 ck after its header read a transfer's command is read; 4 ck after, the snapshot of a write is taken (R144). A
command that R143 skips leaves the list. -/
def State.cometStep (s : State) (t : Fin 64) (tr : CTransfer) : State × List CTransfer :=
  match tr.cmd with
  | none =>
    if s.since tr.hdr ≥ 2 then
      let d := BitVec.ofNat 256 (natOfBytes (s.spadBytes t tr.at_ 32))
      if cometBad t d then (s.raise (TIL_CMTSTAT.bad t), []) else (s, [{ tr with cmd := some d }])
    else (s, [tr])
  | some d =>
    if s.since tr.hdr ≥ 4 && cOp d = 0 && tr.snap.isNone then (s, [{ tr with snap := some (s.spadBytes t (cLocal d) (cLen d)) }])
    else (s, [tr])

/-- One ck of tile `t`'s Comet path. -/
def State.cometTileTick (s : State) (t : Fin 64) : State :=
  if (s.comets t).isEmpty then s
  else
    let (s, l) := (s.comets t).foldl (fun (p : State × List CTransfer) tr =>
      let (s, new) := p.1.cometStep t tr
      (s, p.2 ++ new)) (s, [])
    s.setComets t l

/-- The header reads of an even ck (R144): of each tile that has a ring. -/
def State.cometHeaders (s : State) : State :=
  if s.mono.toNat % 2 ≠ 0 then s
  else s.withMv fun v =>
    { v with header := Vector.ofFn fun (t : Fin 64) => if s.get (TIL_CMT.n t) ≠ 0 && s.tileOn t then some (s.mono, s.cometHeader t) else none }

/-- One ck of every Comet path. -/
def State.cometTick (s : State) : State := (List.finRange 64).foldl (fun s t => s.cometTileTick t) s.cometHeaders

/-! ## Service by the LPDDR6 controller (R146) -/

/-- The bytes of its remote range that a transfer moves next: offset and count; in LPDDR6 one part on each side of a 256-byte boundary. -/
def CTransfer.part (tr : CTransfer) (d : BitVec 256) : Nat × Nat :=
  let first := 256 - cRemote d % 256
  if regionOf (cRemote d) ≠ .lpddr || cLen d ≤ first then (0, cLen d) else if tr.lower.isNone then (0, first) else (first, cLen d - first)

/-- Transfer `tr` waits for LPDDR6 in the direction of op `o`. -/
def CTransfer.waitsFor (tr : CTransfer) (o : Nat) : Bool :=
  match tr.cmd with
  | some d => !tr.moved && cOp d = o && regionOf (cRemote d) = .lpddr
  | none => false

/-- A transfer launched before transfer `k` of tile `t`, at `m`, waits in the same direction: arrivals of one ck are taken in ascending tile number. -/
def State.cometAhead (s : State) (t : Fin 64) (k : Nat) (m : BitVec 64) (o : Nat) : Bool :=
  (List.finRange 64).any fun u => (s.comets u).zipIdx.any fun p =>
    p.1.waitsFor o && (p.1.launch.toNat < m.toNat || (p.1.launch = m && (u.val < t.val || (u = t && p.2 < k))))

/-- The lines of `n` bytes from `a`. -/
def lineAddrs (a n : Nat) : List Nat := (List.range ((a + n + 63) / 64 - a / 64)).map fun i => 64 * (a / 64 + i)

/-- The Comet positions of the present slot that serve the lines, one for each, when it holds them (R127, R146). -/
def State.cometSlot (s : State) (share : Nat) (lines : List Nat) : Option State :=
  let free := (List.range (s.slotNow share).1).filter fun p => !s.slotUse.pos.contains p
  if s.shareNow ≠ some share || free.length < lines.length || !lines.all (fun a => s.room a (lines.filter (channelOf · = channelOf a)).length) then none
  else some ((free.zip lines).foldl (fun s p => s.usePosition p.1 p.2) s)

/-- What moving the next part of transfer `k` of tile `t` takes: in LPDDR6 its turn and Comet positions of a slot of its direction that starts
16 ck or more after the launch, the second part in a later slot than the first (R146). -/
def State.cometServe (s : State) (t : Fin 64) (k : Nat) (tr : CTransfer) (d : BitVec 256) : Option State :=
  let (o, n) := tr.part d
  if regionOf (cRemote d) ≠ .lpddr then some s
  else if 11 * s.slotId < tr.launch.toNat + 16 || s.cometAhead t k tr.launch (cOp d) || tr.lower.any (fun l => s.slotId ≤ l) then none
  else s.cometSlot (if cOp d = 0 then 1 else 0) (lineAddrs (cRemote d + o) n)

/-! ## Transfers (R145) -/

/-- Part `p` of transfer `k` of tile `t` has moved: the transfer has when no byte is left. -/
def State.cometMoved (s : State) (t : Fin 64) (k : Nat) (tr : CTransfer) (d : BitVec 256) (p : Nat × Nat) : State :=
  let all : Bool := p.1 + p.2 = cLen d
  s.setComets t ((s.comets t).set k { tr with moved := all, lower := if all then tr.lower else some s.slotId })

/-- A Comet write to DMA_Qn_CTL: a 1 in a reserved bit is undefined (R5), cancel acts before go. -/
def State.cometCtl (s : State) (c : Fin 8) (q : Fin 32) (v : Nat) : Res :=
  faultIf (v / 4 ≠ 0) .reservedBit <| ringOn c s <|
    let s := if v.testBit 1 then s.dmaCancel c q else s
    .next (if v.testBit 0 then s.dmaStart c q else s)

/-- Data of tile `t` on the network-on-chip: a flit whose parity fails is delivered unmarked, with the bytes that it then has (R316). -/
def State.onNoc (s : State) (t : Fin 64) (perr : Bool) (bs : List (BitVec 8)) : List (BitVec 8) × State :=
  if perr then
    let (bs, s) := s.drawBytes bs.length
    (bs, s.nocParity (clusterOf t))
  else (bs, s)

/-- COMET_WRITE (R145, R146): the snapshot of transfer `k` of tile `t` is written to its remote range, in LPDDR6 one part at a time; nothing moves
while the controller does not serve it. `perr` says that a flit of it fails its parity. -/
def execCometWrite (t : Fin 64) (k : Carried 64) (s : State) : Res :=
  if !s.fck || !s.tileOn t || s.held 1 then .next s
  else match (s.comets t)[k.val.val]? with
    | some tr =>
      match tr.cmd, tr.snap with
      | some d, some bs =>
        if tr.moved then .next s
        else match ctlTarget (clusterOf t) (cRemote d) (cLen d) with
          | some (q, o) => (s.cometMoved t k.val tr d (0, cLen d)).cometCtl (clusterOf t) q (natOfBytes bs * 2 ^ (8 * o))
          | none =>
            match s.cometServe t k.val tr d with
            | none => .next s
            | some s =>
              let p := tr.part d
              faultIf (!s.rangeOn (cRemote d + p.1) p.2) .poweredOff <|
                let (bs, s) := s.onNoc t k.perr ((bs.drop p.1).take p.2)
                .next ((s.cometMoved t k.val tr d p).sysWriteBy 7 (cRemote d + p.1) bs)
      | _, _ => .next s
    | none => .next s

/-- COMET_READ (R145, R146): the remote range of transfer `k` of tile `t` is read into its scratchpad, in LPDDR6 one part at a time; nothing moves
while the controller does not serve it; DMA_Qn_CTL reads 0. `perr` says that a flit of it fails its parity. -/
def execCometRead (t : Fin 64) (k : Carried 64) (s : State) : Res :=
  if !s.fck || !s.tileOn t || s.held 1 then .next s
  else match (s.comets t)[k.val.val]? with
    | some tr =>
      match tr.cmd with
      | some d =>
        if tr.moved || cOp d ≠ 1 then .next s
        else match s.cometServe t k.val tr d with
          | none => .next s
          | some s =>
            let p := tr.part d
            faultIf (!s.rangeOn (cRemote d + p.1) p.2) .poweredOff <|
              let (bs, s) := s.slotRead (cRemote d + p.1) p.2
              let (bs, s) := s.onNoc t k.perr bs
              .next ((s.cometMoved t k.val tr d p).setSpadBytes t (cLocal d + p.1) bs)
      | none => .next s
    | none => .next s

/-- COMET_COMPLETION (R145): a moved transfer leaves and, with ev = 1, sets its event flag (R74). -/
def execCometCompletion (t k : Fin 64) (s : State) : Res :=
  if !s.fck || !s.tileOn t || s.held 1 then .next s
  else match (s.comets t)[k.val]? with
    | some tr =>
      match tr.cmd with
      | some d =>
        if !tr.moved then .next s
        else
          let s := s.setComets t ((s.comets t).eraseIdx k)
          .next (if cEv d then s.setEvf t (cFlag d) else s)
      | none => .next s
    | none => .next s

end Sys2Proof.Machine
end

