-- ==== Sys2Proof/Machine/Flow.lean ====
section
/-! DEFINITION. The S slot's control flow, repeats, waits and system instructions, the interrupt, and the start and stop of a tile
(R51, R53, R54, R70 to R77, R409). -/

namespace Sys2Proof.Machine

/-- Take a branch to bundle `tgt` after 3 delay slots (R70). -/
def Tile.branch (x : Tile) (tgt : BitVec 17) : Tile := { x.goSeq x.cur with delay := some (3, tgt) }

/-- The target of format SB: `off` bundles from the branch bundle. -/
def Tile.target (x : Tile) (off : BitVec 18) : BitVec 17 := x.cur + BitVec.ofInt 17 off.toInt

/-- B (R53, R54, R70). -/
def execB (t : Fin 64) (sa : Fin 32) (cond : Fin 8) (off : BitVec 18) (s : State) : Res :=
  bundle t .flow s fun s => .next (s.withTile t fun x =>
    if condHolds x.evf (x.sreg sa) cond then x.branch (x.target off) else x.advance)

/-- BL (R53): when taken, s31 receives the byte address of the branch bundle + 64. -/
def execBl (t : Fin 64) (sa : Fin 32) (cond : Fin 8) (off : BitVec 18) (s : State) : Res :=
  bundle t .flow s fun s => .next (s.withTile t fun x =>
    if condHolds x.evf (x.sreg sa) cond then
      (x.later 1 31 (BitVec.ofNat 32 (x.cur.toNat * 16 + 64))).branch (x.target off)
    else x.advance)

/-- The bundle index of a byte address; bits [3:0] are ignored (R53, R66). DESIGN CHOICE (log entry 37): bundle indices are numbers modulo 2^17, so
bits [31:21] of the address are dropped, and the successor of bundle 131,071 and an SB target outside the scratchpad wrap. -/
def bundleOf (a : BitVec 32) : BitVec 17 := BitVec.ofNat 17 (a.toNat / 16)

/-- JR (R53). -/
def execJr (t : Fin 64) (sa : Fin 32) (s : State) : Res :=
  bundle t .flow s fun s => .next (s.withTile t fun x => x.branch (bundleOf (x.sreg sa)))

/-- RETI (R53, R75): back to IRA, with ie = 1 and inh = 0. -/
def execReti (t : Fin 64) (s : State) : Res :=
  bundle t .flow s fun s => .next (s.withTile t fun x => { x.branch (bundleOf x.ira) with ie := true, inh := false })

/-- EI (R53): interrupt sampling sees the new value one issue slot later (R60). -/
def execEi (t : Fin 64) (s : State) : Res :=
  sPlain t s fun x => { x with ie := true, eiHold := !x.ie }

/-- DI (R53). -/
def execDi (t : Fin 64) (s : State) : Res := sPlain t s fun x => { x with ie := false }

/-- Push a loop of `len` bundles and `n` iterations, or skip its body when n = 0 (R71); a fifth level faults with loop_ovf. DESIGN CHOICE (log
entry 37): a DO or DOR that is itself the last bundle of an enclosing body goes on at the bundle after it, without the enclosing loop-back or
count, and the enclosing level stays active. -/
def State.pushLoop (s : State) (t : Fin 64) (i : Bool) (len : Nat) (n : Nat) : State :=
  let x := s.tile t
  let stop := x.cur + BitVec.ofNat 17 len
  if n = 0 then s.withTile t fun x => x.goSeq stop
  else if x.loops.length ≥ 4 then s.tileFault t (TIL_CAUSE.loop_ovf t)
  else s.withTile t fun x =>
    { x with loops := ⟨BitVec.ofNat 32 n, x.cur + 1, stop, i⟩ :: x.loops, pc := x.cur + 1, loopBack := false }

/-- DO (R71): `len` and `count` are encoded less 1. -/
def execDoLoop (t : Fin 64) (i : Bool) (len : Fin 512) (count : Fin 65536) (s : State) : Res :=
  bundle t .flow s fun s => .next (s.pushLoop t i (len + 1) (count + 1))

/-- DOR (R71): the count is the u32 value of sa. -/
def execDor (t : Fin 64) (i : Bool) (len : Fin 512) (sa : Fin 32) (s : State) : Res :=
  bundle t .flow s fun s => .next (s.pushLoop t i (len + 1) ((s.tile t).sreg sa).toNat)

/-- Repeat the next bundle `n` times, or skip it when n = 0 (R72). DESIGN CHOICE (log entry 37): an RPT or RPTR that is itself the last bundle of
an active body makes the loop-back first, so that the repeated bundle is the body's first one. -/
def Tile.repeatNext (x : Tile) (n : Nat) : Tile :=
  let y := x.goSeq x.cur
  if n = 0 then y.goSeq y.pc else { y with rpt := some n }

/-- RPT (R72): `count` is encoded less 1. -/
def execRpt (t : Fin 64) (count : Fin 65536) (s : State) : Res :=
  bundle t .flow s fun s => .next (s.withTile t fun x => x.repeatNext (count + 1))

/-- RPTR (R72): values above 65,536 count as 65,536. -/
def execRptr (t : Fin 64) (sa : Fin 32) (s : State) : Res :=
  bundle t .flow s fun s => .next (s.withTile t fun x => x.repeatNext (min 65536 (x.sreg sa).toNat))

/-- The core stops after its issued bundles complete, with TIL_STAT.state `k` (R409). -/
def Tile.stopWith (x : Tile) (k : Fin 8) : Tile := { x with stopping := some k }

/-- WAITE (R73): with the flag set the bundle executes and `c` clears the flag; otherwise it waits at D and executes none of its
slots, the boundary before it staying the loop-back that it was (R75), and under yreq outside any loop the core stops there (R250). -/
def execWaite (t : Fin 64) (k : Fin 32) (c : Bool) (s₀ : State) : Res :=
  bundle t .waits s₀ fun s =>
    if (s.tile t).evf.getLsbD k then
      let s := if c then s.clearEvfs t (BitVec.ofNat 32 (2 ^ k.val)) else s
      .next (s.withTile t fun x => { x.advance with awaited := none })
    else
      let s := (s.put (TIL_STAT.state t) 2).withTile t fun x => { x with skip := true, awaited := some k, loopBack := (s₀.tile t).loopBack }
      if s.flag (TIL_CTL.yreq t) && (s.tile t).loops.isEmpty then .next (s.withTile t fun x => x.stopWith 4)
      else .next s

/-- YIELD (R73): a NOP, unless yreq = 1 outside any loop, when the core stops after this bundle. -/
def execYield (t : Fin 64) (s : State) : Res :=
  bundle t .waits s fun s =>
    let stop := s.flag (TIL_CTL.yreq t) && (s.tile t).loops.isEmpty
    .next (s.withTile t fun x => if stop then x.advance.stopWith 4 else x.advance)

/-- WAITV (R73): with the queue of R58 empty, which an operation leaves when it is complete, the bundle executes; otherwise it waits at D as
WAITE does. -/
def execWaitv (t : Fin 64) (s₀ : State) : Res :=
  bundle t .waits s₀ fun s =>
    if (s.tile t).vq.isEmpty then .next (s.withTile t Tile.advance)
    else .next ((s.put (TIL_STAT.state t) 3).withTile t fun x => { x with skip := true, loopBack := (s₀.tile t).loopBack })

/-- HALT (R73): the bundle executes and the core stops; TIL_STAT.pc keeps naming it. -/
def execHalt (t : Fin 64) (s : State) : Res :=
  bundle t .flow s fun s => .next (s.withTile t fun x => x.stopWith 0)

/-- BAD_OP_BUNDLE (R52, R77): a bundle that holds a reserved opcode or field encoding executes none of its slots and faults the
tile with bad_op; a bundle without one is not this command's. -/
def execBadOpBundle (t : Fin 64) (w : BitVec 128) (s : State) : Res :=
  if (decodeBundle t w).isSome then .next s
  else bundle t .plain s fun s => .next (s.tileFault t (TIL_CAUSE.bad_op t))

/-- The loop conditions of an interrupt point (R75): no loop is active, or the boundary is the loop-back of the outermost one with i = 1. -/
def Tile.loopPoint (x : Tile) : Bool :=
  match x.loops with
  | [] => true
  | [l] => x.loopBack && l.intr
  | _ => false

/-- The boundary before the next bundle is an interrupt point apart from CST.ie (R75). -/
def Tile.stopPoint (x : Tile) : Bool := x.delay.isNone && x.rpt.isNone && x.loopPoint

/-- Tile `t` is in a ck in which WAITE or WAITV waits. -/
def State.waits (s : State) (t : Fin 64) : Bool := s.get (TIL_STAT.state t) = 2 || s.get (TIL_STAT.state t) = 3

/-- The boundary before the next bundle, or the ck in which WAITE or WAITV waits, is an interrupt point (R75). -/
def State.intPoint (s : State) (t : Fin 64) : Bool :=
  let x := s.tile t
  x.ie && !x.eiHold && (x.stopPoint || (s.waits t && x.loopPoint))

/-- INTERRUPT (R75): at an interrupt point with an enabled flag set, IRA takes the next bundle's byte address, ie clears, inh sets,
3 empty issue slots pass and the handler is next; the loop stack is kept. DESIGN CHOICE (log entry 37): an interrupt taken while WAITE or WAITV
waits in a delay slot drops the branch on its way, so that RETI goes on from the waiting bundle in sequence. -/
def execInterrupt (t : Fin 64) (s : State) : Res :=
  if !s.tileRuns t then .next s
  else
    let x := s.tile t
    if s.intPoint t && (x.evf &&& x.ien) ≠ 0 then
      let s := s.withTile t fun x =>
        { iter Tile.nextSlot 3 x with
            ira := BitVec.ofNat 32 (x.pc.toNat * 16), ie := false, inh := true, awaited := none, delay := none,
            pc := BitVec.ofNat 17 (s.get (TIL_VEC.idx t)), loopBack := false }
      .next (s.put (TIL_STAT.state t) 1)
    else .next s

/-- Start tile `t` at bundle `pc` (R51, R409). -/
def State.startTile (s : State) (t : Fin 64) (pc : Nat) : State :=
  let s := s.withTile t fun x =>
    { x with loops := [], ie := false, inh := false, pc := BitVec.ofNat 17 pc, cur := BitVec.ofNat 17 pc, pend := [], pmods := [],
             mtc := [], delay := none, rpt := none, eiHold := false, loopBack := false, sOld := none, skip := true,
             stopping := none, awaited := none, halted := false, preStop := false }
  ((s.put (TIL_CTL.run t) 1).put (TIL_STAT.state t) 1).put (TIL_STAT.pc t) pc

/-- Resume tile `t` at its saved pc, with the loop stack and the status bits of its image (R249, R409). -/
def State.resumeTile (s : State) (t : Fin 64) : State :=
  let pc := s.get (TIL_STAT.pc t)
  let s := s.withTile t fun x =>
    { x with pc := BitVec.ofNat 17 pc, cur := BitVec.ofNat 17 pc, pend := [], pmods := [], mtc := [], delay := none, rpt := none,
             eiHold := false, loopBack := false, sOld := none, skip := true, stopping := none, awaited := none, halted := false,
             preStop := false }
  (s.put (TIL_CTL.run t) 1).put (TIL_STAT.state t) 1

/-- TILE_START (R409): a write of run from 0 to 1 starts at TIL_ENTRY, or, for a resume by the context unit, at the saved pc. -/
def execTileStart (t : Fin 64) (resume : Bool) (s : State) : Res := accessTile t s fun s =>
  if s.flag (TIL_CTL.run t) then .next s
  else .next (if resume then s.resumeTile t else s.startTile t (s.get (TIL_ENTRY.idx t)))

/-- Halt tile `t` at once and discard its issued bundles (TIL_CTL.run written 0): writes that no bundle could see yet are dropped, those
of an accumulator that MVA could not see among them, and the V-slot operations that are queued. DESIGN CHOICE (log entry 37): TIL_STAT.pc, "the
bundle at which execution stopped", names the next bundle to issue, not the one in progress. -/
def State.haltTile (s : State) (t : Fin 64) : State :=
  if s.flag (TIL_CTL.run t) then
    let s := s.withTile t fun x =>
      { x with acc := x.accView, vq := [], undo := none, pend := [], pmods := [], mtc := [], delay := none, rpt := none, skip := true, stopping := none,
               awaited := none, halted := true, preStop := false }
    ((s.put (TIL_CTL.run t) 0).put (TIL_STAT.state t) 0).put (TIL_STAT.pc t) (s.tile t).pc.toNat
  else s

/-- TILE_HALT_WRITE (R409). -/
def execTileHaltWrite (t : Fin 64) (s : State) : Res := accessTile t s fun s => .next (s.haltTile t)

/-- YREQ_WRITE (R250): TIL_CTL.yreq. -/
def execYreqWrite (t : Fin 64) (v : Bool) (s : State) : Res := accessTile t s fun s => .next (s.put (TIL_CTL.yreq t) v.toNat)

/-- TIL_EVS_WRITE (R74): each bit written 1 sets its event flag. -/
def execTilEvsWrite (t : Fin 64) (f : BitVec 32) (s : State) : Res := accessTile t s fun s => .next (s.setEvfs t f)

/-- Complete the stop of tile `t` (R409): once its V-slot operations have completed (R93) the issued bundles have too, run clears and
TIL_STAT.state is set; after a yield TIL_STAT.pc names the bundle at which execution resumes. DESIGN CHOICE (log entry 37): a stop at a YIELD, or at a
WAITE under yreq, in a delay slot drops the taken branch on its way, and execution resumes at TIL_STAT.pc in sequence. -/
def State.stopTile (s : State) (t : Fin 64) : State :=
  match (s.tile t).stopping, (s.tile t).vq with
  | none, _ => s
  | _, _ :: _ => s
  | some k, [] =>
    let s := s.withTile t fun x =>
      { x.settle with stopping := none, skip := true, delay := none, rpt := none, preStop := false, halted := decide (k ≠ 4),
                      awaited := if k = 4 then x.awaited else none }
    let s := (s.put (TIL_CTL.run t) 0).put (TIL_STAT.state t) k.val
    if k = 4 then s.put (TIL_STAT.pc t) (s.tile t).pc.toNat else s

end Sys2Proof.Machine
end

