-- ==== Sys2Proof/Machine/Image.lean ====
section
/-! DEFINITION. The register image of a tile: the layout of its 128 KiB in the range, and reading and writing it (chapters 05 and 10, R100,
R246, R407, R408). -/

namespace Sys2Proof.Machine

/-- A piece of an image: offset, bytes, value. -/
abbrev Piece := Nat × Nat × Nat

/-- The words of a run of registers of `n` bytes each from an offset. -/
def runPieces (off n : Nat) (l : List Nat) : List Piece := l.zipIdx.map fun (v, i) => (off + n * i, n, v)

/-- Level `k` of the loop stack, outermost first. -/
def loopPieces (l : TLoop) (k : Nat) : List Piece :=
  [(0x1B8 + 16 * k, 4, l.cnt.toNat), (0x1BC + 16 * k, 4, l.start.toNat), (0x1C0 + 16 * k, 4, l.stop.toNat),
    (0x1C4 + 16 * k, 4, l.intr.toNat)]

/-- The core state part (R407). -/
def State.corePieces (s : State) (t : Fin 64) : List Piece :=
  let x := s.tile t
  runPieces 0 4 (0 :: (x.s.toList.drop 1).map BitVec.toNat) ++ runPieces 0x80 4 (x.p.toList.map BitVec.toNat)
    ++ runPieces 0xC0 4 (x.m.toList.map BitVec.toNat) ++ runPieces 0xE0 4 (x.cb.toList.map BitVec.toNat)
    ++ runPieces 0x100 4 (x.cl.toList.map BitVec.toNat)
    ++ runPieces 0x120 16 (x.acc.toList.map fun a => uCast 128 a.toInt)
    ++ [(0x1A0, 4, x.cst.toNat), (0x1A4, 4, x.circ.toNat), (0x1A8, 4, x.ien.toNat), (0x1AC, 4, x.evf.toNat),
        (0x1B0, 4, x.ira.toNat), (0x1B4, 4, x.loops.length)]
    ++ (x.loops.reverse.zipIdx.map fun (l, k) => loopPieces l k).flatten
    ++ [(0x1F8, 4, s.get (TIL_STAT.pc t)), (0x1FC, 4, s.get (TIL_STAT.state t)), (0x200, 4, x.halted.toNat),
        (0x204, 4, match x.awaited with | some k => 2 ^ 31 + k.val | none => 0),
        (0x208, 4, (s.word (TIL_ENTRY.reg t)).toNat), (0x20C, 4, (s.word (TIL_VEC.reg t)).toNat),
        (0x210, 4, (s.word (TIL_VCTB.reg t)).toNat), (0x214, 4, (s.word (TIL_CMT.reg t)).toNat)]

/-- The masks and vector registers (R246). -/
def Tile.vectorPieces (x : Tile) : List Piece :=
  runPieces 0x800 8 (x.k.toList.map BitVec.toNat) ++ runPieces 0x1000 256 (x.v.toList.map BitVec.toNat)

/-- Operand tile `k` of the matrix image (R408). -/
def MTile.pieces (m : MTile) (k : Nat) : List Piece :=
  let o := 0x3000 + 4288 * k
  [(o, 4096, m.data.toNat), (o + 4096, 128, m.scale.toNat), (o + 4224, 1, m.zp.toNat), (o + 4225, 1, m.sgn.toNat)]

/-- Accumulator bank `b` of the matrix image (R408): a row of 64 entries of 6 bytes is 384 bytes. -/
def MBank.pieces (m : MBank) (b : Nat) : List Piece :=
  let o := 0x3000 + 17152 + 25152 * b
  runPieces o 384 (m.cells.toList.map BitVec.toNat)
    ++ [(o + 24576, 128, m.sa.toNat), (o + 24704, 128, m.sb.toNat), (o + 24832, 256, m.rt.toNat), (o + 25088, 1, m.fmt.toNat)]

/-- The whole register image of tile `t`; every byte outside the pieces is 0. -/
def State.imagePieces (s : State) (t : Fin 64) : List Piece :=
  let x := s.tile t
  s.corePieces t ++ x.vectorPieces ++ (x.mt.toList.zipIdx.map fun (m, k) => m.pieces k).flatten
    ++ (x.ab.toList.zipIdx.map fun (m, b) => m.pieces b).flatten

/-- Bytes of a register image. -/
def imageBytes : Nat := 0x20000

/-- Write the register image of tile `t` at scratchpad address `a` (R246). -/
def State.writeImage (s : State) (t : Fin 64) (a : Nat) : State :=
  (s.imagePieces t).foldl (fun u (o, n, v) => if v = 0 then u else u.setLe (spad t (a + o)) n v) (s.clearRange (spad t a) imageBytes)

/-- The operand tile that an image holds. -/
def readMTile (rd : Nat → Nat → Nat) (k : Nat) : MTile :=
  let o := 0x3000 + 4288 * k
  { data := BitVec.ofNat _ (rd o 4096), scale := BitVec.ofNat _ (rd (o + 4096) 128), zp := BitVec.ofNat 8 (rd (o + 4224) 1)
    sgn := (rd (o + 4225) 1).testBit 0 }

/-- The accumulator bank that an image holds. -/
def readMBank (rd : Nat → Nat → Nat) (b : Nat) : MBank :=
  let o := 0x3000 + 17152 + 25152 * b
  { cells := Vector.ofFn (fun (i : Fin 64) => BitVec.ofNat 3072 (rd (o + 384 * i.val) 384)), fmt := BitVec.ofNat 4 (rd (o + 25088) 1)
    sa := BitVec.ofNat _ (rd (o + 24576) 128), sb := BitVec.ofNat _ (rd (o + 24704) 128), rt := BitVec.ofNat _ (rd (o + 24832) 256) }

/-- The loop level that an image holds. -/
def readLoop (rd : Nat → Nat → Nat) (k : Nat) : TLoop :=
  { cnt := BitVec.ofNat 32 (rd (0x1B8 + 16 * k) 4), start := BitVec.ofNat 17 (rd (0x1BC + 16 * k) 4)
    stop := BitVec.ofNat 17 (rd (0x1C0 + 16 * k) 4), intr := (rd (0x1C4 + 16 * k) 4).testBit 0 }

/-- Read the register image at scratchpad address `a` into tile `t`: its registers, TIL_STAT, TIL_ENTRY, TIL_VEC, TIL_VCTB and
TIL_CMT (R246, R407). -/
def State.readImage (s : State) (t : Fin 64) (a : Nat) : State :=
  let rd (o n : Nat) : Nat := s.le (spad t (a + o)) n
  let w32 (o i : Nat) : BitVec 32 := BitVec.ofNat 32 (rd (o + 4 * i) 4)
  let acc : Vector (BitVec 80) 8 := Vector.ofFn fun (i : Fin 8) => BitVec.ofNat 80 (rd (0x120 + 16 * i.val) 10)
  let cst := rd 0x1A0 4
  let aw := rd 0x204 4
  let s1 := s.withTile t fun x =>
    { x with
        s := (Vector.ofFn fun (i : Fin 32) => w32 0 i).set 0 0
        p := Vector.ofFn fun (i : Fin 16) => w32 0x80 i
        m := Vector.ofFn fun (i : Fin 8) => w32 0xC0 i
        cb := Vector.ofFn fun (i : Fin 8) => w32 0xE0 i
        cl := Vector.ofFn fun (i : Fin 8) => w32 0x100 i
        acc := acc, accView := acc
        ie := cst.testBit 0, sat := cst.testBit 1, aov := cst.testBit 2, inh := cst.testBit 3
        circ := w32 0x1A4 0, ien := w32 0x1A8 0, evf := w32 0x1AC 0, ira := w32 0x1B0 0
        loops := ((List.range (min 4 (rd 0x1B4 4))).map (readLoop rd)).reverse
        halted := (rd 0x200 4).testBit 0
        awaited := if aw.testBit 31 then some (Fin.ofNat 32 aw) else none
        k := Vector.ofFn fun (i : Fin 8) => BitVec.ofNat 64 (rd (0x800 + 8 * i.val) 8)
        v := Vector.ofFn fun (i : Fin 32) => BitVec.ofNat 2048 (rd (0x1000 + 256 * i.val) 256)
        mt := Vector.ofFn fun (i : Fin 4) => readMTile rd i
        ab := Vector.ofFn fun (i : Fin 4) => readMBank rd i
        pend := [], pmods := [], mtc := [], delay := none, rpt := none }
  let s2 := ((s1.put (TIL_STAT.pc t) (rd 0x1F8 4)).put (TIL_STAT.state t) (rd 0x1FC 4)).put (TIL_ENTRY.idx t) (rd 0x208 4)
  let s3 := (s2.put (TIL_VEC.idx t) (rd 0x20C 4)).put (TIL_VCTB.base t) (rd 0x210 4 / 2 ^ 14)
  (s3.put (TIL_CMT.n t) (rd 0x214 4 / 2 ^ 21)).put (TIL_CMT.base t) (rd 0x214 4 / 2 ^ 6)

end Sys2Proof.Machine
end

