-- ==== Sys2Proof/Machine/Monitor.lean ====
section
/-! DEFINITION. The deadline monitor: watch records, budgets, fires and closes (chapter 09, R227 to R234). -/

namespace Sys2Proof.Machine

/-- Watch `w`. -/
def State.watch (s : State) (w : Fin 128) : Watch := s.cx.watch[w.val]

/-- Replace the context unit. -/
def State.withCx (s : State) (f : Contexts → Contexts) : State := { s with cx := f s.cx }

/-- Replace watch `w`. -/
def State.withWatch (s : State) (w : Fin 128) (f : Watch → Watch) : State :=
  s.withCx fun c => { c with watch := c.watch.set w.val (f c.watch[w.val]) }

/-- The state code of a watch: 0 FREE, 1 ARMED, 2 RUN, 3 OUT, 4 SHADOW. -/
def State.wstate (s : State) (w : Fin 128) : Nat := s.get (CTX_DMON_STATw.state w)

/-- The watch that a job armed, while it is not FREE. -/
def State.watchOf (s : State) (j : Job) : Option (Fin 128) :=
  match j.watch with
  | some w => if s.wstate w ≠ 0 && (s.watch w).seq = j.seq then some w else none
  | none => none

/-- R[m]. -/
def Watch.r (x : Watch) (m : Nat) : Nat := nthD x.lat m 0

/-- B of R229: the budget in ck at the present air time. -/
def State.wbudget (s : State) (x : Watch) : Nat :=
  (max (airDiff x.deadline (s.atNow x.tl)) 0).toNat * 6875 / 1536

/-- The shedding level that acts (R332): levels 1 and 2 act only with shed = 1. -/
def State.shedLevel (s : State) : Nat :=
  let l := s.get PWR_THM_STAT.level
  if l < 3 && !s.flag PWR_THM_CFG.shed then 0 else l

/-- Evaluate watch `w` with E − t_d = `et` (R229): the slack is recorded; the budget when it fires. In RUN it no longer fires once the
final milestone has been seen. -/
def State.wdecide (s : State) (w : Fin 128) (et : Int) : State × Option Nat :=
  let x := s.watch w
  let b := s.wbudget x
  let slack := (b : Int) - et - s.get CTX_DMON_CFG.margin
  let s := s.put (CTX_DMON_STATw.slack w) (uCast 32 (sat slack (-(2 ^ 31)) (2 ^ 31 - 1)))
  if s.wstate w = 2 && x.nms ≥ 1 && s.get (CTX_DMON_STATw.m w) ≥ x.nms then (s, none)
  else if slack < 0 || (s.wstate w = 1 && s.shedLevel ≥ 2) then (s, some b) else (s, none)

/-- Set a monitor cause that CTX_DMON_LAST names (R227). -/
def State.wcause (s : State) (f : Fld) (w : Fin 128) : State := (s.raise f).put CTX_DMON_LAST.watch w

/-- An event that arrives `d` ck from now. -/
def State.schedule (s : State) (d : Nat) (k : EventKind) : State :=
  { s with orr := { s.orr with events := s.orr.events ++ [⟨s.mono + BitVec.ofNat 64 d, k⟩] } }

/-- Watch `w` pushes a next action into its pointer queue `d` ck from now; next = 0 pushes nothing (R227). -/
def State.pushLater (s : State) (w : Fin 128) (d : Nat) (a : BitVec 64) : State :=
  if (nextPtr a.toNat).next = 0 then s else s.withCx fun c => { c with pushes := c.pushes ++ [⟨s.mono + BitVec.ofNat 64 d, w, a⟩] }

/-- A fire with budget `b` (R230): the candidate is chosen, recorded and pushed 8 ck after the decision. -/
def State.wfire (s : State) (w : Fin 128) (b : Nat) : State :=
  let x := s.watch w
  let fits0 := 8 + x.tfb0 ≤ b
  let fits1 := x.two && 8 + x.tfb1 ≤ b
  let pick : Nat := if fits0 then 0 else if x.two then 1 else 0
  let late := !fits0 && !fits1
  let s := if late then s.wcause CTX_DMON_CAUSE.fb_late w else s
  let s := ((s.put (CTX_DMON_STATw.cand w) pick).put (CTX_DMON_STATw.fired w) 1).raise CTX_DMON_CAUSE.fired
  let s := s.withWatch w fun x => { x with outcome := 2 + pick, oflags := if late then x.oflags ||| 1 else x.oflags }
  s.pushLater w 8 (if pick = 0 then x.cand0 else x.cand1)

/-- Close watch `w` (R231): outcome, oflags and t_close go into the record, the close is counted, the watch is FREE. -/
def State.wclose (s : State) (w : Fin 128) : State :=
  let x := s.watch w
  let s := ((s.setLe (x.record + 52) 1 x.outcome).setLe (x.record + 53) 1 x.oflags.toNat).setLe (x.record + 54) 2 0
  let s := s.setLe (x.record + 56) 8 (s.atNow x.tl)
  let f := if x.outcome = 1 then CTX_DMON_NLRN.count else CTX_DMON_NFB.count
  (s.put f (satInc32 (s.get f))).put (CTX_DMON_STATw.state w) 0

/-- The job of watch `w` has ended (R231): RUN pushes succ, marks an overrun and closes as learned; SHADOW closes. -/
def State.wended (s : State) (w : Fin 128) : State :=
  let x := s.watch w
  if s.wstate w = 2 then
    let s := s.pushLater w 0 x.succ
    let past := airLater (s.atNow x.tl) x.deadline
    let s := if past then s.wcause CTX_DMON_CAUSE.overrun w else s
    (s.withWatch w fun x => { x with outcome := 1, oflags := if past then x.oflags ||| 2 else x.oflags }).wclose w
  else if s.wstate w = 4 then (s.withWatch w fun x => { x with oflags := x.oflags ||| 4 }).wclose w
  else s

/-- The job of watch `w` has faulted (R230, R231): it fires with B at this ck and closes; SHADOW only closes. -/
def State.wfaulted (s : State) (w : Fin 128) : State :=
  if s.wstate w = 4 then s.wclose w
  else ((s.wfire w (s.wbudget (s.watch w))).withWatch w fun x => { x with oflags := x.oflags ||| 8 }).wclose w

/-- A queued job was dropped while its watch was ARMED (R231). -/
def State.wdropped (s : State) (w : Fin 128) : State :=
  if s.wstate w = 1 then (s.wfire w (s.wbudget (s.watch w))).wclose w else s

/-- A cluster memory address in the form of R227: cluster in [26:24], offset below. -/
def recAddr (v : Nat) : Nat := clAddr (bitsOf v 0 27)

/-- An action of a watch record that R227 calls bad: a non-zero RSV field, or next ≠ 0 with a class outside 2 to 5. -/
def actionBad (a : Nat) : Bool :=
  let n := nextPtr a
  !n.ok || (n.next ≠ 0 && !(2 ≤ n.cls && n.cls ≤ 5))

/-- A watch record of 64 bytes that R227 calls bad; cand1 counts only when two = 1. -/
def recordBad (v : Nat) : Bool :=
  let f (b lo w : Nat) : Nat := bitsOf v (8 * b + lo) w
  f 4 0 8 > 63 || f 5 2 6 ≠ 0 || f 6 0 16 ≠ 0 || f 8 27 5 ≠ 0 || f 8 0 2 ≠ 0 || f 12 27 5 ≠ 0 || f 12 0 2 ≠ 0
    || actionBad (f 16 0 64) || actionBad (f 24 0 64) || (f 5 1 1 = 1 && actionBad (f 36 0 64))

/-- Arm watch `w` for job `seq` of context `n` (R227): the watch, or none when it cannot be armed, which sets bad. With
CTX_DMON_CFG.en = 0 the job runs without a watch. -/
def State.warm (s : State) (w : Fin 128) (n : Fin 256) (seq : Nat) (tl : Fin 8) (deadline : Option Nat) (record : Nat) :
    State × Option (Fin 128) :=
  if !s.flag CTX_DMON_CFG.en then (s, none)
  else
    let v := s.le record 64
    let s := s.checkRead record 64
    let f (b lo w : Nat) : Nat := bitsOf v (8 * b + lo) w
    match deadline with
    | none => (s.wcause CTX_DMON_CAUSE.bad w, none)
    | some dl =>
      if s.wstate w ≠ 0 || recordBad v then (s.wcause CTX_DMON_CAUSE.bad w, none)
      else
        let nms := f 4 0 8
        let rtab := recAddr (f 8 0 32)
        let prog := recAddr (f 12 0 32)
        let lat := (List.range (nms + 1)).map fun i => s.le (rtab + 4 * i) 4
        let s := s.checkRead rtab (4 * (nms + 1))
        let s := s.withWatch w fun _ =>
          { ctx := n, seq := seq, tl := tl, deadline := dl, record := record, nms := nms, onfire := f 5 0 1 = 1, two := f 5 1 1 = 1
            lat := lat, prog := prog, succ := BitVec.ofNat 64 (f 16 0 64), cand0 := BitVec.ofNat 64 (f 24 0 64)
            cand1 := BitVec.ofNat 64 (f 36 0 64), tfb0 := f 32 0 32, tfb1 := f 44 0 32, tst := f 48 0 32, tsw := 0, e := 0
            oflags := 0, outcome := 0, decided := none, seen := none, check := none }
        let s := (s.setWord (CTX_DMON_STATw.reg w) 1#32).setWord (CTX_DMON_STATw.reg w + 4) 0#32
        (s.setLe prog 4 0, some w)

/-- E − t_d of watch `w` at a decision in the present ck (R229). -/
def State.wet (s : State) (w : Fin 128) : Int :=
  let x := s.watch w
  let m := s.get (CTX_DMON_STATw.m w)
  match s.wstate w with
  | 1 => (x.tst + x.r 0 : Nat)
  | 2 => (x.e - s.mono).toInt
  | _ => (x.tsw + x.r m : Nat)

/-- The first ck at or after t_w at which port 14 meets the bank of the progress word (R120, R229), as a distance from t_w. -/
def portWait (prog tw : Nat) : Nat := (prog / 64 % 16 + 32 - 14 - tw % 16) % 16

/-- Read the progress word of watch `w` for the check of `tw` (R228, R229). -/
def State.wread (s : State) (w : Fin 128) (tw : BitVec 64) : State :=
  let x := s.watch w
  let v := min (s.le x.prog 1) x.nms
  let s := (s.checkRead x.prog 4).withWatch w fun x => { x with seen := some tw }
  if v > s.get (CTX_DMON_STATw.m w) then
    (s.put (CTX_DMON_STATw.m w) v).withWatch w fun x => { x with e := tw + 16 + BitVec.ofNat 64 (x.r v) }
  else s

end Sys2Proof.Machine
end

