-- ==== Sys2Proof/Machine/Vector.lean ====
section
/-! DEFINITION. The VV and VM operations of the vector unit (R84, R86 to R89). -/

namespace Sys2Proof.Machine

/-- N of a VV slot. -/
def vvN (f : VVec) : Nat := f.n.val + 1

/-! ## Memory operations (R84) -/

/-- Byte address of element `i` of a VM operation of stride `d`, low bits cleared to the element size (R84). -/
def vmAddr (p : Nat) (d : Int) (w i : Nat) : Nat :=
  let a := (((p : Int) + (i : Int) * d) % ((2 ^ 21 : Nat) : Int)).toNat
  a - a % (w / 8)

/-- The stride of a VM operation: 0 with sz, m(m) as `step` when strided, else the element size (R84). -/
def vmStride (step : BitVec 32) (f : VMem) (strided : Bool) : Int :=
  if f.sz then 0 else if strided then step.toInt else (tyWidth f.ty / 8 : Nat)

/-- ck of the beats of a VM operation: for each beat the greatest number of distinct lines of one bank that its enabled elements touch (R85). -/
def vmBeats (x : Tile) (k : Fin 8) (n : Nat) (addr : Nat → Nat) : Nat :=
  ((List.range (beats n)).map fun b =>
    let on := ((List.range (min 64 (n - 64 * b))).map (64 * b + ·)).filter (x.enabled k)
    let lines := (on.map fun i => addr i / 64).eraseDups
    (List.range 16).foldl (fun m bank => max m (lines.filter fun l => l % 16 = bank).length) 1).sum

/-- A vector load: enabled elements take the scratchpad's values, the others keep theirs. -/
def vLoad (t : Fin 64) (f : VMem) (e : VEntry) (strided : Bool) : VDef :=
  let w := tyWidth f.ty
  let n := f.n.val + 1
  let addr := vmAddr e.ptr.toNat (vmStride e.step f strided) w
  { ok := true
    guard := groupFault false (some (f.v, w, n)) []
    busy := fun s => vmBeats (s.tile t) f.k n addr + 6
    run := fun _ s =>
      let x := s.tile t
      let on := (List.range n).filter (x.enabled f.k)
      let es := (List.range n).map fun i => if x.enabled f.k i then some (s.vLe t (addr i) (w / 8)) else none
      let s := s.portErrors t (on.map addr)
      .next (s.withTile t fun x => x.setElems f.v w es) }

/-- A vector store: enabled elements are written in ascending order, so with stride 0 the enabled element of highest index remains. -/
def vStore (t : Fin 64) (f : VMem) (e : VEntry) (strided : Bool) : VDef :=
  let w := tyWidth f.ty
  let n := f.n.val + 1
  let addr := vmAddr e.ptr.toNat (vmStride e.step f strided) w
  { ok := true
    guard := groupFault false none [(f.v, w, n)]
    busy := fun s => vmBeats (s.tile t) f.k n addr + 2
    run := fun _ s =>
      let x := s.tile t
      .next ((List.range n).foldl (fun s i => if x.enabled f.k i then s.vSetLe t (addr i) (w / 8) (x.elem f.v w i) else s) s) }

/-- VLD (R84). -/
def opVld (t : Fin 64) (f : VMem) (e : VEntry) : VDef := vLoad t f e false
/-- VST (R84). -/
def opVst (t : Fin 64) (f : VMem) (e : VEntry) : VDef := vStore t f e false
/-- VLDS: the stride is m(m) (R84). -/
def opVlds (t : Fin 64) (f : VMem) (e : VEntry) : VDef := vLoad t f e true
/-- VSTS: the stride is m(m) (R84). -/
def opVsts (t : Fin 64) (f : VMem) (e : VEntry) : VDef := vStore t f e true

/-! ## Element-wise operations (R86) -/

/-- A VV operation of `busy` ck that writes the elements `es`, of `w` bits, of the group at vd under the mask (R83). -/
def vWrite (t : Fin 64) (f : VVec) (ok : Bool) (guard : Option Fault) (busy w : Nat) (es : Tile → List Nat) : VDef :=
  { ok := ok, guard := guard, busy := fun _ => busy,
    run := fun _ s => .next (s.withTile t fun x => x.setElems f.vd w (x.masked f.k f.km (es x))) }

/-- The latency of VADD to VNEG and their like: 5 ck in float, else 3 (R92). -/
def addLat (f : VVec) : Nat := if tyFloat f.ty then 5 else 3

/-- An element-wise operation of latency `lat` on va and vb. -/
def vBin (t : Fin 64) (f : VVec) (ok : Bool) (lat : Nat) (g : Nat → Nat → Nat) : VDef :=
  let w := tyWidth f.ty
  let n := vvN f
  vWrite t f ok (groupFault true (some (f.vd, w, n)) [(f.va, w, n), (f.vb, w, n)]) (beats n + lat) w fun x =>
    (List.range n).map fun i => g (x.elem f.va w i) (x.elem f.vb w i)

/-- An element-wise operation of latency `lat` on va alone. -/
def vUn (t : Fin 64) (f : VVec) (ok : Bool) (lat : Nat) (g : Nat → Nat) : VDef :=
  let w := tyWidth f.ty
  let n := vvN f
  vWrite t f ok (groupFault true (some (f.vd, w, n)) [(f.va, w, n)]) (beats n + lat) w fun x => (List.range n).map fun i => g (x.elem f.va w i)

/-- int and float. -/
def okIF (f : VVec) : Bool := !tyCplx f.ty
/-- int and ci16. -/
def okIC (f : VVec) : Bool := !tyFloat f.ty

/-- VADD (R86). -/
def opVadd (t : Fin 64) (f : VVec) : VDef := vBin t f true (addLat f) (elemOp f.ty (· + ·) FV.add wrapTy)
/-- VSUB (R86). -/
def opVsub (t : Fin 64) (f : VVec) : VDef := vBin t f true (addLat f) (elemOp f.ty (· - ·) FV.sub wrapTy)
/-- VMUL: int keeps the low w bits (R86). -/
def opVmul (t : Fin 64) (f : VVec) : VDef := vBin t f (okIF f) 5 (elemOp f.ty (· * ·) FV.mul wrapTy)
/-- VMULH: the high w bits of the 2w-bit product (R86). -/
def opVmulh (t : Fin 64) (f : VVec) : VDef :=
  vBin t f (tyInt f.ty) 5 fun a b => wrapTy f.ty (tyVal f.ty a * tyVal f.ty b / (2 ^ tyWidth f.ty : Nat))
/-- VMIN (R86). -/
def opVmin (t : Fin 64) (f : VVec) : VDef := vBin t f (okIF f) (addLat f) (pickBits f.ty false)
/-- VMAX (R86). -/
def opVmax (t : Fin 64) (f : VVec) : VDef := vBin t f (okIF f) (addLat f) (pickBits f.ty true)
/-- VABS: int wraps (R86). -/
def opVabs (t : Fin 64) (f : VVec) : VDef :=
  vUn t f (okIF f) (addLat f) fun a => if tyInt f.ty then wrapTy f.ty (tyVal f.ty a).natAbs else absBits (tyWidth f.ty) a
/-- VNEG: int and ci16 components wrap (R86). -/
def opVneg (t : Fin 64) (f : VVec) : VDef :=
  vUn t f true (addLat f) fun a =>
    if tyInt f.ty then wrapTy f.ty (-tyVal f.ty a)
    else if tyFloat f.ty then negBits (tyWidth f.ty) a
    else mkCplx (-(cplx a).1) (-(cplx a).2)
/-- VADDS: saturating (R86). -/
def opVadds (t : Fin 64) (f : VVec) : VDef := vBin t f (okIC f) 3 (elemOp f.ty (· + ·) FV.add satTy)
/-- VSUBS: saturating (R86). -/
def opVsubs (t : Fin 64) (f : VVec) : VDef := vBin t f (okIC f) 3 (elemOp f.ty (· - ·) FV.sub satTy)
/-- VAND (R86). -/
def opVand (t : Fin 64) (f : VVec) : VDef := vBin t f true 3 Nat.land
/-- VOR (R86). -/
def opVor (t : Fin 64) (f : VVec) : VDef := vBin t f true 3 Nat.lor
/-- VXOR (R86). -/
def opVxor (t : Fin 64) (f : VVec) : VDef := vBin t f true 3 Nat.xor
/-- VSLL by b mod 32; an amount at or above w gives 0 (R82, R86). -/
def opVsll (t : Fin 64) (f : VVec) : VDef :=
  vBin t f (tyInt f.ty) 3 fun a b => (a <<< (b % 32)) % 2 ^ tyWidth f.ty
/-- VSRL by b mod 32 (R82, R86). -/
def opVsrl (t : Fin 64) (f : VVec) : VDef := vBin t f (tyInt f.ty) 3 fun a b => a >>> (b % 32)
/-- VSRA by b mod 32: the sign fill is the element's top bit (R82, R86). -/
def opVsra (t : Fin 64) (f : VVec) : VDef :=
  vBin t f (tyInt f.ty) 3 fun a b => wrapTy f.ty (sCast (tyWidth f.ty) a / (2 ^ (b % 32) : Nat))

/-- VMAC: d + a × b with one rounding in float (R86). -/
def opVmac (t : Fin 64) (f : VVec) : VDef :=
  let w := tyWidth f.ty
  let n := vvN f
  vWrite t f (okIF f) (groupFault true (some (f.vd, w, n)) [(f.va, w, n), (f.vb, w, n)]) (beats n + 5) w fun x =>
    (List.range n).map fun i =>
      let (a, b, d) := (x.elem f.va w i, x.elem f.vb w i, x.elem f.vd w i)
      if tyInt f.ty then wrapTy f.ty (tyVal f.ty d + tyVal f.ty a * tyVal f.ty b)
      else
        let dec := (tyFmt f.ty).dec
        (tyFmt f.ty).enc (FV.fma (dec d) (dec a) (dec b))

/-- A rounded, saturated complex product (R86). -/
def cmulRound (ar ai br bi : Int) : Nat :=
  let q (v : Int) : Int := sat (rne ((v : Rat) / 32768)) (-32768) 32767
  mkCplx (q (ar * br - ai * bi)) (q (ar * bi + ai * br))
/-- VCMUL (R86). -/
def opVcmul (t : Fin 64) (f : VVec) : VDef :=
  vBin t f (tyCplx f.ty) 5 fun a b => cmulRound (cplx a).1 (cplx a).2 (cplx b).1 (cplx b).2
/-- VCMULJ: conj(b) (R86). -/
def opVcmulj (t : Fin 64) (f : VVec) : VDef :=
  vBin t f (tyCplx f.ty) 5 fun a b => cmulRound (cplx a).1 (cplx a).2 (cplx b).1 (-(cplx b).2)

/-- VSEL: a k field of 0 names k0, every element is written, km is ignored (R86). -/
def opVsel (t : Fin 64) (f : VVec) : VDef :=
  let w := tyWidth f.ty
  let n := vvN f
  { ok := true, guard := groupFault true (some (f.vd, w, n)) [(f.va, w, n), (f.vb, w, n)], busy := fun _ => beats n + 3,
    run := fun _ s => .next (s.withTile t fun x => x.setElems f.vd w ((List.range n).map fun i =>
      some (if x.k[f.k.val].getLsbD (i % 64) then x.elem f.va w i else x.elem f.vb w i))) }

/-- VMOV (R86). -/
def opVmov (t : Fin 64) (f : VVec) : VDef := vUn t f true 3 id

/-- An element comparison that writes all ones or 0 (R86). -/
def vCmp (t : Fin 64) (f : VVec) (ok : Bool) (c : Bool → Bool → Bool) : VDef :=
  vBin t f ok 3 fun a b => if compare2 f.ty c a b then 2 ^ tyWidth f.ty - 1 else 0
/-- VCEQ (R86). -/
def opVceq (t : Fin 64) (f : VVec) : VDef := vCmp t f true fun _ eq => eq
/-- VCLT (R86). -/
def opVclt (t : Fin 64) (f : VVec) : VDef := vCmp t f (okIF f) fun lt _ => lt
/-- VCLE (R86). -/
def opVcle (t : Fin 64) (f : VVec) : VDef := vCmp t f (okIF f) fun lt eq => lt || eq

/-- A comparison into mask k(vd[2:0]) over the first min(N, 64) elements; other bits and disabled elements give 0 (R86). -/
def vMaskCmp (t : Fin 64) (f : VVec) (ok : Bool) (c : Bool → Bool → Bool) : VDef :=
  let w := tyWidth f.ty
  let n := vvN f
  { ok := ok, guard := groupFault true none [(f.va, w, n), (f.vb, w, n)], busy := fun _ => 4,
    run := fun _ s => .next (s.withTile t fun x =>
      let m := (List.range (min n 64)).foldl (fun m j =>
        if x.enabled f.k j && compare2 f.ty c (x.elem f.va w j) (x.elem f.vb w j) then m + 2 ^ j else m) 0
      { x with k := x.k.set (f.vd.val % 8) (BitVec.ofNat 64 m) (Nat.mod_lt _ (by decide)) }) }
/-- VMEQ (R86). -/
def opVmeq (t : Fin 64) (f : VVec) : VDef := vMaskCmp t f true fun _ eq => eq
/-- VMLT (R86). -/
def opVmlt (t : Fin 64) (f : VVec) : VDef := vMaskCmp t f (okIF f) fun lt _ => lt
/-- VMLE (R86). -/
def opVmle (t : Fin 64) (f : VVec) : VDef := vMaskCmp t f (okIF f) fun lt eq => lt || eq

/-- VCVT to the type coded in vb[2:0] (R86); ci16 is no type of it. -/
def opVcvt (t : Fin 64) (f : VVec) : VDef :=
  let ty2 := f.vb.val % 8
  let n := vvN f
  let w2 := tyWidth ty2
  vWrite t f (okIF f && !tyCplx ty2) (groupFault true (some (f.vd, w2, n)) [(f.va, tyWidth f.ty, n)]) (beats n + 5) w2 fun x =>
    (x.elems f.va (tyWidth f.ty) n).map (convert f.ty ty2)

/-! ## Pack and unpack (R89) -/

/-- Pack f32 elements of va into codes of `w` bits with the scale in lane 0 and the zero point in lane 1 of vb; the enabled elements
that saturate count into the counter that ty names. -/
def vPack (t : Fin 64) (f : VVec) (w : Nat) (enc : FV → FV → Int → Coded) : VDef :=
  let n := vvN f
  { ok := true, guard := groupFault false (some (f.vd, w, n)) [(f.va, 32, n), (f.vb, 32, 1)], busy := fun _ => beats n + 5,
    run := fun _ s =>
      let x := s.tile t
      let scale := f32.dec (x.elem f.vb 32 0)
      let zp := sCast 32 (x.elem f.vb 32 1)
      let cs := (x.elems f.va 32 n).map (fun e => enc (f32.dec e) scale zp)
      let sats := ((cs.zip (List.range n)).filter (fun p => p.1.2 && x.enabled f.k p.2)).length
      let s := s.withTile t fun x => x.setElems f.vd w (x.masked f.k f.km (cs.map (·.1)))
      .next (s.countSat t f.ty sats) }
/-- VPK.GN4 (R89). -/
def opVpkGn4 (t : Fin 64) (f : VVec) : VDef := vPack t f 4 fun x sc _ => gn4Enc x sc
/-- VPK.CT8 (R89). -/
def opVpkCt8 (t : Fin 64) (f : VVec) : VDef := vPack t f 8 fun x sc _ => ct8Enc x sc
/-- VPK.S8 (R89). -/
def opVpkS8 (t : Fin 64) (f : VVec) : VDef := vPack t f 8 fun x sc zp => i8Enc x sc zp true
/-- VPK.U8 (R89). -/
def opVpkU8 (t : Fin 64) (f : VVec) : VDef := vPack t f 8 fun x sc zp => i8Enc x sc zp false

/-- Unpack codes of `w` bits of va to f32: a code that stands for 0 by itself gives 0 whatever the scale. -/
def vUnpack (t : Fin 64) (f : VVec) (w : Nat) (zero : Nat → Bool) (real : Nat → Int → Rat) : VDef :=
  let n := vvN f
  vWrite t f true (groupFault false (some (f.vd, 32, n)) [(f.va, w, n), (f.vb, 32, 1)]) (beats n + 5) 32 fun x =>
    let scale := f32.dec (x.elem f.vb 32 0)
    let zp := sCast 32 (x.elem f.vb 32 1)
    (x.elems f.va w n).map (fun c => if zero c then 0 else f32.enc (scaleBy scale (real c zp)))
/-- VUPK.GN4 (R89): code 0b1000 decodes as 0 whatever the scale. -/
def opVupkGn4 (t : Fin 64) (f : VVec) : VDef := vUnpack t f 4 (fun c => c = 8) fun c _ => gn4Real c
/-- VUPK.CT8 (R89): codes 0 and 0x80 decode as 0 whatever the scale. -/
def opVupkCt8 (t : Fin 64) (f : VVec) : VDef := vUnpack t f 8 (fun c => c % 128 = 0) fun c _ => ct8Real c
/-- VUPK.S8 (R89). -/
def opVupkS8 (t : Fin 64) (f : VVec) : VDef := vUnpack t f 8 (fun _ => false) fun c zp => i8Real c zp true
/-- VUPK.U8 (R89). -/
def opVupkU8 (t : Fin 64) (f : VVec) : VDef := vUnpack t f 8 (fun _ => false) fun c zp => i8Real c zp false

/-! ## Permutes and shuffles (R87) -/

/-- A permute or shuffle: `src` gives the source index of element i from index vector element i and from lane 0 of vb; indices
outside 0 to N − 1 read 0; `bs` gives its beats from B. -/
def vShuffle (t : Fin 64) (f : VVec) (vbGroup : Nat × Nat × Nat) (bs : Nat → Nat) (src : (i n idx lane : Nat) → Int) : VDef :=
  let w := tyWidth f.ty
  let n := vvN f
  vWrite t f true (groupFault false (some (f.vd, w, n)) [(f.va, w, n), vbGroup]) (bs (beats n) + 4) w fun x =>
    let lane := x.elem f.vb 32 0
    (List.range n).map fun i =>
      let j := src i n (x.elem f.vb 16 i) lane
      if 0 ≤ j ∧ j < n then x.elem f.va w j.toNat else 0

/-- VPERM: within each beat of 64 (R87). -/
def opVperm (t : Fin 64) (f : VVec) : VDef :=
  vShuffle t f (f.vb, 16, vvN f) id fun i n x _ => if x < 64 then ((64 * (i / 64) + x : Nat) : Int) else (n : Int)
/-- VPERMX: over the whole group (R87). -/
def opVpermx (t : Fin 64) (f : VVec) : VDef := vShuffle t f (f.vb, 16, vvN f) (fun b => b * b) fun _ _ x _ => (x : Int)
/-- VREV (R87). -/
def opVrev (t : Fin 64) (f : VVec) : VDef :=
  vShuffle t f (f.va, tyWidth f.ty, vvN f) (· + 1) fun i n _ _ => (n : Int) - 1 - i
/-- VSLUP (R87). -/
def opVslup (t : Fin 64) (f : VVec) : VDef := vShuffle t f (f.vb, 32, 1) (· + 1) fun i _ _ l => (i : Int) - l
/-- VSLDN (R87). -/
def opVsldn (t : Fin 64) (f : VVec) : VDef := vShuffle t f (f.vb, 32, 1) (· + 1) fun i _ _ l => (i : Int) + l
/-- VBCL: broadcast one lane (R87). -/
def opVbcl (t : Fin 64) (f : VVec) : VDef := vShuffle t f (f.vb, 32, 1) (· + 1) fun _ _ _ l => (l : Int)

/-- A shuffle of va and vb: `pick` gives the element from the two sources. -/
def vTwo (t : Fin 64) (f : VVec) (pick : (a b : Nat → Nat) → (n i : Nat) → Nat) : VDef :=
  let w := tyWidth f.ty
  let n := vvN f
  vWrite t f true (groupFault false (some (f.vd, w, n)) [(f.va, w, n), (f.vb, w, n)]) (beats n + 5) w fun x =>
    (List.range n).map (pick (x.elem f.va w) (x.elem f.vb w) n)
/-- VZIP (R87). -/
def opVzip (t : Fin 64) (f : VVec) : VDef :=
  vTwo t f fun a b _ i => if i % 2 = 1 then b (i / 2) else a (i / 2)
/-- VUZPE (R87). -/
def opVuzpe (t : Fin 64) (f : VVec) : VDef :=
  vTwo t f fun a b n i => if 2 * i < n then a (2 * i) else b (2 * i - n)
/-- VUZPO (R87). -/
def opVuzpo (t : Fin 64) (f : VVec) : VDef :=
  vTwo t f fun a b n i => if 2 * i + 1 < n then a (2 * i + 1) else b (2 * i + 1 - n)

/-! ## Reductions (R88) -/

/-- One halving of the tree of R88. -/
def pairUp {α : Type} (comb : α → α → α) : List α → List α
  | a :: b :: l => comb a b :: pairUp comb l
  | l => l

/-- Combine 64 entries in the tree of R88. -/
def tree64 {α : Type} (comb : α → α → α) (ident : α) (l : List α) : α := (iter (pairUp comb) 6 l).headD ident

/-- `reduce` of R88: beats of 64 in ascending order; absent and disabled elements enter as the identity. -/
def reduceBeats {α : Type} (comb : α → α → α) (ident : α) (n : Nat) (elem : Nat → Option α) : α :=
  (List.range (ceilDiv n 64)).foldl (fun acc b =>
    comb acc (tree64 comb ident ((List.range 64).map fun j =>
      let i := 64 * b + j
      if i < n then (elem i).getD ident else ident))) ident

/-- A reduction: `val` reduces the enabled elements, given as a partial function, to the bits written to element 0 of vd. -/
def vReduce (t : Fin 64) (f : VVec) (ok : Bool) (wOut : Nat) (val : (n : Nat) → (Nat → Option Nat) → Nat) : VDef :=
  let w := tyWidth f.ty
  let n := vvN f
  { ok := ok, guard := groupFault false (some (f.vd, wOut, 1)) [(f.va, w, n)], busy := fun _ => beats n + 8,
    run := fun _ s => .next (s.withTile t fun x =>
      x.setElem f.vd wOut 0 (val n fun i => if x.enabled f.k i then some (x.elem f.va w i) else none)) }

/-- The float combination of R88, rounded to the type. -/
def fcomb (ty : Nat) (g : FV → FV → FV) (a b : FV) : FV := (tyFmt ty).round (g a b)

/-- A sum or product by type, exact in the integers with one final saturation. -/
def reduceArith (ty : Nat) (int : Int → Int → Int) (flt : FV → FV → FV) (i0 : Int) (f0 : FV) (n : Nat) (e : Nat → Option Nat) : Nat :=
  if tyInt ty then satTy ty (reduceBeats int i0 n fun i => (e i).map (tyVal ty))
  else if tyFloat ty then (tyFmt ty).enc (reduceBeats (fcomb ty flt) f0 n fun i => (e i).map (tyFmt ty).dec)
  else
    satTy 2 (reduceBeats int i0 n fun i => (e i).map fun x => (cplx x).1) +
      65536 * satTy 2 (reduceBeats int i0 n fun i => (e i).map fun x => (cplx x).2)

/-- VRSUM (R88). -/
def opVrsum (t : Fin 64) (f : VVec) : VDef :=
  vReduce t f true (tyWidth f.ty) (reduceArith f.ty (· + ·) FV.add 0 (.zero false))
/-- VRPROD (R88). -/
def opVrprod (t : Fin 64) (f : VVec) : VDef :=
  vReduce t f (okIF f) (tyWidth f.ty) (reduceArith f.ty (· * ·) FV.mul 1 (.fin 1))

/-- A value with its index for the minimum and maximum reductions: integers as exact finite values. -/
abbrev Ranked := FV × Nat

/-- The element of a minimum or maximum reduction: NaN elements do not enter. DEDUCED (log entry 40): `is_minmax` of R88 covers VRAMAX and VRAMIN, so
that a row whose enabled elements are all NaN gives the identity, index 0xFFFF, though the text names only a row without an enabled element. -/
def rankedElem (ty : Nat) (e : Nat → Option Nat) (i : Nat) : Option Ranked :=
  match e i with
  | none => none
  | some x =>
    let v := if tyInt ty then FV.ofInt (tyVal ty x) else (tyFmt ty).dec x
    if v.isNan then none else some (v, i)

/-- The identity of VRMAX or VRMIN with index 0xFFFF. -/
def rankedIdent (ty : Nat) (mx : Bool) : Ranked :=
  (if tyInt ty then FV.ofInt (if mx then tyMin ty else tyMax ty) else .inf mx, 0xFFFF)

/-- `comb` for the maximum or minimum: the larger or smaller value, on equal values the lower index (R88). -/
def rankedComb (mx : Bool) (a b : Ranked) : Ranked :=
  let better (p q : Ranked) : Bool := if mx then FV.ltTotal q.1 p.1 else FV.ltTotal p.1 q.1
  if better a b then a else if better b a then b else if a.2 ≤ b.2 then a else b

/-- The bits of a ranked value. -/
def rankedBits (ty : Nat) (r : Ranked) : Nat := if tyInt ty then wrapTy ty (rne r.1.toRat) else (tyFmt ty).enc r.1

/-- The ranked reduction. -/
def reduceRanked (ty : Nat) (mx : Bool) (n : Nat) (e : Nat → Option Nat) : Ranked :=
  reduceBeats (rankedComb mx) (rankedIdent ty mx) n (rankedElem ty e)

/-- VRMAX (R88). -/
def opVrmax (t : Fin 64) (f : VVec) : VDef :=
  vReduce t f (okIF f) (tyWidth f.ty) fun n e => rankedBits f.ty (reduceRanked f.ty true n e)
/-- VRMIN (R88). -/
def opVrmin (t : Fin 64) (f : VVec) : VDef :=
  vReduce t f (okIF f) (tyWidth f.ty) fun n e => rankedBits f.ty (reduceRanked f.ty false n e)
/-- VRAMAX: the index as a u32 in lane 0 (R88). -/
def opVramax (t : Fin 64) (f : VVec) : VDef :=
  vReduce t f (okIF f) 32 fun n e => (reduceRanked f.ty true n e).2
/-- VRAMIN (R88). -/
def opVramin (t : Fin 64) (f : VVec) : VDef :=
  vReduce t f (okIF f) 32 fun n e => (reduceRanked f.ty false n e).2
/-- VRAND (R88). -/
def opVrand (t : Fin 64) (f : VVec) : VDef :=
  vReduce t f true (tyWidth f.ty) fun n e => reduceBeats Nat.land (2 ^ tyWidth f.ty - 1) n e
/-- VROR (R88). -/
def opVror (t : Fin 64) (f : VVec) : VDef :=
  vReduce t f true (tyWidth f.ty) fun n e => reduceBeats Nat.lor 0 n e

end Sys2Proof.Machine
end

