-- ==== Sys2Proof/Machine/Chain.lean ====
section
/-! DEFINITION. Fused chains: the descriptor, its streams and stages, and the VF operation (R94 to R96, R98). -/

namespace Sys2Proof.Machine

/-- A value of the working type: the pattern of an f32 with wt = 0, of an s32 with wt = 1. -/
abbrev WVal := Nat

/-- The float that a working pattern holds. -/
def WVal.f (x : WVal) : FV := f32.dec x

/-- The integer that a working pattern holds. -/
def WVal.i (x : WVal) : Int := sCast 32 x

/-- A chain descriptor (R94). -/
structure ChainDesc where
  nstage : Nat
  aMem : Bool
  bMem : Bool
  dMem : Bool
  ta : Nat
  tb : Nat
  td : Nat
  wt : Bool
  sc : Nat
  bBc : Bool
  stages : List Nat
  consts : List Nat
  deriving DecidableEq, Repr

/-- Decode the sixteen words of a descriptor. -/
def chainOf (ws : List Nat) : ChainDesc :=
  let h := nthD ws 0 0
  { nstage := bitsOf h 29 3 + 1, aMem := bitsOf h 28 1 = 1, bMem := bitsOf h 27 1 = 1, dMem := bitsOf h 26 1 = 1,
    ta := bitsOf h 23 3, tb := bitsOf h 20 3, td := bitsOf h 17 3, wt := bitsOf h 16 1 = 1, sc := bitsOf h 13 3,
    bBc := bitsOf h 12 1 = 1, stages := (ws.drop 1).take 8, consts := (ws.drop 9).take 7 }

/-- Constant c[i] in the working type; an index of 7 or more reads 0 (R94). -/
def ChainDesc.const (c : ChainDesc) (i : Nat) : WVal := nthD c.consts i 0

/-- Constant c[i] as a QUANT zero point: always s32. -/
def ChainDesc.zp (c : ChainDesc) (i : Nat) : Int := sCast 32 (nthD c.consts i 0)

/-- Constant c[i] as a QUANT scale. -/
def ChainDesc.scale (c : ChainDesc) (i : Nat) : FV := if c.wt then FV.ofInt (WVal.i (c.const i)) else WVal.f (c.const i)

/-- Convert an element of type `ty` to the working type (R95). -/
def toWork (wt : Bool) (ty x : Nat) : WVal :=
  let w := if wt then 4 else 6
  if tyCplx ty then Config.cvtComplex w x % 2 ^ 32 else convert ty w x

/-- Convert a working value to the bits of type `ty` (R95). -/
def fromWork (wt : Bool) (ty : Nat) (x : WVal) : Nat :=
  if tyCplx ty then Config.cvtComplex 7 x % 2 ^ 32 else convert (if wt then 4 else 6) ty x

/-- An f32 result, rounded once. -/
def wF (v : FV) : WVal := f32.enc v
/-- An s32 result, wrapping. -/
def wI (v : Int) : WVal := uCast 32 v

/-- A two-operand stage in the working type. -/
def w2 (wt : Bool) (flt : FV → FV → FV) (int : Int → Int → Int) (x y : WVal) : WVal :=
  if wt then wI (int (WVal.i x) (WVal.i y)) else wF (flt (WVal.f x) (WVal.f y))

/-- The larger top code magnitude of SCALE by format: GN4, CT8, S8 (R96). -/
def scaleTop (fmt : Nat) : Rat := if fmt = 0 then 1 else if fmt = 1 then 31 / 16 else 127

/-- The QUANT code of a working value (R89, R95). -/
def quantCode (wt : Bool) (fmt : Nat) (x : WVal) (scale : FV) (zp : Int) : Coded :=
  let v := if wt then FV.ofInt (WVal.i x) else WVal.f x
  match fmt with
  | 0 => gn4Enc v scale
  | 1 => ct8Enc v scale
  | 2 => i8Enc v scale zp true
  | _ => i8Enc v scale zp false

/-- What a chain carries for one element: the running value, the outputs of the stages so far, the last QUANT code and the number
of its stages that saturated. -/
structure ChainEl where
  x : WVal
  outs : List WVal
  code : Nat
  sats : Nat
  deriving DecidableEq, Repr

/-- The fields of a stage word: sop, bsel, cidx, param. -/
def stageFields (w : Nat) : Nat × Nat × Nat × Nat := (bitsOf w 26 6, bitsOf w 24 2, bitsOf w 20 4, bitsOf w 0 20)

/-- The row scale of an acting SCALE (R96): absmax over the enabled elements over top, rounded to binary16 toward +∞, at most 65,504. -/
def rowScale (wt : Bool) (fmt : Nat) (xs : List WVal) : FV :=
  let mags := xs.map (fun x => if wt then FV.ofInt (WVal.i x).natAbs else (WVal.f x).abs)
  if mags.any (fun v => v = .inf false) then .fin 65504
  else
    let m := mags.foldl (fun m v => if v.toRat > m then v.toRat else m) 0
    if m = 0 then .zero false
    else
      let b := f16.encPos Rat.ceil false (m / scaleTop fmt)
      if b ≥ f16.enc (.fin 65504) then .fin 65504 else f16.dec b

/-- One stage on one element (R95); `scaled` is the scale of the chain's acting SCALE, if it has run. A sop not listed, or an
unusable bsel, passes x unchanged. -/
def chainStage (c : ChainDesc) (k : Vector (BitVec 64) 8) (scaled : Option FV) (i : Nat) (b : WVal) (j w : Nat) (e : ChainEl) :
    ChainEl :=
  let (sop, bsel, cidx, param) := stageFields w
  let none2 := Config.chainNone.toNat
  let y : WVal := match bsel with
    | 0 => none2
    | 1 => b
    | 2 => c.const cidx
    | _ => nthD e.outs cidx e.x
  let sh := param % 32
  let fltOnly (g : FV → FV) : WVal := if c.wt then e.x else wF (g (WVal.f e.x))
  let x' : WVal :=
    if bsel = 3 && cidx ≥ j then e.x else
    match sop with
    | 0x01 => w2 c.wt FV.add (· + ·) e.x y
    | 0x02 => w2 c.wt FV.sub (· - ·) e.x y
    | 0x03 => w2 c.wt FV.sub (· - ·) y e.x
    | 0x04 => w2 c.wt FV.mul (· * ·) e.x y
    | 0x05 => pickBits (if c.wt then 4 else 6) false e.x y
    | 0x06 => pickBits (if c.wt then 4 else 6) true e.x y
    | 0x07 => if c.wt then wI (WVal.i e.x).natAbs else absBits 32 e.x
    | 0x08 => if c.wt then wI (-WVal.i e.x) else negBits 32 e.x
    | 0x09 => if c.wt then wI (rne ((WVal.i e.x : Rat) / ((2 ^ sh : Nat) : Rat))) else wF (FV.mul (WVal.f e.x) (.fin (pow2 (-(sh : Int)))))
    | 0x0A => if c.wt then wI (WVal.i e.x * (2 ^ sh : Nat)) else wF (FV.mul (WVal.f e.x) (.fin (pow2 sh)))
    | 0x0B =>
      let lo := c.const cidx
      let hi := c.const (cidx + 1)
      let less (p q : WVal) : Bool := if c.wt then decide (WVal.i p < WVal.i q) else FV.ltNum (WVal.f p) (WVal.f q)
      if less e.x lo then lo else if less hi e.x then hi else e.x
    | 0x0C =>
      let m := param % 8
      if m = 0 || (nthD k.toList m 0).getLsbD (i % 64) then e.x else y
    | 0x10 => pickBits (if c.wt then 4 else 6) true e.x 0
    | 0x11 => fltOnly fexp
    | 0x12 => fltOnly frecip
    | 0x13 => fltOnly frsqrt
    | 0x14 => fltOnly ftanh
    | 0x15 => fltOnly fsigm
    | _ => e.x
  if sop = 0x21 && !(bsel = 3 && cidx ≥ j) then
    let (code, st) := match scaled with
      | some sc => quantCode c.wt (param % 4) e.x sc 0
      | none => quantCode c.wt (param % 4) e.x (c.scale cidx) (c.zp (cidx + 1))
    let v := if c.wt then wI code else wF (FV.ofInt code)
    { x := v, outs := e.outs ++ [v], code := code, sats := e.sats + st.toNat }
  else { e with x := x', outs := e.outs ++ [x'] }

/-- Index of the stage whose SCALE acts: the first SCALE, unless its param[1:0] is 3 (R96). -/
def actingScale (c : ChainDesc) : Option Nat :=
  match (List.range c.nstage).find? (fun j =>
      let (sop, bsel, cidx, _) := stageFields (nthD c.stages j 0)
      sop = 0x20 && !(bsel = 3 && cidx ≥ j)) with
  | some j => if (stageFields (nthD c.stages j 0)).2.2.2 % 4 = 3 then none else some j
  | none => none

/-- Run stages `j0` to `j1 - 1` on one element. -/
def chainRun (c : ChainDesc) (k : Vector (BitVec 64) 8) (scaled : Option FV) (i : Nat) (b : WVal) (j0 j1 : Nat) (e : ChainEl) : ChainEl :=
  ((List.range j1).drop j0).foldl (fun e j => chainStage c k scaled i b j (nthD c.stages j 0) e) e

/-- Scratchpad address of element `i` of `w` bits of a stream at pointer value `p` (R84, R94): low bits cleared to the element. -/
def streamAddr (p w i : Nat) : Nat := (p - p % (w / 8) + i * (w / 8)) % 2 ^ 21

/-- Element `i` of `w` bits of a scratchpad stream at pointer value `p`. -/
def streamElem (s : State) (t : Fin 64) (p w i : Nat) : Nat := s.vLe t (streamAddr p w i) (w / 8)

/-- Write element `i` of `w` bits of a scratchpad stream; a 4-bit element changes its half of its byte (R78, R89). -/
def streamWrite (s : State) (t : Fin 64) (p w i e : Nat) : State :=
  if w = 4 then
    let a := spad t ((p + i / 2) % 2 ^ 21)
    s.putByte 1 a (BitVec.ofNat 8 (setBitsOf (s.byte a).toNat (4 * (i % 2)) 4 e))
  else s.vSetLe t (streamAddr p w i) (w / 8) e

/-- Scratchpad address of the descriptor of a VF (R94). -/
def State.chainAddr (s : State) (t : Fin 64) (f : VChain) : Nat := (s.get (TIL_VCTB.base t) * 16384 + 64 * f.chain.toNat) % 2 ^ 21

/-- The pointer that bits [3:0] of a field name, as the VF read it at its start (R94). -/
def VEntry.pointer (e : VEntry) (r : Nat) : Nat := (nthD e.ptrs (r % 16) 0).toNat % 2 ^ 21

/-- The last stage of a chain is a QUANT, with its format. -/
def ChainDesc.quant (c : ChainDesc) : Option Nat :=
  let last := stageFields (nthD c.stages (c.nstage - 1) 0)
  if last.1 = 0x21 && !(last.2.1 = 3 && last.2.2.1 ≥ c.nstage - 1) then some (last.2.2.2 % 4) else none

/-- Width of the elements that a chain writes. -/
def ChainDesc.outWidth (c : ChainDesc) : Nat :=
  match c.quant with
  | some q => if q = 0 then 4 else 8
  | none => tyWidth c.td

/-- The undefined cases of R79 for a VF. DESIGN CHOICE (log entry 40): vb is a source group only when some stage of the chain selects stream b. -/
def ChainDesc.guard (c : ChainDesc) (f : VChain) : Option Fault :=
  let n := f.n.val + 1
  let usesB := (List.range c.nstage).any fun j => (stageFields (nthD c.stages j 0)).2.1 = 1
  let srcs := (if c.aMem then [] else [(f.va.val, tyWidth c.ta, n)]) ++
    (if c.bMem || !usesB then [] else [(f.vb.val, tyWidth c.tb, if c.bBc then 1 else n)])
  groupFault false (if c.dMem then none else some (f.vd.val, c.outWidth, n)) srcs

/-- VF (R94 to R96): the stages up to and including an acting SCALE run over all N elements, then the row scale is written through p(cidx), then
the remaining stages run; the result goes to the destination in td, or as codes when the last stage is QUANT. -/
def vfRun (t : Fin 64) (f : VChain) (e : VEntry) (s : State) : Res :=
  let x := s.tile t
  let c := chainOf e.chain
  let n := f.n.val + 1
  let ptr := e.pointer
  let quant := c.quant.isSome
  let wd := c.outWidth
  groupGuard (c.guard f) <|
    let rd (mem : Bool) (r : Fin 32) (ty i : Nat) : WVal :=
      toWork c.wt ty (if mem then streamElem s t (ptr r) (tyWidth ty) i else x.elem r (tyWidth ty) i)
    let bs := fun i => rd c.bMem f.vb c.tb (if c.bBc then 0 else i)
    let reads (mem : Bool) (r : Fin 32) (ty m : Nat) : List Nat := if mem then (List.range m).map (streamAddr (ptr r) (tyWidth ty)) else []
    let s := s.portErrors t (reads c.aMem f.va c.ta n ++ reads c.bMem f.vb c.tb (if c.bBc then 1 else n))
    let e0 := (List.range n).map fun i => (⟨rd c.aMem f.va c.ta i, [], 0, 0⟩ : ChainEl)
    let (scaled, e1, j0, s) : Option FV × List ChainEl × Nat × State := match actingScale c with
      | none => (none, e0, 0, s)
      | some j =>
        let e1 := (e0.zip (List.range n)).map fun p => chainRun c x.k none p.2 (bs p.2) 0 (j + 1) p.1
        let (_, _, cidx, param) := stageFields (nthD c.stages j 0)
        let sc := rowScale c.wt (param % 4) (((e1.zip (List.range n)).filter (fun p => x.enabled f.k p.2)).map (·.1.x))
        let a := ptr cidx
        (some sc, e1, j + 1, s.vSetLe t (a - a % 2) 2 (f16.enc sc))
    let e2 := (e1.zip (List.range n)).map fun p => chainRun c x.k scaled p.2 (bs p.2) j0 c.nstage p.1
    let outs := e2.map fun e => if quant then e.code else fromWork c.wt c.td e.x
    let sats := ((e2.zip (List.range n)).filter (fun p => x.enabled f.k p.2)).foldl (fun m p => m + p.1.sats) 0
    let s :=
      if c.dMem then
        (outs.zip (List.range n)).foldl (fun s p => if x.enabled f.k p.2 then streamWrite s t (ptr f.vd) wd p.2 p.1 else s) s
      else s.withTile t fun x => x.setElems f.vd wd (x.masked f.k false outs)
    .next (s.countSat t c.sc sats)

/-- ck of a VF's occupancy (R97), and the 4 ck in which its last outputs are written. -/
def vfBusy (f : VChain) (c : ChainDesc) : Nat :=
  4 + c.nstage * beats (f.n.val + 1) + (if (actingScale c).isSome then 6 else 0) + 4

/-- VF (R94 to R98). -/
def opVf (t : Fin 64) (f : VChain) (e : VEntry) : VDef :=
  { ok := true, guard := none, busy := fun _ => vfBusy f (chainOf e.chain), run := fun e s => vfRun t f e s }

/-- At its start a VF reads its pointers and its descriptor (R94, R98); the errors of that read are logged. -/
def VEntry.startVf (e : VEntry) (t : Fin 64) (f : VChain) (s : State) : VEntry × State :=
  let a := s.chainAddr t f
  let at_ (i : Nat) : Nat := (a + 4 * i) % 2 ^ 21
  ({ e with ptrs := (s.tile t).p.toList, chain := (List.range 16).map fun i => s.vLe t (at_ i) 4 },
    s.portErrors t ((List.range 16).map at_))

end Sys2Proof.Machine
end

