-- ==== Sys2Proof/Machine/Matrix.lean ====
section
/-! DEFINITION. The matrix engine: operand tiles, exact accumulation and readout (R99 to R114). -/

namespace Sys2Proof.Machine

/-- The low 12 bits of a count field as a number, bits `[hi:lo]`. -/
def cntBits (c : BitVec 12) (hi lo : Nat) : Nat := bitsOf c.toNat lo (hi - lo + 1)

/-- A matrix operation of `busy` ck; a non-zero reserved field is a reserved encoding (R109). -/
def mOp (ok : Bool) (busy : State → Nat) (run : VEntry → State → State) : VDef :=
  { ok := ok, guard := none, busy := busy, run := fun e s => .next (run e s) }

/-- Scratchpad address that the pointer of a matrix operation, read at its A stage, forms. -/
def VEntry.mPtr (e : VEntry) : Nat := e.ptr.toNat % 2 ^ 21

/-- 64-byte lines that `n` bytes from `a` touch. -/
def linesOf (a n : Nat) : Nat := (a + n - 1) / 64 - a / 64 + 1

/-- Pack numbers of `w` bits, the first lowest. -/
def packNum (w : Nat) : List Nat → Nat
  | [] => 0
  | x :: xs => x % 2 ^ w + 2 ^ w * packNum w xs

/-- MLD (R110): nr rows of 64 bytes with row stride m(sel); the tile's other rows become 0. -/
def opMld (t : Fin 64) (f : VMat) (e : VEntry) : VDef :=
  let nr := cntBits f.cnt 5 0 + 1
  let addr (r : Nat) : Nat :=
    let a := (((e.mPtr : Nat) : Int) + (r : Int) * e.step.toInt) % ((2 ^ 21 : Nat) : Int)
    a.toNat - a.toNat % 64
  let group (g : Nat) : Nat :=
    let banks := (List.range (min 4 (nr - 4 * g))).map fun i => addr (4 * g + i) / 64 % 16
    banks.foldl (fun m b => max m (banks.filter (· = b)).length) 1
  mOp (f.mb = 0 && f.vd.val < 16 && f.fmt = 0 && cntBits f.cnt 11 6 = 0) (fun _ => ((List.range (ceilDiv nr 4)).map group).sum) fun _ s =>
    let d := packNum 512 ((List.range nr).map fun r => s.vLe t (addr r) 64)
    let s := (List.range nr).foldl (fun s r => s.portErrorsIn t (addr r) 64) s
    s.withTile t fun x => { x with mt := x.mt.set f.ma.val { x.mt[f.ma.val] with data := BitVec.ofNat 32768 d } }

/-- MLS (R110): nr binary16 scales; the tile's other scales become +0. -/
def opMls (t : Fin 64) (f : VMat) (e : VEntry) : VDef :=
  let p := e.mPtr - e.mPtr % 2
  let nr := cntBits f.cnt 5 0 + 1
  mOp (f.mb = 0 && f.vd.val < 16 && f.fmt = 0 && f.sel = 0 && cntBits f.cnt 11 6 = 0) (fun _ => linesOf p (2 * nr)) fun _ s =>
    let d := packNum 16 ((List.range nr).map fun r => s.vLe t ((p + 2 * r) % 2 ^ 21) 2)
    let s := s.portErrorsIn t p (2 * nr)
    s.withTile t fun x => { x with mt := x.mt.set f.ma.val { x.mt[f.ma.val] with scale := BitVec.ofNat 1024 d } }

/-- MZP (R104, R110). -/
def opMzp (t : Fin 64) (f : VMat) : VDef :=
  mOp (f.mb = 0 && f.vd = 0 && f.fmt = 0 && f.sel = 0 && cntBits f.cnt 11 9 = 0) (fun _ => 1) fun _ s =>
    s.withTile t fun x =>
      let m : MTile := { x.mt[f.ma.val] with zp := BitVec.ofNat 8 (cntBits f.cnt 7 0), sgn := f.cnt.getLsbD 8 }
      { x with mt := x.mt.set f.ma.val m }

/-- MRT (R108, R110): the rescale table of bank sel[1:0]. -/
def opMrt (t : Fin 64) (f : VMat) (e : VEntry) : VDef :=
  let p := e.mPtr - e.mPtr % 4
  let b : Fin 4 := Fin.ofNat 4 f.sel.val
  mOp (f.ma = 0 && f.mb = 0 && f.vd.val < 16 && f.fmt = 0 && f.sel.val < 4 && f.cnt = 0) (fun _ => linesOf p 256) fun _ s =>
    let d := packNum 32 ((List.range 64).map fun j => s.vLe t ((p + 4 * j) % 2 ^ 21) 4)
    let s := s.portErrorsIn t p 256
    s.withTile t fun x => { x with ab := x.ab.set b.val { x.ab[b.val] with rt := BitVec.ofNat 2048 d } }

/-! ## Accumulation (R101, R111) -/

/-- Element width and elements a row by operand format (R101). -/
def mFmt (fmt : Nat) : Nat × Nat :=
  match fmt with
  | 0 => (8, 64) | 1 => (4, 128) | 2 => (8, 64) | 3 => (16, 32) | 4 => (16, 32) | _ => (32, 16)

/-- Element k of row i of an operand tile. -/
def MTile.elem (m : MTile) (fmt i k : Nat) : Nat := bitsOf m.data.toNat (512 * i + k * (mFmt fmt).1) (mFmt fmt).1

/-- The integer form of a real element: `opv` of R111. -/
def MTile.opv (m : MTile) (fmt i k : Nat) : Int :=
  let c := m.elem fmt i k
  match fmt with
  | 0 => if m.sgn then sCast 8 c - m.zp.toInt else (c : Int) - m.zp.toNat
  | 1 => (if c / 8 = 1 then -1 else 1) * (nthD [0, 88, 179, 275, 380, 502, 658, 1024] (c % 8) 0 : Nat)
  | _ =>
    let e := c / 16 % 8
    let f := c % 16
    let v : Int := if e = 0 then f else ((16 + f) * 2 ^ (e - 1) : Nat)
    if c / 128 = 1 then -v else v

/-- The components of a complex element: CI8 or CI16. -/
def MTile.cpx (m : MTile) (fmt i k : Nat) : Int × Int :=
  let c := m.elem fmt i k
  if fmt = 4 then (sCast 8 c, sCast 8 (c / 256)) else (sCast 16 c, sCast 16 (c / 65536))

/-- Entry (i, j) of a bank, 48 bits. -/
def MBank.entry (b : MBank) (i j : Nat) : Nat := bitsOf (nthD b.cells.toList i 0).toNat (48 * j) 48

/-- A bank with every entry given by `f`. -/
def MBank.fill (b : MBank) (f : Nat → Nat → Nat) : MBank :=
  { b with cells := Vector.ofFn fun i => BitVec.ofNat 3072 (packNum 48 ((List.range 64).map (f i.val))) }

/-- Encode in binary32 with the one NaN pattern of R111. -/
def encCanon (f : FFmt) (v : FV) : Nat := if v.isNan then f.qnan else f.enc v

/-- The banks of a run: one, or the pair of a complex format (R111). -/
def mBanks (fmt sel : Nat) : Nat × Bool := if fmt ≥ 4 then (sel / 2 % 2 * 2, true) else (sel % 4, false)

/-- MMA and MMAC (R111). -/
def mma (t : Fin 64) (f : VMat) (conj : Bool) : VDef :=
  let cf := match f.fmt.val with | 1 => 1 | 2 => 4 | 3 => 4 | _ => 2
  mOp (f.vd = 0 && f.fmt.val ≤ 5) (fun _ => cf * min (f.cnt.toNat + 1) (mFmt f.fmt.val).2) fun _ s => s.withTile t fun x =>
    let fmt := f.fmt.val
    let a := x.mt[f.ma.val]
    let b := x.mt[f.mb.val]
    let (bk, cx) := mBanks fmt f.sel.val
    let re0 : Fin 4 := Fin.ofNat 4 bk
    let im0 : Fin 4 := Fin.ofNat 4 (bk + 1)
    let k := min (f.cnt.toNat + 1) (mFmt fmt).2
    let fresh : Bool := f.sel.val ≥ 4 || x.ab[re0.val].fmt ≠ BitVec.ofNat 4 fmt
    let start (m : MBank) : MBank :=
      if fresh then { m with cells := Vector.replicate 64 0, fmt := BitVec.ofNat 4 fmt, sa := a.scale, sb := b.scale } else m
    let ks := List.range k
    let br := start x.ab[re0.val]
    if cx then
      let bi := start x.ab[im0.val]
      let prod (i j q : Nat) : Int × Int :=
        let (ar, ai) := a.cpx fmt i q
        let (cr, ci) := b.cpx fmt j q
        let ci := if conj then -ci else ci
        (ar * cr - ai * ci, ar * ci + ai * cr)
      let nr := br.fill fun i j => uCast 48 (ks.foldl (fun v q => v + (prod i j q).1) (sCast 48 (br.entry i j)))
      let ni := bi.fill fun i j => uCast 48 (ks.foldl (fun v q => v + (prod i j q).2) (sCast 48 (bi.entry i j)))
      { x with ab := (x.ab.set re0.val nr).set im0.val ni }
    else if fmt = 3 then
      let nr := br.fill fun i j => ks.foldl (fun v q =>
        encCanon f32 (FV.add (f32.dec v) (FV.mul (f16.dec (a.elem 3 i q)) (f16.dec (b.elem 3 j q))))) (br.entry i j % 2 ^ 32)
      { x with ab := x.ab.set re0.val nr }
    else
      let nr := br.fill fun i j => uCast 48 (ks.foldl (fun v q => v + a.opv fmt i q * b.opv fmt j q) (sCast 48 (br.entry i j)))
      { x with ab := x.ab.set re0.val nr }

/-- MMA (R111). -/
def opMma (t : Fin 64) (f : VMat) : VDef := mma t f false
/-- MMAC: by the conjugate of the second operand (R111). -/
def opMmac (t : Fin 64) (f : VMat) : VDef := mma t f true

/-! ## Readout (R113, R114) -/

/-- The exact value v(bk, i, j), with the format and scale latches of bank `e` (R113). DESIGN CHOICE (log entry 40): an integer bank whose latched
format is none or a reserved code, for which R101 gives no u, has the weight 1 (u = 0). -/
def mValue (e b : MBank) (i j : Nat) : FV :=
  let n := b.entry i j
  let a : FV :=
    if e.fmt = 3 then f32.dec (n % 2 ^ 32)
    else FV.ofRat ((sCast 48 n : Rat) * pow2 (if e.fmt = 1 ∨ e.fmt = 2 then -20 else 0))
  FV.mul (FV.mul a (f16.dec (bitsOf e.sa.toNat (16 * i) 16))) (f16.dec (bitsOf e.sb.toNat (16 * j) 16))

/-- Round a readout value: one NaN, and an exact zero as +0 (R114). -/
def mRound (f : FFmt) (v : FV) : Nat :=
  match v with
  | .zero _ => 0
  | v => encCanon f v

/-- `rq` of R113: the code and whether it saturated. -/
def rescale (acc : Int) (ent : Nat) (lo hi : Int) (zp : Int) : Int × Bool :=
  let q := rne ((acc * sCast 16 ent : Int) / ((2 ^ bitsOf ent 16 6 : Nat) : Rat) + (zp : Rat))
  (sat q lo hi, decide (q < lo ∨ q > hi))

/-- MRD (R113): the elements of row `r` of the readout, each with whether it saturated. -/
def mReadRow (x : Tile) (mode sel i : Nat) : List (Nat × Bool) :=
  let b : MBank := nthD x.ab.toList (sel % 4) MBank.reset
  let ev : MBank := nthD x.ab.toList (sel / 2 % 2 * 2) MBank.reset
  let od : MBank := nthD x.ab.toList (sel / 2 % 2 * 2 + 1) MBank.reset
  let ent (m : MBank) (j : Nat) : Nat := bitsOf m.rt.toNat (32 * j) 32
  let e (m : MBank) (j : Nat) : Int := sCast 48 (m.entry i j)
  let cols := List.range 64
  match mode with
  | 0 => cols.map fun j =>
      let q := sat (e b j) (-(2 ^ 31)) (2 ^ 31 - 1)
      (uCast 32 q, decide (q ≠ e b j))
  | 1 => cols.map fun j => (mRound f32 (mValue b b i j), false)
  | 2 => cols.map fun j => (mRound f16 (mValue b b i j), false)
  | 3 => cols.map fun j =>
      let (q, st) := rescale (e b j) (ent b j) (-128) 127 (sCast 8 (ent b j / 2 ^ 22))
      (uCast 8 q, st)
  | 4 => cols.map fun j =>
      let (q, st) := rescale (e b j) (ent b j) 0 255 ((bitsOf (ent b j) 22 8 : Nat) : Int)
      (uCast 8 q, st)
  | 5 => cols.map fun j =>
      let (q, st) := rescale (e b j) (ent b j) (-32768) 32767 (sCast 8 (ent b j / 2 ^ 22))
      (uCast 16 q, st)
  | 6 => cols.flatMap fun j =>
      let (q, st) := rescale (e ev j) (ent ev j) (-32768) 32767 0
      let (r, st2) := rescale (e od j) (ent ev j) (-32768) 32767 0
      [(uCast 16 q, st), (uCast 16 r, st2)]
  | _ => cols.flatMap fun j => [(mRound f32 (mValue ev ev i j), false), (mRound f32 (mValue ev od i j), false)]

/-- Width of one written component and components a row by readout mode. -/
def mReadShape (mode : Nat) : Nat × Nat :=
  match mode with
  | 0 => (32, 64) | 1 => (32, 64) | 2 => (16, 64) | 3 => (8, 64) | 4 => (8, 64) | 5 => (16, 64) | 6 => (16, 128) | _ => (32, 128)

/-- MRD (R113): nr rows from the first row, modulo 64, into the group at vd; saturations count into TIL_VSATc. -/
def opMrd (t : Fin 64) (f : VMat) : VDef :=
  let nr := cntBits f.cnt 5 0 + 1
  let (w, per) := mReadShape f.fmt.val
  { ok := f.ma.val < 2 && f.fmt.val ≤ 7 && f.sel.val < 4, guard := groupFault false (some (f.vd.val, w, per * nr)) [], busy := fun _ => nr + 6,
    run := fun _ s =>
      let rows := (List.range nr).flatMap fun r => mReadRow (s.tile t) f.fmt.val f.sel.val ((cntBits f.cnt 11 6 + r) % 64)
      let s := s.withTile t fun x => x.setElems f.vd w (rows.map fun p => some p.1)
      .next (s.countSat t (4 * (f.ma.val % 2) + f.mb.val) (rows.filter (·.2)).length) }

end Sys2Proof.Machine
end

