-- ==== Sys2Proof/Machine/VSlot.lean ====
section
/-! DEFINITION. The V-slot queue of a tile (R58, R91, R93, R115): its operations enter at their bundles, run in order as the ck pass and take effect when
they are complete (log entry 38). -/

namespace Sys2Proof.Machine

/-- The operation that a V-slot command names; none of another command. -/
def vDefOf (e : VEntry) : Option VDef :=
  match e.op with
  | .vld t f => some (opVld t f e)
  | .vst t f => some (opVst t f e)
  | .vlds t f => some (opVlds t f e)
  | .vsts t f => some (opVsts t f e)
  | .vadd t f => some (opVadd t f)
  | .vsub t f => some (opVsub t f)
  | .vmul t f => some (opVmul t f)
  | .vmulh t f => some (opVmulh t f)
  | .vmin t f => some (opVmin t f)
  | .vmax t f => some (opVmax t f)
  | .vabs t f => some (opVabs t f)
  | .vneg t f => some (opVneg t f)
  | .vadds t f => some (opVadds t f)
  | .vsubs t f => some (opVsubs t f)
  | .vand t f => some (opVand t f)
  | .vor t f => some (opVor t f)
  | .vxor t f => some (opVxor t f)
  | .vsll t f => some (opVsll t f)
  | .vsrl t f => some (opVsrl t f)
  | .vsra t f => some (opVsra t f)
  | .vmac t f => some (opVmac t f)
  | .vcmul t f => some (opVcmul t f)
  | .vcmulj t f => some (opVcmulj t f)
  | .vsel t f => some (opVsel t f)
  | .vmov t f => some (opVmov t f)
  | .vceq t f => some (opVceq t f)
  | .vclt t f => some (opVclt t f)
  | .vcle t f => some (opVcle t f)
  | .vmeq t f => some (opVmeq t f)
  | .vmlt t f => some (opVmlt t f)
  | .vmle t f => some (opVmle t f)
  | .vcvt t f => some (opVcvt t f)
  | .vpkGn4 t f => some (opVpkGn4 t f)
  | .vpkCt8 t f => some (opVpkCt8 t f)
  | .vpkS8 t f => some (opVpkS8 t f)
  | .vpkU8 t f => some (opVpkU8 t f)
  | .vupkGn4 t f => some (opVupkGn4 t f)
  | .vupkCt8 t f => some (opVupkCt8 t f)
  | .vupkS8 t f => some (opVupkS8 t f)
  | .vupkU8 t f => some (opVupkU8 t f)
  | .vperm t f => some (opVperm t f)
  | .vpermx t f => some (opVpermx t f)
  | .vrev t f => some (opVrev t f)
  | .vzip t f => some (opVzip t f)
  | .vuzpe t f => some (opVuzpe t f)
  | .vuzpo t f => some (opVuzpo t f)
  | .vslup t f => some (opVslup t f)
  | .vsldn t f => some (opVsldn t f)
  | .vbcl t f => some (opVbcl t f)
  | .vrsum t f => some (opVrsum t f)
  | .vrprod t f => some (opVrprod t f)
  | .vrmax t f => some (opVrmax t f)
  | .vrmin t f => some (opVrmin t f)
  | .vramax t f => some (opVramax t f)
  | .vramin t f => some (opVramin t f)
  | .vrand t f => some (opVrand t f)
  | .vror t f => some (opVror t f)
  | .vf t f => some (opVf t f e)
  | .mld t f => some (opMld t f e)
  | .mls t f => some (opMls t f e)
  | .mzp t f => some (opMzp t f)
  | .mrt t f => some (opMrt t f e)
  | .mma t f => some (opMma t f)
  | .mmac t f => some (opMmac t f)
  | .mrd t f => some (opMrd t f)
  | _ => none

/-- The operation at the head of the queue starts: a VF reads its pointers and descriptor (R98), and the ck of its occupancy are known. -/
def VEntry.start (e : VEntry) (t : Fin 64) (s : State) : VEntry × State :=
  let (e, s) := match e.op with
    | .vf _ f => e.startVf t f s
    | _ => (e, s)
  ({ e with left := (vDefOf e).map fun d => d.busy s }, s)

/-- The queue of tile `t`. -/
def State.setVq (s : State) (t : Fin 64) (q : List VEntry) : State := s.withTile t fun x => { x with vq := q }

/-- Operation `e` of tile `t` is complete: it leaves the queue, whose rest is `q`, and its effect takes place. -/
def VEntry.finish (e : VEntry) (t : Fin 64) (q : List VEntry) (s : State) : Res :=
  match vDefOf e with
  | some d => d.run e (s.setVq t q)
  | none => .next (s.setVq t q)

/-- One ck of the queue of tile `t`: its head starts, or goes on, or is complete. -/
def State.vTileTick (s : State) (t : Fin 64) : Res :=
  match (s.tile t).vq with
  | [] => .next s
  | e :: q =>
    match e.left with
    | none =>
      let (e, s) := e.start t s
      .next (s.setVq t (e :: q))
    | some k => if k ≤ 1 then e.finish t q s else .next (s.setVq t ({ e with left := some (k - 1) } :: q))

/-- One ck of every tile's queue. -/
def State.vTick (s : State) : Res :=
  (List.finRange 64).foldl (fun r (t : Fin 64) => andThen r fun s =>
    if s.fck && s.tileOn t && !s.held 1 then s.vTileTick t else .next s) (.next s)

/-- The head of the queue of tile `t` is performed whole. -/
def State.vHead (s : State) (t : Fin 64) : Res :=
  match (s.tile t).vq with
  | [] => .next s
  | e :: q =>
    let (e, s) := if e.left.isSome then (e, s) else e.start t s
    e.finish t q s

/-- Every operation queued completes (R77); one whose groups are the undefined case of R79 has no effect. -/
def State.vDrain (s : State) (t : Fin 64) : State :=
  iter (fun s =>
    match s.vHead t with
    | .next s => s
    | _ => s.setVq t ((s.tile t).vq.drop 1)) 8 s

/-- A V-slot operation enters the queue (R58) with the pointer `p` and the modifier `m` of its A stage: a reserved encoding faults the bundle
(R52), and a full queue stalls it until its head is complete. -/
def issueV (t : Fin 64) (op : Instr) (p : Fin 16) (m : Fin 8) (s : State) : Res :=
  slotOf t s fun s =>
    let x := s.tile t
    let e : VEntry := { op := op, ptr := x.p[p.val], step := x.m[m.val], left := none, ptrs := [], chain := [] }
    match vDefOf e with
    | none => .next s
    | some d =>
      if !d.ok then .next (s.bundleFault t (TIL_CAUSE.bad_op t))
      else groupGuard d.guard <|
        andThen (if x.vq.length ≥ 8 then s.vHead t else .next s) fun s => .next (s.setVq t ((s.tile t).vq ++ [e]))

/-- VMNOP (R84). -/
def execVmnop (t : Fin 64) (s : State) : Res := slotOf t s .next
/-- MNOP (R109). -/
def execMnop (t : Fin 64) (s : State) : Res := slotOf t s .next
/-- VLD (R84). -/
def execVld (t : Fin 64) (f : VMem) (s : State) : Res := issueV t (.vld t f) f.p f.m s
/-- VST (R84). -/
def execVst (t : Fin 64) (f : VMem) (s : State) : Res := issueV t (.vst t f) f.p f.m s
/-- VLDS: the stride is m(m) (R84). -/
def execVlds (t : Fin 64) (f : VMem) (s : State) : Res := issueV t (.vlds t f) f.p f.m s
/-- VSTS: the stride is m(m) (R84). -/
def execVsts (t : Fin 64) (f : VMem) (s : State) : Res := issueV t (.vsts t f) f.p f.m s
/-- VADD (R86). -/
def execVadd (t : Fin 64) (f : VVec) (s : State) : Res := issueV t (.vadd t f) 0 0 s
/-- VSUB (R86). -/
def execVsub (t : Fin 64) (f : VVec) (s : State) : Res := issueV t (.vsub t f) 0 0 s
/-- VMUL: int keeps the low w bits (R86). -/
def execVmul (t : Fin 64) (f : VVec) (s : State) : Res := issueV t (.vmul t f) 0 0 s
/-- VMULH: the high w bits of the 2w-bit product (R86). -/
def execVmulh (t : Fin 64) (f : VVec) (s : State) : Res := issueV t (.vmulh t f) 0 0 s
/-- VMIN (R86). -/
def execVmin (t : Fin 64) (f : VVec) (s : State) : Res := issueV t (.vmin t f) 0 0 s
/-- VMAX (R86). -/
def execVmax (t : Fin 64) (f : VVec) (s : State) : Res := issueV t (.vmax t f) 0 0 s
/-- VABS: int wraps (R86). -/
def execVabs (t : Fin 64) (f : VVec) (s : State) : Res := issueV t (.vabs t f) 0 0 s
/-- VNEG: int and ci16 components wrap (R86). -/
def execVneg (t : Fin 64) (f : VVec) (s : State) : Res := issueV t (.vneg t f) 0 0 s
/-- VADDS: saturating (R86). -/
def execVadds (t : Fin 64) (f : VVec) (s : State) : Res := issueV t (.vadds t f) 0 0 s
/-- VSUBS: saturating (R86). -/
def execVsubs (t : Fin 64) (f : VVec) (s : State) : Res := issueV t (.vsubs t f) 0 0 s
/-- VAND (R86). -/
def execVand (t : Fin 64) (f : VVec) (s : State) : Res := issueV t (.vand t f) 0 0 s
/-- VOR (R86). -/
def execVor (t : Fin 64) (f : VVec) (s : State) : Res := issueV t (.vor t f) 0 0 s
/-- VXOR (R86). -/
def execVxor (t : Fin 64) (f : VVec) (s : State) : Res := issueV t (.vxor t f) 0 0 s
/-- VSLL by b mod 32; an amount at or above w gives 0 (R82, R86). -/
def execVsll (t : Fin 64) (f : VVec) (s : State) : Res := issueV t (.vsll t f) 0 0 s
/-- VSRL by b mod 32 (R82, R86). -/
def execVsrl (t : Fin 64) (f : VVec) (s : State) : Res := issueV t (.vsrl t f) 0 0 s
/-- VSRA by b mod 32: the sign fill is the element's top bit (R82, R86). -/
def execVsra (t : Fin 64) (f : VVec) (s : State) : Res := issueV t (.vsra t f) 0 0 s
/-- VMAC: d + a × b with one rounding in float (R86). -/
def execVmac (t : Fin 64) (f : VVec) (s : State) : Res := issueV t (.vmac t f) 0 0 s
/-- VCMUL (R86). -/
def execVcmul (t : Fin 64) (f : VVec) (s : State) : Res := issueV t (.vcmul t f) 0 0 s
/-- VCMULJ: conj(b) (R86). -/
def execVcmulj (t : Fin 64) (f : VVec) (s : State) : Res := issueV t (.vcmulj t f) 0 0 s
/-- VSEL: a k field of 0 names k0, every element is written, km is ignored (R86). -/
def execVsel (t : Fin 64) (f : VVec) (s : State) : Res := issueV t (.vsel t f) 0 0 s
/-- VMOV (R86). -/
def execVmov (t : Fin 64) (f : VVec) (s : State) : Res := issueV t (.vmov t f) 0 0 s
/-- VCEQ (R86). -/
def execVceq (t : Fin 64) (f : VVec) (s : State) : Res := issueV t (.vceq t f) 0 0 s
/-- VCLT (R86). -/
def execVclt (t : Fin 64) (f : VVec) (s : State) : Res := issueV t (.vclt t f) 0 0 s
/-- VCLE (R86). -/
def execVcle (t : Fin 64) (f : VVec) (s : State) : Res := issueV t (.vcle t f) 0 0 s
/-- VMEQ (R86). -/
def execVmeq (t : Fin 64) (f : VVec) (s : State) : Res := issueV t (.vmeq t f) 0 0 s
/-- VMLT (R86). -/
def execVmlt (t : Fin 64) (f : VVec) (s : State) : Res := issueV t (.vmlt t f) 0 0 s
/-- VMLE (R86). -/
def execVmle (t : Fin 64) (f : VVec) (s : State) : Res := issueV t (.vmle t f) 0 0 s
/-- VCVT to the type coded in vb[2:0] (R86); ci16 is no type of it. -/
def execVcvt (t : Fin 64) (f : VVec) (s : State) : Res := issueV t (.vcvt t f) 0 0 s
/-- VPK.GN4 (R89). -/
def execVpkGn4 (t : Fin 64) (f : VVec) (s : State) : Res := issueV t (.vpkGn4 t f) 0 0 s
/-- VPK.CT8 (R89). -/
def execVpkCt8 (t : Fin 64) (f : VVec) (s : State) : Res := issueV t (.vpkCt8 t f) 0 0 s
/-- VPK.S8 (R89). -/
def execVpkS8 (t : Fin 64) (f : VVec) (s : State) : Res := issueV t (.vpkS8 t f) 0 0 s
/-- VPK.U8 (R89). -/
def execVpkU8 (t : Fin 64) (f : VVec) (s : State) : Res := issueV t (.vpkU8 t f) 0 0 s
/-- VUPK.GN4 (R89): code 0b1000 decodes as 0 whatever the scale. -/
def execVupkGn4 (t : Fin 64) (f : VVec) (s : State) : Res := issueV t (.vupkGn4 t f) 0 0 s
/-- VUPK.CT8 (R89): codes 0 and 0x80 decode as 0 whatever the scale. -/
def execVupkCt8 (t : Fin 64) (f : VVec) (s : State) : Res := issueV t (.vupkCt8 t f) 0 0 s
/-- VUPK.S8 (R89). -/
def execVupkS8 (t : Fin 64) (f : VVec) (s : State) : Res := issueV t (.vupkS8 t f) 0 0 s
/-- VUPK.U8 (R89). -/
def execVupkU8 (t : Fin 64) (f : VVec) (s : State) : Res := issueV t (.vupkU8 t f) 0 0 s
/-- VPERM: within each beat of 64 (R87). -/
def execVperm (t : Fin 64) (f : VVec) (s : State) : Res := issueV t (.vperm t f) 0 0 s
/-- VPERMX: over the whole group (R87). -/
def execVpermx (t : Fin 64) (f : VVec) (s : State) : Res := issueV t (.vpermx t f) 0 0 s
/-- VREV (R87). -/
def execVrev (t : Fin 64) (f : VVec) (s : State) : Res := issueV t (.vrev t f) 0 0 s
/-- VZIP (R87). -/
def execVzip (t : Fin 64) (f : VVec) (s : State) : Res := issueV t (.vzip t f) 0 0 s
/-- VUZPE (R87). -/
def execVuzpe (t : Fin 64) (f : VVec) (s : State) : Res := issueV t (.vuzpe t f) 0 0 s
/-- VUZPO (R87). -/
def execVuzpo (t : Fin 64) (f : VVec) (s : State) : Res := issueV t (.vuzpo t f) 0 0 s
/-- VSLUP (R87). -/
def execVslup (t : Fin 64) (f : VVec) (s : State) : Res := issueV t (.vslup t f) 0 0 s
/-- VSLDN (R87). -/
def execVsldn (t : Fin 64) (f : VVec) (s : State) : Res := issueV t (.vsldn t f) 0 0 s
/-- VBCL: broadcast one lane (R87). -/
def execVbcl (t : Fin 64) (f : VVec) (s : State) : Res := issueV t (.vbcl t f) 0 0 s
/-- VRSUM (R88). -/
def execVrsum (t : Fin 64) (f : VVec) (s : State) : Res := issueV t (.vrsum t f) 0 0 s
/-- VRPROD (R88). -/
def execVrprod (t : Fin 64) (f : VVec) (s : State) : Res := issueV t (.vrprod t f) 0 0 s
/-- VRMAX (R88). -/
def execVrmax (t : Fin 64) (f : VVec) (s : State) : Res := issueV t (.vrmax t f) 0 0 s
/-- VRMIN (R88). -/
def execVrmin (t : Fin 64) (f : VVec) (s : State) : Res := issueV t (.vrmin t f) 0 0 s
/-- VRAMAX: the index as a u32 in lane 0 (R88). -/
def execVramax (t : Fin 64) (f : VVec) (s : State) : Res := issueV t (.vramax t f) 0 0 s
/-- VRAMIN (R88). -/
def execVramin (t : Fin 64) (f : VVec) (s : State) : Res := issueV t (.vramin t f) 0 0 s
/-- VRAND (R88). -/
def execVrand (t : Fin 64) (f : VVec) (s : State) : Res := issueV t (.vrand t f) 0 0 s
/-- VROR (R88). -/
def execVror (t : Fin 64) (f : VVec) (s : State) : Res := issueV t (.vror t f) 0 0 s
/-- VF (R94 to R98). -/
def execVf (t : Fin 64) (f : VChain) (s : State) : Res := issueV t (.vf t f) 0 0 s
/-- MLD (R110): nr rows of 64 bytes with row stride m(sel); the tile's other rows become 0. -/
def execMld (t : Fin 64) (f : VMat) (s : State) : Res := issueV t (.mld t f) (Fin.ofNat 16 f.vd) f.sel s
/-- MLS (R110): nr binary16 scales; the tile's other scales become +0. -/
def execMls (t : Fin 64) (f : VMat) (s : State) : Res := issueV t (.mls t f) (Fin.ofNat 16 f.vd) 0 s
/-- MZP (R104, R110). -/
def execMzp (t : Fin 64) (f : VMat) (s : State) : Res := issueV t (.mzp t f) (Fin.ofNat 16 f.vd) 0 s
/-- MRT (R108, R110): the rescale table of bank sel[1:0]. -/
def execMrt (t : Fin 64) (f : VMat) (s : State) : Res := issueV t (.mrt t f) (Fin.ofNat 16 f.vd) 0 s
/-- MMA (R111). -/
def execMma (t : Fin 64) (f : VMat) (s : State) : Res := issueV t (.mma t f) (Fin.ofNat 16 f.vd) 0 s
/-- MMAC: by the conjugate of the second operand (R111). -/
def execMmac (t : Fin 64) (f : VMat) (s : State) : Res := issueV t (.mmac t f) (Fin.ofNat 16 f.vd) 0 s
/-- MRD (R113). -/
def execMrd (t : Fin 64) (f : VMat) (s : State) : Res := issueV t (.mrd t f) (Fin.ofNat 16 f.vd) 0 s

end Sys2Proof.Machine
end

