-- ==== Sys2Proof/Machine/Context.lean ====
section
/-! DEFINITION. The context unit's own operations: configuration, states, accounting, starts, stops, saves, loads, teardown and release
(chapter 10, R245 to R258, R261). -/

namespace Sys2Proof.Machine

/-- Context `n`. -/
def State.ctx (s : State) (n : Fin 256) : Ctx := s.cx.ctx[n.val]

/-- State code of a context (R247): 0 OFF, 1 OUT, 2 LOAD, 3 IDLE, 4 READY, 5 RUN, 6 STOP, 7 PARK, 8 SAVE, 9 TEAR. -/
def State.cstate (s : State) (n : Fin 256) : Nat := s.get (CTX_STATn.state n)

/-- Replace context `n`; CTX_STATn.job and nq follow it. -/
def State.withCtx (s : State) (n : Fin 256) (f : Ctx → Ctx) : State :=
  let s := s.withCx fun c => { c with ctx := c.ctx.set n.val (f c.ctx[n.val]) }
  let x := s.ctx n
  (s.put (CTX_STATn.job n) x.job.isSome.toNat).put (CTX_STATn.nq n) x.queued.length

/-! ## Configuration (R245) -/

/-- The logical tiles of context `n`, ascending. -/
def State.ctiles (s : State) (n : Fin 256) : List (Fin 64) :=
  let m := s.get (CTX_CTXn.tiles n)
  (List.finRange 64).filter (fun t => m.testBit t.val)

/-- Class of context `n`: 0 F, 1 A, 2 B. -/
def State.ccls (s : State) (n : Fin 256) : Nat := s.get (CTX_CTXn.cls n)

/-- Bytes of the range on one tile. -/
def State.crange (s : State) (n : Fin 256) : Nat := (s.get (CTX_CTXn.len n) + 1) * 16384

/-- Scratchpad address of the range. -/
def State.clow (s : State) (n : Fin 256) : Nat := s.get (CTX_CTXn.lo n) * 16384

/-- Image address in LPDDR6. -/
def State.cimage (s : State) (n : Fin 256) : Nat := s.get (CTX_CTXn.image n) * 65536

/-- Bytes of all ranges. -/
def State.cbytes (s : State) (n : Fin 256) : Nat := (s.ctiles n).length * s.crange n

/-- Scratchpad address of the register image. -/
def State.cregs (s : State) (n : Fin 256) : Nat := s.clow n + s.crange n - imageBytes

/-- Clusters that a context's tiles touch. -/
def State.cclusters (s : State) (n : Fin 256) : List (Fin 8) :=
  (List.finRange 8).filter (fun c => (s.ctiles n).any (fun t => clusterOf t = c))

/-- Two contexts share a tile. -/
def State.shareTile (s : State) (a b : Fin 256) : Bool := (s.ctiles a).any (fun t => (s.ctiles b).contains t)

/-- The ranges of two contexts overlap on a common tile (R246). -/
def State.overlap (s : State) (a b : Fin 256) : Bool :=
  s.shareTile a b && s.clow a < s.clow b + s.crange b && s.clow b < s.clow a + s.crange a

/-- Contexts that hold a job or are being torn down, or whose ranges are resident: the only ones that the unit acts on. -/
def State.liveCtx (s : State) : List (Fin 256) :=
  (List.finRange 256).filter fun n =>
    let x := s.ctx n
    x.resident || x.job.isSome || !x.queued.isEmpty || x.tear.isSome

/-! ## Accounting (R261) -/

/-- Count an event for a client; each counter stops at 0xFFFF_FFFF. -/
def State.clientCount (s : State) (c : Option (Fin 64)) (f : Nat → Fld) : State :=
  match c with
  | none => s
  | some c => s.put (f c) (satInc32 (s.get (f c)))

/-! ## States (R247) -/

/-- Put context `n` into state `k`: READY starts a count of age, leaving it clears the count and urgency (R254), PARK notes its ck,
OFF clears en, drain, cut, ckpt and the pending word. -/
def State.setCstate (s : State) (n : Fin 256) (k : Nat) : State :=
  let was := s.cstate n
  let s := s.put (CTX_STATn.state n) k
  let s := if k = 7 && was ≠ 7 then s.withCtx n fun x => { x with parkAt := s.mono } else s
  let s := if was = 4 && k ≠ 4 then (s.withCtx n fun x => { x with age := 0 }).put (CTX_STATn.urgent n) 0 else s
  if k = 0 then
    let s := (((s.put (CTX_CTXn.en n) 0).put (CTX_CTXn.drain n) 0).put (CTX_CTXn.cut n) 0).put (CTX_CTXn.ckpt n) 0
    (s.withCtx n fun _ => { Ctx.reset with endedAt := (s.ctx n).endedAt }).put (CTX_STATn.pend n) 0
  else if k = 3 && s.flag (CTX_CTXn.ckpt n) then s.withCtx n fun x => { x with writing := true }
  else s

/-- Tile `t` waits in WAITE at LDEPTH = 0 on a clear flag (R247). -/
def State.waitingClear (s : State) (t : Fin 64) : Bool :=
  let x := s.tile t
  s.flag (TIL_CTL.run t) && s.get (TIL_STAT.state t) = 2 && x.loops.isEmpty &&
    match x.awaited with
    | some k => !x.evf.getLsbD k
    | none => false

/-- Context `n` is blocked (R247). -/
def State.blocked (s : State) (n : Fin 256) : Bool :=
  s.cstate n = 5 && (s.ctiles n).all fun t => (!s.flag (TIL_CTL.run t) && (s.tile t).halted) || s.waitingClear t

/-- The context that holds tile `t`: in RUN or STOP, or about to start. -/
def State.ownerOf (s : State) (t : Fin 64) : Option (Fin 256) :=
  s.liveCtx.find? fun n => (s.cstate n = 5 || s.cstate n = 6 || (s.ctx n).startAt.isSome) && (s.ctiles n).contains t

/-- The job at the head of context `n`: the one in progress, else the first queued. -/
def Ctx.head (x : Ctx) : Option Job :=
  match x.job with
  | some j => some j
  | none => x.queued.head?

/-- The pending word holds a flag that a stopped tile awaits (R247, R248). -/
def State.woken (s : State) (n : Fin 256) : Bool :=
  (s.ctx n).awaited.any fun a => (s.get (CTX_STATn.pend n)).testBit a.2.val

/-- The job of context `n` can run: a queued job; or the one in progress when it was not waiting or its awaited flag has come. -/
def State.canRun (s : State) (n : Fin 256) : Bool :=
  let x := s.ctx n
  match x.job with
  | none => !x.queued.isEmpty
  | some _ => x.runnable || s.woken n

/-! ## Switch times (R147, R253) -/

/-- t_sw for bytes saved and loaded. With swap = 0 and bytes to move the spec gives none: a free number (log entry 13). -/
def State.tsw (s : State) (bytes : Nat) : Nat :=
  let swap := bitsOf s.mv.mem.rd.toNat 0 16
  if bytes = 0 then 8800 else if swap = 0 then 8800 + Config.freeNat s.fresh else 8800 + ceilDiv (bytes * 176) swap

/-- Swap positions exist in the frame (R127, R147), for loads in read slots and for saves in write slots. -/
def State.swapRead (s : State) : Bool := s.lck && s.mv.mem.swapSlots 0
def State.swapWrite (s : State) : Bool := s.lck && s.mv.mem.swapSlots 1

/-! ## Ranges and images (R246, R258) -/

/-- Move `n` bytes from `src` to `dst`, read with their checks (R316). -/
def State.moveRange (s : State) (src dst n : Nat) : State := (s.checkRead src n).copyRange src dst n

/-- Copy the ranges of context `n` to its image. -/
def State.saveRanges (s : State) (n : Fin 256) : State :=
  (s.ctiles n).zipIdx.foldl (fun u (t, i) => u.moveRange (spad t (s.clow n)) (s.cimage n + i * s.crange n) (s.crange n)) s

/-- Copy the image of context `n` to its ranges. -/
def State.loadRanges (s : State) (n : Fin 256) : State :=
  (s.ctiles n).zipIdx.foldl (fun u (t, i) => u.moveRange (s.cimage n + i * s.crange n) (spad t (s.clow n)) (s.crange n)) s

/-- The memories that a save, load or image of context `n` reaches are on (R245, R320). -/
def State.rangesOn (s : State) (n : Fin 256) : Bool := s.regionOn .lpddr && (s.ctiles n).all fun t => s.tileOn t

/-- Write the register images of the tiles of context `n` that its stop has stopped; that of a tile that had halted holds it as it stood at its
HALT (R246). -/
def State.writeImages (s : State) (n : Fin 256) : State :=
  ((s.ctiles n).filter fun t => !(s.tile t).halted).foldl (fun s t => s.writeImage t (s.cregs n)) s

/-- Read the register images of context `n`. -/
def State.readImages (s : State) (n : Fin 256) : State := (s.ctiles n).foldl (fun s t => s.readImage t (s.cregs n)) s

/-! ## Dropping, releasing and tearing down (R255 to R257) -/

/-- The tiles are no longer kept for a switch of context `n`. -/
def State.forgetSwitch (s : State) (n : Fin 256) : State :=
  s.withCx fun c => { c with switches := c.switches.filter (fun w => w.ctx ≠ n) }

/-- The queued jobs of context `n` are dropped and counted; an ARMED watch fires at the drop (R231). -/
def State.dropQueued (s : State) (n : Fin 256) : State :=
  let js := (s.ctx n).queued
  let s := s.withCtx n fun x => { x with queued := [] }
  js.foldl (fun s j =>
    let s := s.clientCount j.client CTX_CLIc.dropped
    match s.watchOf j with
    | some w => s.wdropped w
    | none => s) s

/-- Release context `n` without save to OFF (R255). -/
def State.release (s : State) (n : Fin 256) : State := ((s.forgetSwitch n).dropQueued n).setCstate n 0

/-- Stop tile `t` under R77: its issued bundles complete, run clears and TIL_STAT.state = 5. A tile that has stopped keeps its state. -/
def State.stopFault (s : State) (t : Fin 64) : State :=
  if s.flag (TIL_CTL.run t) then
    let s := (s.vDrain t).withTile t fun x =>
      { x.settle with undo := none, stopping := none, skip := true, delay := none, rpt := none, preStop := false, awaited := none, halted := true }
    ((s.put (TIL_CTL.run t) 0).put (TIL_STAT.state t) 5).put (TIL_STAT.pc t) (s.tile t).cur.toNat
  else s

/-- Every queue of the context's qmask in each of its clusters. -/
def State.cqueues (s : State) (n : Fin 256) : List (Fin 8 × Fin 32) :=
  let m := s.get (CTX_CTXn.qmask n)
  (s.cclusters n).flatMap fun c => ((List.finRange 32).filter (fun q => m.testBit q.val)).map fun q => (c, q)

/-- The class F job, queued by an enable or a restart, with no descriptor and no client (R245, R248). -/
def fixedJob (seq : Nat) : Job :=
  { seq := seq, tag := 0, client := none, flag := 0, fen := false, watch := none, tl := 0, deadline := none, psave := false, args := 0 }

/-- After a teardown for `cause` the ranges are released and the context goes to OFF, after a cut or a drain, or to OUT: with rst = 1 it keeps its
queued jobs; a class F job starts again at the next load (R257), and a context that a failed unit tore down counts as holding a job that waits for
load (R303), which is a job with no client when none is queued (DESIGN CHOICE, log entry 57). -/
def State.afterTear (s : State) (n : Fin 256) (cause : Nat) : State :=
  let off := cause = 1 || (s.ctx n).draining
  let s := s.withCtx n fun x => { x with tear := none, resident := false }
  if off then (s.dropQueued n).setCstate n 0
  else if s.flag (CTX_CTXn.rst n) then
    let s := if s.ccls n = 0 || (cause = 3 && (s.ctx n).queued.isEmpty) then
        (s.withCtx n fun x => { x with queued := [fixedJob s.cx.seq] }).withCx fun c => { c with seq := c.seq + 1 }
      else s
    s.setCstate n (if (s.ctx n).queued.isEmpty then 1 else 4)
  else (s.dropQueued n).setCstate n 1

/-- Outstanding Comet transfers of the context's tiles (R250, R257). -/
def State.cometsOut (s : State) (n : Fin 256) : Bool := (s.ctiles n).any fun t => !(s.comets t).isEmpty

/-- The outputs that a job is writing outside its ranges (R256): the destination rows of the present descriptors of its queues, and the remote ranges
of its outstanding Comet writes. -/
def State.outputsOf (s : State) (n : Fin 256) : List (Nat × Nat) :=
  let rows (q : Fin 8 × Fin 32) : List (Nat × Nat) :=
    match (s.dq q.1 q.2).desc with
    | none => []
    | some d =>
      if dOp d = 2 then (List.range (dReceivers d)).flatMap fun j => (List.range (dRows d)).map fun r => (receiverAddr d j (r * dRowOut d), dRowOut d)
      else if dRemoteDst d then []
      else (List.range (dRows d)).map fun (r : Nat) => (addr40 (dDst d) (dDstride d * r), dRowOut d)
  let comet (tr : CTransfer) : List (Nat × Nat) :=
    match tr.cmd with
    | some d => if cOp d = 0 then [(cRemote d, cLen d)] else []
    | none => []
  (s.cqueues n).flatMap rows ++ (s.ctiles n).flatMap fun t => (s.comets t).flatMap comet

/-- Put free values into the outputs in flight of a job (R256, log entry 14): its ranges, and what it was writing elsewhere in memory. -/
def State.loseOutputs (s : State) (n : Fin 256) : State :=
  let u := (s.ctiles n).foldl (fun u t => u.scramble (spad t (s.clow n)) (s.crange n)) s
  ((s.outputsOf n).filter fun r => (regionOf r.1).backed && (regionOf (r.1 + r.2 - 1)).backed).foldl (fun u r => u.scramble r.1 r.2) u

/-- The watches that a fault of context `n` reaches (R231), in ascending order (R232): those of the job in progress, unless its own fire is the
cause, and of the queued jobs. DEDUCED: the row for a fault of the job's context comes before that for a dropped job, by R232 (log entry 58). -/
def State.faultWatches (s : State) (n : Fin 256) (cause : Nat) : List (Fin 128) :=
  let x := s.ctx n
  let ws := ((if cause = 2 then [] else x.job.toList) ++ x.queued).filterMap s.watchOf
  (List.finRange 128).filter fun w => ws.contains w

/-- Tear down context `n` (R257): `cause` 0 tile fault, 1 cut, 2 watch fire, 3 failed unit; `t` the tile it names. Its slots and ranges are held to
the end of the teardown (R246, R407). -/
def State.teardown (s : State) (n : Fin 256) (cause : Nat) (t : Fin 64) : State :=
  let x := s.ctx n
  let onTiles := s.cstate n = 5 || s.cstate n = 6
  let s := s.forgetSwitch n
  let s := if onTiles then (s.ctiles n).foldl State.stopFault s else s
  let s := if onTiles && (cause = 1 || cause = 2) then s.loseOutputs n else s
  let s := (s.cqueues n).foldl (fun s q => s.dmaCancel q.1 q.2) s
  let s := match x.job with
    | some j => s.clientCount j.client CTX_CLIc.faulted
    | none => s
  let tag := match x.job with | some j => j.tag.toNat | none => 0
  let s := (s.raise CTX_CAUSE.fault).put CTX_FAULT.tag tag
  let s := ((s.put CTX_FAULT.ctx n).put CTX_FAULT.tile t).put CTX_FAULT.cause cause
  let s := (s.faultWatches n cause).foldl State.wfaulted s
  let s := (s.setCstate n 9).withCtx n fun x =>
    { x with job := none, started := false, awaited := [], runnable := false, loaded := false, toSave := false
             startAt := none, blockedAt := none, writing := false, tear := some cause }
  let s := s.put (CTX_CTXn.ckpt n) 0
  if s.cometsOut n then s else s.afterTear n cause

/-! ## Pushes of the monitor (R230, R232) -/

/-- Push the actions of the monitor that are due, in ascending watch order. -/
def State.pushDue (s : State) : Res :=
  let due := s.cx.pushes.filter fun p => monoLe p.due s.mono
  let s := s.withCx fun c => { c with pushes := c.pushes.filter fun p => !monoLe p.due s.mono }
  ((List.finRange 128).flatMap fun w => due.filter fun p => p.watch = w).foldl (fun r p => andThen r fun s => s.pushNext (nextPtr p.act.toNat)) (.next s)

/-! ## Watches of the unit's events -/

/-- A watch whose evaluation fired (R231): with onfire = 1 a RUN or OUT job runs on as a shadow; otherwise an ARMED job is dropped
unstarted and counted as ended, a RUN or OUT job is torn down with cause 2, and the watch closes. True when it closed. -/
def State.wreact (s : State) (w : Fin 128) (b : Nat) : State × Bool :=
  let x := s.watch w
  let st := s.wstate w
  let s := s.wfire w b
  if x.onfire && st ≠ 1 then (s.put (CTX_DMON_STATw.state w) 4, false)
  else if st = 1 then
    let n := x.ctx
    let cl := ((s.ctx n).queued.find? (fun j => j.seq = x.seq)).bind Job.client
    let wasHead := (s.ctx n).job.isNone && ((s.ctx n).queued.head?.map Job.seq) = some x.seq
    let s := s.withCtx n fun c => { c with queued := c.queued.filter (fun j => j.seq ≠ x.seq) }
    let s := s.clientCount cl CTX_CLIc.ended
    let s := if wasHead && s.cstate n = 4 then
        let s := (s.forgetSwitch n).withCtx n fun c => { c with startAt := none }
        let c := s.ctx n
        s.setCstate n (if c.queued.isEmpty then (if c.resident then 3 else 1) else 4)
      else s
    (s.wclose w, true)
  else
    ((s.teardown x.ctx 2 0).wclose w, true)

/-- Evaluate watch `w` in the present ck and react to a fire. True when the watch closed. -/
def State.wevaluate (s : State) (w : Fin 128) : State × Bool :=
  match s.wdecide w (s.wet w) with
  | (s, some b) => s.wreact w b
  | (s, none) => (s, false)

/-- A job starts or resumes in the present ck (R231): E = t_s + R[m]; evaluated with det = 0 (R234). -/
def State.wstart (s : State) (w : Fin 128) : State :=
  if s.wstate w = 1 || s.wstate w = 3 then
    let m := s.get (CTX_DMON_STATw.m w)
    let s := (s.withWatch w fun x => { x with e := s.mono + BitVec.ofNat 64 (x.r m) }).put (CTX_DMON_STATw.state w) 2
    if s.det then s else (s.wevaluate w).1
  else s

/-- A context stopped (R231): RUN goes to OUT with the job's own return switch time for `load` bytes, 0 while it is parked (R229). -/
def State.wstopped (s : State) (w : Fin 128) (load : Nat) : State :=
  if s.wstate w = 2 then (s.withWatch w fun x => { x with tsw := s.tsw load }).put (CTX_DMON_STATw.state w) 3 else s

/-- The context of a watch in OUT is saved: the return switch loads its ranges (R229). -/
def State.wsaved (s : State) (w : Fin 128) (load : Nat) : State :=
  if s.wstate w = 3 then s.withWatch w fun x => { x with tsw := s.tsw load } else s

/-- A switch is charged `tc` to watch `w` (R233): ARMED and OUT are evaluated with it. True when the watch fired and closed. -/
def State.wcharge (s : State) (w : Fin 128) (tc : Nat) : State × Bool :=
  match s.wstate w with
  | 1 => (s.withWatch w fun x => { x with tst := tc }).wevaluate w
  | 3 => (s.withWatch w fun x => { x with tsw := tc }).wevaluate w
  | _ => (s, false)

/-! ## Starts, ends and stops (R249, R250) -/

/-- Start or resume the job of context `n` in the present ck (R249): after a load or at a resume the images are read; a new job's args
are copied; the pending word and the descriptor's flag merge into EVF; yreq clears and every tile that has not halted runs. -/
def State.startCtx (s : State) (n : Fin 256) : State :=
  let x := s.ctx n
  match x.head with
  | none => s.setCstate n (if x.resident then 3 else 1)
  | some j =>
    let resume := x.started
    let s := (s.forgetSwitch n).withCtx n fun c =>
      { c with job := some j, queued := if c.job.isNone then c.queued.drop 1 else c.queued, started := true, startAt := none
               awaited := [], runnable := false, loaded := false, blockedAt := none }
    let s := if x.loaded || resume then s.readImages n else s
    let word := BitVec.ofNat 32 (s.get (CTX_STATn.pend n)) ||| (if j.fen && !resume then BitVec.ofNat 32 (2 ^ j.flag.val) else 0)
    let s := (s.put (CTX_STATn.pend n) 0).setCstate n 5
    let s := (s.ctiles n).foldl (fun u t =>
      let u := if resume then u else u.setBytes (spad t (s.clow n)) (bytesOf 32 j.args.toNat)
      let u := ((onesOf 32 word.toNat).foldl (fun u k => u.setEvf t k) u).put (TIL_CTL.yreq t) 0
      if resume then (if (u.tile t).halted then u else u.resumeTile t) else u.startTile t (u.get (TIL_ENTRY.idx t))) s
    let s := (s.cqueues n).foldl (fun s q => if (s.dq q.1 q.2).paused then s.dmaStart q.1 q.2 else s) s
    match s.watchOf j with
    | some w => s.wstart w
    | none => s

/-- The job of context `n` has ended at its last HALT (R247), each tile's image written at its own (R246): the end is counted, the watch closes, and
the next queued job makes it READY; a drained context is released (R255). -/
def State.endJob (s : State) (n : Fin 256) : State :=
  let x := s.ctx n
  let s := s.withCtx n fun c => { c with job := none, started := false, endedAt := s.mono, blockedAt := none, awaited := [], runnable := false }
  let s := match x.job with
    | some j =>
      let s := s.clientCount j.client CTX_CLIc.ended
      match s.watchOf j with
      | some w => s.wended w
      | none => s
    | none => s
  if x.draining then s.release n
  else s.setCstate n (if x.queued.isEmpty then 3 else 4)

/-- Order a stop of context `n` (R250): at the yield points, or pre-emptively; its DMA queues pause after their present descriptors. -/
def State.orderStop (s : State) (n : Fin 256) (preempt save : Bool) : State :=
  let s := (s.withCtx n fun c => { c with toSave := save }).setCstate n 6
  let s := (s.ctiles n).foldl (fun s t =>
    if preempt then s.withTile t fun x => { x with preStop := true } else s.put (TIL_CTL.yreq t) 1) s
  (s.cqueues n).foldl (fun s q => if s.flag (DMA_Qn_STAT.busy q.1 q.2) then s.withDq q.1 q.2 fun x => { x with hold := true } else s) s

/-- Every tile of context `n` has stopped, its Comet transfers have completed and its queues have paused (R250). -/
def State.stopDone (s : State) (n : Fin 256) : Bool :=
  (s.ctiles n).all (fun t => !s.flag (TIL_CTL.run t)) && !s.cometsOut n
    && (s.cqueues n).all (fun q => !s.flag (DMA_Qn_STAT.busy q.1 q.2))

/-- Begin to save the ranges of context `n` (R252); the return of its job will load them (R229). -/
def State.beginSave (s : State) (n : Fin 256) : State :=
  let s := (s.withCtx n fun c => { c with toSave := false, startAt := none }).setCstate n 8
  match (s.ctx n).job.bind s.watchOf with
  | some w => s.wsaved w (s.cbytes n)
  | none => s

/-- Begin to load the ranges of context `n`: it is resident from here (R246). -/
def State.beginLoad (s : State) (n : Fin 256) : State := (s.withCtx n fun c => { c with resident := true }).setCstate n 2

/-- Move every switch on whose stops have completed: contexts that are still in its way are saved, and once all are out the incoming
context loads, or, when its ranges are resident, takes its tiles at the next decision (R147, R251, R252). -/
def State.advanceSwitches (s : State) : State :=
  s.cx.switches.foldl (fun s w =>
    if w.stops.any (fun y => s.cstate y = 6) then s
    else
      let s := w.saves.foldl (fun s y =>
        if (s.ctx y).resident && (s.cstate y = 3 || s.cstate y = 4 || s.cstate y = 7) then s.beginSave y else s) s
      if w.saves.any (fun y => s.cstate y = 8) then s
      else if !w.load then s.forgetSwitch w.ctx
      else if (s.ctx w.ctx).resident then (if s.cstate w.ctx = 4 then s.forgetSwitch w.ctx else s)
      else if s.cstate w.ctx = 4 then s.beginLoad w.ctx
      else s.forgetSwitch w.ctx) s

end Sys2Proof.Machine
end

