-- ==== Sys2Proof/Machine/Jobs.lean ====
section
/-! DEFINITION. The commands of the context unit and the deadline monitor: job descriptors, dispatch, starts and stops, enable, drain, cut,
checkpoint, teardown, ageing and periodic checks (chapters 09 and 10). -/

namespace Sys2Proof.Machine

/-! ## Job descriptors (R242 to R244, R248) -/

def jTag (d : BitVec 512) : Nat := dfield d 0 0 32
def jKind (d : BitVec 512) : Nat := dfield d 4 0 2
def jClient (d : BitVec 512) : Fin 64 := Fin.ofNat 64 (dfield d 5 0 6)
def jCtx (d : BitVec 512) : Fin 256 := Fin.ofNat 256 (dfield d 6 0 8)
def jFlag (d : BitVec 512) : Fin 32 := Fin.ofNat 32 (dfield d 8 0 5)
def jFen (d : BitVec 512) : Bool := dfield d 8 5 1 = 1
def jWake (d : BitVec 512) : Bool := dfield d 8 6 1 = 1
def jWen (d : BitVec 512) : Bool := dfield d 9 7 1 = 1

/-- A non-zero RSV field of a job descriptor (R242). -/
def jRsv (d : BitVec 512) : Bool :=
  dfield d 4 2 6 ≠ 0 || dfield d 5 6 2 ≠ 0 || dfield d 7 0 8 ≠ 0 || dfield d 8 7 1 ≠ 0 || dfield d 10 5 3 ≠ 0 || dfield d 11 0 8 ≠ 0
    || dfield d 12 27 5 ≠ 0 || dfield d 12 0 6 ≠ 0 || dfield d 16 33 31 ≠ 0
    || (match jKind d with
        | 0 => dfield d 24 0 64 ≠ 0
        | 1 => !(nextPtr (dfield d 24 0 64)).ok || dfield d 32 0 256 ≠ 0
        | _ => dfield d 24 3 5 ≠ 0 || dfield d 24 13 51 ≠ 0 || dfield d 32 0 256 ≠ 0)

/-- A descriptor that R244 skips. -/
def State.jobBad (s : State) (d : BitVec 512) : Bool :=
  jKind d = 3 || jRsv d ||
    match jKind d with
    | 0 => !s.flag (CTX_CTXn.en (jCtx d)) || (jWen d && s.ccls (jCtx d) ≠ 1) || (!jWake d && s.ccls (jCtx d) = 0)
    | 1 => (nextPtr (dfield d 24 0 64)).cls > 5 || (nextPtr (dfield d 24 0 64)).next = 0
    | _ => false

/-- Skip a descriptor (R244). -/
def State.jobSkip (s : State) (d : BitVec 512) : State :=
  (((s.raise CTX_CAUSE.bad).put CTX_LAST.ctx (jCtx d)).put CTX_LAST.tag (jTag d)).clientCount (some (jClient d)) CTX_CLIc.dropped

/-- Queue a job on its context and arm its watch (R227, R248); `dl` replaces the descriptor's deadline (R243). -/
def State.queueJob (s : State) (d : BitVec 512) (dl : Option Deadline) : State :=
  let n := jCtx d
  let drop (s : State) : State := s.clientCount (some (jClient d)) CTX_CLIc.dropped
  if (s.ctx n).draining then drop s
  else if (s.ctx n).queued.length ≥ 4 then drop (s.raise CTX_CAUSE.ovf)
  else
    let seq := s.cx.seq
    let (tl, deadline) : Fin 8 × Option Nat := match dl with
      | some x => (x.tl, some x.t)
      | none => (Fin.ofNat 8 (dfield d 10 0 3), if dfield d 10 3 1 = 1 then some (dfield d 16 0 33) else none)
    let s := s.withCx fun c => { c with seq := c.seq + 1 }
    let (s, w) := if jWen d then s.warm (Fin.ofNat 128 (dfield d 9 0 7)) n seq tl deadline (recAddr (64 * dfield d 12 6 21)) else (s, none)
    let j : Job :=
      { seq := seq, tag := BitVec.ofNat 32 (jTag d), client := some (jClient d), flag := jFlag d, fen := jFen d, watch := w, tl := tl
        deadline := deadline, psave := dfield d 10 4 1 = 1, args := BitVec.ofNat 256 (dfield d 32 0 256) }
    let s := s.withCtx n fun c => { c with queued := c.queued ++ [j] }
    let s := s.clientCount (some (jClient d)) CTX_CLIc.issued
    let s := if s.cstate n = 3 || (s.cstate n = 1 && (s.ctx n).job.isNone) then s.setCstate n 4 else s
    match w with
    | some w => (s.wevaluate w).1
    | none => s

/-- A flag for context `n` (R248): to its tiles 24 ck later in RUN or STOP, else into the pending word. -/
def State.flagCtx (s : State) (n : Fin 256) (k : Nat) : State :=
  if s.cstate n = 5 || s.cstate n = 6 then s.schedule 24 (.ctxFlag n k)
  else s.put (CTX_STATn.pend n) (s.get (CTX_STATn.pend n) ||| 2 ^ k)

/-- Deliver a wake (R248): its flag goes to the job in progress; with none it is dropped. -/
def State.wakeJob (s : State) (d : BitVec 512) : State :=
  let n := jCtx d
  let c := some (jClient d)
  if (s.ctx n).draining || (s.ctx n).job.isNone then s.clientCount c CTX_CLIc.dropped
  else
    let s := s.clientCount c CTX_CLIc.issued
    let s := if jFen d then s.flagCtx n (jFlag d) else s
    s.clientCount c CTX_CLIc.ended

/-- The memory that a job descriptor's watch record, latency table and progress word lie in is on (R227, R320). -/
def State.watchOn (s : State) (d : BitVec 512) : Bool :=
  if !jWen d || !s.flag CTX_DMON_CFG.en then true
  else
    let a := recAddr (64 * dfield d 12 6 21)
    s.addrOn a && s.addrOn (recAddr (s.le (a + 8) 4)) && s.addrOn (recAddr (s.le (a + 12) 4))

/-- A job descriptor arrives at the context unit (R243, R244). -/
def State.deliverJob (s : State) (d : BitVec 512) (dl : Option Deadline) : Res :=
  let c := some (jClient d)
  if s.jobBad d then .next (s.jobSkip d)
  else match jKind d with
    | 0 => if jWake d then .next (s.wakeJob d) else faultIf (!s.watchOn d) .poweredOff (.next (s.queueJob d dl))
    | 1 =>
      andThen ((s.clientCount c CTX_CLIc.issued).pushNext (nextPtr (dfield d 24 0 64))) fun s => .next (s.clientCount c CTX_CLIc.ended)
    | _ =>
      let cl : Fin 8 := Fin.ofNat 8 (dfield d 24 0 3)
      let q : Fin 32 := Fin.ofNat 32 (dfield d 24 8 5)
      faultIf (s.flag (DMA_Qn_RING.en cl q) && !s.domOn (72 + cl.val)) .poweredOff <|
        .next (((s.clientCount c CTX_CLIc.issued).dmaStart cl q).clientCount c CTX_CLIc.ended)

/-- TILE_JOB (R248): a kind 0 descriptor with wake = 0, or one of the reserved kind, which R244 skips. -/
def execTileJob (d : BitVec 512) (s : State) : Res := inside 82 1 s fun s =>
  if jKind d = 3 || (jKind d = 0 && !jWake d) then s.deliverJob d none else .next s

/-- WAKE (R248): a kind 0 descriptor with wake = 1. -/
def execWake (d : BitVec 512) (s : State) : Res := inside 82 1 s fun s =>
  if jKind d = 0 && jWake d then s.deliverJob d none else .next s

/-- HARD_ENGINE_POINTER (R243): a kind 1 descriptor. -/
def execHardEnginePointer (d : BitVec 512) (s : State) : Res := inside 82 1 s fun s =>
  if jKind d = 1 then s.deliverJob d none else .next s

/-- DMA_QUEUE_START (R133, R243): a kind 2 descriptor. -/
def execDmaQueueStart (d : BitVec 512) (s : State) : Res := inside 82 1 s fun s =>
  if jKind d = 2 then s.deliverJob d none else .next s

/-! ## Dispatch (R249 to R253) -/

/-- Insert by a key, equal keys keeping their order. -/
def insertBy (k : Fin 256 → Int) (n : Fin 256) : List (Fin 256) → List (Fin 256)
  | [] => [n]
  | m :: ms => if k n ≤ k m then n :: m :: ms else m :: insertBy k n ms

/-- Sort by a key; equal keys keep their order. -/
def sortBy (k : Fin 256 → Int) : List (Fin 256) → List (Fin 256)
  | [] => []
  | n :: ns => insertBy k n (sortBy k ns)

/-- The remaining time of a class A job; a job without a deadline comes after every other. -/
def State.remaining (s : State) (n : Fin 256) : Int :=
  match (s.ctx n).head with
  | some j => match j.deadline with
    | some d => airDiff d (s.atNow j.tl)
    | none => 2 ^ 40
  | none => 2 ^ 40

/-- The order of runnable jobs (R249): class F loads, urgent class B jobs, class A by remaining time, class B by issue;
from shedding level 1 on no class B job (R332). -/
def State.dispatchOrder (s : State) : List (Fin 256) :=
  let ready := s.liveCtx.filter fun n => s.cstate n = 4 && (s.ctx n).startAt.isNone && !(s.ctx n).writing && s.canRun n && !(s.ccls n = 2 && s.shedLevel ≥ 1)
  let issue (n : Fin 256) : Int := match (s.ctx n).head with | some j => (j.seq : Int) | none => 0
  let urgent := ready.filter fun n => s.ccls n = 2 && s.flag (CTX_STATn.urgent n)
  ready.filter (fun n => s.ccls n = 0)
    ++ sortBy (fun n => (s.ctx n).urgSeq) urgent
    ++ sortBy (fun n => s.remaining n * 256 + n.val) (ready.filter fun n => s.ccls n = 1)
    ++ sortBy issue (ready.filter fun n => s.ccls n = 2 && !s.flag (CTX_STATn.urgent n))

/-- How a holder of the head job's tiles is displaced (R251): none, the job waits; else whether pre-emptively. -/
def State.displace (s : State) (n y : Fin 256) : Option Bool :=
  if s.cstate y ≠ 5 || (s.ctx y).startAt.isSome || s.ccls y = 0 then none
  else if s.blocked y then some false
  else if s.ccls n = 1 && s.ccls y = 2 then
    some ((match (s.ctx n).head with | some j => j.psave | none => false) && s.flag (CTX_CTXn.pre y))
  else none

/-- A resident context that may be saved to make room (R252). -/
def State.savable (s : State) (y : Fin 256) : Bool :=
  s.ccls y ≠ 0 && !(s.ctx y).writing && (s.ctx y).startAt.isNone && (s.cstate y = 3 || s.cstate y = 7 || s.blocked y)

/-- The save order (R252) as a key: IDLE contexts, least recently ended first, then latest expected wake; ties to the higher number. -/
def State.saveKey (s : State) (y : Fin 256) : Int :=
  let x := s.ctx y
  if s.cstate y = 3 then (x.endedAt.toNat * 256 + 255 - y.val : Nat)
  else
    let base := match s.cstate y, x.blockedAt with
      | 7, _ => x.parkAt.toNat
      | _, some b => b.toNat
      | _, none => s.mono.toNat
    (2 ^ 80 : Nat) - ((base + s.get (CTX_CTXn.wexp y) * Config.ckPerUs) * 256 + y.val : Nat)

/-- The contexts whose ranges are in the way of context `n` (R252), beside those that are displaced; none when the job waits. -/
def State.inTheWay (s : State) (n : Fin 256) (displaced : List (Fin 256)) : Option (List (Fin 256)) :=
  let res := s.liveCtx.filter fun y => y ≠ n && (s.ctx y).resident
  let clash := res.filter (s.overlap n)
  let slots := (s.cclusters n).map fun c =>
    let occ := res.filter fun y => (s.cclusters y).contains c
    if occ.length < 16 then some none
    else match sortBy s.saveKey (occ.filter s.savable) with
      | [] => none
      | y :: _ => some (some y)
  if slots.any Option.isNone then none
  else
    let way := (clash ++ slots.filterMap fun x => x.getD none).eraseDups
    if way.all fun y => displaced.contains y || s.savable y then some way else none

/-- Order the switch that the head job `n` needs (R251 to R253): one decision and one charge; nothing when its watch fires and closes. The rules apply
to each holder of its tiles: where one makes the job wait, the others are still displaced, and no room is made. -/
def State.orderSwitch (s : State) (n : Fin 256) (held : List (Fin 256)) : State :=
  let plan := held.map fun y => (y, s.displace n y)
  let waits := plan.any fun p => p.2.isNone
  let moved := plan.filterMap fun p => p.2.map fun pre => (p.1, pre)
  if waits && moved.isEmpty then s
  else
    let clash := (moved.map Prod.fst).filter (s.overlap n)
    let way? := if waits || (s.ctx n).resident then some [] else s.inTheWay n clash
    match way? with
    | none => s
    | some way =>
      let stops := moved ++ (way.filter fun y => s.cstate y = 5 && !held.contains y).map fun y => (y, false)
      let saves := sortBy s.saveKey (way ++ clash.filter fun y => !way.contains y)
      let bytes := saves.foldl (fun b y => b + s.cbytes y) 0 + (if (s.ctx n).resident then 0 else s.cbytes n)
      let yint := (stops.filter fun p => !p.2 && !s.blocked p.1).foldl (fun m p => max m (s.get (CTX_CTXn.yint p.1))) 0
      let charged := match ((s.ctx n).head).bind s.watchOf with
        | some w => s.wcharge w (yint + s.tsw bytes)
        | none => (s, false)
      if charged.2 then charged.1
      else
        let s := charged.1.withCx fun c => { c with switches := c.switches ++ [⟨n, stops.map Prod.fst, saves, !waits⟩] }
        let s := stops.foldl (fun s p => s.orderStop p.1 p.2 (saves.contains p.1)) s
        let s := (saves.filter fun y => !(stops.map Prod.fst).contains y).foldl State.beginSave s
        s.advanceSwitches

/-- The repair unit holds dispatch to the position of tile `t`: its tile has failed, or rotates (R302, R303). -/
def State.posHeld (s : State) (t : Fin 64) : Bool :=
  s.unitHeld 0 t || s.rep.moves.any fun m => m.kind = 0 && m.unit = t.val && m.done = 1

/-- Consider one runnable job (R249): it starts at t + 24 when its tiles are free and its ranges resident; only the head of the order
displaces others or makes room. -/
def State.tryDispatch (s : State) (n : Fin 256) (isHead : Bool) : State :=
  if s.cstate n ≠ 4 || (s.ctx n).startAt.isSome || (s.ctiles n).any s.posHeld || s.cx.switches.any (fun w => w.ctx = n || s.shareTile w.ctx n) then s
  else
    let held := s.liveCtx.filter fun y =>
      y ≠ n && (s.cstate y = 5 || s.cstate y = 6 || (s.ctx y).startAt.isSome) && s.shareTile n y
    if (s.ctx n).resident && held.isEmpty then
      (s.withCtx n fun c => { c with startAt := some (s.mono + 24), age := 0 }).put (CTX_STATn.urgent n) 0
    else if isHead then s.orderSwitch n held
    else s

/-- DISPATCH (R249): the decision at TMB_MONO mod 16 = 0. -/
def execDispatch (s : State) : Res := inside 82 1 s fun s =>
  if s.mono.toNat % 16 ≠ 0 then .next s
  else
    let order := s.dispatchOrder
    .next (order.foldl (fun s n => s.tryDispatch n (order.head? = some n)) s)

/-- A job starts or resumes (R249); of class B at shedding level 1 or more it stops at its first yield point (R332). -/
def State.startJob (s : State) (n : Fin 256) : State :=
  let s := s.startCtx n
  if s.ccls n = 2 && s.cstate n = 5 && s.shedLevel ≥ 1 then s.orderStop n false false else s

/-- JOB_START (R249): 24 ck after the decision, the job starts or resumes. -/
def execJobStart (n : Fin 256) (s : State) : Res := inside 82 1 s fun s =>
  match (s.ctx n).startAt with
  | none => .next s
  | some t =>
    if (s.mono - t).toInt < 0 then .next s
    else faultIf (!(s.ctiles n).all fun t => s.tileOn t) .poweredOff (.next (s.startJob n))

/-- STOP_COMPLETE (R247, R250): once every tile has stopped and quiesced, the register images are written and the context goes to SAVE, to PARK when
every tile has halted or awaits a clear flag, or to READY. -/
def execStopComplete (n : Fin 256) (s : State) : Res := inside 82 1 s fun s =>
  if s.cstate n ≠ 6 || !s.stopDone n then .next s
  else
    let x := s.ctx n
    let s := s.writeImages n
    let aw := (s.ctiles n).filterMap fun t =>
      match (s.tile t).halted, (s.tile t).awaited with
      | false, some k => if (s.tile t).evf.getLsbD k then none else some (t, k)
      | _, _ => none
    let run := (s.ctiles n).any fun t => !(s.tile t).halted && !aw.any (fun a => a.1 = t)
    let s := s.withCtx n fun c => { c with awaited := aw, runnable := run }
    let s := match x.job.bind s.watchOf with
      | some w => s.wstopped w 0
      | none => s
    let s := if x.toSave then s.beginSave n else s.setCstate n (if run || s.woken n then 4 else 7)
    .next s.advanceSwitches

/-- LOAD_COMPLETE (R247): the image is in the ranges and the job starts; with swap = 0 the load makes no progress (R147). -/
def execLoadComplete (n : Fin 256) (s : State) : Res := inside 82 1 s fun s =>
  if s.cstate n ≠ 2 || !s.swapRead then .next s
  else faultIf (!s.rangesOn n) .poweredOff <|
    .next (((s.loadRanges n).withCtx n fun c => { c with loaded := true }).startJob n)

/-- SAVE_COMPLETE (R247): the ranges are in the image, the slots are released, and the context goes to OUT, or waits for load when its job
can run; with swap = 0 the save makes no progress (R147). -/
def execSaveComplete (n : Fin 256) (s : State) : Res := inside 82 1 s fun s =>
  if s.cstate n ≠ 8 || !s.swapWrite then .next s
  else faultIf (!s.rangesOn n) .poweredOff <|
    let s := (s.saveRanges n).withCtx n fun c => { c with resident := false }
    .next (s.setCstate n (if s.canRun n then 4 else 1)).advanceSwitches

/-- JOB_END (R247): in RUN, the last tile of the context has halted. A class F job never ends (R248). -/
def execJobEnd (n : Fin 256) (s : State) : Res := inside 82 1 s fun s =>
  if s.cstate n = 5 && s.ccls n ≠ 0 && (s.ctx n).job.isSome
      && (s.ctiles n).all (fun t => !s.flag (TIL_CTL.run t) && (s.tile t).halted && s.get (TIL_STAT.state t) = 0) then
    .next (s.endJob n).advanceSwitches
  else .next s

/-- AWAITED_FLAG (R247, R252): an awaited flag has reached the pending word of a parked context, or of one saved with its job in
progress. -/
def execAwaitedFlag (n : Fin 256) (s : State) : Res := inside 82 1 s fun s =>
  if (s.cstate n = 7 || (s.cstate n = 1 && (s.ctx n).job.isSome)) && s.woken n then .next (s.setCstate n 4) else .next s

/-- TILE_STOP (R73, R77, R250, R409): a stop of tile `t` completes; a pre-emptive stop is taken at an interrupt point. A HALT writes the
register image of the tile of a context (R246). -/
def execTileStop (t : Fin 64) (s : State) : Res :=
  if !s.fck || !s.tileOn t || s.held 1 then .next s
  else
    let s := if (s.tile t).preStop && s.flag (TIL_CTL.run t) && (s.tile t).stopping.isNone && (s.tile t).stopPoint then
        s.withTile t fun x => x.stopWith 4 else s
    let halts := decide ((s.tile t).stopping = some 0)
    match s.ownerOf t with
    | some n => .next (if halts && (s.tile t).vq.isEmpty then (s.stopTile t).writeImage t (s.cregs n) else s.stopTile t)
    | none => .next (s.stopTile t)

/-! ## Enable, drain, cut and checkpoint (R245, R255, R256, R258) -/

/-- An enable that R245 refuses. -/
def State.enableBad (s : State) (n : Fin 256) : Bool :=
  let m := s.get (CTX_CTXn.tiles n)
  let bt := s.get CTX_BTILES.tiles
  let cls := s.ccls n
  cls = 3 || m = 0 || s.get (CTX_CTXn.len n) < 7 || s.get (CTX_CTXn.lo n) + s.get (CTX_CTXn.len n) > 127
    || s.cimage n + s.cbytes n > 0x0F00000000
    || (List.finRange 256).any (fun o =>
        o ≠ n && s.flag (CTX_CTXn.en o) && (cls = 0 || s.ccls o = 0) && m &&& s.get (CTX_CTXn.tiles o) ≠ 0)
    || (s.det && (if cls = 2 then m &&& bt ≠ m else m &&& bt ≠ 0))

/-- Enable context `n` with its present fields (R245). -/
def State.enableCtx (s : State) (n : Fin 256) : State :=
  if s.flag (CTX_CTXn.en n) then s
  else if s.enableBad n then s.raise CTX_CAUSE.en_bad
  else
    let s := (s.put (CTX_CTXn.en n) 1).withCtx n fun _ => Ctx.reset
    if s.ccls n = 0 then
      let s := (s.withCtx n fun c => { c with queued := [fixedJob s.cx.seq] }).withCx fun c => { c with seq := c.seq + 1 }
      s.setCstate n 4
    else s.setCstate n 1

/-- CONTEXT_ENABLE (R245). -/
def execContextEnable (n : Fin 256) (s : State) : Res := fabric s fun s => .next (s.enableCtx n)

/-- Drain context `n` (R255). -/
def State.drainCtx (s : State) (n : Fin 256) : State :=
  if !s.flag (CTX_CTXn.en n) then s
  else
    let s := (s.withCtx n fun c => { c with draining := true }).put (CTX_CTXn.drain n) 1
    if (s.ctx n).job.isNone && s.cstate n ≠ 9 then (s.release n).advanceSwitches else s

/-- DRAIN (R255). -/
def execDrain (n : Fin 256) (s : State) : Res := fabric s fun s => .next (s.drainCtx n)

/-- Cut context `n` (R256); with det = 1 as a drain, except on class F. -/
def State.cutCtx (s : State) (n : Fin 256) : State :=
  if !s.flag (CTX_CTXn.en n) then s
  else if s.det && s.ccls n ≠ 0 then s.drainCtx n
  else (s.teardown n 1 0).advanceSwitches

/-- CUT (R256). -/
def execCut (n : Fin 256) (s : State) : Res := fabric s fun s => .next (s.cutCtx n)

/-- CKPT (R258): the write begins at the next instant at which the context is IDLE. -/
def execCkpt (n : Fin 256) (s : State) : Res := fabric s fun s =>
  if !s.flag (CTX_CTXn.en n) then .next s
  else
    let s := s.put (CTX_CTXn.ckpt n) 1
    .next (if s.cstate n = 3 then s.withCtx n fun c => { c with writing := true } else s)

/-- CHECKPOINT_COMPLETE (R258): the ranges are in the image and ckpt reads 0; with swap = 0 the write makes no progress (R147). -/
def execCheckpointComplete (n : Fin 256) (s : State) : Res := inside 82 1 s fun s =>
  if !(s.ctx n).writing || !s.swapWrite then .next s
  else faultIf (!s.rangesOn n) .poweredOff <|
    .next (((s.saveRanges n).withCtx n fun c => { c with writing := false }).put (CTX_CTXn.ckpt n) 0)

/-- TEARDOWN (R257): tile `t` of context `n` has faulted, cause 0, or 3 when its unit has failed (R303); a teardown that waits for Comet
transfers ends once none is outstanding. -/
def execTeardown (n : Fin 256) (t : Fin 64) (s : State) : Res := inside 82 1 s fun s =>
  match (s.ctx n).tear with
  | some cause => .next (if s.cometsOut n then s else (s.afterTear n cause).advanceSwitches)
  | none =>
    if (s.cstate n = 5 || s.cstate n = 6) && (s.ctiles n).contains t && !s.flag (TIL_CTL.run t) && s.get (TIL_STAT.state t) = 5 then
      .next (s.teardown n (if s.rep.failed.contains (0, t.val) then 3 else 0) t).advanceSwitches
    else .next s

/-- BACKGROUND_AGEING (R254): with det = 0 a runnable class B job whose age exceeds CTX_AGE becomes urgent for one dispatch. -/
def execBackgroundAgeing (n : Fin 256) (s : State) : Res := inside 82 1 s fun s =>
  let us := s.get CTX_AGE.us
  if !s.det && us ≠ 0 && s.cstate n = 4 && s.ccls n = 2 && !s.flag (CTX_STATn.urgent n) && (s.ctx n).age > us * Config.ckPerUs then
    let s := (s.withCtx n fun c => { c with urgSeq := s.cx.urg }).withCx fun c => { c with urg := c.urg + 1 }
    .next (s.put (CTX_STATn.urgent n) 1)
  else .next s

/-! ## Periodic checks (R229, R234) -/

/-- The ck of the last periodic check of watch `w`: TMB_MONO mod 1,024 = 8w. -/
def State.checkCk (s : State) (w : Fin 128) : BitVec 64 := s.mono - BitVec.ofNat 64 ((s.mono.toNat + 1024 - 8 * w.val) % 1024)

/-- The periodic check of `tw` found watch `w` in RUN; in t_w itself its present state counts (R229). -/
def State.checkRuns (s : State) (w : Fin 128) (tw : BitVec 64) : Bool :=
  (s.watch w).check = some (tw, 2) || (s.since tw = 0 && s.wstate w = 2)

/-- The events of context `n` that precede a periodic check in one ck (R232), as far as they have come about: job end, fault, context stopped, start
or resume. -/
def State.eventsFirst (s : State) (n : Fin 256) : Res :=
  andThen (execJobEnd n s) fun s =>
    andThen (match (s.ctiles n).find? fun (t : Fin 64) => s.get (TIL_STAT.state t) = 5 with
      | some t => execTeardown n t s
      | none => .next s) fun s =>
    andThen (execStopComplete n s) fun s => execJobStart n s

/-- WATCH_PERIODIC_CHECK (R228, R229): with det = 0, a watch that the check of t_w found in RUN has its progress word read at the first port-14 slot at
or after t_w, and one that it found ARMED, RUN or OUT is decided at t_w + 24, after the other events of its context in that ck (R232). -/
def execWatchPeriodicCheck (w : Fin 128) (s : State) : Res := inside 82 1 s fun s =>
  let x := s.watch w
  let tw := s.checkCk w
  let off := s.since tw
  let due (s : State) : Bool := 1 ≤ s.wstate w && s.wstate w ≤ 3 && (s.watch w).check.map Prod.fst = some tw && (s.watch w).decided ≠ some tw
  if s.det || s.wstate w = 0 || s.wstate w = 4 then .next s
  else if s.checkRuns w tw && off = portWait x.prog tw.toNat && x.seen ≠ some tw then
    faultIf (!s.addrOn x.prog) .poweredOff (.next (s.wread w tw))
  else if off = 24 && due s then
    andThen (s.eventsFirst x.ctx) fun s => .next <|
      if due s then ((s.withWatch w fun x => { x with decided := some tw }).wevaluate w).1.advanceSwitches else s
  else .next s

/-! ## What every ck does -/

/-- The periodic check whose t_w is the ck that ends now notes the state in which it finds its watch (R229). -/
def State.checkTick (s : State) : State :=
  let tw := s.mono - 1
  let m := tw.toNat % 1024
  let w := Fin.ofNat 128 (m / 8)
  if s.det || m % 8 ≠ 0 || s.wstate w = 0 || s.wstate w = 4 then s
  else s.withWatch w fun x => { x with check := some (tw, s.wstate w) }

/-- One ck of the contexts (R252, R254): the ck, now ending, in which a context became blocked is kept, and a runnable class B job ages. -/
def State.ctxTick (s : State) : State :=
  let s := s.checkTick
  s.withCx fun c => { c with ctx := Vector.ofFn fun (n : Fin 256) =>
    let x := c.ctx[n.val]
    if x.job.isNone && x.queued.isEmpty then x
    else
      let st := s.cstate n
      let since := if st = 5 && s.blocked n then some (x.blockedAt.getD (s.mono - 1)) else none
      let x := { x with blockedAt := since }
      if st = 4 && !s.det && s.ccls n = 2 && x.startAt.isNone then { x with age := x.age + 1 } else x }

end Sys2Proof.Machine
end

