-- ==== Sys2Proof/Machine/Orrery.lean ====
section
/-! DEFINITION. The Orrery: timetable decoding, groups, launches, event and descriptor delivery, and Conjunction (chapter 02, R38 to
R48).  A timetable row names the engine that decodes its word. -/

namespace Sys2Proof.Machine

/-- Replace the Orrery. -/
def State.withOrr (s : State) (f : Orrery → Orrery) : State := { s with orr := f s.orr }

/-- `ta` of engine `n`. -/
def State.ta (s : State) (n : Fin 8) (k : Fin 4) : Nat := s.get (ORR_ENGn_TAk.t n k)

/-- Set `ta` of engine `n`. -/
def State.setTa (s : State) (n : Fin 8) (k : Fin 4) (v : Nat) : State := s.put (ORR_ENGn_TAk.t n k) v

/-- Word being decoded by engine `n`. -/
def State.engPc (s : State) (n : Fin 8) : Nat := s.get (ORR_ENGn_STAT.pc n)

/-- CONJ is driven low unless an engine is in a barrier whose instant it has not reached (R46). -/
def State.syncConj (s : State) : State :=
  let out := s.orr.eng.toList.any fun e => match e.group with
    | some g => g.conj && g.reached.isNone
    | none => false
  s.withOrr fun o => { o with conjLow := !out, conjHigh := o.conjHigh && out }

/-- Halt engine `n` (R43): run clears; sets of groups whose instant was reached still leave. -/
def State.haltEngine (s : State) (n : Fin 8) : State :=
  let s := (s.put (ORR_ENGn_CTL.run n) 0).put (ORR_ENGn_STAT.state n) 0
  (s.withEngine n fun e => { e with active := false, swap := none, loops := [], group := none }).syncConj

/-- Execute a word as HALT and set bad_op (R42). -/
def State.badOp (s : State) (n : Fin 8) : State := (s.raiseBit ORR_CAUSE.bad_op n).haltEngine n

/-! ## Decoding (R38, R39) -/

/-- A word of the loop body (R41), under the wrap of word addresses at 2,048. -/
def Loop.holds (l : Loop) (a : Nat) : Bool := (a + 2048 - l.start) % 2048 < l.len

/-- `a` is the last word of the loop body. -/
def Loop.ends (l : Loop) (a : Nat) : Bool := a = (l.start + l.len + 2047) % 2048

/-- `k` ck of decoding or loop-back pass in engine `n` (R39). -/
def State.afterDecode (s : State) (n : Fin 8) (k : Nat) : State := s.withEngine n fun e => { e with dec := e.dec + BitVec.ofNat 64 k }

/-- The engine decodes its next word: in the present ck, or, where it has decoded a word in this ck or a later one already, in the ck after that
(R39: one word per ck). -/
def State.nextDecode (s : State) (n : Fin 8) : State :=
  s.withEngine n fun e => { e with dec := if (s.mono - e.dec).toInt > 0 then s.mono else e.dec + 1 }

/-- How many ck after the present one the word of the last decode was decoded. -/
def State.decodeAhead (s : State) (n : Fin 8) : Nat := ((s.engine n).dec - s.mono).toNat

/-- The air time of timeline `tl` `k` ck from now. -/
def State.airIn (s : State) (tl k : Nat) : Nat :=
  if s.timelineOn tl then
    airCount (NT.ofTotal (s.tb.nt.total + k * s.get TMB_NT_INC.inc)) (s.get TMB_EPOCH.sec) (s.get (TMB_ATn_OFF.off tl))
  else 0

/-- The air time of engine `n`'s timeline at the ck of its last decode. -/
def State.airAtDecode (s : State) (n : Fin 8) : Nat := s.airIn (s.engine n).tl (s.decodeAhead n)

/-- Where decoding goes on after the word at `pc` (R41): at each body end ta advances by the period, and the body repeats while runs
are left. Answers the next word and the levels left. -/
def State.loopBack (s : State) (n : Fin 8) (pc : Nat) : List Loop → State × Nat × List Loop
  | [] => (s, (pc + 1) % 2048, [])
  | l :: ls =>
    if l.ends pc then
      let s := s.setTa n l.ta (airAdd (s.ta n l.ta) l.period)
      match l.left with
      | none => (s.afterDecode n 1, l.start, l :: ls)
      | some r => if r > 1 then (s.afterDecode n 1, l.start, { l with left := some (r - 1) } :: ls) else State.loopBack s n pc ls
    else (s, (pc + 1) % 2048, l :: ls)

/-- Advance engine `n` past the word at its pc. -/
def State.orrNext (s : State) (n : Fin 8) : State :=
  let (s', pc, ls) := s.loopBack n (s.engPc n) (s.engine n).loops
  (s'.put (ORR_ENGn_STAT.pc n) pc).withEngine n fun e => { e with loops := ls }

/-- TMB_MONO is later than `m`. -/
def State.after (s : State) (m : BitVec 64) : Bool := (s.mono - m).toInt > 0

/-- Move the group of engine `n`, whose instant was reached at `r` and is `air`, to the sets that leave; the instant must lie at least
16 ck after the last decode (R39). -/
def State.leave (s : State) (n : Fin 8) (g : Group) (r : BitVec 64) (air : Nat) : Res :=
  faultIf (match g.inst with | .now _ => false | _ => decide ((r - g.last).toInt < 16)) .instantPast <|
    .next ((s.withEngine n fun e =>
      { e with group := none, dec := if (r - e.dec).toInt > 0 then r else e.dec, launching := if g.acts.isEmpty then e.launching else e.launching ++ [⟨g.acts, r, air, 0⟩] }).put
        (ORR_ENGn_STAT.state n) 1)

/-- End the group of engine `n` before a word that is no action is decoded (R38, R39): an open group without a wait ends here; the
engine decodes nothing until the instant of a wait has been reached and its ck has passed. -/
def State.endGroup (s : State) (n : Fin 8) (f : State → Res) : Res :=
  match (s.engine n).group with
  | none => f s
  | some g =>
    match g.inst, g.reached with
    | .now t, _ => andThen (s.leave n g g.last t) f
    | .at t, some r => if s.after r then andThen (s.leave n g r t) f else .next s
    | _, _ => .next s

/-- The engine decodes words: it is running, and not in a body of no words that repeats without end. -/
def State.decoding (s : State) (n : Fin 8) : Bool :=
  (s.engine n).active && match (s.engine n).loops with
    | l :: _ => l.len ≠ 0
    | [] => true

/-- Decode a word that is no action. -/
def State.decode (s : State) (n : Fin 8) (f : State → State) : Res :=
  if s.decoding n then s.endGroup n fun s => .next (f (s.nextDecode n)) else .next s

/-- Decode an action (R38): it joins the open group, or opens one without a wait; an action of a wait whose instant has been
reached is late (R39). -/
def State.action (s : State) (n : Fin 8) (a : Act) : Res :=
  if !s.decoding n then .next s
  else match (s.engine n).group with
    | none =>
      let s := s.nextDecode n
      .next ((s.withEngine n fun e => { e with group := some ⟨.now (s.airAtDecode n), false, [a], e.dec, none⟩ }).orrNext n)
    | some g =>
      faultIf g.reached.isSome .instantPast <|
        let s := s.nextDecode n
        let inst := match g.inst with | .now _ => .now (s.airAtDecode n) | i => i
        .next ((s.withEngine n fun e => { e with group := some { g with inst := inst, acts := g.acts ++ [a], last := e.dec } }).orrNext n)

/-- Open a wait's group; ORR_ENGn_STAT.state shows `st`. -/
def State.openGroup (s : State) (n : Fin 8) (i : GroupInst) (conj : Bool) (st : Nat) : State :=
  (s.withEngine n fun e => { e with group := some ⟨i, conj, [], e.dec, none⟩ }).put (ORR_ENGn_STAT.state n) st

/-- ORR_NOP (R41): nothing. -/
def execOrrNop (n : Fin 8) (s : State) : Res := insideUnit 82 1 11 n s fun s => s.decode n fun s => s.orrNext n

/-- ORR_HALT (R41, R43): the engine halts. -/
def execOrrHalt (n : Fin 8) (s : State) : Res := insideUnit 82 1 11 n s fun s => s.decode n fun s => s.haltEngine n

/-- JMP (R41): decoding goes on at `addr`; the EVERY bodies that do not hold it are left. -/
def execJmp (n : Fin 8) (addr : Fin 2048) (s : State) : Res := insideUnit 82 1 11 n s fun s => s.decode n fun s =>
  (s.withEngine n fun e => { e with loops := e.loops.dropWhile fun l => !l.holds addr }).put (ORR_ENGn_STAT.pc n) addr

/-- WAITA (R41): a group with instant t. -/
def execWaita (n : Fin 8) (t : BitVec 33) (s : State) : Res := insideUnit 82 1 11 n s fun s => s.decode n fun s =>
  (s.openGroup n (.at (t.toNat % Config.airWrap)) false 2).orrNext n

/-- WAITR (R41): a group with instant ta + t. -/
def execWaitr (n : Fin 8) (ta : Fin 4) (t : BitVec 33) (s : State) : Res := insideUnit 82 1 11 n s fun s => s.decode n fun s =>
  (s.openGroup n (.at (airAdd (s.ta n ta) t.toNat)) false 2).orrNext n

/-- SETT (R41). -/
def execSett (n : Fin 8) (ta : Fin 4) (t : BitVec 33) (s : State) : Res := insideUnit 82 1 11 n s fun s => s.decode n fun s =>
  (s.setTa n ta t.toNat).orrNext n

/-- ADDT (R41). -/
def execAddt (n : Fin 8) (ta : Fin 4) (t : BitVec 33) (s : State) : Res := insideUnit 82 1 11 n s fun s => s.decode n fun s =>
  (s.setTa n ta (airAdd (s.ta n ta) t.toNat)).orrNext n

/-- NEXTF (R41): the first frame start at least 8,192 at after the decode. -/
def execNextf (n : Fin 8) (ta : Fin 4) (s : State) : Res := insideUnit 82 1 11 n s fun s => s.decode n fun s =>
  let f := ceilDiv (s.airAtDecode n + 8192) Config.frameTicks * Config.frameTicks
  (s.setTa n ta (f % Config.airWrap)).orrNext n

/-- EVERY (R41, R42): opens a level over the next `len` words; a fifth level is bad; a body of no words ends at once after a finite
count, with ta advanced by every run. -/
def execEvery (n : Fin 8) (ta : Fin 4) (len : BitVec 8) (count : BitVec 16) (period : BitVec 26) (s : State) : Res :=
  insideUnit 82 1 11 n s fun s => s.decode n fun s =>
    if (s.engine n).loops.length ≥ 4 then s.badOp n
    else if len = 0 && count ≠ 0 then
      ((s.setTa n ta ((s.ta n ta + count.toNat * period.toNat) % Config.airWrap)).afterDecode n (count.toNat - 1)).orrNext n
    else
      let pc := (s.engPc n + 1) % 2048
      let l : Loop := ⟨pc, len.toNat, if count = 0 then none else some count.toNat, ta, period.toNat⟩
      (s.put (ORR_ENGn_STAT.pc n) (if len = 0 then s.engPc n else pc)).withEngine n fun e => { e with loops := l :: e.loops }

/-- ORR_RESERVED_OPCODE (R42): a reserved opcode executes as HALT and sets bad_op. -/
def execOrrReservedOpcode (n : Fin 8) (s : State) : Res := insideUnit 82 1 11 n s fun s => s.decode n fun s => s.badOp n

/-- SWAP (R41, R42, R313): with the other bank valid, a group at the first frame boundary at least 64 ck after the decode, decoding going on at
word 0 of the other bank, which runs from that boundary on; else it executes as HALT and sets bad_op. -/
def execSwap (n : Fin 8) (s : State) : Res := insideUnit 82 1 11 n s fun s => s.decode n fun s =>
  let b : Fin 2 := Fin.ofNat 2 (1 - s.get (ORR_ENGn_STAT.bank n))
  if !(s.get (ORR_ENGn_BANKV.valid n)).testBit b then s.badOp n
  else
    let t := (s.airIn (s.engine n).tl (s.decodeAhead n + 63) / Config.frameTicks + 1) * Config.frameTicks % Config.airWrap
    ((s.put (ORR_ENGn_STAT.pc n) 0).withEngine n fun e => { e with swap := some b, loops := [] }).openGroup n (.at t) false 4

/-- The Conjunction exit of engine `n` is `t`: the instant of its group, also written to ta0 (R46). -/
def State.conjExit (s : State) (n : Fin 8) (t : Nat) : State :=
  ((s.withEngine n fun e => { e with group := e.group.map fun g => { g with inst := .at t } }).setTa n 0 t).put (ORR_ENGn_STAT.state n) 2

/-- CONJ (R46): the chip releases CONJ and waits; with role 0 or 3 a single chip takes T_s = at_now + lead at once. -/
def execConj (n : Fin 8) (id : BitVec 8) (s : State) : Res := insideUnit 82 1 11 n s fun s => s.decode n fun s =>
  let s := ((s.openGroup n (.barrier id (s.engine n).dec) true 3).orrNext n).syncConj
  let role := s.get ORR_CONJ_CTL.role
  if role = 1 || role = 2 then s else s.conjExit n (airAdd (s.airAtDecode n) (s.get ORR_CONJ_CTL.lead))

/-- ISSUE (R41): joins the group; it acts at the group's launch. -/
def execIssue (n : Fin 8) (j : BitVec 10) (d : BitVec 32) (s : State) : Res := insideUnit 82 1 11 n s fun s => s.action n (.issue j d)

/-- SCAN (R41): joins the group. -/
def execScan (n : Fin 8) (r most : BitVec 8) (s : State) : Res := insideUnit 82 1 11 n s fun s => s.action n (.scan r most)

/-- IDLE (R41): joins the group. -/
def execIdle (n : Fin 8) (set : BitVec 8) (len : BitVec 24) (s : State) : Res := insideUnit 82 1 11 n s fun s => s.action n (.idle set len)

/-- AGCF (R41): joins the group. -/
def execAgcf (n : Fin 8) (g : BitVec 8) (f : Bool) (s : State) : Res := insideUnit 82 1 11 n s fun s => s.action n (.agcf g f)

/-- NFSNAP (R41): joins the group. -/
def execNfsnap (n : Fin 8) (g : BitVec 8) (s : State) : Res := insideUnit 82 1 11 n s fun s => s.action n (.nfsnap g)

/-- SIG (R41): joins the group. -/
def execSig (n : Fin 8) (k : Fin 32) (s : State) : Res := insideUnit 82 1 11 n s fun s => s.action n (.sig k)

/-! ## Launches (R38, R40, R41, R44) -/

/-- An event that arrives at TMB_MONO `due`. -/
def State.eventAt (s : State) (due : BitVec 64) (k : EventKind) : State := s.withOrr fun o => { o with events := o.events ++ [⟨due, k⟩] }

/-- ISSUE of job table entry `j` with deadline offset `d` (R41, R243); `base` is the instant plus the launch delay. -/
def State.issueJob (s : State) (tl : Fin 8) (base : BitVec 64) (air : Nat) (j d : Nat) : State :=
  let first := s.get (ORR_JOBTj.first j)
  let span := s.get (ORR_JOBTj.span j)
  let cl := s.get (ORR_JOBTj.cluster j)
  let desc := s.get (ORR_JOBTj.desc j)
  let dl : Option Deadline := if d = 0 then none else some ⟨tl, airAdd air d⟩
  match s.get (ORR_JOBTj.kind j) with
  | 0 =>
    if desc ≠ 0 then s.eventAt (base + 54) (.jobDesc (clusterBase cl + desc) dl)
    else s.eventAt (base + 14) (.tileFlag first span (s.get (ORR_JOBTj.flag j)))
  | 1 => if first > 5 then s else s.eventAt (base + 14) (.pointer first span cl desc dl)
  | 2 => if first > 7 || span > 31 then s else s.eventAt (base + 14) (.dmaStart first span)
  | _ => s

/-- SCAN of ring `r` for at most `most` descriptors by engine `n` (R44, R45): the header is read now; a scan that takes nothing is held
for this ck only. -/
def State.scanRing (s : State) (n : Fin 8) (base : BitVec 64) (r most : Nat) : Res :=
  let hold (s : State) (x : Scan) : State := s.withEngine n fun e => { e with scans := e.scans ++ [x] }
  let s := s.withEngine n fun e => { e with scans := e.scans.filter fun x => x.left ≠ 0 || x.ts = base }
  if (s.engine n).scans.length ≥ 4 then .next (s.raiseBit ORR_CAUSE.scan_ovf n)
  else if r > 63 || !s.flag (ORR_RINGr_CFG.en r) then .next (hold s ⟨0, 0, 0, 0, 0, base, 0⟩)
  else
    let cl := s.get (ORR_RINGr_CFG.cluster r)
    let off := 64 * s.get (ORR_RINGr_CFG.offset r)
    let l := s.get (ORR_RINGr_CFG.log2size r)
    let l := if 4 ≤ l && l ≤ 12 then l else 4
    faultIf (!s.addrOn (clusterBase cl + off)) .poweredOff <|
      let prod := BitVec.ofNat 32 (s.le (clusterBase cl + off) 4)
      let cons := BitVec.ofNat 32 (s.le (clusterBase cl + off + 4) 4)
      let s := s.checkRead (clusterBase cl + off) 8
      let ahead := (prod - cons).toNat
      if ahead > 2 ^ l then .next (hold (s.raiseBit ORR_CAUSE.ring_bad n) ⟨cl, off, l, cons, 0, base, 0⟩)
      else .next (hold s ⟨cl, off, l, cons, min ahead (if most = 0 then 64 else most), base, 0⟩)

/-- Chains of group `g`. -/
def State.grpChains (s : State) (g : Nat) : List (Fin 64) :=
  let m := s.get (ORR_GRPg.rx g)
  (List.finRange 64).filter fun c => m.testBit c.val

/-- Receive chain `c`. -/
def State.rxc (s : State) (c : Fin 64) : RxChain := s.fe.rx[c.val]

/-- Replace receive chain `c`. -/
def State.withRxc (s : State) (c : Fin 64) (f : RxChain → RxChain) : State :=
  { s with fe := { s.fe with rx := s.fe.rx.set c.val (f s.fe.rx[c.val]) } }

/-- Freeze or release the AGC of a chain (R175): a freeze stops the present window's update, a release restarts detection. -/
def State.agcFreeze (s : State) (f : Bool) (c : Fin 64) : State :=
  if f then (s.put (DFE_RXc_GAIN.fz_tt c) 1).withRxc c fun x => { x with stopped := true }
  else
    let s := s.put (DFE_RXc_GAIN.fz_tt c) 0
    match (s.rxc c).ended with
    | some (m, fz) =>
      if sameEk m s.mono then if fz then s else (s.put (DFE_RXc_GAIN.fz_det c) 0).withRxc c fun x => { x with det := 0 }
      else (s.put (DFE_RXc_GAIN.fz_det c) 0).withRxc c fun x => { x with released := some s.mono }
    | none => (s.put (DFE_RXc_GAIN.fz_det c) 0).withRxc c fun x => { x with released := some s.mono }

/-- Snap the noise-floor meter of a chain (R177); the samples of the window in progress from before the snap join it when the window is delivered. -/
def State.nfSnap (s : State) (c : Fin 64) : State :=
  let x := s.rxc c
  let s := (s.put (DFE_RXc_NF.n c) x.n).put (DFE_RXc_NF.sum c) (if x.n = 0 then 0 else x.sum.toNat)
  s.withRxc c fun x =>
    { x with sum := 0, n := 0
             snaps := if s.flag (DFE_RXc_CFG.en c) then s.atNow (s.get (DFE_RXc_CFG.at c)) :: x.snaps else [] }

/-- The DFE receive block is on and out of reset. -/
def State.dfeOn (s : State) : Bool := s.domOn 86 && !s.held 2

/-- An action takes effect (R41). -/
def State.launchAct (s : State) (n : Fin 8) (base : BitVec 64) (air : Nat) : Act → Res
  | .issue j d => .next (s.issueJob (s.engine n).tl base air j.toNat d.toNat)
  | .scan r most => s.scanRing n base r.toNat most.toNat
  | .idle set len =>
    .next (if len = 0 then s else s.withOrr fun o => { o with idle := o.idle ++ [⟨set.toNat, (s.engine n).tl, air, len.toNat⟩] })
  | .agcf g f => .next (if s.dfeOn then (s.grpChains g.toNat).foldl (fun s c => s.agcFreeze f c) s else s)
  | .nfsnap g => .next (if s.dfeOn then (s.grpChains g.toNat).foldl State.nfSnap s else s)
  | .sig k => .next (s.raiseBit ORR_SIG.sig k)

/-- Launch actions in order. -/
def State.launchActs (s : State) (n : Fin 8) (base : BitVec 64) (air : Nat) : List Act → Res
  | [] => .next s
  | a :: as => andThen (s.launchAct n base air a) fun s => State.launchActs s n base air as

/-- Launch the sets of a group that are due: set k at k + 1 ck after the instant (R38). `m` bounds their number. -/
def State.launchSets (s : State) (n : Fin 8) (l : Launching) : Nat → Res
  | 0 => .next s
  | m + 1 =>
    if l.acts.isEmpty then .next s
    else if s.after (l.reached + BitVec.ofNat 64 l.k) then
      andThen (s.launchActs n (l.reached + BitVec.ofNat 64 l.k) l.air (l.acts.take 8)) fun s =>
        State.launchSets s n { l with acts := l.acts.drop 8, k := l.k + 1 } m
    else .next (s.withEngine n fun e => { e with launching := e.launching ++ [l] })

/-- Launch what is due of each group in turn. -/
def State.launchAll (s : State) (n : Fin 8) : List Launching → Res
  | [] => .next s
  | l :: ls => andThen (s.launchSets n l (l.acts.length + 1)) fun s => State.launchAll s n ls

/-- Note the ck at which the instant of engine `n`'s group is reached (R25); a CONJ group then drives the line low again (R46), and a SWAP
changes the running bank (R313). -/
def State.markReached (s : State) (n : Fin 8) : State :=
  let e := s.engine n
  match e.group with
  | some ⟨.at t, c, acts, last, none⟩ =>
    if e.active && s.airReached e.tl t then
      let s := s.withEngine n fun e => { e with group := some ⟨.at t, c, acts, last, some s.mono⟩ }
      let s := match e.swap with
        | some b => (s.put (ORR_ENGn_STAT.bank n) b).withEngine n fun e => { e with swap := none }
        | none => s
      if c then s.syncConj else s
    else s
  | _ => s

/-- GROUP_LAUNCH (R38): a group whose instant is reached leaves, at the latest 16 ck after its last decode or else it was late (R39);
then the sets that are due launch. -/
def execGroupLaunch (n : Fin 8) (s : State) : Res := insideUnit 82 1 11 n s fun s =>
  let s := s.markReached n
  let go (s : State) : Res :=
    (s.withEngine n fun e => { e with launching := [] }).launchAll n (s.engine n).launching
  match (s.engine n).group with
  | some g =>
    match g.inst, g.reached with
    | .now t, _ => andThen (s.leave n g g.last t) go
    | .at t, some r => andThen (s.leave n g r t) go
    | _, _ => go s
  | none => go s

/-! ## Deliveries (R40, R45) -/

/-- The position of the earliest event that is due. -/
def firstDue (now : BitVec 64) : List Event → Option (Nat × BitVec 64)
  | [] => none
  | e :: es =>
    let rest := (firstDue now es).map fun p => (p.1 + 1, p.2)
    if monoLe e.due now then
      match rest with
      | some (i, d) => if monoLe e.due d then some (0, e.due) else some (i, d)
      | none => some (0, e.due)
    else rest

/-- An event reaches its target (R40, R133, R186, R243, R248). -/
def State.deliverEvent (s : State) : EventKind → Res
  | .tileFlag first span k =>
    let ts := (List.finRange 64).filter fun (t : Fin 64) => first ≤ t.val && t.val ≤ first + span
    faultIf (!ts.all fun t => s.tileOn t) .poweredOff <| .next (ts.foldl (fun s t => s.setEvf t k) s)
  | .pointer cls q cl desc dl => s.pushPtr cls q ⟨cl, desc, dl⟩
  | .dmaStart c q =>
    let c := Fin.ofNat 8 c
    let q := Fin.ofNat 32 q
    faultIf (s.flag (DMA_Qn_RING.en c q) && !s.domOn (72 + c.val)) .poweredOff (.next (s.dmaStart c q))
  | .jobDesc a dl =>
    faultIf (!s.rangeOn a 64) .poweredOff ((s.checkRead a 64).deliverJob (BitVec.ofNat 512 (s.le a 64)) dl)
  | .ctxFlag n k =>
    let n := Fin.ofNat 256 n
    if s.cstate n = 5 || s.cstate n = 6 then
      faultIf (!(s.ctiles n).all fun t => s.tileOn t) .poweredOff <| .next ((s.ctiles n).foldl (fun s t => s.setEvf t k) s)
    else .next (s.put (CTX_STATn.pend n) (s.get (CTX_STATn.pend n) ||| 2 ^ k))

/-- EVENT_DELIVERY (R40): the earliest event that is due reaches its target. -/
def execEventDelivery (s : State) : Res := inside 82 1 s fun s =>
  match firstDue s.mono s.orr.events with
  | none => .next s
  | some (i, _) =>
    match s.orr.events[i]? with
    | none => .next s
    | some e => (s.withOrr fun o => { o with events := o.events.eraseIdx i }).deliverEvent e.kind

/-- The ck at which the next descriptor of a scan is due (R45). -/
def Scan.due (x : Scan) : BitVec 64 := x.ts + BitVec.ofNat 64 (54 + 12 * x.i)

/-- The position of the scan whose next descriptor is due first. -/
def firstScan (now : BitVec 64) : List Scan → Option (Nat × BitVec 64)
  | [] => none
  | x :: xs =>
    let rest := (firstScan now xs).map fun p => (p.1 + 1, p.2)
    if x.left ≠ 0 && monoLe x.due now then
      match rest with
      | some (i, d) => if monoLe x.due d then some (0, x.due) else some (i, d)
      | none => some (0, x.due)
    else rest

/-- DESCRIPTOR_DELIVERY (R44, R45): the next descriptor of a scan of engine `n` that is due is read and reaches its target; after the
last one the scan is released, and cons is written in the next ck. -/
def execDescriptorDelivery (n : Fin 8) (s : State) : Res := insideUnit 82 1 11 n s fun s =>
  match firstScan s.mono (s.engine n).scans with
  | none => .next s
  | some (i, _) =>
    match (s.engine n).scans[i]? with
    | none => .next s
    | some x =>
      let a := clusterBase x.cl + (x.off + 64 + 64 * (x.next.toNat % 2 ^ x.log)) % 2 ^ 24
      faultIf (!s.addrOn a) .poweredOff <|
        let d := BitVec.ofNat 512 (s.le a 64)
        let x' : Scan := { x with next := x.next + 1, left := x.left - 1, i := x.i + 1 }
        let s := (s.checkRead a 64).withEngine n fun e =>
          { e with scans := if x'.left = 0 then e.scans.eraseIdx i else e.scans.set i x' }
        andThen (s.deliverJob d none) fun s =>
          .next (if x'.left = 0 then s.withOrr fun o => { o with cons := o.cons ++ [(clusterBase x.cl + x.off + 4, x'.next)] } else s)

/-! ## Control (R26, R42, R43) -/

/-- A write of ORR_ENGn_CTL. -/
def State.writeEngCtl (s : State) (n : Fin 8) (tl : Fin 8) (bank : Fin 2) (run : Bool) : State :=
  let was := s.flag (ORR_ENGn_CTL.run n)
  let s := ((s.put (ORR_ENGn_CTL.at n) tl).put (ORR_ENGn_CTL.bank n) bank).put (ORR_ENGn_CTL.run n) run.toNat
  if run then if !was && s.timelineOn tl then s.startEngine n else s
  else if was then (s.withEngine n fun e => { e with launching := [] }).haltEngine n
  else s

/-- ENGINE_START (R26, R43): a write of run = 1 while the engine is halted starts it at word 0 of the bank, once its timeline counts;
while run = 1 it has no effect on the engine. -/
def execEngineStart (n tl : Fin 8) (bank : Fin 2) (s : State) : Res := accessUnit 82 1 11 n s fun s => .next (s.writeEngCtl n tl bank true)

/-- ENGINE_STOP_WRITE (R43): a write of run = 0 halts the engine at once; sets not launched yet are not launched. -/
def execEngineStopWrite (n tl : Fin 8) (bank : Fin 2) (s : State) : Res := accessUnit 82 1 11 n s fun s => .next (s.writeEngCtl n tl bank false)

/-- The bank that engine `n` runs: a start that waits for its timeline holds the bank it is to run. -/
def State.runBank (s : State) (n : Fin 8) : Nat :=
  if (s.engine n).active then s.get (ORR_ENGn_STAT.bank n) else s.get (ORR_ENGn_CTL.bank n)

/-- TIMETABLE_BANK_WRITE (R43): a word of a bank; a write to the running bank is ignored and sets wr_active. -/
def execTimetableBankWrite (n : Fin 8) (b : Fin 2) (i : Fin 2048) (w : BitVec 64) (s : State) : Res := accessUnit 82 1 11 n s fun s =>
  if s.flag (ORR_ENGn_CTL.run n) && s.runBank n = b.val then .next (s.raiseBit ORR_CAUSE.wr_active n)
  else .next (s.put (ORR_BANK.w n b i) w.toNat)

/-! ## Conjunction (R46, R47) -/

/-- The barrier that engine `n` is in: its id and the TMB_MONO of its entry. -/
def State.barrierOf (s : State) (n : Fin 8) : Option (BitVec 8 × BitVec 64) :=
  match (s.engine n).group with
  | some ⟨.barrier id since, _, _, _, _⟩ => if (s.engine n).active then some (id, since) else none
  | _ => none

/-- CONJ_LINE_HIGH (R46): with CONJ released and this chip the leader, an engine in the barrier takes T_s = at_now + lead and sends START
to the followers. -/
def execConjLineHigh (n : Fin 8) (s : State) : Res := insideUnit 82 1 11 n s fun s =>
  if s.orr.conjLow then .next s
  else
    let s := s.withOrr fun o => { o with conjHigh := true }
    match s.barrierOf n with
    | some (id, _) =>
      if s.get ORR_CONJ_CTL.role = 1 then
        let tl := (s.engine n).tl
        let t := airAdd (s.atNow tl) (s.get ORR_CONJ_CTL.lead)
        .next ((s.withOrr fun o => { o with starts := o.starts ++ [(id, t, tl)] }).conjExit n t)
      else .next s
    | none => .next s

/-- A barrier fault halts the engine and sets its ORR_CAUSE.conj (R47). -/
def State.conjFault (s : State) (n : Fin 8) (f : Fld) : State := ((s.raise f).raiseBit ORR_CAUSE.conj n).haltEngine n

/-- CONJUNCTION_TIMEOUT (R47): an engine in the barrier for longer than tmo ms halts and sets ORR_CONJ_STAT.tmo. -/
def execConjunctionTimeout (n : Fin 8) (s : State) : Res := insideUnit 82 1 11 n s fun s =>
  let tmo := s.get ORR_CONJ_CTL.tmo
  match s.barrierOf n with
  | some (_, since) =>
    if tmo ≠ 0 && s.since since > tmo * Config.ckPerMs then .next (s.conjFault n ORR_CONJ_STAT.tmo) else .next s
  | none => .next s

/-- START(id, T_s) reaches engine `n` of a follower (R47): another id is ignored and noted; later than T_s − 16 ck halts. -/
def State.followStart (s : State) (n : Fin 8) (id : BitVec 8) (t : Nat) : State :=
  match s.barrierOf n with
  | some (own, _) =>
    if own ≠ id then (s.raise ORR_CONJ_STAT.id).raiseBit ORR_CAUSE.conj n
    else if !airLater t (s.airIn (s.engine n).tl 15) then s.conjFault n ORR_CONJ_STAT.late
    else s.conjExit n t
  | none => s

/-! ## What every ck does -/

/-- One ck of engine `n`: the ck of its instant is kept, and a body of no words that repeats without end advances its ta (R25, R41); a
failed engine does nothing (R307). -/
def State.engineTick (s : State) (n : Fin 8) : State :=
  if !(s.engine n).active || s.unitHeld 11 n then s
  else
    let s := s.markReached n
    match (s.engine n).loops with
    | l :: _ => if l.len = 0 then s.setTa n l.ta (airAdd (s.ta n l.ta) l.period) else s
    | [] => s

/-- Write the cons words of the scans that ended in the ck before (R44). -/
def State.writeCons (s : State) : State :=
  s.orr.cons.foldl (fun s c => if s.addrOn c.1 then s.setLe c.1 4 c.2.toNat else s) (s.withOrr fun o => { o with cons := [] })

/-- One ck of the Orrery: cons words; engines; an idle window is forgotten one frame after its end, when no sample of it can still come (log entry 18). -/
def State.orrTick (s : State) : State :=
  let s := (List.finRange 8).foldl State.engineTick s.writeCons
  if s.orr.idle.isEmpty then s
  else s.withOrr fun o => { o with idle := o.idle.filter fun w => airLater (airAdd w.start (w.len + Config.frameTicks)) (s.atNow w.tl) }

end Sys2Proof.Machine
end

