-- ==== Sys2Proof/Machine/Dfe.lean ====
section
/-! DEFINITION. The front end: receive chains, gain ports, FFT engines, transmit chains and the DFE job unit (chapter 07, R173 to R183). -/

namespace Sys2Proof.Machine

/-! ## Receive chains (R173 to R177) -/

/-- The receive link in data phase over which converter stream `v` comes (R283, R184). -/
def State.streamLink (s : State) (v : Nat) : Option (Fin 8) :=
  (List.finRange 8).find? fun k => s.jes.data.getLsbD k && s.get (JES_RXk_CFG.first k) ≤ v
    && v ≤ s.get (JES_RXk_CFG.first k) + s.get (JES_RXk_CFG.nstr k)

/-- Converter stream `v` comes over a receive link in data phase. -/
def State.streamLive (s : State) (v : Nat) : Bool := (s.streamLink v).isSome

/-- An instant on timeline `tl` lies in a multiblock that receive link `k` released as zeros (R283). -/
def State.inZeros (s : State) (k : Fin 8) (tl t : Nat) : Bool :=
  (s.jes.zeros[k.val]).any fun z => 0 ≤ airDiff t (s.airOf tl z.1) && airDiff t (s.airOf tl z.2) < 0

/-- What link `k` delivers of a window's samples, the instant of each given by `inst`: nothing but zeros without a link (R184, R283). -/
def State.received (s : State) (link : Option (Fin 8)) (tl : Nat) (inst : Nat → Nat) (x : List (BitVec 32)) : List (BitVec 32) :=
  match link with
  | none => x.map fun _ => 0
  | some k => x.zipIdx.map fun (w, i) => if s.inZeros k tl (inst i) then 0 else jesdCarry (s.flag (JES_RXk_CFG.np12 k)) w

/-- Decimation or interpolation by a code 0 to 4; other codes count as 0 (R173, R181). -/
def rateOf (code : Nat) : Nat := if code ≤ 4 then 2 ^ code else 1

/-- The compensated sample, at 20 bits, and the components that saturated (R176). -/
def compensate (code : BitVec 6) (w : BitVec 32) : CInt × Nat :=
  let z := CInt.ofWord w
  let r (x : Int) : Int := rne ((x * gainCode code.toNat : Int) / 4096 : Rat)
  let f (x : Int) : Int := sat x (-524288) 524287
  (⟨f (r z.re), f (r z.im)⟩, ([r z.re, r z.im].filter fun x => f x ≠ x).length)

/-- The code that the compensation of a sample multiplies for (R176): the newest that applies at its air instant. -/
def RxChain.codeAt (x : RxChain) (t : Nat) : BitVec 6 :=
  (((x.sent.reverse.map fun w => (w.2.1, w.2.2)) ++ x.comps).find? fun p => 0 ≤ airDiff t p.1).elim x.comp Prod.snd

/-- The compensation after a window whose last sample has air instant `t`. -/
def RxChain.settleComp (x : RxChain) (t : Nat) : RxChain :=
  { x with comp := (x.comps.find? fun p => 0 ≤ airDiff t p.1).elim x.comp Prod.snd, comps := x.comps.filter fun p => airDiff t p.1 < 0 }

/-- I² + Q². -/
def CInt.power (z : CInt) : Nat := (z.re * z.re + z.im * z.im).toNat

/-- Air instant `t` of timeline `tl` lies in an idle window of an idle set that includes receive chain `c` (R41, R177). -/
def State.idleAt (s : State) (c : Fin 64) (tl t : Nat) : Bool :=
  s.orr.idle.any fun w =>
    w.set < 256 && (s.get (ORR_IDLEs.rx w.set)).testBit c.val &&
      (let d := airDiff (airAdd t (s.get (TMB_ATn_OFF.off w.tl) + Config.airWrap - s.get (TMB_ATn_OFF.off tl) % Config.airWrap)) w.start
       0 ≤ d && d < w.len)

/-- A sum of powers, which stops at 2^64 − 1 (R177). -/
def sumPower (n : Nat) (xs : List (Nat × CInt)) : Nat := min (2 ^ 64 - 1) (n + (xs.map fun p => p.2.power).sum)

/-- Air instant `t` lies in a self-test segment of the chain (R300). -/
def RxChain.underTest (x : RxChain) (t : Nat) : Bool := x.tested.any fun p => 0 ≤ airDiff t p.1 && airDiff t p.2 < 0

/-- The noise-floor meter over a window (R177); it counts no sample of a chain that a self-test segment is testing (R300). Samples from before the
last snapshot, and not before the one ahead of it, belong to that snapshot. -/
def State.meter (s : State) (c : Fin 64) (tl : Nat) (xs : List (Nat × CInt)) : State :=
  let x := s.rxc c
  let hit := xs.filter fun p => s.idleAt c tl p.1 && !x.underTest p.1
  let (early, late) := match x.snaps with
    | [] => ([], hit)
    | a :: rest =>
      let (old, new) := hit.partition fun p => airDiff p.1 a < 0
      (match rest with
        | [] => old
        | b :: _ => old.filter fun p => 0 ≤ airDiff p.1 b, new)
  let s := (s.put (DFE_RXc_NF.sum c) (sumPower (s.get (DFE_RXc_NF.sum c)) early)).put (DFE_RXc_NF.n c) (s.get (DFE_RXc_NF.n c) + early.length)
  s.withRxc c fun x => { x with sum := BitVec.ofNat 64 (sumPower x.sum.toNat late), n := x.n + late.length, snaps := [] }

/-- A branch after a window of samples `ys`, the newest at air instant `t` (R173): what the mixer and the filter give for them joins the buffer,
which keeps the newest 16,384. -/
def Branch.feed (b : Branch) (dec : Nat) (nco : BitVec 32) (t step : Nat) (ys : List CInt) : Branch :=
  let d := rateOf dec
  let xs := b.x ++ (List.range (ys.length / d)).map (Config.ddcOut dec nco b.filt (components ys))
  { x := xs.drop (xs.length - 16384), last := t, step := step * d, filt := Config.ddcHold dec nco b.filt (components ys) }

/-- Feed the enabled branches of chain `c` with the samples of a window (R173). -/
def State.ddc (s : State) (c : Fin 64) (t step : Nat) (ys : List CInt) : State :=
  let dec := s.get (DFE_RXc_CFG.dec c)
  let nco (f : Fld) : BitVec 32 := BitVec.ofNat 32 (s.get f)
  s.withRxc c fun x =>
    { x with b0 := x.b0.feed dec (nco (DFE_RXc_CFG.nco c)) t step ys
             b1 := if s.flag (DFE_RXc_CFG.en1 c) then x.b1.feed dec (nco (DFE_RXc_NCO1.nco c)) t step ys else x.b1 }

/-- A new attenuation code: its word joins those that wait on the chain's gain port (R176). -/
def State.setAtt (s : State) (c : Fin 64) (att : Nat) : State :=
  if s.get (DFE_RXc_GAIN.att c) = att then s
  else
    let gp := Fin.ofNat 16 (s.get (DFE_RXc_AGC.gp c))
    let w : Fin 4 × Fin 64 × BitVec 6 := (Fin.ofNat 4 (s.get (DFE_RXc_AGC.gslot c)), c, BitVec.ofNat 6 att)
    let s := s.put (DFE_RXc_GAIN.att c) att
    { s with fe := { s.fe with port := s.fe.port.set gp.val { s.fe.port[gp.val] with waiting := s.fe.port[gp.val].waiting ++ [w] } } }

/-- Detection at the end of a window of power `p` (R175): a release during the window starts the run anew with the next one; one in the ek in which
the window ends leaves the run's last window to freeze the chain. -/
def State.detect (s : State) (c : Fin 64) (p : Nat) : State :=
  let n := s.get (DFE_RXc_AGC.det_n c)
  let x := s.rxc c
  let anew := match x.released with
    | some m => !sameEk m s.mono
    | none => false
  let k := if n = 0 || anew then 0 else if p ≤ s.get (DFE_RXc_AGC.det_thr c) then x.det + 1 else 0
  let fz : Bool := n ≠ 0 && k ≥ n
  (s.raiseIf fz (DFE_RXc_GAIN.fz_det c)).withRxc c fun x =>
    { x with det := if x.released.isSome && !fz then 0 else k, released := none, ended := some (s.mono, fz) }

/-- The attenuation update at the end of a window (R174). -/
def State.agcUpdate (s : State) (c : Fin 64) (p : Nat) : State :=
  let ka := s.get (DFE_RXc_AGC.ka c)
  let still := s.flag (DFE_RXc_GAIN.fz_tt c) || s.flag (DFE_RXc_GAIN.fz_det c) || (s.rxc c).stopped || ka = 0
  let s := s.withRxc c fun x => { x with stopped := false }
  if still then s
  else
    let e := rne ((((s.get (DFE_RXc_AGC.target c) : Int) - p) * ka : Int) / 32 : Rat)
    s.setAtt c (sat (s.get (DFE_RXc_GAIN.att c) + e) (s.get (DFE_RXc_AGC.amin c)) (s.get (DFE_RXc_AGC.amax c))).toNat

/-- Air instant `t` lies between a failure and the first symbol boundary after the remap (R307). -/
def quietAt (from_ to_ : Option Nat) (t : Nat) : Bool :=
  match from_ with
  | none => false
  | some a => 0 ≤ airDiff t a && match to_ with
    | some b => airDiff t b < 0
    | none => true

/-- The chain after a window whose last sample has air instant `t`: a failure that lies before it is over. -/
def RxChain.settleQuiet (x : RxChain) (t : Nat) : RxChain :=
  match x.zeroTo with
  | some b => if 0 ≤ airDiff t b then { x with zeroFrom := none, zeroTo := none } else x
  | none => x

/-- Air ticks of a latency in 2^-8 ns, rounded up (R347; log entry 46). -/
def latTicks (lat : Int) : Int := -((-lat * 6 : Int) / 3125 : Rat).floor

/-- AGC_WINDOW (R173 to R177): chain `c` has taken a window of 2^aw samples `x`, `step` at apart, the last one captured at air instant `t`, which
JRX_LATk refers to the converter: they read 0 without a link in data phase; the meter, the branches, P, detection and the attenuation follow. P of
an all-zero window is free. -/
def execAgcWindow (c : Fin 64) (t : BitVec 33) (step : Fin 256) (x : List (BitVec 32)) (s : State) : Res := inside 86 2 s fun s =>
  if s.absent 4 c || !s.flag (DFE_RXc_CFG.en c) || x.length ≠ 2 ^ max 8 (s.get (DFE_RXc_AGC.aw c)) then .next s
  else
    let tl := s.get (DFE_RXc_CFG.at c)
    let link := s.streamLink (s.get (DFE_RXc_CFG.conv c))
    let lat := match link with
      | some k => latTicks s.jes.lat[k.val]
      | none => 0
    let n := x.length
    let inst (t i : Nat) : Nat := (t + Config.airWrap - (n - 1 - i) * step.val % Config.airWrap) % Config.airWrap
    let x := s.received link tl (inst t.toNat) x
    let t := (((t.toNat : Nat) - lat : Int) % (Config.airWrap : Int)).toNat
    let y := s.rxc c
    let x := x.zipIdx.map fun (w, i) => if quietAt y.zeroFrom y.zeroTo (inst t i) then 0 else w
    let zs := x.zipIdx.map fun (w, i) => (inst t i, compensate (y.codeAt (inst t i)) w)
    let ys := zs.map fun p => (p.1, p.2.1)
    let s := s.meter c tl ys
    let s := (s.ddc c t step.val (ys.map Prod.snd)).withRxc c fun y =>
      { (y.settleQuiet t).settleComp t with clipped := y.clipped + (zs.map fun p => p.2.2).sum }
    let sum := (x.map fun w => (CInt.ofWord w).power).sum
    let p := if sum = 0 then Config.zeroPower.toNat else dbfs ((sum : Rat) / ((n * 2 ^ 30 : Nat) : Rat))
    let s := s.put (DFE_RXc_GAIN.pwr c) p
    .next ((s.detect c p).agcUpdate c p)

/-- The position of the waiting word that leaves next: the lowest slot, the oldest first. -/
def firstSlot (ws : List (Fin 4 × Fin 64 × BitVec 6)) : Option Nat :=
  (List.finRange 4).findSome? fun k => ws.findIdx? fun w => w.1 = k

/-- Air ticks that `n` ck take, rounded up. -/
def ckTicks (n : Nat) : Nat := ceilDiv (n * 1536) 6875

/-- GAIN_PORT_WORD (R176): on a free port the waiting word of the lowest slot leaves, taking 128 ek; its compensation applies from the sample that
crosses the converter's reference point glat ek after its last bit. -/
def execGainPortWord (gp : Fin 16) (s : State) : Res := inside 86 2 s fun s => crossing (.gain gp) s <|
  let p := s.fe.port[gp.val]
  let free := match p.busy with
    | some e => decide ((s.mono - e).toInt ≥ 0)
    | none => true
  match firstSlot p.waiting with
  | some i =>
    match free, p.waiting[i]? with
    | true, some (_, c, code) =>
      let e := s.mono + 256
      let d := 2 * s.get (DFE_RXc_AGC.glat c)
      let a := airAdd (s.atNow (s.get (DFE_RXc_CFG.at c))) (ckTicks (256 + d))
      let s := { s with fe := { s.fe with port := s.fe.port.set gp.val { waiting := p.waiting.eraseIdx i, busy := some e } } }
      .next (s.withRxc c fun x => { x with sent := x.sent ++ [(e + BitVec.ofNat 64 d, a, code)] })
    | _, _ => .next s
  | none => .next s

/-- GAIN_COMPENSATION (R176): the oldest word of chain `c` whose delay has passed gives the compensation. -/
def execGainCompensation (c : Fin 64) (s : State) : Res := inside 86 2 s fun s =>
  match (s.rxc c).sent with
  | (m, a, code) :: rest =>
    if !monoLe m s.mono then .next s
    else if s.flag (DFE_RXc_CFG.en c) then .next (s.withRxc c fun x => { x with comps := (a, code) :: x.comps, sent := rest })
    else .next (s.withRxc c fun x => { x with comp := code, comps := [], sent := rest })
  | [] => .next s

/-! ## FFT engines (R178 to R181) -/

def fDir (d : BitVec 1024) : Bool := ef d 0 0 1 = 1
def fSize (d : BitVec 1024) : Nat := ef d 0 1 3
/-- N. -/
def fN (d : BitVec 1024) : Nat := 128 * 2 ^ fSize d
def fBr (d : BitVec 1024) : Bool := ef d 0 4 1 = 1
def fChain (d : BitVec 1024) : Fin 64 := Fin.ofNat 64 (ef d 0 5 6)
def fCp (d : BitVec 1024) : Nat := ef d 0 16 16
def fFirst (d : BitVec 1024) : Nat := ef d 4 0 9
def fNprb (d : BitVec 1024) : Nat := ef d 4 9 9
def fQueue (d : BitVec 1024) : Fin 64 := Fin.ofNat 64 (ef d 4 18 6)
def fPos (d : BitVec 1024) : Nat := ef d 4 24 7
def fT (d : BitVec 1024) : Nat := ef d 8 0 33 % Config.airWrap
def fShift (d : BitVec 1024) : Nat := ef d 16 0 5
def fNcar (d : BitVec 1024) : Nat := ef d 16 16 9
def fSrc (d : BitVec 1024) : Nat := clAddr (ef d 20 0 27)

/-- Bin of subcarrier `k` (R179). -/
def fBin (d : BitVec 1024) (k : Nat) : Nat := (((k : Int) - 6 * fNcar d) % (fN d : Int)).toNat

/-- The subcarrier and the size are among those that R178 and R179 define. -/
def fDefined (d : BitVec 1024) (k : Nat) : Bool := fSize d ≤ 5 && k < 12 * fNcar d

/-- Index of the newest sample of a branch, counted from the first sample at or after `t`. -/
def Branch.newest (b : Branch) (t : Nat) : Option Nat :=
  let d := airDiff b.last t
  if b.x.isEmpty || d < 0 then none else some (d.toNat / max 1 b.step)

/-- Sample `i` from the first at or after `t`, whose newest has index `k`: none when it is older than the buffer reaches. -/
def Branch.sample (b : Branch) (k i : Nat) : Option CInt :=
  if k - i < b.x.length then some (.ofWord (nthD b.x (b.x.length - 1 - (k - i)) 0)) else none

/-- Σ over z(n) e^(∓j 2π bn/N), × 2^fixBits: the forward sign for `fwd`. -/
def dftBin (fwd : Bool) (n b : Nat) (zs : List CInt) : CInt :=
  zs.zipIdx.foldl (fun a (z, i) =>
    let c := cosTurn (b * i % n) n
    let q := if fwd then -(sinTurn (b * i % n) n) else sinTurn (b * i % n) n
    ⟨a.re + z.re * c - z.im * q, a.im + z.re * q + z.im * c⟩) ⟨0, 0⟩

/-- sat(rne(X/2^shift)) of a fixed-point X (R179). -/
def shiftSat (sh : Nat) (x : CInt) : CInt × Nat :=
  let f := ((2 ^ (fixBits + sh) : Nat) : Rat)
  satC ((x.re : Rat) / f) ((x.im : Rat) / f)

/-- The elements of an FFT output with the number of saturations: subcarriers 12 first to 12 (first + nprb) − 1. -/
def fftOut (d : BitVec 1024) (zs : List CInt) : List (CInt × Nat) :=
  (List.range (12 * fNprb d)).map fun i =>
    let k := 12 * fFirst d + i
    if fDefined d k then shiftSat (fShift d) (dftBin true (fN d) (fBin d k) zs) else (CInt.ofWord (Config.fftOpen d k), 0)

/-- The PRBs of a list of elements, from output PRB 0. -/
def prbsOf (zs : List CInt) : List (Nat × List (BitVec 8)) :=
  (List.range (zs.length / 12)).map fun p => (p, ((zs.drop (12 * p)).take 12).flatMap CInt.bytes)

/-- FFT (R178 to R180): once the branch buffer holds the last needed sample, the job of engine `f` writes its PRBs as one delivered message of
a batch, and ends. -/
def execFft (f : Fin 16) (s : State) : Res := insideUnit 86 2 6 f s fun s =>
  match (s.unit 0 f).job with
  | none => .next s
  | some j =>
    let d := j.desc
    if fDir d then .next s
    else
      let x := s.rxc (fChain d)
      let b := if fBr d then x.b1 else x.b0
      let k := b.newest (fT d)
      if fSize d ≤ 5 && (match k with | some k => decide (k < fCp d + fN d - 1) | none => true) then .next s
      else faultIf (s.flag (FH_QUEq_CFG.en (fQueue d)) && !s.bqOn (fQueue d)) .poweredOff <|
        let got := if fSize d ≤ 5 then (List.range (fN d)).map fun i => b.sample (k.getD 0) (fCp d + i) else []
        let s := s.raiseIf (got.any Option.isNone) DFE_CAUSE.late
        let out := fftOut d (got.map fun z => z.getD ⟨0, 0⟩)
        let s := s.raiseIf (out.any fun z => z.2 ≠ 0) DFE_CAUSE.sat
        let tl := s.get (DFE_RXc_CFG.at (fChain d))
        let (mu, ecp) := s.numerology tl
        let t := (s.place (fQueue d)
          { t := fT d, sym := (atDecode (fT d) mu ecp).symbol, tl := tl, hi := none, pos := fPos d, nmsg := 1, flags := 0, str := none
            prbs := prbsOf (out.map Prod.fst) }).1
        faultIf (s.flagLost t (fQueue d)) .poweredOff (t.engFree 0 f)

/-- The N samples of an IFFT, from the elements of its PRBs (R181). -/
def ifftOut (d : BitVec 1024) (zs : List CInt) : List (CInt × Nat) :=
  let bins := zs.zipIdx.map fun (z, i) => (fBin d (12 * fFirst d + i), z)
  (List.range (fN d)).map fun n =>
    if fSize d ≤ 5 && fFirst d + fNprb d ≤ fNcar d then
      shiftSat (fShift d) (dftBin false (fN d) n ((List.range (fN d)).map fun b => ((bins.find? fun p => p.1 = b).map Prod.snd).getD ⟨0, 0⟩))
    else (CInt.ofWord (Config.ifftOpen d n), 0)

/-- A symbol with its cyclic prefix of `cp` samples. -/
def withPrefix (cp : Nat) (zs : List (BitVec 32)) : List (BitVec 32) :=
  (List.range cp).map (fun i => nthD zs ((zs.length - cp % zs.length + i) % zs.length) 0) ++ zs

/-- Symbols of a transmit branch that are kept: 10 ms at µ = 1 (log entry 46). -/
def symbolsKept : Nat := 280

/-- A symbol given to a branch. -/
def giveSymbol (sym : Nat × List (BitVec 32)) (old : List (Nat × List (BitVec 32))) : List (Nat × List (BitVec 32)) := (sym :: old).take symbolsKept

/-- IFFT (R181): the job of engine `f` reads its PRBs and gives the symbol with its prefix to the DUC branch of the transmit chain, and ends. -/
def execIfft (f : Fin 16) (s : State) : Res := insideUnit 86 2 6 f s fun s =>
  match (s.unit 0 f).job with
  | none => .next s
  | some j =>
    let d := j.desc
    if !fDir d then .next s
    else faultIf (!s.rangeOn (fSrc d) (max 1 (48 * fNprb d)) || !s.domOn 87) .poweredOff <|
      let (bs, s) := s.sysRead (fSrc d) (48 * fNprb d)
      let zs := (List.range (12 * fNprb d)).map fun i => CInt.ofWord (BitVec.ofNat 32 (natOfBytes ((bs.drop (4 * i)).take 4)))
      let out := ifftOut d zs
      let s := s.raiseIf (out.any fun z => z.2 ≠ 0) DFE_CAUSE.sat
      let sym := (fT d, withPrefix (fCp d) (out.map fun z => z.1.word))
      let x := s.fe.tx[(fChain d).val]
      let x := if fBr d then { x with syms1 := giveSymbol sym x.syms1 } else { x with syms0 := giveSymbol sym x.syms0 }
      State.engFree { s with fe := { s.fe with tx := s.fe.tx.set (fChain d).val x } } 0 f

/-! ## Transmit samples (R181) -/

/-- Sample `i` from air instant `t` on of a DUC branch of chain `c`: 0 while the branch is disabled or has been given no symbol. -/
def State.ducSample (s : State) (c : Fin 64) (br : Bool) (t : Nat) (i : Int) : CInt :=
  let x := s.fe.tx[c.val]
  let syms := if br then x.syms1 else x.syms0
  let nco := if br then DFE_TXc_NCO1.nco c else DFE_TXc_CFG.nco c
  if !s.flag (if br then DFE_TXc_CFG.en1 c else DFE_TXc_CFG.en c) || syms.isEmpty then ⟨0, 0⟩
  else CInt.ofWord (Config.ducOut (s.get (DFE_TXc_CFG.interp c)) (BitVec.ofNat 32 (s.get nco)) syms t i)

/-- The sum of the branches, after CFR where it is on; without CFR at 16 bits (R181). -/
def State.txSum (s : State) (c : Fin 64) (t : Nat) (i : Int) : CInt :=
  let sum (i : Int) : Int × Int :=
    let a := s.ducSample c false t i
    let b := s.ducSample c true t i
    (a.re + b.re, a.im + b.im)
  let thr := s.get (DFE_TXc_CFG.cfr c)
  if thr = 0 then ⟨(satS16 (sum i).1).1, (satS16 (sum i).2).1⟩ else CInt.ofWord (Config.cfrOut thr sum i)

/-- |x/2^15|^k × 2^fixBits (log entry 8). -/
def magPow (x : CInt) (k : Nat) : Rat :=
  let p := x.power
  let odd : Nat := if k % 2 = 1 then kRoot 2 (p * 4 ^ fixBits) (fixBits + 17) 0 else 2 ^ fixBits
  ((p ^ (k / 2) * odd : Nat) : Rat) / ((2 ^ (15 * k) : Nat) : Rat)

/-- Coefficient c[k][m] of bank `b` of chain `c`. -/
def State.dpdCoef (s : State) (c : Fin 64) (b k m : Nat) : CInt := ⟨s.getS (DFE_DPD.i c b (8 * k + m)), s.getS (DFE_DPD.q c b (8 * k + m))⟩

/-- DPD apply (R181): y(n) from x(n) to x(n − 7), `x m` being x(n − m). -/
def State.dpd (s : State) (c : Fin 64) (x : Nat → CInt) : CInt :=
  let b := s.get (DFE_TXc_CFG.bank c)
  let terms : List (Rat × Rat) := (List.range 8).flatMap fun k => (List.range 8).map fun m =>
    let w := s.dpdCoef c b k m
    let g := magPow (x m) k
    ((w.re * (x m).re - w.im * (x m).im : Int) * g, (w.re * (x m).im + w.im * (x m).re : Int) * g)
  let f : Rat := ((2 ^ (13 + fixBits) : Nat) : Rat)
  (satC ((terms.map Prod.fst).sum / f) ((terms.map Prod.snd).sum / f)).1

/-- Transmit sample `i` of chain `c` from air instant `t` on, at 491.52 MHz / 2^div (R181), 0 around a remap (R307). -/
def State.txSample (s : State) (c : Fin 64) (t i : Nat) : BitVec 32 :=
  let x := s.fe.tx[c.val]
  if quietAt x.zeroFrom x.zeroTo (airAdd t (i * 2 ^ s.get CLK_CFG.div)) then 0
  else if s.flag (DFE_TXc_CFG.dpd c) then (s.dpd c fun m => s.txSum c t ((i : Int) - m)).word
  else (s.txSum c t i).word

/-! ## The DFE job unit (R182, R183) -/

/-- DPD_SWITCH (R182, R183): the accepted DPD switch is recorded for its chain, and the job ends. -/
def execDpdSwitch (s : State) : Res := inside 86 2 s fun s =>
  match (s.unit 1 0).job with
  | none => .next s
  | some j =>
    let d := Config.dfeJob (j.desc.setWidth 256)
    if d.capture then .next s
    else faultIf (!s.domOn 87) .poweredOff <|
      let x := s.fe.tx[d.chain.val]
      State.engFree
        { s with fe := { s.fe with tx := s.fe.tx.set d.chain.val { x with swAt := x.swAt ++ [d.t % Config.airWrap] } } } 1 0

/-- The samples of the accepted capture are complete: n sample periods after T, or after the acceptance of a late one. -/
def State.captureDue (s : State) (j : EngJob) (d : DfeJob) : Bool :=
  let at_ := d.n * 2 ^ s.get CLK_CFG.div
  if j.late then s.since j.at_ * 4915200 ≥ at_ * 22000000
  else s.airReached (s.get (DFE_TXc_CFG.at d.chain)) (airAdd d.t at_)

/-- The air instant from which a capture takes its samples: T, or for a late one the present instant less the n samples. -/
def State.captureFrom (s : State) (j : EngJob) (d : DfeJob) : Nat :=
  let back := d.n * 2 ^ s.get CLK_CFG.div
  if j.late then airAdd (s.atNow (s.get (DFE_TXc_CFG.at d.chain))) (Config.airWrap - back % Config.airWrap) else d.t % Config.airWrap

/-- Samples as memory holds them, I in the low half (R182). -/
def samplesOf (re im : List (BitVec 16)) : List (BitVec 32) := List.zipWith (fun a b => b ++ a) re im

/-- CAPTURE (R182, R183): n samples of the observation stream, components `re` and `im`, and the n samples of the transmit chain, from T, or from its acceptance when that is
later, are written to cluster memory, and the job ends. -/
def execCapture (re im : List (BitVec 16)) (s : State) : Res := inside 86 2 s fun s =>
  match (s.unit 1 0).job with
  | none => .next s
  | some j =>
    let d := Config.dfeJob (j.desc.setWidth 256)
    let obs := samplesOf re im
    if !d.capture || obs.length ≠ d.n || !s.captureDue j d then .next s
    else faultIf (!s.rangeOn (clAddr d.dst.toNat) (max 1 (8 * d.n)) || !s.domOn 87) .poweredOff <|
      let tx := (List.range d.n).map (s.txSample d.chain (s.captureFrom j d))
      State.engFree (s.sysPut (clAddr d.dst.toNat) ((obs ++ tx).flatMap fun w => bytesOf 4 w.toNat)) 1 0

/-- One ck of the transmit chains (R182): a chain takes the other coefficient bank when the first symbol at or after a recorded T starts. -/
def State.dfeTick (s : State) : State :=
  (List.finRange 64).foldl (fun s (c : Fin 64) =>
    let x := s.fe.tx[c.val]
    if x.swAt.isEmpty then s
    else
      let tl := s.get (DFE_TXc_CFG.at c)
      let (mu, ecp) := s.numerology tl
      let (due, rest) := x.swAt.partition fun t => s.airReached tl (symbolFrom t mu ecp)
      let s := { s with fe := { s.fe with tx := s.fe.tx.set c.val { x with swAt := rest } } }
      s.put (DFE_TXc_CFG.bank c) ((s.get (DFE_TXc_CFG.bank c) + due.length) % 2)) s

end Sys2Proof.Machine
end

