-- ==== Sys2Proof/Machine/Caches.lean ====
section
/-! DEFINITION. The caches of the application cores and their way to LPDDR6 (R127, R130, R349, R351): which copies there are, and what a read, a
write and a write back does. Where R349 leaves the organisation open, log entry 62 says what the model takes. -/

namespace Sys2Proof.Machine

/-- Replace the application-core complex. -/
def State.withAcx (s : State) (f : Acx → Acx) : State := { s with acx := f s.acx }

/-- Hart `h`. -/
def State.hart (s : State) (h : Fin 8) : Hart := s.acx.hart[h]

/-- Replace hart `h`. -/
def State.withHart (s : State) (h : Fin 8) (f : Hart → Hart) : State := s.withAcx fun a => { a with hart := a.hart.set h.val (f a.hart[h]) }

/-- Line `l` of a cache. -/
def lineIn (c : List CacheLine) (l : Nat) : Option CacheLine := c.find? fun x => x.line = l

/-- A cache without line `l`. -/
def withoutLine (c : List CacheLine) (l : Nat) : List CacheLine := c.filter fun x => x.line ≠ l

/-- Lines that a cache of a level holds (R349). -/
def cacheLines : CacheLevel → Nat
  | .l1i | .l1d => 1024
  | .l2 => 16384
  | .l3 => 131072

/-- The bytes of a line. -/
def CacheLine.bytes (x : CacheLine) : List (BitVec 8) := bytesOf 64 x.data.toNat

/-- A line with the bytes `bs` from its byte `o` on. -/
def CacheLine.patch (x : CacheLine) (o : Nat) (bs : List (BitVec 8)) : CacheLine :=
  { x with data := BitVec.ofNat 512 (setBitsOf x.data.toNat (8 * o) (8 * bs.length) (natOfBytes bs)) }

/-! ## Positions (R127, R130) -/

/-- An ACX position of the present slot of a share moves the line at `a`; none while the slot has no such position left. While G1, which holds the
controller, is in reset, the access takes none (R344). -/
def State.acxPosition (s : State) (share a : Nat) : Option State :=
  if s.held 1 then some s
  else if s.shareNow ≠ some share then none
  else
    let (comet, swap, acx, _, _) := s.slotNow share
    match (List.range acx).find? fun i => !s.slotUse.pos.contains (comet + swap + i) with
    | some i => if s.room a 1 then some (s.usePosition (comet + swap + i) a) else none
    | none => none

/-! ## Lines that leave a cache -/

/-- The line that leaves a cache for another one: a free choice, which may be none unless the cache is full. -/
def State.victim (s : State) (level : CacheLevel) (xs : List CacheLine) : Option CacheLine × State :=
  if xs.isEmpty then (none, s)
  else
    let (i, s) := s.drawWithin xs.length
    (match xs[i]? with
     | some x => some x
     | none => if xs.length < cacheLines level then none else xs.getLast?, s)

/-- A line begins its way to LPDDR6, in the place of an earlier one of its number. -/
def State.sendLine (s : State) (x : CacheLine) : State :=
  s.withAcx fun a => { a with wb := a.wb.filter (fun p => p.1.line ≠ x.line) ++ [(x, s.mono)] }

/-- Put a line into the L3; a line that leaves it with bytes that LPDDR6 lacks goes there. -/
def State.toL3 (s : State) (x : CacheLine) : State :=
  let rest := withoutLine s.acx.l3 x.line
  let (v, s) := s.victim .l3 rest
  match v with
  | none => s.withAcx fun a => { a with l3 := x :: rest }
  | some y => (if y.dirty then s.sendLine y else s).withAcx fun a => { a with l3 := x :: withoutLine rest y.line }

/-- Take line `l` out of the caches of hart `h`. -/
def Hart.dropLine (c : Hart) (l : Nat) : Hart := { c with l1i := withoutLine c.l1i l, l1d := withoutLine c.l1d l, l2 := withoutLine c.l2 l }

/-- Put a line into the L2 of hart `h`; a line that leaves it leaves the L1s too, and goes to the L3 when LPDDR6 lacks its bytes. -/
def State.toL2 (s : State) (h : Fin 8) (x : CacheLine) : State :=
  let (v, s) := s.victim .l2 (withoutLine (s.hart h).l2 x.line)
  let s := match v with
    | none => s
    | some y => (if y.dirty then s.toL3 y else s).withHart h fun c => c.dropLine y.line
  s.withHart h fun c => { c with l2 := x :: withoutLine c.l2 x.line }

/-- Put a line into an L1 of hart `h`, whose lines never differ from the L2's. -/
def State.toL1 (s : State) (h : Fin 8) (instr : Bool) (x : CacheLine) : State :=
  let l1 (c : Hart) : List CacheLine := if instr then c.l1i else c.l1d
  let rest := withoutLine (l1 (s.hart h)) x.line
  let (v, s) := s.victim (if instr then .l1i else .l1d) rest
  let kept := { x with dirty := false } :: match v with
    | some y => withoutLine rest y.line
    | none => rest
  s.withHart h fun c => if instr then { c with l1i := kept } else { c with l1d := kept }

/-! ## Coherent reads and writes (R349) -/

/-- Line `l` as the caches hold it: a hart's L2, the L3, or on its way to LPDDR6. All copies are equal. -/
def State.cached (s : State) (l : Nat) : Option CacheLine :=
  match s.acx.hart.toList.findSome? fun c => lineIn c.l2 l with
  | some x => some x
  | none => match lineIn s.acx.l3 l with
    | some x => some x
    | none => lineIn (s.acx.wb.map Prod.fst) l

/-- The copy of line `l` whose bytes LPDDR6 lacks. -/
def State.dirtyCopy (s : State) (l : Nat) : Option CacheLine :=
  match s.acx.hart.toList.findSome? fun c => (lineIn c.l2 l).filter CacheLine.dirty with
  | some x => some x
  | none => match (lineIn s.acx.l3 l).filter CacheLine.dirty with
    | some x => some x
    | none => lineIn (s.acx.wb.map Prod.fst) l

/-- No cache holds line `l`, and the reservations of other harts than `h` on it are lost. -/
def State.dropCopies (s : State) (h : Option (Fin 8)) (l : Nat) : State :=
  s.withAcx fun a =>
    { a with l3 := withoutLine a.l3 l
             wb := a.wb.filter fun p => p.1.line ≠ l
             hart := Vector.ofFn fun (i : Fin 8) =>
               let c := a.hart[i].dropLine l
               if some i ≠ h && c.lr = some l then { c with lr := none } else c }

/-- Line `l` is in the L2 of hart `h`: it was, or it comes from another cache, or from LPDDR6 in an ACX read position; none while there is none. -/
def State.fill (s : State) (h : Fin 8) (l : Nat) : Option State :=
  if (lineIn (s.hart h).l2 l).isSome then some s
  else match s.cached l with
    | some x => some (s.toL2 h { x with dirty := false })
    | none => (s.acxPosition 0 (64 * l)).map fun s =>
      let (bs, s) := s.slotRead (64 * l) 64
      s.toL2 h ⟨l, BitVec.ofNat 512 (natOfBytes bs), false⟩

/-- The bytes of line `l` as hart `h` reads them, or as it fetches from them. -/
def State.readLine (s : State) (h : Fin 8) (instr : Bool) (l : Nat) : Option (List (BitVec 8) × State) :=
  match lineIn (if instr then (s.hart h).l1i else (s.hart h).l1d) l with
  | some x => some (x.bytes, s)
  | none => (s.fill h l).bind fun s => (lineIn (s.hart h).l2 l).map fun x => (x.bytes, s.toL1 h instr x)

/-- `n` bytes from `a`, which may lie in two lines. -/
def State.readCached (s : State) (h : Fin 8) (instr : Bool) (a n : Nat) : Option (List (BitVec 8) × State) :=
  let k := min n (64 - a % 64)
  (s.readLine h instr (a / 64)).bind fun p =>
    let first := (p.1.drop (a % 64)).take k
    if k = n then some (first, p.2)
    else (p.2.readLine h instr (a / 64 + 1)).map fun q => (first ++ q.1.take (n - k), q.2)

/-- Hart `h` writes bytes `bs` from byte `o` of line `l`: through its L1, into its L2; every other copy is gone. -/
def State.writeLine (s : State) (h : Fin 8) (l o : Nat) (bs : List (BitVec 8)) : Option State :=
  (s.fill h l).map fun s =>
    match lineIn (s.hart h).l2 l with
    | none => s
    | some x =>
      let y := { x.patch o bs with dirty := true }
      let near := (lineIn (s.hart h).l1d l).isSome
      (s.dropCopies (some h) l).withHart h fun c =>
        { c with l2 := y :: c.l2, l1d := if near then { y with dirty := false } :: c.l1d else c.l1d }

/-- Hart `h` writes bytes from `a`, which may lie in two lines. -/
def State.writeCached (s : State) (h : Fin 8) (a : Nat) (bs : List (BitVec 8)) : Option State :=
  let k := min bs.length (64 - a % 64)
  (s.writeLine h (a / 64) (a % 64) (bs.take k)).bind fun s =>
    if k = bs.length then some s else s.writeLine h (a / 64 + 1) 0 (bs.drop k)

/-- Line `l` has still to reach LPDDR6. -/
def State.leaving (s : State) (l : Nat) : Bool := s.acx.wb.any fun p => p.1.line = l

/-- The bytes of line `l` that LPDDR6 lacks begin their way there; the copies stay, clean (R351). -/
def State.cleanLine (s : State) (l : Nat) : State :=
  let clean (c : List CacheLine) : List CacheLine := c.map fun x => if x.line = l then { x with dirty := false } else x
  match s.dirtyCopy l with
  | none => s
  | some x =>
    let s := if s.leaving l then s else s.sendLine { x with dirty := false }
    s.withAcx fun a => { a with l3 := clean a.l3, hart := a.hart.map fun c => { c with l2 := clean c.l2 } }

/-- A write of PCIe to bytes of one line of LPDDR6, in an ACX write position: the L3 snoops it, so that bytes which LPDDR6 lacks go there first and no
cache holds the line any more. -/
def State.snoopLine (s : State) (l o : Nat) (bs : List (BitVec 8)) : Option State :=
  (s.acxPosition 1 (64 * l)).map fun s =>
    let s := match s.dirtyCopy l with
      | some x => s.sysPut (64 * l) x.bytes
      | none => s
    (s.dropCopies none l).sysWrite (64 * l + o) bs

/-- A write of PCIe to bytes of LPDDR6, which may lie in two lines. -/
def State.snoopWrite (s : State) (a : Nat) (bs : List (BitVec 8)) : Option State :=
  let k := min bs.length (64 - a % 64)
  (s.snoopLine (a / 64) (a % 64) (bs.take k)).bind fun s =>
    if k = bs.length then some s else s.snoopLine (a / 64 + 1) 0 (bs.drop k)

/-! ## Write backs (R127 to R129) -/

/-- The line that an ACX write position takes next: of the 45 that wait the longest and were held at the start of the slot, the lowest-addressed
with room on its channel. -/
def State.nextBack (s : State) : Option CacheLine :=
  (((s.acx.wb.take 45).filter fun p => p.2.toNat ≤ 11 * s.slotId && s.room (64 * p.1.line) 1).map Prod.fst).foldl
    (fun m x => match m with
      | some y => if x.line < y.line then some x else some y
      | none => some x) none

/-- One waiting line reaches LPDDR6. -/
def State.backOne (s : State) : State :=
  match s.nextBack with
  | none => s
  | some x => match s.acxPosition 1 (64 * x.line) with
    | none => s
    | some s => (s.sysPut (64 * x.line) x.bytes).withAcx fun a => { a with wb := a.wb.filter fun p => p.1.line ≠ x.line }

/-- One ck of the write backs: the ACX write positions of the present slot take waiting lines. -/
def State.backTick (s : State) : State := if s.acx.wb.isEmpty then s else iter State.backOne 45 s

/-- The L2 lines of hart `h` that LPDDR6 lacks go to the L3, and its caches are empty (R356). -/
def State.emptyCaches (s : State) (h : Fin 8) : State :=
  let out := (s.hart h).l2.filter CacheLine.dirty
  (out.foldl State.toL3 s).withHart h fun c => { c with l1i := [], l1d := [], l2 := [], lr := none }

end Sys2Proof.Machine
end

