-- ==== Sys2Proof/Machine/Hart.lean ====
section
/-! DEFINITION. The state of the harts by which their accesses go (R348, R350): control and status registers, traps, physical memory protection and
address translation. R348 names the architecture; what it means is the RISC-V privileged architecture's (PRESUMED, log entry 62). -/

namespace Sys2Proof.Machine

/-! ## Control and status registers -/

/-- The privilege level of a mode: 0 user, 1 supervisor, 3 machine. -/
def Priv.level : Priv → Nat
  | .m => 3
  | .hs | .vs => 1
  | .u | .vu => 0

/-- The mode is one of a guest. -/
def Priv.virt : Priv → Bool
  | .vs | .vu => true
  | _ => false

/-- The mode of a level, in a guest or not. -/
def Priv.of (level : Nat) (virt : Bool) : Priv :=
  if level = 3 then .m else if level = 1 then (if virt then .vs else .hs) else (if virt then .vu else .u)

/-- The registers that a hart stores: floating point, supervisor, guest supervisor, machine, hypervisor, PMP. -/
def csrStored (n : Nat) : Bool :=
  [0x003, 0x105, 0x106, 0x10A, 0x140, 0x141, 0x142, 0x143, 0x180, 0x200, 0x205, 0x240, 0x241, 0x242, 0x243, 0x280, 0x300, 0x302, 0x303,
   0x304, 0x305, 0x306, 0x30A, 0x340, 0x341, 0x342, 0x343, 0x344, 0x34A, 0x34B, 0x3A0, 0x3A2, 0x600, 0x602, 0x603, 0x605, 0x606, 0x607, 0x60A, 0x643,
   0x645, 0x64A, 0x680].contains n || (0x3B0 ≤ n && n < 0x3C0)

/-- The registers that a hart views in others: fflags and frm in fcsr, sstatus in mstatus, the interrupt bits of each level in mip, mie and hvip;
and those that it cannot write: misa, counters, identities. -/
def csrViewed (n : Nat) : Bool :=
  [0x001, 0x002, 0x100, 0x104, 0x144, 0x204, 0x244, 0x301, 0x604, 0x644, 0xC00, 0xC01, 0xC02, 0xE12, 0xF11, 0xF12, 0xF13, 0xF14, 0xF15].contains n

/-- What a stored register holds at reset: mstatus and hstatus say that every width is 64 bits. -/
def csrReset (n : Nat) : BitVec 64 :=
  if n = 0x300 then 0xA00000000 else if n = 0x600 || n = 0x200 then 0x200000000 else 0

/-- A stored register. -/
def Hart.get (c : Hart) (n : Nat) : Nat := (c.csr.read csrReset n).toNat

/-- Replace a stored register. -/
def Hart.put (c : Hart) (n v : Nat) : Hart := { c with csr := c.csr.write csrReset n (BitVec.ofNat 64 v) }

/-- Bit `i` of a stored register. -/
def Hart.bit (c : Hart) (n i : Nat) : Bool := (c.get n).testBit i

/-- Set bits of a stored register. -/
def Hart.putBits (c : Hart) (n lo w v : Nat) : Hart := c.put n (setBitsOf (c.get n) lo w v)

/-- x[i], of which x0 reads 0. -/
def Hart.reg (c : Hart) (i : Nat) : BitVec 64 := if i % 32 = 0 then 0 else nthD c.x.toList (i % 32) 0

/-- Write register `i`: x[i] below 32, where x0 discards it, f[i − 32] from there. -/
def Hart.setReg (c : Hart) (i : Nat) (v : BitVec 64) : Hart :=
  if i = 0 then c else if i < 32 then { c with x := c.x.setIfInBounds i v } else { c with f := c.f.setIfInBounds (i - 32) v }

/-- The bits of `n` that `mask` has. -/
def merge (old new mask : Nat) : Nat := (old &&& ((2 ^ 64 - 1) ^^^ mask)) ||| (new &&& mask)

/-- The writable bits of mstatus, and those of them that sstatus and vsstatus hold. -/
def mstatusBits : Nat := 0xC0007E79AA
def sstatusBits : Nat := 0xC6122

/-- The interrupt bits of the supervisor, of the guest, of the hypervisor, and all of them with the machine's. -/
def sBits : Nat := 0x222
def vsBits : Nat := 0x444
def hsBits : Nat := 0x1444
def allBits : Nat := 0x1EEE

/-- The value that a write of `v` gives a stored register that holds `old`: fields with few legal values keep theirs. -/
def csrLegal (n old v : Nat) : Nat :=
  match n with
  | 0x300 =>
    let w := merge old v mstatusBits
    if bitsOf v 11 2 = 2 then setBitsOf w 11 2 (bitsOf old 11 2) else w
  | 0x200 => merge old v sstatusBits
  | 0x600 => merge old v 0x7003C0
  | 0x304 => merge old v allBits
  | 0x344 => merge old v 0x226
  | 0x645 => merge old v vsBits
  | 0x180 | 0x280 => if [0, 8, 9].contains (bitsOf v 60 4) then v else old
  | 0x680 => if [0, 8, 9].contains (bitsOf v 60 4) then setBitsOf v 0 2 0 else old
  | 0x105 | 0x205 | 0x305 => if v % 4 ≤ 1 then v else setBitsOf v 0 2 (old % 4)
  | 0x141 | 0x241 | 0x341 => setBitsOf v 0 1 0
  | 0x003 => v % 256
  | _ => if 0x3B0 ≤ n && n < 0x3C0 then v % 2 ^ 54 else v

/-- The configuration byte of PMP entry `i`. -/
def Hart.pmpCfg (c : Hart) (i : Nat) : Nat := bitsOf (c.get (0x3A0 + i / 8 * 2)) (8 * (i % 8)) 8

/-- PMP entry `i` is locked. -/
def Hart.pmpLocked (c : Hart) (i : Nat) : Bool := i < 16 && (c.pmpCfg i).testBit 7

/-- The address register of PMP entry `i` is locked: the entry is, or the next one, whose range begins there. -/
def Hart.pmpAddrLocked (c : Hart) (i : Nat) : Bool := c.pmpLocked i || (c.pmpLocked (i + 1) && bitsOf (c.pmpCfg (i + 1)) 3 2 = 1)

/-- A write of a stored register. -/
def Hart.write (c : Hart) (n v : Nat) : Hart :=
  if n = 0x3A0 || n = 0x3A2 then
    (List.range 8).foldl (fun c j => if c.pmpLocked ((n - 0x3A0) * 4 + j) then c else c.putBits n (8 * j) 8 (bitsOf v (8 * j) 8 &&& 0x9F)) c
  else if 0x3B0 ≤ n && n < 0x3C0 && c.pmpAddrLocked (n - 0x3B0) then c
  else c.put n (csrLegal n (c.get n) v)

/-! ## Exceptions -/

/-- Why an access does not go through: a page table of the hart or guest says no, one of the guest's physical address space does, or the address has
no such access (R350). -/
inductive Exc where
  | page
  | guest (gpa : Nat)
  | access
  deriving DecidableEq, Repr

/-- What an access is for. -/
inductive Purpose where
  | fetch
  | load
  | store
  deriving DecidableEq, Repr

/-- The exception code of RISC-V. -/
def Exc.code (e : Exc) (p : Purpose) : Nat :=
  match e, p with
  | .access, .fetch => 1 | .access, .load => 5 | .access, .store => 7
  | .page, .fetch => 12 | .page, .load => 13 | .page, .store => 15
  | .guest _, .fetch => 20 | .guest _, .load => 21 | .guest _, .store => 23

/-- The guest physical address that a trap records, divided by 4. -/
def Exc.tval2 : Exc → Nat
  | .guest gpa => gpa / 4
  | _ => 0

/-- The hart takes a trap (R350): to machine mode, or where medeleg and hedeleg say so to HS or VS. The saved program counter is that of the
instruction, the cause and the address are recorded, and execution goes on at the trap vector. `gva`: the address is a guest's virtual one. -/
def Hart.trap (c : Hart) (cause tval tval2 : Nat) (gva : Bool) : Hart :=
  let level := c.mode.level
  let v := c.mode.virt
  if c.mode ≠ .m && (c.get 0x302).testBit cause then
    if v && (c.get 0x602).testBit cause then
      let c := ((c.put 0x241 c.pc.toNat).put 0x242 cause).put 0x243 tval
      let c := ((c.putBits 0x200 5 1 (c.bit 0x200 1).toNat).putBits 0x200 1 1 0).putBits 0x200 8 1 level
      { c with mode := .vs, pc := BitVec.ofNat 64 (c.get 0x205 / 4 * 4) }
    else
      let c := (((c.put 0x141 c.pc.toNat).put 0x142 cause).put 0x143 tval).put 0x643 tval2
      let c := ((c.putBits 0x300 5 1 (c.bit 0x300 1).toNat).putBits 0x300 1 1 0).putBits 0x300 8 1 level
      let c := (c.putBits 0x600 6 1 gva.toNat).putBits 0x600 7 1 v.toNat
      let c := if v then c.putBits 0x600 8 1 level else c
      { c with mode := .hs, pc := BitVec.ofNat 64 (c.get 0x105 / 4 * 4) }
  else
    let c := (((c.put 0x341 c.pc.toNat).put 0x342 cause).put 0x343 tval).put 0x34B tval2
    let c := ((c.putBits 0x300 7 1 (c.bit 0x300 3).toNat).putBits 0x300 3 1 0).putBits 0x300 11 2 level
    let c := (c.putBits 0x300 38 1 gva.toNat).putBits 0x300 39 1 v.toNat
    { c with mode := .m, pc := BitVec.ofNat 64 (c.get 0x305 / 4 * 4) }

/-- The trap of an access to virtual address `va`. -/
def Hart.excTrap (c : Hart) (e : Exc) (p : Purpose) (va : Nat) (gva : Bool) : Hart := c.trap (e.code p) va e.tval2 gva

/-- An instruction that the mode has not: an illegal instruction, or in a guest a virtual one where HS has it. -/
def Hart.illegal (c : Hart) (hsHas : Bool) : Hart := c.trap (if c.mode.virt && hsHas then 22 else 2) 0 0 false

/-- Return from a machine-mode trap. -/
def Hart.mret (c : Hart) : Hart :=
  if c.mode ≠ .m then c.illegal false
  else
    let to' := Priv.of (bitsOf (c.get 0x300) 11 2) (c.bit 0x300 39)
    let c := if to' = .m then c else c.putBits 0x300 17 1 0
    let c := ((c.putBits 0x300 3 1 (c.bit 0x300 7).toNat).putBits 0x300 7 1 1).putBits 0x300 11 2 0
    let c := c.putBits 0x300 39 1 0
    { c with mode := to', pc := BitVec.ofNat 64 (c.get 0x341) }

/-- Return from a supervisor-mode trap, in a guest from one of the guest. -/
def Hart.sret (c : Hart) : Hart :=
  match c.mode with
  | .u => c.illegal false
  | .vu => c.illegal true
  | .vs =>
    if c.bit 0x600 22 then c.illegal true
    else
      let to' := Priv.of (bitsOf (c.get 0x200) 8 1) true
      let c := ((c.putBits 0x200 1 1 (c.bit 0x200 5).toNat).putBits 0x200 5 1 1).putBits 0x200 8 1 0
      { c with mode := to', pc := BitVec.ofNat 64 (c.get 0x241) }
  | .m | .hs =>
    if c.mode = .hs && c.bit 0x300 22 then c.illegal false
    else
      let to' := Priv.of (bitsOf (c.get 0x300) 8 1) (c.bit 0x600 7)
      let c := ((c.putBits 0x300 1 1 (c.bit 0x300 5).toNat).putBits 0x300 5 1 1).putBits 0x300 8 1 0
      let c := (c.putBits 0x300 17 1 0).putBits 0x600 7 1 0
      { c with mode := to', pc := BitVec.ofNat 64 (c.get 0x141) }

/-! ## Physical memory protection (R348: 16 entries) -/

/-- The range of PMP entry `i`, first byte and end; none where the entry is off. -/
def Hart.pmpRange (c : Hart) (i : Nat) : Option (Nat × Nat) :=
  let a := c.get (0x3B0 + i)
  match bitsOf (c.pmpCfg i) 3 2 with
  | 0 => none
  | 1 => some (if i = 0 then 0 else 4 * c.get (0x3AF + i), 4 * a)
  | 2 => some (4 * a, 4 * a + 4)
  | _ =>
    let ones := ((List.range 54).takeWhile fun j => a.testBit j).length
    let size := 2 ^ (ones + 3)
    some (4 * a / size * size, 4 * a / size * size + size)

/-- The permission bit of a purpose in a PMP entry. -/
def Purpose.pmpBit : Purpose → Nat
  | .load => 0
  | .store => 1
  | .fetch => 2

/-- PMP allows level `level` an access of `n` bytes at `a`: by the first entry that any of its bytes matches, which all must match; without one machine
mode alone may. -/
def Hart.pmpAllows (c : Hart) (level : Nat) (p : Purpose) (a n : Nat) : Bool :=
  match (List.range 16).find? fun i => match c.pmpRange i with
      | some (lo, hi) => lo < a + n && a < hi
      | none => false with
  | none => level = 3
  | some i =>
    match c.pmpRange i with
    | some (lo, hi) => (lo ≤ a && a + n ≤ hi) && ((level = 3 && !c.pmpLocked i) || (c.pmpCfg i).testBit p.pmpBit)
    | none => false

/-! ## Address translation (R348: Sv39 and Sv48, Sv39x4 and Sv48x4) -/

/-- A walk of page tables: `read` gives the entry at an address of the tables' space, `allows` whether a leaf grants the access, `top` the index bits of
the first table; `k` levels are left, and the present table lies at `base`. -/
def walk (read : Nat → Except Exc Nat) (allows : Nat → Bool) (levels top va : Nat) : Nat → Nat → Except Exc Nat
  | 0, _ => .error .page
  | k + 1, base =>
    let i := bitsOf va (12 + 9 * k) (if k + 1 = levels then top else 9)
    match read (base + 8 * i) with
    | .error e => .error e
    | .ok pte =>
      let ppn := bitsOf pte 10 44
      if !pte.testBit 0 || (!pte.testBit 1 && pte.testBit 2) || bitsOf pte 54 10 ≠ 0 then .error .page
      else if pte.testBit 1 || pte.testBit 3 then
        if !allows pte || ppn % 2 ^ (9 * k) ≠ 0 then .error .page else .ok (4096 * ppn + va % 2 ^ (12 + 9 * k))
      else if bitsOf pte 4 1 ≠ 0 || bitsOf pte 6 2 ≠ 0 then .error .page
      else walk read allows levels top va k (4096 * ppn)

/-- A leaf grants an access: readable, writable or executable, and already marked accessed and, for a store, dirty; `mxr`: what is executable may be
read. -/
def leafGrants (p : Purpose) (mxr : Bool) (pte : Nat) : Bool :=
  pte.testBit 6 && match p with
    | .fetch => pte.testBit 3
    | .load => pte.testBit 1 || (mxr && pte.testBit 3)
    | .store => pte.testBit 2 && pte.testBit 7

/-- Levels of a translation mode. -/
def xlateLevels (mode : Nat) : Nat := if mode = 8 then 3 else 4

/-- The 8-byte page-table entry at a physical address, as the hart's caches or LPDDR6 hold it. -/
def State.readPte (s : State) (h : Fin 8) (a : Nat) : Except Exc Nat :=
  if a ≥ 0x0F00000000 || !(s.hart h).pmpAllows 1 .load a 8 then .error .access
  else
    let bytes := match s.cached (a / 64) with
      | some x => (x.bytes.drop (a % 64)).take 8
      | none => s.sysBytes a 8
    .ok (natOfBytes bytes)

/-- The physical address of a guest physical one (hgatp). -/
def State.gStage (s : State) (h : Fin 8) (p : Purpose) (mxr : Bool) (gpa : Nat) : Except Exc Nat :=
  let atp := (s.hart h).get 0x680
  let mode := bitsOf atp 60 4
  if mode = 0 then .ok gpa
  else if gpa ≥ 2 ^ (if mode = 8 then 41 else 50) then .error (.guest gpa)
  else
    match walk (s.readPte h) (fun pte => pte.testBit 4 && leafGrants p mxr pte) (xlateLevels mode) 11 gpa (xlateLevels mode) (4096 * bitsOf atp 0 44) with
    | .error .page => .error (.guest gpa)
    | r => r

/-- The address translation of the hart's mode (satp), or of its guest's (vsatp): what it makes of `va`, before a second stage. -/
def State.sStage (s : State) (h : Fin 8) (mode : Priv) (p : Purpose) (va : Nat) : Except Exc Nat :=
  let c := s.hart h
  let status := if mode.virt then c.get 0x200 else c.get 0x300
  let mxr := status.testBit 19 || c.bit 0x300 19
  let atp := c.get (if mode.virt then 0x280 else 0x180)
  let kind := bitsOf atp 60 4
  let bits := if kind = 8 then 39 else 48
  let allows (pte : Nat) : Bool :=
    leafGrants p mxr pte && if mode.level = 0 then pte.testBit 4 else !pte.testBit 4 || (status.testBit 18 && p ≠ .fetch)
  let read (a : Nat) : Except Exc Nat :=
    if mode.virt then
      match s.gStage h .load false a with
      | .error e => .error e
      | .ok pa => s.readPte h pa
    else s.readPte h a
  if kind = 0 then .ok va
  else if BitVec.signExtend 64 (BitVec.ofNat bits va) ≠ BitVec.ofNat 64 va then .error .page
  else walk read allows (xlateLevels kind) 9 va (xlateLevels kind) (4096 * bitsOf atp 0 44)

/-- The mode under which the hart's loads and stores go: mstatus.MPRV lends machine mode the mode that it came from. -/
def Hart.dataMode (c : Hart) : Priv :=
  if c.mode = .m && c.bit 0x300 17 then Priv.of (bitsOf (c.get 0x300) 11 2) (c.bit 0x300 39) else c.mode

/-- The physical address of an access of `n` bytes to `va`, after every stage and PMP. -/
def State.translate (s : State) (h : Fin 8) (p : Purpose) (va n : Nat) : Except Exc Nat :=
  let c := s.hart h
  let mode := if p = .fetch then c.mode else c.dataMode
  let mxr := c.bit 0x300 19
  let first : Except Exc Nat := if mode = .m then .ok va else s.sStage h mode p va
  let second : Except Exc Nat := match first with
    | .error e => .error e
    | .ok gpa => if mode.virt then s.gStage h p mxr gpa else .ok gpa
  match second with
  | .error e => .error e
  | .ok pa => if c.pmpAllows mode.level p pa n then .ok pa else .error .access

end Sys2Proof.Machine
end

