-- ==== Sys2Proof/Machine/Interrupts.lean ====
section
/-! DEFINITION. The interrupt tree (R373 to R378): from the leaves to SUMSTAT, INT_N and the sources of the harts' controller. -/

namespace Sys2Proof.Machine

/-- FH_CAUSE.lw is the OR of the unmasked bits of FH_LWCAUSE (R375). -/
def State.fhLowWater (s : State) : Bool := (s.get FH_LWCAUSE.q &&& ((2 ^ 64 - 1) ^^^ s.get FH_LWMASK.q)) ≠ 0

/-- The summary of a leaf of `n` words: some cause bit is set and not masked. -/
def State.leafOf (s : State) (cause mask n : Nat) : Bool := (s.words cause n &&& ((2 ^ (32 * n) - 1) ^^^ s.words mask n)) ≠ 0

/-- The units of domain `d` and group `g` are on and out of reset: only then their leaves contribute. -/
def State.live (s : State) (d g : Nat) : Bool := s.domOn d && !s.held g

/-- Bits of `n` leaves. -/
def bitsWhere (n : Nat) (p : Nat → Bool) : Nat := (List.range n).foldl (fun m j => if p j then m + 2 ^ j else m) 0

/-- GCAUSE_x of group `g`: bit j is the summary of leaf j. -/
def State.gcause (s : State) (g : Nat) : Nat :=
  let one (p : Bool) : Nat := p.toNat
  let til (n : Nat) : Bool := s.tileOn n && !s.held 1
  match g with
  | 0 => one (s.live 82 1 && s.leafOf SYS_CAUSE.reg SYS_MASK.reg 1)
  | 1 => one (s.live 82 1 && s.leafOf TMB_CAUSE.reg TMB_MASK.reg 1)
  | 2 => one (s.live 82 1 && s.leafOf ORR_CAUSE.reg ORR_MASK.reg 2)
  | 3 => if s.live 82 1 then s.get ORR_SIG.sig else 0
  | 4 => if s.live 82 1 then one (s.leafOf CTX_CAUSE.reg CTX_MASK.reg 1) + 2 * one (s.leafOf CTX_DMON_CAUSE.reg CTX_DMON_MASK.reg 1) else 0
  | 5 => bitsWhere 32 fun j => til j && s.leafOf (TIL_CAUSE.reg j) (TIL_MASK.reg j) 1
  | 6 => bitsWhere 32 fun j => til (32 + j) && s.leafOf (TIL_CAUSE.reg (32 + j)) (TIL_MASK.reg (32 + j)) 1
  | 7 => bitsWhere 64 fun j => til j && s.flag (TIL_CMTSTAT.bad j)
  | 8 => bitsWhere 8 (fun c => s.live 82 1 && s.leafOf (DMA_Cc_CAUSE.reg c) (DMA_Cc_MASK.reg c) 2)
      + 256 * one (s.live 83 1 && s.leafOf MEMC_CAUSE.reg MEMC_MASK.reg 1)
  | 9 => one (s.live 82 4 && (s.leafOf FH_CAUSE.reg FH_MASK.reg 1 || (s.fhLowWater && !s.flag FH_MASK.lw)))
  | 10 => one (s.live 86 2 && s.leafOf DFE_CAUSE.reg DFE_MASK.reg 1)
  | 11 => one (s.live 91 2 && s.leafOf JES_CAUSE.reg JES_MASK.reg 2)
  | 12 => one (s.live 88 3 && s.leafOf EQ_CAUSE.reg EQ_MASK.reg 1)
  | 13 => one (s.live 89 3 && s.leafOf LDPC_CAUSE.reg LDPC_MASK.reg 2)
  | 14 => one (s.live 89 3 && s.leafOf POL_CAUSE.reg POL_MASK.reg 1)
  | 15 => one (s.live 82 4 && s.leafOf OPT_CAUSE.reg OPT_MASK.reg 2)
  | 16 => one (s.live 82 4 && s.leafOf APX_CAUSE.reg APX_MASK.reg 2)
  | 17 => one (s.live 80 0 && s.leafOf PWR_CAUSE.reg PWR_MASK.reg 1)
  | 18 => one (s.live 80 0 && s.leafOf PWR_REP_CAUSE.reg PWR_REP_MASK.reg 1)
  | 19 => one (s.live 80 0 && s.leafOf CLK_XCAUSE.reg CLK_XMASK.reg 1)
  | 20 => one (s.live 90 5 && s.leafOf ACX_CAUSE.reg ACX_MASK.reg 1)
  | 21 => one (s.live 80 0 && s.leafOf SEC_CAUSE.reg SEC_MASK.reg 1)
  | 22 => if s.live 82 1 then s.get SYS_GPIO_EVT.pin &&& ((2 ^ 64 - 1) ^^^ s.get SYS_GPIO_EMASK.pin) else 0
  | _ => 0

/-- INT_SUMSTAT: the groups with an unmasked bit; 0 while G1 is held in reset (R377). -/
def State.sumstat (s : State) : Nat :=
  if s.live 82 1 then bitsWhere 23 fun g => decide ((s.gcause g &&& ((2 ^ 64 - 1) ^^^ s.get (GMASK_x.mask g))) ≠ 0) else 0

/-- The M880 drives INT_N low (R373, R377). -/
def State.intLow (s : State) : Bool := (s.sumstat &&& ((2 ^ 23 - 1) ^^^ s.get INT_PINMASK.mask)) ≠ 0

/-- Source `i` of the machine-level APLIC domain is high (R377). -/
def State.aplicSource (s : State) (i : Nat) : Bool := 1 ≤ i && i ≤ 23 && s.sumstat.testBit (i - 1)

end Sys2Proof.Machine
end

