-- ==== Sys2Proof/Machine/Aplic.lean ====
section
/-! DEFINITION. The interrupt controller and the timers of the harts (R353, R354, R377): two APLIC domains in direct delivery, MSWI, MTIMER and SSWI.
R353 and R354 name the architectures; the places and meanings of the words of a domain are the RISC-V Advanced Interrupt Architecture's (PRESUMED,
log entry 62). -/

namespace Sys2Proof.Machine

/-- Word `i` of domain `d`: 0 machine level, 1 supervisor level. -/
def State.aplicWord (s : State) (d : Fin 2) (i : Nat) : Nat := s.get (ACX_APLIC.w d i)

/-- The domain beside its words. -/
def State.aplic (s : State) (d : Fin 2) : Aplic := s.acx.aplic[d]

/-- Replace the domain beside its words. -/
def State.withAplic (s : State) (d : Fin 2) (f : Aplic → Aplic) : State :=
  s.withAcx fun a => { a with aplic := a.aplic.set d.val (f a.aplic[d]) }

/-- A field of 97 source bits with bit `i` set or clear. -/
def withBit (b : BitVec 97) (i : Nat) (v : Bool) : BitVec 97 := BitVec.ofNat 97 (setBitsOf b.toNat i 1 v.toNat)

/-- Source `i` is delegated to the supervisor-level domain. -/
def State.delegated (s : State) (i : Nat) : Bool := (s.aplicWord 0 i).testBit 10

/-- The mode of source `i` in a domain: 0 inactive, 1 detached, 4 and 5 rising and falling edge, 6 and 7 high and low level; a source that a domain has
not is inactive. -/
def State.sourceMode (s : State) (d : Fin 2) (i : Nat) : Nat :=
  if !(1 ≤ i && i ≤ 96) || s.delegated i = (d = 0) then 0 else s.aplicWord d i % 8

/-- Source `i` is pending: a level source as its input stands, another as its bit. -/
def State.sourcePending (s : State) (d : Fin 2) (i : Nat) : Bool :=
  match s.sourceMode d i with
  | 0 => false
  | 6 => s.aplicSource i
  | 7 => !s.aplicSource i
  | _ => (s.aplic d).ip.getLsbD i

/-- Source `i` is enabled. -/
def State.sourceEnabled (s : State) (d : Fin 2) (i : Nat) : Bool := s.sourceMode d i ≠ 0 && (s.aplic d).ie.getLsbD i

/-- Set or clear the pending bit of a source that is no level source. -/
def State.setPending (s : State) (d : Fin 2) (i : Nat) (v : Bool) : State :=
  if [1, 4, 5].contains (s.sourceMode d i) then s.withAplic d fun a => { a with ip := withBit a.ip i v } else s

/-- Set or clear the enable bit of an active source. -/
def State.setEnabled (s : State) (d : Fin 2) (i : Nat) (v : Bool) : State :=
  if s.sourceMode d i ≠ 0 then s.withAplic d fun a => { a with ie := withBit a.ie i v } else s

/-- Set or clear what `f` says of the sources whose bits stand in `v`, the word for sources 32 `k` to 32 `k` + 31. -/
def State.forSources (s : State) (f : State → Nat → State) (k v : Nat) : State := (onesOf 32 v).foldl (fun s j => f s (32 * k + j)) s

/-- The word of the sources 32 `k` to 32 `k` + 31 that `p` holds of. -/
def sourceWord (p : Nat → Bool) (k : Nat) : Nat := (List.range 32).foldl (fun m j => if p (32 * k + j) then m + 2 ^ j else m) 0

/-- The word of target `i`. -/
def targetWord (i : Nat) : Nat := 0xC00 + i

/-- Word `w` of the delivery controls of hart `h` (R353: +0x4000): 0 idelivery, 1 iforce, 2 ithreshold, 6 topi, 7 claimi. -/
def idcWord (h : Fin 8) (w : Nat) : Nat := 0x1000 + 8 * h.val + w

/-- The interrupt of a domain for hart `h`, its number and priority (0 counts as 1): of the pending and enabled sources that target the hart, below its
threshold unless that is 0, the one of the lowest priority number, and of those the lowest source. -/
def State.topInterrupt (s : State) (d : Fin 2) (h : Fin 8) : Option (Nat × Nat) :=
  let limit := s.aplicWord d (idcWord h 2)
  ((List.range 97).filterMap fun i =>
    let t := s.aplicWord d (targetWord i)
    let prio := max 1 (t % 256)
    if s.sourcePending d i && s.sourceEnabled d i && decide (t / 2 ^ 18 = h.val) && (limit = 0 || prio < limit) then some (i, prio) else none).foldl
      (fun m x => match m with
        | some y => if x.2 < y.2 then some x else some y
        | none => some x) none

/-- The word that topi and claimi read: source and priority. -/
def State.topi (s : State) (d : Fin 2) (h : Fin 8) : Nat :=
  match s.topInterrupt d h with
  | some (i, p) => 65536 * i + p
  | none => 0

/-- A domain signals hart `h` an external interrupt. -/
def State.delivers (s : State) (d : Fin 2) (h : Fin 8) : Bool :=
  (s.aplicWord d 0).testBit 8 && s.aplicWord d (idcWord h 0) = 1 && ((s.topInterrupt d h).isSome || s.aplicWord d (idcWord h 1) = 1)

/-- A read of claimi claims the interrupt that it returns: an edge is taken; with none the forced interrupt is. -/
def State.claim (s : State) (d : Fin 2) (h : Fin 8) : State :=
  match s.topInterrupt d h with
  | some (i, _) => s.setPending d i false
  | none => s.put (ACX_APLIC.w d (idcWord h 1)) 0

/-- What word `i` of a domain reads: domaincfg has DM = 0 (R353), the set and clear words their sources, claimi what topi does; words that only act
read 0. -/
def State.aplicRead (s : State) (d : Fin 2) (i : Nat) : Nat :=
  if i = 0 then 0x80000000 + s.aplicWord d 0
  else if 0x700 ≤ i && i < 0x704 then sourceWord (s.sourcePending d) (i - 0x700)
  else if 0x740 ≤ i && i < 0x744 then sourceWord (fun j => s.aplicSource j && s.sourceMode d j ≠ 0) (i - 0x740)
  else if 0x780 ≤ i && i < 0x784 then sourceWord (s.sourceEnabled d) (i - 0x780)
  else if i ≤ 96 then (if d = 1 && !s.delegated i then 0 else s.aplicWord d i)
  else if 0xC01 ≤ i && i ≤ 0xC60 then (if s.sourceMode d (i - 0xC00) = 0 then 0 else s.aplicWord d i)
  else if 0x1000 ≤ i && i < 0x1040 then
    let h : Fin 8 := Fin.ofNat 8 ((i - 0x1000) / 8)
    if i % 8 = 6 || i % 8 = 7 then s.topi d h else s.aplicWord d i
  else 0

/-- A write of sourcecfg of source `i`: delegated by the machine-level domain, or a mode that the architecture has; a source that a domain loses or
that becomes inactive keeps no bit; one that it has waits for the next edge. -/
def State.writeSource (s : State) (d : Fin 2) (i v : Nat) : State :=
  if d = 1 && !s.delegated i then s
  else
    let v := if d = 0 && v.testBit 10 then 0x400 else if [1, 4, 5, 6, 7].contains (v % 8) then v % 8 else 0
    let s := s.put (ACX_APLIC.w d i) v
    let fresh (s : State) (e : Fin 2) : State :=
      if s.sourceMode e i = 0 then (s.put (ACX_APLIC.w e (targetWord i)) 0).withAplic e fun a => { a with ip := withBit a.ip i false, ie := withBit a.ie i false }
      else s.withAplic e fun a => { a with inp := withBit a.inp i (s.aplicSource i) }
    let s := if d = 0 && !s.delegated i then s.put (ACX_APLIC.w 1 i) 0 else s
    fresh (fresh s 0) 1

/-- A write of word `i` of a domain. -/
def State.aplicWrite (s : State) (d : Fin 2) (i v : Nat) : State :=
  let pend (p : Bool) (s : State) (j : Nat) : State := s.setPending d j p
  let enab (p : Bool) (s : State) (j : Nat) : State := s.setEnabled d j p
  if i = 0 then s.put (ACX_APLIC.w d 0) (v &&& 0x100)
  else if i ≤ 96 then s.writeSource d i v
  else if 0x700 ≤ i && i < 0x704 then s.forSources (pend true) (i - 0x700) v
  else if 0x740 ≤ i && i < 0x744 then s.forSources (pend false) (i - 0x740) v
  else if 0x780 ≤ i && i < 0x784 then s.forSources (enab true) (i - 0x780) v
  else if 0x7C0 ≤ i && i < 0x7C4 then s.forSources (enab false) (i - 0x7C0) v
  else if i = 0x737 || i = 0x800 then pend true s v
  else if i = 0x801 then pend true s (natOfBytesBE (bytesOf 4 v))
  else if i = 0x777 then pend false s v
  else if i = 0x7B7 then enab true s v
  else if i = 0x7F7 then enab false s v
  else if 0xC01 ≤ i && i ≤ 0xC60 then
    if s.sourceMode d (i - 0xC00) = 0 then s else s.put (ACX_APLIC.w d i) (v / 2 ^ 18 % 8 * 2 ^ 18 + max 1 (v % 256))
  else if 0x1000 ≤ i && i < 0x1040 && i % 8 < 3 then s.put (ACX_APLIC.w d i) (if i % 8 = 2 then v % 256 else v % 2)
  else s

/-- Source `i` waits for an edge of its input. -/
def State.edgeSource (s : State) (d : Fin 2) (i : Nat) : Bool := s.sourceMode d i = 4 || s.sourceMode d i = 5

/-- One ck of an input that a source takes by its edges. -/
def State.aplicEdge (d : Fin 2) (s : State) (i : Nat) : State :=
  let was := (s.aplic d).inp.getLsbD i
  let level := s.aplicSource i
  if was = level then s
  else
    let s := if level = (s.sourceMode d i = 4) then s.setPending d i true else s
    s.withAplic d fun a => { a with inp := withBit a.inp i level }

/-- One ck of a domain: the inputs that are taken by their edges. -/
def State.aplicEdges (s : State) (d : Fin 2) : State := ((List.range 24).filter (s.edgeSource d)).foldl (State.aplicEdge d) s

/-- One ck of the interrupt controller. -/
def State.aplicTick (s : State) : State := if s.held 5 || !s.domOn 90 then s else (s.aplicEdges 0).aplicEdges 1

/-- An MSI of vector `v` reaches the root port: the edge of source 33 + v (R353). -/
def State.msiEdge (s : State) (v : Fin 64) : State :=
  [0, 1].foldl (fun s d => if s.edgeSource d (33 + v.val) then s.setPending d (33 + v.val) true else s) s

/-! ## Interrupt bits of a hart (R353, R354) -/

/-- mtime and the time CSR: 50 MHz from TMB_MONO, 0 while G1 is held in reset (R354). -/
def State.mtime (s : State) : Nat := if s.held 1 then 0 else s.mono.toNat / 44

/-- mip of hart `h`: what software wrote, the external interrupts of both domains, the timer, the software interrupt, and the guest's injected ones. -/
def State.mip (s : State) (h : Fin 8) : Nat :=
  let c := s.hart h
  let bit (i : Nat) (p : Bool) : Nat := if p then 2 ^ i else 0
  c.get 0x344 ||| c.get 0x645 ||| bit 3 (s.flag (ACX_MSIP.ip h)) ||| bit 7 (decide (s.get (ACX_MTIMECMP.t h) ≤ s.mtime))
    ||| bit 11 (s.delivers 0 h) ||| bit 9 (s.delivers 1 h)

/-- What hart `h` reads in a control and status register, in the mode that has it. -/
def State.csrRead (s : State) (h : Fin 8) (n : Nat) : Nat :=
  let c := s.hart h
  let sd (v : Nat) : Nat := if bitsOf v 13 2 = 3 then v + 2 ^ 63 else v
  match n with
  | 0x001 => c.get 3 % 32
  | 0x002 => c.get 3 / 32 % 8
  | 0x100 => sd ((c.get 0x300 &&& sstatusBits) + 0x200000000)
  | 0x104 => c.get 0x304 &&& c.get 0x303 &&& sBits
  | 0x144 => s.mip h &&& c.get 0x303 &&& sBits
  | 0x204 => (c.get 0x304 &&& c.get 0x603 &&& vsBits) / 2
  | 0x244 => (s.mip h &&& c.get 0x603 &&& vsBits) / 2
  | 0x200 => sd (c.get 0x200)
  | 0x300 => sd (c.get 0x300)
  | 0x301 => 0x80000000001411AD
  | 0x344 => s.mip h
  | 0x604 => c.get 0x304 &&& hsBits
  | 0x644 => s.mip h &&& hsBits
  | 0xC01 => if c.mode.virt then (s.mtime + c.get 0x605) % 2 ^ 64 else s.mtime
  | 0xF11 | 0xF12 | 0xF13 => (Config.hartId n).toNat
  | 0xF14 => h.val
  | _ => if csrStored n then c.get n else 0

/-- A write of `v` to a control and status register of hart `h`. -/
def Hart.csrWrite (c : Hart) (n v : Nat) : Hart :=
  match n with
  | 0x001 => c.putBits 3 0 5 v
  | 0x002 => c.putBits 3 5 3 v
  | 0x100 => c.put 0x300 (merge (c.get 0x300) v sstatusBits)
  | 0x104 => c.put 0x304 (merge (c.get 0x304) v (c.get 0x303 &&& sBits))
  | 0x144 => c.put 0x344 (merge (c.get 0x344) v (c.get 0x303 &&& 2))
  | 0x204 => c.put 0x304 (merge (c.get 0x304) (2 * v) (c.get 0x603 &&& vsBits))
  | 0x244 => c.put 0x645 (merge (c.get 0x645) (2 * v) (c.get 0x603 &&& 4))
  | 0x604 => c.put 0x304 (merge (c.get 0x304) v hsBits)
  | 0x644 => c.put 0x645 (merge (c.get 0x645) v 4)
  | _ => if csrStored n then c.write n v else c

/-- The register that a mode reaches under a number: a guest supervisor's numbers are those of its own copies. -/
def guestCsr (mode : Priv) (n : Nat) : Nat :=
  if mode = .vs && [0x100, 0x104, 0x105, 0x140, 0x141, 0x142, 0x143, 0x144, 0x180].contains n then n + 0x100 else n

/-- A CSR instruction: register `rd` takes the old value, and with `write` the register takes `v`. A number that no register has, a level below the
one it names, and a write of what cannot be written are illegal; of a guest what HS may do is a virtual instruction. The counters of cycles and
instructions read a free value. -/
def State.csrOp (s : State) (h : Fin 8) (num : Nat) (write : Bool) (rd : Fin 32) (v : BitVec 64) : State :=
  let c := s.hart h
  let n := guestCsr c.mode num
  let need := bitsOf num 8 2
  let level := if c.mode = .hs then 2 else c.mode.level
  let atp := num = 0x180 && (c.mode = .hs && c.bit 0x300 20 || c.mode = .vs && c.bit 0x600 20)
  if !(csrStored num || csrViewed num) || (write && num / 2 ^ 10 = 3) then s.withHart h fun c => c.illegal false
  else if level < need || atp then s.withHart h fun c => c.illegal (need < 3)
  else
    let (old, s) := if num = 0xC00 || num = 0xC02 then s.draw 64 else (BitVec.ofNat 64 (s.csrRead h n), s)
    s.withHart h fun c => (if write then c.csrWrite n v.toNat else c).setReg rd old

end Sys2Proof.Machine
end

