-- ==== Sys2Proof/Machine/Flit.lean ====
section
/-! DEFINITION. The 272 bytes of an Apsis flit, its header and its CRC-32 (chapter 11, R285, R286). -/

namespace Sys2Proof.Machine

/-- `n` bytes of a payload, zeros beyond it. -/
def payloadBytes (f : Flit) (n : Nat) : List (BitVec 8) := (List.range n).map fun i => nthD f.payload i 0

/-- The vc field of a type: 0 where R286 gives none (log entry 59). -/
def flitVcField (ty : Nat) : Nat := if ty = 0 || ty = 7 || ty = 8 then 0 else flitVc ty

/-- The 96 bits of a flit's header (R285). -/
def flitHeader (ty : Fin 16) (f : Flit) : BitVec 96 :=
  BitVec.ofNat 4 ty.val ++ BitVec.ofNat 2 (flitVcField ty.val) ++ f.seq ++ f.ack ++ BitVec.ofNat 6 f.crd.val ++ BitVec.ofNat 2 f.crdvc.val
    ++ BitVec.ofNat 3 f.dst.val ++ BitVec.ofNat 3 f.src.val ++ f.len ++ f.tag ++ f.addr

/-- A flit under its CRC: header and payload, 268 bytes. The byte order of the header is little-endian (log entry 59). -/
def flitBody (ty : Fin 16) (f : Flit) : List (BitVec 8) := bytesOf 12 (flitHeader ty f).toNat ++ payloadBytes f 256

/-- A flit's 272 bytes (R285). -/
def flitBytes (ty : Fin 16) (f : Flit) : List (BitVec 8) := flitBody ty f ++ bytesOf 4 (crc32 (flitBody ty f)).toNat

/-- A flit that leaves: a TIME flit carries its record in the payload, in a layout that R291 leaves open (log entry 59). -/
def OutFlit.bytes (o : OutFlit) : List (BitVec 8) :=
  flitBytes o.ty (match o.time with
    | some r => { o.f with payload := Config.timeBytes r.reply [r.t2, r.t3, r.cf1, r.cf2] }
    | none => o.f)

/-- The flit that 272 bytes hold. -/
def readFlit (bs : List (BitVec 8)) : Flit :=
  let h := natOfBytes (bs.take 12)
  { seq := BitVec.ofNat 10 (h / 2 ^ 80), ack := BitVec.ofNat 10 (h / 2 ^ 70), crd := Fin.ofNat 64 (h / 2 ^ 64), crdvc := Fin.ofNat 4 (h / 2 ^ 62),
    dst := Fin.ofNat 8 (h / 2 ^ 59), src := Fin.ofNat 8 (h / 2 ^ 56), len := BitVec.ofNat 8 (h / 2 ^ 48), tag := BitVec.ofNat 8 (h / 2 ^ 40),
    addr := BitVec.ofNat 40 h, payload := (bs.drop 12).take 256 }

/-- The CRC-32 of 272 bytes holds (R285). -/
def flitGood (bs : List (BitVec 8)) : Bool := bs.length = 272 && natOfBytes (bs.drop 268) = (crc32 (bs.take 268)).toNat

/-- The type of a flit's bytes. -/
def flitType (bs : List (BitVec 8)) : Fin 16 := Fin.ofNat 16 (natOfBytes (bs.take 12) / 2 ^ 92)

/-- The record of a TIME flit. -/
def readTime (f : Flit) : TimeRec :=
  let field (i : Nat) : Int := Config.timeField i f.payload
  ⟨field 0 ≠ 0, field 1, field 2, field 3, field 4⟩

/-- The bytes that leave on link `p` in the present ck, flit by flit (R285). -/
def State.flitsOut (s : State) (p : Fin 32) : List (List (BitVec 8)) := (s.link p).out.map OutFlit.bytes

end Sys2Proof.Machine
end

