-- ==== Sys2Proof/Machine/Ports.lean ====
section
/-! DEFINITION. Optical engines and ports: enabling, lane moves, link up, signal, power reduction and laser light (chapter 11, R264 to
R270). -/

namespace Sys2Proof.Machine

/-- Lane count of a port rate; rates 5 to 7 are refused (R267). -/
def rateLanes : Nat → Option Nat
  | 0 | 1 | 2 => some 1
  | 3 => some 2
  | 4 => some 4
  | _ => none

/-- Lanes of other enabled ports of the engine of port `p`, as a mask. -/
def State.lanesElsewhere (s : State) (p : Fin 32) : Nat :=
  (List.finRange 32).foldl (fun m (o : Fin 32) =>
    if o ≠ p && o.val / 8 = p.val / 8 && s.flag (OPT_Pp_CFG.en o) then m ||| s.get (OPT_Pp_CFG.lanes o) else m) 0

/-- The port may be enabled on this mask (R267, R268). -/
def State.portFits (s : State) (p : Fin 32) (apx : Bool) (rate lanes : Nat) : Bool :=
  rateLanes rate = some (onesOf 8 lanes).length && (!apx || rate ≥ 2)
    && (s.lanesElsewhere p) &&& lanes = 0 && (onesOf 8 (s.lanesElsewhere p ||| lanes)).length ≤ 7

/-- A lane of port `p` has no signal. -/
def State.portLost (s : State) (p : Fin 32) : Bool := (s.portLanes p).any fun l => (s.get OPT_LANE.los).testBit l

/-- The port leaves link up (R269). -/
def State.portDown (s : State) (p : Fin 32) : State :=
  ((s.put (OPT_Pp_STAT.up p) 0).put (OPT_Pp_STAT.lock p) 0).put (OPT_Pp_STAT.los p) (s.portLost p).toNat

/-- A lane move (R269): an accepted mask takes the port out of link up; a refused one leaves the old mask and sets cfg. -/
def State.laneMove (s : State) (p : Fin 32) (lanes : Nat) : State :=
  if s.portFits p (s.flag (OPT_Pp_CFG.apx p)) (s.get (OPT_Pp_CFG.rate p)) lanes then
    (s.put (OPT_Pp_CFG.lanes p) lanes).portDown p
  else s.raise OPT_CAUSE.cfg

/-- A write of OPT_Pp_CFG with en = 1 (R268): while enabled only a new lane mask acts; a refused enable changes nothing and sets cfg. -/
def State.portEnable (s : State) (p : Fin 32) (apx fh : Bool) (rate lanes mac : Nat) : State :=
  if s.flag (OPT_Pp_CFG.en p) then
    if s.get (OPT_Pp_CFG.lanes p) = lanes then s else s.laneMove p lanes
  else if s.portFits p apx rate lanes then
    let s := ((s.put (OPT_Pp_CFG.apx p) apx.toNat).put (OPT_Pp_CFG.fh p) fh.toNat).put (OPT_Pp_CFG.rate p) rate
    (((s.put (OPT_Pp_CFG.lanes p) lanes).put (OPT_Pp_CFG.mac p) mac).put (OPT_Pp_CFG.en p) 1).portDown p
  else s.raise OPT_CAUSE.cfg

/-- PORT_ENABLE (R267, R268): a write of OPT_Pp_CFG with en = 1. -/
def execPortEnable (p : Fin 32) (apx fh : Bool) (rate : Fin 8) (lanes : BitVec 8) (mac : BitVec 48) (s : State) : Res := access (portUnitOf p) 4 s fun s =>
  crossing (.port p) s <| .next (s.portEnable p apx fh rate lanes.toNat mac.toNat)

/-- LANE_MOVE (R269): a write of a new lane mask; on a disabled port it is stored. -/
def execLaneMove (p : Fin 32) (lanes : BitVec 8) (s : State) : Res := access (portUnitOf p) 4 s fun s =>
  .next (if s.flag (OPT_Pp_CFG.en p) then s.laneMove p lanes.toNat else s.put (OPT_Pp_CFG.lanes p) lanes.toNat)

/-- INIT of this chip (R286, R287): its id and the receive buffers of each virtual channel. -/
def State.initFlit (s : State) : Flit :=
  { Flit.blank with src := s.apxId, payload := bytesOf 4 s.apxId.val ++ [64, 64, 16] ++ List.replicate 249 0 }

/-- Bring-up of an Apsis link (R287): flits held for replay are dropped, INIT is sent. -/
def State.linkInit (s : State) (p : Fin 32) : State :=
  let f := s.initFlit
  (s.withLink p fun x => ({ ApxLink.reset with wait := x.wait, out := x.out, progress := s.mono } : ApxLink).control 8 f).put (APX_Lp_STAT.state p) 1

/-- Replay the held flits; after rmax replays without progress the link goes down and brings up again (R287). -/
def State.replay (s : State) (p : Fin 32) : State :=
  let x := s.link p
  if x.unacked.isEmpty then s
  else if x.replays ≥ s.get (APX_Lp_CFG.rmax p) then (s.raiseBit APX_CAUSE.down p).linkInit p
  else
    (s.withLink p fun x => { x with replays := x.replays + 1, progress := s.mono, out := x.out ++ x.unacked }).countUp (APX_Lp_CNT.rep p) 1

/-- LINK_UP (R269): training of an enabled port with signal on every lane has ended; an Apsis link begins its bring-up, or, where it was up before
the port moved or lost its signal, replays what it holds (R309). -/
def execLinkUp (p : Fin 32) (s : State) : Res := inside (portUnitOf p) 4 s fun s => crossing (.port p) s <|
  if !s.flag (OPT_Pp_CFG.en p) || s.flag (OPT_Pp_STAT.up p) || s.portLost p then .next s
  else
    let s := ((s.put (OPT_Pp_STAT.lock p) 1).put (OPT_Pp_STAT.up p) 1).put (OPT_Pp_STAT.los p) 0
    .next (if !s.flag (OPT_Pp_CFG.apx p) then s else if s.get (APX_Lp_STAT.state p) = 2 then s.replay p else s.linkInit p)

/-! ## Signal and power (R265, R266) -/

/-- Optical lane `l`. -/
def State.optLane (s : State) (l : Fin 32) : OptLane := s.opt.lane[l.val]

/-- Replace optical lane `l`. -/
def State.withOptLane (s : State) (l : Fin 32) (f : OptLane → OptLane) : State :=
  { s with opt := { s.opt with lane := s.opt.lane.set l.val (f s.opt.lane[l.val]) } }

/-- Set bit `l` of a 32-lane field. -/
def State.putLane (s : State) (f : Fld) (l : Fin 32) (v : Bool) : State := s.put f (setBitsOf (s.get f) l.val 1 v.toNat)

/-- Enabled ports on lane `l`. -/
def State.portsOn (s : State) (l : Fin 32) : List (Fin 32) :=
  (List.finRange 32).filter fun p => s.flag (OPT_Pp_CFG.en p) && (s.portLanes p).contains l.val

/-- LOSS_OF_SIGNAL (R266): lane `l` loses its signal; ports on it leave link up. -/
def execLossOfSignal (l : Fin 32) (s : State) : Res := inside (92 + l.val / 8) 4 s fun s =>
  if (s.get OPT_LANE.los).testBit l.val then .next s
  else
    let s := ((s.putLane OPT_LANE.los l true).raiseBit OPT_CAUSE.los l).withOptLane l fun x => { x with lostAt := some s.mono }
    .next ((s.portsOn l).foldl State.portDown s)

/-- Lane `l` sees signal. -/
def State.signalAt (s : State) (l : Fin 32) : State :=
  let s := (s.putLane OPT_LANE.los l false).withOptLane l fun x => { x with lostAt := none }
  (s.portsOn l).foldl (fun s (p : Fin 32) => s.put (OPT_Pp_STAT.los p) (s.portLost p).toNat) s

/-- SIGNAL_PRESENT (R266, R269). -/
def execSignalPresent (l : Fin 32) (s : State) : Res := inside (92 + l.val / 8) 4 s fun s => .next (s.signalAt l)

/-- POWER_REDUCTION (R266): an enabled lane without signal for 500 µs, or a lane held by OPT_APRF, is reduced. -/
def execPowerReduction (l : Fin 32) (s : State) : Res := inside (92 + l.val / 8) 4 s fun s =>
  let lost := match (s.optLane l).lostAt with
    | some m => decide (s.since m ≥ 500 * Config.ckPerUs) && !(s.portsOn l).isEmpty
    | none => false
  if (s.get OPT_LANE.apr).testBit l.val then .next s
  else if lost || (s.get OPT_APRF.force).testBit l.val then
    .next ((s.putLane OPT_LANE.apr l true).withOptLane l fun x => { x with pulseAt := s.mono })
  else .next s

/-- RESTART_PULSE (R266): a reduced lane emits a pulse every 1 s; one in which it sees signal ends the reduction, unless OPT_APRF holds it. -/
def execRestartPulse (l : Fin 32) (seen : Bool) (s : State) : Res := inside (92 + l.val / 8) 4 s fun s =>
  if !(s.get OPT_LANE.apr).testBit l.val || s.since (s.optLane l).pulseAt < 1000 * Config.ckPerMs then .next s
  else
    let s := s.withOptLane l fun x => { x with pulseAt := s.mono }
    if !seen then .next s
    else
      let s := s.signalAt l
      .next (if (s.get OPT_APRF.force).testBit l.val then s else s.putLane OPT_LANE.apr l false)

/-- LASER_LIGHT_LOW (R265): the light of engine `e` has fallen below its fused minimum: its lanes lose their transmit signal. -/
def execLaserLightLow (e : Fin 4) (lvl : BitVec 8) (s : State) : Res := inside (92 + e.val) 4 s fun s =>
  let s := (s.put (OPT_LIGHT.lvl e) lvl.toNat).raiseIf (!s.opt.dark.getLsbD e.val) OPT_CAUSE.laser
  .next { s with opt := { s.opt with dark := s.opt.dark ||| BitVec.ofNat 4 (2 ^ e.val) } }

/-- LASER_LIGHT_RESTORED (R265). -/
def execLaserLightRestored (e : Fin 4) (lvl : BitVec 8) (s : State) : Res := inside (92 + e.val) 4 s fun s =>
  let s := s.put (OPT_LIGHT.lvl e) lvl.toNat
  .next { s with opt := { s.opt with dark := s.opt.dark &&& ~~~(BitVec.ofNat 4 (2 ^ e.val)) } }

end Sys2Proof.Machine
end

