-- ==== Sys2Proof/Machine/Apsis.lean ====
section
/-! DEFINITION. The Apsis links: receiving, retry, remote requests, time transfer and START (chapter 11, R285 to R292). -/

namespace Sys2Proof.Machine

/-- Port `p` is an Apsis link whose PCS is up. -/
def State.apxUp (s : State) (p : Fin 32) : Bool :=
  s.flag (OPT_Pp_CFG.en p) && s.flag (OPT_Pp_CFG.apx p) && s.flag (OPT_Pp_STAT.up p)

/-- A flit with a good CRC arrives on port `p`. -/
def onLink (p : Fin 32) (s : State) (f : State → Res) : Res :=
  inside (portUnitOf p) 4 s fun s => if s.apxUp p then f s else .next s

/-- The acknowledged flits leave the replay buffer: those up to the one whose seq is `ack` (R287). -/
def ApxLink.acked (now : BitVec 64) (ack : BitVec 10) (x : ApxLink) : ApxLink :=
  match x.unacked.findIdx? fun o => o.f.seq = ack with
  | some i => { x with unacked := x.unacked.drop (i + 1), progress := now, replays := 0 }
  | none => x

/-- The credits that a flit returns (R287). -/
def ApxLink.credited (v : Fin 4) (n : Fin 64) (x : ApxLink) : ApxLink :=
  if v.val < 3 then { x with cred := x.cred.set! v.val (nthD x.cred.toList v.val 0 + n.val) } else x

/-- Owe a credit of virtual channel `v` to the partner. -/
def ApxLink.owe (v : Nat) (x : ApxLink) : ApxLink := { x with owed := x.owed.set! v (nthD x.owed.toList v 0 + 1) }

/-- Take ack and credits of a flit on an up link, then send what they let go (R287). -/
def State.takeAck (s : State) (p : Fin 32) (f : Flit) : State :=
  if s.get (APX_Lp_STAT.state p) ≠ 2 then s
  else s.withLink p fun x =>
    let x := (x.acked s.mono f.ack).credited f.crdvc f.crd
    ApxLink.pump s.mono x.wait.length x

/-- Ask for a replay, once (R287). -/
def State.askRetry (s : State) (p : Fin 32) : State :=
  s.withLink p fun x => if x.reject then x else ({ x with reject := true }).control 7 Flit.blank

/-- A sequenced flit of type `ty` (R286 to R288): the next in order is accepted, its ack and credits are taken and `k` is its effect, or it is
forwarded when it is for another chip, as `fwd` makes it; a repeated one is dropped; a gap asks for a replay. The accepted flit is acknowledged by an
IDLE when nothing else leaves. -/
def State.sequenced (s : State) (p : Fin 32) (ty : Fin 16) (f : Flit) (fwd : State → State × Option TimeRec) (k : State → Res) : Res :=
  if s.get (APX_Lp_STAT.state p) ≠ 2 then .next s
  else
    let x := s.link p
    if f.seq = x.expect then
      let s := s.takeAck p f
      let n := (s.link p).out.length
      let s := s.withLink p fun x => { x with expect := x.expect + 1, reject := false }
      let keep := f.dst = s.apxId && (ty = 1 || ty = 3)
      let s := if keep then s else s.withLink p (ApxLink.owe (flitVc ty))
      let r : Res :=
        if ty.val ≥ 9 then .next (s.raise APX_CAUSE.badtype)
        else if f.dst = s.apxId then k s
        else
          let (s, t) := fwd s
          .next (s.routeSend ⟨ty, f, t⟩)
      andThen r fun s => .next (if (s.link p).out.length = n then s.withLink p fun x => x.control 0 Flit.blank else s)
    else if (x.expect - f.seq).toNat ≤ 512 then .next s
    else .next (s.askRetry p)

/-- Forward a flit as it came. -/
def asItCame (s : State) : State × Option TimeRec := (s, none)

/-- APSIS_IDLE (R286): only ack and credits. -/
def execApsisIdle (p : Fin 32) (f : Flit) (s : State) : Res := onLink p s fun s => .next (s.takeAck p f)

/-! ## Requests and responses (R286, R289) -/

/-- A request of another chip waits for service. -/
def State.serveLater (s : State) (p : Fin 32) (write : Bool) (f : Flit) : State := s.withApx fun a => { a with serve := a.serve ++ [⟨p, write, f⟩] }

/-- APSIS_RD (R286, R289). -/
def execApsisRd (p : Fin 32) (f : Flit) (s : State) : Res := onLink p s fun s =>
  s.sequenced p 1 f asItCame fun s => .next (s.serveLater p false f)

/-- APSIS_WR (R286, R289). -/
def execApsisWr (p : Fin 32) (f : Flit) (s : State) : Res := onLink p s fun s =>
  s.sequenced p 3 f asItCame fun s => .next (s.serveLater p true f)

/-- Bytes `n` from `o` of a response come to a line at offset `at_`. -/
def DLine.got (l : DLine) (at_ : Nat) (bs : List (BitVec 8)) : DLine :=
  { l with data := l.data.zipIdx.map (fun (b, i) => if at_ ≤ i && i < at_ + bs.length then nthD bs (i - at_) b else b), need := l.need - bs.length }

/-- Give the parts of a read to the lines of its queue, in order. -/
def DQueue.gotParts : List (Nat × Option Nat × Nat × Nat) → List (BitVec 8) → DQueue → DQueue
  | [], _, x => x
  | (row, piece, at_, n) :: ps, bs, x =>
    DQueue.gotParts ps (bs.drop n)
      { x with fifo := x.fifo.map fun l => if l.row = row && l.piece = piece then l.got at_ (bs.take n) else l }

/-- An outstanding request completes, a read with `bs` (R289). -/
def State.requestDone (s : State) (r : ApxReq) (bs : List (BitVec 8)) : State :=
  let s := s.withApx fun a => { a with reqs := a.reqs.filter fun q => !(q.dst = r.dst && q.tag = r.tag) }
  let s := s.withMv fun v =>
    let x := v.q[r.queue.val]
    { v with q := v.q.set r.queue.val (if r.write then { x with wout := x.wout - 1 } else x.gotParts r.parts bs) }
  s.dmaCount (Fin.ofNat 8 (r.queue.val / 32)) (Fin.ofNat 32 (r.queue.val % 32))

/-- The outstanding request that a response answers. -/
def State.requestOf (s : State) (d : Fin 8) (tag : BitVec 8) (write : Bool) : Option ApxReq :=
  s.apx.reqs.find? fun r => r.dst = d && r.tag = tag && r.write = write

/-- APSIS_RDRSP (R286, R289): the read of its tag completes; a late one is discarded. -/
def execApsisRdrsp (p : Fin 32) (f : Flit) (s : State) : Res := onLink p s fun s =>
  s.sequenced p 2 f asItCame fun s =>
    match s.requestOf f.src f.tag false with
    | some r => .next (s.requestDone r (payloadBytes f (f.len.toNat + 1)))
    | none => .next s

/-- APSIS_WRACK (R286, R289): the write of its tag completes. -/
def execApsisWrack (p : Fin 32) (f : Flit) (s : State) : Res := onLink p s fun s =>
  s.sequenced p 4 f asItCame fun s =>
    match s.requestOf f.src f.tag true with
    | some r => .next (s.requestDone r [])
    | none => .next s

/-- REMOTE_REQUEST_SERVICE (R127, R289): with remote-share slots, the oldest request is served and answered; one outside the backed range reads
zeros or drops its write and sets addr. -/
def execRemoteRequestService (s : State) : Res := inside 83 1 s fun s =>
  match s.apx.serve with
  | [] => .next s
  | x :: rest =>
    if s.mv.mem.slots 2 = 0 then .next s
    else
      let a := x.f.addr.toNat
      let n := x.f.len.toNat + 1
      let out := regionOf a ≠ .lpddr
      faultIf (!out && !s.regionOn .lpddr) .poweredOff <|
        let s := (s.withApx fun a => { a with serve := rest }).raiseIf out APX_CAUSE.addr
        let s := s.withLink x.port (ApxLink.owe 0)
        let answer : Flit := { Flit.blank with dst := x.f.src, src := s.apxId, len := x.f.len, tag := x.f.tag, addr := x.f.addr }
        if x.write then
          .next ((if out then s else s.sysWrite a (payloadBytes x.f n)).routeSend ⟨4, answer, none⟩)
        else
          let (bs, s) := if out then (List.replicate n 0, s) else s.sysRead a n
          .next (s.routeSend ⟨2, { answer with payload := bs }, none⟩)

/-- REQUEST_TIMEOUT (R289): the request to chip `d` with this tag, unanswered for rtmo µs, completes, a read with zeros, and rtmo is set. -/
def execRequestTimeout (d : Fin 8) (tag : BitVec 8) (s : State) : Res := inside 82 4 s fun s =>
  match s.apx.reqs.find? fun r => r.dst = d && r.tag = tag with
  | none => .next s
  | some r =>
    if s.since r.at_ < s.get APX_CFG.rtmo * Config.ckPerUs then .next s
    else .next ((s.requestDone r (List.replicate 256 0)).raise APX_CAUSE.rtmo)

/-! ## Retry and bring-up (R287) -/

/-- APSIS_RETRY (R287): its ack names the last flit received in order; the flits after it are replayed. -/
def execApsisRetry (p : Fin 32) (f : Flit) (s : State) : Res := onLink p s fun s =>
  if s.get (APX_Lp_STAT.state p) ≠ 2 then .next s else .next ((s.takeAck p f).replay p)

/-- REPLAY_TIMER (R287): tmo × 100 ns have passed without progress of ack; a port that is not up sends nothing, and replays when it is again (R309,
log entry 59). -/
def execReplayTimer (p : Fin 32) (s : State) : Res := onLink p s fun s =>
  if s.get (APX_Lp_STAT.state p) = 2 && s.since (s.link p).progress ≥ s.get (APX_Lp_CFG.tmo p) * 220 then .next (s.replay p) else .next s

/-- APSIS_INIT (R286, R287): the partner's credits bring the link up, with a measured round trip; on a link that was up, bring-up starts
again from this side too. -/
def execApsisInit (p : Fin 32) (f : Flit) (s : State) : Res := onLink p s fun s =>
  let s := if s.get (APX_Lp_STAT.state p) = 1 then s else s.linkInit p
  let (rtt, s) := s.draw 32
  let cr : Vector Nat 3 := Vector.ofFn fun (i : Fin 3) => (nthD f.payload (4 + i.val) 0).toNat
  let s := ((s.withLink p fun x => { x with cred := cr }).put (APX_Lp_STAT.rtt p) rtt.toNat).put (APX_Lp_STAT.state p) 2
  .next (s.withLink p fun x => ApxLink.pump s.mono x.wait.length x)

/-- APSIS_FLIT_CRC_ERROR (R287, R297): the flit is counted, logged and discarded, and one RETRY asks for it. -/
def execApsisFlitCrcError (p : Fin 32) (s : State) : Res := onLink p s fun s =>
  let s := (s.countUp (APX_Lp_CNT.crc p) 1).crcFailed p
  .next (if s.get (APX_Lp_STAT.state p) = 2 then s.askRetry p else s)

/-- APSIS_RESERVED_TYPE (R286): a flit of type 9 + `ty` is discarded after its seq is accepted, and sets badtype. -/
def execApsisReservedType (p : Fin 32) (ty : Fin 7) (f : Flit) (s : State) : Res := onLink p s fun s =>
  s.sequenced p (Fin.ofNat 16 (9 + ty.val)) f asItCame fun s => .next s

/-! ## Time transfer (R291) -/

/-- NT in 2^-16 ns. -/
def State.nt16 (s : State) : Nat := s.tb.nt.total / 2 ^ 24

/-- An instant of departure not before now (log entry 26). -/
def State.departure (s : State) : Int × State :=
  let (n, s') := s.drawWithin (2 ^ 32)
  ((s.nt16 + n : Nat), s')

/-- TIME_TRANSFER (R291): with phase_src = 2, at a new whole millisecond of NT, a request leaves toward the reference on the configured port. -/
def execTimeTransfer (s : State) : Res := inside 82 4 s fun s =>
  let ms := s.tb.nt.total / (1000000 * Config.ntFrac)
  if s.get TMB_CTL.phase_src ≠ 2 || ms ≤ s.apx.ms then .next s
  else
    let (t1, s) := s.departure
    let s := s.withApx fun a => { a with exch := some t1, ms := ms }
    let f : Flit := { Flit.blank with dst := Fin.ofNat 8 (s.get APX_CFG.ref), src := s.apxId }
    .next (s.linkSend (Fin.ofNat 32 (s.get APX_CFG.tport)) ⟨5, f, some ⟨false, 0, 0, 0, 0⟩⟩)

/-- 100 µs in 2^-16 ns. -/
def exchangeLimit : Int := 6553600000

/-- A forwarding chip adds its residence time, which is free, to the record (R291). -/
def forwardTime (r : TimeRec) (s : State) : State × Option TimeRec :=
  let (n, s) := s.drawWithin (2 ^ 32)
  (s, some (if r.reply then { r with cf2 := r.cf2 + n } else { r with cf1 := r.cf1 + n }))

/-- θ of R291, in ns. -/
def exchangeTheta (a t1 t2 t3 t4 cf1 cf2 : Int) : Rat := ((a : Rat) - (((t2 - t1 - cf1) - (t4 - t3 - cf2) : Int) : Rat) / 2) / 65536

/-- APSIS_TIME (R291): a request is answered with its arrival and the reply's departure; a reply within 100 µs of t1 gives θ to the servo. -/
def execApsisTime (p : Fin 32) (f : Flit) (r : TimeRec) (arr : Int) (s : State) : Res := onLink p s fun s =>
  s.sequenced p 5 f (forwardTime r) fun s =>
    if !r.reply then
      let (t3, s) := s.departure
      .next (s.routeSend ⟨5, { Flit.blank with dst := f.src, src := s.apxId, tag := f.tag }, some ⟨true, arr, t3, r.cf1, 0⟩⟩)
    else match s.apx.exch with
      | none => .next s
      | some t1 =>
        let s := s.withApx fun a => { a with exch := none }
        if arr - t1 ≥ exchangeLimit || s.get TMB_CTL.phase_src ≠ 2 then .next s
        else .next (s.phaseUpdate (exchangeTheta (s.getS APX_TASYM.a) t1 r.t2 r.t3 arr r.cf1 r.cf2))

/-- TIME_EXCHANGE_TIMEOUT (R291): an exchange without a reply 100 µs after t1 is discarded. -/
def execTimeExchangeTimeout (s : State) : Res := inside 82 4 s fun s =>
  match s.apx.exch with
  | some t1 => if (s.nt16 : Int) - t1 ≥ exchangeLimit then .next (s.withApx fun a => { a with exch := none }) else .next s
  | none => .next s

/-! ## START (R46, R47, R292) -/

/-- APSIS_START (R47, R292): every engine in a barrier takes it; with none, start is set. Whether the START's timeline selects engines is not
stated: the model gives it to each engine in the barrier, on that engine's own timeline (log entry 48). -/
def execApsisStart (p : Fin 32) (f : Flit) (s : State) : Res := onLink p s fun s =>
  s.sequenced p 6 f asItCame fun s =>
    let es := (List.finRange 8).filter fun n => (s.barrierOf n).isSome
    if es.isEmpty then .next (s.raise APX_CAUSE.start)
    else
      let id := nthD f.payload 0 0
      let t := natOfBytes ((f.payload.drop 4).take 8) % 2 ^ 33 % Config.airWrap
      .next (es.foldl (fun s n => s.followStart n id t) s)

/-- A START flit toward chip `d` (R286). -/
def startFlit (src d : Fin 8) (id : BitVec 8) (t : Nat) (tl : Fin 8) : Flit :=
  { Flit.blank with dst := d, src := src, payload := [id, 0, 0, 0] ++ bytesOf 8 t ++ bytesOf 1 tl.val ++ List.replicate 243 0 }

/-- The effect of 272 bytes that port `p` receives, `arr` being their arrival in 2^-16 ns: that of the command they spell (R285 to R287). -/
def receiveFlit (p : Fin 32) (arr : Int) (bs : List (BitVec 8)) (s : State) : Res :=
  let f := readFlit bs
  if !flitGood bs then execApsisFlitCrcError p s
  else match (flitType bs).val with
    | 0 => execApsisIdle p f s
    | 1 => execApsisRd p f s
    | 2 => execApsisRdrsp p f s
    | 3 => execApsisWr p f s
    | 4 => execApsisWrack p f s
    | 5 => execApsisTime p f (readTime f) arr s
    | 6 => execApsisStart p f s
    | 7 => execApsisRetry p f s
    | 8 => execApsisInit p f s
    | ty => execApsisReservedType p (Fin.ofNat 7 (ty - 9)) f s

/-- One ck of the links: the flits of the ck before have left, and a leader's STARTs leave for its followers (R292). -/
def State.apxTick (s : State) : State :=
  let s := s.withApx fun a => { a with link := a.link.map fun x => if x.out.isEmpty then x else { x with out := [] } }
  let starts := s.orr.starts
  if starts.isEmpty then s
  else
    let s := s.withOrr fun o => { o with starts := [] }
    let mask := s.get APX_CFG.fmask
    starts.foldl (fun s (id, t, tl) =>
      ((List.finRange 8).filter fun d => mask.testBit d.val).foldl (fun s d => s.routeSend ⟨6, startFlit s.apxId d id t tl, none⟩) s) s

end Sys2Proof.Machine
end

