-- ==== Sys2Proof/Machine/Domains.lean ====
section
/-! DEFINITION. What reset groups and power domains hold, and what a reset or the loss of power makes of it (chapter 13, R319, R320, R343,
R344). -/

namespace Sys2Proof.Machine

/-- Set the state of a domain. -/
def State.setDom (s : State) (d : Nat) (v : BitVec 2) : State := { s with pwr := { s.pwr with dom := s.pwr.dom.setIfInBounds d v } }

/-- Memory bytes and errors at the addresses of `p` are gone. -/
def State.eraseMem (s : State) (p : Nat → Bool) : State :=
  { s with mem := s.mem.filter fun e => !p e.1, flaws := s.flaws.filter fun e => !p (8 * e.1) }

/-- An address of memory unit `u` of kind `k` (1 to 3), or of the scratchpad of tile `u` (kind 0). -/
def inUnit (k u a : Nat) : Bool := checkUnit a = some (k, u)

/-- Register words at the addresses of `p` take their Reset values. -/
def State.resetRegs (s : State) (p : Nat → Bool) : State := { s with regs := s.regs.filter fun e => !p e.1 }

/-- The register words of the control blocks `ks` (R382). -/
def inBlocks (ks : List Nat) (a : Nat) : Bool :=
  match blockOf a with
  | some k => ks.contains k
  | none => false

/-- Hard-engine units from `i` up to but not including `j` are reset. -/
def State.resetHard (s : State) (i j : Nat) : State :=
  { s with hard := (List.range (j - i)).foldl (fun v n => v.setIfInBounds (i + n) HardUnit.reset) s.hard }

/-- ACX_HPARK.absent says which harts the repair record makes absent, whatever resets it (R6, R295). -/
def State.hartsAbsent (s : State) : State :=
  s.put ACX_HPARK.absent ((List.range 8).foldl (fun m h => if s.absent 12 h then m + 2 ^ h else m) 0)

/-- Every field of the units of group `g` takes its Reset value (R6, R343). Fused fields and what OTP holds keep their values; memory bytes
are no fields and stay. -/
def State.resetGroup (s : State) (g : Nat) : State :=
  match g with
  | 1 =>
    let n := s.get SYS_STAT.rstcnt
    let s := s.resetRegs (inBlocks [0, 1, 7, 8, 9, 10, 11, 64])
    let s := s.put SYS_STAT.rstcnt n
    { s with tb := TimeBase.reset, apx := { s.apx with ms := 0 }, orr := Orrery.reset, tiles := Vector.replicate 64 Tile.reset, mv := Movement.reset, cx := Contexts.reset
             pins := Pins.reset }
  | 2 => { (s.resetRegs (inBlocks [14, 15, 16])).resetHard 0 17 with fe := FrontEnd.reset, jes := Jesd.reset }
  | 3 => (s.resetRegs (inBlocks [17, 18, 19])).resetHard 17 37
  | 4 => { s.resetRegs (inBlocks [12, 13, 20]) with opt := Optics.reset, apx := Apsis.reset }
  | 5 => { (s.resetRegs (inBlocks [21])).hartsAbsent with acx := Acx.reset, pcie := Pcie.reset }
  | _ => s

/-- The optical engine in whose ports or Apsis links a register lies (R319). -/
def engineOf (a : Nat) : Option Nat :=
  if OPT_Pp_CFG.reg 0 ≤ a && a < OPT_Pp_CFG.reg 32 then some ((a - OPT_Pp_CFG.reg 0) / 0x400)
  else if APX_Lp_CFG.reg 0 ≤ a && a < APX_Lp_CFG.reg 32 then some ((a - APX_Lp_CFG.reg 0) / 0x80)
  else if APX_Lp_CNT.reg 0 ≤ a && a < APX_Lp_CNT.reg 32 then some ((a - APX_Lp_CNT.reg 0) / 0x40)
  else none

/-- Clear the bits of an optical engine's lanes in a 32-lane field. -/
def State.clearLanes (s : State) (f : Fld) (e : Nat) : State := s.put f (setBitsOf (s.get f) (8 * e) 8 0)

/-- An optical engine keeps nothing: its ports, links, lanes, light level and buffers (R320). -/
def State.loseEngine (s : State) (e : Nat) : State :=
  let s := s.resetRegs fun a => engineOf a = some e
  let s := ((s.clearLanes OPT_LANE.los e).clearLanes OPT_LANE.apr e).put (OPT_LIGHT.lvl e) 0
  let mine (p : Nat) : Bool := p / 8 = e
  { s with opt := { s.opt with buf := s.opt.buf.setIfInBounds e []
                               rxWait := s.opt.rxWait.filter fun f => !mine f.port
                               dark := s.opt.dark &&& ~~~(BitVec.ofNat 4 (2 ^ e))
                               port := Vector.ofFn fun (p : Fin 32) => if mine p then Optics.reset.port[p.val] else s.opt.port[p.val]
                               lane := Vector.ofFn fun (l : Fin 32) => if mine l then Optics.reset.lane[l.val] else s.opt.lane[l.val] }
           apx := { s.apx with link := Vector.ofFn fun (p : Fin 32) => if mine p then ApxLink.reset else s.apx.link[p.val] } }

/-- Registers of the transmit chains and their DPD tables. -/
def txRegs (a : Nat) : Bool := DFE_TXc_CFG.reg 0 ≤ a && a < DFE_CAUSE.reg

/-- Domain `d` has lost its power: its units keep no state (R320). -/
def State.loseDomain (s : State) (d : Nat) : State :=
  if d < 72 then
    match (List.finRange 64).find? fun (t : Fin 64) => !s.absent 0 t && decide (s.phys 0 t = d) with
    | some t => (s.eraseMem (inUnit 0 t)).withTile t fun _ => Tile.reset
    | none => s
  else if d < 80 then s.eraseMem fun a => regionOf a = .cluster (d - 72)
  else match d with
    | 81 => s.eraseMem fun a => regionOf a = .lpddr
    | 82 => (s.resetGroup 1).eraseMem fun a => regionOf a = .ue
    | 83 =>
      ((s.resetRegs (inBlocks [11])).withMv fun v => { v with mem := MemCtl.reset, slot := Movement.reset.slot }).eraseMem fun a => regionOf a = .lpddr
    | 84 | 85 => s.eraseMem fun a => regionOf a = .lpddr
    | 86 => { (s.resetRegs fun a => inBlocks [16] a || (inBlocks [15] a && !txRegs a)).resetHard 0 17 with fe := { FrontEnd.reset with tx := s.fe.tx } }
    | 87 => { s.resetRegs txRegs with fe := { s.fe with tx := FrontEnd.reset.tx } }
    | 88 => (s.resetRegs (inBlocks [17])).resetHard 17 25
    | 89 => (s.resetRegs (inBlocks [18, 19])).resetHard 25 37
    | 90 => { (s.resetRegs (inBlocks [21])).hartsAbsent with acx := Acx.reset }
    | 91 => { s.resetRegs (inBlocks [14]) with jes := Jesd.reset, pcie := Pcie.reset }
    | 92 | 93 | 94 | 95 => s.loseEngine (d - 92)
    | _ => s

/-- Switch domain `d` off (R320). -/
def State.domainOff (s : State) (d : Nat) : State := (s.loseDomain d).setDom d 0

/-- Switch off every domain but 80 (R324, R326, R332). -/
def State.allOff (s : State) : State :=
  let s := ((List.range 96).filter fun d => d ≠ 80).foldl State.domainOff s
  { s with pwr := { s.pwr with ramp := [] } }

end Sys2Proof.Machine
end

