-- ==== Sys2Proof/Machine/Repair.lean ====
section
/-! DEFINITION. The repair unit: the unit map, spares, remaps, rotations, copies, self-test, scrubbing and thresholds (chapter 12, R293 to
R311).  PWR_REP_UMAP names a bank's physical unit within its cluster; here such a unit is numbered 32 × cluster + bank. -/

namespace Sys2Proof.Machine

/-! ## Units and spares (R293 to R295) -/

/-- Replace the repair unit; PWR_REP_STAT.busy follows the moves, copies and requests in progress. -/
def State.withRep (s : State) (f : Repair → Repair) : State :=
  let s := { s with rep := f s.rep }
  let moving (m : RepMove) : Bool := match m.op with
    | .rotate => m.done ≠ 2
    | .microcode | .spareTest => false
    | _ => true
  s.put PWR_REP_STAT.busy (s.rep.moves.any moving).toNat

/-- The number of a physical unit of kind `k` that logical unit `u` can have: a bank's with its cluster. -/
def physKey (k u p : Nat) : Nat := if k = 1 then 32 * (u / 16) + p else p

/-- The physical unit of logical unit `u`. -/
def State.key (s : State) (k u : Nat) : Nat := physKey k u (s.phys k u)

/-- Every physical unit of a kind. -/
def physUnits (k : Nat) : List Nat :=
  if k = 1 then (List.range 8).flatMap fun c => (List.range 17).map fun b => 32 * c + b else List.range (kindUnits k).2

/-- Logical unit `u` of kind `k` exists. -/
def unitExists (k u : Nat) : Bool := u < (kindUnits k).1

/-- Physical units of a kind that the map names. -/
def State.mapped (s : State) (k : Nat) : List Nat :=
  ((List.range (kindUnits k).1).filter fun u => !s.absent k u).map fun u => s.key k u

/-- Physical units of a kind that are neither mapped nor known to have failed: its spares. -/
def State.spares (s : State) (k : Nat) : List Nat :=
  let used := s.mapped k
  (physUnits k).filter fun p => !used.contains p && !s.rep.bad.contains (k, p)

/-- Spares that no remap, copy or handover has taken; one that a rotation waits for, moves to or tests is still a spare (R295). -/
def State.freeSpares (s : State) (k : Nat) : List Nat :=
  (s.spares k).filter fun p => !s.rep.moves.any fun m => m.kind = k && m.spare = p && (m.op = .remap || m.op = .copy || m.op = .firmware)

/-- Spares that no move of any kind concerns. -/
def State.restSpares (s : State) (k : Nat) : List Nat := (s.spares k).filter fun p => !s.rep.moves.any fun m => m.kind = k && m.spare = p

/-- A remap takes spare `p`: a rotation, a reload or a test that concerns it ends undone, a request of that kind with res = 1 (log entry 60). -/
def State.claimSpare (s : State) (k p : Nat) : State :=
  let gone (m : RepMove) : Bool := m.kind = k && m.spare = p && (m.op = .rotate || m.op = .microcode || m.op = .spareTest)
  let hit := s.rep.moves.filter gone
  let s := s.withRep fun r => { r with moves := r.moves.filter fun m => !gone m }
  let s := if hit.any fun m => m.req && m.done ≠ 2 then s.put PWR_REP_STAT.res 1 else s
  if hit.any fun m => m.op = .microcode then s.put PWR_REP_STAT.upd (s.rep.moves.any fun m => m.op = .microcode).toNat else s

/-- Refresh PWR_REP_LEFT of kind `k`: spares remaining, saturated at 15; of regulator phases, the domains that still have theirs. -/
def State.syncLeft (s : State) (k : Nat) : State :=
  let n := if k = 14 then ((List.range 96).filter fun d => s.get (PWR_DOMd.phok d) = s.get (PWR_DOMd.nph d)).length
    else (s.spares k).length
  s.put (PWR_REP_LEFT.left k) (min 15 n)

/-- The cluster of a physical tile: P0 to P63 by eights, then one spare to each cluster. -/
def homeOf (p : Nat) : Nat := if p < 64 then p / 8 else p - 64

/-- L_ring of R124; a cluster's own spare is nearest of all. -/
def ringTime (a b : Nat) : Nat := if a = b then 0 else 14 + 4 * min ((b + 8 - a) % 8) ((a + 8 - b) % 8)

/-- The ring links that lines from cluster `a` to cluster `b` take (R123): ring A or B, and the station each link leaves. -/
def ringLinks (a b : Nat) : List (Bool × Nat) :=
  let d := (b + 8 - a) % 8
  if d ≤ 4 then (List.range d).map fun i => (true, (a + i) % 8) else (List.range (8 - d)).map fun i => (false, (a + 8 - i) % 8)

/-- The links of a borrow of a spare of cluster `b` for a position of cluster `a`, in both directions (R305). -/
def borrowLinks (a b : Nat) : List (Bool × Nat) := ringLinks a b ++ ringLinks b a

/-- The links of every borrow in force or under way beside that of tile `u`. -/
def State.borrowed (s : State) (u : Nat) : List (Bool × Nat) :=
  ((List.range 64).filter fun v => v ≠ u && !s.absent 0 v).flatMap (fun v => borrowLinks (v / 8) (homeOf (s.phys 0 v)))
    ++ (s.rep.moves.filter fun m => m.kind = 0 && m.unit ≠ u && m.op = .remap).flatMap fun m => borrowLinks (m.unit / 8) (homeOf m.spare)

/-- The least element by a key, the first of equals. -/
def leastBy (f : Nat → Nat) : List Nat → Option Nat
  | [] => none
  | x :: xs => match leastBy f xs with
    | some y => if f y < f x then some y else some x
    | none => some x

/-- The spare for logical unit `u` (R293, R305): for a tile the nearest whose borrow shares no link with another, for a bank its own cluster's. -/
def State.chooseSpare (s : State) (k u : Nat) : Option Nat :=
  let free := s.freeSpares k
  match k with
  | 0 =>
    let taken := s.borrowed u
    leastBy (fun p => ringTime (u / 8) (homeOf p) * 8 + homeOf p)
      (free.filter fun p => !(borrowLinks (u / 8) (homeOf p)).any taken.contains)
  | 1 => free.find? fun p => p / 32 = u / 16
  | 14 => none
  | _ => free.head?

/-! ## Records and the map (R294, R303) -/

/-- The unit map takes `p` for logical unit `u`, in one ck. -/
def State.setPhys (s : State) (k u p : Nat) : State := s.put (PWR_REP_UMAP.phys k (u / 4) (u % 4)) p

/-- Add to the OTP repair record, which holds 256 records (R294). -/
def State.recordMove (s : State) (e : RepEntry) : State :=
  if s.rep.record.length ≥ 256 then s else s.withRep fun r => { r with record := r.record ++ [e] }

/-- A physical unit is known to have failed. -/
def State.markBad (s : State) (k p : Nat) : State :=
  if s.rep.bad.contains (k, p) then s else s.withRep fun r => { r with bad := r.bad ++ [(k, p)] }

/-- Apply one entry of the repair record to the map. -/
def State.loadEntry (s : State) (e : RepEntry) : State :=
  let s := s.markBad e.kind e.old
  match e.new with
  | none => s.put (PWR_REP_UMAP.absent e.kind (e.unit / 4) (e.unit % 4)) 1
  | some p =>
    let other := (List.range (kindUnits e.kind).1).find? fun v => v ≠ e.unit && !s.absent e.kind v && s.key e.kind v = p
    let s := s.setPhys e.kind e.unit p
    match other, (s.spares e.kind).find? fun q => e.kind ≠ 1 || q / 32 = e.unit / 16 with
    | some v, some q => s.setPhys e.kind v q
    | _, _ => s

/-- The maps load from the repair record (R294); a logical unit whose fused unit another has taken gets a free one. -/
def State.loadMaps (s : State) : State :=
  let s := { s with rep := { s.rep with bad := [] } }
  let s := (s.rep.record.foldl State.loadEntry s).hartsAbsent
  (List.range 16).foldl State.syncLeft s

/-- A move has completed: done, a record of class 7, the last unit moved; a request ends with res = 0. -/
def State.moveDone (s : State) (k u : Nat) (req : Bool) : State :=
  let s := ((s.repLog 7 k u 0).raise PWR_REP_CAUSE.done).put PWR_REP_STAT.kind k
  ((if req then s.put PWR_REP_STAT.res 0 else s).put PWR_REP_STAT.unit u).syncLeft k

/-- The hard-engine class of a repair kind. -/
def kindCls : Nat → Option Nat
  | 6 => some 0 | 7 => some 2 | 8 => some 3 | 9 => some 4 | 10 => some 5 | _ => none

/-- Replace engine job and queue of a unit of a repair kind, if it is one. -/
def State.withKindUnit (s : State) (k u : Nat) (f : HardUnit → HardUnit) : State :=
  match kindCls k with
  | some c => (s.withUnit c u f).syncUnit c u
  | none => s

/-- Logical unit `u` becomes absent (R295, R306), which sets exhaust, and replan for a tile. -/
def State.makeAbsent (s : State) (k u : Nat) : State :=
  let old := s.key k u
  let s := (s.put (PWR_REP_UMAP.absent k (u / 4) (u % 4)) 1).markBad k old
  let s := (s.recordMove ⟨k, u, old, none⟩).withRep fun r => { r with failed := r.failed.filter fun x => x ≠ (k, u) }
  let s := (s.raise PWR_REP_CAUSE.exhaust).raiseIf (k = 0) PWR_REP_CAUSE.replan
  let s := if k = 0 then s.setDom old 0 else if k = 12 then s.raiseBit ACX_HPARK.absent u else s
  (s.withKindUnit k u fun _ => HardUnit.reset).syncLeft k

/-! ## Remaps (R303 to R308, R311) -/

/-- The domain of the units of a kind that share one (R319). -/
def kindDom : Nat → Nat
  | 4 | 6 => 86 | 5 => 87 | 7 => 88 | 8 | 9 | 10 => 89 | 12 => 90 | _ => 82

/-- A unit of a kind can move: its domain is on (R321). -/
def State.kindReady (s : State) (k : Nat) : Bool := !(4 ≤ k && k ≤ 12) || s.domOn (kindDom k)

/-- The logical units that lie in domain `d` (R319): kind and number. -/
def State.domUnits (s : State) (d : Nat) : List (Nat × Nat) :=
  let all (k : Nat) : List (Nat × Nat) := (List.range (kindUnits k).1).map fun u => (k, u)
  if d < 72 then ((all 0).filter fun x => s.phys 0 x.2 = d)
  else if d < 80 then (all 1).filter fun x => x.2 / 16 = d - 72
  else match d with
    | 80 => all 13
    | 82 => all 2 ++ all 11
    | 83 => all 3
    | 86 => all 4 ++ all 6
    | 87 => all 5
    | 88 => all 7
    | 89 => all 8 ++ all 9 ++ all 10
    | 90 => all 12
    | _ => []

/-- A phase of domain `d` has failed (R311, R322): it is dropped; a second one puts the domain in state 3, and its units count as failed. -/
def State.phaseFault (s : State) (d : Nat) (req : Bool) : State :=
  if !s.domOn d then s
  else
    let ok := s.get (PWR_DOMd.phok d)
    let first := ok ≥ s.get (PWR_DOMd.nph d)
    let s := s.put (PWR_DOMd.phok d) (ok - 1)
    if first then s.moveDone 14 d req
    else
      let us := (s.domUnits d).filter fun x => !s.absent x.1 x.2
      let s := (((s.loseDomain d).setDom d 3).raise PWR_CAUSE.dom_fault).syncLeft 14
      us.foldl (fun s x => s.fail x.1 x.2) s

/-- Bounds in ck of a remap (R303, R307, R311): teardown, power-up and map write of a tile; power-up and map write; 1 ms for a handover. -/
def State.remapTime (s : State) (k : Nat) : Nat :=
  if k = 0 then 24200 + Config.within 4400 s.fresh else if k = 13 then Config.within 2200000 s.fresh else Config.within 24200 s.fresh

/-- Start the move of R293 for a unit that has failed or is asked for. A channel's 67,108,864 lines are copied one in each remote-share slot of
the frames (R308). -/
def State.startMove (s : State) (k u : Nat) (req : Bool) : State :=
  if s.absent k u || s.rep.moves.any (fun m => m.kind = k && m.unit = u && (m.op = .remap || m.op = .copy)) then s
  else if k = 14 then s.phaseFault u req
  else
    let s := (s.silence k u).withRep fun r => { r with moves := r.moves.filter fun m => !(m.kind = k && m.unit = u && m.op = .rotate && m.done ≠ 2) }
    let s := if k = 0 then
        let t := Fin.ofNat 64 u
        match s.ownerOf t with
        | some n => (s.teardown n 3 t).advanceSwitches
        | none => s
      else s
    match s.chooseSpare k u with
    | none => s.makeAbsent k u
    | some p =>
      let s := s.claimSpare k p
      if k = 15 then (((s.setPhys 15 u p).markBad 15 (s.key 15 u)).recordMove ⟨15, u, s.key 15 u, some p⟩).moveDone 15 u req
      else
        let copy := 1 ≤ k && k ≤ 3
        let t := if k = 3 then ceilDiv 67108864 (max 1 (s.mv.mem.slots 2)) * 11264 else if copy then 0 else s.remapTime k
        let m : RepMove := ⟨if copy then .copy else .remap, k, u, p, s.pwr.ck + BitVec.ofNat 64 t, 0, req⟩
        let s : State := { s with fresh := s.fresh + 1 }
        s.withRep fun r => { r with moves := r.moves ++ [m] }

/-- A memory unit fails outright (R308): its spare takes over at once, its lines read as zeros until written, and its data are lost. -/
def State.suddenLoss (s : State) (k u : Nat) : State :=
  let old := s.key k u
  let s := s.withRep fun r => { r with moves := r.moves.filter (fun m => !(m.kind = k && m.unit = u)), failed := r.failed.filter fun x => x ≠ (k, u) }
  let s := (s.eraseMem (inUnit k u)).raise PWR_REP_CAUSE.lost
  match s.chooseSpare k u with
  | none => s.makeAbsent k u
  | some p =>
    let s := s.claimSpare k p
    let s := (s.setPhys k u (if k = 1 then p % 32 else p)).markBad k old
    let s := (s.recordMove ⟨k, u, old, some p⟩).withRep fun r => { r with lost := if r.lost.contains (k, u) then r.lost else r.lost ++ [(k, u)] }
    s.moveDone k u false

/-- REMAP (R303, R307, R308): the repair unit takes up a failed unit: a tile's job is torn down, a spare is chosen and powered, or the unit
becomes absent. `outright` is a memory unit's failure without a copy. A unit whose domain is off waits (R321). -/
def execRemap (k : Fin 16) (u : Fin 256) (outright : Bool) (s : State) : Res := inside 80 0 s fun s =>
  if !unitExists k u || s.absent k u then .next s
  else if outright && 1 ≤ k.val && k.val ≤ 3 then .next (s.suddenLoss k u)
  else if s.rep.failed.contains (k.val, u.val) && s.kindReady k then
    let s := s.startMove k u false
    -- a copy moves a unit that still works: nothing of it is held
    .next (if 1 ≤ k.val && k.val ≤ 3 then s.withRep fun r => { r with failed := r.failed.filter fun x => x ≠ (k.val, u.val) } else s)
  else .next s

/-- What the units of a kind do at the switch to a spare after a failure (R307). A hard-engine job runs again from its descriptor; outputs that it
had written before stand, for the run writes the same bits (R194). -/
def State.afterRemap (s : State) (k u old new : Nat) : Res :=
  match k with
  | 0 =>
    let t := Fin.ofNat 64 u
    .next ((((s.setDom old 0).setDom new 2).eraseMem (inUnit 0 u)).withTile t fun _ => Tile.reset)
  | 4 =>
    let c := Fin.ofNat 64 u
    let tl := s.get (DFE_RXc_CFG.at c)
    let (mu, ecp) := s.numerology tl
    .next (s.withRxc c fun x => { x with zeroTo := some (symbolFrom (s.atNow tl) mu ecp % Config.airWrap) })
  | 5 =>
    let c := Fin.ofNat 64 u
    let tl := s.get (DFE_TXc_CFG.at c)
    let (mu, ecp) := s.numerology tl
    let x := { s.fe.tx[c.val] with zeroTo := some (symbolFrom (s.atNow tl) mu ecp % Config.airWrap) }
    .next { s with fe := { s.fe with tx := s.fe.tx.set c.val x } }
  | 11 =>
    let e := s.engine (Fin.ofNat 8 u)
    let past := match e.group with
      | some g => match g.inst, g.reached with
        | .at t, none => e.active && airLater (s.atNow e.tl) t
        | _, _ => false
      | none => false
    faultIf past .instantPast (.next s)
  | _ =>
    match kindCls k with
    | none => .next s
    | some c =>
      match (s.unit c u).job with
      | none => State.engAccept c u 9 s
      | some j =>
        if c = 3 && j.moved && lHarq j.desc = 2 then
          faultIf (s.recordOff j.desc) .poweredOff <|
            (s.engRecord j.desc (statusByte false true false false j.late false false) 0).engFree c u
        else .next (s.withUnit c u fun x => { x with job := some { j with at_ := s.mono } })

/-- REMAP_DONE (R303, R307, R311): at its instant the map is written, the remap recorded and done set; work in flight resumes on the spare. -/
def execRemapDone (k : Fin 16) (u : Fin 256) (s : State) : Res := inside 80 0 s fun s =>
  match s.rep.moves.find? fun m => m.kind = k.val && m.unit = u.val && (m.op = .remap || m.op = .firmware) with
  | none => .next s
  | some m =>
    if !monoLe m.due s.pwr.ck || !s.kindReady k then .next s
    else
      let old := s.key k u
      let s := (s.setPhys k u m.spare).withRep fun r =>
        { r with moves := r.moves.filter (fun x => x ≠ m), failed := r.failed.filter fun x => x ≠ (k.val, u.val) }
      let s := if m.op = .remap then (s.markBad k old).recordMove ⟨k, u, old, some m.spare⟩ else s
      let s := if k.val = 12 then s.put ACX_HPARK.evict (setBitsOf (s.get ACX_HPARK.evict) u 1 0) else s
      (s.moveDone k u m.req).afterRemap k u old m.spare

/-- COPY_SWITCH (R308): when every line of a bank or channel has been copied, the map switches. -/
def execCopySwitch (k : Fin 16) (u : Fin 256) (s : State) : Res := inside 80 0 s fun s =>
  match s.rep.moves.find? fun m => m.kind = k.val && m.unit = u.val && m.op = .copy with
  | none => .next s
  | some m =>
    if (if k.val = 3 then !monoLe m.due s.pwr.ck else decide (m.done < 16384)) then .next s
    else
      let old := s.key k u
      let s := (s.setPhys k u (if k.val = 1 then m.spare % 32 else m.spare)).withRep fun r => { r with moves := r.moves.filter fun x => x ≠ m }
      let s := { s with flaws := s.flaws.filter fun e => !inUnit k u (8 * e.1) || e.2 = 0 }
      .next (((s.markBad k old).recordMove ⟨k, u, old, some m.spare⟩).moveDone k u m.req)

/-! ## Thresholds and scrubbing (R297, R298) -/

/-- THRESHOLD_WINDOW (R297): the counts of class `k` restart at each multiple of its window of TMB_MONO. -/
def execThresholdWindow (k : Fin 8) (s : State) : Res := inside 80 0 s fun s =>
  let w := s.get (PWR_REP_THRk.ms k) * Config.ckPerMs
  if w = 0 || s.mono.toNat % w ≠ 0 then .next s
  else .next { s with rep := { s.rep with counts := s.rep.counts.filter fun e => e.1 / 4096 ≠ k.val } }

/-- Line `i` of bank `b` as an address: banks 0 to 127 of the cluster memories, then the UE context memory's (R120, R168). -/
def bankLine (b i : Nat) : Nat := (if b < 128 then clusterBase (b / 16) else ueBase) + 64 * (16 * i + b % 16)

/-- SCRUB (R298, R308): the maintenance access of bank `b` at TMB_MONO mod 64 = 63 reads the next line, counts its errors and writes it
back corrected; during a copy it copies the line. -/
def execScrub (b : Fin 144) (s : State) : Res := inside (if b.val < 128 then 72 + b.val / 16 else 82) 1 s fun s =>
  let (k, u) := if b.val < 128 then (1, b.val) else (2, b.val - 128)
  if s.mono.toNat % 64 ≠ 63 || s.absent k u then .next s
  else match s.rep.moves.find? fun m => m.op = .copy && m.kind = k && m.unit = u with
    | some m =>
      if m.done ≥ 16384 then .next s
      else
        .next ((s.checkRead (bankLine b m.done) 64).withRep fun r =>
          { r with moves := r.moves.map fun x => if x = m then { m with done := m.done + 1 } else x })
    | none =>
      let i := num s.rep.scrub b
      let a := bankLine b i
      let s := s.checkRead a 64
      .next { s with flaws := s.flaws.filter (fun e => !(e.2 = 1 && decide (a / 8 ≤ e.1) && decide (e.1 < a / 8 + 8)))
                     rep := { s.rep with scrub := setNum s.rep.scrub b ((i + 1) % 16384) } }

/-! ## Self-test and rotation (R300 to R302) -/

/-- The present self-test period, counted from 1; 0 while PWR_REP_BIST.hours = 0 stops tests and rotations. -/
def State.bistPeriod (s : State) : Nat :=
  let h := s.get PWR_REP_BIST.hours
  if h = 0 then 0 else s.mono.toNat / (h * 3600000 * Config.ckPerMs) + 1

/-- The key of a unit's self-test (`i` 0) or rotation (1), or of a spare's test (2), in `Repair.tested`. -/
def testKey (i k u : Nat) : Nat := 4096 * i + 256 * k + u

/-- A self-test or rotation of a unit, or a spare's test, is due: none was completed in the present period. -/
def State.testDue (s : State) (i k u : Nat) : Bool := s.bistPeriod ≠ 0 && num s.rep.tested (testKey i k u) ≠ s.bistPeriod

/-- The self-test or rotation of a unit, or the test of a spare, of the present period is done. -/
def State.setTested (s : State) (i k u : Nat) : State :=
  { s with rep := { s.rep with tested := setNum s.rep.tested (testKey i k u) s.bistPeriod } }

/-- A segment of the unit has run: the test is done with its last one (R300). -/
def State.segmentRun (s : State) (k u last : Nat) : State :=
  let n := num s.rep.segs (256 * k + u) + 1
  let s := if n ≥ last then s.setTested 0 k u else s
  { s with rep := { s.rep with segs := setNum s.rep.segs (256 * k + u) (if n ≥ last then 0 else n) } }

/-- A segment tests receive chain `u` for 2 µs from now on (R300): the noise-floor meter counts no sample of it. Segments of the frame before are
forgotten. -/
def State.chainTested (s : State) (u : Nat) : State :=
  let c := Fin.ofNat 64 u
  let t := s.atNow (s.get (DFE_RXc_CFG.at c))
  s.withRxc c fun x => { x with tested := (t, airAdd t 984) :: x.tested.filter fun p => decide (airDiff t p.1 < 2 * Config.frameTicks) }

/-- Idle set `set` marks unit `u` of a kind (R41). -/
def State.idleMarks (s : State) (set k u : Nat) : Bool :=
  match k with
  | 4 => (s.get (ORR_IDLEs.rx set)).testBit u
  | 5 => (s.get (ORR_IDLEs.tx set)).testBit u
  | 6 => (s.get (ORR_IDLEs.fft set)).testBit u
  | 7 => (s.get (ORR_IDLEs.eq set)).testBit u
  | _ => false

/-- The idle windows that are open, with the air ticks that remain of each. -/
def State.openWindows (s : State) : List (IdleWin × Nat) :=
  s.orr.idle.filterMap fun w =>
    let d := airDiff (s.atNow w.tl) w.start
    if s.timelineOn w.tl && 0 ≤ d && d < w.len then some (w, w.len - d.toNat) else none

/-- Segments of a unit's test. -/
def segments : Nat → Nat
  | 6 => 4 | 7 => 12 | _ => 6

/-- The unit whose segment runs next: first in order of kind and number among those that an open window of at least 2 µs marks. -/
def State.nextSegment (s : State) : Option (Nat × Nat) :=
  let ws := s.openWindows.filter fun w => w.2 ≥ 984
  [4, 5, 6, 7].findSome? fun k =>
    ((List.range (kindUnits k).1).find? fun u =>
      s.testDue 0 k u && !s.absent k u && !s.unitHeld k u && ws.any fun w => s.idleMarks w.1.set k u).map fun u => (k, u)

/-- A failed test (R300): logged with class 3, det, and the unit counts as failed. -/
def State.testFailed (s : State) (k u : Nat) : State := (s.repLog 3 k u 0).raise PWR_REP_CAUSE.det

/-- SELF_TEST_SEGMENT (R300): with no segment running, the next segment runs for 2 µs; `pass` is its result. Held from shedding level 1 on
(R332). -/
def execSelfTestSegment (pass : Bool) (s : State) : Res := inside 80 0 s fun s =>
  let running := match s.rep.seg with
    | some (_, _, e) => decide ((e - s.pwr.ck).toInt > 0)
    | none => false
  if running || s.shedLevel ≥ 1 then .next s
  else match s.nextSegment with
    | none => .next s
    | some (k, u) =>
      let s := { s with rep := { s.rep with seg := some (k, u, s.pwr.ck + 4400) } }
      let s := (if k = 4 then s.chainTested u else s).segmentRun k u (segments k)
      .next (if pass then s else (s.testFailed k u).fail k u)

/-- Kinds that rotate (R301). -/
def rotates (k : Nat) : Bool := k = 0 || (4 ≤ k && k ≤ 11)

/-- The pool's spare for a rotation: a tile's own cluster's. -/
def State.rotSpare (s : State) (k u : Nat) : Option Nat :=
  (s.restSpares k).find? fun p => k ≠ 0 || homeOf p = u / 8

/-- An enabled class F context holds tile `u`. -/
def State.fixedOn (s : State) (u : Nat) : Bool :=
  (List.finRange 256).any fun n => s.flag (CTX_CTXn.en n) && s.ccls n = 0 && (s.get (CTX_CTXn.tiles n)).testBit u

/-- Now is a symbol boundary of timeline `tl`. -/
def State.atBoundary (s : State) (tl : Nat) : Bool :=
  let (mu, ecp) := s.numerology tl
  s.timelineOn tl && (atDecode (s.atNow tl) mu ecp).tick = 0

/-- The instants at which a unit may rotate (R302). -/
def State.rotAllowed (s : State) (k u : Nat) : Bool :=
  let ws := s.openWindows.filter fun w => s.idleMarks w.1.set k u
  match k with
  | 0 =>
    (s.liveCtx.filter fun n => (s.ctiles n).contains (Fin.ofNat 64 u)).all fun n =>
      !(s.cstate n = 2 || s.cstate n = 5 || s.cstate n = 6 || s.cstate n = 8) && (s.ctx n).startAt.isNone
  | 4 => ws.any fun _ => s.atBoundary (s.get (DFE_RXc_CFG.at u))
  | 5 => ws.any fun _ => s.atBoundary (s.get (DFE_TXc_CFG.at u))
  | 6 => ws.any fun w => s.atBoundary w.1.tl
  | 11 =>
    let e := s.engine (Fin.ofNat 8 u)
    e.active && match e.group with
      | some g => match g.inst, g.reached with
        | .at t, none => airDiff t (s.atNow e.tl) * 6875 ≥ 4096 * 1536
        | _, _ => false
      | none => false
  | _ => match kindCls k with
    | some c => (s.unit c u).job.isNone
    | none => false

/-- ck from the start of a rotation to its switch (R302). -/
def rotTime : Nat → Nat
  | 0 => 34968 | 11 => 2048 | _ => 0

/-- ck of the test of a released unit or a spare: 300 µs for a tile, 50 µs for any other (R301). -/
def testTime (k : Nat) : BitVec 64 := if k = 0 then 660000 else 110000

/-- The switch of a rotation (R301): the spare takes over, the released unit is tested for 300 µs or 50 µs. -/
def State.rotSwitch (s : State) (m : RepMove) : State :=
  let old := s.key m.kind m.unit
  let s := (s.setPhys m.kind m.unit m.spare).withRep fun r => { r with moves := r.moves.filter fun x => x ≠ m }
  let s := (s.setTested 1 m.kind m.unit).moveDone m.kind m.unit m.req
  s.withRep fun r => { r with moves := r.moves ++ [{ m with spare := old, due := s.pwr.ck + testTime m.kind, done := 2 }] }

/-- A rotation starts at an instant that R302 allows: at once for kinds whose state moves in no time. -/
def State.rotStart (s : State) (k u p : Nat) (req : Bool) : State :=
  let m : RepMove := ⟨.rotate, k, u, p, s.pwr.ck + BitVec.ofNat 64 (rotTime k), 1, req⟩
  let s := if k = 0 then s.setDom p 2 else s
  if rotTime k = 0 then s.rotSwitch m else s.withRep fun r => { r with moves := r.moves ++ [m] }

/-- The end of the released unit's test: it is a spare, or it has failed and the new map is recorded (R301). -/
def State.rotEnd (s : State) (m : RepMove) (pass : Bool) : State :=
  let s := s.withRep fun r => { r with moves := r.moves.filter fun x => x ≠ m }
  let s := if m.kind = 0 then s.setDom m.spare 0 else s
  if pass then s
  else (((s.testFailed m.kind m.unit).markBad m.kind m.spare).recordMove ⟨m.kind, m.unit, m.spare, some (s.key m.kind m.unit)⟩).syncLeft m.kind

/-- A spare's periodic test (R301): powered and tested for the time of its kind, it stays a spare, or has failed and is never used again, which the
repair record says beside the present unit of its pool's first logical unit (log entry 60). -/
def State.spareTest (s : State) (k p : Nat) (pass : Bool) : State :=
  let u := if k = 1 then 16 * (p / 32) else 0
  match s.rep.moves.find? fun m => m.op = .spareTest && m.kind = k && m.spare = p with
  | some m =>
    if !monoLe m.due s.pwr.ck then s
    else
      let s := (s.withRep fun r => { r with moves := r.moves.filter fun x => x ≠ m }).setTested 2 k p
      let s := if k = 0 then s.setDom p 0 else s
      if pass then s else (((s.testFailed k p).markBad k p).recordMove ⟨k, u, p, some (s.key k u)⟩).syncLeft k
  | none =>
    if k ≠ 14 && (s.restSpares k).contains p && s.testDue 2 k p && s.kindReady k && s.shedLevel < 1 then
      let s := if k = 0 then s.setDom p 2 else s
      s.withRep fun r => { r with moves := r.moves ++ [⟨.spareTest, k, u, p, s.pwr.ck + testTime k, 0, false⟩] }
    else s

/-- One step of a microcode rotation (R315): the loaded spare takes over the unit, and the released one, loaded in turn, the next of its
pool; upd clears with the last. -/
def State.microSwitch (s : State) (m : RepMove) : State :=
  let old := s.key m.kind m.unit
  let s := (if m.kind = 0 then (s.setDom m.spare 2).setDom old 0 else s).setPhys m.kind m.unit m.spare
  let base := if m.kind = 0 then m.unit / 8 * 8 else 0
  let rest := match (List.range 8).find? fun i => base + i > m.unit && !s.absent m.kind (base + i) with
    | some i => [{ m with unit := base + i, spare := old, done := 0 }]
    | none => []
  let s := s.withRep fun r => { r with moves := r.moves.filter (fun x => x ≠ m) ++ rest }
  s.put PWR_REP_STAT.upd (s.rep.moves.any fun x => x.op = .microcode).toNat

/-- ROTATION (R301, R302, R315): a rotation of a unit starts when it is due or asked for and the instant allows it, switches when its state
has moved, and ends with the result `pass` of the released unit's test. The periodic test of a
spare starts or ends. -/
def execRotation (k : Fin 16) (u : PoolUnit) (pass : Bool) (s : State) : Res := inside 80 0 s fun s =>
  match u with
  | .spare p => .next (s.spareTest k p pass)
  | .logical u => match s.rep.moves.find? fun m => m.kind = k.val && m.unit = u.val && (m.op = .rotate || m.op = .microcode) with
  | some m =>
    let ok := s.rotAllowed k u && s.kindReady k && s.shedLevel < 1
    match m.op, m.done with
    | .rotate, 0 =>
      if ok then
        let s := s.withRep fun r => { r with moves := r.moves.filter fun x => x ≠ m }
        .next (s.rotStart k u m.spare m.req)
      else .next s
    | .rotate, 1 => .next (if monoLe m.due s.pwr.ck then s.rotSwitch m else s)
    | .rotate, _ => .next (if monoLe m.due s.pwr.ck then s.rotEnd m pass else s)
    | _, 0 =>
      if ok then
        let m' : RepMove := { m with due := s.pwr.ck + BitVec.ofNat 64 (rotTime k), done := 1 }
        .next (s.withRep fun r => { r with moves := r.moves.map fun x => if x = m then m' else x })
      else .next s
    | _, _ => .next (if monoLe m.due s.pwr.ck then s.microSwitch m else s)
  | none =>
    if rotates k && unitExists k u && !s.absent k u && !s.unitHeld k u && s.flag PWR_REP_CTL.rot && s.testDue 1 k u && s.shedLevel < 1
        && s.kindReady k && s.rotAllowed k u && !(k.val = 0 && s.fixedOn u) then
      match s.rotSpare k u with
      | some p => .next (s.rotStart k u p false)
      | none => .next s
    else .next s

/-! ## Requests (PWR_REP_REQ) -/

/-- A write of PWR_REP_REQ with go = 1 (chapter 12): the fields are stored; while busy = 1 go is ignored, else `f` acts. -/
def repRequest (op : Nat) (k : Fin 16) (u : Fin 256) (s : State) (f : State → State) : Res := access 80 0 s fun s =>
  let s := ((s.put PWR_REP_REQ.op op).put PWR_REP_REQ.kind k).put PWR_REP_REQ.unit u
  .next (if s.flag PWR_REP_STAT.busy then s else f s)

/-- Refuse a request with res = `r`. -/
def State.repRes (s : State) (r : Nat) : State := s.put PWR_REP_STAT.res r

/-- MOVE_REQUEST (R303, R356): op 0 moves a unit as after a failure; a unit that does not exist or is absent, or a hart that is not parked, is
refused with res = 2; no spare gives res = 1, and makes a parked hart absent. -/
def execMoveRequest (k : Fin 16) (u : Fin 256) (s : State) : Res := repRequest 0 k u s fun s =>
  if !unitExists k u || s.absent k u || (k.val = 12 && !(s.get ACX_HPARK.parked).testBit u) then s.repRes 2
  else if k.val = 14 then s.startMove 14 u true
  else if !s.kindReady k then s.fail k u
  else if (s.chooseSpare k u).isNone then (if k.val = 12 then s.makeAbsent k u else s).repRes 1
  else s.startMove k u true

/-- ROTATE_REQUEST (R301, R302, R332): op 1 rotates a unit at the next instant that allows it, below shedding level 1; a tile of an enabled class F context is handled as a
failure. -/
def execRotateRequest (k : Fin 16) (u : Fin 256) (s : State) : Res := repRequest 1 k u s fun s =>
  if !rotates k || !unitExists k u || s.absent k u || s.unitHeld k u then s.repRes 2
  else if k.val = 0 && s.fixedOn u then s.startMove 0 u true
  else match s.rotSpare k u with
    | none => s.repRes 1
    | some p =>
      if s.rotAllowed k u && s.kindReady k && s.shedLevel < 1 then s.rotStart k u p true
      else s.withRep fun r => { r with moves := r.moves ++ [⟨.rotate, k, u, p, s.pwr.ck, 0, true⟩] }

/-- REPAIR_REQUEST_RESERVED: op 3 sets res = 2. -/
def execRepairRequestReserved (k : Fin 16) (u : Fin 256) (s : State) : Res := repRequest 3 k u s fun s => s.repRes 2

/-- LOCKSTEP_MISMATCH (R311): control is handed to the spare management pair within 1 ms; REMAP_DONE ends the handover. Without a spare the
kind is exhausted. -/
def execLockstepMismatch (s : State) : Res := inside 80 0 s fun s => .next (s.startMove 13 0 false)

/-- PHASE_FAULT (R311, R322): a phase of domain `d` reports a fault. -/
def execPhaseFault (d : Fin 96) (s : State) : Res := inside 80 0 s fun s => .next (s.phaseFault d false)

end Sys2Proof.Machine
end

