-- ==== Sys2Proof/Machine/Power.lean ====
section
/-! DEFINITION. Power and reset: sequencing, domains, inputs, auxiliary outputs, thermal shedding, reset groups and pins (chapter 13, R319 to
R334, R343 to R345; chapter 16, R388, R395, R396). -/

namespace Sys2Proof.Machine

/-- Replace the power manager. -/
def State.withPwr (s : State) (f : Power → Power) : State := { s with pwr := f s.pwr }

/-- An instant at most `bound` ck from now, not otherwise known (R12). -/
def State.soon (s : State) (bound : Nat) : BitVec 64 := s.pwr.ck + BitVec.ofNat 64 (Config.within bound s.fresh)

/-- A free value of the model has been used. -/
def State.spent (s : State) : State := { s with fresh := s.fresh + 1 }

/-- The M880 is a PCIe root port. -/
def State.rootPort (s : State) : Bool := s.flag PCIE_CFG.mode

/-! ## External crossings (R345) -/

/-- Group of a crossing. -/
def Crossing.group : Crossing → Nat
  | .port _ => 4
  | _ => 2

/-- The crossings of a group that carry traffic. -/
def State.crossingsOf (s : State) (g : Nat) : List Crossing :=
  if g = 2 then
    ((List.finRange 8).filter fun (k : Fin 8) => s.flag (JES_RXk_CFG.en k)).map .jesdRx
      ++ ((List.finRange 8).filter fun (k : Fin 8) => s.flag (JES_TXk_CFG.en k)).map .jesdTx
      ++ ((List.finRange 16).filter fun (p : Fin 16) =>
            (List.range 64).any fun c => s.flag (DFE_RXc_CFG.en c) && s.get (DFE_RXc_AGC.gp c) = p.val).map .gain
  else if g = 4 then ((List.finRange 32).filter fun (p : Fin 32) => s.flag (OPT_Pp_CFG.en p)).map .port
  else []

/-- Reset group `g` at its assertion (R343, R345): `both` says that the other side of its external crossings is reset with it. A port whose
crossing had been reset on one side alone shows it at this reset (R270), as does a receive link by its overrun flag (R338); the other crossings have
none. -/
def State.assertGroup (s : State) (both : Bool) (g : Nat) : State :=
  let inUse := s.crossingsOf g
  let old := s.pwr.oneSided.filter fun x => x.group = g
  let s := s.resetGroup g
  let s := old.foldl (fun s x => match x with | .port p => s.raise (OPT_Pp_STAT.ovr p) | .jesdRx k => s.raiseBit JES_CAUSE.rbd_late k | _ => s) s
  let s := s.withPwr fun p =>
    { p with held := p.held ||| BitVec.ofNat 6 (2 ^ g)
             oneSided := if both then p.oneSided.filter fun x => x.group ≠ g
               else p.oneSided ++ inUse.filter fun x => !p.oneSided.contains x }
  if g = 5 && s.rootPort then s.withPwr fun p => { p with perstLow := true } else s

/-- Release group `g` (R343). -/
def State.releaseGroup (s : State) (g : Nat) : State :=
  s.withPwr fun p => { p with held := p.held &&& ~~~BitVec.ofNat 6 (2 ^ g), g5At := if g = 5 then p.ck else p.g5At }

/-- Release G1 to G5. -/
def State.releaseAll (s : State) : State := [1, 2, 3, 4, 5].foldl State.releaseGroup s

/-- The SEC draws a debug challenge (R372). -/
def State.newChallenge (s : State) : State :=
  let (c, s) := s.draw 256
  s.put SEC_DBG_CHAL.chal c.toNat

/-- Every field of G0 takes its Reset value (R6, R343): what is fused or in OTP stays (R294, R346, R365). -/
def State.resetG0 (s : State) : State :=
  let s := s.resetRegs fun a => inBlocks [2, 3, 6] a || (inBlocks [4] a && CAL_U.reg 0 ≤ a)
  let s := s.put SYS_STAT.rstcnt 0
  { s with rep := { Repair.reset with record := s.rep.record }, sec := Security.reset
           pwr := { s.pwr with ramp := [], release := Vector.replicate 6 none, hotSince := none, thmSum := 0, thmN := 0, step := 0 } }

/-- The input at the higher voltage carries the load; within 30 mV both do (R325). -/
def State.shareLoad (s : State) : State :=
  let a := s.get PWR_VIN.va
  let b := s.get PWR_VIN.vb
  (s.put PWR_VIN.a_on (decide (a ≠ 0 ∧ b ≤ a + 30)).toNat).put PWR_VIN.b_on (decide (b ≠ 0 ∧ a ≤ b + 30)).toNat

/-- A reading of input A or B, in mV. -/
def State.readInput (s : State) (b : Bool) (mv : BitVec 16) : State := (s.put (if b then PWR_VIN.vb else PWR_VIN.va) mv.toNat).shareLoad

/-! ## Sequencing (R323, R395) -/

/-- The sequencing step of a domain (R319). -/
def stepOf (d : Nat) : Nat :=
  if d < 72 then 5 else if d < 80 then 3 else
  match d with
  | 80 => 1 | 81 => 2 | 82 | 84 => 3 | 83 | 85 | 90 | 91 => 4 | _ => 5

/-- POWER_UP (R323): PORST_N is high and an input has held VIN_OR at 10.2 V for 1 ms; before sequencing this begins step 1: domain 80 rises,
G0 starts from its Reset values, the fuses and the repair record load, and the PLLs lock. -/
def execPowerUp (va vb : BitVec 16) (s : State) : Res :=
  if s.pwr.step ≠ 0 || (va.toNat < 10200 && vb.toNat < 10200) then .next s
  else
    let s := (s.resetG0.setDom 80 2).loadMaps
    let s := s.withPwr fun p => { p with step := 1, held := 62, standby := true, auxOpen := false, ready := s.soon 4422000 }
    let s := (s.spent.put PWR_VIN.va va.toNat).put PWR_VIN.vb vb.toNat
    let s := (s.put PWR_VIN.a_ok (decide (va.toNat ≥ 10200)).toNat).put PWR_VIN.b_ok (decide (vb.toNat ≥ 10200)).toNat
    .next ((s.shareLoad.setWord CLK_STAT.reg 0x1F).newChallenge)

/-- The domains of a sequencing step, tiles that the map names among them (R319, R323). -/
def State.stepDomains (s : State) (k : Nat) : List (Fin 96) :=
  let tiles := s.mapped 0
  (List.finRange 96).filter fun (d : Fin 96) => decide (stepOf d = k) && (d.val ≥ 72 || tiles.contains d.val)

/-- SEQUENCING_STEP (R323): 100 µs after every domain of a step reports state 2, those of the next one ramp; when those of step 5 do, G1 to G5 are
released, unless RESET_N is low (R396). -/
def execSequencingStep (s : State) : Res :=
  let k := s.pwr.step
  if !s.domOn 80 || k = 0 || k > 5 || !(s.stepDomains k).all (fun d => s.domOn d) then .next s
  else if k = 5 then
    if !monoLe s.pwr.ready s.pwr.ck then .next s
    else
      let s := s.withPwr fun p => { p with step := 6 }
      .next (if s.pwr.resetLow then s else s.releaseAll)
  else if !monoLe (s.pwr.ready + 220000) s.pwr.ck then .next s
  else
    let ds := s.stepDomains (k + 1)
    let t := s.soon 22000
    let s := ds.foldl (fun s (d : Fin 96) => s.setDom d 1) s.spent
    .next (s.withPwr fun p => { p with step := k + 1, ready := t, ramp := p.ramp ++ ds.map fun d => (d, 2, t) })

/-- Every reset group is asserted. -/
def State.assertAll (s : State) (both : Bool) : State := [1, 2, 3, 4, 5].foldl (fun s g => s.assertGroup both g) s

/-- PORST_N_LOW (R324): every domain but 80 is off, every group in reset, and sequencing starts anew once PORST_N rises. -/
def execPorstNLow (both : Bool) (s : State) : Res :=
  let s := (s.assertAll both).allOff.resetG0
  .next (s.withPwr fun p => { p with held := 63 })

/-- RESET_N (R324, R363, R396): a low level resets G1 to G5 and clears MR2, MR3, MR4, MR6, MR7 and the model digests; its release
releases the groups, counts, draws a challenge, and boot resumes at stage 2. While PORST_N holds the M880 it has no effect. -/
def execResetN (low both : Bool) (s : State) : Res :=
  if low then
    let s := s.withPwr fun p => { p with resetLow := true }
    if s.pwr.step = 0 then .next s
    else
      let s := [2, 3, 4, 6, 7].foldl (fun s i => s.put (SEC_MRi.mr i) 0) (s.assertAll both)
      let s := (List.range 16).foldl (fun s k => s.put (SEC_MDk.md k) 0) s
      .next { s with sec := { s.sec with waits := none, md := Vector.replicate 16 0 } }
  else
    let was := s.pwr.resetLow
    let s := s.withPwr fun p => { p with resetLow := false }
    if s.pwr.step = 0 || !was then .next s
    else
      let s := (s.put SYS_STAT.rstcnt (min 255 (s.get SYS_STAT.rstcnt + 1))).newChallenge
      if s.pwr.step ≠ 6 then .next s
      else
        let s := s.releaseAll.withPwr fun p => { p with release := Vector.replicate 6 none }
        let s := s.put PWR_RST.g 0
        .next (if s.sec.loaded.contains 0 then
            { s.put SEC_BOOT_STAT.stage 2 with sec := { s.sec with loaded := [0] } }
          else s)

/-- GROUP_RESET (R343): PWR_RST.gN holds group N = `g` + 1 in reset for 1 µs. -/
def execGroupReset (g : Fin 5) (both : Bool) (s : State) : Res := access 80 0 s fun s =>
  let s := (s.assertGroup both (g + 1)).raiseBit PWR_RST.g g
  .next (s.withPwr fun p => { p with release := p.release.set (g.val + 1) (some (p.ck + 2200)) })

/-- GROUP_RESET_RELEASE (R343): 1 µs after the write the group is released, unless RESET_N or sequencing holds it. -/
def execGroupResetRelease (g : Fin 5) (s : State) : Res := inside 80 0 s fun s =>
  match s.pwr.release[g.val + 1] with
  | none => .next s
  | some t =>
    if !monoLe t s.pwr.ck then .next s
    else
      let s := s.put PWR_RST.g (setBitsOf (s.get PWR_RST.g) g 1 0)
      let s := s.withPwr fun p => { p with release := p.release.set (g.val + 1) none }
      .next (if s.pwr.resetLow || s.pwr.step ≠ 6 then s else s.releaseGroup (g + 1))

/-! ## Domains (R321) -/

/-- Domains that software may switch off (R319). -/
def softwareOff (d : Nat) : Bool := (86 ≤ d && d ≤ 89) || (91 ≤ d && d ≤ 95)

/-- Domain `d` is on its way to state `v`. -/
def State.ramping (s : State) (d : Fin 96) (v : BitVec 2) (t : BitVec 64) : State :=
  s.withPwr fun p => { p with ramp := p.ramp.filter (fun x => x.1 ≠ d) ++ [(d, v, t)] }

/-- A write of PWR_DOMd.on = 1 to a domain that software may switch off: it reports state 2 within 10 µs, its units in reset; without an input that
carries it the domain stays off (R326, log entry 61). -/
def State.domainUp (s : State) (d : Fin 96) : State :=
  let s := s.put (PWR_DOMd.on d) 1
  if s.pwr.step = 7 then s
  else if nthD s.pwr.dom.toList d 0 = 0 then (((s.loseDomain d).setDom d 1).ramping d 2 (s.soon 22000)).spent
  else s.withPwr fun p => { p with ramp := p.ramp.filter fun x => !(x.1 = d && x.2.1 = 0) }

/-- A write of PWR_DOMd.on = 0 to a domain that software may switch off: it reports state 0 within 2 µs. -/
def State.domainDown (s : State) (d : Fin 96) : State :=
  let s := s.put (PWR_DOMd.on d) 0
  if nthD s.pwr.dom.toList d 0 = 0 then s else (s.ramping d 0 (s.soon 4400)).spent

/-- DOMAIN_ON (R321): writes to other domains are ignored. -/
def execDomainOn (d : Fin 96) (s : State) : Res := access 80 0 s fun s => .next (if softwareOff d then s.domainUp d else s)

/-- DOMAIN_OFF (R321). -/
def execDomainOff (d : Fin 96) (s : State) : Res := access 80 0 s fun s => .next (if softwareOff d then s.domainDown d else s)

/-! ## Inputs (R325, R326) -/

/-- VIN_LOST (R325): an input below 10.2 V. -/
def execVinLost (b : Bool) (mv : BitVec 16) (s : State) : Res := inside 80 0 s fun s =>
  if mv.toNat ≥ 10200 then .next s
  else .next (((s.readInput b mv).put (if b then PWR_VIN.b_ok else PWR_VIN.a_ok) 0).raise (if b then PWR_CAUSE.b_lost else PWR_CAUSE.a_lost))

/-- VIN_BACK (R325): an input that has stood at 10.8 V or more for 10 ms. -/
def execVinBack (b : Bool) (mv : BitVec 16) (s : State) : Res := inside 80 0 s fun s =>
  if mv.toNat < 10800 then .next s
  else .next (((s.readInput b mv).put (if b then PWR_VIN.b_ok else PWR_VIN.a_ok) 1).raise (if b then PWR_CAUSE.b_back else PWR_CAUSE.a_back))

/-- RIDE_THROUGH (R326): both inputs are lost, and service goes on. -/
def execRideThrough (s : State) : Res := inside 80 0 s fun s =>
  if s.flag PWR_VIN.a_ok || s.flag PWR_VIN.b_ok then .next s else .next (s.raise PWR_CAUSE.ride)

/-- Every AUX output is opened and every domain but 80 switched off (R326, R332); no domain ramps until sequencing starts anew. -/
def State.powerDown (s : State) : State :=
  let s := (List.range 8).foldl (fun s n => s.put (PWR_AUXn.pout n) 0) s.allOff
  s.withPwr fun p => { p with auxOpen := true, step := if p.step = 0 then 0 else 7 }

/-- VIN_OR_LOW (R326): VIN_OR has fallen below 9.0 V. -/
def execVinOrLow (s : State) : Res := inside 80 0 s fun s => .next s.powerDown

/-- STANDBY_LOSS (R326): VIN_OR has fallen below 7.5 V, and domain 80 with it; then R323 applies as at power-up. Whether the other side of the
external crossings loses its state with it (R345) is a free value (log entry 61). -/
def execStandbyLoss (s : State) : Res :=
  if !s.domOn 80 then .next s
  else
    let (both, s) := s.draw 1
    .next ((((s.assertAll (both = 1)).powerDown.resetG0).setDom 80 0).withPwr fun p => { p with held := 63 })

/-- STANDBY_RAIL_UP (R388): VIN_OR has reached 5.0 V; the M880 drives CONJ low. -/
def execStandbyRailUp (s : State) : Res :=
  if s.pwr.step ≠ 0 then .next s
  else .next ((s.withPwr fun p => { p with standby := true }).withOrr fun o => { o with conjLow := true, conjHigh := false })

/-! ## Auxiliary outputs (R328, R329) -/

/-- vset of an AUX output in 10 mV: values outside 180 to 500 count as the nearer limit. -/
def State.auxVset (s : State) (n : Nat) : Nat := max 180 (min 500 (s.get (PWR_AUXn.vset n)))

/-- ilim of an AUX output in 10 mA, clamped so that vset × ilim does not exceed 15 W. -/
def State.auxIlim (s : State) (n : Nat) : Nat := min (s.get (PWR_AUXn.ilim n)) (150000 / s.auxVset n)

/-- An AUX output delivers. -/
def State.auxOn (s : State) (n : Nat) : Bool := s.flag (PWR_AUXn.en n) && !s.flag (PWR_AUXn.latched n) && !s.pwr.auxOpen

/-- An AUX output latches off. -/
def State.auxLatch (s : State) (n : Nat) : State := ((s.put (PWR_AUXn.latched n) 1).put (PWR_AUXn.pout n) 0).raise PWR_CAUSE.aux

/-- AUX_LATCH_OFF (R328): an output has stood beyond a limit for the limit's time: 0, current `v` mA above ilim for 1 ms; 1, voltage `v` mV
below half of vset for 100 µs; 2, power `v` × 10 mW above 15 W for 10 ms. -/
def execAuxLatchOff (n : Fin 8) (what : Fin 3) (v : BitVec 16) (s : State) : Res := inside 80 0 s fun s =>
  let beyond := match what.val with
    | 0 => decide (v.toNat > 10 * s.auxIlim n)
    | 1 => decide (2 * v.toNat < 10 * s.auxVset n)
    | _ => decide (v.toNat > 1500)
  .next (if s.auxOn n && beyond then s.auxLatch n else s)

/-- AUX_OVERLOAD (R329): for 10 ms the outputs have delivered `p` × 10 mW each; above 60 W together the highest-numbered one that delivers
latches off. -/
def execAuxOverload (p : List (BitVec 16)) (s : State) : Res := inside 80 0 s fun s =>
  let out (n : Nat) : Nat := if s.auxOn n then (nthD p n 0).toNat else 0
  let total := ((List.range 8).map out).sum
  let t := (List.range 8).foldl (fun t n => if s.auxOn n then t.put (PWR_AUXn.pout n) (out n) else t) s
  match (List.range 8).reverse.find? fun n => out n ≠ 0 with
  | some n => .next (if total > 6000 then t.auxLatch n else t)
  | none => .next t

/-! ## Temperature (R331 to R334) -/

/-- T_max of the ordering code, in °C (R1). -/
def State.tmaxLimit (s : State) : Int := if s.get SYS_ID.grade = 0 then 110 else 105

/-- The threshold of level 1 or 2 in 0.0625 °C. -/
def State.levelAt (s : State) (k : Nat) : Int :=
  if k = 1 then 16 * min (s.get PWR_THM_CFG.t1 : Int) (s.tmaxLimit - 5) else 16 * min (s.get PWR_THM_CFG.t2 : Int) s.tmaxLimit

/-- The level after a reading (R333): a level holds until tmax is 3 °C below its threshold; level 3 is entered by LEVEL_3_SHUTDOWN alone. -/
def State.levelOf (s : State) (t : Int) (was : Nat) : Nat :=
  if was = 3 && 16 * (s.tmaxLimit + 10) - 48 < t then 3
  else
  let holds (k : Nat) : Bool := s.levelAt k ≤ t || (was ≥ k && s.levelAt k - 48 < t)
  if holds 2 then 2 else if holds 1 then 1 else 0

/-- The junction estimate of a sensor's region (R331), in 0.0625 °C: reading, correction, and θ_r × P_r with P_r in 0.1 W. -/
def State.junction (s : State) (i : Nat) (raw : BitVec 16) (power : Nat) : Int :=
  sat (rne ((raw.toInt + s.cal (96 + i) : Int) + Config.thetaR i * 16 * power / 10)) (-32768) 32767

/-- Level 1 is entered (R332): running class B contexts are stopped at their yield points. -/
def State.shedB (s : State) : State :=
  (s.liveCtx.filter fun n => s.ccls n = 2 && s.cstate n = 5).foldl (fun s n => s.orderStop n false false) s

/-- TEMPERATURE_READING (R331 to R334): the readings and region powers of the 32 sensors give tmax, its sensor and the shedding level; once a
second the mean follows. The current monitors are read with them: `iout` of the 96 domains and the input power `pin` (log entry 61). -/
def execTemperatureReading (raw : List (BitVec 16)) (power : PowerReading) (s : State) : Res := inside 80 0 s fun s =>
  let s := ((List.range 96).foldl (fun s d => s.put (PWR_DOMd.iout d) (nthD power.iout d 0).toNat) s).put PWR_VIN.pin power.pin.toNat
  let est := (List.range 32).map fun i => s.junction i (nthD raw i 0) (nthD power.region i 0).toNat
  let t := est.foldl max (-32768)
  let hot := (est.findIdx? fun x => x = t).getD 0
  let was := s.get PWR_THM_STAT.level
  let now := s.levelOf t was
  let before := s.shedLevel
  let s := ((s.put PWR_THM_STAT.tmax (uCast 16 t)).put PWR_THM_STAT.hot hot).put PWR_THM_STAT.level now
  let s := (s.raiseIf (now = 1 && was < 1) PWR_CAUSE.thm1).raiseIf (now = 2 && was < 2) PWR_CAUSE.thm2
  let s := s.withPwr fun p => { p with hotSince := if t ≥ 16 * (s.tmaxLimit + 10) then some (p.hotSince.getD p.ck) else none }
  let s := if s.pwr.thmN + 1 < 10000 then s.withPwr fun p => { p with thmN := p.thmN + 1 }
    else
      let s := s.withPwr fun p => { p with thmN := 0, thmSum := p.thmSum + t }
      let n := s.get PWR_THM_AVG.sec + 1
      (s.put PWR_THM_AVG.sec n).put PWR_THM_AVG.avg (uCast 16 (rne ((s.pwr.thmSum : Rat) / n)))
  .next (if before = 0 && s.shedLevel ≥ 1 then s.shedB else s)

/-- A write of PWR_THM_CFG.shed (R332): set at level 1 or more it makes the level act. -/
def State.setShed (s : State) (v : Nat) : State :=
  let before := s.shedLevel
  let s := s.put PWR_THM_CFG.shed v
  if before = 0 && s.shedLevel ≥ 1 then s.shedB else s

/-- LEVEL_3_SHUTDOWN (R332): tmax has stood at T_max + 10 °C for 1 ms. -/
def execLevel3Shutdown (s : State) : Res := inside 80 0 s fun s =>
  match s.pwr.hotSince with
  | none => .next s
  | some m =>
    if (s.pwr.ck - m).toNat < Config.ckPerMs then .next s
    else .next ((s.powerDown.raise PWR_CAUSE.thm3).put PWR_THM_STAT.level 3)

/-! ## PCIe reset pin (R396) -/

/-- PCIE_PERST_N_INPUT (R396): as an endpoint the pin is an input; its level resets only the link and configuration space of the PCIe port,
whose bytes that the host has written are gone. -/
def execPciePerstNInput (low : Bool) (s : State) : Res :=
  if s.rootPort then .next s
  else
    let s := s.withPwr fun p => { p with perstLow := low }
    .next (if low then { s with pcie := { s.pcie with late := [], cfg := [] } } else s)

/-- PCIE_PERST_N_RELEASE (R396): as a root port the M880 releases the pin 100 ms after the release of G5. -/
def execPciePerstNRelease (s : State) : Res :=
  if s.rootPort && !s.held 5 && s.pwr.step = 6 && monoLe (s.pwr.g5At + 220000000) s.pwr.ck then
    .next (s.withPwr fun p => { p with perstLow := false })
  else .next s

/-! ## What every ck does -/

/-- One ck of the power manager: domains arrive at their states (R321). -/
def State.pwrTick (s : State) : State :=
  let s := s.withPwr fun p => { p with ck := p.ck + 1 }
  let (due, rest) := s.pwr.ramp.partition fun x => monoLe x.2.2 s.pwr.ck
  let s := s.withPwr fun p => { p with ramp := rest }
  due.foldl (fun s x => if x.2.1 = 0 then s.domainOff x.1 else s.setDom x.1 x.2.1) s

end Sys2Proof.Machine
end

