-- ==== Sys2Proof/Machine/Clocks.lean ====
section
/-! DEFINITION. Clocks, calibration and GPIO (chapter 13, R337, R346, R347; chapter 15, R385). -/

namespace Sys2Proof.Machine

/-- The CLK_STAT bit of a PLL: MPLL, APLL, LPLL. -/
def pllBit (p : Fin 3) : Fld := if p.val = 0 then CLK_STAT.mpll else if p.val = 1 then CLK_STAT.apll else CLK_STAT.lpll

/-- REFERENCE_LOST (R337): CLK_IN has been absent for 1 µs; the PLLs hold their control words. -/
def execReferenceLost (s : State) : Res :=
  if s.domOn 80 then .next ((s.put CLK_STAT.ref_ok 0).raise CLK_XCAUSE.ref_lost) else .next s

/-- REFERENCE_RESTORED (R337): CLK_IN is back, and the PLLs follow it again. -/
def execReferenceRestored (s : State) : Res := if s.domOn 80 then .next (s.put CLK_STAT.ref_ok 1) else .next s

/-- LOCK_LOST (R337): a PLL loses lock, which is a cause while CLK_IN is present; its outputs are undriven, and without FCK the SDCO stops (R335). -/
def execLockLost (p : Fin 3) (s : State) : Res :=
  if s.domOn 80 then
    let s := (s.raiseIf (s.flag CLK_STAT.ref_ok) CLK_XCAUSE.lock_lost).put (pllBit p) 0
    .next (if p = 0 then s.put CLK_STAT.sdco 0 else s)
  else .next s

/-- PLL_RELOCK (R337): the PLL locks and drives its outputs again. -/
def execPllRelock (p : Fin 3) (s : State) : Res :=
  if s.domOn 80 then
    let s := s.put (pllBit p) 1
    .next (if p = 0 then s.put CLK_STAT.sdco 1 else s)
  else .next s

/-! ## Calibration (R346, R347) -/

/-- The limits lo and hi of E for item `i` (R347). -/
def calLimits (i : Nat) : Int × Int :=
  if i < 96 then (-40, 40)
  else if i < 128 then (-256, 256)
  else if i < 160 then (-200, 200)
  else if i < 192 then (-512, 511)
  else if i < 224 then (0, 31)
  else if i < 328 then (0, 15)
  else if i = 328 then (-250000, 250000)
  else if i < 333 then (0, 63)
  else (-8388608, 8388607)

/-- Store U of item `i` and refresh E = sat(F + U, lo, hi). -/
def State.calWrite (s : State) (i v : Nat) : State :=
  let s := s.put (CAL_U.val i) v
  let (lo, hi) := calLimits i
  s.put (CAL_E.val i) (uCast 24 (sat (s.getS (CAL_F.val i) + s.getS (CAL_U.val i)) lo hi))

/-- CAL_U_WRITE (R346): a write of CAL_U_; bits [31:24] are reserved. -/
def execCalUWrite (i : Fin 416) (v : BitVec 32) (s : State) : Res := access 80 0 s fun s =>
  faultIf (v.toNat ≥ 2 ^ 24) .reservedBit (.next (s.calWrite i v.toNat))

/-! ## GPIO (R385) -/

/-- The handshake of pin `n` is busy (R339, R340): within a bound of 6 ns = 14 ck of its last carried edge. -/
def State.gpioBusy (s : State) (n : Fin 64) : Bool :=
  match s.pins.gpio.find? fun x => x.1 = n with
  | some (_, m) => decide (s.since m < Config.within 14 m.toNat)
  | none => false

/-- GPIO_EDGE (R385): the pin takes its new level; an edge that SYS_GPIO_EVCFG selects is carried into FCK unless its crossing is busy, sets
its SYS_GPIO_EVT bit and writes SYS_GPIO_TS, of several in one ck the lowest-numbered. -/
def execGpioEdge (n : Fin 64) (rise : Bool) (sec : BitVec 48) (qns : Fin 4000000000) (s : State) : Res :=
  inside 82 1 s fun s =>
    if !s.domOn 81 then .next s
    else
      let s := s.put SYS_GPIO_IN.pin (setBitsOf (s.get SYS_GPIO_IN.pin) n 1 rise.toNat)
      let e := s.get (SYS_GPIO_EVCFG.edge n)
      if !(if rise then e % 2 = 1 else e ≥ 2) then .next s
      else if s.gpioBusy n then .next (s.raise CLK_XCAUSE.gpio_ovr)
      else
        let held := s.pins.stamp = some s.mono && s.get SYS_GPIO_TS.pin < n.val
        let s := s.raiseBit SYS_GPIO_EVT.pin n
        let s := { s with pins := { gpio := s.pins.gpio.filter (fun x => x.1 ≠ n) ++ [(n, s.mono)], stamp := some s.mono } }
        .next (if held then s
          else (((s.put SYS_GPIO_TS.pin n).put SYS_GPIO_TS.sec sec.toNat).put SYS_GPIO_TS.ns (qns.val / 4)).put SYS_GPIO_TS.qns (qns.val % 4))

end Sys2Proof.Machine
end

