-- ==== Sys2Proof/Machine/Crypto.lean ====
section
/-! DEFINITION. SHA-512 (FIPS 180-4) and the verification of ECDSA signatures on P-521 (FIPS 186-5), which R357 and R358 name (log entry 27). -/

namespace Sys2Proof.Machine

/-! ## SHA-512 -/

/-- The first 80 primes. -/
def primes80 : List Nat :=
  [2, 3, 5, 7, 11, 13, 17, 19, 23, 29, 31, 37, 41, 43, 47, 53, 59, 61, 67, 71, 73, 79, 83, 89, 97, 101, 103, 107, 109, 113]
  ++ [127, 131, 137, 139, 149, 151, 157, 163, 167, 173, 179, 181, 191, 193, 197, 199, 211, 223, 227, 229, 233, 239, 241, 251, 257]
  ++ [263, 269, 271, 277, 281, 283, 293, 307, 311, 313, 317, 331, 337, 347, 349, 353, 359, 367, 373, 379, 383, 389, 397, 401, 409]

/-- Round constants: the first 64 fraction bits of the cube roots of the primes. -/
def shaK : List (BitVec 64) := primes80.map fun p => BitVec.ofNat 64 (kRoot 3 (p * 2 ^ 192) 68 0)

/-- Initial hash value: the first 64 fraction bits of the square roots of the first 8 primes. -/
def shaInit : List (BitVec 64) := (primes80.take 8).map fun p => BitVec.ofNat 64 (kRoot 2 (p * 2 ^ 128) 68 0)

/-- The message schedule, newest word first, `n` words beyond the 16 given. -/
def shaSchedule : Nat → List (BitVec 64) → List (BitVec 64)
  | 0, w => w
  | n + 1, w =>
    let x := nthD w 1 0
    let y := nthD w 14 0
    let s1 := x.rotateRight 19 ^^^ x.rotateRight 61 ^^^ (x >>> 6)
    let s0 := y.rotateRight 1 ^^^ y.rotateRight 8 ^^^ (y >>> 7)
    shaSchedule n ((s1 + nthD w 6 0 + s0 + nthD w 15 0) :: w)

/-- One round over the working variables a to h. -/
def shaRound (v : List (BitVec 64)) (kw : BitVec 64) : List (BitVec 64) :=
  match v with
  | [a, b, c, d, e, f, g, h] =>
    let t1 := h + (e.rotateRight 14 ^^^ e.rotateRight 18 ^^^ e.rotateRight 41) + ((e &&& f) ^^^ (~~~e &&& g)) + kw
    let t2 := (a.rotateRight 28 ^^^ a.rotateRight 34 ^^^ a.rotateRight 39) + ((a &&& b) ^^^ (a &&& c) ^^^ (b &&& c))
    [t1 + t2, a, b, c, d + t1, e, f, g]
  | _ => v

/-- Compress one block of 16 words. -/
def shaBlock (h : List (BitVec 64)) (ws : List (BitVec 64)) : List (BitVec 64) :=
  let w := (shaSchedule 64 ws.reverse).reverse
  let v := (List.zipWith (· + ·) shaK w).foldl shaRound h
  List.zipWith (· + ·) h v

/-- Hash `n` blocks. -/
def shaBlocks : Nat → List (BitVec 64) → List (BitVec 8) → List (BitVec 64)
  | 0, h, _ => h
  | n + 1, h, m =>
    shaBlocks n (shaBlock h ((List.range 16).map fun i => BitVec.ofNat 64 (natOfBytesBE ((m.drop (8 * i)).take 8)))) (m.drop 128)

/-- SHA-512 of a message: 64 bytes. -/
def sha512 (m : List (BitVec 8)) : List (BitVec 8) :=
  let n := m.length
  let pad := (128 - (n + 17) % 128) % 128
  let x := m ++ [0x80] ++ List.replicate pad 0 ++ bytesBE 16 (8 * n)
  (shaBlocks (x.length / 128) shaInit x).flatMap fun w => bytesBE 8 w.toNat

/-! ## P-521 -/

def ecPrime : Nat := 2 ^ 521 - 1
def ecOrder : Nat := (2 ^ 261 - 1) * 2 ^ 260 + 0xA51868783BF2F966B7FCC0148F709A5D03BB5C9B8899C47AEBB6FB71E91386409
def ecB : Nat :=
  0x51953eb9618e1c9a1f929a21a0b68540eea2da725b99b315f3b8b489918ef109e156193951ec7e937b1652c0bd3bb1bf073573df883d2c34f1ef451fd46b503f00
def ecGx : Nat :=
  0xc6858e06b70404e9cd9e3ecb662395b4429c648139053fb521f828af606b4d3dbaa14b5e77efe75928fe1dc127a2ffa8de3348b3c1856a429bf97e7e31c2e5bd66
def ecGy : Nat :=
  0x11839296a789a3bc0045c8a5fb42c7d1bd998f54449579b446817afbd17273e662c97ee72995ef42640c550b9013fad0761353c7086a272c24088be94769fd16650

/-- Subtraction modulo the prime. -/
def ecSub (a b : Nat) : Nat := (a + ecPrime - b % ecPrime) % ecPrime

/-- A point in Jacobian coordinates (x/z², y/z³); z = 0 is the point at infinity. -/
structure JPoint where
  x : Nat
  y : Nat
  z : Nat
  deriving DecidableEq, Repr

/-- Twice a point of y² = x³ − 3x + b. -/
def JPoint.double (a : JPoint) : JPoint :=
  let zz := a.z * a.z % ecPrime
  let yy := a.y * a.y % ecPrime
  let m := 3 * (ecSub a.x zz * (a.x + zz) % ecPrime) % ecPrime
  let s := 4 * a.x * yy % ecPrime
  let x := ecSub (m * m % ecPrime) (2 * s)
  { x := x, y := ecSub (m * ecSub s x % ecPrime) (8 * (yy * yy % ecPrime)), z := 2 * a.y * a.z % ecPrime }

/-- The sum of two points. -/
def JPoint.add (a b : JPoint) : JPoint :=
  if a.z = 0 then b else if b.z = 0 then a
  else
    let za := a.z * a.z % ecPrime
    let zb := b.z * b.z % ecPrime
    let u1 := a.x * zb % ecPrime
    let u2 := b.x * za % ecPrime
    let s1 := a.y * zb * b.z % ecPrime
    let s2 := b.y * za * a.z % ecPrime
    if u1 = u2 then (if s1 = s2 then a.double else ⟨1, 1, 0⟩)
    else
      let h := ecSub u2 u1
      let r := ecSub s2 s1
      let hh := h * h % ecPrime
      let hhh := h * hh % ecPrime
      let v := u1 * hh % ecPrime
      let x := ecSub (ecSub (r * r % ecPrime) hhh) (2 * v)
      { x := x, y := ecSub (r * ecSub v x % ecPrime) (s1 * hhh % ecPrime), z := h * a.z % ecPrime * b.z % ecPrime }

/-- The multiple of a point by the low `n` bits of `k`. -/
def JPoint.mul (a : JPoint) (k : Nat) : Nat → JPoint
  | 0 => ⟨1, 1, 0⟩
  | n + 1 =>
    let q := (JPoint.mul a (k / 2) n).double
    if k % 2 = 1 then q.add a else q

/-- b^e modulo m over the low `n` bits of e. -/
def powMod (b m : Nat) : Nat → Nat → Nat
  | 0, _ => 1 % m
  | n + 1, e =>
    let r := powMod (b * b % m) m n (e / 2)
    if e % 2 = 1 then r * b % m else r

/-- The inverse of a number modulo a prime. -/
def invMod (a m : Nat) : Nat := powMod (a % m) m 521 (m - 2)

/-- The point (x, y) lies on the curve. -/
def onCurve (x y : Nat) : Bool := x < ecPrime && y < ecPrime && y * y % ecPrime = (x * x * x + ecB + 3 * (ecPrime - x)) % ecPrime

/-- Signature (r, s) of a 64-byte digest under the public key (x, y) is valid. -/
def ecdsaValid (x y r s : Nat) (digest : List (BitVec 8)) : Bool :=
  if !onCurve x y || r = 0 || r ≥ ecOrder || s = 0 || s ≥ ecOrder then false
  else
    let w := invMod s ecOrder
    let e := natOfBytesBE digest
    let q := (JPoint.mul ⟨ecGx, ecGy, 1⟩ (e * w % ecOrder) 521).add (JPoint.mul ⟨x, y, 1⟩ (r * w % ecOrder) 521)
    if q.z = 0 then false
    else
      let zi := invMod q.z ecPrime
      q.x * (zi * zi % ecPrime) % ecPrime % ecOrder = r

end Sys2Proof.Machine
end

