-- ==== Sys2Proof/Machine/Boot.lean ====
section
/-! DEFINITION. Application cores, boot, signed blocks, keys, measurements, quotes and debug unlock (chapter 14, R355 to R372), and the
in-service updates of chapter 12 that load images (R312, R315). -/

namespace Sys2Proof.Machine

/-- Replace the security state. -/
def State.withSec (s : State) (f : Security → Security) : State := { s with sec := f s.sec }

/-- The SEC, management cores and boot ROM reached from outside: domain 80, group G0; the memories that they read lie in G1 (R344). -/
def secure (s : State) (f : State → Res) : Res := access 80 0 s fun s => reached 6 s f

/-! ## Signed blocks (R357 to R359) -/

/-- The little-endian number of `n` bytes at byte `o`. -/
def field (b : List (BitVec 8)) (o n : Nat) : Nat := natOfBytes ((b.drop o).take n)

/-- Bytes `o` to `o + n − 1`. -/
def part (b : List (BitVec 8)) (o n : Nat) : List (BitVec 8) := (b.drop o).take n

/-- The kinds of signed block. -/
inductive BlockKind where
  | image
  | command
  | token
  deriving DecidableEq, Repr

/-- The magic of a kind: "MIMG", "MKEY", "MDBG". -/
def BlockKind.magic : BlockKind → List (BitVec 8)
  | .image => [0x4D, 0x49, 0x4D, 0x47]
  | .command => [0x4D, 0x4B, 0x45, 0x59]
  | .token => [0x4D, 0x44, 0x42, 0x47]

/-- An RSV field of a block is non-zero, or its type or op is none of the table's. -/
def blockRsv (k : BlockKind) (b : List (BitVec 8)) : Bool :=
  bitsOf (field b 7 1) 2 5 ≠ 0 || field b 229 3 ≠ 0 || match k with
    | .image => field b 6 1 > 3
    | .command => field b 6 1 > 3 || field b 26 2 ≠ 0
    | .token => field b 6 1 ≠ 0 || field b 64 32 ≠ 0

/-- The signer is an owner slot, and its index. -/
def signerOwner (b : List (BitVec 8)) : Bool := (field b 7 1).testBit 7
def signerSlot (b : List (BitVec 8)) : Nat := field b 7 1 % 4

/-- Owner mode (R359). -/
def State.ownerMode (s : State) : Bool := s.flag FUSE_KSTAT.owner

/-- A slot is programmed and not revoked. -/
def State.slotGood (s : State) (owner : Bool) (i : Nat) : Bool :=
  if owner then (s.get FUSE_KSTAT.oprog).testBit i && !(s.get FUSE_KSTAT.orev).testBit i
  else (s.get FUSE_KSTAT.vprog).testBit i && !(s.get FUSE_KSTAT.vrev).testBit i

/-- The signers of an image type are owner slots (R359). -/
def State.ownerSigns (s : State) (t : Nat) : Bool := t = 1 && s.ownerMode

/-- The signer is allowed for the kind (R359). -/
def State.signerAllowed (s : State) (k : BlockKind) (b : List (BitVec 8)) : Bool :=
  let o := signerOwner b
  match k with
  | .image => o == s.ownerSigns (field b 6 1)
  | .token => true
  | .command => match field b 6 1 with
    | 0 => o == s.ownerMode
    | 1 => !o && signerSlot b ≠ field b 24 1
    | 2 => o && signerSlot b ≠ field b 24 1
    | _ => o == s.ownerSigns (field b 25 1)

/-- The 64 digest bytes of a key slot. -/
def State.slotDigest (s : State) (owner : Bool) (i : Nat) : List (BitVec 8) :=
  bytesOf 64 (s.get (if owner then FUSE_OKEYi.digest i else FUSE_VKEYi.digest i))

/-- The signature over SHA-512 of bytes 0 to 231 is valid under the block's public key. -/
def blockSigned (b : List (BitVec 8)) : Bool :=
  field b 96 1 = 4 && ecdsaValid (natOfBytesBE (part b 97 66)) (natOfBytesBE (part b 163 66)) (natOfBytesBE (part b 232 66))
    (natOfBytesBE (part b 298 66)) (sha512 (b.take 232))

/-- The length limit of an image type (R358). -/
def imageLimit : Nat → Nat
  | 0 => 0x100000 | 1 => 0x1000000 | _ => 0x40000

/-- Checks 1 to 5 of R358: the code of the first that fails, or 0. -/
def State.checkBlock (s : State) (k : BlockKind) (b : List (BitVec 8)) : Nat :=
  if b.take 4 ≠ k.magic || field b 4 2 ≠ 1 || blockRsv k b then 1
  else if !s.slotGood (signerOwner b) (signerSlot b) || !s.signerAllowed k b then 2
  else if sha512 (part b 96 133) ≠ s.slotDigest (signerOwner b) (signerSlot b) then 3
  else if !blockSigned b then 4
  else
    let t := field b 6 1
    let bad := match k with
      | .image => decide (field b 8 4 < s.get (FUSE_SVNt.svn t)) || decide (field b 12 4 > imageLimit t)
      | _ => decide (field b 8 16 ≠ s.get FUSE_UID.uid)
    if bad then 5 else 0

/-- Every check of R358 on an image, its header padded to 512 bytes before the payload, loaded as type `t`; an ACB must also lie where R360
allows. -/
def State.checkImage (s : State) (t : Nat) (img : List (BitVec 8)) : Nat :=
  let c := s.checkBlock .image (img.take 364)
  if c ≠ 0 then c
  else if field img 6 1 ≠ t then 1
  else if t = 1 && field img 16 8 > 0x03FFFFFF then 5
  else if sha512 (part img 512 (field img 12 4)) ≠ part img 32 64 then 6
  else 0

/-! ## Measurements (R366) -/

/-- Extend MRi by 64 bytes. -/
def State.extend (s : State) (i : Nat) (d : List (BitVec 8)) : State :=
  s.put (SEC_MRi.mr i) (natOfBytes (sha512 (bytesOf 64 (s.get (SEC_MRi.mr i)) ++ d)))

/-- The measurement register of an image type (R360). -/
def imageMr : Nat → Nat
  | 0 => 1 | 1 => 2 | 2 => 3 | _ => 4

/-- Extend the measurement register of type `t` by an image. -/
def State.measure (s : State) (t : Nat) (img : List (BitVec 8)) : State :=
  s.extend (imageMr t) (bytesOf 64 (Config.imageMeasure img).toNat)

/-! ## Harts that stop and start (R356) -/

/-- Park hart `h`: it has stopped, and the lines of its L2 that LPDDR6 lacks are in the L3. -/
def State.park (s : State) (h : Fin 8) : State := ((s.emptyCaches h).raiseBit ACX_HPARK.park h).raiseBit ACX_HPARK.parked h

/-- Restart hart `h` as from reset, at ACX_HENTRY; a hart that runs goes on, and an absent one does not start. -/
def State.unpark (s : State) (h : Fin 8) : State :=
  if (s.get ACX_HPARK.absent).testBit h || !(s.get ACX_HPARK.park).testBit h then s
  else
    let s := s.withHart h fun _ => { Hart.reset with pc := BitVec.ofNat 64 (4 * s.get ACX_HENTRY.addr) }
    (s.put ACX_HPARK.park (setBitsOf (s.get ACX_HPARK.park) h 1 0)).put ACX_HPARK.parked (setBitsOf (s.get ACX_HPARK.parked) h 1 0)

/-! ## Boot (R360 to R363) -/

/-- The stage that loads an image type (R360). -/
def typeStage : Nat → Nat
  | 0 => 1 | 1 => 3 | _ => 2

/-- The images that boot still has to install, in its order. -/
def State.toLoad (s : State) : List Nat := [0, 2, 3, 1].filter fun t => !s.sec.loaded.contains t

/-- Install a checked image: ACB goes to its load address, gives ACX_HENTRY, and hart 0 starts. -/
def State.install (s : State) (t : Nat) (img : List (BitVec 8)) : State :=
  let s := (s.measure t img).withSec fun x => { x with loaded := x.loaded ++ [t] }
  let s := ((s.put SEC_BOOT_STAT.type t).put SEC_BOOT_STAT.code 0).put SEC_BOOT_STAT.stage (typeStage t)
  if t = 1 then
    let s := s.setBytes (field img 16 8) (part img 512 (field img 12 4))
    (s.setWords ACX_HENTRY.reg 2 (field img 24 8 / 4 % 2 ^ 38 * 4)).unpark 0
  else s

/-- The ROM waits for the host to load an image (R361): BAR2 of 64 MiB onto 0x0400_0000. -/
def State.awaitHost (s : State) : State :=
  ((s.put PCIE_CFG.base 64).put PCIE_CFG.size 26).withSec fun x => { x with waits := some s.pwr.ck }

/-- An image of type `t` failed with `code` wherever it was tried from (R361): host load where it is allowed and not yet in use, else boot
halts at stage 15. -/
def State.bootFail (s : State) (t code : Nat) : State :=
  let s := (s.put SEC_BOOT_STAT.type t).put SEC_BOOT_STAT.code code
  if s.flag FUSE_KSTAT.rec && !s.rootPort && !s.flag SEC_BOOT_STAT.rec then (s.put SEC_BOOT_STAT.rec 1).awaitHost
  else (s.put SEC_BOOT_STAT.stage 15).withSec fun x => { x with waits := none }

/-- The image that the flash directory names for type `t` of set A or B (R361). -/
def flashImage (flash : List (BitVec 8)) (t : Nat) (setB : Bool) : List (BitVec 8) :=
  flash.drop (field flash ((if setB then 24 else 8) + 4 * t) 4)

/-- Load the remaining types from flash, in order, until one fails. -/
def State.bootFlash (flash : List (BitVec 8)) : List Nat → State → State
  | [], s => s
  | t :: ts, s =>
    let a := flashImage flash t false
    let b := flashImage flash t true
    if s.checkImage t a = 0 then State.bootFlash flash ts (s.install t a)
    else if s.checkImage t b = 0 then State.bootFlash flash ts ((s.put SEC_BOOT_STAT.setb 1).install t b)
    else s.bootFail t (s.checkImage t b)

/-- The boot ROM copy that runs (R311, R360): the mapped one, or the other when its digest alone matches. -/
def State.pickRom (s : State) (ok0 ok1 : Bool) : Option State :=
  let now := s.phys 15 0
  let good (p : Nat) : Bool := if p = 0 then ok0 else ok1
  if good now then some s
  else if good (1 - now) then
    let s := s.markBad 15 now
    some (((s.setPhys 15 0 (1 - now)).recordMove ⟨15, 0, now, some (1 - now)⟩).moveDone 15 0 false)
  else none

/-- The images come from the source of R361: flash, whose answer is `flash` (none within 100 ms when empty), or the host. -/
def State.bootLoad (s : State) (flash : List (BitVec 8)) : State :=
  let src := s.get FUSE_KSTAT.src
  let s := s.put SEC_BOOT_STAT.src src
  if (src = 1 && !s.rootPort) || s.flag SEC_BOOT_STAT.rec then s.awaitHost
  else if src ≠ 0 || flash.isEmpty then s.bootFail (s.toLoad.headD 0) 7
  else State.bootFlash flash s.toLoad s

/-- BOOT (R360, R361, R363): once the groups are released, boot runs from its present stage with the flash contents `flash`; `ok0` and `ok1` say
which ROM copies match the fused digest. -/
def execBoot (flash : List (BitVec 8)) (ok0 ok1 : Bool) (s : State) : Res := inside 80 0 s fun s =>
  if s.pwr.step ≠ 6 || s.pwr.resetLow || s.get SEC_BOOT_STAT.stage = 15 || s.sec.waits.isSome || s.toLoad.isEmpty then .next s
  else faultIf (!(s.domOn 83 && s.domOn 84 && s.domOn 85)) .poweredOff <|
    if s.get SEC_BOOT_STAT.stage = 0 then
      match s.pickRom ok0 ok1 with
      | none => .next s
      | some s => .next ((s.extend 0 (bytesOf 64 Config.romDigest.toNat)).bootLoad flash)
    else .next (s.bootLoad flash)

/-- The image that a host has put at map address 0x00_0400_0000. -/
def State.hostImage (s : State) : List (BitVec 8) × State :=
  let (h, s) := s.sysRead 0x04000000 512
  let (b, s) := s.sysRead 0x04000200 (min 0x1000000 (field h 12 4))
  (h ++ b, s)

/-- HOST_LOAD (R361): SEC_HLOAD.go says that an image of type `t` is in place; a ROM that waits for one of that type checks and installs it. -/
def execHostLoad (t : BitVec 4) (s : State) : Res := secure s fun s =>
  let s := s.put SEC_HLOAD.type t.toNat
  let stage := s.toLoad.head?.map typeStage
  if s.sec.waits.isNone || !s.toLoad.contains t.toNat || some (typeStage t.toNat) ≠ stage then .next s
  else faultIf (!s.addrOn 0x04000000) .poweredOff <|
    let (img, s) := s.hostImage
    let c := s.checkImage t.toNat img
    if c ≠ 0 then .next (s.bootFail t.toNat c)
    else
      let s := s.install t.toNat img
      .next (s.withSec fun x => { x with waits := if s.toLoad.isEmpty then none else some s.pwr.ck })

/-- HOST_LOAD_TIMEOUT (R361): no image within 10 s gives code 7. -/
def execHostLoadTimeout (s : State) : Res := inside 80 0 s fun s =>
  match s.sec.waits with
  | none => .next s
  | some m => .next (if (s.pwr.ck - m).toNat ≥ 22000000000 then s.bootFail (s.toLoad.headD 0) 7 else s)

/-! ## Key commands (R365) -/

/-- Set bit `i` of a fuse field. -/
def State.blow (s : State) (f : Fld) (i : Nat) : State := s.raiseBit f i

/-- A class would keep an unrevoked programmed slot after the revocation of `target`. -/
def State.slotLeft (s : State) (owner : Bool) (target : Nat) : Bool := (List.range 4).any fun i => i ≠ target && s.slotGood owner i

/-- The fuses that an accepted key command blows; none: refused. -/
def State.keyApply (s : State) (b : List (BitVec 8)) : Option State :=
  let target := field b 24 1
  let t := field b 25 1
  let v := field b 28 4
  match field b 6 1 with
  | 0 =>
    if target > 3 || (s.get FUSE_KSTAT.oprog).testBit target then none
    else some (((s.put (FUSE_OKEYi.digest target) (field b 32 64)).blow FUSE_KSTAT.oprog target).put FUSE_KSTAT.owner 1)
  | 1 => if target > 3 || !s.slotLeft false target then none else some (s.blow FUSE_KSTAT.vrev target)
  | 2 => if target > 3 || !s.slotLeft true target then none else some (s.blow FUSE_KSTAT.orev target)
  | _ => if t > 3 || v ≤ s.get (FUSE_SVNt.svn t) || v > 64 then none else some (s.put (FUSE_SVNt.svn t) v)

/-- The SEC finishes a key command. -/
def State.keyFinish (s : State) (b : List (BitVec 8)) : State :=
  let s := s.withSec fun x => { x with kcmd := none }
  let c := s.checkBlock .command b
  if c ≠ 0 then (s.put SEC_KCTL.res c).raise SEC_CAUSE.kfail
  else match s.keyApply b with
    | none => (s.put SEC_KCTL.res 8).raise SEC_CAUSE.kfail
    | some s => ((s.extend 5 (sha512 (b.take 232))).put SEC_KCTL.res 0).raise SEC_CAUSE.kdone

/-- SEC_KCTL.go on a key command of op `op`, and its end: a go reads the block at SEC_KCMD, unless a command is running, which ignores it; the
running command finishes within 10 ms. -/
def keyCommand (op : Nat) (s : State) : Res := secure s fun s =>
  match s.sec.kcmd with
  | some (due, b) => .next (if field b 6 1 = op && monoLe due s.pwr.ck then s.keyFinish b else s)
  | none =>
    let a := 64 * s.get SEC_KCMD.addr
    faultIf (!s.rangeOn a 364) .poweredOff <|
      let (b, t) := s.sysRead a 364
      if field b 6 1 ≠ op then .next s
      else .next (t.spent.withSec fun x => { x with kcmd := some (s.soon 22000000, b) })

/-- ENROL_OWNER_SLOT (R365): op 0. -/
def execEnrolOwnerSlot (s : State) : Res := keyCommand 0 s
/-- REVOKE_VENDOR_SLOT (R365): op 1. -/
def execRevokeVendorSlot (s : State) : Res := keyCommand 1 s
/-- REVOKE_OWNER_SLOT (R365): op 2. -/
def execRevokeOwnerSlot (s : State) : Res := keyCommand 2 s
/-- ADVANCE_SVN (R365): op 3. -/
def execAdvanceSvn (s : State) : Res := keyCommand 3 s

/-! ## Software measurements and model digests (R366, R368) -/

/-- MR7_EXTEND (R366): SEC_MRCTL.go extends MR7 with SEC_MRDATA. -/
def execMr7Extend (s : State) : Res := secure s fun s => .next (s.extend 7 (bytesOf 64 (s.get SEC_MRDATA.data)))

/-- The digest written to SEC_MDk takes effect, and MR6 is extended with SHA-512 of k and the digest. -/
def State.modelDigest (s : State) (k : Fin 16) : State :=
  let v := s.get (SEC_MDk.md k)
  let s := s.withSec fun x => { x with md := x.md.set k.val (BitVec.ofNat 512 v) }
  s.extend 6 (sha512 (BitVec.ofNat 8 k.val :: bytesOf 64 v))

/-- MODEL_DIGEST_WRITE (R368): a write of the highest 64-bit word of SEC_MDk. -/
def execModelDigestWrite (k : Fin 16) (w : BitVec 64) (s : State) : Res := secure s fun s =>
  .next ((s.setWords (SEC_MDk.reg k + 56) 2 w.toNat).modelDigest k)

/-! ## Quotes (R367, R370, R371) -/

/-- Timetable digest `n`: SHA-512 of the bank that engine `n` runs; zeros while it is halted. -/
def State.ttDigest (s : State) (n : Fin 8) : List (BitVec 8) :=
  if (s.engine n).active then
    sha512 ((List.range 2048).flatMap fun i => bytesOf 8 (s.get (ORR_BANK.w n (s.runBank n) i)))
  else List.replicate 64 0

/-- One bit of each timeline's configuration. -/
def State.timelineBits (s : State) (f : Nat → Fld) : Nat := (List.range 8).foldl (fun a n => a + s.get (f n) * 2 ^ n) 0

/-- The mode word (R371). -/
def State.modeWord (s : State) : Nat :=
  s.get SYS_MODE.det + 2 ^ 8 * s.timelineBits TMB_ATn_CFG.en + 2 ^ 16 * s.timelineBits TMB_ATn_CFG.dup
    + 2 ^ 24 * s.timelineBits TMB_ATn_CFG.ecp + 2 ^ 32 * (List.range 8).foldl (fun a n => a + s.get (TMB_ATn_CFG.mu n) * 4 ^ n) 0
    + 2 ^ 48 * s.get PCIE_CFG.mode + 2 ^ 49 * s.get SEC_BOOT_STAT.src + 2 ^ 51 * s.get FUSE_KSTAT.owner
    + 2 ^ 52 * (decide (s.get SEC_DBG_PERM.perm ≠ 0)).toNat + 2 ^ 53 * s.get SEC_BOOT_STAT.setb
    + 2 ^ 56 * s.get SYS_STAT.rstcnt + 2 ^ 64 * s.get SEC_DBG_PERM.perm

/-- The PWR_REP_UMAP bytes of every logical unit, kinds in turn. -/
def State.mapBytes (s : State) : List (BitVec 8) :=
  (List.range 16).flatMap fun k => (List.range (kindUnits k).1).map fun u => BitVec.ofNat 8 (s.phys k u + 128 * (s.absent k u).toNat)

/-- Bytes 0 to 2,719 of a quote (R370). -/
def State.quoteBytes (s : State) : List (BitVec 8) :=
  let spares := s.mapBytes
  [0x4D, 0x51, 0x54, 0x31] ++ bytesOf 2 1 ++ bytesOf 2 2720 ++ bytesOf 16 (s.get FUSE_UID.uid) ++ bytesOf 64 (s.get SEC_QNONCE.nonce)
    ++ bytesOf 8 s.mono.toNat ++ bytesOf 6 s.tb.nt.sec.toNat ++ bytesOf 2 0 ++ bytesOf 4 s.tb.nt.ns ++ bytesOf 4 0
    ++ bytesOf 16 s.modeWord ++ (List.range 4).flatMap (fun t => bytesOf 4 (s.get (FUSE_SVNt.svn t)))
    ++ (List.range 8).flatMap (fun i => bytesOf 64 (s.get (SEC_MRi.mr i)))
    ++ (List.finRange 8).flatMap (fun n => s.ttDigest n)
    ++ s.sec.md.toList.flatMap (fun d => bytesOf 64 d.toNat)
    ++ spares ++ List.replicate (512 - spares.length) 0
    ++ bytesOf 8 (s.words PWR_REP_LEFT.reg 2) ++ bytesOf 8 0

/-- QUOTE (R370): SEC_QCTL.go takes every field at once and signs them with the identity key; a go during a quote only sets qbusy, and while
debug permission 4 is in force qfail. The signature is a free value; the quote is written within 4 ms. -/
def execQuote (s : State) : Res := secure s fun s =>
  if (s.get SEC_DBG_PERM.perm).testBit 4 then .next (s.raise SEC_CAUSE.qfail)
  else if s.sec.quote.isSome then .next (s.raise SEC_CAUSE.qbusy)
  else
    let due := s.soon 8800000
    let q := s.quoteBytes
    let (sig, s) := s.spent.drawBytes 132
    .next ((s.put SEC_QCTL.busy 1).withSec fun x => { x with quote := some (due, 64 * s.get SEC_QADDR.addr, q ++ sig) })

/-- One ck of the SEC: a quote whose instant has come is written, and qdone set (R370); G1 holds the memory that it goes to (R344). -/
def State.secTick (s : State) : Res :=
  match s.sec.quote with
  | some (due, a, q) =>
    if monoLe due s.pwr.ck && s.domOn 80 then
      faultIf (!s.rangeOn a 2852) .poweredOff <| reached 6 s fun s =>
        .next ((((s.sysWrite a q).put SEC_QCTL.busy 0).raise SEC_CAUSE.qdone).withSec fun x => { x with quote := none })
    else .next s
  | none => .next s

/-! ## Debug unlock (R372) -/

/-- Set SEC_DBG_PERM, with unlocked. -/
def State.setPerm (s : State) (v : Nat) : State := (s.put SEC_DBG_PERM.perm v).put SEC_DBG_CTL.unlocked (decide (v ≠ 0)).toNat

/-- The token is good: R358, the challenge, and the permissions of its signer's class. -/
def State.tokenGood (s : State) (b : List (BitVec 8)) : Bool :=
  s.checkBlock .token b = 0 && field b 24 32 = s.get SEC_DBG_CHAL.chal && field b 56 8 < (if signerOwner b then 8 else 32)

/-- DEBUG_TOKEN (R372): SEC_DBG_CTL.go checks the token at SEC_DBG_TOK and draws a new challenge. -/
def execDebugToken (s : State) : Res := secure s fun s =>
  let a := 64 * s.get SEC_DBG_TOK.addr
  faultIf (!s.rangeOn a 364) .poweredOff <|
    let (b, s) := s.sysRead a 364
    let s := if s.tokenGood b then
        ((s.setPerm (s.get SEC_DBG_PERM.perm ||| field b 56 8)).extend 5 (sha512 (b.take 232))).raise SEC_CAUSE.dbg_ok
      else s.raise SEC_CAUSE.dbg_fail
    .next s.newChallenge

/-- DEBUG_LOCK (R372): the permissions are cleared and a new challenge drawn. -/
def execDebugLock (s : State) : Res := secure s fun s => .next (s.setPerm 0).newChallenge

/-! ## Harts and caches (R355, R356) -/

/-- HART_PARK (R356). -/
def execHartPark (h : Fin 8) (s : State) : Res := access 90 5 s fun s => .next (s.park h)

/-- HART_UNPARK (R356). -/
def execHartUnpark (h : Fin 8) (s : State) : Res := access 90 5 s fun s => .next (s.unpark h)

/-- An L1 parity error (R349): the line is gone, and read again from the L2. -/
def State.refetch (s : State) (h : Fin 8) (instr : Bool) (l : Nat) : State :=
  let s := s.withHart h fun c => if instr then { c with l1i := withoutLine c.l1i l } else { c with l1d := withoutLine c.l1d l }
  match lineIn (s.hart h).l2 l with
  | some x => s.toL1 h instr x
  | none => s

/-- A line with an error that no code corrects leaves the L2 of hart `h` or the L3 as it was read, with bits that nothing says (R355). -/
def State.writeFlawed (s : State) (h : Fin 8) (level : CacheLevel) (l : Nat) : State :=
  match level with
  | .l3 => match lineIn s.acx.l3 l with
    | some x =>
      let (d, s) := s.draw 512
      (s.withAcx fun a => { a with l3 := withoutLine a.l3 l }).sendLine { x with data := d }
    | none => s
  | _ => match lineIn (s.hart h).l2 l with
    | some x =>
      let (d, s) := s.draw 512
      (s.withHart h fun c => c.dropLine l).toL3 { x with data := d }
    | none => s

/-- What the use of a line with an uncorrectable error makes of it (R355): a load or fetch takes a precise access fault, an eviction or a snoop writes
the line. -/
def State.useFlawed (s : State) (h : Fin 8) (level : CacheLevel) (a : Nat) : EccUse → State
  | .load => s.withHart h fun c => c.excTrap .access .load a c.dataMode.virt
  | .fetch => s.withHart h fun c => c.excTrap .access .fetch a c.mode.virt
  | .writeBack => s.writeFlawed h level (a / 64)

/-- CACHE_ECC_ERROR (R297, R349, R355): an error of a cache of hart `h`, or of the L3 at its access: corrected, or uncorrectable where `unc` says what
meets it. The cause is set, of the L2 and L3 the address is kept, and the error is logged and counted toward class 4. An L1 has parity, whose errors
are all corrected. -/
def execCacheEccError (h : Fin 8) (level : CacheLevel) (addr : BitVec 40) (unc : Option EccUse) (s : State) : Res := inside 90 5 s fun s =>
  let a := addr.toNat
  let l1 := level = .l1i || level = .l1d
  let s := s.raise (if !l1 && unc.isSome then ACX_CAUSE.ecc2 else ACX_CAUSE.ecc1)
  let s := if l1 then s.refetch h (level = .l1i) (a / 64)
    else (s.put ACX_ECCA.src (if level = .l3 then 8 else h.val)).put ACX_ECCA.addr a
  let s := match unc with
    | some u => if l1 then s else s.useFlawed h level a u
    | none => s
  .next (s.checkFailed 4 h a (l1 || unc.isNone))

/-! ## In-service updates (R312, R315, R364) -/

/-- MANAGEMENT_FIRMWARE_UPDATE (R312, R364): op 2 with the image written to the inactive management pair: an image that fails gives res = 3; a
good one extends MR1, and the pair takes over within 1 ms. -/
def execManagementFirmwareUpdate (k : Fin 16) (u : Fin 256) (img : List (BitVec 8)) (s : State) : Res := repRequest 2 k u s fun s =>
  match (s.freeSpares 13).head? with
  | none => s.repRes 1
  | some p =>
    if s.checkImage 0 img ≠ 0 then s.repRes 3
    else
      let m : RepMove := ⟨.firmware, 13, 0, p, s.soon 2200000, 0, true⟩
      ((s.claimSpare 13 p).spent.measure 0 img).withRep fun r => { r with moves := r.moves ++ [m] }

/-- MICROCODE_UPDATE (R315, R364): an image of tile or Orrery microcode that passes its checks is loaded into each pool's spare, extends MR4 or
MR3, and rotates through every unit of the pool with upd = 1. -/
def execMicrocodeUpdate (orr : Bool) (img : List (BitVec 8)) (s : State) : Res := inside 80 0 s fun s =>
  let t := if orr then 2 else 3
  let firsts : List Nat := if orr then [0] else (List.range 8).map fun c => 8 * c
  let k := if orr then 11 else 0
  let moves := firsts.filterMap fun b =>
    match (List.range 8).find? (fun i => !s.absent k (b + i)), s.rotSpare k b with
    | some i, some p => some (⟨.microcode, k, b + i, p, s.pwr.ck, 0, false⟩ : RepMove)
    | _, _ => none
  if s.flag PWR_REP_STAT.upd || moves.isEmpty || s.checkImage t img ≠ 0 then .next s
  else .next (((s.measure t img).withRep fun r => { r with moves := r.moves ++ moves }).put PWR_REP_STAT.upd 1)

end Sys2Proof.Machine
end

