-- ==== Sys2Proof/Machine/Registers.lean ====
section
/-! DEFINITION. Software writes of registers (R3 to R6, R383, R384): the access codes, and the fields whose write has a behaviour of its own,
each handed to the meaning of the command that names it. -/

namespace Sys2Proof.Machine

/-- A write as it reaches an aligned 64-bit word of registers: its address, the value (bits that are not written as they stand), and the mask of
the bits written. -/
structure RegWrite where
  q : Nat
  v : Nat
  m : Nat
  deriving DecidableEq, Repr

/-- Bit offset of a field in the word. -/
def RegWrite.off (w : RegWrite) (f : Fld) : Nat := 8 * f.addr + f.lo - 8 * w.q

/-- The write touches a field that lies in the word. -/
def RegWrite.has (w : RegWrite) (f : Fld) : Bool :=
  decide (8 * w.q ≤ 8 * f.addr + f.lo) && decide (8 * f.addr + f.lo + f.w ≤ 8 * w.q + 64) && decide (bitsOf w.m (w.off f) f.w ≠ 0)

/-- The value that the write gives a field. -/
def RegWrite.val (w : RegWrite) (f : Fld) : Nat := bitsOf w.v (w.off f) f.w

/-- Fields that are written together with a behaviour of their own, and that behaviour. -/
abbrev OwnWrite := List Fld × (State → Res)

/-- A field that acts when 1 is written to it. -/
def RegWrite.go (w : RegWrite) (f : Fld) (act : State → Res) : OwnWrite :=
  ([f], fun s => if w.val f = 0 then .next s else act s)

/-- A stored field that acts when its value changes. -/
def RegWrite.change (w : RegWrite) (f : Fld) (act : Nat → State → Res) : OwnWrite :=
  ([f], fun s => if w.val f = s.get f then .next s else act (w.val f) s)

/-- The index of an instance of a register from its stride. -/
def RegWrite.ix (w : RegWrite) (base stride : Nat) : Nat := (w.q - base) / stride

/-- The whole word, for registers all of whose fields act together. -/
def RegWrite.whole (w : RegWrite) (p : Bool) (act : State → Res) : List OwnWrite := if p then [([⟨w.q, 0, 64⟩], act)] else []

/-! ## Blocks -/

/-- SYS_MODE.det may change (R263): no context is enabled, no Orrery engine runs, no hard-engine unit has a job. -/
def State.outOfService (s : State) : Bool :=
  (List.range 256).all (fun n => !s.flag (CTX_CTXn.en n)) && (List.range 8).all (fun n => !s.flag (ORR_ENGn_CTL.run n))
    && s.hard.toList.all fun h => h.job.isNone

/-- SYS_GPIO_IN reads a driven pin (R385). -/
def State.drivePins (s : State) : State :=
  let oe := s.get SYS_GPIO_OE.pin
  s.put SYS_GPIO_IN.pin ((s.get SYS_GPIO_IN.pin &&& ((2 ^ 64 - 1) ^^^ oe)) ||| (s.get SYS_GPIO_OUT.pin &&& oe))

def RegWrite.ownSys (w : RegWrite) : List OwnWrite :=
  [w.change SYS_MODE.det fun v s => faultIf (!s.outOfService) .detChangedInService (.next (s.put SYS_MODE.det v)),
   ([SYS_GPIO_OE.pin], fun s => .next (s.put SYS_GPIO_OE.pin (w.val SYS_GPIO_OE.pin)).drivePins),
   ([SYS_GPIO_OUT.pin], fun s => .next (s.put SYS_GPIO_OUT.pin (w.val SYS_GPIO_OUT.pin)).drivePins)]

def RegWrite.ownTmb (w : RegWrite) : List OwnWrite :=
  let n : Fin 8 := Fin.ofNat 8 (w.ix (TMB_ATn_CFG.reg 0) 16)
  let cfg : List Fld := [TMB_ATn_CFG.dup n, TMB_ATn_CFG.ecp n, TMB_ATn_CFG.mu n, TMB_ATn_CFG.en n]
  [w.change TMB_CTL.phase_src fun v s => execPhaseSrcWrite (Fin.ofNat 4 v) s,
   w.change TMB_CTL.ho_force fun v s => if v = 1 then execHoForce s else .next (s.put TMB_CTL.ho_force 0),
   ([TMB_CTL.servo_en], fun s => execServoEnWrite (w.val TMB_CTL.servo_en = 1) s),
   w.go TMB_SNAP.snap execSnap,
   ([TMB_PHERR.theta], fun s => execPherrWrite (BitVec.ofNat 48 (w.val TMB_PHERR.theta)) s),
   ([TMB_STEP.step], fun s => execPhaseStep (BitVec.ofNat 48 (w.val TMB_STEP.step)) s),
   ([TMB_EPOCH.sec], fun s => execEpochWrite (BitVec.ofNat 48 (w.val TMB_EPOCH.sec)) s),
   ([TMB_PPSO.width, TMB_PPSO.en], fun s => execPpsoWrite (BitVec.ofNat 8 (w.val TMB_PPSO.width)) (w.val TMB_PPSO.en = 1) s),
   (cfg, fun s => execTimelineEnable n (w.val (TMB_ATn_CFG.dup n) = 1) (w.val (TMB_ATn_CFG.ecp n) = 1)
      (Fin.ofNat 4 (w.val (TMB_ATn_CFG.mu n))) (w.val (TMB_ATn_CFG.en n) = 1) s),
   ([TMB_ATn_OFF.off n], fun s => execTimelineOffsetWrite n (BitVec.ofNat 33 (w.val (TMB_ATn_OFF.off n))) s)]

def RegWrite.ownOrr (w : RegWrite) : List OwnWrite :=
  let n : Fin 8 := Fin.ofNat 8 (w.ix (ORR_ENGn_CTL.reg 0) 0x40)
  let b := w.ix (ORR_BANK.reg 0 0 0) 8
  let ctl : List Fld := [ORR_ENGn_CTL.run n, ORR_ENGn_CTL.at n, ORR_ENGn_CTL.bank n]
  (ctl, fun s =>
    let tl := Fin.ofNat 8 (w.val (ORR_ENGn_CTL.at n))
    let bank := Fin.ofNat 2 (w.val (ORR_ENGn_CTL.bank n))
    if w.val (ORR_ENGn_CTL.run n) = 1 then execEngineStart n tl bank s else execEngineStopWrite n tl bank s)
  :: w.whole (ORR_BANK.reg 0 0 0 ≤ w.q) (fun s =>
    execTimetableBankWrite (Fin.ofNat 8 (b / 4096)) (Fin.ofNat 2 (b / 2048)) (Fin.ofNat 2048 b) (BitVec.ofNat 64 w.v) s)

/-- A write of a saturation counter gives the written value plus the increments of the same ck (R90). -/
def State.writeSat (s : State) (t : Fin 64) (c : Fin 8) (v : Nat) : State :=
  s.put (TIL_VSATc.count t c) (min (2 ^ 32 - 1) (v + s.now.sat.read (fun _ => 0) (TIL_VSATc.reg t c)))

def RegWrite.ownTil (w : RegWrite) : List OwnWrite :=
  let t : Fin 64 := Fin.ofNat 64 (w.ix (TIL_CTL.reg 0) 0x10000)
  [([TIL_CTL.run t], fun s => if w.val (TIL_CTL.run t) = 1 then execTileStart t false s else execTileHaltWrite t s),
   ([TIL_CTL.yreq t], fun s => execYreqWrite t (w.val (TIL_CTL.yreq t) = 1) s),
   ([TIL_EVF.f t], fun s => .next (s.clearEvfs t (BitVec.ofNat 32 (w.val (TIL_EVF.f t)) &&& ~~~s.setNow (TIL_EVF.reg t)))),
   ([TIL_EVS.f t], fun s => execTilEvsWrite t (BitVec.ofNat 32 (w.val (TIL_EVS.f t))) s)]
    ++ (List.finRange 8).map fun (c : Fin 8) => ([TIL_VSATc.count t c], fun s => .next (s.writeSat t c (w.val (TIL_VSATc.count t c))))

def RegWrite.ownDma (w : RegWrite) : List OwnWrite :=
  let o := w.q - 0x1800A00000
  let c : Fin 8 := Fin.ofNat 8 (o / 0x10000)
  let n : Fin 32 := Fin.ofNat 32 (o % 0x10000 / 0x40)
  [w.go (DMA_Qn_CTL.cancel c n) (execDmaCancel c n), w.go (DMA_Qn_CTL.go c n) (execDmaGo c n)]

/-- The first word of CTX_CTXn holds en, drain, cut and ckpt, at bits 0, 2, 3 and 8. -/
def ctxOwnBits : Nat := 0x10D

/-- A write of a context entry (R245): while en = 1 a write of en = 0, and a change of any field but drain, cut and ckpt, is ignored and sets
wr_active; else the fields are stored and en = 1 enables the context. Then drain, cut and ckpt act. -/
def RegWrite.ctxEntry (w : RegWrite) (n : Fin 256) (s : State) : Res :=
  let first := w.q = CTX_CTXn.reg n
  let own := if first then ctxOwnBits else 0
  let was := s.flag (CTX_CTXn.en n)
  let changed := (w.v ^^^ s.words w.q 2) &&& w.m &&& ((2 ^ 64 - 1) ^^^ own)
  let en := first && w.has (CTX_CTXn.en n)
  let s := if was then s.raiseIf (decide (changed ≠ 0) || (en && w.val (CTX_CTXn.en n) = 0)) CTX_CAUSE.wr_active
    else s.setWords w.q 2 (s.words w.q 2 ^^^ changed)
  let act (f : Fld) (g : State → Res) (s : State) : Res := if first && w.has f && w.val f = 1 then g s else .next s
  andThen (act (CTX_CTXn.en n) (execContextEnable n) s) fun s =>
    andThen (act (CTX_CTXn.drain n) (execDrain n) s) fun s =>
      andThen (act (CTX_CTXn.cut n) (execCut n) s) (act (CTX_CTXn.ckpt n) (execCkpt n))

def RegWrite.ownCtx (w : RegWrite) : List OwnWrite :=
  w.whole (CTX_CTXn.reg 0 ≤ w.q && decide (w.q < CTX_CTXn.reg 256)) (w.ctxEntry (Fin.ofNat 256 (w.ix (CTX_CTXn.reg 0) 0x20)))

/-- ENG_CTL of a unit (R187, R193): en = 1 enables it, en = 0 stops acceptance; then drain and cut act. -/
def RegWrite.engCtl (w : RegWrite) (k : HardClass) (u : Fin 8) : OwnWrite :=
  let c := clsNum k
  ([engEn c u, engPoll c u, engDrain c u, ⟨engBase c u, 3, 1⟩], fun s =>
    let poll := w.val (engPoll c u)
    andThen (if w.val (engEn c u) = 1 then execEngineEnable k u (poll = 1) s
      else unitWrite k u s fun s => ((s.put (engPoll c u) poll).put (engEn c u) 0).syncUnit c u) fun s =>
      andThen (if w.val (engDrain c u) = 1 then execEngineDrain k u s else .next s) fun s =>
        if w.val ⟨engBase c u, 3, 1⟩ = 1 then execEngineCut k u s else .next s)

def RegWrite.ownEng (w : RegWrite) (k : HardClass) : List OwnWrite :=
  let u := w.ix (engBase (clsNum k) 0) 0x40
  if engBase (clsNum k) 0 ≤ w.q && decide (u < unitCount (clsNum k)) then [w.engCtl k (Fin.ofNat 8 u)] else []

/-- Any port is an enabled Apsis port. -/
def State.anyApx (s : State) : Bool := (List.range 32).any fun p => s.flag (OPT_Pp_CFG.en p) && s.flag (OPT_Pp_CFG.apx p)

/-- OPT_Pp_CFG (R268, R269): while en = 1 only a new lane mask acts; else en = 1 enables the port, and en = 0 stores the fields. -/
def RegWrite.ownOpt (w : RegWrite) : List OwnWrite :=
  let p : Fin 32 := Fin.ofNat 32 (w.ix (OPT_Pp_CFG.reg 0) 0x80)
  let lanes := BitVec.ofNat 8 (w.val (OPT_Pp_CFG.lanes p))
  w.whole (w.q = OPT_Pp_CFG.reg p) fun s =>
    if s.flag (OPT_Pp_CFG.en p) then if s.get (OPT_Pp_CFG.lanes p) = lanes.toNat then .next s else execLaneMove p lanes s
    else if w.val (OPT_Pp_CFG.en p) = 1 then
      execPortEnable p (w.val (OPT_Pp_CFG.apx p) = 1) (w.val (OPT_Pp_CFG.fh p) = 1) (Fin.ofNat 8 (w.val (OPT_Pp_CFG.rate p))) lanes
        (BitVec.ofNat 48 (w.val (OPT_Pp_CFG.mac p))) s
    else .next (s.setWords w.q 2 w.v)

def RegWrite.ownJes (w : RegWrite) : List OwnWrite :=
  let rx : Fin 8 := Fin.ofNat 8 (w.ix (JES_RXk_CFG.reg 0) 16)
  let tx : Fin 8 := Fin.ofNat 8 (w.ix (JES_TXk_CFG.reg 0) 16)
  w.whole (w.q = JES_RXk_CFG.reg rx) (execJesdLinkEnable false rx (BitVec.ofNat 64 w.v))
  ++ w.whole (w.q = JES_TXk_CFG.reg tx) (execJesdLinkEnable true tx (BitVec.ofNat 64 w.v))
  ++ [([JES_SYSREF.off, JES_SYSREF.mode], fun s =>
        let s := (s.put JES_SYSREF.off (w.val JES_SYSREF.off)).put JES_SYSREF.mode (w.val JES_SYSREF.mode)
        .next { s with jes := { s.jes with aligned := false } })]

/-- A DPD coefficient (R182): a write to the bank in use is ignored and sets wr_active. -/
def RegWrite.ownDfe (w : RegWrite) : List OwnWrite :=
  let o := w.q - DFE_DPD.reg 0 0 0
  let c := o / 0x200
  w.whole (DFE_DPD.reg 0 0 0 ≤ w.q && decide (o < 0x8000)) fun s =>
    .next (if s.get (DFE_TXc_CFG.bank c) = o / 0x100 % 2 then s.raise DFE_CAUSE.wr_active else s.setWords w.q 2 w.v)

def RegWrite.ownApx (w : RegWrite) : List OwnWrite :=
  [w.change APX_CFG.id fun v s => .next (if s.anyApx then s else s.put APX_CFG.id v)]

def RegWrite.ownPwr (w : RegWrite) : List OwnWrite :=
  let d : Fin 96 := Fin.ofNat 96 (w.ix (PWR_DOMd.reg 0) 8)
  let n := w.ix (PWR_AUXn.reg 0) 16
  let k : Fin 16 := Fin.ofNat 16 (w.val PWR_REP_REQ.kind)
  let u : Fin 256 := Fin.ofNat 256 (w.val PWR_REP_REQ.unit)
  [([PWR_DOMd.on d], fun s => if w.val (PWR_DOMd.on d) = 1 then execDomainOn d s else execDomainOff d s),
   ([PWR_THM_CFG.shed], fun s => .next (s.setShed (w.val PWR_THM_CFG.shed))),
   ([PWR_AUXn.en n], fun s =>
      let v := w.val (PWR_AUXn.en n)
      let s := s.put (PWR_AUXn.en n) v
      .next (if v = 0 then (s.put (PWR_AUXn.latched n) 0).put (PWR_AUXn.pout n) 0 else s)),
   ([PWR_RST.g], fun s => (List.finRange 5).foldl (fun r (g : Fin 5) =>
      if (w.val PWR_RST.g).testBit g then andThen r (execGroupReset g false) else r) (.next s)),
   w.go PWR_REP_REQ.go fun s =>
      match w.val PWR_REP_REQ.op with
      | 0 => execMoveRequest k u s
      | 1 => execRotateRequest k u s
      | 2 => execManagementFirmwareUpdate k u (Config.flashAnswer s.fresh) s.spent
      | _ => execRepairRequestReserved k u s]

def RegWrite.ownCal (w : RegWrite) : List OwnWrite :=
  let i := w.ix (CAL_U.reg 0) 4
  if CAL_U.reg 0 ≤ w.q && decide (i < 416) then
    [i, i + 1].map fun j => ([CAL_U.val j], fun s => execCalUWrite (Fin.ofNat 416 j) (BitVec.ofNat 32 (w.val (CAL_U.val j))) s)
  else []

/-- The key command at SEC_KCMD, whatever its op (R365). -/
def keyGo (s : State) : Res := secure s fun s => keyCommand (field (s.sysBytes (64 * s.get SEC_KCMD.addr) 364) 6 1) s

def RegWrite.ownSec (w : RegWrite) : List OwnWrite :=
  let k : Fin 16 := Fin.ofNat 16 (w.ix (SEC_MDk.reg 0) 0x40)
  [([SEC_HLOAD.type, SEC_HLOAD.go], fun s =>
      if w.val SEC_HLOAD.go = 1 then execHostLoad (BitVec.ofNat 4 (w.val SEC_HLOAD.type)) s
      else .next (s.put SEC_HLOAD.type (w.val SEC_HLOAD.type))),
   ([⟨SEC_MDk.reg k + 60, 0, 32⟩], fun s => execModelDigestWrite k (BitVec.ofNat 64 w.v) s),
   w.go SEC_QCTL.go execQuote,
   w.go SEC_KCTL.go (fun s => if s.sec.kcmd.isSome then .next s else keyGo s),
   w.go SEC_DBG_CTL.go execDebugToken,
   w.go SEC_DBG_CTL.lock execDebugLock,
   w.go SEC_MRCTL.go execMr7Extend]

/-- Writes of the interrupt controller and of SETSSIP (R353, R354), and of ACX_HPARK.park, each changed bit of which parks or restarts a hart (R356). -/
def RegWrite.ownAcx (w : RegWrite) : List OwnWrite :=
  let o := w.q - ACX_APLIC.reg 0 0
  let d : Fin 2 := Fin.ofNat 2 (o / 0x10000)
  let h := (w.q - ACX_SETSSIP.reg 0) / 4
  let park (h : Fin 8) (s : State) : Res :=
    if (w.val ACX_HPARK.park).testBit h = (s.get ACX_HPARK.park).testBit h then .next s
    else if (w.val ACX_HPARK.park).testBit h then execHartPark h s else execHartUnpark h s
  if w.q < ACX_MSIP.reg 0 then
    [0, 1].map fun j => ([ACX_APLIC.w d (o % 0x10000 / 4 + j)], fun s =>
      .next (s.aplicWrite d (o % 0x10000 / 4 + j) (w.val (ACX_APLIC.w d (o % 0x10000 / 4 + j)))))
  else if ACX_SETSSIP.reg 0 ≤ w.q && w.q < ACX_SETSSIP.reg 8 then
    [0, 1].map fun j => ([ACX_SETSSIP.ip (h + j)], fun s =>
      .next (if w.val (ACX_SETSSIP.ip (h + j)) = 1 then s.withHart (Fin.ofNat 8 (h + j)) fun c => c.putBits 0x344 1 1 1 else s))
  else [([ACX_HPARK.park], fun s => (List.finRange 8).foldl (fun r (h : Fin 8) => andThen r (park h)) (.next s))]

/-- The behaviours of a write, by block. -/
def RegWrite.own (w : RegWrite) : List OwnWrite :=
  match blockOf w.q with
  | some 0 => w.ownSys
  | some 2 => w.ownPwr
  | some 4 => w.ownCal
  | some 6 => w.ownSec
  | some 7 => w.ownTmb
  | some 8 => w.ownOrr
  | some 9 => w.ownCtx
  | some 10 => w.ownDma
  | some 13 => w.ownOpt
  | some 14 => w.ownJes
  | some 15 => w.ownDfe
  | some 17 => w.ownEng .eq
  | some 18 => w.ownEng .dec ++ w.ownEng .enc
  | some 19 => w.ownEng .pol
  | some 20 => w.ownApx
  | some 21 => w.ownAcx
  | some 64 => w.ownTil
  | _ => []

/-! ## Access -/

/-- The engine of ORR whose registers or banks hold an address. -/
def orrEngineOf (a : Nat) : Option (Fin 8) :=
  if a < ORR_ENGn_CTL.reg 8 then some (Fin.ofNat 8 ((a - ORR_ENGn_CTL.reg 0) / 0x40))
  else if ORR_BANK.reg 0 0 0 ≤ a && a < ORR_BANK.reg 8 0 0 then some (Fin.ofNat 8 ((a - ORR_BANK.reg 0 0 0) / 0x8000))
  else none

/-- An access to a control register is one to its block: the domain, reset group and unit that hold it (R320, R343, R382, R384); a reserved
block has none. -/
def accessBlock (a : Nat) (s : State) (f : State → Res) : Res :=
  match blockOf a with
  | some 64 => accessTile ((a - TIL_CTL.reg 0) / 0x10000) s f
  | some 8 =>
    match orrEngineOf a with
    | some n => accessUnit 82 1 11 n s f
    | none => access 82 1 s f
  | some 0 => if a / 8 * 8 = SYS_STAT.reg then access 80 0 s f else access 82 1 s f
  | some 11 => access 83 1 s f
  | some 14 => access 91 2 s f
  | some 15 => access (if txRegs a then 87 else 86) 2 s f
  | some 16 => access 86 2 s f
  | some 17 => access 88 3 s f
  | some 18 | some 19 => access 89 3 s f
  | some 12 => access 82 4 s f
  | some 13 | some 20 => access (match engineOf a with | some e => 92 + e | none => 82) 4 s f
  | some 21 => access 90 5 s f
  | some 1 | some 7 | some 9 | some 10 => access 82 1 s f
  | some 2 | some 3 | some 4 | some 5 | some 6 => access 80 0 s f
  | _ => f s

/-- An access to a control block that falls on no register (R384): 0 hart, 1 PCIe, 2 JTAG. -/
def State.unmapped (s : State) (a src : Nat) : State :=
  if (blockOf a).isSome && s.fck && s.domOn 82 && !s.held 1 then ((s.raise SYS_CAUSE.unmapped).put SYS_BADA.src src).put SYS_BADA.addr a else s

/-- The bits of GCAUSE_x that R375 lists. -/
def leafBits (g : Nat) : Nat :=
  match g with
  | 3 | 5 | 6 => 2 ^ 32 - 1
  | 4 => 3
  | 7 | 22 => 2 ^ 64 - 1
  | 8 => 2 ^ 9 - 1
  | _ => 1

/-- The reserved bits of the register word at an address (R5, and those of GMASK_x). -/
def reservedBits (a : Nat) : Nat :=
  match regAt a with
  | none => 0
  | some (l, o) =>
    let g := (a - GMASK_x.reg 0) / 16
    let gm := if GMASK_x.reg 0 ≤ a && decide (g < 23) && decide ((a - GMASK_x.reg 0) % 16 < 8) then
        bitsOf ((2 ^ 64 - 1) ^^^ leafBits g) (8 * ((a - GMASK_x.reg 0) % 16)) 32
      else 0
    l.mask o (· = .rsv) ||| gm

/-- The bits of the word at `a` that belong to fields with a behaviour of their own. -/
def RegWrite.ownMask (w : RegWrite) (own : List OwnWrite) (a : Nat) : Nat :=
  bitsOf ((own.flatMap (·.1)).foldl (fun m f => if w.has f then m ||| ((2 ^ f.w - 1) <<< w.off f) else m) 0) (8 * (a - w.q)) 32

/-- The access codes of R3 on the register word at `a`: RW and WO bits store, W1C bits clear, unless the M880 has set them in this ck (R4), W1S
bits set where `v` is 1; the bits of `except` stay. -/
def State.writeWord (s : State) (a v except : Nat) : State :=
  match regAt a with
  | none => s
  | some (l, o) =>
    let old := (s.word a).toNat
    let pick (p : Access → Bool) : Nat := l.mask o p &&& ((2 ^ 32 - 1) ^^^ except)
    let rw := pick fun c => c = .rw || c = .wo
    let kept := (old &&& ((2 ^ 32 - 1) ^^^ rw)) &&& ((2 ^ 32 - 1) ^^^ (v &&& pick (· = .w1c) &&& (~~~s.setNow a).toNat))
    s.setWord a (BitVec.ofNat 32 (kept ||| (v &&& rw) ||| (v &&& pick (· = .w1s))))

/-- The addresses of the 32-bit words that an access names (R383). -/
def wordsAt (a : Nat) (wide : Bool) : List Nat := if wide then [a, a + 4] else [a]

/-- The write that `data` makes at `a`. -/
def State.regWrite (s : State) (a : Nat) (wide : Bool) (data : Nat) : RegWrite :=
  let q := a / 8 * 8
  let sh := 8 * (a - q)
  let m := if wide then 2 ^ 64 - 1 else (2 ^ 32 - 1) <<< sh
  { q := q, m := m, v := (s.words q 2 &&& ((2 ^ 64 - 1) ^^^ m)) ||| ((data <<< sh) &&& m) }

/-- Perform a write: plain fields by their access codes, then the fields with a behaviour of their own. -/
def State.performWrite (s : State) (w : RegWrite) (as : List Nat) : Res :=
  let own := w.own.filter fun x => x.1.any w.has
  let s := as.foldl (fun s a => s.writeWord a (bitsOf w.v (8 * (a - w.q)) 32) (w.ownMask own a)) s
  own.foldl (fun r x => andThen r x.2) (.next s)

/-- A write of `data` to the registers of one aligned word of 4 or, when `wide`, 8 bytes. A write of 1 to a reserved bit is the undefined case of R5. -/
def State.storeWord (s : State) (a : Nat) (wide : Bool) (data : BitVec 64) : Res :=
  let w := s.regWrite a wide data.toNat
  let as := wordsAt a wide
  faultIf (as.any fun x => decide (reservedBits x &&& bitsOf w.v (8 * (x - w.q)) 32 ≠ 0)) .reservedBit (s.performWrite w as)

/-- A write of one aligned word of 4 or, when `wide`, 8 bytes by `src` (R3, R5, R383); where no register lies, R384 holds. -/
def regStore (src : Fin 3) (a : Nat) (wide : Bool) (data : BitVec 64) (s : State) : Res := accessBlock a s fun s =>
  if (wordsAt a wide).all fun x => (regAt x).isNone then .next (s.unmapped a src) else s.storeWord a wide data

end Sys2Proof.Machine
end

