-- ==== Sys2Proof/Machine/Observe.lean ====
section
/-! DEFINITION. What software reads (R3, R383, R384), the clock outputs and the levels of the pins that the state gives. -/

namespace Sys2Proof.Machine

/-! ## Clock outputs (R335, R336) -/

/-- Frequency in Hz of a disciplined oscillator of nominal frequency `fnom`, from FCK at `fck` Hz (R336). -/
def State.oscillator (s : State) (fck fnom : Rat) : Rat := fck * (fnom / 2200000000) * s.get TMB_NT_INC.inc / s.get TMB_NT_INC_NOM.inc

/-- NDCO, the transmit clock of the optical lanes; SDCO, that of the JESD lanes; YCK, which the SyncE PLL makes of NCK. -/
def State.ndco (s : State) (fck : Rat) : Rat := s.oscillator fck 156250000
def State.sdco (s : State) (fck : Rat) : Rat := s.oscillator fck 983040000
def State.yck (s : State) (fck : Rat) : Rat := 8 * s.ndco fck

/-- The frequency at DCLK_OUTk (R336): SDCO / 2 divided by 2^div; none while it is disabled or FCK is undriven (R337). -/
def State.dclkOut (s : State) (fck : Rat) (k : Nat) : Option Rat :=
  if s.fck && (s.get CLK_CFG.dclk_en).testBit k then some (s.sdco fck / 2 / 2 ^ s.get CLK_CFG.div) else none

/-- The frequency at SYNCE_OUT (R336): YCK divided by 125, 50 or 8; none while it is off or FCK is undriven. -/
def State.synceOut (s : State) (fck : Rat) : Option Rat :=
  match s.fck, s.get CLK_CFG.synce_f with
  | true, 0 => some (s.yck fck / 125)
  | true, 1 => some (s.yck fck / 50)
  | true, 2 => some (s.yck fck / 8)
  | _, _ => none

/-! ## Other pins -/

/-- PPS_OUT is high (R406). -/
def State.ppsOutHigh (s : State) : Bool := s.tb.ppsHigh.isSome

/-- The M880 drives the CONJ line low (R46, R388). -/
def State.conjDrivenLow (s : State) : Bool := s.orr.conjLow

/-- GPIO pin `n` as the M880 drives it; none while it is an input (R385). -/
def State.gpioDriven (s : State) (n : Nat) : Option Bool :=
  if (s.get SYS_GPIO_OE.pin).testBit n then some ((s.get SYS_GPIO_OUT.pin).testBit n) else none

/-- The octets of each lane of the frame that transmit link `k` packs now (R181, R184): of each of its streams the samples that cross the converter's
reference point JTX_LATk later (R347); none while the link is disabled. -/
def State.jtxFrame (s : State) (k : Fin 8) : List (List (BitVec 8)) :=
  let c := s.jesd true k
  let q := ((s.ntQuarters : Int) + s.jes.lat[8 + k.val] / 64).toNat
  let stream (v : Nat) : List (BitVec 32) :=
    (List.range (jf c 30 2 + 1)).map fun j =>
      match (List.finRange 64).find? fun ch : Fin 64 => (s.flag (DFE_TXc_CFG.en ch) || s.flag (DFE_TXc_CFG.en1 ch)) && s.get (DFE_TXc_CFG.conv ch) = v with
      | some ch => s.txSample ch (s.airOf (s.get (DFE_TXc_CFG.at ch)) q) j
      | none => 0
  if jf c 63 1 = 0 then [] else jesdPack (jf c 29 1 = 1) (jf c 44 4 + 1) (jf c 24 5 + 1) ((List.range (jf c 38 6 + 1)).map fun i => stream (jf c 32 6 + i))

/-! ## Reads (R3, R383, R384) -/

/-- The bit of TIL_MSTAT of the unit that a V-slot operation occupies: loader, array or readout (R99); none of the vector unit. -/
def unitBit : Instr → Option Nat
  | .mld _ _ | .mls _ _ | .mzp _ _ | .mrt _ _ => some 8
  | .mma _ _ | .mmac _ _ => some 9
  | .mrd _ _ => some 10
  | _ => none

/-- TIL_MSTAT of a tile: the formats of its accumulator banks, and the unit that the operation at the head of its queue occupies. -/
def Tile.mstat (x : Tile) : Nat :=
  let busy := match x.vq with
    | e :: _ => if e.left.isSome then ((unitBit e.op).map (2 ^ ·)).getD 0 else 0
    | [] => 0
  busy + (List.range 4).foldl (fun m i => m + (nthD x.ab.toList i MBank.reset).fmt.toNat * 2 ^ (16 + 4 * i)) 0

/-- The bits of a register word that state elsewhere than in the word gives: their mask and value. -/
def State.derived (s : State) (a : Nat) : Nat × Nat :=
  let half (v : Nat) : Nat × Nat := (2 ^ 32 - 1, bitsOf v (8 * (a % 8)) 32)
  let q := a / 8 * 8
  let t : Fin 64 := Fin.ofNat 64 ((a - TIL_CTL.reg 0) / 0x10000)
  if q = TMB_MONO.reg then half s.mono.toNat
  else if q = ACX_MTIME.reg then half s.mtime
  else if ACX_APLIC.reg 0 0 ≤ a ∧ a < ACX_MSIP.reg 0 then
    (2 ^ 32 - 1, s.aplicRead (Fin.ofNat 2 ((a - ACX_APLIC.reg 0 0) / 0x10000)) ((a - ACX_APLIC.reg 0 0) % 0x10000 / 4))
  else if a = INT_SUMSTAT.reg then half s.sumstat
  else if a = INT_PINSTAT.reg then half (s.intLow.toNat * 2 ^ (8 * (a % 8)))
  else if GCAUSE_x.reg 0 ≤ a ∧ a < GCAUSE_x.reg 23 ∧ (a - GCAUSE_x.reg 0) % 16 < 8 then half (s.gcause ((a - GCAUSE_x.reg 0) / 16))
  else if a = FH_CAUSE.reg then (2 ^ 9, s.fhLowWater.toNat * 2 ^ 9)
  else if blockOf a = some 64 ∧ (a = TIL_EVF.reg t ∨ a = TIL_EVS.reg t) then (2 ^ 32 - 1, (s.tiles[t]).evf.toNat)
  else if blockOf a = some 64 ∧ a = TIL_MSTAT.reg t then (2 ^ 32 - 1, (s.tiles[t]).mstat)
  else if CTX_STATn.reg 0 ≤ a ∧ a < CTX_STATn.reg 256 ∧ a % 8 = 0 then
    (2 ^ 5, (s.blocked (Fin.ofNat 256 ((a - CTX_STATn.reg 0) / 8))).toNat * 2 ^ 5)
  else if PWR_DOMd.reg 0 ≤ a ∧ a < PWR_DOMd.reg 96 ∧ a % 8 = 0 then
    (12, (nthD s.pwr.dom.toList ((a - PWR_DOMd.reg 0) / 8) 0).toNat * 4)
  else (0, 0)

/-- What a read of the register word at `a` returns: stored or derived bits; WO and RSV bits read 0, as does a word in a group in reset or one
where no register lies. -/
def State.readWord (s : State) (a : Nat) : BitVec 32 :=
  match regAt a with
  | none => 0
  | some (l, o) =>
    let group : Nat := match blockOf a with
      | some 14 | some 15 | some 16 => 2
      | some 17 | some 18 | some 19 => 3
      | some 12 | some 13 | some 20 => 4
      | some 21 => 5
      | some 2 | some 3 | some 4 | some 5 | some 6 => 0
      | _ => if a = SYS_STAT.reg then 0 else 1
    if s.held group then 0
    else
      let (m, v) := s.derived a
      let seen := l.mask o fun c => c = .ro || c = .rw || c = .w1c || c = .w1s
      BitVec.ofNat 32 ((((s.word a).toNat &&& ((2 ^ 32 - 1) ^^^ m)) ||| (v &&& m)) &&& seen)

/-- What a read of 4 or, when `wide`, 8 bytes returns. -/
def State.readReg (s : State) (a : Nat) (wide : Bool) : BitVec 64 :=
  BitVec.ofNat 64 ((s.readWord a).toNat + if wide then (s.readWord (a + 4)).toNat * 2 ^ 32 else 0)

end Sys2Proof.Machine
end

