-- ==== Sys2Proof/Machine/Access.lean ====
section
/-! DEFINITION. Accesses by software and from outside (R284, R350 to R352, R377, R380, R381, R384): what a hart, PCIe, JTAG or the I3C port reaches, and
what a read or write there does. -/

namespace Sys2Proof.Machine

/-! ## The map as a hart sees it (R350, R381) -/

/-- The kinds of range of the table of R350 and of R381. -/
inductive Space where
  | memory
  | unbacked
  | io
  | control
  | ecam
  | window
  | absent
  deriving DecidableEq, Repr

/-- The kind of range at a map address; the last two are there for a root port. -/
def State.spaceAt (s : State) (a : Nat) : Space :=
  match regionOf a with
  | .lpddr => .memory
  | .hole => .unbacked
  | .cluster _ | .spad _ | .spadHigh _ | .ue => .io
  | .other =>
    if 0x1800000000 ≤ a && a < 0x1810000000 then .control
    else if s.rootPort && 0x1900000000 ≤ a && a < 0x1910000000 then .ecam
    else if s.rootPort && 0x2000000000 ≤ a && a < 0x4000000000 then .window
    else .absent

/-- The table allows an access of `n` bytes at `a` (R350): any in backed LPDDR6, elsewhere aligned ones that are not atomic, to control registers of 4 or
8 bytes. -/
def Space.allows (k : Space) (a n : Nat) (atomic : Bool) : Bool :=
  match k with
  | .memory => a + n ≤ 0x0F00000000
  | .unbacked | .io | .ecam | .window => !atomic && a % n = 0
  | .control => !atomic && a % n = 0 && 4 ≤ n
  | .absent => false

/-! ## Reads of registers (R344, R384) -/

/-- The last read from outside returned `v`. -/
def State.answer (v : BitVec 64) (s : State) : State := { s with pcie := { s.pcie with answer := some v } }

/-- A read of claimi claims an interrupt. -/
def State.claimAt (s : State) (a : Nat) : State :=
  let o := a - ACX_APLIC.reg 0 0
  let i := o % 0x10000 / 4
  if ACX_APLIC.reg 0 0 ≤ a && a < ACX_MSIP.reg 0 && 0x1000 ≤ i && i % 8 = 7 then s.claim (Fin.ofNat 2 (o / 0x10000)) (Fin.ofNat 8 ((i - 0x1000) / 8))
  else s

/-- A read of one aligned word of 4 or, when `wide`, 8 bytes by `src`, whose value `give` delivers. A group that is held in reset, and an address where no
register lies, read 0. -/
def regLoad (src : Fin 3) (a : Nat) (wide : Bool) (give : BitVec 64 → State → State) (s : State) : Res :=
  if !s.fck then .next s
  else accessBlock a (give 0 s) fun s =>
    if (wordsAt a wide).all fun x => (regAt x).isNone then .next (s.unmapped a src)
    else .next ((give (s.readReg a wide) s).claimAt a)

/-! ## Harts (R348 to R351, R381) -/

/-- The value that a load gives a register: sign-extended where it is signed, in a floating-point register with ones above. -/
def loadValue (signed : Bool) (rd : Fin 64) (n v : Nat) : BitVec 64 :=
  if 32 ≤ rd.val then BitVec.ofNat 64 (v + (2 ^ 64 - 2 ^ (8 * n)))
  else if signed then BitVec.ofInt 64 (sCast (8 * n) v)
  else BitVec.ofNat 64 v

/-- The result of an atomic operation on `n` bytes that hold `old`. -/
def amoResult (f : AmoFun) (n old v : Nat) : Nat :=
  let w := 8 * n
  let v := v % 2 ^ w
  match f with
  | .swap => v
  | .add => (old + v) % 2 ^ w
  | .xor => old ^^^ v
  | .and => old &&& v
  | .or => old ||| v
  | .min => if sCast w old ≤ sCast w v then old else v
  | .max => if sCast w v ≤ sCast w old then old else v
  | .minu => min old v
  | .maxu => max old v

/-- Record a request of the root port. -/
def State.request (s : State) (r : PcieRequest) : State := { s with pcie := { s.pcie with out := some r } }

/-- The request of a hart's access to the ECAM range or the outbound window (R381). -/
def rootRequest (a : Nat) (size : Fin 4) (write : Option (BitVec 64)) : PcieRequest :=
  if a < 0x2000000000 then .config (bitsOf a 20 8) (bitsOf a 15 5) (bitsOf a 12 3) (bitsOf a 0 12) size write
  else .memory (decide (2 ^ 32 ≤ a - 0x2000000000)) (a - 0x2000000000) size write

/-- Hart `h` reads `n` bytes at map address `a`, which the table allows, and `give` delivers them. `data` is what a device behind the root port
answers, `failed` that the link completes the request with UR or CRS: a configuration request then reads ones, of another nothing says what it
reads. A read that no ACX position of the present slot takes has still to be made. -/
def hartRead (h : Fin 8) (instr : Bool) (a : Nat) (size : Fin 4) (data : BitVec 64) (failed : Bool) (give : BitVec 64 → State → State) (s : State) : Res :=
  let n := 2 ^ size.val
  match s.spaceAt a with
  | .memory => faultIf (!s.rangeOn a n) .poweredOff <|
    match s.readCached h instr a n with
    | some (bs, s) => .next (give (BitVec.ofNat 64 (natOfBytes bs)) s)
    | none => .next s
  | .unbacked | .io => faultIf (!s.rangeOn a n) .poweredOff <|
    let (bs, s) := s.sysRead a n
    .next (give (BitVec.ofNat 64 (natOfBytes bs)) s)
  | .control => regLoad 0 a (size = 3) give s
  | .ecam =>
    let v := if failed then BitVec.ofNat 64 (2 ^ (8 * n) - 1) else data
    .next (give (BitVec.ofNat 64 (v.toNat % 2 ^ (8 * n))) (s.request (rootRequest a size none)))
  | .window =>
    let (v, s) := if failed then s.draw 64 else (data, s)
    .next (give (BitVec.ofNat 64 (v.toNat % 2 ^ (8 * n))) (s.request (rootRequest a size none)))
  | .absent => .next s

/-- Hart `h` writes `n` bytes at map address `a`, which the table allows. -/
def hartWrite (h : Fin 8) (a : Nat) (size : Fin 4) (data : BitVec 64) (s : State) : Res :=
  let n := 2 ^ size.val
  let bs := bytesOf n data.toNat
  match s.spaceAt a with
  | .memory => faultIf (!s.rangeOn a n) .poweredOff (.next ((s.writeCached h a bs).getD s))
  | .unbacked | .io => faultIf (!s.rangeOn a n) .poweredOff (.next (s.sysWriteBy 7 a bs))
  | .control => regStore 0 a (size = 3) data s
  | .ecam | .window => .next (s.request (rootRequest a size (some data)))
  | .absent => .next s

/-- Hart `h` traps for an access to `va`. -/
def State.excepts (s : State) (h : Fin 8) (e : Exc) (p : Purpose) (va : Nat) : State :=
  s.withHart h fun c => c.excTrap e p va (if p = .fetch then c.mode else c.dataMode).virt

/-- An access of `n` bytes to `va` by hart `h`: `f` with its map address where translation, PMP and the table let it through, else the exception of
what it is for. -/
def throughMap (h : Fin 8) (p : Purpose) (va n : Nat) (atomic : Bool) (s : State) (f : Nat → State → Res) : Res :=
  match s.translate h p va n with
  | .error e => .next (s.excepts h e p va)
  | .ok a => if (s.spaceAt a).allows a n atomic then f a s else .next (s.excepts h .access p va)

/-- An atomic access whose address is not aligned is a misaligned one: 4 of a load-reserved, 6 of another. -/
def State.misaligned (s : State) (h : Fin 8) (cause va : Nat) : State := s.withHart h fun c => c.trap cause va 0 c.dataMode.virt

/-- An atomic operation: register `rd` takes the old value. -/
def hartAmo (h : Fin 8) (f : AmoFun) (rd : Fin 32) (va : Nat) (size : Fin 4) (data : BitVec 64) (s : State) : Res :=
  let n := 2 ^ size.val
  if va % n ≠ 0 then .next (s.misaligned h 6 va)
  else throughMap h .store va n true s fun a t => faultIf (!t.rangeOn a n) .poweredOff <|
    match t.readCached h false a n with
    | none => .next s
    | some (bs, u) =>
      let old := natOfBytes bs
      match u.writeCached h a (bytesOf n (amoResult f n old data.toNat)) with
      | none => .next s
      | some u => .next (u.withHart h fun c => c.setReg rd (BitVec.ofInt 64 (sCast (8 * n) old)))

/-- A load-reserved: a load that reserves the line. -/
def hartLr (h : Fin 8) (rd : Fin 32) (va : Nat) (size : Fin 4) (s : State) : Res :=
  let n := 2 ^ size.val
  if va % n ≠ 0 then .next (s.misaligned h 4 va)
  else throughMap h .load va n true s fun a s =>
    hartRead h false a size 0 false (fun v s => s.withHart h fun c => { c.setReg rd (BitVec.ofInt 64 (sCast (8 * n) v.toNat)) with lr := some (a / 64) }) s

/-- A store-conditional: a store where the hart still holds the line's reservation, and 0 in `rd`; else 1 there. The reservation ends. -/
def hartSc (h : Fin 8) (rd : Fin 32) (va : Nat) (size : Fin 4) (data : BitVec 64) (s : State) : Res :=
  let n := 2 ^ size.val
  if va % n ≠ 0 then .next (s.misaligned h 6 va)
  else throughMap h .store va n true s fun a s => faultIf (!s.rangeOn a n) .poweredOff <|
    if (s.hart h).lr = some (a / 64) then
      match s.writeCached h a (bytesOf n data.toNat) with
      | none => .next s
      | some t => .next (t.withHart h fun c => { c.setReg rd 0 with lr := none })
    else .next (s.withHart h fun c => { c.setReg rd 1 with lr := none })

/-- Field of `w` bits at `i` of the registers that grant a mode its cache-block operations: menvcfg, henvcfg, senvcfg, as far as they bear on it. -/
def Hart.envGrants (c : Hart) (i w : Nat) : List Nat :=
  let m := bitsOf (c.get 0x30A) i w
  let g := bitsOf (c.get 0x60A) i w
  let u := bitsOf (c.get 0x10A) i w
  match c.mode with
  | .m => []
  | .hs => [m]
  | .u => [m, u]
  | .vs => [m, g]
  | .vu => [m, g, u]

/-- A cache-block operation on the line of `va` (R351): an instruction that the mode is not granted is illegal; the line's address is checked as that of
a load or of a store; where nothing is cached only a zeroing fails. -/
def hartCbo (h : Fin 8) (i w : Nat) (va : Nat) (s : State) (f : Nat → List Nat → State → Res) : Res :=
  let c := s.hart h
  let grants := c.envGrants i w
  let va := va / 64 * 64
  if grants.contains 0 then .next (s.withHart h fun c => c.illegal (grants.headD 0 ≠ 0))
  else
    let pa : Except Exc Nat := match s.translate h .load va 64 with
      | .ok a => .ok a
      | .error _ => s.translate h .store va 64
    match pa with
    | .error e => .next (s.excepts h e .store va)
    | .ok a => if s.spaceAt a = .absent then .next (s.excepts h .access .store va) else f a grants s

/-- cbo.clean completes when the line has left for LPDDR6 (R351): until then the hart makes no access. -/
def State.cboClean (s : State) (h : Fin 8) (a : Nat) : State :=
  let s := s.cleanLine (a / 64)
  if s.leaving (a / 64) then s.withHart h fun c => { c with clean := some (a / 64) } else s

/-- cbo.flush: the line is cleaned, and no cache holds it any more but on its way. -/
def State.cboFlush (s : State) (h : Fin 8) (a : Nat) : State :=
  let s := s.cboClean h a
  let l := a / 64
  s.withAcx fun x => { x with l3 := withoutLine x.l3 l, hart := x.hart.map fun c => c.dropLine l }

/-- cbo.zero: the line holds zeros. -/
def State.cboZero (s : State) (h : Fin 8) (l : Nat) : State := (s.dropCopies (some h) l).toL2 h ⟨l, 0, true⟩

/-- The clean of a hart has not completed. -/
def State.hartWaits (s : State) (h : Fin 8) : Bool :=
  match (s.hart h).clean with
  | some l => s.leaving l
  | none => false

/-- What hart `h` asks, in program order (R351). A hart runs while it is neither parked nor absent and ACK is driven (R337, R356). -/
def hartAccess (h : Fin 8) (op : AccessOp) (addr : BitVec 64) (size : Fin 4) (data : BitVec 64) (s : State) : Res := inside 90 5 s fun s =>
  let va := addr.toNat
  let n := 2 ^ size.val
  if !s.ack || (s.get ACX_HPARK.park).testBit h || (s.get ACX_HPARK.absent).testBit h || s.hartWaits h then .next s
  else
    let s := s.withHart h fun c => { c with clean := none }
    let cached (s : State) (a : Nat) (f : State → Res) : Res := if s.spaceAt a = .memory then faultIf (!s.addrOn a) .poweredOff (f s) else .next s
    match op with
    | .load signed rd failed => throughMap h .load va n false s fun a s =>
      hartRead h false a size data failed (fun v s => s.withHart h fun c => c.setReg rd (loadValue signed rd n v.toNat)) s
    | .store => throughMap h .store va n false s fun a s => hartWrite h a size data s
    | .fetch =>
      let s := s.withHart h fun c => { c with pc := addr }
      throughMap h .fetch va n false s fun a s => hartRead h true a size data false (fun _ s => s) s
    | .amo f rd => hartAmo h f rd va size data s
    | .lr rd => hartLr h rd va size s
    | .sc rd => hartSc h rd va size data s
    | .cboClean => hartCbo h 6 1 va s fun a _ s => cached s a fun s => .next (s.cboClean h a)
    | .cboFlush => hartCbo h 6 1 va s fun a _ s => cached s a fun s => .next (s.cboFlush h a)
    | .cboInval => hartCbo h 4 2 va s fun a grants s => cached s a fun s =>
      .next (if grants.contains 1 then s.cboFlush h a else s.dropCopies none (a / 64))
    | .cboZero => hartCbo h 7 1 va s fun a _ s =>
      if s.spaceAt a = .memory then cached s a fun s => .next (s.cboZero h (a / 64)) else .next (s.excepts h .access .store (va / 64 * 64))
    | .fence => .next s
    | .csr num write rd => .next (s.csrOp h num.toNat write rd data)
    | .mret => .next (s.withHart h Hart.mret)
    | .sret => .next (s.withHart h Hart.sret)

/-! ## PCIe, JTAG and I3C (R284, R352, R377) -/

/-- The map address that an offset in a BAR names (R284). -/
def State.barAddr (s : State) (bar2 : Bool) (off : Nat) : Nat :=
  let size := s.get PCIE_CFG.size
  let size := if 20 ≤ size && size ≤ 36 then size else 20
  if bar2 then (s.get PCIE_CFG.base * 2 ^ 20 + off % 2 ^ size) % 2 ^ 40 else 0x1800000000 + off % 2 ^ 28

/-- The endpoint serves the host: its port is on, out of reset and not held by PCIE_PERST_N (R377, R396). -/
def State.endpointServes (s : State) : Bool := !s.rootPort && !s.pwr.perstLow && s.domOn 91 && !s.held 5

/-- A read of memory from outside, past the caches, which returns its bytes. -/
def State.outsideRead (s : State) (a n : Nat) : State :=
  let (bs, s) := s.sysRead a n
  s.answer (BitVec.ofNat 64 (natOfBytes bs))

/-- Inbound traffic through a BAR (R284): LPDDR6 in ACX positions, other memory through the crossbars, and control registers at the end of the ck, after
the harts' accesses (R352). Where nothing lies a read returns a free value. -/
def barAccess (bar2 : Bool) (off : Nat) (size : Fin 4) (write : Option (BitVec 64)) (s : State) : Res :=
  let a := s.barAddr bar2 off
  let n := 2 ^ size.val
  match s.spaceAt a, write with
  | .memory, none => faultIf (!s.rangeOn a n) .poweredOff (.next (((s.acxPosition 0 a).map fun s => s.outsideRead a n).getD s))
  | .memory, some v => faultIf (!s.rangeOn a n) .poweredOff (.next ((s.snoopWrite a (bytesOf n v.toNat)).getD s))
  | .unbacked, none | .io, none => faultIf (!s.rangeOn a n) .poweredOff (.next (s.outsideRead a n))
  | .unbacked, some v | .io, some v => faultIf (!s.rangeOn a n) .poweredOff (.next (s.sysWriteBy 7 a (bytesOf n v.toNat)))
  | .control, _ =>
    if 4 ≤ n && a % n = 0 then .next { s with pcie := { s.pcie with late := s.pcie.late ++ [⟨1, a, size, write⟩] } }
    else .next s
  | _, none =>
    let (v, s) := s.draw 64
    .next (s.answer v)
  | _, some _ => .next s

/-- The PCIe register accesses of the ck that ends (R352). -/
def State.lateTick (s : State) : Res :=
  s.pcie.late.foldl (fun r x => andThen r fun s => match x.write with
    | some v => regStore x.src x.addr (x.size = 3) v s
    | none => regLoad x.src x.addr (x.size = 3) State.answer s) (.next { s with pcie := { s.pcie with late := [] } })

/-- An access of JTAG by map address. -/
def jtagAccess (a : Nat) (size : Fin 4) (write : Option (BitVec 64)) (s : State) : Res :=
  let n := 2 ^ size.val
  if !s.domOn 81 then .fault .poweredOff
  else match s.spaceAt a, write with
    | .control, none => if 4 ≤ n && a % n = 0 then regLoad 2 a (size = 3) State.answer s else .next s
    | .control, some v => if 4 ≤ n && a % n = 0 then regStore 2 a (size = 3) v s else .next s
    | .memory, none | .unbacked, none | .io, none =>
      reached 6 s fun s => faultIf (!s.rangeOn a n) .poweredOff (.next (s.outsideRead a n))
    | .memory, some v | .unbacked, some v | .io, some v =>
      reached 6 s fun s => faultIf (!s.rangeOn a n) .poweredOff (.next (s.sysWriteBy 7 a (bytesOf n v.toNat)))
    | _, _ => .next s

/-- An access through the I3C port of the power manager (R377), which answers from step 1 of sequencing on: the PWR block. -/
def i3cAccess (a : Nat) (size : Fin 4) (write : Option (BitVec 64)) (s : State) : Res :=
  if s.pwr.step = 0 || !s.domOn 80 || blockOf a ≠ some 2 || size.val < 2 || a % 2 ^ size.val ≠ 0 then .next s
  else match write with
    | some v => s.storeWord a (size = 3) v
    | none => .next (s.answer (s.readReg a (size = 3)))

/-- A byte of the endpoint's configuration space. -/
def State.configByte (s : State) (o : Nat) : BitVec 8 := s.pcie.cfg.read Config.pcieConfig o

/-- A configuration request of the host. -/
def configAccess (o : Nat) (size : Fin 4) (write : Option (BitVec 64)) (s : State) : Res :=
  let n := 2 ^ size.val
  match write with
  | none => .next (s.answer (BitVec.ofNat 64 (natOfBytes ((List.range n).map fun i => s.configByte (o + i)))))
  | some v =>
    let cfg := ((List.range n).zip (bytesOf n v.toNat)).foldl (fun m p => m.insert ((o + p.1) % 4096) p.2) s.pcie.cfg
    .next { s with pcie := { s.pcie with cfg := cfg } }

/-- An access of the host to the table of the 64 MSI-X vectors (R284), 16 bytes for each. -/
def msixAccess (o : Nat) (size : Fin 4) (write : Option (BitVec 64)) (s : State) : Res :=
  let n := 2 ^ size.val
  let i := o / 16 % 64
  let old := (nthD s.pcie.msix.toList i 0).toNat
  match write with
  | none => .next (s.answer (BitVec.ofNat 64 (bitsOf old (8 * (o % 16)) (8 * n))))
  | some v =>
    .next { s with pcie := { s.pcie with msix := s.pcie.msix.setIfInBounds i (BitVec.ofNat 128 (setBitsOf old (8 * (o % 16)) (8 * n) v.toNat)) } }

/-! ## The commands -/

/-- An access from outside the harts: a load or a store; nothing else comes from there. -/
def outsideAccess (op : AccessOp) (data : BitVec 64) (s : State) (f : Option (BitVec 64) → State → Res) : Res :=
  match op with
  | .load _ _ _ => f none s
  | .store => f (some data) s
  | _ => .next s

/-- What `src` asks of an address. -/
def softAccess (src : Requester) (op : AccessOp) (addr : BitVec 64) (size : Fin 4) (data : BitVec 64) (s : State) : Res :=
  let served (f : Option (BitVec 64) → State → Res) : Res := if s.endpointServes then outsideAccess op data s f else .next s
  match src with
  | .hart h => hartAccess h op addr size data s
  | .bar0 => served fun w s => reached 5 s (barAccess false addr.toNat size w)
  | .bar2 => served fun w s => reached 5 s (barAccess true addr.toNat size w)
  | .config => served fun w s => configAccess addr.toNat size w s
  | .msix => served fun w s => msixAccess addr.toNat size w s
  | .msi v => if s.rootPort && s.domOn 90 && s.domOn 91 && !s.held 5 then .next (s.msiEdge v) else .next s
  | .jtag => outsideAccess op data s fun w s => jtagAccess addr.toNat size w s
  | .i3c => outsideAccess op data s fun w s => i3cAccess addr.toNat size w s

/-- REGISTER_WRITE (R3, R5, R350, R352, R383): a store of 2^`size` bytes, which writes the registers where they lie. -/
def execRegisterWrite (tgt : Target) (size : Fin 4) (data : BitVec 64) (s : State) : Res := softAccess tgt.src .store tgt.addr size data s

/-- UNMAPPED_ACCESS (R350, R351, R380, R381, R384): any access, of which one to a control block where no register lies reads 0, has no effect and is recorded. -/
def execUnmappedAccess (tgt : Target) (what : Asked) (s : State) : Res := softAccess tgt.src what.op tgt.addr what.size what.data s

end Sys2Proof.Machine
end

