-- ==== Sys2Proof/Machine/Dsp.lean ====
section
/-! DEFINITION. The D slot: the parallel moves, the P-bus operand and the accumulator operations (R55, R56). -/

namespace Sys2Proof.Machine

/-- The pointers that a D slot post-modifies (R55): p7 with src3, and the pointer of each move with u. -/
def dslotPointers (f : DSlot) : List (Fin 16) :=
  let mv (base : Nat) : Move → List (Fin 16)
    | .none => []
    | .load _ p _ u => if u then [Fin.ofNat 16 (base + p.val)] else []
    | .store _ p _ u => if u then [Fin.ofNat 16 (base + p.val)] else []
  (if f.src3 then [7] else []) ++ mv 0 f.x ++ mv 8 f.y

/-- One move through a pointer of the X (base 0) or Y (base 8) bus (R55); none when a read faulted the tile. -/
def doMove (t : Fin 64) (base : Nat) (mv : Move) (s : State) : Bool × State :=
  match mv with
  | .none => (true, s)
  | .load r p m u =>
    let q : Fin 16 := Fin.ofNat 16 (base + p.val)
    match s.coreRead t ((s.tile t).addrOf q 2) 2 with
    | (some v, s) =>
      (true, s.withTile t fun x =>
        let x := x.later 3 r v
        if u then x.addPmod q x.m[m.val].toInt else x)
    | (none, s) => (false, s)
  | .store r p m u =>
    let q : Fin 16 := Fin.ofNat 16 (base + p.val)
    let x := s.tile t
    let s := s.coreSetLe t (spad t (x.addrOf q 2)) 4 (x.sreg r).toNat
    (true, s.withTile t fun x => if u then x.addPmod q x.m[m.val].toInt else x)

/-- The P-bus read of src3 (R55): the word at p7 as it stood before the bundle's store (R64), with p7 post-modified by m7. -/
def pRead (t : Fin 64) (s : State) : Option (BitVec 32) × State :=
  let x := s.tile t
  let a := x.addrOf 7 2
  match s.coreRead t a 2 with
  | (some v, s) =>
    let v := match x.sOld with
      | some (w, old) => if w = a then old else v
      | none => v
    (some v, s.withTile t fun x => x.addPmod 7 x.m[7].toInt)
  | (none, s) => (none, s)

/-- The frame of a D-slot command: the undefined case of R69; the P-bus operand; the moves; then the operation `g` on a, b and c
(c equals b without src3). -/
def dSlot (t : Fin 64) (f : DSlot) (s : State) (g : Tile → BitVec 32 → BitVec 32 → BitVec 32 → Tile) : Res :=
  slotOf t s fun s =>
    let x := s.tile t
    faultIf ((dslotPointers f).any x.circZero) .circularZero <|
      let b := x.sreg f.sb
      let (c, s) := if f.src3 then pRead t s else (some b, s)
      match c with
      | none => .next s
      | some c =>
        match doMove t 0 f.x s with
        | (false, s) => .next s
        | (true, s) =>
          match doMove t 8 f.y s with
          | (false, s) => .next s
          | (true, s) => .next (s.withTile t fun y => g y (x.sreg f.sa) b c)

/-- Accumulator `d` as a later accumulating operation sees it (R60). -/
def Tile.accI (x : Tile) (d : Fin 8) : Int := x.acc[d.val].toInt

/-- DNOP (R56): the moves and the P-bus read still take place. -/
def execDnop (t : Fin 64) (f : DSlot) (s : State) : Res := dSlot t f s fun x _ _ _ => x
/-- MAC (R56). -/
def execMac (t : Fin 64) (f : DSlot) (s : State) : Res :=
  dSlot t f s fun x a _ c => x.setAcc f.d (x.accI f.d + a.toInt * c.toInt)
/-- MSU (R56). -/
def execMsu (t : Fin 64) (f : DSlot) (s : State) : Res :=
  dSlot t f s fun x a _ c => x.setAcc f.d (x.accI f.d - a.toInt * c.toInt)
/-- MPY (R56). -/
def execMpy (t : Fin 64) (f : DSlot) (s : State) : Res := dSlot t f s fun x a _ c => x.setAcc f.d (a.toInt * c.toInt)
/-- MACP: (a + b) × c, the sum exact (R56). -/
def execMacp (t : Fin 64) (f : DSlot) (s : State) : Res :=
  dSlot t f s fun x a b c => x.setAcc f.d (x.accI f.d + (a.toInt + b.toInt) * c.toInt)

/-- The low and high signed halfwords of a word. -/
def half16 (a : BitVec 32) : Int × Int := ((a.extractLsb' 0 16).toInt, (a.extractLsb' 16 16).toInt)

/-- MAC16 (R56). -/
def execMac16 (t : Fin 64) (f : DSlot) (s : State) : Res :=
  dSlot t f s fun x a _ c =>
    let (a0, a1) := half16 a
    let (c0, c1) := half16 c
    x.setAcc f.d (x.accI f.d + a0 * c0 + a1 * c1)

/-- Accumulate a complex product into the pair acc_(d−d[0]), acc_(d−d[0]+1) (R56). -/
def Tile.accPair (x : Tile) (d : Fin 8) (re im : Int) : Tile :=
  let d0 : Fin 8 := Fin.ofNat 8 (d.val - d.val % 2)
  let d1 : Fin 8 := Fin.ofNat 8 (d.val - d.val % 2 + 1)
  (x.setAcc d0 (x.accI d0 + re)).setAcc d1 (x.accI d1 + im)

/-- CMAC (R56): real part in bits [15:0], imaginary part in [31:16]. -/
def execCmac (t : Fin 64) (f : DSlot) (s : State) : Res :=
  dSlot t f s fun x a _ c =>
    let (ar, ai) := half16 a
    let (cr, ci) := half16 c
    x.accPair f.d (ar * cr - ai * ci) (ar * ci + ai * cr)
/-- CMACJ: a × conj(c) (R56). -/
def execCmacj (t : Fin 64) (f : DSlot) (s : State) : Res :=
  dSlot t f s fun x a _ c =>
    let (ar, ai) := half16 a
    let (cr, ci) := half16 c
    x.accPair f.d (ar * cr + ai * ci) (ai * cr - ar * ci)
/-- ACLR (R56). -/
def execAclr (t : Fin 64) (f : DSlot) (s : State) : Res := dSlot t f s fun x _ _ _ => x.setAcc f.d 0
/-- ASR by min(b, 79), b unsigned (R56). -/
def execAsr (t : Fin 64) (f : DSlot) (s : State) : Res :=
  dSlot t f s fun x _ b _ => x.setAcc f.d (x.accI f.d / (2 ^ min b.toNat 79 : Nat))

/-- Round and saturate an accumulator into scalar register `r`, seen 6 issue slots later (R56, R60); a saturation sets CST.sat. -/
def Tile.readAcc (x : Tile) (f : DSlot) (lo hi : Int) : Tile :=
  let q := rne ((x.accView[f.d.val].toInt : Rat) / ((2 ^ f.sb.val : Nat) : Rat))
  let v := Machine.sat q lo hi
  { x.later 6 f.sa (BitVec.ofInt 32 v) with sat := x.sat || v ≠ q }

/-- MVA (R56). -/
def execMva (t : Fin 64) (f : DSlot) (s : State) : Res :=
  dSlot t f s fun x _ _ _ => x.readAcc f (-(2 ^ 31)) (2 ^ 31 - 1)
/-- MVAH (R56). -/
def execMvah (t : Fin 64) (f : DSlot) (s : State) : Res := dSlot t f s fun x _ _ _ => x.readAcc f (-32768) 32767
/-- MVS: acc_d = a × 2^sh (R56). -/
def execMvs (t : Fin 64) (f : DSlot) (s : State) : Res :=
  dSlot t f s fun x a _ _ => x.setAcc f.d (a.toInt * (2 ^ f.sb.val : Nat))
/-- ADDA: acc_d + a × 2^sh (R56). -/
def execAdda (t : Fin 64) (f : DSlot) (s : State) : Res :=
  dSlot t f s fun x a _ _ => x.setAcc f.d (x.accI f.d + a.toInt * (2 ^ f.sb.val : Nat))

end Sys2Proof.Machine
end

