-- ==== Sys2Proof/Machine/Egress.lean ====
section
/-! DEFINITION. Egress: transmit rings, one-step timestamps, U-plane building and completions (chapter 11, R37, R161, R273 to R275). -/

namespace Sys2Proof.Machine

/-! ## Transmit rings (R273, R274) -/

/-- Bits of a transmit descriptor: byte, low bit, width. -/
def td (d : BitVec 512) (b lo w : Nat) : Nat := bitsOf d.toNat (8 * b + lo) w

def tAddr (d : BitVec 512) : Nat := td d 0 0 40
def tLen (d : BitVec 512) : Nat := td d 8 0 16
def tKind (d : BitVec 512) : Nat := td d 10 0 2
def tTimed (d : BitVec 512) : Bool := td d 10 2 1 = 1
def tOnestep (d : BitVec 512) : Bool := td d 10 3 1 = 1
def tEncap (d : BitVec 512) : Nat := td d 10 4 2
def tPtp (d : BitVec 512) : Nat := 2 * td d 11 0 8
def tAt (d : BitVec 512) : Nat := td d 12 0 3
def tStr (d : BitVec 512) : Nat := td d 13 0 8
def tSprb (d : BitVec 512) : Nat := td d 14 0 16
def tLaunch (d : BitVec 512) : Nat := td d 16 0 33 % Config.airWrap
def tTsym (d : BitVec 512) : Nat := td d 24 0 33 % Config.airWrap
def tSecid (d : BitVec 512) : Nat := td d 32 0 12

/-- Replace ring `k` of port `p`. -/
def State.withTx (s : State) (p : Fin 32) (k : Fin 4) (f : TxRing → TxRing) : State :=
  let x := s.opt.port[p.val]
  { s with opt := { s.opt with port := s.opt.port.set p.val { x with ring := x.ring.set k.val (f x.ring[k.val]) } } }

/-- Ring `k` of port `p`. -/
def State.tx (s : State) (p : Fin 32) (k : Fin 4) : TxRing := s.opt.port[p.val].ring[k.val]

/-- Header address of a transmit ring. -/
def State.txBase (s : State) (p : Fin 32) (k : Fin 4) : Nat := 64 * s.get (OPT_Pp_TXRk.addr p k)

/-- cons of a transmit ring, as the M880 has written it last (R272: cons is the M880's word). -/
def State.txCons (s : State) (p : Fin 32) (k : Fin 4) : BitVec 32 := BitVec.ofNat 32 (s.le (s.txBase p k + 4) 4)

/-- Address of the descriptor at the head of a transmit ring. -/
def State.txHead (s : State) (p : Fin 32) (k : Fin 4) : Nat :=
  s.txBase p k + 64 + 64 * ((s.txCons p k).toNat % 2 ^ ringLog (s.get (OPT_Pp_TXRk.log2size p k)))

/-- Prefetch the head of a ring that holds descriptors (R273). -/
def State.txPrefetch (s : State) (p : Fin 32) (k : Fin 4) : State :=
  if (s.tx p k).head.isSome || (s.tx p k).prod = s.txCons p k then s
  else
    let (bs, s') := s.sysRead (s.txHead p k) 64
    s'.withTx p k fun x => { x with head := some (BitVec.ofNat 512 (natOfBytes bs)) }

/-- The memory of a ring is on. -/
def State.txOn (s : State) (p : Fin 32) (k : Fin 4) : Bool := s.rangeOn (s.txBase p k) (64 + 64 * 2 ^ ringLog (s.get (OPT_Pp_TXRk.log2size p k)))

/-- TX_RING_POLL (R273): prod is read at TMB_MONO mod 2,048 = 64 (4i + k), and the head prefetched. -/
def execTxRingPoll (p : Fin 32) (k : Fin 4) (s : State) : Res := inside (portUnitOf p) 4 s fun s =>
  if !s.flag (OPT_Pp_TXRk.en p k) || s.mono.toNat % 2048 ≠ 64 * (4 * (p.val % 8) + k.val) then .next s
  else faultIf (!s.txOn p k) .poweredOff <|
    let (bs, s) := s.sysRead (s.txBase p k) 8
    .next ((s.withTx p k fun x => { x with prod := BitVec.ofNat 32 (natOfBytes (bs.take 4)) }).txPrefetch p k)

/-- End the head of a ring: its status byte, cons + 1, the next head. -/
def State.txEnd (s : State) (p : Fin 32) (k : Fin 4) (status : Nat) : State :=
  let s := s.sysWrite (s.txHead p k + 48) (bytesOf 1 status)
  let s := s.sysWrite (s.txBase p k + 4) (bytesOf 4 (s.txCons p k + 1).toNat)
  (s.withTx p k fun x => { x with head := none }).txPrefetch p k

/-- A head that is skipped with status.bad (R274, R275; log entry 25 for reserved values beside the kind). -/
def State.txBad (s : State) (d : BitVec 512) : Bool :=
  let m := tStr d
  let w := s.get (OPT_ESm_CFG.width m)
  tKind d > 1 || td d 10 6 2 ≠ 0 || td d 34 0 112 ≠ 0 ||
    (tKind d = 0 && (tLen d < 60 || tLen d > 9212 || tEncap d = 3)) ||
    (tKind d = 1 && (!s.flag (OPT_ESm_CFG.en m) || tLen d = 0 || tLen d > 273 || s.get (OPT_ESm_CFG.meth m) > 4
      || !widthOk (s.get (OPT_ESm_CFG.meth m)) (if w = 0 then 16 else w)))

/-- A timed head that is late (R274). -/
def State.txLate (s : State) (p : Fin 32) (d : BitVec 512) : Bool :=
  tTimed d && airLater (s.atNow (tAt d)) (airAdd (tLaunch d) (s.get (OPT_Pp_TXCFG.late p)))

/-- Skip the heads of a ring that are bad or late (R274); `n` bounds them. -/
def State.txSkip (p : Fin 32) (k : Fin 4) : Nat → State → State
  | 0, s => s
  | n + 1, s =>
    match (s.tx p k).head with
    | none => s
    | some d =>
      if s.txBad d then State.txSkip p k n (s.txEnd p k 4)
      else if s.txLate p d then
        State.txSkip p k n (((s.txEnd p k 2).countUp (OPT_Pp_CNT.drop p) 1).raise OPT_CAUSE.txlate)
      else s

/-- The ring whose head the port sends at a frame boundary, its start crossing the reference plane at `q` quarters (R273). -/
def State.txPick (s : State) (p : Fin 32) (q : Nat) : Option (Fin 4 × BitVec 512) :=
  ([3, 2, 1, 0] : List (Fin 4)).findSome? fun k =>
    match (s.tx p k).head with
    | some d => if s.flag (OPT_Pp_TXRk.en p k) && (!tTimed d || !airLater (tLaunch d) (s.airOf (tAt d) q)) then some (k, d) else none
    | none => none

/-- Departure time of a frame that leaves the PCS of port `p` then (R36, R37, R278). -/
def State.depart (s : State) (p : Fin 32) (sec : BitVec 48) (qns : Nat) : Nat := lessLatency sec qns (-(s.cal (367 + s.portLane p)))

/-- Begin a frame: its bytes and its FCS, computed after any one-step insertion (R37). -/
def State.txSend (s : State) (p : Fin 32) (k : Option (Fin 4)) (data : List (BitVec 8)) (q : Nat) : State :=
  let x := s.opt.port[p.val]
  let x := { x with sending := some ⟨k, data ++ bytesOf 4 (crc32 data).toNat, BitVec.ofNat 48 (qSec q), qBelow q⟩, resp := if k.isNone then x.resp.drop 1 else x.resp }
  { s with opt := { s.opt with port := s.opt.port.set p.val x } }

/-- A frame boundary of port `p` (R273, R274): bad and late heads are skipped, then `f` has the choice: a waiting response, or a ring's head. -/
def txBoundary (p : Fin 32) (sec : BitVec 48) (qns : Nat) (s : State)
    (f : State → Nat → List (BitVec 8) ⊕ Fin 4 × BitVec 512 → Res) : Res := inside (portUnitOf p) 4 s fun s =>
  if !s.ethUp p || s.opt.port[p.val].sending.isSome then .next s
  else faultIf ((List.finRange 4).any fun k => s.flag (OPT_Pp_TXRk.en p k) && (s.tx p k).head.isSome && !s.txOn p k) .poweredOff <|
    let s := ([3, 2, 1, 0] : List (Fin 4)).foldl (fun s k => if s.flag (OPT_Pp_TXRk.en p k) then State.txSkip p k 4096 s else s) s
    let q := s.depart p sec qns
    match s.opt.port[p.val].resp with
    | r :: _ => f s q (.inl r)
    | [] => match s.txPick p q with
      | some x => f s q (.inr x)
      | none => .next s

/-! ## One-step timestamps (R37) -/

/-- Replace bytes at offset `o`, within the string. -/
def patch (bs : List (BitVec 8)) (o : Nat) (new : List (BitVec 8)) : List (BitVec 8) :=
  bs.zipIdx.map fun (b, i) => if o ≤ i && i < o + new.length then nthD new (i - o) b else b

/-- Sum of the 16-bit words of two ranges, modulo 65,535. -/
def wordSum (bs : List (BitVec 8)) (rs : List (Nat × Nat)) : Nat :=
  (rs.flatMap fun (o, n) => (List.range (n / 2)).map fun i => beAt bs (o + 2 * i) 2).sum % 65535

/-- One-step insertion (R37) into a frame that departs at `q` quarters: originTimestamp, correctionField, then the UDP checksum; the FCS follows in
`State.txSend`. -/
def oneStep (udp encap o q : Nat) (bs : List (BitVec 8)) : List (BitVec 8) :=
  let cf := (sCast 64 (beAt bs (o + 8) 8)) + (q % 4 * 0x4000 : Nat)
  let cf := if cf > 0x7FFFFFFFFFFFFFFF then 0x7FFFFFFFFFFFFFFF else cf
  let new := patch (patch bs (o + 34) (bytesBE 6 (qSec q) ++ bytesBE 4 (qBelow q / 4))) (o + 8) (bytesBE 8 (uCast 64 cf))
  let rs := [(o + 8, 8), (o + 34, 10)]
  let delta := (wordSum new rs + 65535 - wordSum bs rs) % 65535
  if encap = 0 then new
  else if udp = 1 && encap = 1 then patch new (o - 2) [0, 0]
  else if udp = 2 && encap = 2 then
    let c := o + beAt bs (o + 2) 2
    patch new c (bytesBE 2 ((beAt bs c 2 + 65535 - delta) % 65535))
  else patch new (o - 2) (bytesBE 2 (65535 - (65535 - beAt bs (o - 2) 2 + delta) % 65535))

/-- FRAME_TRANSMIT (R273, R274, R277, R278): at a frame boundary of port `p`, whose frame would leave the PCS then, a waiting response or a
kind 0 head begins, with one-step insertion where it asks for it. -/
def execFrameTransmit (p : Fin 32) (sec : BitVec 48) (qns : Fin 4000000000) (s : State) : Res :=
  txBoundary p sec qns s fun s q c => match c with
    | .inl r => .next (s.txSend p none r q)
    | .inr (k, d) =>
      if tKind d ≠ 0 then .next s
      else faultIf (!s.rangeOn (tAddr d) (tLen d)) .poweredOff <|
        let (bs, s) := s.sysRead (tAddr d) (tLen d)
        .next (s.txSend p (some k) (if tOnestep d then oneStep (s.get TMB_OS_CTL.udp) (tEncap d) (tPtp d) q bs else bs) q)

/-! ## U-plane building (R161, R275) -/

/-- The magnitude of µ-law code `u` of `w` bits (R157). -/
def muValue (w u : Nat) : Rat :=
  let big := 2 ^ (w - 4)
  (((big + u % big) * 2 ^ (u / big) : Nat) : Rat) - (big : Rat)

/-- Nearest µ-law magnitude code of `w` bits, ties to the even one. -/
def muNearest (w : Nat) (y : Rat) : Nat :=
  let dist (u : Nat) : Rat := if muValue w u ≤ y then y - muValue w u else muValue w u - y
  (List.range (2 ^ (w - 1))).foldl (fun a u => if dist u < dist a || (dist u = dist a && u % 2 = 0 && a % 2 = 1) then u else a) 0

/-- Nearest two's complement code of `w` bits of a value in code steps. -/
def nearCode (w : Nat) (y : Rat) : Nat := uCast w (sat (rne y) (-((2 ^ (w - 1) : Nat) : Int)) (((2 ^ (w - 1) : Nat) : Int) - 1))

/-- Every component fits in `w` bits at exponent `e` (R161). -/
def bfpFits (w e : Nat) (xs : List Int) : Bool :=
  xs.all fun x =>
    let r := rne ((x : Rat) / ((2 ^ e : Nat) : Rat))
    decide (-((2 ^ (w - 1) : Nat) : Int) ≤ r) && decide (r < ((2 ^ (w - 1) : Nat) : Int))

/-- udCompParam of a PRB (R161). -/
def prbParam (meth w : Nat) (zs : List CInt) : Nat :=
  match meth with
  | 1 => ((List.range 16).find? fun e => bfpFits w e (components zs)).getD 15
  | _ => (Config.egressParam meth w (zs.flatMap CInt.bytes)).toNat

/-- A component in code steps; for µ-law its magnitude. -/
def prbSteps (meth w par scale csf : Nat) (x : Int) : Rat :=
  match meth with
  | 0 => (x : Rat) / pow2 (16 - w)
  | 1 => (x : Rat) / ((2 ^ par : Nat) : Rat)
  | 2 => (x : Rat) * 128 / (pow2 (16 - w) * par)
  | 3 => (x.natAbs : Rat) / ((2 ^ (par % 16) : Nat) : Rat)
  | _ => ((x : Rat) * ((2 ^ w : Nat) : Rat) / scale - csf) / 2

/-- Encode a PRB (R161). -/
def prbEnc (meth w scale csf : Nat) (zs : List CInt) : List (BitVec 8) :=
  let par := prbParam meth w zs
  let code (x : Int) : Nat :=
    let y := prbSteps meth w par scale csf x
    if meth = 3 then (if x < 0 then 2 ^ (w - 1) else 0) + muNearest w y else nearCode w y
  let n := (components zs).foldl (fun a x => a * 2 ^ w + code x) 0
  (if hasParam meth then bytesBE 1 par else []) ++ bytesBE (3 * w) n

/-- Components of a PRB that lie beyond the largest code and are counted (R161): their nearest code step, or in µ-law their magnitude, exceeds it. -/
def prbSat (meth w scale csf : Nat) (zs : List CInt) : Nat :=
  let par := prbParam meth w zs
  ((components zs).filter fun x =>
    let y := prbSteps meth w par scale csf x
    if meth = 3 then decide (muValue w (2 ^ (w - 1) - 1) < y)
    else decide (rne y < -((2 ^ (w - 1) : Nat) : Int)) || decide (((2 ^ (w - 1) : Nat) : Int) ≤ rne y)).length

/-- One section of a built message. -/
def buildSection (static : Bool) (secid start meth wf scale csf : Nat) (prbs : List (List CInt)) : List (BitVec 8) :=
  let w := if wf = 0 then 16 else wf
  bytesBE 3 (secid * 2 ^ 12 + start % 2 ^ 10) ++ bytesBE 1 prbs.length ++ (if static then [] else bytesBE 2 ((wf * 16 + meth) * 256))
    ++ prbs.flatMap (prbEnc meth w scale csf)

/-- Count the components of a kind 1 descriptor's PRBs that saturate, for its stream (R161). -/
def State.countEgress (s : State) (d : BitVec 512) (prbs : List (List CInt)) : State :=
  let m : Fin 256 := Fin.ofNat 256 (tStr d)
  let w := s.get (OPT_ESm_CFG.width m)
  let mc := s.get (OPT_ESm_CFG.mc m)
  let n := (prbs.map (prbSat (s.get (OPT_ESm_CFG.meth m)) (if w = 0 then 16 else w) (mc / 2) (mc % 2))).sum
  { s with opt := { s.opt with esat := s.opt.esat.set m.val (s.opt.esat[m.val] + n) } }

/-- The U-plane message of a kind 1 descriptor from its source PRBs (R275, log entry 22). -/
def State.buildUPlane (s : State) (p : Fin 32) (d : BitVec 512) (prbs : List (List CInt)) : List (BitVec 8) :=
  let m := tStr d
  let (mu, ecp) := s.numerology (tAt d)
  let a := atDecode (tTsym d) mu ecp
  let mc := s.get (OPT_ESm_CFG.mc m)
  let sec (start : Nat) (ps : List (List CInt)) : List (BitVec 8) :=
    buildSection (s.flag (OPT_ESm_CFG.static m)) (tSecid d) start (s.get (OPT_ESm_CFG.meth m)) (s.get (OPT_ESm_CFG.width m)) (mc / 2) (mc % 2) ps
  let body := bytesBE 2 (s.get (OPT_ESm_CFG.eaxc m)) ++ bytesBE 1 (s.get (OPT_ESm_CFG.seq m)) ++ [0x80]
    ++ bytesBE 1 (s.get (OPT_ESm_CFG.dir m) * 128 + 16 + s.get (OPT_ESm_CFG.fidx m)) ++ bytesBE 1 a.frame
    ++ bytesBE 2 (a.subframe * 4096 + a.slot * 64 + a.symbol)
    ++ sec (tSprb d) (prbs.take 255) ++ (if prbs.length > 255 then sec (tSprb d + 255) (prbs.drop 255) else [])
  let bs := bytesBE 6 (s.get (OPT_ESm_HDR.dmac m)) ++ bytesBE 6 (s.get (OPT_Pp_CFG.mac p))
    ++ (if s.flag (OPT_ESm_HDR.tagged m) then bytesBE 4 (s.get (OPT_ESm_HDR.tag m)) else []) ++ bytesBE 2 0xAEFE ++ [0x10, 0x00] ++ bytesBE 2 body.length ++ body
  bs ++ List.replicate (60 - bs.length) 0

/-- U_PLANE_BUILD (R275): at a frame boundary of port `p` a kind 1 head is built into an eCPRI message and begins; saturations are counted and the stream's seq increases
(R161). -/
def execUPlaneBuild (p : Fin 32) (sec : BitVec 48) (qns : Fin 4000000000) (s : State) : Res :=
  txBoundary p sec qns s fun s q c => match c with
    | .inl _ => .next s
    | .inr (k, d) =>
      if tKind d ≠ 1 then .next s
      else faultIf (!s.rangeOn (tAddr d) (48 * tLen d)) .poweredOff <|
        let (bs, s) := s.sysRead (tAddr d) (48 * tLen d)
        let prbs := (List.range (tLen d)).map fun i => (List.range 12).map fun j =>
          CInt.ofWord (BitVec.ofNat 32 (natOfBytes ((bs.drop (48 * i + 4 * j)).take 4)))
        let s := (s.countEgress d prbs).txSend p (some k) (s.buildUPlane p d prbs) q
        .next (s.put (OPT_ESm_CFG.seq (tStr d)) (s.get (OPT_ESm_CFG.seq (tStr d)) + 1))

/-- TRANSMIT_COMPLETION (R274): the last bit of the frame that port `p` sends has left: status.sent and t_dep are written, then cons + 1. -/
def execTransmitCompletion (p : Fin 32) (s : State) : Res := inside (portUnitOf p) 4 s fun s =>
  let x := s.opt.port[p.val]
  match x.sending with
  | none => .next s
  | some f =>
    let s' := { s with opt := { s.opt with port := s.opt.port.set p.val { x with sending := none } } }
    match f.ring with
    | none => .next s'
    | some k => faultIf (!s.txOn p k) .poweredOff <|
      .next ((s'.sysWrite (s.txHead p k + 50) (bytesOf 6 f.sec.toNat ++ bytesOf 4 f.qns)).txEnd p k 1)

end Sys2Proof.Machine
end

