-- ==== Sys2Proof/Machine/Scalar.lean ====
section
/-! DEFINITION. The S slot's arithmetic, immediate, memory and control-register instructions (R50, R53, R66). -/

namespace Sys2Proof.Machine

/-- NOP (R53). -/
def execNop (t : Fin 64) (s : State) : Res := sPlain t s id

/-- ADD (R53). -/
def execAdd (t : Fin 64) (sd sa sb : Fin 32) (s : State) : Res := sAlu t sd s fun x => x.sreg sa + x.sreg sb
/-- SUB (R53). -/
def execSub (t : Fin 64) (sd sa sb : Fin 32) (s : State) : Res := sAlu t sd s fun x => x.sreg sa - x.sreg sb
/-- AND (R53). -/
def execAnd (t : Fin 64) (sd sa sb : Fin 32) (s : State) : Res := sAlu t sd s fun x => x.sreg sa &&& x.sreg sb
/-- OR (R53). -/
def execOr (t : Fin 64) (sd sa sb : Fin 32) (s : State) : Res := sAlu t sd s fun x => x.sreg sa ||| x.sreg sb
/-- XOR (R53). -/
def execXor (t : Fin 64) (sd sa sb : Fin 32) (s : State) : Res := sAlu t sd s fun x => x.sreg sa ^^^ x.sreg sb
/-- SLL by sb[4:0] (R53). -/
def execSll (t : Fin 64) (sd sa sb : Fin 32) (s : State) : Res :=
  sAlu t sd s fun x => x.sreg sa <<< ((x.sreg sb).toNat % 32)
/-- SRL by sb[4:0] (R53). -/
def execSrl (t : Fin 64) (sd sa sb : Fin 32) (s : State) : Res :=
  sAlu t sd s fun x => x.sreg sa >>> ((x.sreg sb).toNat % 32)
/-- SRA by sb[4:0] (R53). -/
def execSra (t : Fin 64) (sd sa sb : Fin 32) (s : State) : Res :=
  sAlu t sd s fun x => (x.sreg sa).sshiftRight ((x.sreg sb).toNat % 32)
/-- MUL: the low 32 bits of the signed product (R53). -/
def execMul (t : Fin 64) (sd sa sb : Fin 32) (s : State) : Res :=
  sAlu t sd s fun x => BitVec.ofInt 32 ((x.sreg sa).toInt * (x.sreg sb).toInt)
/-- MULH: the high 32 bits of the signed product (R53). -/
def execMulh (t : Fin 64) (sd sa sb : Fin 32) (s : State) : Res :=
  sAlu t sd s fun x => BitVec.ofInt 32 ((x.sreg sa).toInt * (x.sreg sb).toInt / (2 ^ 32 : Nat))
/-- SLT: 1 or 0, signed (R53). -/
def execSlt (t : Fin 64) (sd sa sb : Fin 32) (s : State) : Res :=
  sAlu t sd s fun x => if (x.sreg sa).toInt < (x.sreg sb).toInt then 1 else 0
/-- SLTU: 1 or 0, unsigned (R53). -/
def execSltu (t : Fin 64) (sd sa sb : Fin 32) (s : State) : Res :=
  sAlu t sd s fun x => if (x.sreg sa).toNat < (x.sreg sb).toNat then 1 else 0
/-- MIN, signed (R53). -/
def execMin (t : Fin 64) (sd sa sb : Fin 32) (s : State) : Res :=
  sAlu t sd s fun x => if (x.sreg sa).toInt ≤ (x.sreg sb).toInt then x.sreg sa else x.sreg sb
/-- MAX, signed (R53). -/
def execMax (t : Fin 64) (sd sa sb : Fin 32) (s : State) : Res :=
  sAlu t sd s fun x => if (x.sreg sa).toInt ≥ (x.sreg sb).toInt then x.sreg sa else x.sreg sb

/-- ADDI, imm sign-extended (R53). -/
def execAddi (t : Fin 64) (sd sa : Fin 32) (imm : BitVec 16) (s : State) : Res :=
  sAlu t sd s fun x => x.sreg sa + imm.signExtend 32
/-- ANDI, imm zero-extended (R53). -/
def execAndi (t : Fin 64) (sd sa : Fin 32) (imm : BitVec 16) (s : State) : Res :=
  sAlu t sd s fun x => x.sreg sa &&& imm.setWidth 32
/-- ORI, imm zero-extended (R53). -/
def execOri (t : Fin 64) (sd sa : Fin 32) (imm : BitVec 16) (s : State) : Res :=
  sAlu t sd s fun x => x.sreg sa ||| imm.setWidth 32
/-- XORI, imm zero-extended (R53). -/
def execXori (t : Fin 64) (sd sa : Fin 32) (imm : BitVec 16) (s : State) : Res :=
  sAlu t sd s fun x => x.sreg sa ^^^ imm.setWidth 32
/-- SLLI by imm[4:0] (R53). -/
def execSlli (t : Fin 64) (sd sa : Fin 32) (imm : BitVec 16) (s : State) : Res :=
  sAlu t sd s fun x => x.sreg sa <<< (imm.toNat % 32)
/-- SRLI by imm[4:0] (R53). -/
def execSrli (t : Fin 64) (sd sa : Fin 32) (imm : BitVec 16) (s : State) : Res :=
  sAlu t sd s fun x => x.sreg sa >>> (imm.toNat % 32)
/-- SRAI by imm[4:0] (R53). -/
def execSrai (t : Fin 64) (sd sa : Fin 32) (imm : BitVec 16) (s : State) : Res :=
  sAlu t sd s fun x => (x.sreg sa).sshiftRight (imm.toNat % 32)
/-- LUI: sd = imm << 16 (R53). -/
def execLui (t : Fin 64) (sd _sa : Fin 32) (imm : BitVec 16) (s : State) : Res :=
  sAlu t sd s fun _ => imm.setWidth 32 <<< 16
/-- SLTI, imm sign-extended, signed (R53). -/
def execSlti (t : Fin 64) (sd sa : Fin 32) (imm : BitVec 16) (s : State) : Res :=
  sAlu t sd s fun x => if (x.sreg sa).toInt < imm.toInt then 1 else 0

/-- The SM format's post-modify (R53, R62): with pm = 1 the pointer moves by the sign-extended offset. -/
def smPost (p : Fin 16) (pm : Bool) (off : BitVec 16) (x : Tile) : Tile := if pm then x.addPmod p off.toInt else x

/-- The frame of an SM instruction: the undefined case of R69, the access `f` at the pointer's address, the post-modify. -/
def smAccess (t : Fin 64) (p : Fin 16) (pm : Bool) (s : State) (f : State → Res) : Res :=
  bundle t .plain s fun s => faultIf (pm && (s.tile t).circZero p) .circularZero (f s)

/-- A scalar load of 2^sz bytes (R53, R60, R66): `ext` widens the value; the register is seen 3 issue slots later. -/
def smLoad (t : Fin 64) (r : Fin 32) (p : Fin 16) (pm : Bool) (off : BitVec 16) (sz : Nat) (ext : BitVec 32 → BitVec 32)
    (s : State) : Res :=
  smAccess t p pm s fun s =>
    match s.coreRead t ((s.tile t).addrOf p sz) sz with
    | (some v, s) => .next (s.withTile t fun x => ((smPost p pm off x).later 3 r (ext v)).advance)
    | (none, s) => .next s

/-- LD (R53). -/
def execLd (t : Fin 64) (r : Fin 32) (p : Fin 16) (pm : Bool) (off : BitVec 16) (s : State) : Res := smLoad t r p pm off 2 id s
/-- LDH: a signed halfword (R53). -/
def execLdh (t : Fin 64) (r : Fin 32) (p : Fin 16) (pm : Bool) (off : BitVec 16) (s : State) : Res :=
  smLoad t r p pm off 1 (fun v => (v.setWidth 16).signExtend 32) s
/-- LDHU: an unsigned halfword (R53). -/
def execLdhu (t : Fin 64) (r : Fin 32) (p : Fin 16) (pm : Bool) (off : BitVec 16) (s : State) : Res :=
  smLoad t r p pm off 1 (fun v => (v.setWidth 16).setWidth 32) s
/-- LDB: a signed byte (R53). -/
def execLdb (t : Fin 64) (r : Fin 32) (p : Fin 16) (pm : Bool) (off : BitVec 16) (s : State) : Res :=
  smLoad t r p pm off 0 (fun v => (v.setWidth 8).signExtend 32) s
/-- LDBU: an unsigned byte (R53). -/
def execLdbu (t : Fin 64) (r : Fin 32) (p : Fin 16) (pm : Bool) (off : BitVec 16) (s : State) : Res :=
  smLoad t r p pm off 0 (fun v => (v.setWidth 8).setWidth 32) s

/-- A scalar store of the low 2^sz bytes of `r` (R53, R66); the word's earlier value is kept for the bundle's P bus read (R64). -/
def smStore (t : Fin 64) (r : Fin 32) (p : Fin 16) (pm : Bool) (off : BitVec 16) (sz : Nat) (s : State) : Res :=
  smAccess t p pm s fun s =>
    let x := s.tile t
    let a := x.addrOf p sz
    let w := a - a % 4
    let old := BitVec.ofNat 32 (s.coreLe (spad t w) 4)
    let s := s.coreSetLe t (spad t a) (2 ^ sz) (x.sreg r).toNat
    .next (s.withTile t fun x => { smPost p pm off x with sOld := some (w, old) }.advance)

/-- ST (R53). -/
def execSt (t : Fin 64) (r : Fin 32) (p : Fin 16) (pm : Bool) (off : BitVec 16) (s : State) : Res := smStore t r p pm off 2 s
/-- STH (R53). -/
def execSth (t : Fin 64) (r : Fin 32) (p : Fin 16) (pm : Bool) (off : BitVec 16) (s : State) : Res := smStore t r p pm off 1 s
/-- STB (R53). -/
def execStb (t : Fin 64) (r : Fin 32) (p : Fin 16) (pm : Bool) (off : BitVec 16) (s : State) : Res := smStore t r p pm off 0 s

/-- Level `k` of the loop stack, 0 outermost, as MFC reads it: 0 at or above LDEPTH (R50). -/
def Tile.loopReg (x : Tile) (k : Nat) (f : TLoop → BitVec 32) : BitVec 32 :=
  match x.loops.reverse[k]? with
  | some l => f l
  | none => 0

/-- Control register `c` as MFC reads it (R50). -/
def Tile.creg (x : Tile) (c : Nat) : BitVec 32 :=
  if c < 16 then nthD x.p.toList c 0
  else if c < 24 then nthD x.m.toList (c - 16) 0
  else if c < 32 then nthD x.cb.toList (c - 24) 0
  else if c < 40 then nthD x.cl.toList (c - 32) 0
  else if c = 40 then x.cst
  else if c = 41 then x.circ
  else if c = 42 then x.ien
  else if c = 43 then x.evf
  else if c = 44 then x.ira
  else if c < 49 then x.loopReg (c - 45) (fun l => l.cnt)
  else if c < 53 then x.loopReg (c - 49) (fun l => l.start.setWidth 32)
  else if c < 57 then x.loopReg (c - 53) (fun l => l.stop.setWidth 32)
  else if c = 57 then BitVec.ofNat 32 x.loops.length
  else 0

/-- MTC of `v` to control register `c` (R50, R62): loop-stack and unlisted registers ignore it; EVF clears the flags written 1. -/
def Tile.mtcTo (x : Tile) (c : Nat) (v : BitVec 32) : Tile :=
  if c < 16 then { x.ctl (.p (Fin.ofNat 16 c)) v with mtc := Fin.ofNat 16 c :: x.mtc }
  else if c < 24 then x.ctl (.m (Fin.ofNat 8 c)) v
  else if c < 32 then x.ctl (.cb (Fin.ofNat 8 c)) v
  else if c < 40 then x.ctl (.cl (Fin.ofNat 8 c)) v
  else if c = 40 then { x with ie := v.getLsbD 0, sat := v.getLsbD 1, aov := v.getLsbD 2 }
  else if c = 41 then x.ctl .circ v
  else if c = 42 then { x with ien := v }
  else if c = 43 then { x with evf := x.evf &&& ~~~v }
  else if c = 44 then { x with ira := v }
  else x

/-- MTC (R50): a 1 written to a reserved bit of CST is the undefined case of R5; a flag of EVF that the M880 has set in the present ck
stays set (R4). -/
def execMtc (t : Fin 64) (r : Fin 32) (creg : Fin 64) (s : State) : Res :=
  bundle t .plain s fun s =>
    let v := (s.tile t).sreg r
    faultIf (creg.val = 40 && v.toNat ≥ 16) .reservedBit
      (.next (s.withTile t fun x => (x.mtcTo creg.val (if creg.val = 43 then v &&& ~~~s.setNow (TIL_EVF.reg t) else v)).advance))

/-- MFC (R50). -/
def execMfc (t : Fin 64) (r : Fin 32) (creg : Fin 64) (s : State) : Res := sAlu t r s fun x => x.creg creg.val

end Sys2Proof.Machine
end

