-- ==== Sys2Proof/Machine/Dispatch.lean ====
section
/-! DEFINITION. The dispatch of a command to its meaning: one arm per constructor of `Instr`. -/

namespace Sys2Proof.Machine

def exec (i : Instr) (s : State) : Host.Outcome State Fault Refusal :=
  match i with
  | .registerWrite tgt size data => Sys2Proof.Machine.execRegisterWrite tgt size data s
  | .unmappedAccess tgt what => Sys2Proof.Machine.execUnmappedAccess tgt what s
  | .snap => Sys2Proof.Machine.execSnap s
  | .pherrWrite theta => Sys2Proof.Machine.execPherrWrite theta s
  | .ppsInEdge sec qns => Sys2Proof.Machine.execPpsInEdge sec qns s
  | .frequencyLoopMeasurement meas nom => Sys2Proof.Machine.execFrequencyLoopMeasurement meas nom s
  | .watchdogExpiry => Sys2Proof.Machine.execWatchdogExpiry s
  | .hoForce => Sys2Proof.Machine.execHoForce s
  | .servoEnWrite v => Sys2Proof.Machine.execServoEnWrite v s
  | .frequencySourceLost => Sys2Proof.Machine.execFrequencySourceLost s
  | .frequencySourceReturn => Sys2Proof.Machine.execFrequencySourceReturn s
  | .phaseStep step => Sys2Proof.Machine.execPhaseStep step s
  | .timelineEnable n dup ecp mu en => Sys2Proof.Machine.execTimelineEnable n dup ecp mu en s
  | .timelineOffsetWrite n off => Sys2Proof.Machine.execTimelineOffsetWrite n off s
  | .epochWrite sec => Sys2Proof.Machine.execEpochWrite sec s
  | .ppsoWrite width en => Sys2Proof.Machine.execPpsoWrite width en s
  | .ppsOutRise => Sys2Proof.Machine.execPpsOutRise s
  | .ppsOutFall => Sys2Proof.Machine.execPpsOutFall s
  | .engineStart n tl bank => Sys2Proof.Machine.execEngineStart n tl bank s
  | .engineStopWrite n tl bank => Sys2Proof.Machine.execEngineStopWrite n tl bank s
  | .timetableBankWrite n b k w => Sys2Proof.Machine.execTimetableBankWrite n b k w s
  | .orrNop n => Sys2Proof.Machine.execOrrNop n s
  | .orrHalt n => Sys2Proof.Machine.execOrrHalt n s
  | .jmp n addr => Sys2Proof.Machine.execJmp n addr s
  | .waita n t => Sys2Proof.Machine.execWaita n t s
  | .waitr n ta t => Sys2Proof.Machine.execWaitr n ta t s
  | .sett n ta t => Sys2Proof.Machine.execSett n ta t s
  | .addt n ta t => Sys2Proof.Machine.execAddt n ta t s
  | .nextf n ta => Sys2Proof.Machine.execNextf n ta s
  | .every n ta len count period => Sys2Proof.Machine.execEvery n ta len count period s
  | .conj n id => Sys2Proof.Machine.execConj n id s
  | .swap n => Sys2Proof.Machine.execSwap n s
  | .orrReservedOpcode n => Sys2Proof.Machine.execOrrReservedOpcode n s
  | .groupLaunch n => Sys2Proof.Machine.execGroupLaunch n s
  | .issue n j d => Sys2Proof.Machine.execIssue n j d s
  | .scan n r most => Sys2Proof.Machine.execScan n r most s
  | .idle n set len => Sys2Proof.Machine.execIdle n set len s
  | .agcf n g f => Sys2Proof.Machine.execAgcf n g f s
  | .nfsnap n g => Sys2Proof.Machine.execNfsnap n g s
  | .sig n k => Sys2Proof.Machine.execSig n k s
  | .eventDelivery => Sys2Proof.Machine.execEventDelivery s
  | .descriptorDelivery n => Sys2Proof.Machine.execDescriptorDelivery n s
  | .conjLineHigh n => Sys2Proof.Machine.execConjLineHigh n s
  | .conjunctionTimeout n => Sys2Proof.Machine.execConjunctionTimeout n s
  | .tileStart t resume => Sys2Proof.Machine.execTileStart t resume s
  | .tileHaltWrite t => Sys2Proof.Machine.execTileHaltWrite t s
  | .yreqWrite t v => Sys2Proof.Machine.execYreqWrite t v s
  | .tilEvsWrite t f => Sys2Proof.Machine.execTilEvsWrite t f s
  | .tileStop t => Sys2Proof.Machine.execTileStop t s
  | .interrupt t => Sys2Proof.Machine.execInterrupt t s
  | .nop t => Sys2Proof.Machine.execNop t s
  | .add t sd sa sb => Sys2Proof.Machine.execAdd t sd sa sb s
  | .sub t sd sa sb => Sys2Proof.Machine.execSub t sd sa sb s
  | .and t sd sa sb => Sys2Proof.Machine.execAnd t sd sa sb s
  | .or t sd sa sb => Sys2Proof.Machine.execOr t sd sa sb s
  | .xor t sd sa sb => Sys2Proof.Machine.execXor t sd sa sb s
  | .sll t sd sa sb => Sys2Proof.Machine.execSll t sd sa sb s
  | .srl t sd sa sb => Sys2Proof.Machine.execSrl t sd sa sb s
  | .sra t sd sa sb => Sys2Proof.Machine.execSra t sd sa sb s
  | .mul t sd sa sb => Sys2Proof.Machine.execMul t sd sa sb s
  | .mulh t sd sa sb => Sys2Proof.Machine.execMulh t sd sa sb s
  | .slt t sd sa sb => Sys2Proof.Machine.execSlt t sd sa sb s
  | .sltu t sd sa sb => Sys2Proof.Machine.execSltu t sd sa sb s
  | .min t sd sa sb => Sys2Proof.Machine.execMin t sd sa sb s
  | .max t sd sa sb => Sys2Proof.Machine.execMax t sd sa sb s
  | .addi t sd sa imm => Sys2Proof.Machine.execAddi t sd sa imm s
  | .andi t sd sa imm => Sys2Proof.Machine.execAndi t sd sa imm s
  | .ori t sd sa imm => Sys2Proof.Machine.execOri t sd sa imm s
  | .xori t sd sa imm => Sys2Proof.Machine.execXori t sd sa imm s
  | .slli t sd sa imm => Sys2Proof.Machine.execSlli t sd sa imm s
  | .srli t sd sa imm => Sys2Proof.Machine.execSrli t sd sa imm s
  | .srai t sd sa imm => Sys2Proof.Machine.execSrai t sd sa imm s
  | .lui t sd sa imm => Sys2Proof.Machine.execLui t sd sa imm s
  | .slti t sd sa imm => Sys2Proof.Machine.execSlti t sd sa imm s
  | .ld t r p pm off => Sys2Proof.Machine.execLd t r p pm off s
  | .ldh t r p pm off => Sys2Proof.Machine.execLdh t r p pm off s
  | .ldhu t r p pm off => Sys2Proof.Machine.execLdhu t r p pm off s
  | .ldb t r p pm off => Sys2Proof.Machine.execLdb t r p pm off s
  | .ldbu t r p pm off => Sys2Proof.Machine.execLdbu t r p pm off s
  | .st t r p pm off => Sys2Proof.Machine.execSt t r p pm off s
  | .sth t r p pm off => Sys2Proof.Machine.execSth t r p pm off s
  | .stb t r p pm off => Sys2Proof.Machine.execStb t r p pm off s
  | .mtc t r creg => Sys2Proof.Machine.execMtc t r creg s
  | .mfc t r creg => Sys2Proof.Machine.execMfc t r creg s
  | .b t sa cond off => Sys2Proof.Machine.execB t sa cond off s
  | .bl t sa cond off => Sys2Proof.Machine.execBl t sa cond off s
  | .jr t sa => Sys2Proof.Machine.execJr t sa s
  | .reti t => Sys2Proof.Machine.execReti t s
  | .ei t => Sys2Proof.Machine.execEi t s
  | .di t => Sys2Proof.Machine.execDi t s
  | .doLoop t imm len count => Sys2Proof.Machine.execDoLoop t imm len count s
  | .dor t imm len sa => Sys2Proof.Machine.execDor t imm len sa s
  | .rpt t count => Sys2Proof.Machine.execRpt t count s
  | .rptr t sa => Sys2Proof.Machine.execRptr t sa s
  | .waite t k c => Sys2Proof.Machine.execWaite t k c s
  | .yield t => Sys2Proof.Machine.execYield t s
  | .waitv t => Sys2Proof.Machine.execWaitv t s
  | .halt t => Sys2Proof.Machine.execHalt t s
  | .dnop t f => Sys2Proof.Machine.execDnop t f s
  | .mac t f => Sys2Proof.Machine.execMac t f s
  | .msu t f => Sys2Proof.Machine.execMsu t f s
  | .mpy t f => Sys2Proof.Machine.execMpy t f s
  | .macp t f => Sys2Proof.Machine.execMacp t f s
  | .mac16 t f => Sys2Proof.Machine.execMac16 t f s
  | .cmac t f => Sys2Proof.Machine.execCmac t f s
  | .cmacj t f => Sys2Proof.Machine.execCmacj t f s
  | .aclr t f => Sys2Proof.Machine.execAclr t f s
  | .asr t f => Sys2Proof.Machine.execAsr t f s
  | .mva t f => Sys2Proof.Machine.execMva t f s
  | .mvah t f => Sys2Proof.Machine.execMvah t f s
  | .mvs t f => Sys2Proof.Machine.execMvs t f s
  | .adda t f => Sys2Proof.Machine.execAdda t f s
  | .vmnop t => Sys2Proof.Machine.execVmnop t s
  | .vld t f => Sys2Proof.Machine.execVld t f s
  | .vst t f => Sys2Proof.Machine.execVst t f s
  | .vlds t f => Sys2Proof.Machine.execVlds t f s
  | .vsts t f => Sys2Proof.Machine.execVsts t f s
  | .vadd t f => Sys2Proof.Machine.execVadd t f s
  | .vsub t f => Sys2Proof.Machine.execVsub t f s
  | .vmul t f => Sys2Proof.Machine.execVmul t f s
  | .vmulh t f => Sys2Proof.Machine.execVmulh t f s
  | .vmin t f => Sys2Proof.Machine.execVmin t f s
  | .vmax t f => Sys2Proof.Machine.execVmax t f s
  | .vabs t f => Sys2Proof.Machine.execVabs t f s
  | .vneg t f => Sys2Proof.Machine.execVneg t f s
  | .vadds t f => Sys2Proof.Machine.execVadds t f s
  | .vsubs t f => Sys2Proof.Machine.execVsubs t f s
  | .vand t f => Sys2Proof.Machine.execVand t f s
  | .vor t f => Sys2Proof.Machine.execVor t f s
  | .vxor t f => Sys2Proof.Machine.execVxor t f s
  | .vsll t f => Sys2Proof.Machine.execVsll t f s
  | .vsrl t f => Sys2Proof.Machine.execVsrl t f s
  | .vsra t f => Sys2Proof.Machine.execVsra t f s
  | .vmac t f => Sys2Proof.Machine.execVmac t f s
  | .vcmul t f => Sys2Proof.Machine.execVcmul t f s
  | .vcmulj t f => Sys2Proof.Machine.execVcmulj t f s
  | .vsel t f => Sys2Proof.Machine.execVsel t f s
  | .vmov t f => Sys2Proof.Machine.execVmov t f s
  | .vceq t f => Sys2Proof.Machine.execVceq t f s
  | .vclt t f => Sys2Proof.Machine.execVclt t f s
  | .vcle t f => Sys2Proof.Machine.execVcle t f s
  | .vmeq t f => Sys2Proof.Machine.execVmeq t f s
  | .vmlt t f => Sys2Proof.Machine.execVmlt t f s
  | .vmle t f => Sys2Proof.Machine.execVmle t f s
  | .vcvt t f => Sys2Proof.Machine.execVcvt t f s
  | .vpkGn4 t f => Sys2Proof.Machine.execVpkGn4 t f s
  | .vpkCt8 t f => Sys2Proof.Machine.execVpkCt8 t f s
  | .vpkS8 t f => Sys2Proof.Machine.execVpkS8 t f s
  | .vpkU8 t f => Sys2Proof.Machine.execVpkU8 t f s
  | .vupkGn4 t f => Sys2Proof.Machine.execVupkGn4 t f s
  | .vupkCt8 t f => Sys2Proof.Machine.execVupkCt8 t f s
  | .vupkS8 t f => Sys2Proof.Machine.execVupkS8 t f s
  | .vupkU8 t f => Sys2Proof.Machine.execVupkU8 t f s
  | .vperm t f => Sys2Proof.Machine.execVperm t f s
  | .vpermx t f => Sys2Proof.Machine.execVpermx t f s
  | .vrev t f => Sys2Proof.Machine.execVrev t f s
  | .vzip t f => Sys2Proof.Machine.execVzip t f s
  | .vuzpe t f => Sys2Proof.Machine.execVuzpe t f s
  | .vuzpo t f => Sys2Proof.Machine.execVuzpo t f s
  | .vslup t f => Sys2Proof.Machine.execVslup t f s
  | .vsldn t f => Sys2Proof.Machine.execVsldn t f s
  | .vbcl t f => Sys2Proof.Machine.execVbcl t f s
  | .vrsum t f => Sys2Proof.Machine.execVrsum t f s
  | .vrprod t f => Sys2Proof.Machine.execVrprod t f s
  | .vrmax t f => Sys2Proof.Machine.execVrmax t f s
  | .vrmin t f => Sys2Proof.Machine.execVrmin t f s
  | .vramax t f => Sys2Proof.Machine.execVramax t f s
  | .vramin t f => Sys2Proof.Machine.execVramin t f s
  | .vrand t f => Sys2Proof.Machine.execVrand t f s
  | .vror t f => Sys2Proof.Machine.execVror t f s
  | .vf t f => Sys2Proof.Machine.execVf t f s
  | .mnop t => Sys2Proof.Machine.execMnop t s
  | .mld t f => Sys2Proof.Machine.execMld t f s
  | .mls t f => Sys2Proof.Machine.execMls t f s
  | .mzp t f => Sys2Proof.Machine.execMzp t f s
  | .mrt t f => Sys2Proof.Machine.execMrt t f s
  | .mma t f => Sys2Proof.Machine.execMma t f s
  | .mmac t f => Sys2Proof.Machine.execMmac t f s
  | .mrd t f => Sys2Proof.Machine.execMrd t f s
  | .cometLaunch t => Sys2Proof.Machine.execCometLaunch t s
  | .cometWrite t k => Sys2Proof.Machine.execCometWrite t k s
  | .cometRead t k => Sys2Proof.Machine.execCometRead t k s
  | .cometCompletion t k => Sys2Proof.Machine.execCometCompletion t k s
  | .dmaGo c q => Sys2Proof.Machine.execDmaGo c q s
  | .dmaCancel c q => Sys2Proof.Machine.execDmaCancel c q s
  | .cancelDrainEnd c q => Sys2Proof.Machine.execCancelDrainEnd c q s
  | .copy c q fetch write => Sys2Proof.Machine.execCopy c q fetch write s
  | .fill c q fetch write => Sys2Proof.Machine.execFill c q fetch write s
  | .multicastCopy c q fetch write => Sys2Proof.Machine.execMulticastCopy c q fetch write s
  | .descriptorCompletion c q => Sys2Proof.Machine.execDescriptorCompletion c q s
  | .multicastReceiverDrop c q n => Sys2Proof.Machine.execMulticastReceiverDrop c q n s
  | .starvationPromotion c q => Sys2Proof.Machine.execStarvationPromotion c q s
  | .memcFrameStart => Sys2Proof.Machine.execMemcFrameStart s
  | .tileJob d => Sys2Proof.Machine.execTileJob d s
  | .wake d => Sys2Proof.Machine.execWake d s
  | .hardEnginePointer d => Sys2Proof.Machine.execHardEnginePointer d s
  | .dmaQueueStart d => Sys2Proof.Machine.execDmaQueueStart d s
  | .dispatch => Sys2Proof.Machine.execDispatch s
  | .jobStart n => Sys2Proof.Machine.execJobStart n s
  | .stopComplete n => Sys2Proof.Machine.execStopComplete n s
  | .loadComplete n => Sys2Proof.Machine.execLoadComplete n s
  | .saveComplete n => Sys2Proof.Machine.execSaveComplete n s
  | .jobEnd n => Sys2Proof.Machine.execJobEnd n s
  | .awaitedFlag n => Sys2Proof.Machine.execAwaitedFlag n s
  | .contextEnable n => Sys2Proof.Machine.execContextEnable n s
  | .drain n => Sys2Proof.Machine.execDrain n s
  | .cut n => Sys2Proof.Machine.execCut n s
  | .ckpt n => Sys2Proof.Machine.execCkpt n s
  | .checkpointComplete n => Sys2Proof.Machine.execCheckpointComplete n s
  | .teardown n t => Sys2Proof.Machine.execTeardown n t s
  | .backgroundAgeing n => Sys2Proof.Machine.execBackgroundAgeing n s
  | .watchPeriodicCheck w => Sys2Proof.Machine.execWatchPeriodicCheck w s
  | .engineRingPoll k u => Sys2Proof.Machine.execEngineRingPoll k u s
  | .estimateAndDetect u => Sys2Proof.Machine.execEstimateAndDetect u s
  | .feedbackPass u => Sys2Proof.Machine.execFeedbackPass u s
  | .decode d => Sys2Proof.Machine.execDecode d s
  | .encode u => Sys2Proof.Machine.execEncode u s
  | .polarDecode u => Sys2Proof.Machine.execPolarDecode u s
  | .polarEncode u => Sys2Proof.Machine.execPolarEncode u s
  | .smallBlockDecode u => Sys2Proof.Machine.execSmallBlockDecode u s
  | .smallBlockEncode u => Sys2Proof.Machine.execSmallBlockEncode u s
  | .engineJobEnd k u => Sys2Proof.Machine.execEngineJobEnd k u s
  | .engineDrain k u => Sys2Proof.Machine.execEngineDrain k u s
  | .engineCut k u => Sys2Proof.Machine.execEngineCut k u s
  | .jobTimer k u => Sys2Proof.Machine.execJobTimer k u s
  | .fft f => Sys2Proof.Machine.execFft f s
  | .ifft f => Sys2Proof.Machine.execIfft f s
  | .dpdSwitch => Sys2Proof.Machine.execDpdSwitch s
  | .capture re im => Sys2Proof.Machine.execCapture re im s
  | .agcWindow c t step x => Sys2Proof.Machine.execAgcWindow c t step x s
  | .gainPortWord gp => Sys2Proof.Machine.execGainPortWord gp s
  | .gainCompensation c => Sys2Proof.Machine.execGainCompensation c s
  | .frameReceive p time data fec => Sys2Proof.Machine.execFrameReceive p time data fec s
  | .iqDataMessage e => Sys2Proof.Machine.execIqDataMessage e s
  | .realTimeControlMessage e => Sys2Proof.Machine.execRealTimeControlMessage e s
  | .oneWayDelayMeasurement e => Sys2Proof.Machine.execOneWayDelayMeasurement e s
  | .batchTimeout q => Sys2Proof.Machine.execBatchTimeout q s
  | .consRead q => Sys2Proof.Machine.execConsRead q s
  | .txRingPoll p k => Sys2Proof.Machine.execTxRingPoll p k s
  | .frameTransmit p sec qns => Sys2Proof.Machine.execFrameTransmit p sec qns s
  | .uPlaneBuild p sec qns => Sys2Proof.Machine.execUPlaneBuild p sec qns s
  | .transmitCompletion p => Sys2Proof.Machine.execTransmitCompletion p s
  | .portEnable p apx fh rate lanes mac => Sys2Proof.Machine.execPortEnable p apx fh rate lanes mac s
  | .laneMove p lanes => Sys2Proof.Machine.execLaneMove p lanes s
  | .linkUp p => Sys2Proof.Machine.execLinkUp p s
  | .lossOfSignal l => Sys2Proof.Machine.execLossOfSignal l s
  | .powerReduction l => Sys2Proof.Machine.execPowerReduction l s
  | .restartPulse l seen => Sys2Proof.Machine.execRestartPulse l seen s
  | .laserLightLow e lvl => Sys2Proof.Machine.execLaserLightLow e lvl s
  | .jesdLinkEnable tx k cfg => Sys2Proof.Machine.execJesdLinkEnable tx k cfg s
  | .sysrefEdge sec qns => Sys2Proof.Machine.execSysrefEdge sec qns s
  | .syncHeaderLock lane valid emb => Sys2Proof.Machine.execSyncHeaderLock lane valid emb s
  | .lemcRelease k arr crc => Sys2Proof.Machine.execLemcRelease k arr crc s
  | .apsisIdle p f => Sys2Proof.Machine.execApsisIdle p f s
  | .apsisRd p f => Sys2Proof.Machine.execApsisRd p f s
  | .apsisRdrsp p f => Sys2Proof.Machine.execApsisRdrsp p f s
  | .apsisWr p f => Sys2Proof.Machine.execApsisWr p f s
  | .apsisWrack p f => Sys2Proof.Machine.execApsisWrack p f s
  | .apsisTime p f r arr => Sys2Proof.Machine.execApsisTime p f r arr s
  | .apsisStart p f => Sys2Proof.Machine.execApsisStart p f s
  | .apsisRetry p f => Sys2Proof.Machine.execApsisRetry p f s
  | .apsisInit p f => Sys2Proof.Machine.execApsisInit p f s
  | .apsisReservedType p ty f => Sys2Proof.Machine.execApsisReservedType p ty f s
  | .replayTimer p => Sys2Proof.Machine.execReplayTimer p s
  | .remoteRequestService => Sys2Proof.Machine.execRemoteRequestService s
  | .requestTimeout d tag => Sys2Proof.Machine.execRequestTimeout d tag s
  | .timeTransfer => Sys2Proof.Machine.execTimeTransfer s
  | .timeExchangeTimeout => Sys2Proof.Machine.execTimeExchangeTimeout s
  | .thresholdWindow k => Sys2Proof.Machine.execThresholdWindow k s
  | .scrub b => Sys2Proof.Machine.execScrub b s
  | .selfTestSegment pass => Sys2Proof.Machine.execSelfTestSegment pass s
  | .rotation k u pass => Sys2Proof.Machine.execRotation k u pass s
  | .remap k u outright => Sys2Proof.Machine.execRemap k u outright s
  | .remapDone k u => Sys2Proof.Machine.execRemapDone k u s
  | .copySwitch k u => Sys2Proof.Machine.execCopySwitch k u s
  | .moveRequest k u => Sys2Proof.Machine.execMoveRequest k u s
  | .rotateRequest k u => Sys2Proof.Machine.execRotateRequest k u s
  | .managementFirmwareUpdate k u img => Sys2Proof.Machine.execManagementFirmwareUpdate k u img s
  | .repairRequestReserved k u => Sys2Proof.Machine.execRepairRequestReserved k u s
  | .lockstepMismatch => Sys2Proof.Machine.execLockstepMismatch s
  | .phaseFault d => Sys2Proof.Machine.execPhaseFault d s
  | .powerUp va vb => Sys2Proof.Machine.execPowerUp va vb s
  | .sequencingStep => Sys2Proof.Machine.execSequencingStep s
  | .porstNLow both => Sys2Proof.Machine.execPorstNLow both s
  | .resetN low both => Sys2Proof.Machine.execResetN low both s
  | .groupReset g both => Sys2Proof.Machine.execGroupReset g both s
  | .groupResetRelease g => Sys2Proof.Machine.execGroupResetRelease g s
  | .domainOn d => Sys2Proof.Machine.execDomainOn d s
  | .domainOff d => Sys2Proof.Machine.execDomainOff d s
  | .vinLost b mv => Sys2Proof.Machine.execVinLost b mv s
  | .vinBack b mv => Sys2Proof.Machine.execVinBack b mv s
  | .rideThrough => Sys2Proof.Machine.execRideThrough s
  | .vinOrLow => Sys2Proof.Machine.execVinOrLow s
  | .standbyLoss => Sys2Proof.Machine.execStandbyLoss s
  | .auxLatchOff n what v => Sys2Proof.Machine.execAuxLatchOff n what v s
  | .auxOverload p => Sys2Proof.Machine.execAuxOverload p s
  | .temperatureReading raw power => Sys2Proof.Machine.execTemperatureReading raw power s
  | .level3Shutdown => Sys2Proof.Machine.execLevel3Shutdown s
  | .referenceLost => Sys2Proof.Machine.execReferenceLost s
  | .lockLost p => Sys2Proof.Machine.execLockLost p s
  | .calUWrite n v => Sys2Proof.Machine.execCalUWrite n v s
  | .gpioEdge n rise sec qns => Sys2Proof.Machine.execGpioEdge n rise sec qns s
  | .boot flash ok0 ok1 => Sys2Proof.Machine.execBoot flash ok0 ok1 s
  | .hostLoad t => Sys2Proof.Machine.execHostLoad t s
  | .enrolOwnerSlot => Sys2Proof.Machine.execEnrolOwnerSlot s
  | .revokeVendorSlot => Sys2Proof.Machine.execRevokeVendorSlot s
  | .revokeOwnerSlot => Sys2Proof.Machine.execRevokeOwnerSlot s
  | .advanceSvn => Sys2Proof.Machine.execAdvanceSvn s
  | .quote => Sys2Proof.Machine.execQuote s
  | .debugToken => Sys2Proof.Machine.execDebugToken s
  | .debugLock => Sys2Proof.Machine.execDebugLock s
  | .mr7Extend => Sys2Proof.Machine.execMr7Extend s
  | .modelDigestWrite k w => Sys2Proof.Machine.execModelDigestWrite k w s
  | .hartPark h => Sys2Proof.Machine.execHartPark h s
  | .hartUnpark h => Sys2Proof.Machine.execHartUnpark h s
  | .badOpBundle t w => Sys2Proof.Machine.execBadOpBundle t w s
  | .phaseSrcWrite v => Sys2Proof.Machine.execPhaseSrcWrite v s
  | .signalPresent l => Sys2Proof.Machine.execSignalPresent l s
  | .laserLightRestored e lvl => Sys2Proof.Machine.execLaserLightRestored e lvl s
  | .referenceRestored => Sys2Proof.Machine.execReferenceRestored s
  | .pllRelock p => Sys2Proof.Machine.execPllRelock p s
  | .standbyRailUp => Sys2Proof.Machine.execStandbyRailUp s
  | .pciePerstNInput low => Sys2Proof.Machine.execPciePerstNInput low s
  | .pciePerstNRelease => Sys2Proof.Machine.execPciePerstNRelease s
  | .hostLoadTimeout => Sys2Proof.Machine.execHostLoadTimeout s
  | .cacheEccError h level addr unc => Sys2Proof.Machine.execCacheEccError h level addr unc s
  | .apsisFlitCrcError p => Sys2Proof.Machine.execApsisFlitCrcError p s
  | .microcodeUpdate orr img => Sys2Proof.Machine.execMicrocodeUpdate orr img s
  | .engineEnable k u poll => Sys2Proof.Machine.execEngineEnable k u poll s

end Sys2Proof.Machine
end

