-- ==== Sys2Proof/Machine/Tick.lean ====
section
/-! DEFINITION. One ck of FCK with no command (R23): what the block does of itself as time passes. -/

namespace Sys2Proof.Machine

/-- One ck of the time base (R23, R28, R31, R33): NT advances by TMB_NT_INC and TMB_MONO by 1, phase_ok and freq_ok follow, and the increment
follows the servo. -/
def State.tmbTick (s : State) : State :=
  let inc := s.get TMB_NT_INC.inc
  let s := s.withTb fun t => { t with nt := NT.ofTotal (t.nt.total + inc), mono := t.mono + 1, expired := none }
  let s := s.put TMB_STAT.phase_ok s.phaseOk.toNat
  let s := if s.freqSelected then s else (s.put TMB_STAT.freq_ok 0).withTb fun t => { t with freqHeld := 0 }
  s.updateInc

/-- `f` where the units of domain `d` and group `g` run. -/
def State.clocked (s : State) (d g : Nat) (f : State → State) : State := if s.fck && s.domOn d && !s.held g then f s else s

/-- A new ck begins: nothing has happened in it yet (R4, R65); what an LPDDR6 slot wrote counts until its end (R126, R129). -/
def State.newCk (s : State) : State :=
  { s with now := { SameCk.reset with slot := if (s.mono + 1).toNat % 11 = 0 then [] else s.now.slot } }

/-- One ck: at the end of the present one the PCIe register accesses are performed (R352), the V-slot operations that are complete take effect, and the
monitor's pushes enter their queues (R232); two phases may not have written one scratchpad word in it (R119); then the fabric of G1, the lines on their
way to LPDDR6, the transmit chains, the links, the interrupt controller, the power manager, and the SEC. -/
def State.tick (s : State) : Res :=
  andThen (andThen (andThen s.lateTick State.vTick) fun s => if s.fck && s.domOn 82 && !s.held 1 then s.pushDue else .next s) fun s => faultIf s.now.clash .twoPortWrites <|
  let s := s.newCk
  let s := s.clocked 82 1 fun s => s.tmbTick.clipTick.orrTick.dmaTick.cometTick.ctxTick
  let s := ((s.clocked 87 2 State.dfeTick).clocked 91 2 State.lemcTick).clocked 82 4 fun s => s.fhTick.apxTick
  (((s.clocked 83 1 State.backTick).aplicTick).pwrTick).secTick

end Sys2Proof.Machine
end

