-- ==== Sys2Proof/WellFormed.lean ====
section
/-! DEFINITION. The commands that a sender can send: what the types of their operands do not already say. The meaning of a command is total:
on an ill-formed one a missing list entry reads 0, and an access that is not aligned, or a unit that does not exist, has no effect. -/

namespace Sys2Proof

/-- Logical units of a class with a descriptor ring (R186). -/
def HardClass.count : HardClass → Nat
  | .eq => 8 | .dec => 6 | .enc => 4 | .pol => 2

/-- A requester other than a hart can only load and store (R284, R377), in the configuration space below 4,096 and in the table of 64 MSI-X vectors
below 1,024, without crossing an aligned 8 bytes. -/
def Requester.canAsk (src : Requester) (op : AccessOp) (addr : BitVec 64) (size : Fin 4) : Bool :=
  let plain := match op with
    | .load _ _ _ | .store => true
    | _ => false
  match src with
  | .hart _ => true
  | .config => plain && decide (addr.toNat < 4096) && decide (addr.toNat % 2 ^ size.val = 0)
  | .msix => plain && decide (addr.toNat < 1024) && decide (addr.toNat % 2 ^ size.val = 0)
  | _ => plain

/-- A fetch is of 2 or 4 bytes, an atomic operation of 4 or 8 (RISC-V). -/
def AccessOp.sized (op : AccessOp) (size : Fin 4) : Bool :=
  match op with
  | .fetch => size = 1 || size = 2
  | .amo _ _ | .lr _ | .sc _ => size = 2 || size = 3
  | _ => true

/-- A flit carries 256 bytes beside its header (R285). -/
def Flit.full (f : Flit) : Bool := f.payload.length = 256

/-- The operands of a command are ones that can be sent. -/
def Instr.wellFormed : Instr → Bool
  | .registerWrite tgt size _ => tgt.src.canAsk .store tgt.addr size
  | .unmappedAccess tgt what => tgt.src.canAsk what.op tgt.addr what.size && what.op.sized what.size
  | .engineRingPoll k u | .engineJobEnd k u | .engineDrain k u | .engineCut k u | .jobTimer k u => u.val < k.count
  | .engineEnable k u _ => u.val < k.count
  | .apsisIdle _ f | .apsisRd _ f | .apsisRdrsp _ f | .apsisWr _ f | .apsisWrack _ f | .apsisStart _ f | .apsisRetry _ f | .apsisInit _ f => f.full
  | .apsisTime _ f _ _ | .apsisReservedType _ _ f => f.full
  | .temperatureReading raw power => raw.length = 32 && power.region.length = 32 && power.iout.length = 96
  | .capture re im => re.length = im.length
  | .auxOverload p => p.length = 8
  | _ => true

end Sys2Proof
end

