-- ==== Sys2Proof/Safety.lean ====
section
/-! DEFINITION. The terms of the statements: what makes a command of a unit have effect, what a frame says, and the invariants. -/

namespace Sys2Proof.Claims

open Sys2Proof.Machine

/-- The command answers a next state of which `P` holds. -/
def Completes (c : Instr) (s : State) (P : State → Prop) : Prop := ∃ t, exec c s = .next t ∧ P t

/-- FCK and LCK run, domain `d` is on, group `g` is released, and so is G1, whose memories other groups reach: the commands of the domain's units have
effect (R320, R337, R344). -/
def Runs (d g : Nat) (s : State) : Prop :=
  s.fck = true ∧ s.domOn d = true ∧ s.held g = false ∧ s.lck = true ∧ (2 ≤ g → s.held 1 = false)

/-- Logical unit `u` of kind `k` also runs: it is present and waits for no remap (R295, R307). -/
def UnitRuns (d g k u : Nat) (s : State) : Prop := Runs d g s ∧ s.absent k u = false ∧ s.unitHeld k u = false

/-- Every register word but those at `as` is as it was. -/
def WordsKept (s t : State) (as : List Nat) : Prop := ∀ a, a ∉ as → t.word a = s.word a

/-- Every byte of memory reads as it did. -/
def MemKept (s t : State) : Prop := ∀ a, t.byte a = s.byte a

/-- The canonical forms: memory and the register file. -/
def Canonical (s : State) : Prop := Memory.wf s = true ∧ Regs.wf s = true

/-- The invariant of every step: memory, the register file and the ECC errors are in their canonical forms, so that equal contents are equal
data, and NT's nanoseconds lie from 0 to 999,999,999 (R23). -/
def Inv (s : State) : Prop := Canonical s ∧ (s.flaws.map Prod.fst).Pairwise (· < ·) ∧ s.tb.nt.ns ≤ 999999999

/-! ## The tile core -/

/-- The core of tile `t` issues bundles, and a bundle whose S slot is of kind `k` is none of the undefined cases of R70 and R72. -/
def Issues (k : FlowKind) (t : Fin 64) (s : State) : Prop :=
  s.tileRuns t = true ∧ Regs.wf s = true ∧ ((s.tile t).rpt = none ∨ k = .plain) ∧
  ((s.tile t).delay = none ∨ k ≠ .flow ∧ ∀ l ∈ (s.tile t).loops, l.stop ≠ (s.tile t).pc)

/-- Only tile `t` and its TIL_STAT changed. -/
def TileOnly (t : Fin 64) (s u : State) : Prop :=
  u = { s with tiles := u.tiles, regs := u.regs } ∧ (∀ i, i ≠ t → u.tile i = s.tile i) ∧ WordsKept s u [TIL_STAT.reg t]

/-- Of a tile only the choice of the next bundle and the writes on their way changed. -/
def FlowOnly (x y : Tile) : Prop :=
  y = { x with pend := y.pend, pc := y.pc, loops := y.loops, loopBack := y.loopBack, delay := y.delay, rpt := y.rpt }

/-- No write to a register other than `r` was added to those on their way. -/
def PendOnly (r : PendReg) (x y : Tile) : Prop := ∃ w, y.pend = x.pend ++ w ∧ ∀ e ∈ w, e.reg = r

/-- Outside loops, repeats and delay slots the next bundle is the one that follows. -/
def GoesOn (x y : Tile) : Prop := x.loops = [] → x.rpt = none → x.delay = none → y.pc = x.cur + 1 ∧ y.loops = [] ∧ y.delay = none ∧ y.rpt = none

/-- A D- or V-slot command of tile `t` belongs to a bundle whose slots execute. -/
def InBundle (t : Fin 64) (s : State) : Prop :=
  s.flag (TIL_CTL.run t) = true ∧ s.fck = true ∧ s.tileOn t = true ∧ s.held 1 = false ∧ (s.tile t).skip = false

/-- What a bundle without control flow does to the order of bundles. -/
def after (x : Tile) : Tile := x.begin.advance

/-- The word address that pointer `p` of tile `t` forms in the scratchpad. -/
def wordAt (t : Fin 64) (x : Tile) (p : Fin 16) : Nat := 0x1100000000 + 0x400000 * t.val + x.p[p].toNat % 2097152 / 4 * 4

/-- The little-endian word at an address of a memory. -/
def wordOf (g : Nat → BitVec 8) (a : Nat) : BitVec 32 := g (a + 3) ++ g (a + 2) ++ g (a + 1) ++ g a

/-- The pointer of a move on the X bus (base 0) or the Y bus (base 8). -/
def busPointer (base : Nat) (p : Fin 8) : Fin 16 := Fin.ofNat 16 (base + p.val)

/-- Memory, or what a core port reads, after a move's store (R55, R65). -/
def afterMove (t : Fin 64) (x : Tile) (base : Nat) (mv : Move) (g : Nat → BitVec 8) (a : Nat) : BitVec 8 :=
  match mv with
  | .store r p _ _ =>
    let w := wordAt t x (busPointer base p)
    if w ≤ a ∧ a < w + 4 then (x.sreg r).extractLsb' (8 * (a - w)) 8 else g a
  | _ => g a

/-- The post-modification that a move adds (R55). -/
def moveStep (x : Tile) (base : Nat) : Move → List (Fin 16 × Int)
  | .none => []
  | .load _ p m u => if u then [(busPointer base p, x.m[m].toInt)] else []
  | .store _ p m u => if u then [(busPointer base p, x.m[m].toInt)] else []

/-- The words that a D slot reads have no ECC error, and no pointer that it post-modifies is circular with length 0. -/
def DSound (t : Fin 64) (f : DSlot) (s : State) : Prop :=
  let x := s.tile t
  let flat (base : Nat) : Move → Prop
    | .load _ p _ _ => s.flaw (wordAt t x (busPointer base p)) = 0
    | _ => True
  (s.flaws.map Prod.fst).Pairwise (· < ·) ∧ (f.src3 = true → s.flaw (wordAt t x 7) = 0) ∧ flat 0 f.x ∧ flat 8 f.y ∧
  ∀ q ∈ (if f.src3 then [((7 : Fin 16), x.m[7].toInt)] else []) ++ moveStep x 0 f.x ++ moveStep x 8 f.y, x.circZero q.1 = false

/-- The operand c of a D slot (R55, R64): the word at p7 as a core port reads it, before the bundle's own store, or b. -/
def operandC (t : Fin 64) (f : DSlot) (s : State) : BitVec 32 :=
  let x := s.tile t
  if f.src3 then
    match x.sOld with
    | some (w, old) => if w = x.p[7].toNat % 2097152 / 4 * 4 then old else wordOf s.coreByte (wordAt t x 7)
    | none => wordOf s.coreByte (wordAt t x 7)
  else x.sreg f.sb

/-- A D slot's moves and P-bus read (R55): stores, loads seen from the third slot on, post-modifications, and nothing outside the tile and its
scratchpad but the notes of the ck's accesses and of what a fault of the bundle restores. -/
def DMoves (t : Fin 64) (f : DSlot) (s u : State) : Prop :=
  let x := s.tile t
  let y := u.tile t
  let g := afterMove t x 0 f.x s.coreByte
  u = { s with tiles := u.tiles, mem := u.mem, flaws := u.flaws, now := u.now } ∧ (∀ i, i ≠ t → u.tile i = s.tile i) ∧
  (∀ a, u.byte a = afterMove t x 8 f.y (afterMove t x 0 f.x s.byte) a) ∧
  (∀ r p m v, f.y = .load r p m v → r ≠ 0 → (iter Tile.nextSlot 3 y).sreg r = wordOf g (wordAt t x (busPointer 8 p))) ∧
  (∀ r p m v, f.x = .load r p m v → r ≠ 0 → (∀ p' m' v', f.y ≠ .load r p' m' v') →
    (iter Tile.nextSlot 3 y).sreg r = wordOf s.coreByte (wordAt t x (busPointer 0 p))) ∧
  y.pmods = x.pmods ++ (if f.src3 then [((7 : Fin 16), x.m[7].toInt)] else []) ++ moveStep x 0 f.x ++ moveStep x 8 f.y ∧
  y = { x with acc := y.acc, aov := y.aov, sat := y.sat, pend := y.pend, pmods := y.pmods, undo := y.undo }

/-! ## The vector unit -/

/-- The entry of command `c` in the queue of tile `t` (R58): it reads its pointer and modifier at its bundle's A stage. -/
def queued (t : Fin 64) (c : Instr) (p : Fin 16) (m : Fin 8) (s : State) : VEntry :=
  { op := c, ptr := (s.tile t).p[p], step := (s.tile t).m[m], left := none, ptrs := [], chain := [] }

/-- `s` with `e` at the end of the queue of tile `t`. -/
def enqueued (t : Fin 64) (e : VEntry) (s : State) : State := s.withTile t fun x => { x with vq := x.vq ++ [e] }

/-- The vector unit of tile `t` after `n` ck in which nothing else of the chip happens (R58, R93). -/
def unitRuns (t : Fin 64) : Nat → State → Res
  | 0, s => .next s
  | n + 1, s => andThen (s.vTileTick t) (unitRuns t n)

/-- V-slot command `c`, with its pointer and modifier, enters the queue of tile `t`; a full queue makes it wait for its head. In an empty one it is
complete after the ck of its occupancy, and `P` then holds of the state (R58, R93). -/
def VCompletes (t : Fin 64) (c : Instr) (p : Fin 16) (m : Fin 8) (s : State) (P : State → Prop) : Prop :=
  ((s.tile t).vq.length < 8 → exec c s = .next (enqueued t (queued t c p m s) s)) ∧
  (8 ≤ (s.tile t).vq.length → exec c s = andThen (s.vHead t) fun u => .next (enqueued t (queued t c p m s) u)) ∧
  ((s.tile t).vq = [] → ∃ n u, unitRuns t n (enqueued t (queued t c p m s) s) = .next u ∧ (u.tile t).vq = [] ∧ P u)

/-- Only the register group of `n` elements of `w` bits from `vd` changed: element `i` holds `es i`, or keeps its bits where that is none. -/
def VecResult (t : Fin 64) (vd w n : Nat) (es : Nat → Option Nat) (s u : State) : Prop :=
  u = { s with tiles := u.tiles } ∧ (∀ i, i ≠ t → u.tile i = s.tile i) ∧ u.tile t = { s.tile t with v := (u.tile t).v } ∧
  ∀ (r : Fin 32) (b : Nat), b < 2048 →
    let pos := (r.val + 32 - vd % 32) % 32 * 2048 + b
    (u.tile t).v[r].getLsbD b =
      if pos < n * w then ((es (pos / w)).map fun e => e.testBit (pos % w)).getD ((s.tile t).v[r].getLsbD b) else (s.tile t).v[r].getLsbD b

/-- The results `g` under mask field `k` (R83): a disabled element is 0 with km, and else keeps its bits. -/
def underMask (x : Tile) (k : Fin 8) (km : Bool) (g : Nat → Nat) (i : Nat) : Option Nat :=
  if k = 0 ∨ x.k[k].getLsbD (i % 64) = true then some (g i) else if km then some 0 else none

/-- No ECC error waits to be met. -/
def NoErrors (s : State) : Prop := s.flaws = [] ∧ s.rep.lost = []

/-! ## Frames, batches and jobs -/

/-- The words of a field. -/
def fieldWords (f : Fld) : List Nat := [f.addr + 4 * (f.lo / 32), f.addr + 4 * ((f.lo + f.w - 1) / 32)]

/-- Receive ring `r` is enabled, lies in LPDDR6 that is on, and is not full; the buffer of its next descriptor lies there too, outside the
ring (R272). -/
def RingReady (r : Fin 3) (bs : List (BitVec 8)) (s : State) : Prop :=
  let h := 64 * s.get (OPT_RXRr.addr r)
  let l := ringLog (s.get (OPT_RXRr.log2size r))
  let prod := s.le h 4
  let a := h + 64 + 32 * (prod % 2 ^ l)
  let n := Nat.min bs.length (s.le (a + 8) 2)
  s.flag (OPT_RXRr.en r) = true ∧ s.addrOn h = true ∧ h + 64 + 32 * 2 ^ l ≤ 0xF00000000 ∧
  (BitVec.ofNat 32 prod - BitVec.ofNat 32 (s.le (h + 4) 4)).toNat ≠ 2 ^ l ∧
  s.rangeOn (s.le a 5) (Nat.max 1 n) = true ∧ s.le a 5 + n ≤ 0xF00000000 ∧ (s.le a 5 + n ≤ h ∨ h + 64 + 32 * 2 ^ l ≤ s.le a 5)

/-- Ring `r` took a frame (R272): buffer, descriptor and prod, and no other byte of memory. -/
def RingTakes (r : Fin 3) (ptp : Bool) (p : Fin 32) (q : Nat) (bs : List (BitVec 8)) (s u : State) : Prop :=
  let h := 64 * s.get (OPT_RXRr.addr r)
  let prod := s.le h 4
  let a := h + 64 + 32 * (prod % 2 ^ ringLog (s.get (OPT_RXRr.log2size r)))
  let buf := s.le a 5
  let n := Nat.min bs.length (s.le (a + 8) 2)
  (∀ i, i < n → bs[i]? = some (u.byte (buf + i))) ∧ u.le (a + 10) 2 = bs.length % 65536 ∧ u.le (a + 12) 1 = p.val ∧
  u.le (a + 13) 1 = (if s.le (a + 8) 2 < bs.length then 1 else 0) + 2 * ptp.toNat ∧
  u.le (a + 16) 6 = qSec q ∧ u.le (a + 22) 4 = qBelow q ∧ u.le h 4 = (prod + 1) % 2 ^ 32 ∧
  ∀ z, (z < buf ∨ buf + n ≤ z) → (z < a + 10 ∨ a + 14 ≤ z) → (z < a + 16 ∨ a + 26 ≤ z) → (z < h ∨ h + 4 ≤ z) → u.byte z = s.byte z

/-- Fronthaul frames of ingress engine `e` after the message at the head of frame `f` is done (R151). -/
def messageLeft (f : FhFrame) (m : Ecpri) (rest : List FhFrame) : List FhFrame :=
  match m.next with
  | some o => { f with off := o } :: rest
  | none => rest

/-- Engine `e` is done with its head message. -/
def Popped (e : Fin 4) (f : FhFrame) (m : Ecpri) (rest : List FhFrame) (s u : State) : Prop :=
  u.opt.buf = s.opt.buf.set e.val (messageLeft f m rest)

/-- Unit `u` of class `c` has nothing queued, and nothing holds it from going on. -/
def LastJob (c u : Nat) (s : State) : Prop := (s.unit c u).ptrs = [] ∧ (s.unit c u).draining = false

/-! ## Receiver engines and the repair log -/

/-- Unit `u` of an engine class exists, is present, on and out of reset, and waits for no remap. -/
def EngineRuns (k : HardClass) (u : Nat) (s : State) : Prop :=
  u < unitCount (clsNum k) ∧ UnitRuns (clsDomain (clsNum k)).1 (clsDomain (clsNum k)).2 (clsKind k) u s

/-- Only unit `u` of an engine class changed, and its ENG_CTL and ENG_STAT. -/
def EngineOnly (k : HardClass) (u : Nat) (s t : State) : Prop :=
  t = { s with hard := t.hard, regs := t.regs, now := t.now } ∧ (∀ i : Fin 37, i ≠ unitIx (clsNum k) u → t.hard[i.val] = s.hard[i.val]) ∧
  WordsKept s t [engBase (clsNum k) u, engBase (clsNum k) u + 0x10]

/-- ENG_STAT of a unit shows `n` pointers and state `st`. -/
def EngineShows (k : HardClass) (u n st : Nat) (t : State) : Prop := t.get (engNq (clsNum k) u) = n ∧ t.get (engState (clsNum k) u) = st

/-- The completion record of a job (R190): tag, status, iterations, zeros and time, and prod advanced; no other byte of memory changed but
those at `bs`. -/
def Recorded (d : BitVec 1024) (status iter : Nat) (bs : List (Nat × Nat)) (s u : State) : Prop :=
  let prod := s.le (eRing d 0) 4
  let a := eRing d 0 + 64 + 16 * (prod % 2 ^ eClog d)
  (eClog d ≠ 0 → u.le a 4 = eTag d ∧ u.le (a + 4) 1 = status ∧ u.le (a + 5) 1 = iter ∧ u.le (a + 6) 2 = 0 ∧ u.le (a + 8) 8 = s.atNow (eAt d) ∧
    u.le (eRing d 0) 4 = (prod + 1) % 2 ^ 32) ∧
  ∀ z, (eClog d ≠ 0 → (z < a ∨ a + 16 ≤ z) ∧ (z < eRing d 0 ∨ eRing d 0 + 4 ≤ z)) → (∀ b ∈ bs, z < b.1 ∨ b.1 + b.2 ≤ z) → u.byte z = s.byte z

/-- The completion ring of a job lies within its cluster memory. -/
def RingFits (d : BitVec 1024) : Prop := 64 * ef d 16 6 18 + 64 + 16 * 2 ^ eClog d ≤ 2 ^ 24

/-- Only register words changed, among those at `as`. -/
def RegsOnly (as : List Nat) (s t : State) : Prop := t = { s with regs := t.regs, now := t.now } ∧ WordsKept s t as

/-- The words of the repair log's next entry, its pointer and its cause. -/
def logWords (s : State) : List Nat :=
  let i := s.get PWR_REP_LOGP.next
  [PWR_REP_LOGi.reg i, PWR_REP_LOGi.reg i + 4, PWR_REP_LOGi.reg i + 8, PWR_REP_LOGi.reg i + 12,
    PWR_REP_LOGP.reg, PWR_REP_CAUSE.reg]

/-- One record of a class was logged (R297). -/
def Logged (cls kind unit addr : Nat) (s t : State) : Prop :=
  let i := s.get PWR_REP_LOGP.next
  t.get (PWR_REP_LOGi.mono i) = s.mono.toNat ∧ t.get (PWR_REP_LOGi.class i) = cls ∧ t.get (PWR_REP_LOGi.kind i) = kind ∧
  t.get (PWR_REP_LOGi.unit i) = unit ∧ t.get (PWR_REP_LOGi.addr i) = addr ∧ t.get PWR_REP_LOGP.next = (i + 1) % 64 ∧ t.get PWR_REP_CAUSE.log = 1

/-! ## Contexts and jobs -/

/-- The counters of a client (R261). -/
def clientWords (c : Fin 64) : List Nat := (List.range 4).map fun i => CTX_CLIc.reg c + 4 * i

/-- A client counter went up by one, to at most 0xFFFF_FFFF (R261). -/
def Counted (f : Fld) (s u : State) : Prop := u.get f = Nat.min (s.get f + 1) 4294967295

/-- A job of descriptor `d`, without a watch, was queued on its context (R248). -/
def JobQueued (d : BitVec 512) (s u : State) : Prop :=
  let n := jCtx d
  (∃ j, (u.ctx n) = { s.ctx n with queued := (s.ctx n).queued ++ [j] } ∧ j.seq = s.cx.seq ∧ j.tag.toNat = jTag d ∧ j.client = some (jClient d) ∧
    j.flag = jFlag d ∧ j.fen = jFen d ∧ j.watch = none ∧ j.args.toNat = d.toNat / 2 ^ 256 ∧
    j.deadline = if dfield d 10 3 1 = 1 then some (dfield d 16 0 33) else none) ∧
  u.get (CTX_STATn.nq n) = (s.ctx n).queued.length + 1 ∧
  u.cstate n = (if s.cstate n = 3 ∨ (s.cstate n = 1 ∧ (s.ctx n).job = none) then 4 else s.cstate n) ∧
  Counted (CTX_CLIc.issued (jClient d)) s u ∧ (∀ i, i ≠ n → u.ctx i = s.ctx i) ∧ u.cx.watch = s.cx.watch ∧ u.cx.seq = s.cx.seq + 1 ∧
  WordsKept s u (CTX_STATn.reg n :: clientWords (jClient d))

/-- Only context `n`, its status words and the words at `as` changed, of the context unit and the registers. -/
def CtxOnly (n : Fin 256) (as : List Nat) (s u : State) : Prop :=
  u = { s with cx := u.cx, regs := u.regs, now := u.now } ∧ (∀ i, i ≠ n → u.ctx i = s.ctx i) ∧ u.cx.watch = s.cx.watch ∧
  WordsKept s u (CTX_CTXn.reg n :: CTX_STATn.reg n :: (CTX_STATn.reg n + 4) :: as)

/-- No queue of context `n` is to be stopped, no Comet transfer of its tiles is out, its job has no watch, and no switch is under way. -/
def CtxQuiet (n : Fin 256) (s : State) : Prop :=
  s.get (CTX_CTXn.qmask n) = 0 ∧ s.cometsOut n = false ∧ s.cx.switches = [] ∧
  (∀ j, (s.ctx n).job = some j ∨ j ∈ (s.ctx n).queued → s.watchOf j = none)

/-- No event of context `n` has come about that precedes a periodic check in its ck (R232): its job has not ended, no tile has faulted, no stop is
in progress, and it is not about to start. -/
def NoEvent (n : Fin 256) (s : State) : Prop :=
  s.cstate n ≠ 6 ∧ (s.ctx n).startAt = none ∧ (s.cstate n = 5 → ∃ t ∈ s.ctiles n, s.get (TIL_CTL.run t) = 1) ∧
  ∀ t ∈ s.ctiles n, s.get (TIL_STAT.state t) ≠ 5

/-- The ranges of context `n` lie in the scratchpads and its image in LPDDR6 (R245). -/
def RangesFit (n : Fin 256) (s : State) : Prop :=
  s.get (CTX_CTXn.lo n) + s.get (CTX_CTXn.len n) ≤ 127 ∧ 7 ≤ s.get (CTX_CTXn.len n) ∧ s.cimage n + s.cbytes n ≤ 0x0F00000000

/-- Byte `k` of the range of the `i`th tile `t`, and of the image (R246). -/
def rangeByte (s : State) (n : Fin 256) (t : Fin 64) (k : Nat) : Nat := 0x1100000000 + 0x400000 * t.val + s.clow n + k
def imageByte (s : State) (n : Fin 256) (i k : Nat) : Nat := s.cimage n + i * s.crange n + k

/-- An address in the register image of a tile of context `n`. -/
def inImages (s : State) (n : Fin 256) (z : Nat) : Prop :=
  ∃ t ∈ s.ctiles n, rangeByte s n t (s.crange n - 0x20000) ≤ z ∧ z < rangeByte s n t (s.crange n)

/-! ## Apsis links -/

/-- Link `o` is up, holds fewer than 512 flits, has none waiting and has credit of virtual channel `v`: a flit leaves at once (R287). -/
def LinkReady (o : Fin 32) (v : Fin 3) (s : State) : Prop :=
  s.get (APX_Lp_STAT.state o) = 2 ∧ (s.link o).wait = [] ∧ (s.link o).unacked.length < 512 ∧ (s.link o).cred[v] ≠ 0

/-- Flit `x` left on link `o`: it took the next seq and a credit of channel `v`, and is held for replay (R287). -/
def Leaves (o : Fin 32) (v : Fin 3) (x : OutFlit) (s u : State) : Prop :=
  (u.link o).out = (s.link o).out ++ [x] ∧ (u.link o).unacked = (s.link o).unacked ++ [x] ∧ x.f.seq = (s.link o).seq ∧
  (u.link o).seq = (s.link o).seq + 1 ∧ (u.link o).cred[v] = (s.link o).cred[v] - 1

/-! ## Register accesses -/

/-- The block that holds address `a` is on, out of reset and present, whatever else the state holds: an access reaches it (R320, R344, R384). -/
def BlockRuns (a : Nat) (s : State) : Prop := ∀ (f : State → Res) (t : State), t.regs = s.regs → t.pwr = s.pwr → accessBlock a t f = f t

/-- The domain and the reset group of a control register (R319, R343, R382); those of the Orrery engines and the tiles go by units. -/
def blockHome (a : Nat) : Option (Nat × Nat) :=
  match blockOf a with
  | some 0 => some (if a / 8 * 8 = SYS_STAT.reg then (80, 0) else (82, 1))
  | some 1 | some 7 | some 9 | some 10 => some (82, 1)
  | some 2 | some 3 | some 4 | some 5 | some 6 => some (80, 0)
  | some 11 => some (83, 1)
  | some 12 => some (82, 4)
  | some 13 | some 20 => some (match engineOf a with | some e => (92 + e, 4) | none => (82, 4))
  | some 14 => some (91, 2)
  | some 15 => some (if txRegs a then (87, 2) else (86, 2))
  | some 16 => some (86, 2)
  | some 17 => some (88, 3)
  | some 18 | some 19 => some (89, 3)
  | some 21 => some (90, 5)
  | _ => none

/-- Hart `h` runs and waits for no cbo.clean (R337, R351, R356). -/
def HartRuns (h : Fin 8) (s : State) : Prop :=
  Runs 90 5 s ∧ s.ack = true ∧ (s.get ACX_HPARK.park).testBit h = false ∧ (s.get ACX_HPARK.absent).testBit h = false ∧ (s.hart h).clean = none

/-- An access of `n` bytes at `addr` by a hart, through its translation and PMP, or by JTAG comes to map address `a`. -/
def Reaches (src : Requester) (p : Purpose) (addr : BitVec 64) (n a : Nat) (s : State) : Prop :=
  match src with
  | .hart h => HartRuns h s ∧ s.translate h p addr.toNat n = .ok a
  | .jtag => s.domOn 81 = true ∧ addr.toNat = a
  | _ => False

/-- What SYS_BADA.src shows of a requester (R384). -/
def srcCode : Requester → Nat
  | .hart _ => 0
  | .jtag => 2
  | _ => 1

/-- The read of a requester returned `v`: in register `rd` of the hart, or as the answer. -/
def Answers (src : Requester) (signed : Bool) (rd : Fin 64) (n : Nat) (v : BitVec 64) (s u : State) : Prop :=
  match src with
  | .hart h => u.acx = (s.withHart h fun c => c.setReg rd (loadValue signed rd n v.toNat)).acx ∧ u.pcie = s.pcie
  | _ => u.acx = s.acx ∧ u.pcie = { s.pcie with answer := some v }

/-- An access that R350's table allows the M880 as an endpoint: any in backed LPDDR6, elsewhere aligned ones that are not atomic, to control registers of
4 or 8 bytes. -/
def TableAllows (a n : Nat) (atomic : Bool) : Prop :=
  a + n ≤ 0x0F00000000 ∨
  (atomic = false ∧ a % n = 0 ∧ ((0x0F00000000 ≤ a ∧ a < 0x1008000000) ∨ (0x1100000000 ≤ a ∧ a < 0x1110000000) ∨ (0x1200000000 ≤ a ∧ a < 0x1201000000) ∨
    (4 ≤ n ∧ 0x1800000000 ≤ a ∧ a < 0x1810000000)))

/-- Hart `h` took a trap, and nothing else changed (R350). In machine mode the saved program counter is that of the instruction, the cause and address
are recorded, and execution goes on at mtvec with interrupts off. -/
def Trapped (h : Fin 8) (cause va : Nat) (s u : State) : Prop :=
  let c := s.hart h
  let d := u.hart h
  u = s.withHart h (fun _ => d) ∧ d = { c with csr := d.csr, mode := d.mode, pc := d.pc } ∧
  (c.mode = .m → Sparse.wf csrReset c.csr = true → d.mode = .m ∧ d.get 0x341 = c.pc.toNat ∧ d.get 0x342 = cause ∧ d.get 0x343 = va % 2 ^ 64 ∧
    d.pc = BitVec.ofNat 64 (c.get 0x305 / 4 * 4) ∧ d.bit 0x300 7 = c.bit 0x300 3 ∧ d.bit 0x300 3 = false ∧ bitsOf (d.get 0x300) 11 2 = 3)

end Sys2Proof.Claims
end

