-- ==== Sys2Proof/Certificates/Slice0/Obligations.lean ====
section
/-! DEFINITION. The statements about the block, for the provers: completion, results, frames and faults of every family of commands, and
the invariants that every step keeps. -/

open Sys2Proof Sys2Proof.Machine Sys2Proof.Claims

/-- A step runs the command at the front of the queue (95_what_each_step_holds).
For every state, every command and every rest of the queue: a step of the state with the command at the front of its queue is exec of the
command on the state with the queue's rest. -/
def Obligations.StepRunsTheFrontCommand : Prop :=
  ∀ (s : State) (c : Instr) (rest : List Instr), step { s with pending := c :: rest } = exec c { s with pending := rest }

/-- Air instants compare by their difference under the wrap (R10).
The difference of two air instants is the number from −2,516,582,400 to 2,516,582,399 that is congruent to a − b modulo 5,033,164,800, and
a is later than b exactly when that difference is positive. -/
def Obligations.AirInstantsCompareUnderTheWrap : Prop :=
  ∀ a b : Nat, -2516582400 ≤ airDiff a b ∧ airDiff a b ≤ 2516582399 ∧ (∃ k : Int, airDiff a b = (a : Int) - b + k * 5033164800) ∧
    (airLater a b = true ↔ 0 < airDiff a b)

/-- What a ck does when no command waits (R4, R12, R23, R65, R321, R370).
On an empty queue a step is one ck, when no V-slot operation, PCIe register access, push of the monitor or write back waits and no two
ports have met in one scratchpad word. While FCK runs and G1 is on and released, NT advances by TMB_NT_INC in units of 2^-40 ns, its
seconds wrapping at 2^48, and TMB_MONO by exactly 1; while FCK is stopped or G1 is off or held, both stay. What the ck before noted of
itself is forgotten. With FCK stopped a domain whose ramp is due reports its state, and a quote whose instant has come is written to its
buffer with qdone set and busy cleared; two ports that have met are the undefined case of R65. That a step on an empty queue is one ck is
the model's choice (log entry 30). -/
def Obligations.AnIdleCkAdvancesTime : Prop :=
  ∀ (s : State), Canonical s → s.pending = [] → s.pcie.late = [] → s.cx.pushes = [] → s.acx.wb = [] → (∀ t : Fin 64, (s.tile t).vq = []) →
    (s.now.clash = true → step s = .fault .twoPortWrites) ∧
    (s.now.clash = false →
    let cycle : Nat := 2 ^ 48 * 1000000000 * 2 ^ 40
    let ran (u : State) : Prop := u.pwr.ck = s.pwr.ck + 1 ∧ u.pending = []
    (s.sec.quote = none → s.pwr.ramp = [] → s.fck = true → s.domOn 82 = true → s.held 1 = false → ∃ u, step s = .next u ∧ ran u ∧
      u.tb.mono = s.tb.mono + 1 ∧ u.tb.nt.total = (s.tb.nt.total + s.get TMB_NT_INC.inc) % cycle ∧ u.tb.nt.ns ≤ 999999999) ∧
    (s.sec.quote = none → s.pwr.ramp = [] → (s.fck = false ∨ s.domOn 82 = false ∨ s.held 1 = true) → ∃ u, step s = .next u ∧ ran u ∧ u.tb = s.tb) ∧
    (s.fck = false →
      (s.sec.quote = none → s.pwr.ramp = [] → ∃ u, step s = .next u ∧ ran u ∧ u.regs = s.regs ∧ u.mem = s.mem ∧ u.now.set = [] ∧ u.now.old = [] ∧
        u.now.core = [] ∧ u.now.port = []) ∧
      (∀ (d : Fin 96) t, s.sec.quote = none → s.pwr.ramp = [(d, 2, t)] → monoLe t (s.pwr.ck + 1) = true → ∃ u, step s = .next u ∧ ran u ∧
        nthD u.pwr.dom.toList d.val 0 = 2 ∧ u.pwr.ramp = [] ∧ (∀ e : Fin 96, e ≠ d → nthD u.pwr.dom.toList e.val 0 = nthD s.pwr.dom.toList e.val 0)) ∧
      (∀ due a q, s.pwr.ramp = [] → s.sec.quote = some (due, a, q) → s.domOn 80 = true →
        (monoLe due (s.pwr.ck + 1) = false → ∃ u, step s = .next u ∧ ran u ∧ u.sec = s.sec ∧ u.regs = s.regs ∧ u.mem = s.mem) ∧
        (monoLe due (s.pwr.ck + 1) = true → s.lck = true → s.held 1 = false → s.rangeOn a 2852 = true → q.length = 2852 → a + 2852 ≤ 0xF00000000 →
          ∃ u, step s = .next u ∧ ran u ∧ u.sec.quote = none ∧ u.get SEC_QCTL.busy = 0 ∧ u.get SEC_CAUSE.qdone = 1 ∧
            (∀ i b, q[i]? = some b → u.byte (a + i) = b) ∧ ∀ z, z < a ∨ a + 2852 ≤ z → u.byte z = s.byte z))))

/-- The invariant holds at reset (R6, R23).
Memory, the register file and the ECC errors of the state after reset are in their canonical forms, and the nanoseconds of NT are in
range. The values that the spec does not state are the model's choice (log entries 3, 4 and 5). -/
def Obligations.TheInvariantHoldsAtReset : Prop :=
  Inv State.reset

/-- Every step keeps the invariant (R6, R23, R55, R119, R316, R383).
From every state in which memory, the register file and the ECC errors are in their canonical forms and the nanoseconds of NT lie from 0
to 999,999,999, a step of any command, or of one ck when none waits, that gives a next state gives one of which the same holds. -/
def Obligations.EveryStepKeepsTheInvariant : Prop :=
  ∀ s t : State, Inv s → step s = .next t → Inv t

/-- Phase updates and frequency measurements move the servo terms; a lost source freezes its loop (R28, R29, R33).
With the fabric running and no watchdog expiry in this ck, a write of TMB_PHERR while phase_src = 0, and a PPS_IN edge while phase_src = 1
whose crossing is not busy, complete. phase_ok reads 1 and the watchdog counts from this ck. With servo_en = 1, and no forced holdover, I
grows by KI × θ and y_p becomes −(KP × θ + I); with servo_en = 0 both stay. θ is theta × 2^-16 ns, or the captured time less
CAL_E_PPS_IN_LAT less the nearest whole second. Nothing changes but the time base and the words of TMB_STAT, TMB_CAUSE and TMB_NT_INC. A
measurement at a new millisecond of NT, with a source selected and present, sets freq_ok; with servo_en = 1 outside holdover y_f grows by
KF × (N_meas − N_nom)/N_nom, else it stays. The loss of the source sets freq_lost, clears freq_ok and leaves y_f; its return leaves y_f
and lets measurements act again. -/
def Obligations.ServoFollowsItsSources : Prop :=
  (∀ (s : State) (theta : BitVec 48) (sec : BitVec 48) (qns : Fin 4000000000), Runs 82 1 s → Regs.wf s = true → s.tb.expired = none →
    let moved (θ : Rat) (t : State) : Prop :=
      t.get TMB_STAT.phase_ok = 1 ∧ t.tb.lastUpd = some s.tb.mono ∧
      (s.flag TMB_CTL.servo_en = false → t.tb.integ = s.tb.integ ∧ t.tb.yp = s.tb.yp) ∧
      (s.flag TMB_CTL.servo_en = true → (s.get TMB_STAT.state = 2 → s.flag TMB_CTL.ho_force = false) →
        t.tb.integ = s.tb.integ + gain (s.get TMB_KI.m) (s.get TMB_KI.s) * θ ∧
        t.tb.yp = -(gain (s.get TMB_KP.m) (s.get TMB_KP.s) * θ + t.tb.integ)) ∧
      t = { s with tb := t.tb, regs := t.regs, now := t.now } ∧
      WordsKept s t [TMB_STAT.reg, TMB_CAUSE.reg, TMB_NT_INC.reg, TMB_NT_INC.reg + 4]
    (s.get TMB_CTL.phase_src = 0 → Completes (.pherrWrite theta) s (moved ((theta.toInt : Rat) / 65536))) ∧
    (s.get TMB_CTL.phase_src = 1 → s.ppsBusy = false → Completes (.ppsInEdge sec qns) s
      (moved (ppsError (((sec.toNat * 1000000000 : Nat) : Rat) + (qns.val : Rat) / 4 - (s.cal 333 : Rat) / 256))))) ∧
  (∀ (s : State) (meas nom : Nat), Runs 82 1 s → Regs.wf s = true →
    (s.freqSelected = true → s.tb.freqLost = false → s.tb.freqMs < s.tb.nt.total / (1000000 * Config.ntFrac) →
      Completes (.frequencyLoopMeasurement meas nom) s (fun t =>
        t.get TMB_STAT.freq_ok = 1 ∧
        t.tb.yf = (if s.flag TMB_CTL.servo_en = true ∧ s.get TMB_STAT.state ≠ 2 then
          s.tb.yf + gain (s.get TMB_KF.m) (s.get TMB_KF.s) * (((meas : Rat) / 65536 - nom) / nom) else s.tb.yf) ∧
        t.tb.yp = s.tb.yp ∧ t = { s with tb := t.tb, regs := t.regs, now := t.now } ∧
        WordsKept s t [TMB_STAT.reg, TMB_CAUSE.reg, TMB_NT_INC.reg, TMB_NT_INC.reg + 4])) ∧
    Completes .frequencySourceLost s (fun t => t.get TMB_CAUSE.freq_lost = 1 ∧ t.get TMB_STAT.freq_ok = 0 ∧ t.tb.yf = s.tb.yf ∧
      t.tb.freqLost = true ∧ t = { s with tb := t.tb, regs := t.regs, now := t.now } ∧ WordsKept s t [TMB_STAT.reg, TMB_CAUSE.reg]) ∧
    Completes .frequencySourceReturn s (fun t => t.tb.freqLost = false ∧ t.tb.yf = s.tb.yf ∧ t = { s with tb := t.tb }))

/-- Holdover freezes the increment and the servo; clearing servo_en ends it (R31, R32, R34).
With servo_en = 1 and the time base not in holdover: ho_force = 1, phase_src = 3, and a watchdog that has counted TMB_WDOG.ms × 2,200,000
ck enter holdover: state 2, ho_enter set, TMB_NT_INC, I and y_f as they were; a phase update in the ck of the expiry counts as the update
and undoes it. A write of servo_en = 1 under a forced holdover enters it too, and every write of servo_en = 1 restarts the lock count. A
write of servo_en = 0 in holdover gives state 0, sets ho_exit, and returns TMB_NT_INC to TMB_NT_INC_NOM, I and y_f staying. -/
def Obligations.HoldoverBeginsAndEnds : Prop :=
  ∀ (s : State), Runs 82 1 s → Regs.wf s = true →
    let frozen (t : State) : Prop :=
      t.get TMB_STAT.state = 2 ∧ t.get TMB_CAUSE.ho_enter = 1 ∧ t.get TMB_NT_INC.inc = s.get TMB_NT_INC.inc ∧
      t.tb.integ = s.tb.integ ∧ t.tb.yf = s.tb.yf ∧ t = { s with tb := t.tb, regs := t.regs, now := t.now } ∧
      WordsKept s t [TMB_CTL.reg, TMB_STAT.reg, TMB_CAUSE.reg]
    (s.flag TMB_CTL.servo_en = true → s.get TMB_STAT.state ≠ 2 →
      Completes .hoForce s (fun t => frozen t ∧ t.tb = s.tb ∧ t.get TMB_CTL.ho_force = 1) ∧
      Completes (.phaseSrcWrite 3) s (fun t => frozen t ∧ t.tb = s.tb ∧ t.get TMB_CTL.phase_src = 3) ∧
      (s.get TMB_WDOG.ms ≠ 0 → s.get TMB_WDOG.ms * 2200000 ≤ s.since s.watchdogFrom →
        Completes .watchdogExpiry s (fun t => frozen t ∧ t.tb = { s.tb with expired := t.tb.expired } ∧
          ∀ theta : BitVec 48, s.get TMB_CTL.phase_src = 0 → Completes (.pherrWrite theta) t (fun u => u.get TMB_STAT.state ≠ 2 ∧
            u.flag TMB_CAUSE.ho_enter = s.flag TMB_CAUSE.ho_enter ∧ u.get TMB_CAUSE.ho_exit = s.get TMB_CAUSE.ho_exit ∧ u.tb.lastUpd = some s.tb.mono)))) ∧
    (s.flag TMB_CTL.ho_force = true → s.get TMB_STAT.state ≠ 2 → Completes (.servoEnWrite true) s (fun t => frozen t ∧ t.tb.near = 0)) ∧
    Completes (.servoEnWrite true) s (fun t => t.get TMB_CTL.servo_en = 1 ∧ t.tb.near = 0 ∧ t.tb.integ = s.tb.integ ∧ t.tb.yf = s.tb.yf) ∧
    (s.get TMB_STAT.state = 2 → Completes (.servoEnWrite false) s (fun t =>
      t.get TMB_STAT.state = 0 ∧ t.get TMB_CAUSE.ho_exit = 1 ∧ t.get TMB_NT_INC.inc = s.get TMB_NT_INC_NOM.inc ∧ t.tb = s.tb ∧
      t = { s with regs := t.regs, now := t.now } ∧ WordsKept s t [TMB_CTL.reg, TMB_STAT.reg, TMB_CAUSE.reg, TMB_NT_INC.reg, TMB_NT_INC.reg + 4]))

/-- Time-base writes act while no bound engine runs and are undefined while one does (R26, R35).
While no Orrery engine bound to an affected enabled timeline runs, writes of TMB_ATn_OFF, TMB_EPOCH, TMB_ATn_CFG and TMB_STEP complete
with the value written, and a step moves NT by step × 2^-16 ns (for a sum that is not negative and below 2^48 s). While the timeline is
enabled and an engine bound to it runs (for the epoch and the step: while one bound to any enabled timeline runs), each is the undefined
case of R26 and R35, and the model stops with a fault of its own name. -/
def Obligations.TimelineWritesNeedHaltedEngines : Prop :=
  ∀ (s : State) (n : Fin 8) (off : BitVec 33) (sec step : BitVec 48) (dup ecp en : Bool) (mu : Fin 4), Runs 82 1 s → Regs.wf s = true →
    ((s.timelineOn n = false ∨ s.engineBound n = false) →
      Completes (.timelineOffsetWrite n off) s (fun t => t.get (TMB_ATn_OFF.off n) = off.toNat ∧ t = { s with regs := t.regs, now := t.now } ∧
        WordsKept s t [TMB_ATn_OFF.reg n, TMB_ATn_OFF.reg n + 4]) ∧
      Completes (.timelineEnable n dup ecp mu false) s (fun t => t.timelineOn n = false ∧ t.atNow n = 0 ∧ t = { s with regs := t.regs, now := t.now } ∧
        WordsKept s t [TMB_ATn_CFG.reg n]) ∧
      Completes (.timelineEnable n dup ecp mu true) s (fun t => t.timelineOn n = true ∧ t.get (TMB_ATn_CFG.mu n) = mu.val ∧
        t.tb = s.tb ∧ t.mem = s.mem)) ∧
    (s.anyEngineBound = false →
      Completes (.epochWrite sec) s (fun t => t.get TMB_EPOCH.sec = sec.toNat ∧ t = { s with regs := t.regs, now := t.now } ∧
        WordsKept s t [TMB_EPOCH.reg, TMB_EPOCH.reg + 4]) ∧
      ((0 : Int) ≤ s.tb.nt.total + step.toInt * 2 ^ 24 → (s.tb.nt.total : Int) + step.toInt * 2 ^ 24 < 2 ^ 48 * 1000000000 * 2 ^ 40 →
        Completes (.phaseStep step) s (fun t => (t.tb.nt.total : Int) = s.tb.nt.total + step.toInt * 2 ^ 24 ∧ t.tb.mono = s.tb.mono ∧
          t = { s with tb := t.tb, apx := { s.apx with ms := t.apx.ms } }))) ∧
    (s.timelineOn n = true → s.engineBound n = true →
      exec (.timelineOffsetWrite n off) s = .fault .timelineReprogrammed ∧
      exec (.timelineEnable n dup ecp mu en) s = .fault .timelineReprogrammed) ∧
    (s.anyEngineBound = true →
      exec (.epochWrite sec) s = .fault .timelineReprogrammed ∧ exec (.phaseStep step) s = .fault .timelineReprogrammed)

/-- The snapshot holds one ck of NT, TMB_MONO and every timeline; PPS_OUT follows whole seconds (R23, R24, R26, R406).
A write of TMB_SNAP copies NT, TMB_MONO and at_now of all eight timelines, 0 for a disabled one, into the snapshot registers and changes
nothing else. A write of TMB_PPSO stores its fields and leaves a pulse in progress. With en = 1, PPS_OUT rises once NT less the output
latency has passed a whole second, for width µs (0 counting as 1), and falls when that time has passed, whatever en then is. -/
def Obligations.SnapshotAndPulseOutput : Prop :=
  ∀ (s : State) (width : BitVec 8) (en : Bool), Runs 82 1 s → Regs.wf s = true →
    (s.tb.nt.ns < 1000000000 → Completes .snap s (fun t =>
      t.get TMB_SNAP_SEC.sec = s.tb.nt.sec.toNat ∧ t.get TMB_SNAP_NS.ns = s.tb.nt.ns ∧
      t.get TMB_SNAP_NS.frac = s.tb.nt.frac.toNat / 256 ∧ t.get TMB_SNAP_MONO.ck = s.tb.mono.toNat ∧
      (∀ n : Fin 8, t.get (TMB_SNAP_ATn.at n) = s.atNow n) ∧ t = { s with regs := t.regs, now := t.now } ∧
      WordsKept s t (TMB_SNAP_SEC.reg :: (TMB_SNAP_SEC.reg + 4) :: TMB_SNAP_NS.reg :: (TMB_SNAP_NS.reg + 4) :: TMB_SNAP_MONO.reg ::
        (TMB_SNAP_MONO.reg + 4) :: (List.range 16).map (fun i => TMB_SNAP_ATn.reg 0 + 4 * i)))) ∧
    Completes (.ppsoWrite width en) s (fun t => t.get TMB_PPSO.width = width.toNat ∧ t.get TMB_PPSO.en = en.toNat ∧
      t.tb.ppsHigh = s.tb.ppsHigh ∧ t.tb.nt = s.tb.nt ∧ t = { s with tb := t.tb, regs := t.regs, now := t.now } ∧ WordsKept s t [TMB_PPSO.reg]) ∧
    (s.flag TMB_PPSO.en = true → s.tb.ppsLast < s.ppsSeconds → Completes .ppsOutRise s (fun t => t.ppsOutHigh = true ∧
      t.tb.ppsHigh = some (s.tb.mono + BitVec.ofNat 64 ((if s.get TMB_PPSO.width = 0 then 1 else s.get TMB_PPSO.width) * 2200)) ∧
      t.tb.ppsLast = s.ppsSeconds ∧ t = { s with tb := t.tb })) ∧
    (∀ e, s.tb.ppsHigh = some e → 0 ≤ (s.tb.mono - e).toInt → Completes .ppsOutFall s (fun t => t.ppsOutHigh = false ∧ t = { s with tb := t.tb }))

/-- Timetable words that are no actions: pc, time registers, loops and halts (R41, R42, R43).
On a running engine that is decoding, has decoded no word in this ck and has no group open: NOP goes on at the next word. JMP goes on at
addr. SETT, ADDT and NEXTF set ta to t, to ta + t under the wrap, and to the first frame start at least 8,192 at away, and go on. EVERY
with a body opens a level over the next len words, and with no body and a finite count leaves ta + count × period at once. HALT clears run
and leaves the engine halted; a reserved opcode and an EVERY at a fifth level do so and set bad_op. Nothing but the engine and the
Orrery's registers changes, the CONJ line of a chip in no other barrier being low after a halt. -/
def Obligations.TimetableControlWords : Prop :=
  ∀ (s : State) (n : Fin 8) (addr : Fin 2048) (ta : Fin 4) (t : BitVec 33) (len : BitVec 8) (count : BitVec 16) (period : BitVec 26),
    UnitRuns 82 1 11 n s → Regs.wf s = true → s.decoding n = true → (s.engine n).group = none → s.after (s.engine n).dec = true →
    s.tb.nt.ns ≤ 999999999 →
    let rest (u : State) : Prop := u = { s with orr := u.orr, regs := u.regs, now := u.now } ∧ u.orr.events = s.orr.events ∧
      (∀ m : Fin 8, m ≠ n → u.engine m = s.engine m)
    let on (v : Nat) (u : State) : Prop := rest u ∧ ((s.engine n).loops = [] → u.ta n ta = v ∧ u.engPc n = (s.engPc n + 1) % 2048)
    let halted (u : State) : Prop := rest u ∧ (u.engine n).active = false ∧ u.get (ORR_ENGn_CTL.run n) = 0 ∧ u.get (ORR_ENGn_STAT.state n) = 0
    Completes (.orrNop n) s (on (s.ta n ta)) ∧
    Completes (.jmp n addr) s (fun u => rest u ∧ u.engPc n = addr.val ∧ WordsKept s u [ORR_ENGn_STAT.reg n]) ∧
    Completes (.sett n ta t) s (on t.toNat) ∧
    Completes (.addt n ta t) s (on ((s.ta n ta + t.toNat) % 5033164800)) ∧
    Completes (.nextf n ta) s (on (ceilDiv (s.atNow (s.engine n).tl + 8192) 4915200 * 4915200 % 5033164800)) ∧
    ((s.engine n).loops.length < 4 → len ≠ 0 → Completes (.every n ta len count period) s (fun u => rest u ∧
      u.engPc n = (s.engPc n + 1) % 2048 ∧ (u.engine n).loops =
        ⟨(s.engPc n + 1) % 2048, len.toNat, if count = 0 then none else some count.toNat, ta, period.toNat⟩ :: (s.engine n).loops)) ∧
    ((s.engine n).loops.length < 4 → len = 0 → count ≠ 0 →
      Completes (.every n ta len count period) s (on ((s.ta n ta + count.toNat * period.toNat) % 5033164800))) ∧
    Completes (.orrHalt n) s halted ∧
    Completes (.orrReservedOpcode n) s (fun u => halted u ∧ (u.get ORR_CAUSE.bad_op).testBit n = true) ∧
    ((s.engine n).loops.length = 4 → Completes (.every n ta len count period) s (fun u => halted u ∧ (u.get ORR_CAUSE.bad_op).testBit n = true))

/-- A wait opens a group at its instant, and actions join it (R38, R39, R41, R42, R46).
On a running engine that is decoding, has decoded no word in this ck and has no group open: WAITA opens a group at t and WAITR one at ta +
t under the wrap. CONJ with role 0 or 3 takes at_now + lead as its instant, writes it to ta0, and with role 1 or 2 waits in the barrier
with its id, the CONJ line released in both cases. SWAP to a valid bank opens a group at a frame boundary, from which that bank runs, and
goes on at its word 0; to one that is not valid it halts with bad_op. Nothing but the Orrery and its registers changes. Each of ISSUE,
SCAN, IDLE, AGCF, NFSNAP and SIG joins the open group behind the actions it holds, or, with none open, opens a group of its own; the ck of
its decode becomes the group's last. None of them acts before the launch: nothing changes but the engine and the Orrery's registers. An
action of a wait whose instant has been reached is late, the undefined case of R39. -/
def Obligations.TimetableGroupsOpenAndFill : Prop :=
  (∀ (s : State) (n : Fin 8) (ta : Fin 4) (t : BitVec 33) (id : BitVec 8),
    UnitRuns 82 1 11 n s → Regs.wf s = true → s.decoding n = true → (s.engine n).group = none → s.after (s.engine n).dec = true →
    s.tb.nt.ns ≤ 999999999 →
    let rest (u : State) : Prop := u = { s with orr := u.orr, regs := u.regs, now := u.now } ∧ u.orr.events = s.orr.events ∧ ∀ m : Fin 8, m ≠ n → u.engine m = s.engine m
    let opened (i : GroupInst) (conj : Bool) (u : State) : Prop := rest u ∧ (u.engine n).group = some ⟨i, conj, [], s.tb.mono, none⟩
    let other := 1 - s.get (ORR_ENGn_STAT.bank n)
    let lead := (s.atNow (s.engine n).tl + s.get ORR_CONJ_CTL.lead) % 5033164800
    Completes (.waita n t) s (opened (.at (t.toNat % 5033164800)) false) ∧
    ((s.engine n).loops = [] → Completes (.waitr n ta t) s (opened (.at ((s.ta n ta + t.toNat) % 5033164800)) false)) ∧
    ((s.get ORR_CONJ_CTL.role = 0 ∨ s.get ORR_CONJ_CTL.role = 3) → Completes (.conj n id) s (fun u =>
      opened (.at lead) true u ∧ u.ta n 0 = lead ∧ u.orr.conjLow = false)) ∧
    ((s.get ORR_CONJ_CTL.role = 1 ∨ s.get ORR_CONJ_CTL.role = 2) → Completes (.conj n id) s (fun u =>
      opened (.barrier id s.tb.mono) true u ∧ u.get (ORR_ENGn_STAT.state n) = 3 ∧ u.orr.conjLow = false)) ∧
    ((s.get (ORR_ENGn_BANKV.valid n)).testBit other = true → Completes (.swap n) s (fun u => rest u ∧ u.engPc n = 0 ∧
      (u.engine n).swap = some (Fin.ofNat 2 other) ∧ u.get (ORR_ENGn_STAT.bank n) = s.get (ORR_ENGn_STAT.bank n) ∧ u.get (ORR_ENGn_STAT.state n) = 4 ∧
      ∃ k, (u.engine n).group = some ⟨.at (4915200 * k % 5033164800), false, [], s.tb.mono, none⟩)) ∧
    ((s.get (ORR_ENGn_BANKV.valid n)).testBit other = false → Completes (.swap n) s (fun u => rest u ∧
      (u.engine n).active = false ∧ u.get (ORR_ENGn_CTL.run n) = 0 ∧ (u.get ORR_CAUSE.bad_op).testBit n = true))) ∧
  (∀ (s : State) (n : Fin 8) (c : Instr) (a : Act),
    UnitRuns 82 1 11 n s → s.decoding n = true → s.after (s.engine n).dec = true → s.tb.nt.ns ≤ 999999999 →
    ((∃ j d, c = .issue n j d ∧ a = .issue j d) ∨ (∃ r m, c = .scan n r m ∧ a = .scan r m) ∨ (∃ st l, c = .idle n st l ∧ a = .idle st l) ∨
      (∃ g f, c = .agcf n g f ∧ a = .agcf g f) ∨ (∃ g, c = .nfsnap n g ∧ a = .nfsnap g) ∨ (∃ k, c = .sig n k ∧ a = .sig k)) →
    let rest (u : State) : Prop := u = { s with orr := u.orr, regs := u.regs, now := u.now } ∧ u.orr.events = s.orr.events ∧ u.orr.idle = s.orr.idle ∧
      (∀ m : Fin 8, m ≠ n → u.engine m = s.engine m) ∧ u.get ORR_SIG.sig = s.get ORR_SIG.sig
    Regs.wf s = true →
    ((s.engine n).group = none → Completes c s (fun u => rest u ∧
      (u.engine n).group = some ⟨.now (s.atNow (s.engine n).tl), false, [a], s.tb.mono, none⟩)) ∧
    (∀ g, (s.engine n).group = some g → g.reached = none → Completes c s (fun u => rest u ∧
      ∃ i, (u.engine n).group = some { g with inst := i, acts := g.acts ++ [a], last := s.tb.mono } ∧
        (∀ t0, g.inst = .at t0 → i = g.inst) ∧ ∀ id since, g.inst = .barrier id since → i = g.inst)) ∧
    (∀ g, (s.engine n).group = some g → g.reached.isSome = true → exec c s = .fault .instantPast))

/-- A group whose instant was reached in time launches; a late one is the undefined case of R39 (R38, R39, R40, R41).
GROUP_LAUNCH with a group of at most 8 actions, none of them SCAN, whose instant was reached in an earlier ck and at least 16 ck after the
last decode, completes: the group has left, every SIG bit it names is set, ISSUE entries of kind 0 without a descriptor have put their
event 14 ck after the instant into the event network, and memory, tiles and time are as they were. A group reached less than 16 ck after
the last decode is the undefined case, a fault. -/
def Obligations.GroupsLaunchAndSignal : Prop :=
  ∀ (s : State) (n : Fin 8) (g : Group) (t0 : Nat) (r : BitVec 64), UnitRuns 82 1 11 n s → Regs.wf s = true →
    (s.engine n).group = some g → g.inst = .at t0 → g.reached = some r →
    ((r - g.last).toInt < 16 → exec (.groupLaunch n) s = .fault .instantPast) ∧
    (16 ≤ (r - g.last).toInt → 0 < (s.tb.mono - r).toInt → (s.engine n).launching = [] → g.acts.length ≤ 8 →
      (∀ x m, Act.scan x m ∉ g.acts) → Completes (.groupLaunch n) s (fun u =>
        (u.engine n).group = none ∧ (u.engine n).launching = [] ∧ u.mem = s.mem ∧ u.tiles = s.tiles ∧ u.tb = s.tb ∧ u.cx = s.cx ∧
        (∀ k, Act.sig k ∈ g.acts → (u.get ORR_SIG.sig).testBit k = true) ∧
        (∀ j d, Act.issue j d ∈ g.acts → s.get (ORR_JOBTj.kind j.toNat) = 0 → s.get (ORR_JOBTj.desc j.toNat) = 0 →
          (⟨r + 14, .tileFlag (s.get (ORR_JOBTj.first j.toNat)) (s.get (ORR_JOBTj.span j.toNat)) (s.get (ORR_JOBTj.flag j.toNat))⟩ : Event)
            ∈ u.orr.events)))

/-- Deliveries, engine control and the Conjunction line (R40, R44, R45, R47).
A tile event that is due and is the first in the event network leaves it at its delivery, and every tile it names has the flag set; a
named tile that is off makes it the undefined case of R320. A start of a halted engine whose timeline counts makes it decode word 0 of the
bank; a stop halts it; a word of a bank that does not run is stored and one of the bank that runs is ignored with wr_active. The leader
that sees CONJ high takes at_now + lead as T_s and queues a START; a barrier older than tmo ms halts its engine with ORR_CONJ_STAT.tmo. -/
def Obligations.EventsReachTheirTargets : Prop :=
  ∀ (s : State) (n tl : Fin 8) (bank b : Fin 2) (i : Fin 2048) (w : BitVec 64), Runs 82 1 s → Regs.wf s = true →
    (∀ first span (k : Fin 32) due rest, s.orr.events = ⟨due, .tileFlag first span k⟩ :: rest → 0 ≤ (s.tb.mono - due).toInt → rest = [] →
      let named (t : Fin 64) : Prop := first ≤ t.val ∧ t.val ≤ first + span
      ((∀ t, named t → s.tileOn t = true) → Completes .eventDelivery s (fun u => u.orr.events = [] ∧ u.mem = s.mem ∧
        ∀ t, if named t then (u.tile t).evf = (s.tile t).evf ||| (1 : BitVec 32) <<< k.val else u.tile t = s.tile t)) ∧
      (∀ t, named t → s.tileOn t = false → exec .eventDelivery s = .fault .poweredOff)) ∧
    (UnitRuns 82 1 11 n s →
      (s.get (ORR_ENGn_CTL.run n) = 0 → s.timelineOn tl = true → Completes (.engineStart n tl bank) s (fun u =>
        (u.engine n).active = true ∧ (u.engine n).tl = tl ∧ u.engPc n = 0 ∧ u.get (ORR_ENGn_STAT.bank n) = bank.val ∧
        u.get (ORR_ENGn_CTL.run n) = 1 ∧ u.mem = s.mem)) ∧
      (s.get (ORR_ENGn_CTL.run n) = 1 → Completes (.engineStopWrite n tl bank) s (fun u =>
        (u.engine n).active = false ∧ (u.engine n).launching = [] ∧ u.get (ORR_ENGn_CTL.run n) = 0 ∧ u.mem = s.mem)) ∧
      (s.get (ORR_ENGn_CTL.run n) = 0 → Completes (.timetableBankWrite n b i w) s (fun u =>
        u.get (ORR_BANK.w n b i) = w.toNat ∧ u = { s with regs := u.regs, now := u.now } ∧ WordsKept s u [ORR_BANK.reg n b i, ORR_BANK.reg n b i + 4])) ∧
      (s.get (ORR_ENGn_CTL.run n) = 1 → s.runBank n = b.val → Completes (.timetableBankWrite n b i w) s (fun u =>
        (u.get ORR_CAUSE.wr_active).testBit n = true ∧ u = { s with regs := u.regs, now := u.now } ∧ WordsKept s u [ORR_CAUSE.reg, ORR_CAUSE.reg + 4])) ∧
      (∀ id since, s.orr.conjLow = false → s.barrierOf n = some (id, since) → s.get ORR_CONJ_CTL.role = 1 →
        let ts := (s.atNow (s.engine n).tl + s.get ORR_CONJ_CTL.lead) % 5033164800
        Completes (.conjLineHigh n) s (fun u => u.ta n 0 = ts ∧ u.orr.starts = s.orr.starts ++ [(id, ts, (s.engine n).tl)] ∧
          u.orr.conjHigh = true ∧ u.mem = s.mem)) ∧
      (∀ id since, s.barrierOf n = some (id, since) → s.get ORR_CONJ_CTL.tmo ≠ 0 →
        s.get ORR_CONJ_CTL.tmo * 2200000 < s.since since → Completes (.conjunctionTimeout n) s (fun u =>
          (u.engine n).active = false ∧ u.get ORR_CONJ_STAT.tmo = 1 ∧ (u.get ORR_CAUSE.conj).testBit n = true ∧ u.mem = s.mem)))

/-- Register and immediate operations of the S slot: the result that the next bundle sees (R53, R60).
ADD to MAX and ADDI to SLTI complete on every issuing core. With a, b the values of sa, sb as the bundle enters D: the next bundle sees in
sd the result of the table (shifts by the low 5 bits, MUL and MULH the halves of the signed 64-bit product, imm sign-extended for ADDI and
SLTI and zero-extended otherwise), s0 staying 0, and in every other scalar register what it would have seen. Nothing else changes but the
choice of the next bundle and TIL_STAT. -/
def Obligations.ScalarArithmeticIsSeenByTheNextBundle : Prop :=
  ∀ (s : State) (t : Fin 64) (sd sa sb : Fin 32) (imm : BitVec 16) (c : Instr) (v : BitVec 32), Issues .plain t s →
    let x := (s.tile t).begin
    let a := x.sreg sa
    let b := x.sreg sb
    let z : BitVec 32 := imm.setWidth 32
    let e : BitVec 32 := imm.signExtend 32
    let product : BitVec 64 := a.signExtend 64 * b.signExtend 64
    let bit (p : Bool) : BitVec 32 := if p then 1 else 0
    (c, v) ∈ [(.add t sd sa sb, a + b), (.sub t sd sa sb, a - b), (.and t sd sa sb, a &&& b), (.or t sd sa sb, a ||| b), (.xor t sd sa sb, a ^^^ b),
      (.sll t sd sa sb, a <<< (b &&& 31)), (.srl t sd sa sb, a >>> (b &&& 31)), (.sra t sd sa sb, a.sshiftRight (b &&& 31).toNat),
      (.mul t sd sa sb, product.extractLsb' 0 32), (.mulh t sd sa sb, product.extractLsb' 32 32),
      (.slt t sd sa sb, bit (a.slt b)), (.sltu t sd sa sb, bit (a.ult b)), (.min t sd sa sb, if b.slt a then b else a),
      (.max t sd sa sb, if a.slt b then b else a), (.addi t sd sa imm, a + e), (.andi t sd sa imm, a &&& z), (.ori t sd sa imm, a ||| z),
      (.xori t sd sa imm, a ^^^ z), (.slli t sd sa imm, a <<< (z &&& 31)), (.srli t sd sa imm, a >>> (z &&& 31)),
      (.srai t sd sa imm, a.sshiftRight (z &&& 31).toNat), (.lui t sd sa imm, z <<< 16), (.slti t sd sa imm, bit (a.slt e))] →
    Completes c s (fun u => TileOnly t s u ∧ FlowOnly x (u.tile t) ∧ PendOnly (.s sd) x (u.tile t) ∧ GoesOn x (u.tile t) ∧
      (u.tile t).begin.sreg sd = (if sd = 0 then 0 else v) ∧ ∀ r, r ≠ sd → (u.tile t).begin.sreg r = x.begin.sreg r)

/-- MFC reads and MTC writes each control register by its index; NOP, EI and DI (R49, R50, R62).
MFC gives the next bundle p0-p15, m0-m7, cb0-cb7, cl0-cl7, CST, CIRC, IEN, EVF, IRA, the loop stack (0 for a level at or above LDEPTH) and
LDEPTH at the indices of R50, and 0 at any other. MTC gives p, m, cb, cl and CIRC to the next bundle, a pointer without the
post-modifications of its bundle; it writes CST's ie, sat and aov, IEN and IRA, clears the event flags written 1 but those set in this ck,
and is ignored at 45 and above. A 1 to a reserved bit of CST is R5's undefined case. NOP changes nothing; DI clears ie; EI sets it, and
the next boundary still sees the old value. -/
def Obligations.ControlRegisterMoves : Prop :=
  ∀ (s : State) (t : Fin 64) (r : Fin 32) (i : Fin 16) (j : Fin 8) (l : Fin 4) (c : Fin 64), Issues .plain t s →
    let x := (s.tile t).begin
    let v := x.sreg r
    let reads (n : Nat) (w : BitVec 32) : Prop := Completes (.mfc t r (Fin.ofNat 64 n)) s (fun u =>
      TileOnly t s u ∧ FlowOnly x (u.tile t) ∧ PendOnly (.s r) x (u.tile t) ∧ GoesOn x (u.tile t) ∧ (u.tile t).begin.sreg r = if r = 0 then 0 else w)
    let does (d : Instr) (p : Tile → Prop) : Prop := Completes d s (fun u => TileOnly t s u ∧ GoesOn x (u.tile t) ∧ p (u.tile t))
    let writes (n : Nat) : (Tile → Prop) → Prop := does (.mtc t r (Fin.ofNat 64 n))
    let now (x : Tile) (y : Tile) : Prop := FlowOnly x y ∧ y.pend = x.pend
    let next (q : PendReg) (y : Tile) : Prop := FlowOnly x y ∧ PendOnly q x y
    (reads i x.p[i] ∧ reads (16 + j) x.m[j] ∧ reads (24 + j) x.cb[j] ∧ reads (32 + j) x.cl[j] ∧
      reads 40 ((if x.ie then 1 else 0) ||| (if x.sat then 2 else 0) ||| (if x.aov then 4 else 0) ||| (if x.inh then 8 else 0)) ∧
      reads 41 x.circ ∧ reads 42 x.ien ∧ reads 43 x.evf ∧ reads 44 x.ira ∧
      reads (45 + l) ((x.loops.reverse[l.val]?).elim 0 TLoop.cnt) ∧ reads (49 + l) ((x.loops.reverse[l.val]?).elim 0 fun k => k.start.setWidth 32) ∧
      reads (53 + l) ((x.loops.reverse[l.val]?).elim 0 fun k => k.stop.setWidth 32) ∧ reads 57 (BitVec.ofNat 32 x.loops.length) ∧
      (58 ≤ c.val → reads c 0)) ∧
    (writes i (fun y => FlowOnly { x with mtc := i :: x.mtc } y ∧ PendOnly (.p i) x y ∧ ∀ d, (y.addPmod i d).begin.p[i] = v) ∧
      writes (16 + j) (fun y => next (.m j) y ∧ y.begin.m[j] = v) ∧ writes (24 + j) (fun y => next (.cb j) y ∧ y.begin.cb[j] = v) ∧
      writes (32 + j) (fun y => next (.cl j) y ∧ y.begin.cl[j] = v) ∧ writes 41 (fun y => next .circ y ∧ y.begin.circ = v) ∧
      (v.toNat < 16 → writes 40 (now { x with ie := v.getLsbD 0, sat := v.getLsbD 1, aov := v.getLsbD 2 })) ∧
      (16 ≤ v.toNat → exec (.mtc t r 40) s = .fault .reservedBit) ∧
      writes 42 (now { x with ien := v }) ∧ writes 43 (now { x with evf := x.evf &&& ~~~(v &&& ~~~s.setNow (TIL_EVF.reg t)) }) ∧ writes 44 (now { x with ira := v }) ∧
      (45 ≤ c.val → writes c (now x))) ∧
    (does (.nop t) (now x) ∧ does (.di t) (now { x with ie := false }) ∧
      Completes (.ei t) s (fun u => TileOnly t s u ∧ GoesOn x (u.tile t) ∧ now { x with ie := true, eiHold := !x.ie } (u.tile t) ∧
        (x.ie = false → u.intPoint t = false) ∧ (after (u.tile t)).eiHold = false))

/-- Loads and stores of the S slot: address, value, the two slots that see the old value, post-modify (R49, R53, R60, R62, R66, R69).
Address A is the low 21 bits of p, its low bits cleared to the access size. LD to LDBU complete when A has no ECC error: s holds the word,
or the halfword or byte extended, as memory stood before what other ports wrote in this ck, from the third issue slot on, and until then
what it held. ST, STH and STB store the low bytes of s at A and no other byte. With pm = 1 the pointer moves by the sign-extended off:
modulo 2^32, or circularly under CIRC. A circular buffer of length 0 is the undefined case. Nothing else changes. -/
def Obligations.ScalarMemory : Prop :=
  ∀ (s : State) (t : Fin 64) (r : Fin 32) (p : Fin 16) (pm : Bool) (off : BitVec 16), Issues .plain t s → Memory.wf s = true →
    let x := (s.tile t).begin
    let at_ (sz : Nat) : Nat := 0x1100000000 + 0x400000 * t.val + x.p[p].toNat % 2097152 / sz * sz
    let circular := x.circ.getLsbD p = true
    let cb := x.cb[p.val % 8].toNat % 2097152
    let cl := x.cl[p.val % 8].toNat % 2097152
    let sound := pm = true → circular → cl ≠ 0
    let moved (y : Tile) : Prop :=
      y.applyPmods.p = (if pm = false then x.p else if circular then
        x.p.set p (BitVec.ofInt 32 ((cb + (((x.p[p].toNat % 2097152 : Nat) : Int) + off.toInt - cb) % cl) % 2097152)) else x.p.set p (x.p[p] + off.signExtend 32))
    let loads (c : Instr) (sz : Nat) (v : BitVec 32) : Prop := s.flaw (at_ sz) = 0 → sound → Completes c s (fun u =>
      TileOnly t s u ∧ PendOnly (.s r) x (u.tile t) ∧ FlowOnly { x with pmods := (u.tile t).pmods } (u.tile t) ∧ moved (u.tile t) ∧ GoesOn x (u.tile t) ∧
      (iter Tile.nextSlot 3 (u.tile t)).sreg r = (if r = 0 then 0 else v) ∧
      ∀ n q, n ≤ 2 ∨ q ≠ r → (iter Tile.nextSlot n (u.tile t)).sreg q = (iter Tile.nextSlot n x).sreg q)
    let le (sz : Nat) : BitVec 32 := BitVec.ofNat 32 (s.coreLe (at_ sz) sz)
    let stores (c : Instr) (sz : Nat) : Prop := sound → Completes c s (fun u =>
      TileOnly t s { u with mem := s.mem, flaws := s.flaws, now := s.now } ∧
      FlowOnly { x with pmods := (u.tile t).pmods, sOld := (u.tile t).sOld, undo := (u.tile t).undo } (u.tile t) ∧ (u.tile t).pend = x.pend ∧ moved (u.tile t) ∧ GoesOn x (u.tile t) ∧
      (∀ i, i < sz → u.byte (at_ sz + i) = (x.sreg r).extractLsb' (8 * i) 8) ∧ ∀ a, a < at_ sz ∨ at_ sz + sz ≤ a → u.byte a = s.byte a)
    loads (.ld t r p pm off) 4 (le 4) ∧ loads (.ldh t r p pm off) 2 (((le 2).extractLsb' 0 16).signExtend 32) ∧ loads (.ldhu t r p pm off) 2 (le 2) ∧
    loads (.ldb t r p pm off) 1 (((le 1).extractLsb' 0 8).signExtend 32) ∧ loads (.ldbu t r p pm off) 1 (le 1) ∧
    stores (.st t r p pm off) 4 ∧ stores (.sth t r p pm off) 2 ∧ stores (.stb t r p pm off) 1 ∧
    (pm = true → circular → cl = 0 → ∀ c ∈ [Instr.ld t r p pm off, .ldh t r p pm off, .ldhu t r p pm off, .ldb t r p pm off, .ldbu t r p pm off,
      .st t r p pm off, .sth t r p pm off, .stb t r p pm off], exec c s = .fault .circularZero)

/-- Taken branches execute three delay slots; untaken ones go on; control flow in a delay slot is undefined (R53, R54, R70, R72).
B and BL branch by off bundles when cond holds of sa or of the event flag it names, JR to the byte address in sa, RETI to IRA with ie = 1
and inh = 0. Outside loops the 3 following bundles issue, then the target; of the loop levels those whose body holds the target stay. A
taken BL gives the next bundle the byte address of the branch + 64 in s31. An untaken branch goes on at the next bundle and changes
nothing. A branch, repeat or HALT in a delay slot, or under a repeat, is an undefined case. -/
def Obligations.BranchesHaveThreeDelaySlots : Prop :=
  ∀ (s : State) (t : Fin 64) (sa : Fin 32) (cond : Fin 8) (off : BitVec 18), Issues .flow t s →
    let x := (s.tile t).begin
    let a := x.sreg sa
    let holds : Bool := [true, a == 0, a != 0, a.msb, !a.msb, !a.msb && a != 0, a.msb || a == 0, x.evf.getLsbD (a &&& 31).toNat][cond]
    let taken (c : Instr) (x' : Tile) (link : List PendReg) (tgt : BitVec 17) : Prop := Completes c s (fun u =>
      TileOnly t s u ∧ FlowOnly x' (u.tile t) ∧ (∃ w, (u.tile t).pend = x.pend ++ w ∧ ∀ e ∈ w, e.reg ∈ link) ∧
      (x.loops = [] → (u.tile t).pc = x.cur + 1 ∧ (after (u.tile t)).pc = x.cur + 2 ∧ (after (after (u.tile t))).pc = x.cur + 3) ∧
      let y := after (after (after (u.tile t)))
      y.pc = tgt ∧ y.delay = none ∧ y.loops = popOutside (u.tile t).loops tgt)
    let untaken (c : Instr) : Prop := Completes c s (fun u => TileOnly t s u ∧ FlowOnly x (u.tile t) ∧ (u.tile t).pend = x.pend ∧ GoesOn x (u.tile t))
    (holds = true → taken (.b t sa cond off) x [] (x.cur + off.setWidth 17) ∧ taken (.bl t sa cond off) x [.s 31] (x.cur + off.setWidth 17) ∧
      Completes (.bl t sa cond off) s (fun u => (u.tile t).begin.sreg 31 = (x.cur.setWidth 32 <<< 4) + 64)) ∧
    (holds = false → untaken (.b t sa cond off) ∧ untaken (.bl t sa cond off)) ∧
    taken (.jr t sa) x [] (a.extractLsb' 4 17) ∧
    taken (.reti t) { x with ie := true, inh := false } [] (x.ira.extractLsb' 4 17) ∧
    (∀ r i len count k tgt, ∀ c ∈ [Instr.b t sa cond off, .bl t sa cond off, .jr t sa, .reti t, .doLoop t i len count, .dor t i len r, .rpt t count,
        .rptr t r, .halt t],
      exec c (s.withTile t fun y => { y with delay := some (k, tgt) }) = .fault .flowInDelaySlot ∧
      exec c (s.withTile t fun y => { y with rpt := some k }) = .fault .flowUnderRepeat)

/-- DO and DOR push a loop level; RPT and RPTR repeat one bundle; loop-backs count down (R71, R72).
DO and DOR with a count of 1 or more and fewer than four levels push a level over the len bundles that follow; a count of 0 skips them; a
fifth level faults the tile with loop_ovf. RPT and RPTR issue the next bundle count times, RPTR at most 65,536 times, or skip it for 0. A
bundle at the end of the innermost body with runs left goes back to its start with one run fewer; on the last run the level goes and the
enclosing level decides. A bundle under a repeat with issues left is issued again. -/
def Obligations.BlockRepeatsAndSingleRepeats : Prop :=
  ∀ (s : State) (t : Fin 64) (i : Bool) (len : Fin 512) (count : Fin 65536) (sa : Fin 32),
    let x := (s.tile t).begin
    let n := (x.sreg sa).toNat
    let kept (u : State) : Prop := TileOnly t s u ∧ FlowOnly x (u.tile t) ∧ (u.tile t).pend = x.pend
    let pushed (k : BitVec 32) (u : State) : Prop := kept u ∧ (u.tile t).pc = x.cur + 1 ∧
      (u.tile t).loops = ⟨k, x.cur + 1, x.cur + 1 + BitVec.ofNat 17 len.val, i⟩ :: x.loops
    let overflow (u : State) : Prop := (u.tile t).stopping = some 5 ∧ (u.tile t).skip = true ∧ u.get (TIL_CAUSE.loop_ovf t) = 1 ∧
      u.get (TIL_STAT.pc t) = x.cur.toNat ∧ u.mem = s.mem
    (Issues .flow t s →
      (x.loops.length < 4 → Completes (.doLoop t i len count) s (pushed (BitVec.ofNat 32 (count.val + 1))) ∧
        (n ≠ 0 → Completes (.dor t i len sa) s (pushed (x.sreg sa)))) ∧
      (n = 0 → Completes (.dor t i len sa) s (fun u => kept u ∧ (x.loops = [] → (u.tile t).pc = x.cur + BitVec.ofNat 17 len.val + 2))) ∧
      (4 ≤ x.loops.length → Completes (.doLoop t i len count) s overflow ∧ (n ≠ 0 → Completes (.dor t i len sa) s overflow)) ∧
      Completes (.rpt t count) s (fun u => kept u ∧ (u.tile t).rpt = some (count.val + 1) ∧ (x.loops = [] → (u.tile t).pc = x.cur + 1)) ∧
      Completes (.rptr t sa) s (fun u => kept u ∧ (n ≠ 0 → (u.tile t).rpt = some (if n ≤ 65536 then n else 65536)) ∧
        (x.loops = [] → (u.tile t).pc = x.cur + (if n = 0 then 2 else 1)) ∧ (n = 0 → (u.tile t).rpt = none))) ∧
    (Issues .plain t s → x.delay = none →
      (∀ l ls, x.rpt = none → x.loops = l :: ls → l.stop = x.cur → 1 < l.cnt.toNat → Completes (.nop t) s (fun u =>
        kept u ∧ (u.tile t).pc = l.start ∧ (u.tile t).loops = { l with cnt := l.cnt - 1 } :: ls)) ∧
      (∀ l, x.rpt = none → x.loops = [l] → l.stop = x.cur → l.cnt.toNat ≤ 1 → Completes (.nop t) s (fun u =>
        kept u ∧ (u.tile t).pc = x.cur + 1 ∧ (u.tile t).loops = [])) ∧
      (∀ k, x.rpt = some k → 1 < k → Completes (.nop t) s (fun u => kept u ∧ (u.tile t).pc = x.cur ∧ (u.tile t).rpt = some (k - 1))) ∧
      (x.rpt = some 1 → x.loops = [] → Completes (.nop t) s (fun u => kept u ∧ (u.tile t).pc = x.cur + 1 ∧ (u.tile t).rpt = none)))

/-- Waits, the end of a program, bad bundles, the interrupt, and the completion of a stop (R52, R73, R75, R77, R409).
WAITE with its flag set executes and clears it if c = 1; with the flag clear it stays at its bundle in state 2 and executes none of its
slots. WAITV goes on with the V queue empty and else waits in state 3; YIELD goes on without a stop request outside loops, and stops the
core with one. HALT ends the program. A bundle that is no sound encoding faults the tile with bad_op, named by TIL_STAT.pc. Once the V
queue is empty TILE_STOP clears run and sets the state 0, 4 or 5. INTERRUPT at an interrupt point with an enabled flag saves the next
bundle's byte address in IRA, clears ie, sets inh, passes 3 slots and goes on at TIL_VEC with the loop stack kept. -/
def Obligations.WaitsStopsAndInterrupts : Prop :=
  ∀ (s : State) (t : Fin 64) (k : Fin 32) (c : Bool) (w : BitVec 128),
    let x := (s.tile t).begin
    let kept (x : Tile) (u : State) : Prop := TileOnly t s u ∧ FlowOnly x (u.tile t) ∧ (u.tile t).pend = x.pend
    (Issues .waits t s →
      (x.evf.getLsbD k = true → Completes (.waite t k c) s (fun u => GoesOn x (u.tile t) ∧
        kept { x with awaited := none, evf := if c then x.evf &&& ~~~((1 : BitVec 32) <<< k.val) else x.evf } u)) ∧
      (x.evf.getLsbD k = false → Completes (.waite t k c) s (fun u => (u.tile t).pc = x.cur ∧ u.get (TIL_STAT.state t) = 2 ∧
        (u.tile t).skip = true ∧ u.mem = s.mem ∧ (s.flag (TIL_CTL.yreq t) = false → kept { x with skip := true, awaited := some k } u))) ∧
      (x.vq = [] → Completes (.waitv t) s (fun u => kept x u ∧ GoesOn x (u.tile t))) ∧
      (x.vq ≠ [] → Completes (.waitv t) s (fun u => kept { x with skip := true } u ∧ (u.tile t).pc = x.cur ∧ u.get (TIL_STAT.state t) = 3)) ∧
      (s.flag (TIL_CTL.yreq t) = false ∨ x.loops ≠ [] → Completes (.yield t) s (fun u => kept x u ∧ GoesOn x (u.tile t))) ∧
      (s.flag (TIL_CTL.yreq t) = true → x.loops = [] → Completes (.yield t) s (fun u => kept { x with stopping := some 4 } u ∧ GoesOn x (u.tile t)))) ∧
    (Issues .flow t s → Completes (.halt t) s (kept { x with stopping := some 0 })) ∧
    (Issues .plain t s → decodeBundle t w = none → Completes (.badOpBundle t w) s (fun u => (u.tile t).stopping = some 5 ∧
      (u.tile t).skip = true ∧ (u.tile t).pend = x.pend ∧ u.get (TIL_CAUSE.bad_op t) = 1 ∧ u.get (TIL_STAT.pc t) = x.cur.toNat ∧ u.mem = s.mem)) ∧
    (s.tileRuns t = true → Regs.wf s = true → s.intPoint t = true → (s.tile t).evf &&& (s.tile t).ien ≠ 0 →
      Completes (.interrupt t) s (fun u => TileOnly t s u ∧ (u.tile t).ira = ((s.tile t).pc.setWidth 32) <<< 4 ∧ (u.tile t).ie = false ∧
        (u.tile t).inh = true ∧ (u.tile t).pc.toNat = s.get (TIL_VEC.idx t) ∧ (u.tile t).slot = (s.tile t).slot + 3 ∧
        (u.tile t).loops = (s.tile t).loops ∧ (u.tile t).evf = (s.tile t).evf ∧ (u.tile t).acc = (s.tile t).acc)) ∧
    (Regs.wf s = true → s.fck = true → s.tileOn t = true → s.held 1 = false → ∀ e, (s.tile t).stopping = some e → s.ownerOf t = none →
      ((s.tile t).vq ≠ [] → exec (.tileStop t) s = .next s) ∧ ((s.tile t).vq = [] →
      Completes (.tileStop t) s (fun u => TileOnly t s { u with regs := s.regs, now := s.now } ∧ (u.tile t).stopping = none ∧ (u.tile t).pend = [] ∧
        u.get (TIL_CTL.run t) = 0 ∧ u.get (TIL_STAT.state t) = e.val ∧ WordsKept s u [TIL_CTL.reg t, TIL_STAT.reg t] ∧
        (e = 4 → u.get (TIL_STAT.pc t) = (u.tile t).pc.toNat) ∧ (e ≠ 4 → u.get (TIL_STAT.pc t) = s.get (TIL_STAT.pc t)))))

/-- Starting, halting and signalling a tile from outside (R51, R74, R409).
On a present, powered and released tile: a start of a halted core begins at TIL_ENTRY with an empty loop stack, ie = 0 and inh = 0, and a
resume at the saved pc with the loop stack and CST as they are; every other register stays. A write of run = 0 halts a running core at
once and drops its writes on their way, those of an accumulator included, and its queued V-slot operations. yreq takes the value written.
Each flag written 1 to TIL_EVS is set, and evf_ovr too when one of them was set already. While group G1 is held in reset, none of them has
effect and rstacc is set; on a tile that is off each is the undefined case. -/
def Obligations.TileControlFromOutside : Prop :=
  ∀ (s : State) (t : Fin 64) (v : Bool) (f : BitVec 32), s.fck = true → Regs.wf s = true →
    let registers (x y : Tile) : Prop := y.s = x.s ∧ y.p = x.p ∧ y.m = x.m ∧ y.cb = x.cb ∧ y.cl = x.cl ∧ y.acc = x.acc ∧ y.accView = x.accView ∧
      y.v = x.v ∧ y.k = x.k ∧ y.mt = x.mt ∧ y.ab = x.ab ∧ y.circ = x.circ ∧ y.ien = x.ien ∧ y.evf = x.evf ∧ y.ira = x.ira ∧ y.sat = x.sat ∧ y.aov = x.aov
    let frame (ws : List Nat) (u : State) : Prop :=
      u = { s with tiles := u.tiles, regs := u.regs, now := u.now } ∧ WordsKept s u ws ∧ ∀ i, i ≠ t → u.tile i = s.tile i
    let started (pc : Nat) (u : State) : Prop := frame [TIL_CTL.reg t, TIL_STAT.reg t] u ∧ registers (s.tile t) (u.tile t) ∧ (u.tile t).pc.toNat = pc ∧
      (u.tile t).pend = [] ∧ u.get (TIL_CTL.run t) = 1 ∧ u.get (TIL_STAT.state t) = 1 ∧ u.get (TIL_STAT.pc t) = pc ∧ (u.tile t).skip = true
    (s.tileOn t = true → s.held 1 = false →
      (s.get (TIL_CTL.run t) = 0 →
        Completes (.tileStart t false) s (fun u => started (s.get (TIL_ENTRY.idx t)) u ∧ (u.tile t).loops = [] ∧ (u.tile t).ie = false ∧ (u.tile t).inh = false) ∧
        Completes (.tileStart t true) s (fun u => started (s.get (TIL_STAT.pc t)) u ∧ (u.tile t).loops = (s.tile t).loops ∧
          (u.tile t).ie = (s.tile t).ie ∧ (u.tile t).inh = (s.tile t).inh)) ∧
      (s.get (TIL_CTL.run t) = 1 → Completes (.tileHaltWrite t) s (fun u => frame [TIL_CTL.reg t, TIL_STAT.reg t] u ∧ registers { s.tile t with acc := (s.tile t).accView } (u.tile t) ∧
        (u.tile t).pend = [] ∧ (u.tile t).vq = [] ∧ u.get (TIL_CTL.run t) = 0 ∧ u.get (TIL_STAT.state t) = 0)) ∧
      Completes (.yreqWrite t v) s (fun u => frame [TIL_CTL.reg t] u ∧ u.tiles = s.tiles ∧ u.get (TIL_CTL.yreq t) = v.toNat ∧
        u.get (TIL_CTL.run t) = s.get (TIL_CTL.run t)) ∧
      Completes (.tilEvsWrite t f) s (fun u => frame [TIL_CAUSE.reg t] u ∧ u.tile t = { s.tile t with evf := (s.tile t).evf ||| f } ∧
        ((s.tile t).evf &&& f ≠ 0 → u.get (TIL_CAUSE.evf_ovr t) = 1) ∧ ((s.tile t).evf &&& f = 0 → u.regs = s.regs))) ∧
    ∀ c ∈ [Instr.tileStart t v, .tileHaltWrite t, .yreqWrite t v, .tilEvsWrite t f],
      (s.tileOn t = true → s.held 1 = true → exec c s = .next (s.put PWR_CAUSE.rstacc 1)) ∧ (s.tileOn t = false → exec c s = .fault .poweredOff)

/-- The D slot on accumulators: operations and wraps, and MVA and MVAH, which round and saturate (R55, R56, R60, R64).
In a bundle whose slots execute, with sound operand words: MAC, MSU, MPY, MACP, MAC16, CMAC, CMACJ, ACLR, ASR, MVS and ADDA complete and
give the accumulators they name the exact result modulo 2^80; aov is set when one wraps. The result is what a following operation
accumulates on, and what MVA and MVAH read from the third slot on. DNOP leaves them. In each, the moves, the P-bus read and the
post-modifications take place, X before Y; nothing else changes. In a bundle whose slots execute, with sound operand words: MVA and MVAH
complete; from the sixth slot on the scalar register of the sa field holds the accumulator, as its writes of three slots ago left it, over
2^sh, rounded to the nearest integer, a half to the even one, and clamped to 32 or to 16 signed bits; until then it holds what it held.
CST.sat is set exactly when the clamp changed the value. Accumulators and aov stay. -/
def Obligations.AccumulatorsAndTheirReadout : Prop :=
  (∀ (s : State) (t : Fin 64) (f : DSlot) (c : Instr) (l : List (Fin 8 × Int)), InBundle t s → Memory.wf s = true → DSound t f s →
    let x := s.tile t
    let a := (x.sreg f.sa).toInt
    let b := (x.sreg f.sb).toInt
    let p := (operandC t f s).toInt
    let lo (v : Int) : Int := (BitVec.ofInt 16 v).toInt
    let hi (v : Int) : Int := v / 65536
    let d := x.acc[f.d].toInt
    let even : Fin 8 := ⟨f.d.val / 2 * 2, by omega⟩
    let odd : Fin 8 := ⟨f.d.val / 2 * 2 + 1, by omega⟩
    (c, l) ∈ [(.dnop t f, []), (.mac t f, [(f.d, d + a * p)]), (.msu t f, [(f.d, d - a * p)]), (.mpy t f, [(f.d, a * p)]),
      (.macp t f, [(f.d, d + (a + b) * p)]), (.mac16 t f, [(f.d, d + lo a * lo p + hi a * hi p)]),
      (.cmac t f, [(even, x.acc[even].toInt + (lo a * lo p - hi a * hi p)), (odd, x.acc[odd].toInt + (lo a * hi p + hi a * lo p))]),
      (.cmacj t f, [(even, x.acc[even].toInt + (lo a * lo p + hi a * hi p)), (odd, x.acc[odd].toInt + (hi a * lo p - lo a * hi p))]),
      (.aclr t f, [(f.d, 0)]), (.asr t f, [(f.d, d / 2 ^ Nat.min (x.sreg f.sb).toNat 79)]), (.mvs t f, [(f.d, a * 2 ^ f.sb.val)]),
      (.adda t f, [(f.d, d + a * 2 ^ f.sb.val)])] →
    Completes c s (fun u =>
      let y := u.tile t
      DMoves t f s u ∧ y.sat = x.sat ∧
      (∀ q ∈ l, y.acc[q.1] = BitVec.ofInt 80 q.2 ∧ (iter Tile.nextSlot 3 y).accView[q.1] = BitVec.ofInt 80 q.2 ∧
        ∀ n, n ≤ 2 → (iter Tile.nextSlot n y).accView[q.1] = (iter Tile.nextSlot n x).accView[q.1]) ∧
      (∀ i : Fin 8, i ∉ l.map Prod.fst → y.acc[i] = x.acc[i]) ∧
      (y.aov = true ↔ x.aov = true ∨ ∃ q ∈ l, ¬(-(2 ^ 79) ≤ q.2 ∧ q.2 < 2 ^ 79)))) ∧
  (∀ (s : State) (t : Fin 64) (f : DSlot) (c : Instr) (w : Nat), InBundle t s → Memory.wf s = true → DSound t f s →
    (c, w) ∈ [(.mva t f, 31), (.mvah t f, 15)] →
    let x := s.tile t
    Completes c s (fun u => ∃ q v : Int,
      let y := u.tile t
      let e := 2 * (q * 2 ^ f.sb.val - x.accView[f.d].toInt)
      (-(2 ^ f.sb.val) ≤ e ∧ e ≤ 2 ^ f.sb.val ∧ (e = 2 ^ f.sb.val ∨ e = -(2 ^ f.sb.val) → q % 2 = 0)) ∧
      (v = if q < -(2 ^ w) then -(2 ^ w) else if 2 ^ w - 1 < q then 2 ^ w - 1 else q) ∧
      (f.sa ≠ 0 → (iter Tile.nextSlot 6 y).sreg f.sa = BitVec.ofInt 32 v) ∧
      (∀ n, n ≤ 5 → (∀ i m r, f.x ≠ .load f.sa i m r ∧ f.y ≠ .load f.sa i m r) →
        (iter Tile.nextSlot n y).sreg f.sa = (iter Tile.nextSlot n x).sreg f.sa) ∧
      y.sat = (x.sat || v ≠ q) ∧ y.acc = x.acc ∧ y.aov = x.aov ∧ DMoves t f s u))

/-- Post-modifications of a pointer wrap linearly or circularly; a length of 0 is the undefined case (R69).
The post-modifications of a bundle take effect with its end, summed for each pointer: modulo 2^32 where CIRC does not name it, else into
the circular buffer of set n mod 8, all taken as the unsigned values of bits [20:0], the result modulo 2^21 and zero-extended. A pointer
that MTC wrote or that has none keeps its value; nothing else of the tile changes. The moves of a D slot address the scratchpad through
bits [20:0] of their pointers. A D slot that post-modifies a circular pointer whose length is 0 is the undefined case, and the model stops
with a fault of its own name. -/
def Obligations.PostModifyIsLinearOrCircular : Prop :=
  (∀ (x : Tile) (p : Fin 16),
    let y := x.applyPmods
    let d := ((x.pmods.filter fun q => q.1 = p).map Prod.snd).sum
    let cb := x.cb[p.val % 8].toNat % 2097152
    let cl := x.cl[p.val % 8].toNat % 2097152
    y = { x with p := y.p, pmods := [], mtc := [] } ∧
    (p ∈ x.mtc ∨ p ∉ x.pmods.map Prod.fst → y.p[p] = x.p[p]) ∧
    (p ∉ x.mtc → x.circ.getLsbD p = false → y.p[p] = x.p[p] + BitVec.ofInt 32 d) ∧
    (p ∉ x.mtc → p ∈ x.pmods.map Prod.fst → x.circ.getLsbD p = true → 0 < cl → ∃ k : Nat, k < cl ∧
      y.p[p] = BitVec.ofNat 32 ((cb + k) % 2097152) ∧ ((k : Int) - (((x.p[p].toNat % 2097152 : Nat) : Int) + d - cb)) % cl = 0)) ∧
  ∀ (s : State) (t : Fin 64) (f : DSlot), InBundle t s → Memory.wf s = true →
    let x := s.tile t
    (DSound t f s → Completes (.dnop t f) s (fun u => DMoves t f s u ∧ (u.tile t).acc = x.acc)) ∧
    ∀ p ∈ ((if f.src3 then [((7 : Fin 16), x.m[7].toInt)] else []) ++ moveStep x 0 f.x ++ moveStep x 8 f.y).map Prod.fst,
      x.circ.getLsbD p = true → x.cl[p.val % 8].toNat % 2097152 = 0 → p ∉ x.mtc → exec (.dnop t f) s = .fault .circularZero

/-- Integer and bitwise VV operations: every element, the mask, and all other bits (R78, R80, R82, R83, R86).
In a bundle whose slots execute, with groups that R79 allows, each operation enters the queue and, once complete: on the integer types
VADD to VMULH, VMIN to VSUBS, the shifts, VMAC and the compares, and on every type VAND, VOR, VXOR and VMOV, give each enabled element of
vd the result of R86, wrapped or saturated to the type; a disabled one keeps its bits, or is 0 with km. VSEL writes every element by its
mask bit. VMEQ, VMLT and VMLE write the comparison of each enabled element below min(N, 64) into its bit of k(vd[2:0]), and 0 elsewhere.
No other bit changes. Groups that R79 forbids are its undefined cases. -/
def Obligations.ElementWiseIntegerOperations : Prop :=
  ∀ (s : State) (t : Fin 64) (f : VVec), InBundle t s →
    let x := s.tile t
    let w := tyWidth f.ty
    let n := f.n.val + 1
    let signed : Bool := f.ty.val % 2 = 0
    let val (a : Nat) : Int := if signed then (BitVec.ofNat w a).toInt else (a : Int)
    let bits (v : Int) : Nat := (v % 2 ^ w).toNat
    let lo : Int := if signed then -(2 ^ (w - 1)) else 0
    let hi : Int := if signed then 2 ^ (w - 1) - 1 else 2 ^ w - 1
    let clamp (v : Int) : Nat := bits (if v < lo then lo else if hi < v then hi else v)
    let ones (p : Bool) : Nat := if p then 2 ^ w - 1 else 0
    let fills (c : Instr) (srcs : List (Nat × Nat × Nat)) (g : Nat → Nat → Nat → Nat) : Prop :=
      (groupFault true (some (f.vd, w, n)) srcs = none → VCompletes t c 0 0 s (VecResult t f.vd w n
        (underMask x f.k f.km fun i => g (x.elem f.va w i) (x.elem f.vb w i) (x.elem f.vd w i)) s)) ∧
      ∀ e, groupFault true (some (f.vd, w, n)) srcs = some e → exec c s = .fault e
    let both : List (Nat × Nat × Nat) := [(f.va, w, n), (f.vb, w, n)]
    let masks (c : Instr) (p : Nat → Nat → Bool) : Prop := groupFault true none both = none → VCompletes t c 0 0 s (fun u =>
      u = { s with tiles := u.tiles } ∧ (∀ i, i ≠ t → u.tile i = s.tile i) ∧ u.tile t = { x with k := (u.tile t).k } ∧
      (∀ j : Fin 8, j.val ≠ f.vd.val % 8 → (u.tile t).k[j] = x.k[j]) ∧
      ∀ j, j < 64 → ((u.tile t).k[f.vd.val % 8]).getLsbD j =
        (decide (j < n) && (f.k == 0 || x.k[f.k].getLsbD j) && p (x.elem f.va w j) (x.elem f.vb w j)))
    (f.ty.val ≤ 4 →
      fills (.vadd t f) both (fun a b _ => bits (val a + val b)) ∧ fills (.vsub t f) both (fun a b _ => bits (val a - val b)) ∧
      fills (.vmul t f) both (fun a b _ => bits (val a * val b)) ∧ fills (.vmulh t f) both (fun a b _ => bits (val a * val b / 2 ^ w)) ∧
      fills (.vmin t f) both (fun a b _ => if val a ≤ val b then a else b) ∧ fills (.vmax t f) both (fun a b _ => if val a ≤ val b then b else a) ∧
      fills (.vabs t f) [(f.va, w, n)] (fun a _ _ => bits (if val a < 0 then -val a else val a)) ∧ fills (.vneg t f) [(f.va, w, n)] (fun a _ _ => bits (-val a)) ∧
      fills (.vadds t f) both (fun a b _ => clamp (val a + val b)) ∧ fills (.vsubs t f) both (fun a b _ => clamp (val a - val b)) ∧
      fills (.vsll t f) both (fun a b _ => a * 2 ^ (b % 32) % 2 ^ w) ∧ fills (.vsrl t f) both (fun a b _ => a / 2 ^ (b % 32)) ∧
      fills (.vsra t f) both (fun a b _ => bits ((BitVec.ofNat w a).toInt / 2 ^ (b % 32))) ∧
      fills (.vmac t f) both (fun a b d => bits (val d + val a * val b)) ∧
      fills (.vceq t f) both (fun a b _ => ones (a == b)) ∧ fills (.vclt t f) both (fun a b _ => ones (val a < val b)) ∧
      fills (.vcle t f) both (fun a b _ => ones (val a ≤ val b)) ∧
      masks (.vmeq t f) (fun a b => a == b) ∧ masks (.vmlt t f) (fun a b => val a < val b) ∧ masks (.vmle t f) (fun a b => val a ≤ val b)) ∧
    fills (.vand t f) both (fun a b _ => a &&& b) ∧ fills (.vor t f) both (fun a b _ => a ||| b) ∧ fills (.vxor t f) both (fun a b _ => a ^^^ b) ∧
    fills (.vmov t f) [(f.va, w, n)] (fun a _ _ => a) ∧
    (groupFault true (some (f.vd, w, n)) both = none → VCompletes t (.vsel t f) 0 0 s (VecResult t f.vd w n
      (fun i => some (if x.k[f.k].getLsbD (i % 64) then x.elem f.va w i else x.elem f.vb w i)) s))

/-- Float and complex VV operations, conversions, and reserved types (R81, R82, R83, R86).
With groups that R79 allows, once complete: on f16 and f32 VADD to VMUL, VABS, VNEG, VMAC and the compares, and on ci16 VADD, VSUB, VNEG,
VADDS, VSUBS, VCEQ, VCMUL and VCMULJ give each enabled element the result of R86, computed exactly and rounded once; VMIN and VMAX give an
operand as it is, the other one of a NaN. VCVT converts between any two types but ci16, saturating to an integer type. A type that an
opcode does not list faults the tile with bad_op, and none of the bundle's slots takes effect: a word that its S slot stored holds its
value again. -/
def Obligations.FloatAndComplexOperations : Prop :=
  ∀ (s : State) (t : Fin 64) (f : VVec), InBundle t s → Regs.wf s = true →
    let x := s.tile t
    let w := tyWidth f.ty
    let n := f.n.val + 1
    let both : List (Nat × Nat × Nat) := [(f.va, w, n), (f.vb, w, n)]
    let fills (c : Instr) (srcs : List (Nat × Nat × Nat)) (g : Nat → Nat → Nat → Nat) : Prop :=
      groupFault true (some (f.vd, w, n)) srcs = none → VCompletes t c 0 0 s (VecResult t f.vd w n
        (underMask x f.k f.km fun i => g (x.elem f.va w i) (x.elem f.vb w i) (x.elem f.vd w i)) s)
    let fmt := tyFmt f.ty
    let ones (p : Bool) : Nat := if p then 2 ^ w - 1 else 0
    let re (a : Nat) : Int := (BitVec.ofNat 16 a).toInt
    let im (a : Nat) : Int := (BitVec.ofNat 16 (a / 65536)).toInt
    let pair (r i : Int) : Nat := (r % 65536).toNat + 65536 * (i % 65536).toNat
    let clamp (v : Int) : Int := if v < -32768 then -32768 else if 32767 < v then 32767 else v
    let q (v : Int) : Int := clamp (rne ((v : Rat) / 32768))
    (f.ty.val = 5 ∨ f.ty.val = 6 →
      fills (.vadd t f) both (fun a b _ => fmt.enc (FV.add (fmt.dec a) (fmt.dec b))) ∧
      fills (.vsub t f) both (fun a b _ => fmt.enc (FV.sub (fmt.dec a) (fmt.dec b))) ∧
      fills (.vmul t f) both (fun a b _ => fmt.enc (FV.mul (fmt.dec a) (fmt.dec b))) ∧
      fills (.vmin t f) both (fun a b _ => if (fmt.dec a).isNan then b else if (fmt.dec b).isNan || !FV.ltTotal (fmt.dec b) (fmt.dec a) then a else b) ∧
      fills (.vmax t f) both (fun a b _ => if (fmt.dec a).isNan then b else if (fmt.dec b).isNan || !FV.ltTotal (fmt.dec a) (fmt.dec b) then a else b) ∧
      fills (.vabs t f) [(f.va, w, n)] (fun a _ _ => a % 2 ^ (w - 1)) ∧ fills (.vneg t f) [(f.va, w, n)] (fun a _ _ => a ^^^ 2 ^ (w - 1)) ∧
      fills (.vmac t f) both (fun a b d => fmt.enc (FV.fma (fmt.dec d) (fmt.dec a) (fmt.dec b))) ∧
      fills (.vceq t f) both (fun a b _ => ones (FV.eqNum (fmt.dec a) (fmt.dec b))) ∧
      fills (.vclt t f) both (fun a b _ => ones (FV.ltNum (fmt.dec a) (fmt.dec b))) ∧
      fills (.vcle t f) both (fun a b _ => ones (FV.ltNum (fmt.dec a) (fmt.dec b) || FV.eqNum (fmt.dec a) (fmt.dec b)))) ∧
    (f.ty.val = 7 →
      fills (.vadd t f) both (fun a b _ => pair (re a + re b) (im a + im b)) ∧ fills (.vsub t f) both (fun a b _ => pair (re a - re b) (im a - im b)) ∧
      fills (.vneg t f) [(f.va, w, n)] (fun a _ _ => pair (-re a) (-im a)) ∧
      fills (.vadds t f) both (fun a b _ => pair (clamp (re a + re b)) (clamp (im a + im b))) ∧
      fills (.vsubs t f) both (fun a b _ => pair (clamp (re a - re b)) (clamp (im a - im b))) ∧
      fills (.vceq t f) both (fun a b _ => ones (a == b)) ∧
      fills (.vcmul t f) both (fun a b _ => pair (q (re a * re b - im a * im b)) (q (re a * im b + im a * re b))) ∧
      fills (.vcmulj t f) both (fun a b _ => pair (q (re a * re b + im a * im b)) (q (im a * re b - re a * im b)))) ∧
    (f.ty.val ≠ 7 → f.vb.val % 8 ≠ 7 →
      let y := f.vb.val % 8
      groupFault true (some (f.vd, tyWidth y, n)) [(f.va, w, n)] = none →
        VCompletes t (.vcvt t f) 0 0 s (VecResult t f.vd (tyWidth y) n (underMask x f.k f.km fun i => convert f.ty y (x.elem f.va w i)) s)) ∧
    (∀ c ∈ (if f.ty.val ≤ 4 then [Instr.vcmul t f, .vcmulj t f] else if f.ty.val = 7 then
        [.vmul t f, .vmulh t f, .vmin t f, .vmax t f, .vabs t f, .vsll t f, .vsrl t f, .vsra t f, .vmac t f, .vclt t f, .vcle t f, .vmlt t f, .vmle t f, .vcvt t f]
        else [.vmulh t f, .vadds t f, .vsubs t f, .vsll t f, .vsrl t f, .vsra t f, .vcmul t f, .vcmulj t f]),
      Completes c s (fun u => (u.tile t).stopping = some 5 ∧ (u.tile t).v = x.v ∧ (u.tile t).k = x.k ∧ (u.tile t).vq = x.vq ∧
        (x.undo = none → u.mem = s.mem) ∧ u.get (TIL_CAUSE.bad_op t) = 1) ∧
      ∀ (s₀ : State) (r : Fin 32) (p : Fin 16) (off : BitVec 16), Issues .plain t s₀ → Memory.wf s₀ = true → exec (.st t r p false off) s₀ = .next s →
        Completes c s (fun u => (∀ a, u.byte a = s₀.byte a) ∧ (u.tile t).s = (s₀.tile t).begin.s ∧ (u.tile t).pend = (s₀.tile t).begin.pend ∧
          u.get (TIL_STAT.pc t) = (s₀.tile t).pc.toNat))

/-- Permutes, shuffles and reductions of the vector unit (R83, R87, R88).
With groups that R79 allows, once complete: each permute and shuffle gives each enabled element the source that R87 names, 0 for an index
outside the element count. Each reduction combines the enabled elements in the tree of R88, beat after beat, into element 0 of vd (VRAMAX
and VRAMIN an index into its lane 0) and keeps every other bit, whatever km is. -/
def Obligations.ShufflesAndReductions : Prop :=
  ∀ (s : State) (t : Fin 64) (f : VVec), InBundle t s →
    let x := s.tile t
    let w := tyWidth f.ty
    let n := f.n.val + 1
    let lane := x.elem f.vb 32 0
    let moves (c : Instr) (grp : Nat × Nat × Nat) (src : Nat → Nat → Option Nat) : Prop :=
      groupFault false (some (f.vd, w, n)) [(f.va, w, n), grp] = none → VCompletes t c 0 0 s (VecResult t f.vd w n (underMask x f.k f.km fun i =>
        match src i (x.elem f.vb 16 i) with
        | some j => if j < n then x.elem f.va w j else 0
        | none => 0) s)
    let merges (c : Instr) (g : Nat → Nat) : Prop :=
      groupFault false (some (f.vd, w, n)) [(f.va, w, n), (f.vb, w, n)] = none → VCompletes t c 0 0 s (VecResult t f.vd w n (underMask x f.k f.km g) s)
    let cat (j : Nat) : Nat := if j < n then x.elem f.va w j else x.elem f.vb w (j - n)
    let use (i : Nat) : Option Nat := if f.k = 0 ∨ x.k[f.k].getLsbD (i % 64) = true then some (x.elem f.va w i) else none
    let gives (c : Instr) (wd r : Nat) : Prop :=
      groupFault false (some (f.vd, wd, 1)) [(f.va, w, n)] = none → VCompletes t c 0 0 s (VecResult t f.vd wd 1 (fun _ => some r) s)
    moves (.vperm t f) (f.vb, 16, n) (fun i k => if k < 64 then some (64 * (i / 64) + k) else none) ∧
    moves (.vpermx t f) (f.vb, 16, n) (fun _ k => some k) ∧ moves (.vrev t f) (f.va, w, n) (fun i _ => some (n - 1 - i)) ∧
    moves (.vslup t f) (f.vb, 32, 1) (fun i _ => if lane ≤ i then some (i - lane) else none) ∧
    moves (.vsldn t f) (f.vb, 32, 1) (fun i _ => some (i + lane)) ∧ moves (.vbcl t f) (f.vb, 32, 1) (fun _ _ => some lane) ∧
    merges (.vzip t f) (fun i => if i % 2 = 1 then x.elem f.vb w (i / 2) else x.elem f.va w (i / 2)) ∧
    merges (.vuzpe t f) (fun i => cat (2 * i)) ∧ merges (.vuzpo t f) (fun i => cat (2 * i + 1)) ∧
    (f.ty.val ≤ 4 → ∀ sum prod : Int,
      sum = ((List.range n).map fun i => ((use i).map (tyVal f.ty)).getD 0).sum → prod = ((List.range n).map fun i => ((use i).map (tyVal f.ty)).getD 1).prod →
      gives (.vrsum t f) w (satTy f.ty sum) ∧ gives (.vrprod t f) w (satTy f.ty prod)) ∧
    (4 < f.ty.val → gives (.vrsum t f) w (reduceArith f.ty (· + ·) FV.add 0 (.zero false) n use)) ∧
    (f.ty.val = 5 ∨ f.ty.val = 6 → gives (.vrprod t f) w (reduceArith f.ty (· * ·) FV.mul 1 (.fin 1) n use)) ∧
    (f.ty.val ≠ 7 → ∀ r : Bool → Ranked, (∀ mx, r mx = reduceRanked f.ty mx n use) →
      gives (.vrmax t f) w (rankedBits f.ty (r true)) ∧ gives (.vrmin t f) w (rankedBits f.ty (r false)) ∧
      gives (.vramax t f) 32 (r true).2 ∧ gives (.vramin t f) 32 (r false).2) ∧
    gives (.vrand t f) w ((List.range n).foldl (fun m i => m &&& (use i).getD (2 ^ w - 1)) (2 ^ w - 1)) ∧
    gives (.vror t f) w ((List.range n).foldl (fun m i => m ||| (use i).getD 0) 0)

/-- Pack and unpack: nearest codes, saturation counts, decoded values (R83, R89, R90).
With groups that R79 allows, once complete, VPK writes the codes of R89 of the enabled elements of va, with the scale in lane 0 and the
zero point in lane 1 of vb, and adds the enabled elements that saturate to the counter that ty names, up to 2^32 - 1; VUPK writes scale
times the code's value, rounded to f32, and 0 for the codes that stand for 0. For a finite scale that is not 0 and a finite quotient, a
GN4 or CT8 code that does not saturate is at least as near as any other code, never the negative zero, and one above the top magnitude
takes the top code. -/
def Obligations.NarrowCodesAreNearest : Prop :=
  (∀ (s : State) (t : Fin 64) (f : VVec), InBundle t s → Regs.wf s = true →
    let x := s.tile t
    let n := f.n.val + 1
    let scale := f32.dec (x.elem f.vb 32 0)
    let zp := (BitVec.ofNat 32 (x.elem f.vb 32 1)).toInt
    let on (i : Nat) : Bool := f.k == 0 || x.k[f.k].getLsbD (i % 64)
    let packs (c : Instr) (w : Nat) (enc : FV → Coded) : Prop :=
      groupFault false (some (f.vd, w, n)) [(f.va, 32, n), (f.vb, 32, 1)] = none → VCompletes t c 0 0 s (fun u =>
        let e (i : Nat) : Coded := enc (f32.dec (x.elem f.va 32 i))
        VecResult t f.vd w n (underMask x f.k f.km fun i => (e i).1) s { u with regs := s.regs, now := s.now } ∧ WordsKept s u [TIL_VSATc.reg t f.ty] ∧
        u.get (TIL_VSATc.count t f.ty) =
          Nat.min (2 ^ 32 - 1) (s.get (TIL_VSATc.count t f.ty) + ((List.range n).filter fun i => on i && (e i).2).length))
    let unpacks (c : Instr) (w : Nat) (v : Nat → FV) : Prop :=
      groupFault false (some (f.vd, 32, n)) [(f.va, w, n), (f.vb, 32, 1)] = none → VCompletes t c 0 0 s (VecResult t f.vd 32 n
        (underMask x f.k f.km fun i => f32.enc (v (x.elem f.va w i))) s)
    packs (.vpkGn4 t f) 4 (fun v => gn4Enc v scale) ∧ packs (.vpkCt8 t f) 8 (fun v => ct8Enc v scale) ∧
    packs (.vpkS8 t f) 8 (fun v => i8Enc v scale zp true) ∧ packs (.vpkU8 t f) 8 (fun v => i8Enc v scale zp false) ∧
    unpacks (.vupkGn4 t f) 4 (fun c => if c = 8 then .zero false else scaleBy scale (gn4Real c)) ∧
    unpacks (.vupkCt8 t f) 8 (fun c => if c % 128 = 0 then .zero false else scaleBy scale (ct8Real c)) ∧
    unpacks (.vupkS8 t f) 8 (fun c => scaleBy scale ((BitVec.ofNat 8 c).toInt - zp : Int)) ∧
    unpacks (.vupkU8 t f) 8 (fun c => scaleBy scale ((c : Int) - zp : Int))) ∧
  ∀ p q : Rat, q ≠ 0 → p ≠ 0 →
    let a : Rat := if p / q < 0 then -(p / q) else p / q
    let dist (y : Rat) : Rat := if a < y then y - a else a - y
    let near (c : Coded) (top sgn : Nat) (lim : Rat) (val : Nat → Rat) : Prop :=
      c.2 = decide (lim < a) ∧ c.1 ≠ sgn ∧ (c.1 % sgn = 0 → c.1 = 0) ∧ (c.1 % sgn ≠ 0 → (sgn ≤ c.1 ↔ p / q < 0)) ∧ c.1 < 2 * sgn ∧
      (lim < a → c.1 % sgn = top) ∧ (a ≤ lim → ∀ j, j ≤ top → dist (val (c.1 % sgn)) ≤ dist (val j))
    near (gn4Enc (.fin p) (.fin q)) 7 8 1 gn4Mag ∧ near (ct8Enc (.fin p) (.fin q)) 127 128 (31 / 16) ct8Mag

/-- Vector loads and stores, and the fused chain (R83, R84, R94, R95, R96).
With no ECC error pending and groups that R79 allows, once complete: VLD and VLDS take each enabled element, as it stood before the ck,
from its address (p + i d) modulo 2 MiB, low bits cleared, d being 0 with sz, m(m) for VLDS, else the element size; VST and VSTS store
each enabled element there and no other byte, on an overlap the one of highest index, but not over a word that the core wrote in that ck;
VMNOP does nothing. VF completes: with a register destination and no acting SCALE memory stays, with a memory destination and no SCALE the
registers stay, and but the tile's, TIL_VSAT(sc) alone changes. A one-stage f32 chain from registers to registers with a constant operand
gives each enabled element the rounded result. -/
def Obligations.VectorMemoryAndChains : Prop :=
  ∀ (s : State) (t : Fin 64) (f : VMem) (g : VChain), InBundle t s → Memory.wf s = true → Regs.wf s = true → NoErrors s →
    let x := s.tile t
    let w := tyWidth f.ty
    let n := f.n.val + 1
    let on (k : Fin 8) (i : Nat) : Prop := k = 0 ∨ x.k[k].getLsbD (i % 64) = true
    let addr (strided : Bool) (i : Nat) : Nat :=
      let d : Int := if f.sz then 0 else if strided then x.m[f.m].toInt else ((w / 8 : Nat) : Int)
      0x1100000000 + 0x400000 * t.val + (((x.p[f.p].toNat : Int) + i * d) % 2097152).toNat / (w / 8) * (w / 8)
    let le (a k : Nat) : Nat := natOfBytes ((List.range k).map fun i => s.phaseByte (a + i))
    let loads (c : Instr) (strided : Bool) : Prop := groupFault false (some (f.v, w, n)) [] = none → VCompletes t c f.p f.m s (VecResult t f.v w n
      (fun i => if on f.k i then some (le (addr strided i) (w / 8)) else none) s)
    let coreWrote (a : Nat) : Prop := ∃ i, i < 4 ∧ (s.now.core.find (a / 4 * 4 + i)).isSome = true
    let stores (c : Instr) (strided : Bool) : Prop := groupFault false none [(f.v, w, n)] = none → VCompletes t c f.p f.m s (fun u =>
      u = { s with mem := u.mem, flaws := u.flaws, now := u.now } ∧
      (∀ a, (∀ i, i < n → on f.k i → a < addr strided i ∨ addr strided i + w / 8 ≤ a) → u.byte a = s.byte a) ∧
      ∀ i j, i < n → on f.k i → j < w / 8 → (∀ k, i < k → k < n → on f.k k → addr strided k ≠ addr strided i) →
        (coreWrote (addr strided i + j) → u.byte (addr strided i + j) = s.byte (addr strided i + j)) ∧
        (¬coreWrote (addr strided i + j) → u.byte (addr strided i + j) = BitVec.ofNat 8 (x.elem f.v w i / 256 ^ j)))
    let word (i : Nat) : Nat := le (spadBase t + (s.get (TIL_VCTB.base t) * 16384 + 64 * g.chain.toNat + 4 * i) % 2097152) 4
    let c := chainOf ((List.range 16).map word)
    let m := g.n.val + 1
    let plain (op : FV → FV → FV) : Prop :=
      groupFault false (some (g.vd, 32, m)) [(g.va, 32, m)] = none → VCompletes t (.vf t g) 0 0 s (fun u => VecResult t g.vd 32 m
        (underMask x g.k false fun i => f32.enc (f32.dec (f32.enc (op (f32.dec (x.elem g.va 32 i)) (f32.dec (word 9)))))) s
          { u with regs := s.regs, now := s.now })
    Completes (.vmnop t) s (fun u => u = s) ∧ loads (.vld t f) false ∧ loads (.vlds t f) true ∧ stores (.vst t f) false ∧ stores (.vsts t f) true ∧
    (let srcs := (if c.aMem then [] else [(g.va.val, tyWidth c.ta, m)]) ++ (if c.bMem then [] else [(g.vb.val, tyWidth c.tb, if c.bBc then 1 else m)])
     (∀ wd ∈ [4, 8, 16, 32], groupFault false (if c.dMem then none else some (g.vd.val, wd, m)) srcs = none) → VCompletes t (.vf t g) 0 0 s (fun u =>
      u = { s with tiles := u.tiles, mem := u.mem, flaws := u.flaws, regs := u.regs, now := u.now } ∧ (∀ i, i ≠ t → u.tile i = s.tile i) ∧
      u.tile t = { x with v := (u.tile t).v } ∧ WordsKept s u [TIL_VSATc.reg t c.sc] ∧ (c.dMem = true → (u.tile t).v = x.v) ∧
      (c.dMem = false → actingScale c = none → u.mem = s.mem) ∧
      ∀ a, a < spadBase t ∨ spadBase t + 2097152 ≤ a → u.byte a = s.byte a)) ∧
    (c.nstage = 1 → c.aMem = false → c.dMem = false → c.bMem = true → c.wt = false → c.ta = 6 → c.td = 6 →
      (∀ sop op, (sop, op) ∈ [(1, FV.add), (2, FV.sub), (3, fun a b => FV.sub b a), (4, FV.mul), (5, FV.min), (6, FV.max)] →
        stageFields (nthD c.stages 0 0) = (sop, 2, 0, 0) → plain op))

/-- The loader fills operand tiles, their scales and zero points, and rescale tables (R99, R108, R109, R110).
With sound reserved fields and no ECC error pending, once complete: MLD fills the first nr rows of its tile, row r from the 64 bytes at (p
+ r m(sel)) modulo 2 MiB with bits [5:0] cleared, and writes 0 to the others; MLS fills the first nr row scales from p + 2r and writes +0
to the others; MZP sets zero point and signedness; MRT fills the 64 entries of a bank's rescale table; MNOP does nothing. The other parts
of the tile, the other tiles and banks, and everything outside stay. A reserved field that is not 0 faults the tile with bad_op. -/
def Obligations.MatrixOperandsLoadByRows : Prop :=
  ∀ (s : State) (t : Fin 64) (f : VMat), InBundle t s → Regs.wf s = true → NoErrors s →
    let x := s.tile t
    let nr := f.cnt.toNat % 64 + 1
    let p := x.p[f.vd.val % 16].toNat % 2097152
    let base := 0x1100000000 + 0x400000 * t.val
    let le (a k : Nat) : Nat := natOfBytes ((List.range k).map fun i => s.phaseByte (a + i))
    let only (u : State) (y : Tile) : Prop := u = { s with tiles := u.tiles } ∧ (∀ i, i ≠ t → u.tile i = s.tile i) ∧ u.tile t = y
    let tile (u : State) (g : MTile → MTile → Prop) : Prop := only u { x with mt := (u.tile t).mt } ∧
      (∀ i : Fin 4, i ≠ f.ma → (u.tile t).mt[i] = x.mt[i]) ∧ g x.mt[f.ma] (u.tile t).mt[f.ma]
    Completes (.mnop t) s (fun u => u = s) ∧
    (f.mb = 0 → f.vd.val < 16 → f.fmt = 0 → f.cnt.toNat < 64 →
      VCompletes t (.mld t f) (Fin.ofNat 16 f.vd) f.sel s (fun u => tile u fun a b => b = { a with data := b.data } ∧ ∀ r k, r < 64 → k < 64 →
        b.data.extractLsb' (512 * r + 8 * k) 8 =
          if r < nr then s.phaseByte (base + (((p : Int) + r * x.m[f.sel].toInt) % 2097152).toNat / 64 * 64 + k) else 0) ∧
      (f.sel = 0 → VCompletes t (.mls t f) (Fin.ofNat 16 f.vd) 0 s (fun u => tile u fun a b => b = { a with scale := b.scale } ∧ ∀ r, r < 64 →
        (b.scale.extractLsb' (16 * r) 16).toNat = if r < nr then le (base + (p / 2 * 2 + 2 * r) % 2097152) 2 else 0))) ∧
    (f.mb = 0 → f.vd = 0 → f.fmt = 0 → f.sel = 0 → f.cnt.toNat < 512 →
      VCompletes t (.mzp t f) (Fin.ofNat 16 f.vd) 0 s (fun u => tile u fun a b => b = { a with zp := f.cnt.setWidth 8, sgn := f.cnt.getLsbD 8 })) ∧
    (f.ma = 0 → f.mb = 0 → f.vd.val < 16 → f.fmt = 0 → f.cnt = 0 → ∀ b : Fin 4, b.val = f.sel.val →
      VCompletes t (.mrt t f) (Fin.ofNat 16 f.vd) 0 s (fun u => only u { x with ab := (u.tile t).ab } ∧ (∀ i : Fin 4, i ≠ b → (u.tile t).ab[i] = x.ab[i]) ∧
        (u.tile t).ab[b] = { x.ab[b] with rt := ((u.tile t).ab[b]).rt } ∧
        ∀ j, j < 64 → (((u.tile t).ab[b]).rt.extractLsb' (32 * j) 32).toNat = le (base + (p / 4 * 4 + 4 * j) % 2097152) 4)) ∧
    (f.mb ≠ 0 → ∀ c ∈ [Instr.mld t f, .mls t f, .mzp t f, .mrt t f], Completes c s (fun u =>
      (u.tile t).stopping = some 5 ∧ (u.tile t).mt = x.mt ∧ (u.tile t).ab = x.ab ∧ u.get (TIL_CAUSE.bad_op t) = 1))

/-- MMA and MMAC accumulate exact products into 64 × 64 banks (R101, R104, R109, R111).
With vd = 0 and a format of 0 to 5, once complete: a run starts at start = 1 or at another format than the bank's; it zeroes its banks and
latches the format and the tiles' scales. With K the smaller of cnt + 1 and the row's elements, each 48-bit entry then grows by the sum of
K integer products, modulo 2^48, for I8, GN4 and CT8 with MMAC as MMA; for CI8 and CI16 the pair of banks grows by the real and imaginary
parts, MMAC conjugating the second operand; an F16 entry takes K binary32 additions in ascending k, each rounded once. Everything else
stays. -/
def Obligations.MatrixProductsAreExact : Prop :=
  ∀ (s : State) (t : Fin 64) (f : VMat) (conj : Bool), InBundle t s → f.vd = 0 → f.fmt.val ≤ 5 →
    let x := s.tile t
    let m := f.fmt.val
    let a := x.mt[f.ma]
    let b := x.mt[f.mb]
    let kt : Nat := if m = 1 then 128 else if m = 0 ∨ m = 2 then 64 else if m = 5 then 16 else 32
    let ks := List.range (if f.cnt.toNat + 1 ≤ kt then f.cnt.toNat + 1 else kt)
    let bank : Fin 4 := if 4 ≤ m then ⟨f.sel.val / 2 % 2 * 2, by omega⟩ else ⟨f.sel.val % 4, by omega⟩
    let next : Fin 4 := if 4 ≤ m then bank + 1 else bank
    let starts : Prop := 4 ≤ f.sel.val ∨ (x.ab[bank]).fmt.toNat ≠ m
    let signed (z : Nat) : Int := (BitVec.ofNat 48 z).toInt
    let cr (z : MTile) (i k : Nat) : Int := (z.cpx m i k).1
    let ci (z : MTile) (i k : Nat) : Int := (z.cpx m i k).2
    let sg : Int := if conj then -1 else 1
    VCompletes t (if conj then .mmac t f else .mma t f) (Fin.ofNat 16 f.vd) 0 s (fun u =>
      let y := u.tile t
      let before (n : Fin 4) (i j : Nat) : Nat := open Classical in if starts then 0 else (x.ab[n]).entry i j
      let grew (n : Fin 4) (term : Nat → Nat → Nat → Int) : Prop := ∀ i j, i < 64 → j < 64 →
        ((y.ab[n]).entry i j : Int) = (signed (before n i j) + (ks.map (term i j)).sum) % 2 ^ 48
      u = { s with tiles := u.tiles } ∧ (∀ i, i ≠ t → u.tile i = s.tile i) ∧ y = { x with ab := y.ab } ∧
      (∀ n : Fin 4, n ≠ bank → n ≠ next → y.ab[n] = x.ab[n]) ∧
      (∀ n : Fin 4, n = bank ∨ n = next → (y.ab[n]).rt = (x.ab[n]).rt ∧
        (starts → (y.ab[n]).fmt.toNat = m ∧ (y.ab[n]).sa = a.scale ∧ (y.ab[n]).sb = b.scale) ∧
        (¬starts → (y.ab[n]).fmt = (x.ab[n]).fmt ∧ (y.ab[n]).sa = (x.ab[n]).sa ∧ (y.ab[n]).sb = (x.ab[n]).sb)) ∧
      (m ≤ 2 → grew bank fun i j k => a.opv m i k * b.opv m j k) ∧
      (4 ≤ m → grew bank (fun i j k => cr a i k * cr b j k - sg * (ci a i k * ci b j k)) ∧
        grew next (fun i j k => sg * (cr a i k * ci b j k) + ci a i k * cr b j k)) ∧
      (m = 3 → ∀ i j, i < 64 → j < 64 → (y.ab[bank]).entry i j = ks.foldl (fun v k =>
        encCanon f32 (FV.add (f32.dec v) (FV.mul (f16.dec (a.elem 3 i k)) (f16.dec (b.elem 3 j k))))) (before bank i j % 2 ^ 32)))

/-- MRD reads rows of a bank into vector registers, rescaled, clamped and counted (R108, R113, R114).
With sound reserved fields and a group that R79 allows, once complete, MRD writes nr rows, from the first row on modulo 64, to the group
at vd: S32 clamps the entry to 32 bits; RQS8, RQU8 and RQS16 give rne(entry × mult / 2^shift + zp) clamped to the code range; CRQ16 does
so for each component of the pair with the even bank's table and zero point 0; F32, F16 and CF32 round the exact value entry × 2^-u × sa ×
sb once. The clamped elements are added to the named counter. No mask applies, and no other register changes. -/
def Obligations.MatrixReadoutRescales : Prop :=
  ∀ (s : State) (t : Fin 64) (f : VMat), InBundle t s → Regs.wf s = true → f.ma.val < 2 → f.fmt.val ≤ 7 → f.sel.val < 4 →
    let x := s.tile t
    let nr := f.cnt.toNat % 64 + 1
    let row (r : Nat) : Nat := (f.cnt.toNat / 64 + r) % 64
    let b := x.ab[f.sel.val % 4]
    let even := x.ab[f.sel.val / 2 % 2 * 2]
    let odd := x.ab[f.sel.val / 2 % 2 * 2 + 1]
    let c := 4 * f.ma.val + f.mb.val
    let cell (m : MBank) (i j : Nat) : Int := (BitVec.ofNat 48 (m.entry i j)).toInt
    let ent (m : MBank) (j : Nat) : BitVec 32 := m.rt.extractLsb' (32 * j) 32
    let lim (w : Nat) (lo hi v : Int) : Nat × Bool := (((if v < lo then lo else if hi < v then hi else v) % 2 ^ w).toNat, decide (v < lo ∨ hi < v))
    let rq (acc : Int) (e : BitVec 32) (zp : Int) : Int :=
      rne (((acc * (e.extractLsb' 0 16).toInt : Int) : Rat) / ((2 ^ (e.extractLsb' 16 6).toNat : Nat) : Rat) + (zp : Rat))
    let zs (e : BitVec 32) : Int := (e.extractLsb' 22 8).toInt
    let zu (e : BitVec 32) : Int := (e.extractLsb' 22 8).toNat
    let reads (w per : Nat) (e : Nat → Nat → Nat × Bool) : Prop := groupFault false (some (f.vd, w, per * nr)) [] = none →
      VCompletes t (.mrd t f) (Fin.ofNat 16 f.vd) 0 s (fun u => VecResult t f.vd w (per * nr) (fun i => some (e (row (i / per)) (i % per)).1) s { u with regs := s.regs, now := s.now } ∧
        WordsKept s u [TIL_VSATc.reg t c] ∧ u.get (TIL_VSATc.count t c) =
          Nat.min (2 ^ 32 - 1) (s.get (TIL_VSATc.count t c) + ((List.range (per * nr)).filter fun i => (e (row (i / per)) (i % per)).2).length))
    (f.fmt = 0 → reads 32 64 fun i j => lim 32 (-2147483648) 2147483647 (cell b i j)) ∧
    (f.fmt = 1 → reads 32 64 fun i j => (mRound f32 (mValue b b i j), false)) ∧ (f.fmt = 2 → reads 16 64 fun i j => (mRound f16 (mValue b b i j), false)) ∧
    (f.fmt = 3 → reads 8 64 fun i j => lim 8 (-128) 127 (rq (cell b i j) (ent b j) (zs (ent b j)))) ∧
    (f.fmt = 4 → reads 8 64 fun i j => lim 8 0 255 (rq (cell b i j) (ent b j) (zu (ent b j)))) ∧
    (f.fmt = 5 → reads 16 64 fun i j => lim 16 (-32768) 32767 (rq (cell b i j) (ent b j) (zs (ent b j)))) ∧
    (f.fmt = 6 → reads 16 128 fun i j => lim 16 (-32768) 32767 (rq (cell (if j % 2 = 0 then even else odd) i (j / 2)) (ent even (j / 2)) 0)) ∧
    (f.fmt = 7 → reads 32 128 fun i j => (mRound f32 (mValue even (if j % 2 = 0 then even else odd) i (j / 2)), false)) ∧
    (∀ e, groupFault false (some (f.vd, (mReadShape f.fmt).1, (mReadShape f.fmt).2 * nr)) [] = some e → exec (.mrd t f) s = .fault e)

/-- Start, completion, cancel, drop and promotion of DMA queues (R133, R135, R138, R139, R141).
On a running fabric: a start of an enabled idle queue whose ring holds 1 to 2^L descriptors takes the sound one at cons and becomes busy.
A descriptor all of whose lines are written completes: cons advances in the header, each target tile's flag is set, and with nothing more
in the ring the queue stops. A cancel drops fetched lines, writes the prod that it read last to cons, sets cancelled, and leaves a busy
queue draining; busy clears once its fetches have returned. A receiver beyond its lag limit is dropped and reported; with det = 0 a queue
beyond its age limit becomes urgent. -/
def Obligations.DmaQueuesRunTheirRings : Prop :=
  ∀ (s : State) (c : Fin 8) (q : Fin 32) (i : Fin 8), Runs 82 1 s → s.domOn (72 + c.val) = true → Regs.wf s = true → Memory.wf s = true → NoErrors s →
    let x := s.dq c q
    let ring (o : Nat) : Nat := 0x1000000000 + 0x1000000 * c.val + (64 * s.get (DMA_Qn_RING.offset c q) + o) % 0x1000000
    let size := 2 ^ s.dmaLog c q
    let cons := BitVec.ofNat 32 (s.le (ring 4) 4)
    let prod := BitVec.ofNat 32 (s.le (ring 0) 4)
    let others (u : State) : Prop := ∀ d p, d ≠ c ∨ p ≠ q → u.dq d p = s.dq d p
    let header (v : BitVec 32) (u : State) : Prop := u.le (ring 4) 4 = v.toNat ∧ ∀ a, a < ring 4 ∨ ring 4 + 4 ≤ a → u.byte a = s.byte a
    (s.get (DMA_Qn_RING.en c q) = 1 → s.get (DMA_Qn_STAT.busy c q) = 0 → prod ≠ cons → (prod - cons).toNat ≤ size →
      ∀ d, d = BitVec.ofNat 512 (s.le (ring (64 + 64 * (cons.toNat % size))) 64) → dReserved d = false →
      Completes (.dmaGo c q) s (fun u => (u.dq c q).desc = some d ∧ (u.dq c q).cons = cons ∧ (u.dq c q).prod = prod ∧ (u.dq c q).fifo = [] ∧
        (u.dq c q).row = 0 ∧ (u.dq c q).piece = 0 ∧ u.get (DMA_Qn_STAT.busy c q) = 1 ∧ u.get (DMA_Qn_STAT.cancelled c q) = 0 ∧ u.mem = s.mem ∧ others u ∧
        WordsKept s u [DMA_Qn_STAT.reg c q])) ∧
    (∀ d, x.desc = some d → x.allWritten d = true → (x.evTiles d).all (fun t => s.tileOn t) = true → x.hold = false → x.prod = x.cons + 1 → prod = x.cons + 1 →
      Completes (.descriptorCompletion c q) s (fun u => header (x.cons + 1) u ∧ (u.dq c q).cons = x.cons + 1 ∧ (u.dq c q).desc = none ∧
        u.get (DMA_Qn_STAT.busy c q) = 0 ∧ others u ∧ ∀ t : Fin 64, (u.tile t).evf = (s.tile t).evf |||
          (if t ∈ x.evTiles d then (1 : BitVec 32) <<< (dFlag d) else 0))) ∧
    Completes (.dmaCancel c q) s (fun u => (u.dq c q).desc = none ∧ (u.dq c q).fifo = [] ∧ (u.dq c q).draining = s.flag (DMA_Qn_STAT.busy c q) ∧
      (x.seen = true → header x.prod u ∧ (u.dq c q).cons = x.prod) ∧ (x.seen = false → u.mem = s.mem ∧ (u.dq c q).cons = x.cons) ∧
      u.get (DMA_Qn_STAT.cancelled c q) = 1 ∧ u.get (DMA_Qn_STAT.busy c q) = s.get (DMA_Qn_STAT.busy c q) ∧
      (s.apx.reqs = [] → u.get (DMA_Qn_STAT.nout c q) = 0) ∧ others u ∧ WordsKept s u [DMA_Qn_STAT.reg c q]) ∧
    (x.draining = true → x.returned.toNat ≤ s.mono.toNat → s.apx.reqs = [] → Completes (.cancelDrainEnd c q) s (fun u => (u.dq c q).draining = false ∧
      u.get (DMA_Qn_STAT.busy c q) = 0 ∧ u.mem = s.mem ∧ others u ∧ WordsKept s u [DMA_Qn_STAT.reg c q])) ∧
    (∀ d, x.desc = some d → dOp d = 2 → i.val < dReceivers d → s.get (DMA_Qn_CFG.lag c q) ≠ 0 → x.drop.getLsbD i = false →
      64 * s.get (DMA_Qn_CFG.lag c q) < x.lag[i] → Completes (.multicastReceiverDrop c q i) s (fun u =>
        u.dq c q = { x with drop := (u.dq c q).drop } ∧ (∀ j : Fin 8, (u.dq c q).drop.getLsbD j = (decide (j = i) || x.drop.getLsbD j)) ∧
        (u.get (DMA_Cc_MCDROPn.rcv c q)).testBit i = true ∧ (u.get (DMA_Cc_CAUSE.mc_drop c)).testBit q = true ∧ u.mem = s.mem ∧ others u)) ∧
    (s.get SYS_MODE.det = 0 → s.get DMA_AGE.us ≠ 0 → s.get DMA_AGE.us * 2200 < x.age →
      Completes (.starvationPromotion c q) s (fun u => u.get (DMA_Qn_STAT.urgent c q) = 1 ∧ u = { s with regs := u.regs, now := u.now } ∧
        WordsKept s u [DMA_Qn_STAT.reg c q]))

/-- One line of COPY, FILL and MULTICAST_COPY: which line is fetched, and where it is read and written (R128, R134, R135, R137, R140).
For a descriptor of this chip without conversion: with room under the limit and an opportunity of the schedule, a fetch takes the next
line of the stream, or the lowest-addressed of the window that has room on its channel while that line lies in LPDDR6, and holds its bytes
in stream order, FILL's from the pattern repeated from the start of the row; memory stays. With its opportunities, the write of the first
line puts its bytes at its one destination, or of a multicast under credit at every receiver's dst + 64 (j mod m), and changes no other
byte (in a ck in which nothing else has written a scratchpad). The window holds at most 45 lines. -/
def Obligations.DmaLinesMoveOnlyTheirBytes : Prop :=
  ∀ (s : State) (c : Fin 8) (q : Fin 32) (d : BitVec 512), Runs 82 1 s → Regs.wf s = true → Memory.wf s = true → NoErrors s →
    let x := s.dq c q
    let at_ := 64 * x.piece
    let len := Nat.min 64 (dRow d - at_)
    let src := addr40 (dSrc d) (dSstride d * x.row + at_)
    let op (fetch write : Fin 128) : Instr :=
      if dOp d = 0 then .copy c q fetch ⟨write, false⟩ else if dOp d = 1 then .fill c q fetch ⟨write, false⟩ else .multicastCopy c q fetch ⟨write, false⟩
    let frame (u : State) : Prop := (u.dq c q).desc = some d ∧ WordsKept s u [DMA_Qn_STAT.reg c q] ∧ u.tiles = s.tiles ∧ u.apx = s.apx ∧
      (∀ e p, e ≠ c ∨ p ≠ q → u.dq e p = s.dq e p) ∧ (s.apx.reqs = [] → (u.dq c q).fifo = [] → u.get (DMA_Qn_STAT.nout c q) = 0)
    let inMem (a n : Nat) : Prop := s.rangeOn a (Nat.max 1 n) = true ∧ ∀ i, i < n → (regionOf (a + i)).backed = true
    let fetches (m : FLine) (bs : List (BitVec 8)) : Prop := Completes (op 1 0) s (fun u => frame u ∧ u.mem = s.mem ∧
      (u.dq c q).fifo = insertLine ⟨m.row, m.piece, bs, 0, []⟩ x.fifo ∧ (u.dq c q).sent = x.sent ∧
      (x.ahead = [] → x.nextLine d = some m → (u.dq c q).ahead = [] ∧ (u.dq c q).pos = x.pos.next d))
    x.desc = some d → dChip d = 0 → dConv d = 0 → dOp d ≤ 2 →
    (x.window d).length ≤ 45 ∧
    (dComp d = false → x.row < dRows d → x.nextLine d = some ⟨src, len, x.row, some x.piece⟩ ∧
      x.pos.next d = if x.piece + 1 < dPieces d then ⟨x.row, x.piece + 1, x.comp⟩ else ⟨x.row + 1, 0, false⟩) ∧
    (∀ m n, x.nextLine d = some n → s.pickLine c q d = some m → s.mayFetch c q = true →
      (dOp d ≠ 1 → regionOf n.addr = .lpddr → ∀ w ∈ x.window d, regionOf w.addr = .lpddr → s.room w.addr 1 = true → m.addr ≤ w.addr) ∧
      (dOp d = 1 ∨ regionOf n.addr ≠ .lpddr → m = n) ∧
      (dOp d = 1 → m.piece.isSome = true →
        fetches m ((List.range m.len).map fun i => BitVec.ofNat 8 (d.toNat / 256 ^ ((64 * m.piece.getD 0 + i) % 4)))) ∧
      (dOp d ≠ 1 ∨ m.piece = none → inMem m.addr m.len → (∀ i, i < m.len → sourceAllowed c (regionOf (m.addr + i)) = true) →
        (s.acquire c q (fetchNeed c m.addr (regionOf (((x.targets d m.row m.piece).map Prod.snd).headD 0))) m.addr).isSome = true →
        fetches m ((List.range m.len).map fun i => s.slotByte (m.addr + i)))) ∧
    (∀ l p, x.front d = some l → l.piece = some p → l.need = 0 → l.reached = [] → x.held d l = false → s.now.core = [] → s.now.port = [] →
      let places : List Nat := if dOp d = 2 then (x.receivers d).map fun j =>
          0x1100000000 + 0x400000 * (dReceiver d j).val + (dDst d + 64 * ((l.row * dPieces d + p) % dRing d)) % 0x200000
        else [addr40 (dDst d) (dDstride d * l.row + (64 * p : Nat))]
      (s.reach c q (lineFrom d l.row l.piece) (x.left d l)).1 = x.left d l → (∀ a ∈ places, inMem a l.data.length) →
      Completes (op 0 1) s (fun u => frame u ∧ (u.dq c q).fifo = x.fifo.drop 1 ∧ (u.dq c q).sent = x.sent + 1 ∧ (u.dq c q).pos = x.pos ∧
        (∀ a ∈ places, ∀ i, (h : i < l.data.length) → u.byte (a + i) = l.data[i]) ∧
        ∀ z, (∀ a ∈ places, z < a ∨ a + l.data.length ≤ z) → u.byte z = s.byte z))

/-- Comet launch, write, read and completion; the start of an LPDDR6 frame (R126, R127, R130, R143, R144, R145, R146).
A tile that may launch takes the command at the cons of its last header read and advances cons in its ring. While the controller serves
it, a write with its snapshot taken puts the next part of its bytes at the remote range, in memory that is on, and changes no other byte;
a read puts the part at the local range, each address modulo 2 MiB; a part is the whole, but in LPDDR6 ends at a 256-byte boundary.
Unserved nothing moves. A transfer that has moved leaves at its completion and sets its flag if ev = 1. At TMB_MONO mod 11,264 = 0 the
step map, the reservations and the ring owners last written take effect, and clip is set if a slot's reservations exceed 45. (No core has
written a scratchpad in this ck.) -/
def Obligations.CometTransfersAndMemoryFrames : Prop :=
  ∀ (s : State) (t k : Fin 64), s.fck = true → s.tileOn t = true → s.held 1 = false → Regs.wf s = true → Memory.wf s = true → NoErrors s →
    let spadAt (a : Nat) : Nat := 0x1100000000 + 0x400000 * t.val + a % 0x200000
    let base := 64 * s.get (TIL_CMT.base t)
    let ring := Nat.min 6 (s.get (TIL_CMT.n t))
    let others (u : State) : Prop := (∀ i, i ≠ t → u.comets i = s.comets i)
    s.now.core = [] →
    (∀ h prod cons, s.cometMayLaunch t = true → s.mv.header[t] = some (h, prod, cons) → Completes (.cometLaunch t) s (fun u =>
      u.comets t = s.comets t ++ [⟨h, s.mono, base + 64 + 32 * (cons.toNat % 2 ^ ring), none, none, none, false⟩] ∧ u.mv.header[t] = none ∧
      (u.cometHeader t).2 = cons + 1 ∧ (∀ a, (∀ i, i < 4 → a ≠ spadAt (base + 4 + i)) → u.byte a = s.byte a) ∧
      others u ∧ u.tiles = s.tiles ∧ WordsKept s u [TIL_CMTSTAT.reg t])) ∧
    (∀ tr d bs, (s.comets t)[k.val]? = some tr → tr.cmd = some d → tr.moved = false →
      (∀ i, i < cLen d → (regionOf (cRemote d + i)).backed = true) →
      let (o, n) := tr.part d
      let room := 256 - cRemote d % 256
      let moved := (s.comets t).set k { tr with moved := decide (o + n = cLen d), lower := if o + n = cLen d then tr.lower else some (s.mono.toNat / 11) }
      ((o, n) = if regionOf (cRemote d) ≠ .lpddr ∨ cLen d ≤ room then (0, cLen d) else if tr.lower = none then (0, room) else (room, cLen d - room)) ∧
      (regionOf (cRemote d) ≠ .lpddr → (s.cometServe t k tr d).isSome = true) ∧
      (s.cometServe t k tr d = none → (tr.snap ≠ none → exec (.cometWrite t ⟨k, false⟩) s = .next s) ∧ (cOp d = 1 → exec (.cometRead t ⟨k, false⟩) s = .next s)) ∧
      ((s.cometServe t k tr d).isSome = true → s.rangeOn (cRemote d + o) n = true →
        (tr.snap = some bs → bs.length = cLen d → Completes (.cometWrite t ⟨k, false⟩) s (fun u =>
          (∀ i, (h : i < bs.length) → o ≤ i → i < o + n → u.byte (cRemote d + i) = bs[i]) ∧
          (∀ a, a < cRemote d + o ∨ cRemote d + o + n ≤ a → u.byte a = s.byte a) ∧ u.comets t = moved ∧ others u ∧ u.tiles = s.tiles)) ∧
        (cOp d = 1 → Completes (.cometRead t ⟨k, false⟩) s (fun u =>
          (∀ i, o ≤ i → i < o + n → u.byte (spadAt (cLocal d + i)) = s.slotByte (cRemote d + i)) ∧
          (∀ a, (∀ i, o ≤ i → i < o + n → a ≠ spadAt (cLocal d + i)) → u.byte a = s.byte a) ∧ u.comets t = moved ∧ others u ∧ u.tiles = s.tiles)))) ∧
    (∀ tr d, (s.comets t)[k.val]? = some tr → tr.cmd = some d → tr.moved = true → Completes (.cometCompletion t k) s (fun u =>
      u.comets t = (s.comets t).eraseIdx k ∧ (u.comets t).length + 1 = (s.comets t).length ∧ others u ∧ u.mem = s.mem ∧
      u.tile t = { s.tile t with evf := (s.tile t).evf ||| if cEv d then (1 : BitVec 32) <<< cFlag d else 0 })) ∧
    (s.domOn 83 = true → s.mono.toNat % 11264 = 0 → Completes .memcFrameStart s (fun u =>
      let m := u.mv.mem
      u = { s with mv := { s.mv with mem := m }, regs := u.regs, now := u.now } ∧ WordsKept s u [MEMC_CAUSE.reg] ∧
      m.step.toNat = s.get MEMC_STEPMAP.step ∧ m.ringA.toNat = s.get DMA_RINGA_OWN.own ∧ m.ringB.toNat = s.get DMA_RINGB_OWN.own ∧
      m.rd.toNat = s.words MEMC_RSV_RD.reg 2 ∧ m.wr.toNat = s.words MEMC_RSV_WR.reg 2 ∧
      ((∃ sh, sh ≤ 1 ∧ ∃ i, i < m.slots sh ∧ 45 < Nat.min 8 (bitsOf (m.rsv sh).toNat 32 4) + spread (bitsOf (m.rsv sh).toNat 0 16) i (m.slots sh) +
        spread (bitsOf (m.rsv sh).toNat 16 16) i (m.slots sh)) → u.get MEMC_CAUSE.clip = 1)))

/-- A received frame is dropped and counted, buffered for its ingress engine, or written to a ring (R36, R150, R268, R271, R272, R297, R316).
On an up Ethernet port, with no ECC error pending: a frame above 9,216 bytes counts in drop; one whose FCS fails, or whose FEC meets an
uncorrectable codeword, counts in fcs and is logged with class 5. A good fronthaul frame joins the frame buffer with its capture time,
before those whose last bits came later, or finds no room and sets FH_CAUSE.ovr. A good frame of a ring goes to the ring's next buffer,
its descriptor is filled and prod advances; on ring 1 it waits for frames captured earlier; on a full ring it is counted and rxfull is
set, on a disabled one counted (the last is the model's reading, log entry 31). The codewords that the FEC reports are counted. -/
def Obligations.FramesAreCheckedAndClassified : Prop :=
  ∀ (s : State) (p : Fin 32) (sec : BitVec 48) (qns : Fin 4000000000) (data : List (BitVec 8)),
    Runs (portUnitOf p) 4 s → s.ethUp p = true → Regs.wf s = true → Memory.wf s = true → NoErrors s → ∀ fec : FecReport,
    let bs := data.take (data.length - 4)
    let q := lessLatency sec qns.val (s.cal (335 + s.portLane p))
    let e : Fin 4 := Fin.ofNat 4 (p.val / 8)
    let good : Prop := 4 ≤ data.length ∧ natOfBytes (data.drop (data.length - 4)) = (crc32 bs).toNat
    let up (f : Fld) (n : Nat) (u : State) : Prop := u.get f = Nat.min (s.get f + n) 4294967295
    let counted (f : Fld) (u : State) : Prop := up f 1 u
    let x : FhFrame := s.captured p q data.length bs
    let sooner (g h : FhFrame) : Prop := g.last < h.last ∨ (g.last = h.last ∧ g.lane < h.lane)
    (fec.unc ≠ 0 → data.length ≤ 9216 → Completes (.frameReceive p ⟨sec, qns⟩ data fec) s (fun u => counted (OPT_Pp_CNT.fcs p) u ∧
      up (OPT_Pp_CNT.corr p) fec.corr.toNat u ∧ up (OPT_Pp_CNT.unc p) fec.unc.toNat u ∧ u.mem = s.mem ∧ u.opt = s.opt)) ∧
    (fec.corr = 0 → fec.unc = 0 → x.data = bs ∧ x.time = q % (2 ^ 48 * 4000000000) ∧ x.off = etherAt bs + 2 ∧ x.lane = s.portLane p ∧
      x.last = 400 * q + 32 * data.length * rateDivisor (s.get (OPT_Pp_CFG.rate p)) ∧
    (9216 < data.length → Completes (.frameReceive p ⟨sec, qns⟩ data fec) s (fun u => counted (OPT_Pp_CNT.drop p) u ∧ u = { s with regs := u.regs, now := u.now } ∧
      WordsKept s u (fieldWords (OPT_Pp_CNT.drop p)))) ∧
    (data.length ≤ 9216 → ¬good → Completes (.frameReceive p ⟨sec, qns⟩ data fec) s (fun u => counted (OPT_Pp_CNT.fcs p) u ∧ Logged 5 0 p 0 s u ∧
      u = { s with regs := u.regs, now := u.now } ∧ WordsKept s u (fieldWords (OPT_Pp_CNT.fcs p) ++ logWords s))) ∧
    (data.length ≤ 9216 → good →
      (classify (s.flag (OPT_Pp_CFG.fh p)) bs = .ingress →
        (262144 < (s.opt.buf[e.val].map fun f => f.data.length + 4).sum + data.length → Completes (.frameReceive p ⟨sec, qns⟩ data fec) s (fun u =>
          u.get FH_CAUSE.ovr = 1 ∧ u = { s with regs := u.regs, now := u.now } ∧ WordsKept s u [FH_CAUSE.reg])) ∧
        ((s.opt.buf[e.val].map fun f => f.data.length + 4).sum + data.length ≤ 262144 → Completes (.frameReceive p ⟨sec, qns⟩ data fec) s (fun u =>
          (∃ pre post, s.opt.buf[e.val] = pre ++ post ∧ u.opt.buf[e.val] = pre ++ x :: post ∧ (∀ g ∈ pre, g.begun = true ∨ ¬sooner x g) ∧
            ∀ g, post.head? = some g → g.begun = false ∧ sooner x g) ∧
          (∀ i : Fin 4, i ≠ e → u.opt.buf[i.val] = s.opt.buf[i.val]) ∧ u = { s with opt := { s.opt with buf := u.opt.buf } }))) ∧
      (∀ r ptp, classify (s.flag (OPT_Pp_CFG.fh p)) bs = .ring r ptp → (r = 1 → s.opt.rxWait = []) →
        (r = 1 → s.ringWaits x = true → Completes (.frameReceive p ⟨sec, qns⟩ data fec) s (fun u => u = { s with opt := { s.opt with rxWait := [x] } })) ∧
        ((r = 1 → s.ringWaits x = false) →
        (s.flag (OPT_RXRr.en r) = false → Completes (.frameReceive p ⟨sec, qns⟩ data fec) s (fun u => counted (OPT_Pp_CNT.drop p) u ∧
          u = { s with regs := u.regs, now := u.now } ∧ WordsKept s u (fieldWords (OPT_Pp_CNT.drop p)))) ∧
        (s.flag (OPT_RXRr.en r) = true → s.addrOn (64 * s.get (OPT_RXRr.addr r)) = true →
          (BitVec.ofNat 32 (s.le (64 * s.get (OPT_RXRr.addr r)) 4) -
            BitVec.ofNat 32 (natOfBytes (s.sysBytes (64 * s.get (OPT_RXRr.addr r) + 4) 4))).toNat = 2 ^ ringLog (s.get (OPT_RXRr.log2size r)) →
          Completes (.frameReceive p ⟨sec, qns⟩ data fec) s (fun u => counted (OPT_Pp_CNT.drop p) u ∧ u.get OPT_CAUSE.rxfull = 1 ∧
            u = { s with regs := u.regs, now := u.now } ∧ WordsKept s u (fieldWords (OPT_Pp_CNT.drop p) ++ fieldWords OPT_CAUSE.rxfull))) ∧
        (RingReady r bs s → Completes (.frameReceive p ⟨sec, qns⟩ data fec) s (fun u => RingTakes r ptp p q bs s u ∧
          u = { s with mem := u.mem, flaws := u.flaws, now := u.now }))))))

/-- Ingress messages: bad ones, control, one-way delay, and the drops of IQ data (R151, R152, R153, R154, R155, R277).
The message at the head of an engine's buffer that breaks a requirement is dropped with hdr. A real-time control message goes in its frame
to ring 1. A one-way delay request is answered by a response with action 2, its measurement id and the capture time. An IQ message with
downlink direction sets dir, one that matches no stream nomatch; the lowest matching stream counts a sequence gap, and a message before lo
sets and counts early, one after hi stale. The message leaves the buffer. No frame is waiting for ring 1, no ECC error is pending. -/
def Obligations.IngressMessagesAreHandledByType : Prop :=
  ∀ (s : State) (e : Fin 4) (f : FhFrame) (rest : List FhFrame), Runs (92 + e.val) 4 s → Regs.wf s = true → Memory.wf s = true →
    s.opt.buf[e.val] = f :: rest → s.opt.rxWait = [] → NoErrors s → ∀ perr : Bool,
    let onlyRegs (u : State) : Prop := u = { s with regs := u.regs, now := u.now, opt := { s.opt with buf := u.opt.buf } } ∧ MemKept s u
    (badMsg f.msg = true → ∀ c ∈ [Instr.iqDataMessage ⟨e, perr⟩, .realTimeControlMessage e, .oneWayDelayMeasurement e], Completes c s (fun u =>
      u.get FH_CAUSE.hdr = 1 ∧ WordsKept s u [FH_CAUSE.reg] ∧ onlyRegs u ∧ (f.msg = none → u.opt.buf[e.val] = rest) ∧
      ∀ m, f.msg = some m → Popped e f m rest s u)) ∧
    (∀ m, f.msg = some m → badMsg f.msg = false →
      (m.ty = 2 → RingReady 1 f.data s → s.ringWaits f = false → Completes (.realTimeControlMessage e) s (fun u =>
        RingTakes 1 false f.port f.time f.data s u ∧ Popped e f m rest s u ∧
        u = { s with mem := u.mem, flaws := u.flaws, now := u.now, opt := { s.opt with buf := u.opt.buf } })) ∧
      (m.ty = 5 → 2 ≤ m.payload.length → beAt m.payload 1 1 ≤ 1 → etherAt f.data + 2 ≤ f.data.length → Completes (.oneWayDelayMeasurement e) s (fun u =>
        Popped e f m rest s u ∧ u = { s with opt := { s.opt with buf := u.opt.buf, port := u.opt.port } } ∧
        (∀ p : Fin 32, p ≠ f.port → u.opt.port[p.val] = s.opt.port[p.val]) ∧
        ∃ r, u.opt.port[f.port.val] = { s.opt.port[f.port.val] with resp := s.opt.port[f.port.val].resp ++ [r] } ∧
          let o := etherAt f.data
          r.take 6 = (f.data.drop 6).take 6 ∧ beAt r (o + 6) 1 = beAt m.payload 0 1 ∧ beAt r (o + 7) 1 = 2 ∧ beAt r (o + 8) 6 = qSec f.time ∧
          beAt r (o + 14) 4 = qBelow f.time / 4 ∧ beAt r (o + 18) 8 = f.time % 4 * 0x4000)) ∧
      (m.ty = 5 → 2 ≤ m.payload.length → 1 < beAt m.payload 1 1 → RingReady 1 f.data s → s.ringWaits f = false → Completes (.oneWayDelayMeasurement e) s (fun u =>
        RingTakes 1 false f.port f.time f.data s u ∧ Popped e f m rest s u ∧
        u = { s with mem := u.mem, flaws := u.flaws, now := u.now, opt := { s.opt with buf := u.opt.buf } })) ∧
      (m.ty = 0 → 8 ≤ m.payload.length →
        let b := m.payload
        let matches_ (k : Nat) : Prop := s.flag (FH_STRm_CFG.en k) = true ∧ s.get (FH_STRm_CFG.eaxc k) = beAt b 0 2 ∧
          s.flag (FH_STRm_CFG.prach k) = decide (beAt b 4 1 % 16 ≠ 0)
        (128 ≤ beAt b 4 1 → Completes (.iqDataMessage ⟨e, perr⟩) s (fun u => u.get FH_CAUSE.dir = 1 ∧ WordsKept s u [FH_CAUSE.reg] ∧ onlyRegs u ∧
          Popped e f m rest s u)) ∧
        (beAt b 4 1 < 128 → (∀ k, k < 256 → ¬matches_ k) → Completes (.iqDataMessage ⟨e, perr⟩) s (fun u => u.get FH_CAUSE.nomatch = 1 ∧
          WordsKept s u [FH_CAUSE.reg] ∧ onlyRegs u ∧ Popped e f m rest s u)) ∧
        (∀ k : Fin 256, beAt b 4 1 < 128 → matches_ k → (∀ j, j < k.val → ¬matches_ j) →
          let tl := s.get (FH_STRm_CFG.at k)
          let v := beAt b 6 2
          let id := BitVec.ofNat 8 (beAt b 2 1)
          let gap : Bool := (s.opt.seqId[k.val]).any fun old => decide (id ≠ old + 1)
          let δ := airDiff (s.airOf tl f.time) (tSym (s.airOf tl f.time) (beAt b 5 1) (v / 4096) (v / 64 % 64) (v % 64) (s.numerology tl).1 (s.numerology tl).2)
          let dropped (cause : Fld) (count : Fld) (u : State) : Prop :=
            u.get cause = 1 ∧ u.get count = Nat.min (s.get count + 1) 4294967295 ∧
            u.get (FH_STRm_CNT.seq k) = (if gap = true then Nat.min (s.get (FH_STRm_CNT.seq k) + 1) 4294967295 else s.get (FH_STRm_CNT.seq k)) ∧
            u.opt.seqId = s.opt.seqId.set k.val (some id) ∧ Popped e f m rest s u ∧
            u = { s with regs := u.regs, now := u.now, opt := { s.opt with buf := u.opt.buf, seqId := u.opt.seqId } } ∧
            WordsKept s u (FH_CAUSE.reg :: fieldWords count ++ fieldWords (FH_STRm_CNT.seq k))
          v / 4096 ≤ 9 → v / 64 % 64 < 2 ^ (s.numerology tl).1 → v % 64 < slotSymbols (s.numerology tl).2 →
          (δ < s.getS (FH_STRm_WIN.lo k) → Completes (.iqDataMessage ⟨e, perr⟩) s (dropped FH_CAUSE.early (FH_STRm_CNT.early k))) ∧
          (s.getS (FH_STRm_WIN.lo k) ≤ δ → s.getS (FH_STRm_WIN.hi k) < δ →
            Completes (.iqDataMessage ⟨e, perr⟩) s (dropped FH_CAUSE.stale (FH_STRm_CNT.stale k))))))

/-- An IQ message in its window writes its PRBs, exactly decoded, into the open batch of its symbol (R8, R155, R156, R157, R160, R162, R166, R167).
In a ck in which no crossbar write has come, for a message in its window whose stream has mode 0, no crop, no resize, no flip, no rotation
and its symbol in the mask, whose sections hold PRBs of one symbol that lie below the carrier's nprb and within the region, and whose
T_sym has an open batch that it does not complete: output PRB p is written at 48 p in the region of the stream's position, as its sections
decode; every other byte stays, the count of the position and the stream rises by 1, the batch stays open, and saturations are counted. A
PRB without compression of any width, and one in block floating point whose exponent is at most 16 − w, decodes without saturation; each
component is then its code times the power of two that the method gives. A µ-law code with its sign bit set has the negative of the value
of the code without it. -/
def Obligations.IqDataFillsItsBatch : Prop :=
  (∀ (s : State) (e : Fin 4) (f : FhFrame) (rest : List FhFrame) (m : Ecpri) (k : Fin 256) (q : Fin 64) (b : FhBatch) (us : List UPrb) (n : Nat),
    Runs (92 + e.val) 4 s → Regs.wf s = true → Memory.wf s = true → s.opt.buf[e.val] = f :: rest → f.msg = some m → badMsg f.msg = false → m.ty = 0 →
    let p := m.payload
    let tl := s.get (FH_STRm_CFG.at k)
    let mu := (s.numerology tl).1
    let ecp := (s.numerology tl).2
    let v := beAt p 6 2
    let tc := s.airOf tl f.time
    let t := tSym tc (beAt p 5 1) (v / 4096) (v / 64 % 64) (v % 64) mu ecp
    let base := b.slot + 64 + s.get (FH_STRm_CFG.pos k) * b.region
    8 ≤ p.length → beAt p 4 1 < 128 → s.opt.rxWait = [] → s.now.port = [] →
    0x1000000000 ≤ b.slot → b.slot + 64 + (b.nstr + 1) * b.region ≤ 0x1008000000 → s.streamOf (beAt p 0 2) (beAt p 4 1 % 16) = some k.val → v / 4096 ≤ 9 → v / 64 % 64 < 2 ^ mu → v % 64 < slotSymbols ecp →
    s.getS (FH_STRm_WIN.lo k) ≤ airDiff tc t → airDiff tc t ≤ s.getS (FH_STRm_WIN.hi k) →
    s.get (FH_STRm_CFG.queue k) = q.val → s.flag (FH_QUEq_CFG.en q) = true → s.bqOn q = true →
    (s.flag (FH_QUEq_CFG.ev q) = true → s.tileOn (s.get (FH_QUEq_CFG.tile q)) = true) →
    (s.bq q).batches.find? (fun x => decide (x.t = t) && !x.closed) = some b →
    parseSections (s.ustream k) p.length 0 (p.drop 8) ⟨[], 0, false, false⟩ = ⟨us, n, false, false⟩ → us ≠ [] → us.length ≤ 2250 →
    (∀ x ∈ us, x.inc = 0 ∧ x.prb < s.get (FH_STRm_CFG.nprb k) ∧ 48 * x.prb + 48 ≤ b.region ∧ x.re.length = 12) → us.Pairwise (fun x y => x.prb ≠ y.prb) →
    s.get (FH_STRm_SHP.mode k) = 0 → s.get (FH_STRm_CROP.first k) = 0 → s.get (FH_STRm_CROP.cnt k) = 0 →
    (s.get (FH_STRm_CROP.sym k)).testBit (v % 64) = true → s.get (FH_STRm_SHP.rs_u k) = 0 → s.get (FH_STRm_SHP.flip k) = 0 → s.get (FH_STRm_SHP.rot k) = 0 →
    s.get (FH_STRm_CFG.pos k) ≤ b.nstr → countAt b.counts (s.get (FH_STRm_CFG.pos k), some k.val) + 1 ≤ s.get (FH_STRm_CFG.nmsg k) → b.mask ≠ 2 ^ (b.nstr + 1) - 1 →
    Completes (.iqDataMessage ⟨e, false⟩) s (fun u =>
      (∀ x ∈ us, ∀ i, i < 48 → (x.re.flatMap CInt.bytes)[i]? = some (u.byte (base + 48 * x.prb + i))) ∧
      (∀ z, (∀ x ∈ us, z < base + 48 * x.prb ∨ base + 48 * x.prb + 48 ≤ z) → u.byte z = s.byte z) ∧
      (∃ c, (u.bq q).batches.find? (fun x => decide (x.t = t) && !x.closed) = some c ∧ c = { b with counts := c.counts } ∧
        countAt c.counts (s.get (FH_STRm_CFG.pos k), some k.val) = countAt b.counts (s.get (FH_STRm_CFG.pos k), some k.val) + 1) ∧
      (u.bq q).batches.length = (s.bq q).batches.length ∧ (∀ i : Fin 64, i ≠ q → u.bq i = s.bq i) ∧
      u.get (FH_STRm_CNT.sat k) = Nat.min (s.get (FH_STRm_CNT.sat k) + n) 4294967295 ∧ Popped e f m rest s u ∧
      u = { s with regs := u.regs, now := u.now, mem := u.mem, flaws := u.flaws, opt := { s.opt with buf := u.opt.buf, seqId := u.opt.seqId, que := u.opt.que } } ∧
      WordsKept s u (FH_QUEq_STAT.reg q :: fieldWords (FH_STRm_CNT.sat k) ++ fieldWords (FH_STRm_CNT.seq k)))) ∧
  (∀ (w : Nat) (bs : List (BitVec 8)), 1 ≤ w → w ≤ 16 →
    let code (k : Nat) (p : Nat) : Int := sCast w (natOfBytesBE ((bs.drop p).take (3 * w)) / 2 ^ (w * (23 - k)) % 2 ^ w)
    let part (z : CInt) (j : Nat) : Int := if j = 0 then z.re else z.im
    let each (x : List CInt × Nat) (g : Nat → Int) : Prop := x.2 = 0 ∧ x.1.length = 12 ∧ ∀ i j, i < 12 → j < 2 → ∃ z, x.1[i]? = some z ∧ part z j = g (2 * i + j)
    (bs.length = 3 * w → each (prbDec 0 w 0 0 bs) (fun k => code k 0 * 2 ^ (16 - w))) ∧
    (bs.length = 3 * w + 1 → beAt bs 0 1 % 16 ≤ 16 - w → each (prbDec 1 w 0 0 bs) (fun k => code k 1 * 2 ^ (beAt bs 0 1 % 16))) ∧
    (∀ (par scale csf u : Nat), 4 ≤ w → u < 2 ^ (w - 1) → prbValue 3 w par scale csf (u + 2 ^ (w - 1)) = -prbValue 3 w par scale csf u))

/-- A batch past its window is published; cons reads raise the low-water alarm (R74, R166, R167, R169, R170, R177).
The only open batch of a queue whose at_now has passed T_sym + hi is published: its header holds T_sym, flags, symbol and the received
mask, prod advances by 1, the consumer's flag is set, and no other byte changes (in a ck without a crossbar write). A read of cons, in its
ck or due from a publication, when the plane gives the header's bank, gives ahead the low byte of prod − cons, as they stood before the
ck, and raises the queue's alarm bit when ahead falls below lw after it had reached it. -/
def Obligations.BatchesArePublishedWhole : Prop :=
  ∀ (s : State) (q : Fin 64) (b : FhBatch) (h : Int), Runs 82 4 s → Regs.wf s = true → Memory.wf s = true → s.bqOn q = true →
    (s.flag (FH_QUEq_CFG.ev q) = true → s.tileOn (s.get (FH_QUEq_CFG.tile q)) = true) →
    let ring := s.bqAddr q 0
    let prod := s.le ring 4
    let t : Fin 64 := Fin.ofNat 64 (s.get (FH_QUEq_CFG.tile q))
    let others (u : State) : Prop := (∀ i : Fin 64, i ≠ q → u.bq i = s.bq i) ∧ u = { s with regs := u.regs, now := u.now, mem := u.mem, flaws := u.flaws, tiles := u.tiles, opt := { s.opt with que := u.opt.que } } ∧
      WordsKept s u (FH_QUEq_STAT.reg q :: TIL_CAUSE.reg t :: fieldWords FH_LWCAUSE.q)
    ((s.bq q).batches = [b] → b.closed = false → s.now.port = [] → 0x1000000000 ≤ b.slot → b.slot + 64 ≤ 0x1008000000 → b.hi = some h → s.timelineOn b.tl = true →
      0 < airDiff (s.atNow b.tl) (((b.t : Int) + h) % 5033164800).toNat → b.t < 2 ^ 33 → b.flags < 256 → b.sym < 256 → b.mask < 2 ^ 128 →
      (b.slot + 64 ≤ ring ∨ ring + 8 ≤ b.slot) →
      Completes (.batchTimeout q) s (fun u =>
        u.le b.slot 8 = b.t ∧ u.le (b.slot + 8) 1 = b.flags ∧ u.le (b.slot + 9) 1 = b.sym ∧ u.le (b.slot + 10) 6 = 0 ∧
        u.le (b.slot + 16) 16 = b.mask ∧ u.le (b.slot + 32) 32 = 0 ∧ u.le ring 4 = (prod + 1) % 2 ^ 32 ∧
        (∀ z, (z < b.slot ∨ b.slot + 64 ≤ z) → (z < ring ∨ ring + 4 ≤ z) → u.byte z = s.byte z) ∧
        (u.bq q).batches = [] ∧ (b.t, s.mono) ∈ (u.bq q).done ∧ u.get (FH_QUEq_STAT.open q) = 0 ∧ others u ∧
        (∀ i, i ≠ t → u.tile i = s.tile i) ∧
        u.tile t = { s.tile t with evf := (s.tile t).evf ||| (if s.flag (FH_QUEq_CFG.ev q) = true then (1 : BitVec 32) <<< (s.get (FH_QUEq_CFG.flag q)) else 0) })) ∧
    (s.flag (FH_QUEq_CFG.en q) = true → (s.mono.toNat + 1024 - 16 * q.val) % 1024 < 8 ∨ (s.bq q).due = true →
      (2 * (q.val % 4) + 2 * s.mono.toNat) % 16 = ring / 64 % 16 / 2 * 2 →
      let d := (prod + 2 ^ 32 - natOfBytes ((List.range 4).map fun i => s.coreByte (s.bqAddr q (4 + i)))) % 2 ^ 32
      Completes (.consRead q) s (fun u => u.get (FH_QUEq_STAT.ahead q) = d % 256 ∧ u.mem = s.mem ∧ u.tiles = s.tiles ∧ others u ∧
        (u.bq q).batches = (s.bq q).batches ∧ (u.bq q).due = false ∧ (u.bq q).armed = (if s.get (FH_QUEq_CFG.lw q) ≤ d then true else false) ∧
        u.get FH_LWCAUSE.q = if d < s.get (FH_QUEq_CFG.lw q) ∧ (s.bq q).armed = true then s.get FH_LWCAUSE.q ||| 2 ^ q.val else s.get FH_LWCAUSE.q))

/-- The AGC window, the gain word and the compensation (R174, R175, R176).
At the end of a window of a present, enabled chain fed by a link in data phase that released no zeros, with non-zero samples and no
failure behind it, pwr is P of R174 of the samples that the link carries. A run of det_n windows at or below det_thr sets fz_det. The code
moves to sat(att + rne((target − P) ka / 32), amin, amax), and its word joins those that wait on the port, unless a freeze is set, one
arrived in the window, or ka = 0: then it holds. On a free port the oldest word of the lowest slot leaves for 128 ek, and the chain
multiplies by its gain from the sample that crosses the converter glat ek after that. That detection acts before the update is the model's
choice (log entry 49). -/
def Obligations.GainFollowsTheWindowPower : Prop :=
  ∀ (s : State) (c : Fin 64) (t : BitVec 33) (step : Fin 256) (x : List (BitVec 32)) (gp : Fin 16) (i : Nat) (w : Fin 4 × Fin 64 × BitVec 6),
    Runs 86 2 s → Regs.wf s = true →
    let y := s.rxc c
    let att := s.get (DFE_RXc_GAIN.att c)
    let g : Fin 16 := Fin.ofNat 16 (s.get (DFE_RXc_AGC.gp c))
    (∀ k sum, s.streamLink (s.get (DFE_RXc_CFG.conv c)) = some k → s.jes.zeros[k] = [] →
      sum = (x.map fun w => (CInt.ofWord (jesdCarry (s.flag (JES_RXk_CFG.np12 k)) w)).power).sum → sum ≠ 0 →
      s.absent 4 c = false → s.flag (DFE_RXc_CFG.en c) = true → x.length = 2 ^ Nat.max 8 (s.get (DFE_RXc_AGC.aw c)) →
      y.zeroFrom = none → y.zeroTo = none → y.released = none →
      Completes (.agcWindow c t step x) s (fun u =>
        let p := u.get (DFE_RXc_GAIN.pwr c)
        let n := s.get (DFE_RXc_AGC.det_n c)
        let run := if n = 0 then 0 else if p ≤ s.get (DFE_RXc_AGC.det_thr c) then y.det + 1 else 0
        let frozen := s.flag (DFE_RXc_GAIN.fz_tt c) || s.flag (DFE_RXc_GAIN.fz_det c) || (decide (n ≠ 0) && decide (n ≤ run)) || y.stopped || decide (s.get (DFE_RXc_AGC.ka c) = 0)
        let att' := if frozen = true then att else
          (sat (att + rne ((((s.get (DFE_RXc_AGC.target c) : Int) - p) * s.get (DFE_RXc_AGC.ka c) : Int) / 32 : Rat)) (s.get (DFE_RXc_AGC.amin c)) (s.get (DFE_RXc_AGC.amax c))).toNat
        p ≤ 255 ∧ (∀ k, k < 255 → (k < p ↔ ((sum : Rat) / (x.length * 2 ^ 30 : Nat)) ^ 80 * (10 ^ (2 * k + 1) : Nat) < 1)) ∧
        (u.rxc c).det = run ∧ (u.get (DFE_RXc_GAIN.fz_det c) = 1 ↔ s.get (DFE_RXc_GAIN.fz_det c) = 1 ∨ (n ≠ 0 ∧ n ≤ run)) ∧
        u.get (DFE_RXc_GAIN.att c) = att' ∧ (u.rxc c).stopped = false ∧
        u.fe.port = (if att' = att then s.fe.port else
          s.fe.port.set g.val { s.fe.port[g.val] with waiting := s.fe.port[g.val].waiting ++ [(Fin.ofNat 4 (s.get (DFE_RXc_AGC.gslot c)), c, BitVec.ofNat 6 att')] }) ∧
        (∀ j : Fin 64, j ≠ c → u.rxc j = s.rxc j) ∧ (y.comps = [] → (u.rxc c).comp = y.comp) ∧ (u.rxc c).sent = y.sent ∧
        u = { s with fe := { s.fe with rx := u.fe.rx, port := u.fe.port }, regs := u.regs, now := u.now } ∧
        WordsKept s u (DFE_RXc_GAIN.reg c :: fieldWords (DFE_RXc_NF.sum c) ++ fieldWords (DFE_RXc_NF.n c)))) ∧
    (Crossing.gain gp ∉ s.pwr.oneSided → (∀ m, s.fe.port[gp.val].busy = some m → 0 ≤ (s.mono - m).toInt) → s.fe.port[gp.val].waiting[i]? = some w →
      (∀ j v, s.fe.port[gp.val].waiting[j]? = some v → w.1 < v.1 ∨ (w.1 = v.1 ∧ i ≤ j)) →
      Completes (.gainPortWord gp) s (fun u =>
        u.fe.port[gp.val] = { waiting := s.fe.port[gp.val].waiting.eraseIdx i, busy := some (s.mono + 256) } ∧
        (let n := 256 + 2 * s.get (DFE_RXc_AGC.glat w.2.1);
          (u.rxc w.2.1).sent = (s.rxc w.2.1).sent ++ [(s.mono + 256 + BitVec.ofNat 64 (2 * s.get (DFE_RXc_AGC.glat w.2.1)),
            (s.atNow (s.get (DFE_RXc_CFG.at w.2.1)) + (n * 1536 + 6874) / 6875) % 5033164800, w.2.2)]) ∧
        (∀ j : Fin 64, j ≠ w.2.1 → u.rxc j = s.rxc j) ∧ (∀ j : Fin 16, j ≠ gp → u.fe.port[j.val] = s.fe.port[j.val]) ∧
        u = { s with fe := { s.fe with rx := u.fe.rx, port := u.fe.port } })) ∧
    (∀ m a code later, y.sent = (m, a, code) :: later → monoLe m s.mono = true → Completes (.gainCompensation c) s (fun u =>
      u.rxc c = (if s.flag (DFE_RXc_CFG.en c) = true then { y with comps := (a, code) :: y.comps, sent := later }
        else { y with comp := code, comps := [], sent := later }) ∧ (∀ j : Fin 64, j ≠ c → u.rxc j = s.rxc j) ∧ u = { s with fe := { s.fe with rx := u.fe.rx } }))

/-- FFT, IFFT, DPD switch and capture jobs: output and end (R166, R178, R179, R181, R182, R183).
With nothing queued behind the job. An FFT whose branch holds its last sample writes element i of its output at byte 4 i of the region of
its position in the open batch of its T, which it does not complete, and the position is delivered. An IFFT gives its chain's branch the
symbol, cp + N samples whose first cp repeat the last. A DPD switch is recorded with its instant. A capture that is due writes its n
observation samples and then the n samples of its transmit chain. Each job ends and every other byte of memory stays. DPD whose one
coefficient c[0][0] is 1 gives the sample. The layout of DFE job descriptors is a free value (log entry 19). -/
def Obligations.FrontEndJobsWriteTheirOutput : Prop :=
  ∀ (s : State) (f : Fin 16) (j : EngJob) (re im : List (BitVec 16)) (b : FhBatch) (k : Nat), Regs.wf s = true → Memory.wf s = true → NoErrors s →
    let d := j.desc
    let q := fQueue d
    let x := s.rxc (fChain d)
    let br := if fBr d = true then x.b1 else x.b0
    let base := b.slot + 64 + fPos d * b.region
    let sample (i : Nat) : CInt := ((br.sample k (fCp d + i)).getD ⟨0, 0⟩)
    let out := fftOut d ((List.range (fN d)).map sample)
    let inp := (List.range (12 * fNprb d)).map fun i => CInt.ofWord (BitVec.ofNat 32 (natOfBytes ((List.range 4).map fun l => s.sysByte (fSrc d + 4 * i + l))))
    let job := Config.dfeJob (d.setWidth 256)
    let dst := clAddr job.dst.toNat
    let ended (c v : Nat) (u : State) : Prop := u.unit c v = { s.unit c v with job := none } ∧ ∀ i : Fin 37, i ≠ unitIx c v → u.hard[i.val] = s.hard[i.val]
    (UnitRuns 86 2 6 f s → (s.unit 0 f).job = some j → LastJob 0 f s →
      (fDir d = false → fSize d ≤ 5 → br.newest (fT d) = some k → fCp d + fN d - 1 ≤ k → s.bqOn q = true → s.flag (FH_QUEq_CFG.en q) = true →
        (s.flag (FH_QUEq_CFG.ev q) = true → s.tileOn (s.get (FH_QUEq_CFG.tile q)) = true) →
        (s.bq q).batches.find? (fun y => decide (y.t = fT d) && !y.closed) = some b → fPos d ≤ b.nstr → 48 * fNprb d ≤ b.region →
        0x1000000000 ≤ b.slot → b.slot + 64 + (b.nstr + 1) * b.region ≤ 0x1008000000 →
        b.mask ||| 2 ^ fPos d ≠ 2 ^ (b.nstr + 1) - 1 →
        Completes (.fft f) s (fun u =>
          (∀ i, i < 12 * fNprb d → ∀ l, l < 4 → (out.flatMap fun z => z.1.bytes)[4 * i + l]? = some (u.byte (base + 4 * i + l))) ∧
          (∀ z, z < base ∨ base + 48 * fNprb d ≤ z → u.byte z = s.byte z) ∧
          (∃ c, (u.bq q).batches.find? (fun y => decide (y.t = fT d) && !y.closed) = some c ∧ c.mask = b.mask ||| 2 ^ fPos d ∧ c = { b with mask := c.mask, counts := c.counts }) ∧
          (u.get DFE_CAUSE.sat = 1 ↔ s.get DFE_CAUSE.sat = 1 ∨ ∃ z ∈ out, z.2 ≠ 0) ∧
          (u.get DFE_CAUSE.late = 1 ↔ s.get DFE_CAUSE.late = 1 ∨ ∃ i, i < fN d ∧ br.sample k (fCp d + i) = none) ∧ ended 0 f u ∧
          u = { s with regs := u.regs, now := u.now, mem := u.mem, flaws := u.flaws, hard := u.hard, opt := { s.opt with que := u.opt.que } } ∧
          WordsKept s u [DFE_CAUSE.reg, FH_QUEq_STAT.reg q])) ∧
      (fDir d = true → s.rangeOn (fSrc d) (Nat.max 1 (48 * fNprb d)) = true → s.domOn 87 = true → Completes (.ifft f) s (fun u =>
        let c := fChain d
        ∃ sym : Nat × List (BitVec 32), sym.1 = fT d ∧ sym.2.length = fCp d + fN d ∧ (∀ n, n < fN d → sym.2[fCp d + n]? = ((ifftOut d inp).map fun z => z.1.word)[n]?) ∧
        (fCp d ≤ fN d → ∀ n, n < fCp d → sym.2[n]? = sym.2[fN d + n]?) ∧
        u.fe.tx[c.val] = (if fBr d = true then { s.fe.tx[c.val] with syms1 := (sym :: s.fe.tx[c.val].syms1).take 280 } else
          { s.fe.tx[c.val] with syms0 := (sym :: s.fe.tx[c.val].syms0).take 280 }) ∧
        (∀ i : Fin 64, i ≠ c → u.fe.tx[i.val] = s.fe.tx[i.val]) ∧ ended 0 f u ∧
        u = { s with regs := u.regs, now := u.now, hard := u.hard, fe := { s.fe with tx := u.fe.tx } } ∧ WordsKept s u [DFE_CAUSE.reg]))) ∧
    (∀ (c : Fin 64) (z : Nat → CInt), (z 0).re.natAbs ≤ 32767 → (z 0).im.natAbs ≤ 32767 →
      (∀ i m, i < 8 → m < 8 → s.dpdCoef c (s.get (DFE_TXc_CFG.bank c)) i m = if i = 0 ∧ m = 0 then ⟨8192, 0⟩ else ⟨0, 0⟩) → s.dpd c z = z 0) ∧
    (Runs 86 2 s → s.domOn 87 = true → (s.unit 1 0).job = some j → LastJob 1 0 s →
      (job.capture = false → Completes .dpdSwitch s (fun u =>
        u.fe.tx[job.chain.val] = { s.fe.tx[job.chain.val] with swAt := s.fe.tx[job.chain.val].swAt ++ [job.t % 5033164800] } ∧
        (∀ i : Fin 64, i ≠ job.chain → u.fe.tx[i.val] = s.fe.tx[i.val]) ∧ ended 1 0 u ∧
        u = { s with hard := u.hard, fe := { s.fe with tx := u.fe.tx } })) ∧
      (job.capture = true → re.length = job.n → im.length = job.n → s.captureDue j job = true → s.rangeOn dst (Nat.max 1 (8 * job.n)) = true →
        dst + 8 * job.n ≤ 0x1008000000 → Completes (.capture re im) s (fun u =>
          (∀ i x, re[i]? = some x → BitVec.ofNat 16 (u.le (dst + 4 * i) 2) = x) ∧ (∀ i x, im[i]? = some x → BitVec.ofNat 16 (u.le (dst + 4 * i + 2) 2) = x) ∧
          (∀ i, i < job.n → BitVec.ofNat 32 (u.le (dst + 4 * job.n + 4 * i) 4) = s.txSample job.chain (s.captureFrom j job) i) ∧
          (∀ z, z < dst ∨ dst + 8 * job.n ≤ z → u.byte z = s.byte z) ∧ ended 1 0 u ∧
          u = { s with mem := u.mem, flaws := u.flaws, hard := u.hard, now := u.now })))

/-- Ring poll, completion record, flag, join and next of an engine job (R187, R188, R189, R190, R191, R74, R299).
At its poll instant an idle polling unit with nothing queued takes the sound descriptor at cons: it runs that job, whose bound is computed
now, and cons + 1 is in the header; a unit that is running a job queues it; a ring holding more than 2^L sets its bad bit and takes
nothing. A finished job with nothing behind it writes its record and prod, sets its flag on its tile, decrements its join word if it has
one (wrapping below 0), and the unit is idle; a job without join pushes its next pointer into the queue of a running unit. Nothing else
changes. -/
def Obligations.EngineJobsAreAcceptedAndEnd : Prop :=
  ∀ (s : State) (k : HardClass) (u : Fin 8) (l : HardClass) (v : Fin 8), EngineRuns k u s → Regs.wf s = true → Memory.wf s = true → NoErrors s →
    let c := clsNum k
    let log := if 4 ≤ s.get (engRingLog c u) ∧ s.get (engRingLog c u) ≤ 12 then s.get (engRingLog c u) else 4
    let ring (o : Nat) : Nat := clusterBase (s.get (engRingCl c u)) + (64 * s.get (engRingOff c u) + o) % 2 ^ 24
    let prod := BitVec.ofNat 32 (s.le (ring 0) 4)
    let cons := BitVec.ofNat 32 (s.le (ring 4) 4)
    let at_ := ring (64 + 128 * (cons.toNat % 2 ^ log))
    let d := BitVec.ofNat 1024 (s.le at_ 128)
    (s.mono.toNat % 256 = 8 * portUnit k u → s.flag (engEn c u) = true → s.flag (engPoll c u) = true → s.flag (engRingEn c u) = true →
      s.unit c u = ⟨[], none, false⟩ → s.addrOn (ring 0) = true →
      (2 ^ log < (prod - cons).toNat → Completes (.engineRingPoll k u) s (fun t => (t.get (engBad c)).testBit u = true ∧ RegsOnly (fieldWords (engBad c)) s t)) ∧
      (prod ≠ cons → (prod - cons).toNat ≤ 2 ^ log → s.addrOn at_ = true → State.descBad (s.setLe (ring 4) 4 (cons + 1).toNat) c d = false →
        (at_ + 128 ≤ ring 4 ∨ ring 4 + 4 ≤ at_) → (c = 3 → lAssist d = true → s.addrOn (lAtab d) = true) →
        Completes (.engineRingPoll k u) s (fun t =>
          (∃ j, t.unit c u = ⟨[], some j, false⟩ ∧ j.desc = d ∧ j.at_ = s.mono ∧ j.moved = false ∧ j.late = s.lateNow d ∧
            j.bound = State.engBound (s.setLe (ring 4) 4 (cons + 1).toNat) c d) ∧ EngineShows k u 0 1 t ∧
          t.le (ring 4) 4 = (cons + 1).toNat ∧ (∀ a, a < ring 4 ∨ ring 4 + 4 ≤ a → t.byte a = s.byte a) ∧
          (∀ i : Fin 37, i ≠ unitIx c u → t.hard[i.val] = s.hard[i.val]) ∧
          t = { s with hard := t.hard, regs := t.regs, now := t.now, mem := t.mem, flaws := t.flaws } ∧ WordsKept s t [engBase c u + 0x10]))) ∧
    (∀ j, s.mono.toNat % 256 = 8 * portUnit k u → s.flag (engEn c u) = true → s.flag (engPoll c u) = true → s.flag (engRingEn c u) = true →
      s.unit c u = ⟨[], some j, false⟩ → s.addrOn (ring 0) = true → prod ≠ cons → (prod - cons).toNat ≤ 2 ^ log →
      Completes (.engineRingPoll k u) s (fun t =>
        t.unit c u = ⟨[⟨s.get (engRingCl c u), (64 * s.get (engRingOff c u) + 64 + 128 * (cons.toNat % 2 ^ log)) % 2 ^ 24, none⟩], some j, false⟩ ∧
        EngineShows k u 1 1 t ∧ t.le (ring 4) 4 = (cons + 1).toNat ∧ (∀ a, a < ring 4 ∨ ring 4 + 4 ≤ a → t.byte a = s.byte a))) ∧
    (∀ j, s.unit c u = ⟨[], some j, false⟩ → j.moved = true → s.recordOff j.desc = false → RingFits j.desc → (eEv j.desc = true → s.tileOn (eTile j.desc) = true) →
      let status := statusByte true j.pfail j.crcOk j.capped j.late false false
      let idle (t : State) : Prop := t.unit c u = ⟨[], none, false⟩ ∧ t.get (engNq c u) = 0 ∧ t.get (engState c u) = (if s.flag (engEn c u) = true then 0 else 3) ∧
        (∀ i, i ≠ eTile j.desc → t.tile i = s.tile i) ∧ t.tile (eTile j.desc) = { s.tile (eTile j.desc) with
          evf := (s.tile (eTile j.desc)).evf ||| if eEv j.desc = true then (1 : BitVec 32) <<< eFlag j.desc else 0 } ∧
        t = { s with hard := t.hard, regs := t.regs, now := t.now, mem := t.mem, flaws := t.flaws, tiles := t.tiles }
      let mine : List Nat := [engBase c u + 0x10, TIL_CAUSE.reg (eTile j.desc)]
      let alone (t : State) : Prop := ∀ i : Fin 37, i ≠ unitIx c u → t.hard[i.val] = s.hard[i.val]
      (eJen j.desc = false → (eNext j.desc).next = 0 → j.iter < 256 → Completes (.engineJobEnd k u) s (fun t =>
        Recorded j.desc status j.iter [] s t ∧ idle t ∧ alone t ∧ WordsKept s t mine)) ∧
      (eJen j.desc = true → (eNext j.desc).next = 0 → j.iter < 256 → s.addrOn (eJoin j.desc) = true →
        (eJoin j.desc + 4 ≤ eRing j.desc 0 ∨ eRing j.desc 0 + 64 + 16 * 2 ^ eClog j.desc ≤ eJoin j.desc) → Completes (.engineJobEnd k u) s (fun t =>
        Recorded j.desc status j.iter [(eJoin j.desc, 4)] s t ∧ t.le (eJoin j.desc) 4 = (s.le (eJoin j.desc) 4 + 2 ^ 32 - 1) % 2 ^ 32 ∧ idle t ∧ alone t ∧
        WordsKept s t mine)) ∧
      (eJen j.desc = false → (eNext j.desc).next ≠ 0 → j.iter < 256 → (eNext j.desc).cls = clsNum l → (eNext j.desc).unit = v.val → EngineRuns l v s →
        (l ≠ k ∨ v ≠ u) → s.flag (engEn (clsNum l) v) = true → ((s.unit (clsNum l) v).job).isSome = true → (s.unit (clsNum l) v).draining = false →
        (s.unit (clsNum l) v).ptrs.length < 8 → Completes (.engineJobEnd k u) s (fun t =>
        Recorded j.desc status j.iter [] s t ∧ idle t ∧
        t.unit (clsNum l) v = { s.unit (clsNum l) v with ptrs := (s.unit (clsNum l) v).ptrs ++ [⟨(eNext j.desc).cl, (eNext j.desc).next, none⟩] } ∧
        t.get (engNq (clsNum l) v) = (s.unit (clsNum l) v).ptrs.length + 1 ∧
        (∀ i : Fin 37, i ≠ unitIx c u → i ≠ unitIx (clsNum l) v → t.hard[i.val] = s.hard[i.val]) ∧ WordsKept s t ((engBase (clsNum l) v + 0x10) :: mine))))

/-- Drain, cut and enable of a receiver engine, and its job timer (R193, R297, R299).
A drain of an idle unit clears en; of a running one it lets the job go on and the unit shows draining. With det = 1 a cut of a running
unit does the same; with det = 0 it ends a job whose outputs are written with a record of cut and not done and with its flag (log entry
44), and clears en. An enable sets en and poll, and an idle unit with nothing queued stays idle. A job that has run for more than twice
the bound of its acceptance plus 2,200 ek is logged with class 4 and its unit has failed. -/
def Obligations.EnginesStopStartAndFail : Prop :=
  ∀ (s : State) (k : HardClass) (u : Fin 8) (poll : Bool), EngineRuns k u s → Regs.wf s = true → Memory.wf s = true →
    let c := clsNum k
    let x := s.unit c u
    x.ptrs.length ≤ 8 →
    (x.job = none → Completes (.engineDrain k u) s (fun t => t.get (engEn c u) = 0 ∧ t.unit c u = x ∧ EngineShows k u x.ptrs.length 3 t ∧ EngineOnly k u s t) ∧
      (s.det = false → Completes (.engineCut k u) s (fun t => t.get (engEn c u) = 0 ∧ t.unit c u = x ∧ EngineShows k u x.ptrs.length 3 t ∧ EngineOnly k u s t)) ∧
      (x.ptrs = [] → x.draining = false → Completes (.engineEnable k u poll) s (fun t => t.get (engEn c u) = 1 ∧ t.get (engPoll c u) = poll.toNat ∧
        t.unit c u = x ∧ EngineShows k u 0 0 t ∧ EngineOnly k u s t))) ∧
    (∀ j, x.job = some j →
      Completes (.engineDrain k u) s (fun t => t.unit c u = { x with draining := true } ∧ t.get (engEn c u) = s.get (engEn c u) ∧
        EngineShows k u x.ptrs.length 2 t ∧ EngineOnly k u s t) ∧
      (s.det = true → Completes (.engineCut k u) s (fun t => t.unit c u = { x with draining := true } ∧ EngineShows k u x.ptrs.length 2 t ∧ EngineOnly k u s t)) ∧
      (s.det = false → j.moved = true → s.recordOff j.desc = false → RingFits j.desc → (eEv j.desc = true → s.tileOn (eTile j.desc) = true) → Completes (.engineCut k u) s (fun t =>
        Recorded j.desc (statusByte false false false false j.late true false) 0 [] s t ∧ t.unit c u = { x with job := none, draining := false } ∧
        t.get (engEn c u) = 0 ∧ EngineShows k u x.ptrs.length 3 t ∧ (∀ i : Fin 37, i ≠ unitIx c u → t.hard[i.val] = s.hard[i.val]) ∧
        (∀ i, i ≠ eTile j.desc → t.tile i = s.tile i) ∧ t.tile (eTile j.desc) = { s.tile (eTile j.desc) with
          evf := (s.tile (eTile j.desc)).evf ||| if eEv j.desc = true then (1 : BitVec 32) <<< eFlag j.desc else 0 } ∧
        t = { s with hard := t.hard, regs := t.regs, now := t.now, mem := t.mem, flaws := t.flaws, tiles := t.tiles } ∧
        WordsKept s t [engBase c u, engBase c u + 0x10, TIL_CAUSE.reg (eTile j.desc)])) ∧
      (2 * j.bound + 2200 < s.since j.at_ / 2 → Completes (.jobTimer k u) s (fun t => Logged 4 (clsKind k) u 0 s t ∧
        t.rep = { s.rep with failed := s.rep.failed ++ [(clsKind k, u.val)] } ∧ t = { s with rep := t.rep, regs := t.regs, now := t.now } ∧ WordsKept s t (logWords s))))

/-- The outputs of the LDPC and polar operations (R203, R204, R205, R206, R207, R209, R210, R212, R213).
An accepted job of the operation, whose outputs are not yet written and lie in one cluster, completes: the encoders and codecs write their
output bits packed, bit k at byte k/8, bit 7 − (k mod 8), and no other byte. A decode starts from the channel values of R203, runs its
iterations to the cap, or to the first converged one with det = 0, writes the hard decisions, then with harq the combined values, and
notes pfail, capped, late, crc_ok and the iterations; with det = 1 it runs exactly the cap. A small-block encode sends a bit of K = 1 as
it is, and a, b, a xor b in turn for K = 2. A parity error of one decoder memory sets the decoder's cause bit, names memory, decoder and
tag, and is logged; the values it damages are free. The bits that fill the last byte are free (log entry 11). -/
def Obligations.ChannelCodesAreWrittenPacked : Prop :=
  ∀ (s : State) (u : Fin 8) (j : EngJob), Regs.wf s = true → Memory.wf s = true → NoErrors s →
    let d := j.desc
    let job (k : HardClass) (op : Nat) : Prop := EngineRuns k u s ∧ (s.unit (clsNum k) u).job = some j ∧ j.moved = false ∧ eOp d = op
    let packed (a : Nat) (bs : List Bool) (t : State) : Prop :=
      (∀ n b, bs[n]? = some b → (t.byte (a + n / 8)).getLsbD (7 - n % 8) = b) ∧ ∀ z, z < a ∨ a + ceilDiv bs.length 8 ≤ z → t.byte z = s.byte z
    let fits (a n : Nat) : Prop := s.addrOn a = true ∧ a + ceilDiv n 8 ≤ 0x1008000000
    let only (k : HardClass) (j' : EngJob) (t : State) : Prop :=
      t.unit (clsNum k) u = { s.unit (clsNum k) u with job := some { j' with moved := true } } ∧
      (∀ i : Fin 37, i ≠ unitIx (clsNum k) u → t.hard[i.val] = s.hard[i.val]) ∧
      t = { s with hard := t.hard, mem := t.mem, flaws := t.flaws, now := t.now }
    (job .enc 0 → s.addrOn (lIn d) = true → fits (lOut d) (s.ldpcEncode d).length → (lHarq d = 0 ∨ s.addrOn (lHbuf d) = true) →
      Completes (.encode (Fin.ofNat 4 u)) s (fun t => packed (lOut d) (s.ldpcEncode d) t ∧ (s.ldpcEncode d).length = lE d ∧ only .enc j t)) ∧
    (job .dec 0 → s.addrOn (lIn d) = true → fits (lOut d) (lKp d) → (lHarq d = 0 ∨ s.addrOn (lHbuf d) = true ∧ lHbuf d + lNcb d ≤ 0x1008000000 ∧
        (lHbuf d + lNcb d ≤ lOut d ∨ lOut d + ceilDiv (lKp d) 8 ≤ lHbuf d)) →
      let v := s.lCombine d
      let r := s.lIterate d j.table (s.lCap d) 0 ⟨lChannel d v, Array.replicate (32 * lNl d * lZc d) 0⟩
      let bits := (List.range (lKp d)).map fun i => decide (r.1.l.getD i 0 < 0)
      Completes (.decode ⟨Fin.ofNat 6 u, 0⟩) s (fun t =>
        (∀ n b, bits[n]? = some b → (t.byte (lOut d + n / 8)).getLsbD (7 - n % 8) = b) ∧
        (lHarq d ≠ 0 → ∀ i, i < lNcb d → t.byte (lHbuf d + i) = BitVec.ofInt 8 (v.getD i 0)) ∧
        (∀ z, (z < lOut d ∨ lOut d + ceilDiv (lKp d) 8 ≤ z) → (lHarq d ≠ 0 → z < lHbuf d ∨ lHbuf d + lNcb d ≤ z) → t.byte z = s.byte z) ∧
        (∃ ok,
          only .dec { j with pfail := (!lClean d r.1), crcOk := ok, iter := r.2, capped := (!lClean d r.1 && decide (s.lCap d < lMaxit d)), late := (eDlEn d && decide (s.lLeft d ≤ 0)) } t ∧ (lCrc d = 0 → ok = false)) ∧
        r.2 ≤ s.lCap d ∧ (s.det = true → r.2 = s.lCap d) ∧ (r.2 < s.lCap d → lClean d r.1 = true) ∧ s.lCap d ≤ lMaxit d)) ∧
    (∀ m : Fin 4, job .dec 0 → s.allOn (ldpcAddrs d) = true → s.get (PWR_REP_THRk.ms 6) = 0 → Completes (.decode ⟨Fin.ofNat 6 u, (1 : BitVec 4) <<< m.val⟩) s (fun t =>
      (t.get LDPC_CAUSE.perr).testBit u = true ∧ t.get LDPC_PERRA.mem = m.val ∧ t.get LDPC_PERRA.dec = u.val ∧ t.get LDPC_PERRA.tag = eTag d ∧
      Logged 2 8 u 0 s t ∧ (∀ i : Fin 37, i ≠ unitIx 3 u → t.hard[i.val] = s.hard[i.val]))) ∧
    (job .pol 0 → s.addrOn (pIn d) = true → fits (pOut d) (s.polarDecode d).1.length → Completes (.polarDecode (Fin.ofNat 2 u)) s (fun t =>
      packed (pOut d) (s.polarDecode d).1 t ∧ only .pol { j with crcOk := (s.polarDecode d).2 } t ∧ (pCrc d = 0 → (s.polarDecode d).2 = false))) ∧
    (job .pol 1 → s.addrOn (pIn d) = true → fits (pOut d) (s.polarEncode d).length → Completes (.polarEncode (Fin.ofNat 2 u)) s (fun t =>
      packed (pOut d) (s.polarEncode d) t ∧ (pBil d = false → (s.polarEncode d).length = pE d) ∧ only .pol j t)) ∧
    (job .pol 2 → s.addrOn (pIn d) = true → fits (pOut d) (pK d) → Completes (.smallBlockDecode (Fin.ofNat 2 u)) s (fun t =>
      packed (pOut d) (s.smallDecode d) t ∧ (s.smallDecode d).length = pK d ∧ only .pol j t)) ∧
    (job .pol 3 → s.addrOn (pIn d) = true → fits (pOut d) (pE d) → Completes (.smallBlockEncode (Fin.ofNat 2 u)) s (fun t =>
      packed (pOut d) (smallEncode (s.bitsAt (pIn d) (pK d)) (pE d)) t ∧ only .pol j t)) ∧
    (∀ (a b : Bool) (e n : Nat), n < e → (smallEncode [a] e)[n]? = some a ∧
      (smallEncode [a, b] e)[n]? = some (if n % 3 = 0 then a else if n % 3 = 1 then b else a != b))

/-- The frame of an EQ job, LLR bytes, and a feedback pass with nothing to do (R189, R197, R198, R199, R200).
An accepted estimate-and-detect job, or feedback pass, whose memory is on completes, and changes no byte of memory but its UEs' LLR
ranges, the filter states (op 0 alone) and the work area. A pass list without a failed block changes no memory, and touches nothing but
the list. The values μ lie from 2^-16 to 1 − 2^-16. An LLR byte lies in −127 to 127, is 0 for NaN, and its sign flips with the scrambling
bit. The values of steps to which the spec gives no rounding are free (log entry 15). -/
def Obligations.DetectionWritesItsOutputsOnly : Prop :=
  (∀ (s : State) (u : Fin 8) (j : EngJob), EngineRuns .eq u s → Memory.wf s = true → NoErrors s → (s.unit 2 u).job = some j → j.moved = false →
    let d := j.desc
    let work := eqWork d (s.layers d) 0 0
    let outside (z : Nat) : Prop := (∀ e ∈ s.ues d, z < ueLlr e ∨ ueLlr e + ueBits d e ≤ z) ∧
      (z < work ∨ work + 8 * (qNr d * s.layers d + qNr d * qNr d) * (qNg d * (qOccs d).length) ≤ z)
    let only (t : State) : Prop := t.unit 2 u = { s.unit 2 u with job := some { j with moved := true } } ∧
      (∀ i : Fin 37, i ≠ unitIx 2 u → t.hard[i.val] = s.hard[i.val]) ∧ t = { s with hard := t.hard, mem := t.mem, flaws := t.flaws, now := t.now }
    s.allOn (s.eqAddrs d) = true →
    (eOp d = 0 → Completes (.estimateAndDetect u) s (fun t => only t ∧ ∀ z, outside z →
      (z < clAddr (ef d 64 0 32) ∨ clAddr (ef d 64 0 32) + qStateStride d * qNg d ≤ z) → t.byte z = s.byte z)) ∧
    (eOp d = 1 → Completes (.feedbackPass u) s (fun t => only t ∧ (∀ z, outside z → t.byte z = s.byte z) ∧
      ((∀ p ∈ s.passList d, p.passed = true) → t.mem = s.mem)))) ∧
  (∀ (d : BitVec 1024) (x : EqEst) (cs : List Nat), ∀ v ∈ (eqWeights d x cs).2, ∃ q : Rat, v = .fin q ∧ 1 / 65536 ≤ q ∧ q ≤ 65535 / 65536) ∧
  (∀ (l : Int) (v : FV) (flip : Bool), -127 ≤ (llrByte l v flip).toInt ∧ (llrByte l v flip).toInt ≤ 127 ∧ (v.isNan = true → llrByte l v flip = 0) ∧
    (llrByte l v true).toInt = -(llrByte l v false).toInt)

/-- A periodic check: the progress word, the slack, and the fire of a watch (R228, R229, R230, R231, R232).
With det = 0, 24 ck after t_w a watch that the check of t_w found ARMED, RUN or OUT, and whose check is not yet decided, is decided, when
no other event of its context has come about: B = floor(max(D − a, 0) × 6,875 / 1,536); its slack is B − (E − t_d) − margin. It stays as
it is when the slack is not negative, or in RUN when the final milestone was seen. A RUN or OUT watch with onfire = 1 fires else:
candidate 0 if 8 + T_fb[0] ≤ B, else candidate 1 if present, and fb_late when none fits; the action is pushed 8 ck later and the watch is
a SHADOW. In RUN at t_w a milestone above the last one, read in its slot, sets m and E. -/
def Obligations.WatchesDecideByTheirBudget : Prop :=
  ∀ (s : State) (w : Fin 128), Runs 82 1 s → Regs.wf s = true → s.det = false → s.cx.switches = [] → NoErrors s → NoEvent (s.watch w).ctx s →
    let x := s.watch w
    let st := s.wstate w
    let tw := s.checkCk w
    let m := s.get (CTX_DMON_STATw.m w)
    let b := (airDiff x.deadline (s.atNow x.tl)).toNat * 6875 / 1536
    let et : Int := if st = 1 then ((x.tst + x.r 0 : Nat) : Int) else if st = 2 then (x.e - s.mono).toInt else ((x.tsw + x.r m : Nat) : Int)
    let slack : Int := (b : Int) - et - s.get CTX_DMON_CFG.margin
    let final : Prop := st = 2 ∧ 1 ≤ x.nms ∧ x.nms ≤ m
    let words : List Nat := [CTX_DMON_STATw.reg w, CTX_DMON_STATw.reg w + 4]
    let only (u : State) : Prop := (∀ i : Fin 128, i ≠ w → u.watch i = s.watch i) ∧ u.cx = { s.cx with watch := u.cx.watch, pushes := u.cx.pushes }
    ((st = 1 ∨ st = 2 ∨ st = 3) → s.since tw = 24 → x.check.map Prod.fst = some tw → x.decided ≠ some tw →
      ((0 ≤ slack ∨ final) → (st = 1 → s.shedLevel < 2) → Completes (.watchPeriodicCheck w) s (fun u => u.watch w = { x with decided := some tw } ∧
        u.wstate w = st ∧ u.getS (CTX_DMON_STATw.slack w) = sat slack (-2147483648) 2147483647 ∧ u = { s with cx := u.cx, regs := u.regs, now := u.now } ∧
        only u ∧ WordsKept s u words ∧ u.cx.pushes = s.cx.pushes)) ∧
      (slack < 0 → ¬final → x.onfire = true → st ≠ 1 →
        let fits0 : Prop := 8 + x.tfb0 ≤ b
        let fits1 : Prop := x.two = true ∧ 8 + x.tfb1 ≤ b
        let pick : Nat := if fits0 ∨ x.two = false then 0 else 1
        let act := if pick = 0 then x.cand0 else x.cand1
        Completes (.watchPeriodicCheck w) s (fun u => u.wstate w = 4 ∧ u.get (CTX_DMON_STATw.cand w) = pick ∧ u.get (CTX_DMON_STATw.fired w) = 1 ∧
          u.get CTX_DMON_CAUSE.fired = 1 ∧ (¬fits0 → ¬fits1 → u.get CTX_DMON_CAUSE.fb_late = 1 ∧ u.get CTX_DMON_LAST.watch = w.val) ∧
          (fits0 ∨ fits1 → u.get CTX_DMON_CAUSE.fb_late = s.get CTX_DMON_CAUSE.fb_late) ∧ (u.watch w).outcome = 2 + pick ∧
          u.cx.pushes = s.cx.pushes ++ (if (nextPtr act.toNat).next = 0 then [] else [⟨s.mono + 8, w, act⟩]) ∧
          u = { s with cx := u.cx, regs := u.regs, now := u.now } ∧ only u ∧ WordsKept s u (CTX_DMON_CAUSE.reg :: CTX_DMON_LAST.reg :: words)))) ∧
    (∀ v, v = Nat.min (s.le x.prog 1) x.nms → st = 2 → s.checkRuns w tw = true → s.since tw = portWait x.prog tw.toNat → x.seen ≠ some tw → s.addrOn x.prog = true → m < v → v < 64 →
      Completes (.watchPeriodicCheck w) s (fun u => u.get (CTX_DMON_STATw.m w) = v ∧ u.wstate w = 2 ∧
        u.watch w = { x with seen := some tw, e := tw + 16 + BitVec.ofNat 64 (x.r v) } ∧ u = { s with cx := u.cx, regs := u.regs, now := u.now } ∧
        only u ∧ WordsKept s u words ∧ u.cx.pushes = s.cx.pushes))

/-- Job descriptors: queued jobs, wakes, pointers, queue starts, skips and ring delivery (R44, R45, R133, R243, R244, R248).
A sound tile job without a watch joins its context's queue, at most 4, with its fields, and makes an IDLE or waiting context READY; one
too many is dropped with ovf. A wake sends its flag to the job in progress: to the pending word, or to the tiles 24 ck later in RUN and
STOP. A kind 1 descriptor pushes its pointer; a kind 2 descriptor starts its queue. A bad descriptor is counted as dropped and named in
CTX_LAST. A scan that is due delivers the descriptor at its place in the ring, and after the last leaves cons to be written in the next
ck. Client counts follow. -/
def Obligations.DescriptorsReachTheirUnits : Prop :=
  ∀ (s : State) (d : BitVec 512) (k : HardClass) (u : Fin 8) (e : Fin 8), Runs 82 1 s → Regs.wf s = true → Memory.wf s = true → NoErrors s →
    let n := jCtx d
    let c := jClient d
    let cli := clientWords c
    let row : Instr := if jKind d = 3 ∨ (jKind d = 0 ∧ jWake d = false) then .tileJob d else if jKind d = 0 then .wake d
      else if jKind d = 1 then .hardEnginePointer d else .dmaQueueStart d
    (s.jobBad d = true → Completes row s (fun t => t.get CTX_CAUSE.bad = 1 ∧ t.get CTX_LAST.ctx = n.val ∧ t.get CTX_LAST.tag = jTag d ∧
      Counted (CTX_CLIc.dropped c) s t ∧ RegsOnly (CTX_CAUSE.reg :: CTX_LAST.reg :: (CTX_LAST.reg + 4) :: cli) s t)) ∧
    (s.jobBad d = false →
      (jKind d = 0 → jWake d = false → (s.ctx n).draining = false →
        ((s.ctx n).queued.length < 4 → jWen d = false → Completes (.tileJob d) s (fun t => JobQueued d s t ∧ t = { s with cx := t.cx, regs := t.regs, now := t.now })) ∧
        (4 ≤ (s.ctx n).queued.length → s.watchOn d = true → Completes (.tileJob d) s (fun t => t.get CTX_CAUSE.ovf = 1 ∧ Counted (CTX_CLIc.dropped c) s t ∧
          RegsOnly (CTX_CAUSE.reg :: cli) s t))) ∧
      (jKind d = 0 → jWake d = true → (s.ctx n).draining = false → (s.ctx n).job.isSome = true → jFen d = true →
        Completes (.wake d) s (fun t => Counted (CTX_CLIc.issued c) s t ∧ Counted (CTX_CLIc.ended c) s t ∧
          t.orr = (if s.cstate n = 5 ∨ s.cstate n = 6 then { s.orr with events := s.orr.events ++ [⟨s.mono + 24, .ctxFlag n (jFlag d)⟩] } else s.orr) ∧
          t.get (CTX_STATn.pend n) = (if s.cstate n = 5 ∨ s.cstate n = 6 then s.get (CTX_STATn.pend n) else s.get (CTX_STATn.pend n) ||| 2 ^ (jFlag d).val) ∧
          t = { s with regs := t.regs, now := t.now, orr := t.orr } ∧ WordsKept s t ((CTX_STATn.reg n + 4) :: cli))) ∧
      (∀ p, jKind d = 1 → p = nextPtr (dfield d 24 0 64) → p.cls = clsNum k → p.unit = u.val → EngineRuns k u s → s.flag (engEn (clsNum k) u) = true →
        (s.unit (clsNum k) u).draining = false → ((s.unit (clsNum k) u).job).isSome = true → (s.unit (clsNum k) u).ptrs.length < 8 →
        Completes (.hardEnginePointer d) s (fun t => Counted (CTX_CLIc.issued c) s t ∧ Counted (CTX_CLIc.ended c) s t ∧
          t.unit (clsNum k) u = { s.unit (clsNum k) u with ptrs := (s.unit (clsNum k) u).ptrs ++ [⟨p.cl, p.next, none⟩] } ∧
          (∀ i : Fin 37, i ≠ unitIx (clsNum k) u → t.hard[i.val] = s.hard[i.val]) ∧ t = { s with hard := t.hard, regs := t.regs, now := t.now } ∧
          WordsKept s t ((engBase (clsNum k) u + 0x10) :: cli))) ∧
      (∀ (cl : Fin 8) (q : Fin 32) (x : BitVec 512), jKind d = 2 → cl.val = dfield d 24 0 3 → q.val = dfield d 24 8 5 → s.domOn (72 + cl.val) = true →
        let ring (o : Nat) : Nat := 0x1000000000 + 0x1000000 * cl.val + (64 * s.get (DMA_Qn_RING.offset cl q) + o) % 0x1000000
        let cons := BitVec.ofNat 32 (s.le (ring 4) 4)
        let prod := BitVec.ofNat 32 (s.le (ring 0) 4)
        s.get (DMA_Qn_RING.en cl q) = 1 → s.get (DMA_Qn_STAT.busy cl q) = 0 → prod ≠ cons → (prod - cons).toNat ≤ 2 ^ s.dmaLog cl q →
        x = BitVec.ofNat 512 (s.le (ring (64 + 64 * (cons.toNat % 2 ^ s.dmaLog cl q))) 64) → dReserved x = false →
        Completes (.dmaQueueStart d) s (fun t => Counted (CTX_CLIc.issued c) s t ∧ Counted (CTX_CLIc.ended c) s t ∧ (t.dq cl q).desc = some x ∧
          (t.dq cl q).row = 0 ∧ (t.dq cl q).cons = cons ∧ t.get (DMA_Qn_STAT.busy cl q) = 1 ∧ t.mem = s.mem ∧
          (∀ a b, a ≠ cl ∨ b ≠ q → t.dq a b = s.dq a b) ∧ WordsKept s t (DMA_Qn_STAT.reg cl q :: cli)))) ∧
    (∀ x : Scan, s.absent 11 e = false → s.unitHeld 11 e = false → (s.engine e).scans = [x] → x.left ≠ 0 → monoLe x.due s.mono = true →
      let at_ := clusterBase x.cl + (x.off + 64 + 64 * (x.next.toNat % 2 ^ x.log)) % 2 ^ 24
      s.addrOn at_ = true → d = BitVec.ofNat 512 (s.le at_ 64) → s.jobBad d = false → jKind d = 0 → jWake d = false → jWen d = false →
      (s.ctx n).draining = false → (s.ctx n).queued.length < 4 → Completes (.descriptorDelivery e) s (fun t => JobQueued d s t ∧
        (t.engine e).scans = (if x.left = 1 then [] else [{ x with next := x.next + 1, left := x.left - 1, i := x.i + 1 }]) ∧
        (∀ i, i ≠ e → t.engine i = s.engine i) ∧
        t.mem = s.mem ∧ t.orr.cons = s.orr.cons ++ (if x.left = 1 then [(clusterBase x.cl + x.off + 4, x.next + 1)] else []))) ∧
    (∀ (a : Nat) (v : BitVec 32), s.orr.cons = [(a, v)] → s.addrOn a = true → s.writeCons.le a 4 = v.toNat ∧ s.writeCons.orr.cons = [] ∧
      ∀ z, z < a ∨ a + 4 ≤ z → s.writeCons.byte z = s.byte z)

/-- The order of dispatch, the start of a job 24 ck later, and ageing (R249, R254, R332).
At a decision ck a READY job that heads the order alone, whose ranges are resident and whose tiles nothing holds, is to start 24 ck later.
The order takes class F loads, urgent class B jobs, class A jobs by remaining time with ties to the lower context, then class B jobs. At
its start a new job without a watch, which no shedding stops, is in RUN: its args stand in the first 32 bytes of each tile's range, the
pending word and its flag join each tile's EVF, and every tile runs from TIL_ENTRY with yreq clear; no other tile and no other byte
changes. A class B job that has waited longer than CTX_AGE becomes urgent. -/
def Obligations.DispatchAndStartOfJobs : Prop :=
  (∀ (s : State), s.dispatchOrder.Pairwise (fun a b =>
      let rank (n : Fin 256) : Nat := if s.ccls n = 0 then 0 else if s.ccls n = 2 ∧ s.get (CTX_STATn.urgent n) = 1 then 1 else if s.ccls n = 1 then 2 else 3
      rank a < rank b ∨ rank a = rank b ∧ (rank a = 2 → s.remaining a < s.remaining b ∨ s.remaining a = s.remaining b ∧ a ≤ b))) ∧
  ∀ (s : State) (n : Fin 256), Runs 82 1 s → Regs.wf s = true → Memory.wf s = true → s.cx.switches = [] →
    (s.mono.toNat % 16 = 0 → s.dispatchOrder = [n] → (s.ctiles n).any s.posHeld = false → (s.ctx n).resident = true →
      (∀ y, y ≠ n → s.shareTile n y = true → s.cstate y ≠ 5 ∧ s.cstate y ≠ 6 ∧ (s.ctx y).startAt = none) →
      Completes .dispatch s (fun u => u.ctx n = { s.ctx n with startAt := some (s.mono + 24), age := 0 } ∧ u.get (CTX_STATn.urgent n) = 0 ∧
        CtxOnly n [] s u ∧ u.cstate n = 4)) ∧
    (∀ at_ j, (s.ctx n).startAt = some at_ → 0 ≤ (s.mono - at_).toInt → (∀ t ∈ s.ctiles n, s.tileOn t = true) → (s.ctx n).job = none →
      (s.ctx n).queued.head? = some j → (s.ctx n).started = false → (s.ctx n).loaded = false → s.cstate n = 4 → s.get (CTX_CTXn.qmask n) = 0 →
      s.watchOf j = none → RangesFit n s → (s.ccls n = 2 → s.shedLevel = 0) →
      Completes (.jobStart n) s (fun u => u.cstate n = 5 ∧ (u.ctx n).job = some j ∧ (u.ctx n).queued = (s.ctx n).queued.drop 1 ∧ (u.ctx n).started = true ∧
        (u.ctx n).startAt = none ∧ u.get (CTX_STATn.pend n) = 0 ∧
        (∀ t ∈ s.ctiles n, u.get (TIL_CTL.run t) = 1 ∧ u.get (TIL_CTL.yreq t) = 0 ∧ u.get (TIL_STAT.state t) = 1 ∧
          (u.tile t).pc.toNat = s.get (TIL_ENTRY.idx t) ∧ (u.tile t).loops = [] ∧ (u.tile t).s = (s.tile t).s ∧
          (u.tile t).evf = (s.tile t).evf ||| BitVec.ofNat 32 (s.get (CTX_STATn.pend n)) ||| (if j.fen = true then (1 : BitVec 32) <<< j.flag.val else 0) ∧
          ∀ k, k < 32 → u.byte (rangeByte s n t k) = j.args.extractLsb' (8 * k) 8) ∧
        (∀ t, t ∉ s.ctiles n → u.tile t = s.tile t) ∧
        (∀ z, (∀ t ∈ s.ctiles n, z < rangeByte s n t 0 ∨ rangeByte s n t 32 ≤ z) → u.byte z = s.byte z) ∧
        (∀ i, i ≠ n → u.ctx i = s.ctx i) ∧ u = { s with cx := u.cx, regs := u.regs, now := u.now, tiles := u.tiles, mem := u.mem, flaws := u.flaws } ∧
        WordsKept s u (CTX_STATn.reg n :: (CTX_STATn.reg n + 4) :: (s.ctiles n).flatMap fun (t : Fin 64) => [TIL_CTL.reg t, TIL_STAT.reg t, TIL_CAUSE.reg t]))) ∧
    (s.det = false → s.get CTX_AGE.us ≠ 0 → s.cstate n = 4 → s.ccls n = 2 → s.get (CTX_STATn.urgent n) = 0 → s.get CTX_AGE.us * 2200 < (s.ctx n).age →
      Completes (.backgroundAgeing n) s (fun u => u.get (CTX_STATn.urgent n) = 1 ∧ u.ctx n = { s.ctx n with urgSeq := s.cx.urg } ∧
        u.cx.urg = s.cx.urg + 1 ∧ CtxOnly n [] s u))

/-- A stopped context parks or is saved, a load starts its job, a save and a checkpoint write the image, a job ends (R246, R247, R248, R250, R252, R258, R261).
For a quiet context without a watch and no switch under way. A complete stop with no save goes to READY when some tile neither halted nor
waits on a clear flag, else to PARK; memory changes in the register images alone, and not in those of tiles that had halted. A complete
load puts the image into the ranges, but for the 32 bytes of args, and starts the job where no shedding stops it. A complete save puts the
ranges into the image and releases the slots; a checkpoint does so and keeps residency. The end of a job counts for its client and leaves
the context IDLE, or READY with another job queued. An awaited flag makes a PARK context READY. -/
def Obligations.StopsLoadsSavesAndEnds : Prop :=
  ∀ (s : State) (n : Fin 256) (j : Job), Runs 82 1 s → Regs.wf s = true → Memory.wf s = true → NoErrors s → CtxQuiet n s → RangesFit n s →
    let x := s.ctx n
    let others (u : State) : Prop := ∀ i, i ≠ n → u.ctx i = s.ctx i
    let images (u : State) : Prop := (∀ z, ¬inImages s n z → u.byte z = s.byte z) ∧ ∀ t ∈ s.ctiles n, (s.tile t).halted = true →
      ∀ k, k < s.crange n → u.byte (rangeByte s n t k) = s.byte (rangeByte s n t k)
    let saved (u : State) : Prop := (∀ t i, (s.ctiles n)[i]? = some t → ∀ k, k < s.crange n → u.byte (imageByte s n i k) = s.byte (rangeByte s n t k)) ∧
      ∀ z, z < s.cimage n ∨ s.cimage n + s.cbytes n ≤ z → u.byte z = s.byte z
    let waits (t : Fin 64) : Prop := (s.tile t).halted = true ∨ ∃ f, (s.tile t).awaited = some f ∧ (s.tile t).evf.getLsbD f = false
    (s.cstate n = 6 → s.stopDone n = true → x.toSave = false →
      Completes (.stopComplete n) s (fun u => images u ∧ others u ∧ u.tiles = s.tiles ∧ (u.ctx n).job = x.job ∧
        ((∃ t ∈ s.ctiles n, ¬waits t) → u.cstate n = 4) ∧ ((∀ t ∈ s.ctiles n, waits t) → s.get (CTX_STATn.pend n) = 0 → u.cstate n = 7) ∧
        u = { s with cx := u.cx, regs := u.regs, now := u.now, mem := u.mem, flaws := u.flaws } ∧ WordsKept s u [CTX_STATn.reg n])) ∧
    (s.cstate n = 6 → s.stopDone n = true → x.toSave = true →
      Completes (.stopComplete n) s (fun u => images u ∧ others u ∧ u.cstate n = 8 ∧ u.tiles = s.tiles)) ∧
    (s.cstate n = 2 → s.swapRead = true → s.rangesOn n = true → x.job = none → x.started = false → x.queued.head? = some j → (s.ccls n = 2 → s.shedLevel = 0) →
      Completes (.loadComplete n) s (fun u => u.cstate n = 5 ∧ (u.ctx n).job = some j ∧ others u ∧
        (∀ t i, (s.ctiles n)[i]? = some t → (∀ k, 32 ≤ k → k < s.crange n → u.byte (rangeByte s n t k) = s.byte (imageByte s n i k)) ∧
          (∀ k, k < 32 → u.byte (rangeByte s n t k) = j.args.extractLsb' (8 * k) 8) ∧ u.get (TIL_CTL.run t) = 1) ∧
        (∀ z, (∀ t ∈ s.ctiles n, z < rangeByte s n t 0 ∨ rangeByte s n t (s.crange n) ≤ z) → u.byte z = s.byte z) ∧
        ∀ t, t ∉ s.ctiles n → u.tile t = s.tile t)) ∧
    (s.cstate n = 8 → s.swapWrite = true → s.rangesOn n = true → Completes (.saveComplete n) s (fun u => saved u ∧ others u ∧
      u.ctx n = { x with resident := false } ∧ u.cstate n = (if s.canRun n = true then 4 else 1) ∧
      u = { s with cx := u.cx, regs := u.regs, now := u.now, mem := u.mem, flaws := u.flaws } ∧ WordsKept s u [CTX_STATn.reg n])) ∧
    (x.writing = true → s.swapWrite = true → s.rangesOn n = true → Completes (.checkpointComplete n) s (fun u => saved u ∧ others u ∧
      u.ctx n = { x with writing := false } ∧ u.get (CTX_CTXn.ckpt n) = 0 ∧ u.cstate n = s.cstate n ∧
      u = { s with cx := u.cx, regs := u.regs, now := u.now, mem := u.mem, flaws := u.flaws } ∧ WordsKept s u [CTX_STATn.reg n, CTX_CTXn.reg n])) ∧
    (∀ c, s.cstate n = 5 → s.ccls n ≠ 0 → x.job = some j → j.client = some c → x.draining = false → x.writing = false → s.get (CTX_CTXn.ckpt n) = 0 →
      (∀ t ∈ s.ctiles n, s.get (TIL_CTL.run t) = 0 ∧ (s.tile t).halted = true ∧ s.get (TIL_STAT.state t) = 0) →
      Completes (.jobEnd n) s (fun u => u.mem = s.mem ∧ others u ∧ u.tiles = s.tiles ∧ (u.ctx n).job = none ∧ (u.ctx n).queued = x.queued ∧
        u.get (CTX_STATn.job n) = 0 ∧ u.cstate n = (if x.queued = [] then 3 else 4) ∧ Counted (CTX_CLIc.ended c) s u ∧
        u = { s with cx := u.cx, regs := u.regs, now := u.now } ∧ WordsKept s u (CTX_STATn.reg n :: clientWords c))) ∧
    (s.cstate n = 7 → s.woken n = true → Completes (.awaitedFlag n) s (fun u => u.cstate n = 4 ∧ u.ctx n = x ∧ CtxOnly n [] s u))

/-- Enable, drain, cut, checkpoint and teardown of contexts (R245, R255, R256, R257, R258, R261).
An enable that R245 allows gives OUT with en = 1, and for class F a queued job waiting for load; one that it refuses sets en_bad and
leaves en 0. A drain with no job in progress releases the context to OFF, its queued jobs counted as dropped; with one it waits. A cut of
a running quiet context (det = 0) stops its tiles in state 5, counts the job as faulted, records cause 1 and goes to OFF; with no V-slot
operation queued, memory outside its ranges stays. The fault of a tile does the same with cause 0, or 3 where its unit has failed, and
that tile, changes no memory, and goes to OUT with en kept. ckpt begins its write in IDLE. Other contexts and tiles stay. -/
def Obligations.ContextsAreEnabledAndTornDown : Prop :=
  ∀ (s : State) (n : Fin 256) (j : Job) (c : Fin 64) (t : Fin 64), Runs 82 1 s → Regs.wf s = true → Memory.wf s = true → s.cx.switches = [] →
    let x := s.ctx n
    (s.get (CTX_CTXn.en n) = 0 → s.enableBad n = true → Completes (.contextEnable n) s (fun u => u.get CTX_CAUSE.en_bad = 1 ∧ u.get (CTX_CTXn.en n) = 0 ∧
      RegsOnly [CTX_CAUSE.reg] s u)) ∧
    (s.get (CTX_CTXn.en n) = 0 → s.enableBad n = false → Completes (.contextEnable n) s (fun u => u.get (CTX_CTXn.en n) = 1 ∧ CtxOnly n [] s u ∧
      (s.ccls n ≠ 0 → u.cstate n = 1 ∧ u.ctx n = Ctx.reset ∧ u.cx.seq = s.cx.seq) ∧
      (s.ccls n = 0 → u.cstate n = 4 ∧ (∃ f, u.ctx n = { Ctx.reset with queued := [f] } ∧ f.client = none ∧ f.seq = s.cx.seq ∧ f.watch = none)))) ∧
    (s.get (CTX_CTXn.en n) = 1 →
      (x.job = none → s.cstate n ≠ 9 → CtxQuiet n s → x.queued = [j] → j.client = some c → Completes (.drain n) s (fun u =>
        u.cstate n = 0 ∧ u.get (CTX_CTXn.en n) = 0 ∧ u.get (CTX_CTXn.drain n) = 0 ∧ u.ctx n = { Ctx.reset with endedAt := x.endedAt } ∧
        Counted (CTX_CLIc.dropped c) s u ∧ CtxOnly n (clientWords c) s u)) ∧
      (x.job = some j → Completes (.drain n) s (fun u => u.ctx n = { x with draining := true } ∧ u.get (CTX_CTXn.drain n) = 1 ∧ u.cstate n = s.cstate n ∧
        CtxOnly n [] s u)) ∧
      (Completes (.ckpt n) s (fun u => u.get (CTX_CTXn.ckpt n) = 1 ∧ u.ctx n = { x with writing := if s.cstate n = 3 then true else x.writing } ∧
        u.cstate n = s.cstate n ∧ CtxOnly n [] s u)) ∧
      (s.det = false → s.cstate n = 5 → x.job = some j → j.client = some c → CtxQuiet n s → x.queued = [] → RangesFit n s → (∀ y ∈ s.ctiles n, (s.tile y).vq = []) →
        Completes (.cut n) s (fun u => u.cstate n = 0 ∧ u.get (CTX_CTXn.en n) = 0 ∧ (u.ctx n).job = none ∧ (u.ctx n).resident = false ∧
          Counted (CTX_CLIc.faulted c) s u ∧ u.get CTX_CAUSE.fault = 1 ∧ u.get CTX_FAULT.cause = 1 ∧ u.get CTX_FAULT.ctx = n.val ∧
          u.get CTX_FAULT.tag = j.tag.toNat ∧ (∀ y ∈ s.ctiles n, s.get (TIL_CTL.run y) = 1 → u.get (TIL_CTL.run y) = 0 ∧ u.get (TIL_STAT.state y) = 5) ∧
          (∀ y, y ∉ s.ctiles n → u.tile y = s.tile y) ∧ (∀ i, i ≠ n → u.ctx i = s.ctx i) ∧
          ∀ z, (∀ y ∈ s.ctiles n, z < rangeByte s n y 0 ∨ rangeByte s n y (s.crange n) ≤ z) → u.byte z = s.byte z))) ∧
    (s.cstate n = 5 → t ∈ s.ctiles n → s.get (TIL_CTL.run t) = 0 → s.get (TIL_STAT.state t) = 5 → x.tear = none → (∀ y ∈ s.ctiles n, (s.tile y).vq = []) →
      x.job = some j → j.client = some c → CtxQuiet n s → x.queued = [] → x.draining = false → s.get (CTX_CTXn.rst n) = 0 →
      Completes (.teardown n t) s (fun u => u.cstate n = 1 ∧ u.get (CTX_CTXn.en n) = s.get (CTX_CTXn.en n) ∧ (u.ctx n).job = none ∧
        (u.ctx n).resident = false ∧ Counted (CTX_CLIc.faulted c) s u ∧ u.get CTX_CAUSE.fault = 1 ∧ u.get CTX_FAULT.cause = (if (0, t.val) ∈ s.rep.failed then 3 else 0) ∧
        u.get CTX_FAULT.ctx = n.val ∧ u.get CTX_FAULT.tile = t.val ∧ u.get CTX_FAULT.tag = j.tag.toNat ∧
        (∀ y ∈ s.ctiles n, s.get (TIL_CTL.run y) = 1 → u.get (TIL_CTL.run y) = 0 ∧ u.get (TIL_STAT.state y) = 5) ∧
        (∀ y, y ∉ s.ctiles n → u.tile y = s.tile y) ∧ (∀ i, i ≠ n → u.ctx i = s.ctx i) ∧ u.mem = s.mem))

/-- Ports are enabled, moved and come up; lanes lose signal, are reduced and restart; laser light falls (R264, R265, R266, R267, R268, R269, R309).
An enable or lane move that R267 and R268 allow stores its fields and leaves the port out of link up; a refused one sets cfg and changes
nothing else; while en = 1 a write that keeps the mask has no effect. An enabled port with signal on every lane comes up; an Apsis link
then begins its bring-up, or, where it was up before, replays what it holds. A lost signal sets los, takes the ports of the lane out of
link up and starts the 500 µs after which an enabled lane is reduced, as is a forced one at once; a pulse after 1 s with signal ends the
reduction of a lane that is not forced. Light below the minimum marks the engine dark and sets laser; restored light clears the mark. -/
def Obligations.PortsComeUpMoveAndReduce : Prop :=
  (∀ (s : State) (p : Fin 32) (apx : Bool) (rate : Nat) (lanes : Nat), s.portFits p apx rate lanes = true ↔
    (rateLanes rate = some (onesOf 8 lanes).length ∧ (apx = true → 2 ≤ rate) ∧
      (∀ o : Fin 32, o ≠ p → o.val / 8 = p.val / 8 → s.flag (OPT_Pp_CFG.en o) = true → s.get (OPT_Pp_CFG.lanes o) &&& lanes = 0) ∧
      (onesOf 8 (s.lanesElsewhere p ||| lanes)).length ≤ 7)) ∧
  (∀ (s : State) (p : Fin 32) (apx fh : Bool) (rate : Fin 8) (lanes : BitVec 8) (mac : BitVec 48), Regs.wf s = true →
    let en := s.flag (OPT_Pp_CFG.en p)
    let out (u : State) : Prop := u.get (OPT_Pp_STAT.up p) = 0 ∧ u.get (OPT_Pp_STAT.lock p) = 0 ∧ u.get (OPT_Pp_STAT.los p) = (u.portLost p).toNat
    let refused (u : State) : Prop := u.get OPT_CAUSE.cfg = 1 ∧ RegsOnly (fieldWords OPT_CAUSE.cfg) s u
    let moves : Bool := s.portFits p (s.flag (OPT_Pp_CFG.apx p)) (s.get (OPT_Pp_CFG.rate p)) lanes.toNat
    let masked (u : State) : Prop := u.get (OPT_Pp_CFG.lanes p) = lanes.toNat ∧ u.get (OPT_Pp_CFG.en p) = s.get (OPT_Pp_CFG.en p) ∧
      u.get (OPT_Pp_CFG.apx p) = s.get (OPT_Pp_CFG.apx p) ∧ u.get (OPT_Pp_CFG.rate p) = s.get (OPT_Pp_CFG.rate p) ∧
      u.get (OPT_Pp_CFG.fh p) = s.get (OPT_Pp_CFG.fh p) ∧ u.get (OPT_Pp_CFG.mac p) = s.get (OPT_Pp_CFG.mac p)
    (Runs (portUnitOf p) 4 s →
      (Crossing.port p ∉ s.pwr.oneSided →
        (en = false → s.portFits p apx rate.val lanes.toNat = true → Completes (.portEnable p apx fh rate lanes mac) s (fun u =>
          u.get (OPT_Pp_CFG.en p) = 1 ∧ u.get (OPT_Pp_CFG.apx p) = apx.toNat ∧ u.get (OPT_Pp_CFG.fh p) = fh.toNat ∧ u.get (OPT_Pp_CFG.rate p) = rate.val ∧
          u.get (OPT_Pp_CFG.lanes p) = lanes.toNat ∧ u.get (OPT_Pp_CFG.mac p) = mac.toNat ∧ out u ∧
          RegsOnly [OPT_Pp_CFG.reg p, OPT_Pp_CFG.reg p + 4, OPT_Pp_STAT.reg p] s u)) ∧
        (en = false → s.portFits p apx rate.val lanes.toNat = false → Completes (.portEnable p apx fh rate lanes mac) s refused) ∧
        (en = true → s.get (OPT_Pp_CFG.lanes p) = lanes.toNat → Completes (.portEnable p apx fh rate lanes mac) s (fun u => u = s))) ∧
      (Crossing.port p ∈ s.pwr.oneSided → exec (.portEnable p apx fh rate lanes mac) s = .fault .oneSidedReset) ∧
      (en = true → moves = true → Completes (.laneMove p lanes) s (fun u => masked u ∧ out u ∧
        RegsOnly [OPT_Pp_CFG.reg p + 4, OPT_Pp_STAT.reg p] s u)) ∧
      (en = true → moves = false → Completes (.laneMove p lanes) s refused) ∧
      (en = false → Completes (.laneMove p lanes) s (fun u => masked u ∧ RegsOnly [OPT_Pp_CFG.reg p + 4] s u))) ∧
    (Runs (portUnitOf p) 4 s → Crossing.port p ∉ s.pwr.oneSided → en = true → s.get (OPT_Pp_STAT.up p) = 0 → s.portLost p = false →
      Completes (.linkUp p) s (fun u => u.get (OPT_Pp_STAT.up p) = 1 ∧ u.get (OPT_Pp_STAT.lock p) = 1 ∧ u.get (OPT_Pp_STAT.los p) = 0 ∧
        (s.get (OPT_Pp_CFG.apx p) = 0 → RegsOnly [OPT_Pp_STAT.reg p] s u) ∧
        (s.get (OPT_Pp_CFG.apx p) = 1 → s.get (APX_Lp_STAT.state p) = 2 → (s.link p).unacked = [] → RegsOnly [OPT_Pp_STAT.reg p] s u) ∧
        (s.get (OPT_Pp_CFG.apx p) = 1 → s.get (APX_Lp_STAT.state p) = 2 → (s.link p).unacked ≠ [] → (s.link p).replays < s.get (APX_Lp_CFG.rmax p) →
          (u.link p).out = (s.link p).out ++ (s.link p).unacked ∧ (u.link p).unacked = (s.link p).unacked ∧ Counted (APX_Lp_CNT.rep p) s u ∧
          u.get (APX_Lp_STAT.state p) = 2 ∧ ∀ o : Fin 32, o ≠ p → u.link o = s.link o) ∧
        (s.get (OPT_Pp_CFG.apx p) = 1 → s.get (APX_Lp_STAT.state p) ≠ 2 → u.get (APX_Lp_STAT.state p) = 1 ∧ (u.link p).unacked = [] ∧ (u.link p).wait = (s.link p).wait ∧
          u = { s with regs := u.regs, now := u.now, apx := { s.apx with link := u.apx.link } } ∧ ∀ o : Fin 32, o ≠ p → u.link o = s.link o)))) ∧
  (∀ (s : State) (l : Fin 32) (seen : Bool), Runs (92 + l.val / 8) 4 s → Regs.wf s = true →
    let x := s.optLane l
    let los := (s.get OPT_LANE.los).testBit l.val
    let apr := (s.get OPT_LANE.apr).testBit l.val
    let forced := (s.get OPT_APRF.force).testBit l.val
    let lane (y : OptLane) (u : State) : Prop := u.optLane l = y ∧ (∀ i : Fin 32, i ≠ l → u.optLane i = s.optLane i) ∧
      u = { s with regs := u.regs, now := u.now, opt := { s.opt with lane := u.opt.lane } }
    let stats : List Nat := (s.portsOn l).map fun (p : Fin 32) => OPT_Pp_STAT.reg p
    let reg (f : Fld) (v : Bool) (u : State) : Prop := ∀ i, i < 32 → (u.get f).testBit i = if i = l.val then v else (s.get f).testBit i
    (los = false → Completes (.lossOfSignal l) s (fun u => reg OPT_LANE.los true u ∧ reg OPT_CAUSE.los true u ∧ lane { x with lostAt := some s.mono } u ∧
      (∀ p ∈ s.portsOn l, u.get (OPT_Pp_STAT.up p) = 0 ∧ u.get (OPT_Pp_STAT.lock p) = 0 ∧ u.get (OPT_Pp_STAT.los p) = 1) ∧
      WordsKept s u (fieldWords OPT_LANE.los ++ fieldWords OPT_CAUSE.los ++ stats))) ∧
    Completes (.signalPresent l) s (fun u => reg OPT_LANE.los false u ∧ lane { x with lostAt := none } u ∧
      (∀ p ∈ s.portsOn l, u.get (OPT_Pp_STAT.los p) = (u.portLost p).toNat ∧ u.get (OPT_Pp_STAT.up p) = s.get (OPT_Pp_STAT.up p)) ∧
      WordsKept s u (fieldWords OPT_LANE.los ++ stats)) ∧
    (apr = false → forced = true ∨ (∃ m, x.lostAt = some m ∧ 1100000 ≤ s.since m ∧ s.portsOn l ≠ []) → Completes (.powerReduction l) s (fun u =>
      reg OPT_LANE.apr true u ∧ lane { x with pulseAt := s.mono } u ∧ WordsKept s u (fieldWords OPT_LANE.apr))) ∧
    (apr = true → 2200000000 ≤ s.since x.pulseAt →
      Completes (.restartPulse l false) s (fun u => lane { x with pulseAt := s.mono } u ∧ u.regs = s.regs) ∧
      Completes (.restartPulse l true) s (fun u => lane { lostAt := none, pulseAt := s.mono } u ∧ reg OPT_LANE.los false u ∧ reg OPT_LANE.apr forced u ∧
        WordsKept s u (fieldWords OPT_LANE.los ++ fieldWords OPT_LANE.apr ++ stats))) ∧
    (apr = true → s.since x.pulseAt < 2200000000 → Completes (.restartPulse l seen) s (fun u => u = s))) ∧
  ∀ (s : State) (e : Fin 4) (lvl : BitVec 8), Runs (92 + e.val) 4 s → Regs.wf s = true →
    let marked (v : Bool) (u : State) : Prop := u.get (OPT_LIGHT.lvl e) = lvl.toNat ∧ (∀ i, i < 4 → u.opt.dark.getLsbD i = if i = e.val then v else s.opt.dark.getLsbD i) ∧
      u = { s with regs := u.regs, now := u.now, opt := { s.opt with dark := u.opt.dark } }
    Completes (.laserLightLow e lvl) s (fun u => marked true u ∧ (s.opt.dark.getLsbD e.val = false → u.get OPT_CAUSE.laser = 1) ∧
      WordsKept s u (fieldWords (OPT_LIGHT.lvl e) ++ fieldWords OPT_CAUSE.laser)) ∧
    Completes (.laserLightRestored e lvl) s (fun u => marked false u ∧ WordsKept s u (fieldWords (OPT_LIGHT.lvl e)))

/-- Transmit rings: poll, choice of the next frame, late heads, U-plane build and completion (R37, R161, R273, R274, R275, R277).
At its poll instant the prod of an enabled ring in LPDDR6 is read and its head prefetched. At a frame boundary of an idle up port with no
bad or late head, a waiting response leaves first, else the head of the highest ring that is untimed or whose launch is reached: a kind 0
head leaves with its bytes, a kind 1 head as a message with its stream's addresses, eAxC and sequence id, which then rises, its
saturations counted; each frame ends with the FCS of its bytes. A late head is skipped with status.late, drop and txlate. A completion
writes t_dep, status.sent and cons + 1. No other byte of memory changes. -/
def Obligations.FramesLeaveAtBoundaries : Prop :=
  ∀ (s : State) (p : Fin 32) (k : Fin 4) (sec : BitVec 48) (qns : Fin 4000000000), Runs (portUnitOf p) 4 s → Regs.wf s = true → Memory.wf s = true →
    NoErrors s → s.txOn p k = true →
    let base := 64 * s.get (OPT_Pp_TXRk.addr p k)
    let l := ringLog (s.get (OPT_Pp_TXRk.log2size p k))
    let cons := BitVec.ofNat 32 (s.le (base + 4) 4)
    let slot (c : BitVec 32) : Nat := base + 64 + 64 * (c.toNat % 2 ^ l)
    let head (c : BitVec 32) (u : State) : Option (BitVec 512) := some (BitVec.ofNat 512 (u.le (slot c) 64))
    base + 64 + 64 * 2 ^ l ≤ 0xF00000000 → (∀ j : Fin 4, s.flag (OPT_Pp_TXRk.en p j) = true → (s.tx p j).head.isSome = true → s.txOn p j = true) →
    let pt := s.opt.port[p.val]
    let counts (u : State) : Prop := (∀ i : Fin 32, i ≠ p → u.opt.port[i.val] = s.opt.port[i.val]) ∧
      u = { s with regs := u.regs, now := u.now, mem := u.mem, flaws := u.flaws, opt := { s.opt with port := u.opt.port, esat := u.opt.esat } }
    let rings (u : State) : Prop := counts u ∧ u.opt.esat = s.opt.esat
    let q := s.depart p sec qns
    let quiet : Prop := ∀ (j : Fin 4) d, s.flag (OPT_Pp_TXRk.en p j) = true → (s.tx p j).head = some d → s.txBad d = false ∧ s.txLate p d = false
    let ready (j : Fin 4) (d : BitVec 512) : Prop := s.flag (OPT_Pp_TXRk.en p j) = true ∧ (s.tx p j).head = some d ∧
      (tTimed d = true → airDiff (tLaunch d) (s.airOf (tAt d) q) ≤ 0)
    let sends (o : Option (Fin 4)) (data : List (BitVec 8)) : Port := { pt with sending := some ⟨o, data ++ bytesOf 4 (crc32 data).toNat, BitVec.ofNat 48 (qSec q), qBelow q⟩ }
    let idle : Prop := s.ethUp p = true ∧ pt.sending = none
    (s.flag (OPT_Pp_TXRk.en p k) = true → s.mono.toNat % 2048 = 64 * (4 * (p.val % 8) + k.val) → Completes (.txRingPoll p k) s (fun u =>
      let prod := BitVec.ofNat 32 (s.le base 4)
      u.tx p k = ⟨prod, if (s.tx p k).head.isSome = true then (s.tx p k).head else if prod = cons then none else head cons s⟩ ∧
      (∀ j, j ≠ k → u.tx p j = s.tx p j) ∧ u.opt.port[p.val].resp = pt.resp ∧ u.opt.port[p.val].sending = pt.sending ∧ rings u ∧
      u.regs = s.regs ∧ u.mem = s.mem)) ∧
    (∀ r rest, idle → quiet → pt.resp = r :: rest → Completes (.frameTransmit p sec qns) s (fun u =>
      u.opt.port[p.val] = { sends none r with resp := rest } ∧ rings u ∧ u.regs = s.regs ∧ u.mem = s.mem)) ∧
    (∀ d, idle → quiet → pt.resp = [] → ready k d → (∀ j e, k < j → ¬ready j e) →
      (tKind d = 0 → s.rangeOn (tAddr d) (tLen d) = true → tAddr d + tLen d ≤ 0xF00000000 → Completes (.frameTransmit p sec qns) s (fun u =>
        let data := s.bytes (tAddr d) (tLen d)
        u.opt.port[p.val] = sends (some k) (if tOnestep d = true then oneStep (s.get TMB_OS_CTL.udp) (tEncap d) (tPtp d) q data else data) ∧
        rings u ∧ u.regs = s.regs ∧ u.mem = s.mem)) ∧
      (tKind d = 1 → s.rangeOn (tAddr d) (48 * tLen d) = true → tAddr d + 48 * tLen d ≤ 0xF00000000 → Completes (.uPlaneBuild p sec qns) s (fun u =>
        let m : Fin 256 := Fin.ofNat 256 (tStr d)
        let w := if s.get (OPT_ESm_CFG.width m) = 0 then 16 else s.get (OPT_ESm_CFG.width m)
        let prb (i : Nat) : List CInt := (List.range 12).map fun j => CInt.ofWord (BitVec.ofNat 32 (s.le (tAddr d + 48 * i + 4 * j) 4))
        let o := if s.flag (OPT_ESm_HDR.tagged m) = true then 18 else 14
        (∃ data, u.opt.port[p.val] = sends (some k) data ∧ 60 ≤ data.length ∧ beAt data 0 6 = s.get (OPT_ESm_HDR.dmac m) ∧
          beAt data 6 6 = s.get (OPT_Pp_CFG.mac p) ∧ (s.flag (OPT_ESm_HDR.tagged m) = true → beAt data 12 4 = s.get (OPT_ESm_HDR.tag m)) ∧
          beAt data (o - 2) 2 = 0xAEFE ∧ beAt data (o + 1) 1 = 0 ∧ beAt data (o + 4) 2 = s.get (OPT_ESm_CFG.eaxc m) ∧
          beAt data (o + 6) 1 = s.get (OPT_ESm_CFG.seq m) ∧ beAt data (o + 7) 1 = 0x80) ∧
        u.get (OPT_ESm_CFG.seq m) = (s.get (OPT_ESm_CFG.seq m) + 1) % 256 ∧ counts u ∧ (∀ i : Fin 256, i ≠ m → u.opt.esat[i.val] = s.opt.esat[i.val]) ∧
        u.opt.esat[m.val] = s.opt.esat[m.val] + ((List.range (tLen d)).map fun i =>
          prbSat (s.get (OPT_ESm_CFG.meth m)) w (s.get (OPT_ESm_CFG.mc m) / 2) (s.get (OPT_ESm_CFG.mc m) % 2) (prb i)).sum ∧ u.mem = s.mem ∧ WordsKept s u (fieldWords (OPT_ESm_CFG.seq m))))) ∧
    (∀ d, idle → pt.resp = [] → (∀ j : Fin 4, j ≠ k → s.flag (OPT_Pp_TXRk.en p j) = false) → s.flag (OPT_Pp_TXRk.en p k) = true → (s.tx p k).head = some d →
      s.txBad d = false → s.txLate p d = true → (s.tx p k).prod = cons + 1 → Completes (.frameTransmit p sec qns) s (fun u =>
        u.le (slot cons + 48) 1 = 2 ∧ u.le (base + 4) 4 = (cons + 1).toNat ∧ u.tx p k = ⟨(s.tx p k).prod, none⟩ ∧ (∀ j, j ≠ k → u.tx p j = s.tx p j) ∧
        u.opt.port[p.val].sending = none ∧ u.opt.port[p.val].resp = [] ∧ Counted (OPT_Pp_CNT.drop p) s u ∧ u.get OPT_CAUSE.txlate = 1 ∧
        (∀ z, z ≠ slot cons + 48 → (z < base + 4 ∨ base + 8 ≤ z) → u.byte z = s.byte z) ∧ rings u ∧
        WordsKept s u (fieldWords (OPT_Pp_CNT.drop p) ++ fieldWords OPT_CAUSE.txlate))) ∧
    (∀ f, pt.sending = some f → f.ring = none → Completes (.transmitCompletion p) s (fun u =>
      u.opt.port[p.val] = { pt with sending := none } ∧ rings u ∧ u.regs = s.regs ∧ u.mem = s.mem)) ∧
    (∀ f, pt.sending = some f → f.ring = some k → Completes (.transmitCompletion p) s (fun u =>
      u.le (slot cons + 48) 1 = 1 ∧ u.le (slot cons + 50) 6 = f.sec.toNat ∧ u.le (slot cons + 56) 4 = f.qns % 2 ^ 32 ∧
      u.le (base + 4) 4 = (cons + 1).toNat ∧ (∀ z, z ≠ slot cons + 48 → (z < slot cons + 50 ∨ slot cons + 60 ≤ z) → (z < base + 4 ∨ base + 8 ≤ z) → u.byte z = s.byte z) ∧
      u.tx p k = ⟨(s.tx p k).prod, if (s.tx p k).prod = cons + 1 then none else head (cons + 1) u⟩ ∧ (∀ j, j ≠ k → u.tx p j = s.tx p j) ∧
      u.opt.port[p.val].sending = none ∧ u.opt.port[p.val].resp = pt.resp ∧ rings u ∧ u.regs = s.regs))

/-- JESD links: enable, lane lock, multiblock release and SYSREF (R184, R185, R281, R282, R283, R297).
A configuration with a reserved bit set is the undefined case of R5; one whose F matches R184 and whose lanes clash with none is stored;
one that breaks a rule is stored with en = 0 and sets its cfg bit. A lane locks at the 64th valid sync header in a row and unlocks at the
16th invalid one of a window of 64, its link then leaving data phase with unlock set. A release in data phase reports the latest arrival,
one past rbd sets rbd_late and gives zeros for its LEMC period, and failed CRCs are counted, logged and set crc. Unpacking what a frame
packs gives its samples back, with N' = 12 their upper 12 bits (log entry 47). A carried SYSREF edge is timestamped less its latency; mode
1 aligns LEMC to the first edge + off, mode 2 to every one, mode 3 to none. -/
def Obligations.JesdLinksLockAlignAndRelease : Prop :=
  ∀ (s : State), Runs 91 2 s → Regs.wf s = true →
    let phases (u : State) : Prop := ∀ k, k < 8 → u.jes.data.getLsbD k = u.jesdLocked k ∧
      ((u.get JES_CAUSE.unlock).testBit k = true ↔ (s.get JES_CAUSE.unlock).testBit k = true ∨ (s.jes.data.getLsbD k = true ∧ u.jes.data.getLsbD k = false))
    (∀ (tx : Bool) (k : Fin 8) (c : BitVec 64), jf c 0 16 ≠ 0 ∨ jf c 56 7 ≠ 0 → exec (.jesdLinkEnable tx k c) s = .fault .reservedBit) ∧
    (∀ (tx : Bool) (k : Fin 8) (c : BitVec 64), jf c 0 16 = 0 → jf c 56 7 = 0 →
      (if tx = true then Crossing.jesdTx k else Crossing.jesdRx k) ∉ s.pwr.oneSided →
      let reg := if tx = true then JES_TXk_CFG.reg k else JES_RXk_CFG.reg k
      let bit := k.val + if tx = true then 8 else 0
      let rest (u : State) : Prop := phases u ∧ u.jes.lane = s.jes.lane ∧ u = { s with regs := u.regs, now := u.now, jes := { s.jes with data := u.jes.data } } ∧
        WordsKept s u (reg :: (reg + 4) :: fieldWords JES_CAUSE.cfg ++ fieldWords JES_CAUSE.unlock)
      (jf c 63 1 = 0 ∨ (jesdFits c = true ∧ s.jesdClash tx k c = false) → Completes (.jesdLinkEnable tx k c) s (fun u =>
        u.jesd tx k = c ∧ u.get JES_CAUSE.cfg = s.get JES_CAUSE.cfg ∧ rest u)) ∧
      (jf c 63 1 = 1 → jesdFits c = false ∨ s.jesdClash tx k c = true → Completes (.jesdLinkEnable tx k c) s (fun u =>
        u.jesd tx k = c &&& 0x7FFFFFFFFFFFFFFF ∧ (u.get JES_CAUSE.cfg).testBit bit = true ∧
        (∀ i, i ≠ bit → (u.get JES_CAUSE.cfg).testBit i = (s.get JES_CAUSE.cfg).testBit i) ∧ rest u))) ∧
    (∀ (a : Fin 48) (emb : Bool),
      let x := s.jes.lane[a.val]
      let lane (y : JLane) (u : State) : Prop := u.jes.lane[a.val] = y ∧ (∀ i : Fin 48, i ≠ a → u.jes.lane[i.val] = s.jes.lane[i.val]) ∧ phases u ∧
        u = { s with regs := u.regs, now := u.now, jes := { s.jes with lane := u.jes.lane, data := u.jes.data } } ∧ WordsKept s u (fieldWords JES_CAUSE.unlock)
      (x.lock = false → x.good < 63 → Completes (.syncHeaderLock a true emb) s (lane { x with good := x.good + 1 })) ∧
      (x.lock = false → x.good = 63 → Completes (.syncHeaderLock a true emb) s (lane ⟨0, 0, 0, true, emb⟩)) ∧
      (x.lock = false → Completes (.syncHeaderLock a false emb) s (lane { x with good := 0 })) ∧
      (x.lock = true → x.bad = 15 → Completes (.syncHeaderLock a false emb) s (lane ⟨0, 0, 0, false, false⟩)) ∧
      (x.lock = true → x.bad < 15 → x.seen < 63 → Completes (.syncHeaderLock a false emb) s (lane { x with seen := x.seen + 1, bad := x.bad + 1, emb := emb }) ∧
        Completes (.syncHeaderLock a true emb) s (lane { x with seen := x.seen + 1, emb := emb })) ∧
      (x.lock = true → x.bad < 15 → x.seen = 63 → ∀ v, Completes (.syncHeaderLock a v emb) s (lane { x with seen := 0, bad := 0, emb := emb }))) ∧
    (∀ (k : Fin 8) (arr : BitVec 16) (crc : BitVec 32), Crossing.jesdRx k ∉ s.pwr.oneSided → s.jes.data.getLsbD k.val = true →
      Completes (.lemcRelease k arr crc) s (fun u => u.get (JES_RXk_RBD.arr k) = arr.toNat ∧
        (∀ i, (u.get JES_CAUSE.rbd_late).testBit i = ((s.get JES_CAUSE.rbd_late).testBit i || decide (i = k.val ∧ s.get (JES_RXk_RBD.rbd k) < arr.toNat))) ∧
        (∀ i, (u.get JES_CAUSE.crc).testBit i = ((s.get JES_CAUSE.crc).testBit i || decide (i = k.val ∧ crc ≠ 0))) ∧
        u.get (JES_RXk_CRC.count k) = Nat.min (s.get (JES_RXk_CRC.count k) + crc.toNat) 4294967295 ∧
        (let words := [JES_RXk_RBD.reg k, JES_RXk_CRC.reg k] ++ fieldWords JES_CAUSE.rbd_late ++ fieldWords JES_CAUSE.crc;
          (crc = 0 → WordsKept s u words) ∧ (crc = 1 → Logged 5 0 k.val 0 s u ∧ WordsKept s u (words ++ logWords s))) ∧
        (arr.toNat ≤ s.get (JES_RXk_RBD.rbd k) → u.jes = s.jes) ∧
        (s.get (JES_RXk_RBD.rbd k) < arr.toNat → (u.jes.zeros[k.val]).head? =
          some (s.ntQuarters, s.ntQuarters + (lemcPeriod (s.jesd false k) (s.get CLK_CFG.div)).ceil.toNat)) ∧
        (∀ i : Fin 8, i ≠ k → u.jes.zeros[i.val] = s.jes.zeros[i.val]) ∧
        u = { s with regs := u.regs, now := u.now, jes := { s.jes with zeros := u.jes.zeros } })) ∧
    (∀ (np : Bool) (lanes f n sn : Nat) (xs : List (List (BitVec 32))), xs.length = n → (∀ x ∈ xs, x.length = sn) →
      8 * f * lanes = 2 * n * sn * (if np = true then 12 else 16) → jesdUnpack np n sn (jesdPack np lanes f xs) = xs.map (List.map (jesdCarry np))) ∧
    (∀ (sec : BitVec 48) (qns : Fin 4000000000), (∀ m, s.jes.edge = some m → 18 ≤ s.since m) →
      let q := lessLatency sec qns.val (s.cal 415)
      let b := q + s.get JES_SYSREF.off * 40 / 11
      let mode := s.get JES_SYSREF.mode
      Completes (.sysrefEdge sec qns) s (fun u =>
        u.get JES_SRTS.sec = qSec q % 2 ^ 32 ∧ u.get JES_SRTS.ns = qBelow q / 4 ∧ u.get JES_SRTS.qns = qBelow q % 4 ∧ u.jes.edge = some s.mono ∧
        u.jes.lemc = (if mode = 2 ∨ (mode = 1 ∧ s.jes.aligned = false) then some b else s.jes.lemc) ∧
        u.jes.aligned = (s.jes.aligned || decide (mode = 1 ∨ mode = 2)) ∧
        u.get JES_CAUSE.sr_mis = (if 2 ≤ mode ∧ s.sysrefOff b = true then 1 else s.get JES_CAUSE.sr_mis) ∧
        u = { s with regs := u.regs, now := u.now, jes := { s.jes with edge := u.jes.edge, lemc := u.jes.lemc, aligned := u.jes.aligned } } ∧
        WordsKept s u (JES_SRTS.reg :: (JES_SRTS.reg + 4) :: fieldWords JES_CAUSE.sr_mis)))

/-- Apsis flits: acknowledgement, order, forwarding, retry, replay and bring-up (R285, R286, R287, R288, R292, R297).
A flit's 272 bytes read back as it, with a good CRC, and are received as its command. On an up link with nothing waiting to leave, an
accepted flit, IDLE and RETRY take the acknowledged flits out of the replay buffer and return credits. The next flit in seq is accepted,
has its type's effect (a request waits for service, a response completes its request, START reaches the engine in a barrier or sets start,
a reserved type sets badtype) or, for another chip, leaves on its route or sets noroute, and is acknowledged; a repeated one is dropped; a
gap, or a CRC error, which is logged, asks for a replay once; neither takes ack or credits. RETRY and the replay timer replay what is
held; after rmax replays the link goes down and sends INIT. INIT grants credits and brings the link up. -/
def Obligations.ApsisFlitsAreTakenInOrder : Prop :=
  (∀ (s : State) (p : Fin 32) (ty : Fin 16) (f : Flit) (arr : Int), f.payload.length = 256 →
    let bs := flitBytes ty f
    bs.length = 272 ∧ flitGood bs = true ∧ flitType bs = ty ∧ readFlit bs = f ∧
    receiveFlit p arr bs s = exec (if ty = 0 then .apsisIdle p f else if ty = 1 then .apsisRd p f else if ty = 2 then .apsisRdrsp p f
      else if ty = 3 then .apsisWr p f else if ty = 4 then .apsisWrack p f else if ty = 5 then .apsisTime p f (readTime f) arr
      else if ty = 6 then .apsisStart p f else if ty = 7 then .apsisRetry p f else if ty = 8 then .apsisInit p f
      else .apsisReservedType p (Fin.ofNat 7 (ty.val - 9)) f) s) ∧
  ∀ (s : State) (p : Fin 32) (f : Flit) (ty : Fin 7) (r : TimeRec) (arr : Int), Runs (portUnitOf p) 4 s → Regs.wf s = true → s.apxUp p = true →
    let x := s.link p
    let hit := x.unacked.findIdx? fun o => decide (o.f.seq = f.ack)
    let kept : List OutFlit := hit.elim x.unacked (fun i => x.unacked.drop (i + 1))
    let tries : Nat := hit.elim x.replays (fun _ => 0)
    let acked (y : ApxLink) : Prop := y.unacked = kept ∧ (∀ v : Fin 3, y.cred[v] = x.cred[v] + if f.crdvc.val = v.val then f.crd.val else 0) ∧
      y.seq = x.seq ∧ y.wait = []
    let links (u : State) : Prop := (∀ o : Fin 32, o ≠ p → u.link o = s.link o) ∧ u.get (APX_Lp_STAT.unacked p) = (u.link p).unacked.length
    let only (u : State) : Prop := links u ∧ u = { s with regs := u.regs, now := u.now, apx := { s.apx with link := u.apx.link } }
    let words (as : List Nat) (u : State) : Prop := WordsKept s u (fieldWords (APX_Lp_STAT.unacked p) ++ as)
    let took (u : State) : Prop := acked (u.link p) ∧ (u.link p).expect = x.expect + 1 ∧ (u.link p).reject = false ∧
      ∃ g, (u.link p).out = x.out ++ [⟨0, g, none⟩] ∧ g.ack = f.seq
    let asks (y : ApxLink) : Prop := y.reject = true ∧ y.expect = x.expect ∧ if x.reject = true then y.out = x.out else
      ∃ g, y.out = x.out ++ [⟨7, g, none⟩] ∧ g.ack = x.expect - 1
    let begun (y : ApxLink) : Prop := y.unacked = [] ∧ y.seq = 0 ∧ y.expect = 0 ∧ ∃ g, y.out = x.out ++ [⟨8, g, none⟩] ∧
      nthD g.payload 0 0 = BitVec.ofNat 8 (s.get APX_CFG.id) ∧ nthD g.payload 4 0 = 64 ∧ nthD g.payload 5 0 = 64 ∧ nthD g.payload 6 0 = 16
    let down (u : State) : Prop := begun (u.link p) ∧ u.get (APX_Lp_STAT.state p) = 1 ∧ (u.get APX_CAUSE.down).testBit p.val = true ∧ only u ∧
      words (fieldWords (APX_Lp_STAT.state p) ++ fieldWords APX_CAUSE.down) u
    let replayed (fs : List OutFlit) (u : State) : Prop := (u.link p).out = x.out ++ fs ∧ Counted (APX_Lp_CNT.rep p) s u ∧ only u ∧
      words (fieldWords (APX_Lp_CNT.rep p)) u
    let seqs : List Instr := [.apsisRd p f, .apsisRdrsp p f, .apsisWr p f, .apsisWrack p f, .apsisStart p f, .apsisTime p f r arr, .apsisReservedType p ty f]
    x.wait = [] → x.unacked.length ≤ 512 →
    (s.get (APX_Lp_STAT.state p) = 2 →
      Completes (.apsisIdle p f) s (fun u => acked (u.link p) ∧ (u.link p).out = x.out ∧ (u.link p).expect = x.expect ∧ only u ∧ words [] u) ∧
      (f.seq = x.expect → f.dst = s.apxId →
        Completes (.apsisRd p f) s (fun u => took u ∧ links u ∧ words [] u ∧ u = { s with regs := u.regs, now := u.now, apx := { s.apx with link := u.apx.link, serve := s.apx.serve ++ [⟨p, false, f⟩] } }) ∧
        Completes (.apsisWr p f) s (fun u => took u ∧ links u ∧ words [] u ∧ u = { s with regs := u.regs, now := u.now, apx := { s.apx with link := u.apx.link, serve := s.apx.serve ++ [⟨p, true, f⟩] } }) ∧
        (s.requestOf f.src f.tag false = none → Completes (.apsisRdrsp p f) s (fun u => took u ∧ only u ∧ words [] u)) ∧
        (s.requestOf f.src f.tag true = none → Completes (.apsisWrack p f) s (fun u => took u ∧ only u ∧ words [] u)) ∧
        (∀ (q : ApxReq) (w : Bool), s.requestOf f.src f.tag w = some q → Completes (if w = true then .apsisWrack p f else .apsisRdrsp p f) s (fun u =>
          took u ∧ links u ∧ words [DMA_Qn_STAT.reg (Fin.ofNat 8 (q.queue.val / 32)) (Fin.ofNat 32 (q.queue.val % 32))] u ∧ (∀ y ∈ u.apx.reqs, y.dst ≠ f.src ∨ y.tag ≠ f.tag) ∧ (∀ y ∈ s.apx.reqs, y.dst ≠ f.src ∨ y.tag ≠ f.tag → y ∈ u.apx.reqs) ∧
          u = { s with regs := u.regs, now := u.now, apx := { s.apx with link := u.apx.link, reqs := u.apx.reqs }, mv := { s.mv with q := u.mv.q } } ∧
          (∀ i : Fin 256, i ≠ q.queue → u.mv.q[i.val] = s.mv.q[i.val]) ∧
          u.mv.q[q.queue.val] = if w = true then { s.mv.q[q.queue.val] with wout := s.mv.q[q.queue.val].wout - 1 } else s.mv.q[q.queue.val].gotParts q.parts (payloadBytes f (f.len.toNat + 1)))) ∧
        ((∀ n, s.barrierOf n = none) → Completes (.apsisStart p f) s (fun u => took u ∧ u.get APX_CAUSE.start = 1 ∧ only u ∧ words (fieldWords APX_CAUSE.start) u)) ∧
        (∀ (n : Fin 8) (since : BitVec 64), s.barrierOf n = some (nthD f.payload 0 0, since) → (∀ m, m ≠ n → s.barrierOf m = none) →
          let t := natOfBytes ((f.payload.drop 4).take 8) % 2 ^ 33 % 5033164800
          0 < airDiff t (s.airIn (s.engine n).tl 15) → Completes (.apsisStart p f) s (fun u => took u ∧ links u ∧ u.ta n 0 = t ∧ u.get (ORR_ENGn_STAT.state n) = 2 ∧
            u = { s with regs := u.regs, now := u.now, orr := u.orr, apx := { s.apx with link := u.apx.link } } ∧ ∀ m : Fin 8, m ≠ n → u.engine m = s.engine m))) ∧
      (f.seq = x.expect → Completes (.apsisReservedType p ty f) s (fun u => took u ∧ u.get APX_CAUSE.badtype = 1 ∧ only u ∧ words (fieldWords APX_CAUSE.badtype) u)) ∧
      (f.seq ≠ x.expect → (x.expect - f.seq).toNat ≤ 512 → ∀ c ∈ seqs, Completes c s (fun u => u = s)) ∧
      (f.seq ≠ x.expect → 512 < (x.expect - f.seq).toNat → ∀ c ∈ seqs, Completes c s (fun u => (u.link p).unacked = x.unacked ∧ (u.link p).cred = x.cred ∧
        asks (u.link p) ∧ only u ∧ words [] u)) ∧
      (f.seq = x.expect → f.dst ≠ s.apxId → ∀ c ∈ [(Instr.apsisRd p f, (1 : Fin 16), (0 : Fin 3)), (.apsisRdrsp p f, 2, 1), (.apsisWr p f, 3, 0), (.apsisWrack p f, 4, 1), (.apsisStart p f, 6, 2)],
        (s.get (APX_ROUTE.valid f.dst) = 0 → Completes c.1 s (fun u => took u ∧ u.get APX_CAUSE.noroute = 1 ∧ only u ∧ words (fieldWords APX_CAUSE.noroute) u)) ∧
        (∀ o : Fin 32, s.get (APX_ROUTE.valid f.dst) = 1 → s.get (APX_ROUTE.port f.dst) = o.val → o ≠ p → LinkReady o c.2.2 s → Completes c.1 s (fun u => took u ∧
          (∃ g, Leaves o c.2.2 ⟨c.2.1, g, none⟩ s u ∧ g = { f with seq := g.seq, ack := g.ack, crd := g.crd, crdvc := g.crdvc }) ∧
          u = { s with regs := u.regs, now := u.now, apx := { s.apx with link := u.apx.link } } ∧ ∀ i : Fin 32, i ≠ o → i ≠ p → u.link i = s.link i))) ∧
      (kept = [] → Completes (.apsisRetry p f) s (fun u => acked (u.link p) ∧ (u.link p).out = x.out ∧ only u ∧ words [] u)) ∧
      (kept ≠ [] → tries < s.get (APX_Lp_CFG.rmax p) → Completes (.apsisRetry p f) s (fun u => acked (u.link p) ∧ (u.link p).replays = tries + 1 ∧ replayed kept u)) ∧
      (kept ≠ [] → s.get (APX_Lp_CFG.rmax p) ≤ tries → Completes (.apsisRetry p f) s down) ∧
      (s.get (APX_Lp_CFG.tmo p) * 220 ≤ s.since x.progress → x.unacked ≠ [] →
        (x.replays < s.get (APX_Lp_CFG.rmax p) → Completes (.replayTimer p) s (fun u => (u.link p).replays = x.replays + 1 ∧ (u.link p).unacked = x.unacked ∧ replayed x.unacked u)) ∧
        (s.get (APX_Lp_CFG.rmax p) ≤ x.replays → Completes (.replayTimer p) s down)) ∧
      Completes (.apsisFlitCrcError p) s (fun u => Counted (APX_Lp_CNT.crc p) s u ∧ asks (u.link p) ∧ (u.link p).unacked = x.unacked ∧ Logged 5 0 p.val 0 s u ∧ only u ∧
        words (fieldWords (APX_Lp_CNT.crc p) ++ logWords s) u)) ∧
    Completes (.apsisInit p f) s (fun u => u.get (APX_Lp_STAT.state p) = 2 ∧ (∀ v : Fin 3, (u.link p).cred[v] = (nthD f.payload (4 + v.val) 0).toNat) ∧
      (s.get (APX_Lp_STAT.state p) = 1 → u.link p = { x with cred := (u.link p).cred }) ∧ (s.get (APX_Lp_STAT.state p) ≠ 1 → begun (u.link p)) ∧
      u.get (APX_Lp_STAT.rtt p) = (Config.freeValue 32 s.fresh).toNat ∧ links u ∧ u = { s with regs := u.regs, now := u.now, apx := { s.apx with link := u.apx.link }, fresh := s.fresh + 1 })

/-- Apsis: service of remote requests, time-outs, and the time exchange (R127, R289, R291).
With remote-share slots the oldest request within LPDDR6 is served: a WR writes its bytes and no other, a RD reads len bytes, and the
answer with its tag leaves on the route to its source; one outside drops its write or reads zeros, sets addr and is answered. A request
unanswered for rtmo µs completes and sets rtmo. At a new millisecond of NT with phase_src 2 a TIME request leaves to the reference; a TIME
request is answered with its arrival; a reply within 100 µs of t1 gives the servo θ of R291; after 100 µs the exchange is discarded. The
instants of departure are free values (log entry 26). -/
def Obligations.ApsisRequestsAndTime : Prop :=
  ∀ (s : State), Regs.wf s = true → Memory.wf s = true → NoErrors s →
    let answers (o : Fin 32) (f : Flit) (ty : Fin 16) (data : List (BitVec 8)) (u : State) : Prop := ∃ g, Leaves o 1 ⟨ty, g, none⟩ s u ∧ g.dst = f.src ∧
      g.src = s.apxId ∧ g.tag = f.tag ∧ g.len = f.len ∧ g.payload = data
    let routed (d : Fin 8) (o : Fin 32) (v : Fin 3) : Prop := s.get (APX_ROUTE.valid d) = 1 ∧ s.get (APX_ROUTE.port d) = o.val ∧ LinkReady o v s
    (Runs 83 1 s → s.mv.mem.slots 2 ≠ 0 → ∀ (x : ApxServe) (rest : List ApxServe) (o : Fin 32), s.apx.serve = x :: rest → routed x.f.src o 1 →
      let a := x.f.addr.toNat
      let n := x.f.len.toNat + 1
      let served (u : State) : Prop := u.apx.serve = rest ∧ u.apx.reqs = s.apx.reqs ∧ u.apx.exch = s.apx.exch ∧
        u = { s with regs := u.regs, now := u.now, apx := u.apx, mem := u.mem, flaws := u.flaws }
      (a + n ≤ 0xF00000000 → s.regionOn .lpddr = true →
        (x.write = true → Completes .remoteRequestService s (fun u => answers o x.f 4 [] u ∧ served u ∧
          (∀ i, i < n → u.byte (a + i) = nthD x.f.payload i 0) ∧ ∀ z, z < a ∨ a + n ≤ z → u.byte z = s.byte z)) ∧
        (x.write = false → Completes .remoteRequestService s (fun u => answers o x.f 2 (s.bytes a n) u ∧ served u ∧ u.mem = s.mem))) ∧
      (0xF00000000 ≤ a → Completes .remoteRequestService s (fun u => u.get APX_CAUSE.addr = 1 ∧ served u ∧ u.mem = s.mem ∧
        answers o x.f (if x.write = true then 4 else 2) (if x.write = true then [] else List.replicate n 0) u))) ∧
    (Runs 83 1 s → s.mv.mem.slots 2 = 0 → Completes .remoteRequestService s (fun u => u = s)) ∧
    (Runs 82 4 s → ∀ (d : Fin 8) (tag : BitVec 8) (q : ApxReq), s.apx.reqs.find? (fun q => decide (q.dst = d) && decide (q.tag = tag)) = some q →
      (s.since q.at_ < s.get APX_CFG.rtmo * 2200 → Completes (.requestTimeout d tag) s (fun u => u = s)) ∧
      (s.get APX_CFG.rtmo * 2200 ≤ s.since q.at_ → Completes (.requestTimeout d tag) s (fun u => u.get APX_CAUSE.rtmo = 1 ∧
        (∀ y ∈ u.apx.reqs, y.dst ≠ d ∨ y.tag ≠ tag) ∧ (∀ y ∈ s.apx.reqs, y.dst ≠ d ∨ y.tag ≠ tag → y ∈ u.apx.reqs) ∧
        (∀ i : Fin 256, i ≠ q.queue → u.mv.q[i.val] = s.mv.q[i.val]) ∧
        u.mv.q[q.queue.val] = (if q.write = true then { s.mv.q[q.queue.val] with wout := s.mv.q[q.queue.val].wout - 1 } else
          s.mv.q[q.queue.val].gotParts q.parts (List.replicate 256 0)) ∧
        u = { s with regs := u.regs, now := u.now, apx := { s.apx with reqs := u.apx.reqs }, mv := { s.mv with q := u.mv.q } } ∧ WordsKept s u (DMA_Qn_STAT.reg (Fin.ofNat 8 (q.queue.val / 32)) (Fin.ofNat 32 (q.queue.val % 32)) :: fieldWords APX_CAUSE.rtmo)))) ∧
    (Runs 82 4 s → s.get TMB_CTL.phase_src = 2 → s.apx.ms < s.tb.nt.total / (1000000 * Config.ntFrac) → ∀ o : Fin 32, s.get APX_CFG.tport = o.val → LinkReady o 2 s →
      Completes .timeTransfer s (fun u => (∃ n, n ≤ 2 ^ 32 ∧ u.apx.exch = some ((s.nt16 + n : Nat) : Int)) ∧ u.apx.ms = s.tb.nt.total / (1000000 * Config.ntFrac) ∧
        (∃ g, Leaves o 2 ⟨5, g, some ⟨false, 0, 0, 0, 0⟩⟩ s u ∧ g.dst.val = s.get APX_CFG.ref ∧ g.src = s.apxId) ∧
        (∀ i : Fin 32, i ≠ o → u.link i = s.link i) ∧ u = { s with regs := u.regs, now := u.now, apx := u.apx, fresh := s.fresh + 1 })) ∧
    (Runs 82 4 s → ∀ t1, s.apx.exch = some t1 →
      (6553600000 ≤ (s.nt16 : Int) - t1 → Completes .timeExchangeTimeout s (fun u => u = { s with apx := { s.apx with exch := none } })) ∧
      ((s.nt16 : Int) - t1 < 6553600000 → Completes .timeExchangeTimeout s (fun u => u = s))) ∧
    ∀ (p : Fin 32) (f : Flit) (r : TimeRec) (arr : Int), Runs (portUnitOf p) 4 s → s.apxUp p = true → s.get (APX_Lp_STAT.state p) = 2 →
      (s.link p).wait = [] → f.seq = (s.link p).expect → f.dst = s.apxId →
      (r.reply = false → ∀ o, o ≠ p → routed f.src o 2 → Completes (.apsisTime p f r arr) s (fun u =>
        (∃ g n, n ≤ 2 ^ 32 ∧ Leaves o 2 ⟨5, g, some ⟨true, arr, ((s.nt16 + n : Nat) : Int), r.cf1, 0⟩⟩ s u ∧ g.dst = f.src) ∧ u.apx.exch = s.apx.exch ∧
        (u.link p).expect = f.seq + 1 ∧ u.tb = s.tb ∧ u.mem = s.mem)) ∧
      (r.reply = true → ∀ t1, s.apx.exch = some t1 →
        (arr - t1 < 6553600000 → s.get TMB_CTL.phase_src = 2 → Completes (.apsisTime p f r arr) s (fun u =>
          let θ : Rat := (((s.getS APX_TASYM.a : Int) : Rat) - ((r.t2 - t1 - r.cf1 - (arr - r.t3 - r.cf2) : Int) : Rat) / 2) / 65536
          u.apx.exch = none ∧ u.get TMB_STAT.phase_ok = 1 ∧ u.tb.lastUpd = some s.tb.mono ∧ (u.link p).expect = f.seq + 1 ∧ u.mem = s.mem ∧
          (s.flag TMB_CTL.servo_en = true → (s.get TMB_STAT.state = 2 → s.flag TMB_CTL.ho_force = false) →
            u.tb.integ = s.tb.integ + gain (s.get TMB_KI.m) (s.get TMB_KI.s) * θ ∧ u.tb.yp = -(gain (s.get TMB_KP.m) (s.get TMB_KP.s) * θ + u.tb.integ)))) ∧
        (6553600000 ≤ arr - t1 → Completes (.apsisTime p f r arr) s (fun u => u.apx.exch = none ∧ u.tb = s.tb ∧ (u.link p).expect = f.seq + 1 ∧ u.mem = s.mem)))

/-- Remaps, copies, sudden loss, handover and phase drop: from the failure of a unit to the written map (R293, R294, R295, R303, R306, R307, R308, R311, R322).
A failed unit of kinds 4 to 11, or a tile that no context holds, with a spare that no other move concerns begins a move that ends within
its bound, the samples of a chain being zeros from now on; without one it becomes absent, with exhaust, and for a tile replan. A memory
unit that fails outright is mapped to its spare at once, reads as zeros, and sets lost. At the end of a move, and of a copy whose lines
are done, the map takes the spare, the move is recorded, logged with class 7, and done set; an engine job in progress goes on, its time
counted anew. A scrub goes to the next line, or copies it. A first phase fault is dropped; a second one puts the domain in state 3 and
fails its units. -/
def Obligations.FailedUnitsMoveToSpares : Prop :=
  ∀ (s : State) (k : Fin 16) (u : Fin 256) (p : Nat), Regs.wf s = true → Memory.wf s = true →
    let clear : Prop := ∀ m ∈ s.rep.moves, m.kind = k.val → m.unit ≠ u.val ∧ m.spare ≠ p
    let old := s.key k u
    let starts (lo hi : Nat) (w : State) : Prop := (∃ d, lo ≤ d ∧ d ≤ hi ∧
      w.rep = { s.rep with moves := s.rep.moves ++ [⟨.remap, k, u, p, s.pwr.ck + BitVec.ofNat 64 d, 0, false⟩] }) ∧ w.get PWR_REP_STAT.busy = 1 ∧
      w = { s with rep := w.rep, regs := w.regs, now := w.now, fe := w.fe, fresh := s.fresh + 1 } ∧ WordsKept s w [PWR_REP_STAT.reg] ∧
      (k.val ≠ 4 → k.val ≠ 5 → w.fe = s.fe) ∧ (k.val = 4 → ((w.rxc (Fin.ofNat 64 u)).zeroFrom).isSome = true)
    let noted (e : RepEntry) (w : State) : Prop := s.rep.record.length < 256 → w.rep.record = s.rep.record ++ [e]
    let moved (req : Bool) (w : State) : Prop := w.get PWR_REP_CAUSE.done = 1 ∧ w.get PWR_REP_STAT.kind = k.val ∧ w.get PWR_REP_STAT.unit = u.val ∧
      (req = true → w.get PWR_REP_STAT.res = 0) ∧ Logged 7 k u 0 s w
    (Runs 80 0 s → unitExists k u = true → s.absent k u = false → clear →
      ((k.val, u.val) ∈ s.rep.failed → s.kindReady k = true →
        (4 ≤ k.val → k.val ≤ 11 → s.chooseSpare k u = some p → Completes (.remap k u false) s (starts 0 24200)) ∧
        (k.val = 0 → s.ownerOf (Fin.ofNat 64 u) = none → s.chooseSpare k u = some p → Completes (.remap k u false) s (starts 24200 28600)) ∧
        (k.val = 0 ∨ 4 ≤ k.val ∧ k.val ≤ 11 → (k.val = 0 → s.ownerOf (Fin.ofNat 64 u) = none) → s.chooseSpare k u = none → Completes (.remap k u false) s (fun w =>
          w.absent k u = true ∧ w.get PWR_REP_CAUSE.exhaust = 1 ∧ (k.val = 0 → w.get PWR_REP_CAUSE.replan = 1) ∧
          (k.val, u.val) ∉ w.rep.failed ∧ noted ⟨k, u, old, none⟩ w ∧ w.mem = s.mem ∧ w.tiles = s.tiles))) ∧
      (1 ≤ k.val → k.val ≤ 3 → s.chooseSpare k u = some p → Completes (.remap k u true) s (fun w =>
        w.phys k u = (if k.val = 1 then p % 32 else p) ∧ (∀ a, w.byte a = if inUnit k u a = true then 0 else s.byte a) ∧
        w.get PWR_REP_CAUSE.lost = 1 ∧ (k.val, u.val) ∈ w.rep.lost ∧ noted ⟨k, u, old, some p⟩ w ∧ moved false w))) ∧
    (Runs 80 0 s → ∀ m, m ∈ s.rep.moves → m.kind = k.val → m.unit = u.val → m.spare = p → (∀ y ∈ s.rep.moves, y.kind = k.val → y.unit = u.val → y = m) →
      unitExists k u = true →
      (m.op = .remap → monoLe m.due s.pwr.ck = true → s.kindReady k = true → p < 72 →
        let switched (w : State) : Prop := w.phys k u = p ∧ (k.val, u.val) ∉ w.rep.failed ∧ m ∉ w.rep.moves ∧ noted ⟨k, u, old, some p⟩ w ∧ moved m.req w
        (k.val = 5 ∨ k.val = 12 ∨ k.val = 13 → Completes (.remapDone k u) s (fun w => switched w ∧ w.mem = s.mem ∧ w.tiles = s.tiles ∧ w.hard = s.hard ∧
          (k.val = 12 → (w.get ACX_HPARK.evict).testBit u = false) ∧ (k.val = 5 → (w.fe.tx[(Fin.ofNat 64 u.val).val].zeroTo).isSome = true))) ∧
        (k.val = 0 → Completes (.remapDone k u) s (fun w => switched w ∧ w.domOn p = true ∧ (old ≠ p → old < 96 → w.domOn old = false) ∧
          w.tile (Fin.ofNat 64 u) = Tile.reset ∧ (∀ t, t ≠ Fin.ofNat 64 u.val → w.tile t = s.tile t) ∧
          ∀ a, w.byte a = if inUnit 0 u a = true then 0 else s.byte a)) ∧
        (k.val = 4 → Completes (.remapDone k u) s (fun w => switched w ∧ ((w.rxc (Fin.ofNat 64 u)).zeroTo).isSome = true ∧ w.mem = s.mem)) ∧
        (k.val = 11 → (s.engine (Fin.ofNat 8 u)).group = none → Completes (.remapDone k u) s (fun w => switched w ∧ w.orr = s.orr ∧ w.mem = s.mem)) ∧
        (∀ c j, kindCls k = some c → (s.unit c u).job = some j → ¬(c = 3 ∧ j.moved = true ∧ lHarq j.desc = 2) → Completes (.remapDone k u) s (fun w =>
          switched w ∧ w.unit c u = { s.unit c u with job := some { j with at_ := s.mono } } ∧ w.mem = s.mem))) ∧
      (m.op = .copy → 1 ≤ k.val → k.val ≤ 3 → p < 256 → (if k.val = 3 then monoLe m.due s.pwr.ck = true else 16384 ≤ m.done) → Completes (.copySwitch k u) s (fun w =>
        w.phys k u = (if k.val = 1 then p % 32 else p % 128) ∧ m ∉ w.rep.moves ∧ noted ⟨k, u, old, some p⟩ w ∧ moved m.req w ∧ w.mem = s.mem))) ∧
    (∀ b : Fin 144, Runs (if b.val < 128 then 72 + b.val / 16 else 82) 1 s → s.mono.toNat % 64 = 63 → s.rep.lost = [] → Sparse.wf (fun _ => 0) s.rep.scrub = true →
      let bk := if b.val < 128 then 1 else 2
      let bu := if b.val < 128 then b.val else b.val - 128
      let i := num s.rep.scrub b
      let nextLine (w : State) : Prop := ∀ n, num w.rep.scrub n = if n = b.val then (i + 1) % 16384 else num s.rep.scrub n
      s.absent bk bu = false →
      (s.flaws = [] → (∀ m ∈ s.rep.moves, m.op ≠ .copy ∨ m.kind ≠ bk ∨ m.unit ≠ bu) → Completes (.scrub b) s (fun w => nextLine w ∧
        w = { s with rep := { s.rep with scrub := w.rep.scrub } })) ∧
      (∀ x, s.flaws = [(bankLine b i / 8 + x, 1)] → x < 8 → i < 16384 → s.get (PWR_REP_THRk.ms bk) = 0 → (∀ m ∈ s.rep.moves, m.op ≠ .copy ∨ m.kind ≠ bk ∨ m.unit ≠ bu) →
        Completes (.scrub b) s (fun w => nextLine w ∧ w.flaws = [] ∧ Logged 0 bk bu (bankLine b i + 8 * x) s w ∧ w.mem = s.mem)) ∧
      (∀ m ∈ s.rep.moves, s.flaws = [] → m.op = .copy → m.kind = bk → m.unit = bu → m.done < 16384 →
        (∀ y ∈ s.rep.moves, y.op = .copy → y.kind = bk → y.unit = bu → y = m) → Completes (.scrub b) s (fun w =>
          { m with done := m.done + 1 } ∈ w.rep.moves ∧ w.rep.scrub = s.rep.scrub ∧ w = { s with rep := { s.rep with moves := w.rep.moves }, regs := w.regs, now := w.now } ∧
          WordsKept s w [PWR_REP_STAT.reg]))) ∧
    (Runs 80 0 s → k.val = 13 → u.val = 0 → s.absent 13 0 = false → clear → s.chooseSpare 13 0 = some p → Completes .lockstepMismatch s (starts 0 2200000)) ∧
    (∀ d : Fin 96, Runs 80 0 s → s.domOn d = true → 1 ≤ s.get (PWR_DOMd.phok d) →
      (s.get (PWR_DOMd.nph d) ≤ s.get (PWR_DOMd.phok d) → Completes (.phaseFault d) s (fun w => w.get (PWR_DOMd.phok d) = s.get (PWR_DOMd.phok d) - 1 ∧
        w.get PWR_REP_CAUSE.done = 1 ∧ w.get PWR_REP_STAT.kind = 14 ∧ w.get PWR_REP_STAT.unit = d.val ∧ Logged 7 14 d 0 s w ∧
        w = { s with regs := w.regs, now := w.now } ∧ WordsKept s w ([PWR_DOMd.reg d, PWR_REP_STAT.reg, PWR_REP_LEFT.reg, PWR_REP_LEFT.reg + 4] ++ logWords s))) ∧
      (s.get (PWR_DOMd.phok d) < s.get (PWR_DOMd.nph d) → Completes (.phaseFault d) s (fun w => nthD w.pwr.dom.toList d 0 = 3 ∧ w.get PWR_CAUSE.dom_fault = 1 ∧
        w.get (PWR_DOMd.phok d) = s.get (PWR_DOMd.phok d) - 1 ∧ ∀ x ∈ s.domUnits d, s.absent x.1 x.2 = false → x ∈ w.rep.failed)))

/-- Threshold windows, self-test segments, rotations, repair requests, and updates through the spares (R297, R300, R301, R302, R312, R315, R356, R364).
At a window boundary the counts of a class are 0. With no segment running the unit next in order is tested for 2 µs; its last segment ends
its test of the period, a failed one is logged with class 3 and fails the unit. A due unit of kinds 4 to 10 rotates at once at an instant
that allows it, its released unit being tested for 50 µs, then the spare, or recorded as failed. A due spare is tested for 50 µs, a tile's
for 300 µs. PWR_REP_REQ keeps its fields and is ignored while busy; it moves, rotates or refuses. A firmware image that fails gives res =
3, a good one extends MR1 and hands over within 1 ms; a good microcode image extends MR3 or MR4 and sets upd. -/
def Obligations.TestsRotationsRequestsAndUpdates : Prop :=
  ∀ (s : State) (k : Fin 16) (u : Fin 256) (p : Nat), Runs 80 0 s → Regs.wf s = true →
    let clear : Prop := ∀ m ∈ s.rep.moves, m.kind = k.val → m.unit ≠ u.val ∧ m.spare ≠ p
    let old := s.key k u
    let moves (m : RepMove) (w : State) : Prop := w.rep.moves = s.rep.moves ++ [m]
    let rotated (req : Bool) (w : State) : Prop := w.phys k u = p ∧ moves ⟨.rotate, k, u, old, s.pwr.ck + 110000, 2, req⟩ w ∧
      Logged 7 k u 0 s w ∧ w.get PWR_REP_CAUSE.done = 1 ∧ w.get PWR_REP_STAT.kind = k.val ∧ w.get PWR_REP_STAT.unit = u.val ∧
      num w.rep.tested (4096 + 256 * k + u) = s.bistPeriod ∧ w = { s with rep := w.rep, regs := w.regs, now := w.now }
    (∀ c : Fin 8, s.get (PWR_REP_THRk.ms c) ≠ 0 → s.mono.toNat % (s.get (PWR_REP_THRk.ms c) * 2200000) = 0 → Sparse.wf (fun _ => 0) s.rep.counts = true →
      Completes (.thresholdWindow c) s (fun w => (∀ n, num w.rep.counts n = if n / 4096 = c.val then 0 else num s.rep.counts n) ∧
        w = { s with rep := { s.rep with counts := w.rep.counts } })) ∧
    (∀ x v, (∀ a b e, s.rep.seg = some (a, b, e) → (e - s.pwr.ck).toInt ≤ 0) → s.shedLevel = 0 → s.nextSegment = some (x, v) →
      Sparse.wf (fun _ => 0) s.rep.segs = true → Sparse.wf (fun _ => 0) s.rep.tested = true →
      let n := num s.rep.segs (256 * x + v) + 1
      let ran (w : State) : Prop := w.rep.seg = some (x, v, s.pwr.ck + 4400) ∧
        num w.rep.tested (256 * x + v) = (if segments x ≤ n then s.bistPeriod else num s.rep.tested (256 * x + v)) ∧
        num w.rep.segs (256 * x + v) = if segments x ≤ n then 0 else n
      (4 ≤ x ∧ x ≤ 7 ∧ s.testDue 0 x v = true ∧ s.absent x v = false ∧ ∃ y ∈ s.openWindows, 984 ≤ y.2 ∧ s.idleMarks y.1.set x v = true) ∧
      Completes (.selfTestSegment true) s (fun w => ran w ∧ w = { s with rep := w.rep, fe := w.fe } ∧ w.rep.failed = s.rep.failed ∧ (x ≠ 4 → w.fe = s.fe) ∧
        let c : Fin 64 := Fin.ofNat 64 v
        let t := s.atNow (s.get (DFE_RXc_CFG.at c))
        (x = 4 → ((w.rxc c).tested).head? = some (t, airAdd t 984))) ∧
      Completes (.selfTestSegment false) s (fun w => ran w ∧ (x, v) ∈ w.rep.failed ∧ Logged 3 x v 0 s w ∧ w.get PWR_REP_CAUSE.det = 1)) ∧
    (unitExists k u = true → s.absent k u = false → s.unitHeld k u = false → clear → 4 ≤ k.val → k.val ≤ 10 → s.kindReady k = true → s.rotSpare k u = some p →
      Sparse.wf (fun _ => 0) s.rep.segs = true → Sparse.wf (fun _ => 0) s.rep.tested = true →
      (s.get PWR_REP_CTL.rot = 1 → s.testDue 1 k u = true → s.shedLevel = 0 → s.rotAllowed k u = true → Completes (.rotation k (.logical u) true) s (rotated false)) ∧
      (s.get PWR_REP_STAT.busy = 0 → s.shedLevel = 0 → s.rotAllowed k u = true → Completes (.rotateRequest k u) s (fun w => rotated true w ∧ w.get PWR_REP_STAT.res = 0)) ∧
      (s.get PWR_REP_STAT.busy = 0 → s.rotAllowed k u = false → Completes (.rotateRequest k u) s (fun w => moves ⟨.rotate, k, u, p, s.pwr.ck, 0, true⟩ w ∧
        w.get PWR_REP_STAT.busy = 1 ∧ w.phys k u = s.phys k u))) ∧
    (∀ m, m ∈ s.rep.moves → m.op = .rotate → m.done = 2 → m.kind = k.val → m.unit = u.val → (∀ y ∈ s.rep.moves, y.kind = k.val → y.unit = u.val → y = m) →
      k.val ≠ 0 → monoLe m.due s.pwr.ck = true →
      Completes (.rotation k (.logical u) true) s (fun w => w.rep = { s.rep with moves := s.rep.moves.filter fun y => decide (y ≠ m) } ∧ w = { s with rep := w.rep, regs := w.regs, now := w.now } ∧
        WordsKept s w [PWR_REP_STAT.reg]) ∧
      Completes (.rotation k (.logical u) false) s (fun w => m ∉ w.rep.moves ∧ (k.val, m.spare) ∈ w.rep.bad ∧ Logged 3 k u 0 s w ∧ w.get PWR_REP_CAUSE.det = 1 ∧ w.phys k u = s.phys k u ∧
        (s.rep.record.length < 256 → w.rep.record = s.rep.record ++ [⟨k, u, m.spare, some old⟩]))) ∧
    (k.val ≠ 14 → ∀ pass : Bool,
      let test (due : BitVec 64) : RepMove := ⟨.spareTest, k, if k.val = 1 then 16 * (u.val / 32) else 0, u, due, 0, false⟩
      ((∀ m ∈ s.rep.moves, ¬(m.kind = k.val ∧ m.spare = u.val)) → u.val ∈ s.spares k → s.testDue 2 k u = true → s.kindReady k = true → s.shedLevel = 0 →
        Completes (.rotation k (.spare u) pass) s (fun w => moves (test (s.pwr.ck + if k.val = 0 then 660000 else 110000)) w ∧ (k.val = 0 → w.domOn u = true))) ∧
      (∀ due, s.rep.moves = [test due] → monoLe due s.pwr.ck = true → k.val ≠ 0 → Sparse.wf (fun _ => 0) s.rep.tested = true →
        Completes (.rotation k (.spare u) pass) s (fun w => w.rep.moves = [] ∧ num w.rep.tested (8192 + 256 * k + u) = s.bistPeriod ∧
          (pass = true → w.rep.bad = s.rep.bad) ∧ (pass = false → (k.val, u.val) ∈ w.rep.bad ∧ Logged 3 k u 0 s w ∧ w.get PWR_REP_CAUSE.det = 1)))) ∧
    (∀ img : List (BitVec 8),
      let asked (op : Nat) (w : State) : Prop := w.get PWR_REP_REQ.op = op ∧ w.get PWR_REP_REQ.kind = k.val ∧ w.get PWR_REP_REQ.unit = u.val
      let answered (op r : Nat) (w : State) : Prop := asked op w ∧ w.get PWR_REP_STAT.res = r ∧ RegsOnly [PWR_REP_REQ.reg, PWR_REP_STAT.reg] s w
      (s.get PWR_REP_STAT.busy = 1 → ∀ c ∈ [(Instr.moveRequest k u, 0), (.rotateRequest k u, 1), (.managementFirmwareUpdate k u img, 2), (.repairRequestReserved k u, 3)],
        Completes c.1 s (fun w => asked c.2 w ∧ RegsOnly [PWR_REP_REQ.reg] s w)) ∧
      (s.get PWR_REP_STAT.busy = 0 →
        Completes (.repairRequestReserved k u) s (answered 3 2) ∧
        (unitExists k u = false ∨ s.absent k u = true ∨ (k.val = 12 ∧ (s.get ACX_HPARK.parked).testBit u = false) → Completes (.moveRequest k u) s (answered 0 2)) ∧
        (rotates k = false ∨ unitExists k u = false ∨ s.absent k u = true → Completes (.rotateRequest k u) s (answered 1 2)) ∧
        (unitExists k u = true → s.absent k u = false → (k.val = 12 → (s.get ACX_HPARK.parked).testBit u = true) → s.kindReady k = true → clear →
          (k.val ≤ 13 → k.val ≠ 12 → s.chooseSpare k u = none → Completes (.moveRequest k u) s (answered 0 1)) ∧
          (4 ≤ k.val → k.val ≤ 12 → s.chooseSpare k u = some p → Completes (.moveRequest k u) s (fun w => asked 0 w ∧ w.get PWR_REP_STAT.busy = 1 ∧
            ∃ d, d ≤ 24200 ∧ moves ⟨.remap, k, u, p, s.pwr.ck + BitVec.ofNat 64 d, 0, true⟩ w)) ∧
          (1 ≤ k.val → k.val ≤ 2 → s.chooseSpare k u = some p → Completes (.moveRequest k u) s (fun w => asked 0 w ∧ w.get PWR_REP_STAT.busy = 1 ∧
            moves ⟨.copy, k, u, p, s.pwr.ck, 0, true⟩ w))) ∧
        (s.freeSpares 13 = [] → Completes (.managementFirmwareUpdate k u img) s (answered 2 1)) ∧
        (s.freeSpares 13 ≠ [] → s.checkImage 0 img ≠ 0 → Completes (.managementFirmwareUpdate k u img) s (answered 2 3)) ∧
        (∀ q rest, s.freeSpares 13 = q :: rest → (∀ m ∈ s.rep.moves, m.kind = 13 → m.spare ≠ q) → s.checkImage 0 img = 0 → Completes (.managementFirmwareUpdate k u img) s (fun w => asked 2 w ∧
          (∃ d, d ≤ 2200000 ∧ moves ⟨.firmware, 13, 0, q, s.pwr.ck + BitVec.ofNat 64 d, 0, true⟩ w) ∧ w.get PWR_REP_STAT.busy = 1 ∧
          w.get (SEC_MRi.mr 1) = natOfBytes (sha512 (bytesOf 64 (s.get (SEC_MRi.mr 1)) ++ bytesOf 64 (Config.imageMeasure img).toNat))))) ∧
      (∀ orr : Bool, s.get PWR_REP_STAT.upd = 0 → (∃ b, b < (if orr = true then 1 else 8) ∧ (s.rotSpare (if orr = true then 11 else 0) (8 * b)).isSome = true ∧
          s.absent (if orr = true then 11 else 0) (8 * b) = false) →
        let r := if orr = true then 3 else 4
        (s.checkImage (if orr = true then 2 else 3) img = 0 → Completes (.microcodeUpdate orr img) s (fun w => w.get PWR_REP_STAT.upd = 1 ∧
          w.get (SEC_MRi.mr r) = natOfBytes (sha512 (bytesOf 64 (s.get (SEC_MRi.mr r)) ++ bytesOf 64 (Config.imageMeasure img).toNat)) ∧ w.mem = s.mem)) ∧
        (s.checkImage (if orr = true then 2 else 3) img ≠ 0 → Completes (.microcodeUpdate orr img) s (fun w => w = s))))

/-- Sequencing, inputs, domains, auxiliary outputs and load shedding (R319, R320, R321, R323, R324, R325, R326, R328, R329, R331, R332, R333).
Sequencing begins at step 1 with domain 80, and at each step the domains of the next one ramp; after step 5 the groups are released.
PORST_N low, VIN_OR below 9.0 V, level 3 and the loss of standby switch off every domain but 80, the last also 80. An input below 10.2 V
is lost, one at 10.8 V back. An AUX output beyond a limit latches off, as does the highest-numbered delivering one above 60 W in all.
Software switches only the domains that R319 marks, within 10 and 2 µs, their units in reset; none comes on after VIN_OR has fallen. A
reading sets tmax, the hottest sensor, the level with its hysteresis of 3 °C, and the causes; level 1 stops running class B contexts. -/
def Obligations.PowerFollowsInputsLoadsAndHeat : Prop :=
  ∀ (s : State), Regs.wf s = true →
    let dom (u : State) (d : Nat) : BitVec 2 := nthD u.pwr.dom.toList d 0
    let off (u : State) : Prop := ∀ d, d < 96 → d ≠ 80 → dom u d = 0
    let down (u : State) : Prop := off u ∧ dom u 80 = 2 ∧ u.pwr.auxOpen = true ∧ u.pwr.ramp = [] ∧ (s.pwr.step ≠ 0 → u.pwr.step = 7) ∧ ∀ n, n < 8 → u.get (PWR_AUXn.pout n) = 0
    let a_on (u : State) : Prop := (u.get PWR_VIN.a_on = 1 ↔ u.get PWR_VIN.va ≠ 0 ∧ u.get PWR_VIN.vb ≤ u.get PWR_VIN.va + 30)
    let b_on (u : State) : Prop := (u.get PWR_VIN.b_on = 1 ↔ u.get PWR_VIN.vb ≠ 0 ∧ u.get PWR_VIN.va ≤ u.get PWR_VIN.vb + 30)
    let own (d a : Nat) : Bool := if d = 86 then inBlocks [16] a || (inBlocks [15] a && !txRegs a) else if d = 87 then txRegs a else if d = 88 then inBlocks [17] a
      else if d = 89 then inBlocks [18, 19] a else if d = 91 then inBlocks [14] a else engineOf a = some (d - 92)
    let lanes : List Nat := fieldWords OPT_LANE.los ++ fieldWords OPT_LANE.apr ++ fieldWords (OPT_LIGHT.lvl 0)
    (∀ va vb : BitVec 16,
      (s.pwr.step = 0 → 10200 ≤ va.toNat ∨ 10200 ≤ vb.toNat → Completes (.powerUp va vb) s (fun u => u.pwr.step = 1 ∧ dom u 80 = 2 ∧ u.pwr.held = 62 ∧
        (∀ d, d ≠ 80 → dom u d = dom s d) ∧ (∃ n, n ≤ 4422000 ∧ u.pwr.ready = s.pwr.ck + BitVec.ofNat 64 n) ∧ u.get PWR_VIN.va = va.toNat ∧ u.get PWR_VIN.vb = vb.toNat ∧
        (u.get PWR_VIN.a_ok = 1 ↔ 10200 ≤ va.toNat) ∧ (u.get PWR_VIN.b_ok = 1 ↔ 10200 ≤ vb.toNat) ∧ a_on u ∧ b_on u ∧ u.word CLK_STAT.reg = 0x1F ∧ u.rep.record = s.rep.record ∧ u.mem = s.mem)) ∧
      (s.pwr.step ≠ 0 ∨ (va.toNat < 10200 ∧ vb.toNat < 10200) → Completes (.powerUp va vb) s (fun u => u = s))) ∧
    (s.domOn 80 = true →
      let up : Prop := ∀ d ∈ s.stepDomains s.pwr.step, s.domOn d = true
      (1 ≤ s.pwr.step → s.pwr.step ≤ 4 → up → monoLe (s.pwr.ready + 220000) s.pwr.ck = true → Completes .sequencingStep s (fun u => u.pwr.step = s.pwr.step + 1 ∧
        (∀ d, d < 96 → dom u d = if stepOf d = s.pwr.step + 1 ∧ (72 ≤ d ∨ d ∈ s.mapped 0) then 1 else dom s d) ∧
        (∃ n, n ≤ 22000 ∧ u.pwr.ready = s.pwr.ck + BitVec.ofNat 64 n) ∧ u.regs = s.regs ∧ u.mem = s.mem ∧
        ∀ d : Fin 96, stepOf d = s.pwr.step + 1 → (72 ≤ d.val ∨ d.val ∈ s.mapped 0) → (d, 2, u.pwr.ready) ∈ u.pwr.ramp)) ∧
      (¬up → Completes .sequencingStep s (fun u => u = s)) ∧
      (s.pwr.step = 5 → up → monoLe s.pwr.ready s.pwr.ck = true → Completes .sequencingStep s (fun u => u.pwr.step = 6 ∧
        (∀ g, 1 ≤ g → g ≤ 5 → u.held g = if s.pwr.resetLow = true then s.held g else false) ∧ u.pwr.dom = s.pwr.dom ∧ u.regs = s.regs ∧ u.mem = s.mem)) ∧
      Completes .standbyLoss s (fun u => off u ∧ dom u 80 = 0 ∧ u.pwr.held = 63 ∧ u.pwr.step = 0 ∧ u.pwr.auxOpen = true ∧ ((s.draw 1).1 = 1 → u.pwr.oneSided = []))) ∧
    (∀ both, Completes (.porstNLow both) s (fun u => off u ∧ dom u 80 = dom s 80 ∧ u.pwr.held = 63 ∧ u.pwr.step = 0)) ∧
    (s.pwr.step = 0 → Completes .standbyRailUp s (fun u => u.orr.conjLow = true ∧ u = { s with pwr := { s.pwr with standby := true }, orr := u.orr })) ∧
    (s.pwr.step ≠ 0 → Completes .standbyRailUp s (fun u => u = s)) ∧
    (∀ p : Fin 3, s.domOn 80 = true →
      Completes .referenceLost s (fun u => u.get CLK_STAT.ref_ok = 0 ∧ u.get CLK_XCAUSE.ref_lost = 1 ∧ u.fck = s.fck ∧ RegsOnly [CLK_STAT.reg, CLK_XCAUSE.reg] s u) ∧
      Completes .referenceRestored s (fun u => u.get CLK_STAT.ref_ok = 1 ∧ RegsOnly [CLK_STAT.reg] s u) ∧
      Completes (.lockLost p) s (fun u => u.get (pllBit p) = 0 ∧ (s.get CLK_STAT.ref_ok = 1 → u.get CLK_XCAUSE.lock_lost = 1) ∧ u.get CLK_STAT.sdco = (if p = 0 then 0 else s.get CLK_STAT.sdco) ∧ RegsOnly [CLK_STAT.reg, CLK_XCAUSE.reg] s u) ∧
      Completes (.pllRelock p) s (fun u => u.get (pllBit p) = 1 ∧ (p = 0 → u.get CLK_STAT.sdco = 1) ∧ RegsOnly [CLK_STAT.reg] s u)) ∧
    (Runs 80 0 s →
      (∀ (b : Bool) (mv : BitVec 16),
        let read (u : State) : Prop := u.get (if b = true then PWR_VIN.vb else PWR_VIN.va) = mv.toNat ∧ RegsOnly [PWR_VIN.reg, PWR_VIN.reg + 4, PWR_CAUSE.reg] s u ∧ a_on u ∧ b_on u
        (mv.toNat < 10200 → Completes (.vinLost b mv) s (fun u => read u ∧ u.get (if b = true then PWR_VIN.b_ok else PWR_VIN.a_ok) = 0 ∧
          u.get (if b = true then PWR_CAUSE.b_lost else PWR_CAUSE.a_lost) = 1)) ∧
        (10800 ≤ mv.toNat → Completes (.vinBack b mv) s (fun u => read u ∧ u.get (if b = true then PWR_VIN.b_ok else PWR_VIN.a_ok) = 1 ∧
          u.get (if b = true then PWR_CAUSE.b_back else PWR_CAUSE.a_back) = 1)) ∧
        (10200 ≤ mv.toNat → Completes (.vinLost b mv) s (fun u => u = s)) ∧ (mv.toNat < 10800 → Completes (.vinBack b mv) s (fun u => u = s))) ∧
      (s.get PWR_VIN.a_ok = 0 → s.get PWR_VIN.b_ok = 0 → Completes .rideThrough s (fun u => u.get PWR_CAUSE.ride = 1 ∧ RegsOnly [PWR_CAUSE.reg] s u)) ∧
      Completes .vinOrLow s down ∧
      (∀ m, s.pwr.hotSince = some m →
        (2200000 ≤ (s.pwr.ck - m).toNat → Completes .level3Shutdown s (fun u => down u ∧ u.get PWR_CAUSE.thm3 = 1 ∧ u.get PWR_THM_STAT.level = 3)) ∧
        ((s.pwr.ck - m).toNat < 2200000 → Completes .level3Shutdown s (fun u => u = s))) ∧
      (∀ (n : Fin 8) (w : Fin 3) (v : BitVec 16),
        let vset := Nat.max 180 (Nat.min 500 (s.get (PWR_AUXn.vset n)))
        let beyond : Prop := (w = 0 ∧ 10 * Nat.min (s.get (PWR_AUXn.ilim n)) (150000 / vset) < v.toNat) ∨ (w = 1 ∧ 2 * v.toNat < 10 * vset) ∨ (w = 2 ∧ 1500 < v.toNat)
        (s.auxOn n = true → beyond → Completes (.auxLatchOff n w v) s (fun u => u.get (PWR_AUXn.latched n) = 1 ∧ u.get (PWR_AUXn.pout n) = 0 ∧ u.get PWR_CAUSE.aux = 1 ∧
          u.auxOn n = false ∧ RegsOnly [PWR_AUXn.reg n, PWR_AUXn.reg n + 4, PWR_CAUSE.reg] s u)) ∧
        (s.auxOn n = false ∨ ¬beyond → Completes (.auxLatchOff n w v) s (fun u => u = s))) ∧
      (∀ p : List (BitVec 16),
        let out (n : Fin 8) : Nat := if s.auxOn n = true then (nthD p n.val 0).toNat else 0
        let total := ((List.finRange 8).map out).sum
        let words : List Nat := PWR_CAUSE.reg :: (List.range 8).flatMap fun (n : Nat) => [PWR_AUXn.reg n, PWR_AUXn.reg n + 4]
        (∀ n, out n ≠ 0 → (∀ m, n < m → out m = 0) → 6000 < total → Completes (.auxOverload p) s (fun u => u.get (PWR_AUXn.latched n) = 1 ∧ u.get (PWR_AUXn.pout n) = 0 ∧
          u.get PWR_CAUSE.aux = 1 ∧ (∀ m, m ≠ n → u.auxOn m = s.auxOn m ∧ (s.auxOn m = true → u.get (PWR_AUXn.pout m) = out m)) ∧ RegsOnly words s u)) ∧
        (total ≤ 6000 → Completes (.auxOverload p) s (fun u => (∀ m : Fin 8, u.auxOn m = s.auxOn m ∧ (s.auxOn m = true → u.get (PWR_AUXn.pout m) = out m)) ∧ RegsOnly words s u))) ∧
      (∀ d : Fin 96,
        (softwareOff d = false → Completes (.domainOn d) s (fun u => u = s) ∧ Completes (.domainOff d) s (fun u => u = s)) ∧
        (softwareOff d = true → s.pwr.step = 7 → Completes (.domainOn d) s (fun u => u.get (PWR_DOMd.on d) = 1 ∧ RegsOnly [PWR_DOMd.reg d] s u)) ∧
        (softwareOff d = true → s.pwr.step ≠ 7 → dom s d = 0 → Completes (.domainOn d) s (fun u => u.get (PWR_DOMd.on d) = 1 ∧ dom u d = 1 ∧
          (∃ n, n ≤ 22000 ∧ (d, 2, s.pwr.ck + BitVec.ofNat 64 n) ∈ u.pwr.ramp) ∧ (∀ i, i ≠ d.val → dom u i = dom s i) ∧ (∀ a, own d a = true → u.word a = resetWord a) ∧
          (∀ a, own d a = false → a ≠ PWR_DOMd.reg d → (92 ≤ d.val → a ∉ lanes) → u.word a = s.word a) ∧
          u = { s with pwr := u.pwr, regs := u.regs, fe := u.fe, hard := u.hard, jes := u.jes, pcie := u.pcie, opt := u.opt, apx := u.apx, now := u.now, fresh := u.fresh })) ∧
        (softwareOff d = true → s.pwr.step ≠ 7 → dom s d ≠ 0 → Completes (.domainOn d) s (fun u => u.get (PWR_DOMd.on d) = 1 ∧ dom u d = dom s d ∧ (∀ t, (d, 0, t) ∉ u.pwr.ramp) ∧
          u = { s with pwr := u.pwr, regs := u.regs, now := u.now } ∧ WordsKept s u [PWR_DOMd.reg d])) ∧
        (softwareOff d = true → dom s d ≠ 0 → Completes (.domainOff d) s (fun u => u.get (PWR_DOMd.on d) = 0 ∧ dom u d = dom s d ∧
          (∃ n, n ≤ 4400 ∧ (d, 0, s.pwr.ck + BitVec.ofNat 64 n) ∈ u.pwr.ramp) ∧ u = { s with pwr := u.pwr, regs := u.regs, now := u.now, fresh := u.fresh } ∧ WordsKept s u [PWR_DOMd.reg d]))) ∧
      ∀ (raw power : List (BitVec 16)) (iout : List (BitVec 12)) (pin : BitVec 16), Completes (.temperatureReading raw ⟨power, iout, pin⟩) s (fun u =>
        let est (i : Nat) : Int := s.junction i (nthD raw i 0) (nthD power i 0).toNat
        let t := u.getS PWR_THM_STAT.tmax
        let was := s.get PWR_THM_STAT.level
        let limit : Int := if s.get SYS_ID.grade = 0 then 110 else 105
        let t1 := 16 * min (s.get PWR_THM_CFG.t1 : Int) (limit - 5)
        let t2 := 16 * min (s.get PWR_THM_CFG.t2 : Int) limit
        let now := if was = 3 ∧ 16 * (limit + 10) - 48 < t then 3 else if t2 ≤ t ∨ 2 ≤ was ∧ t2 - 48 < t then 2 else if t1 ≤ t ∨ 1 ≤ was ∧ t1 - 48 < t then 1 else 0
        est (u.get PWR_THM_STAT.hot) = t ∧ (∀ i, i < 32 → est i ≤ t) ∧ (∀ i, i < u.get PWR_THM_STAT.hot → est i < t) ∧ u.get PWR_THM_STAT.level = now ∧
        (now = 1 → was < 1 → u.get PWR_CAUSE.thm1 = 1) ∧ (now = 2 → was < 2 → u.get PWR_CAUSE.thm2 = 1) ∧
        u.pwr.hotSince = (if 16 * (limit + 10) ≤ t then some (s.pwr.hotSince.getD s.pwr.ck) else none) ∧ u.pwr.dom = s.pwr.dom ∧
        (∀ d : Fin 96, u.get (PWR_DOMd.iout d) = (nthD iout d 0).toNat) ∧ u.get PWR_VIN.pin = pin.toNat ∧
        (s.shedLevel = 0 → s.get PWR_THM_CFG.shed = 1 → 1 ≤ now → ∀ n ∈ s.liveCtx, s.ccls n = 2 → s.cstate n = 5 → u.cstate n = 6)))

/-- Group resets, RESET_N, the PCIe reset pin and calibration (R6, R324, R343, R345, R346, R347, R363, R366, R396).
A write of PWR_RST.gN resets group N, holds it for 1 µs and leaves the others and memory alone; the release ends it unless RESET_N or
sequencing holds it. RESET_N low resets G1 to G5 and clears MR2, MR3, MR4, MR6, MR7 and the model digests, every domain staying on; its
release counts in rstcnt up to 255, draws a challenge, and releases the groups. The fields of the blocks of a group take their reset
values, ACX_HPARK.absent that of the repair record. A write of CAL_U stores U and gives E = sat(F + U, lo, hi); one of a reserved bit is
the undefined case of R5. PCIE_PERST_N follows its input, or 100 ms after G5 its release. -/
def Obligations.ResetGroupsAndCalibration : Prop :=
  ∀ (s : State) (both : Bool), Regs.wf s = true →
    let blocks : Fin 5 → List Nat := fun g => if g = 0 then [1, 7, 8, 9, 10, 11, 64] else if g = 1 then [14, 15, 16] else if g = 2 then [17, 18, 19] else if g = 3 then [12, 13, 20] else [21]
    let fresh (g : Fin 5) (u : State) : Prop := (∀ a, inBlocks (blocks g) a = true → (a = ACX_HPARK.reg → ∀ h, h < 8 → s.absent 12 h = false) → u.word a = resetWord a) ∧
      (g = 4 → ∀ h, h < 8 → (u.get ACX_HPARK.absent).testBit h = s.absent 12 h)
    (Runs 80 0 s → ∀ g : Fin 5,
      (s.pwr.oneSided = [] → Completes (.groupReset g both) s (fun u => fresh g u ∧ u.held (g.val + 1) = true ∧ (∀ h, h < 6 → h ≠ g.val + 1 → u.held h = s.held h) ∧
        (u.get PWR_RST.g).testBit g = true ∧ u.pwr.release[g.val + 1] = some (s.pwr.ck + 2200) ∧ u.pwr.dom = s.pwr.dom ∧ u.mem = s.mem ∧ u.sec = s.sec ∧ u.rep = s.rep ∧
        (both = true → u.pwr.oneSided = []) ∧ (g = 0 → (∀ t, u.tile t = Tile.reset) ∧ u.mv = Movement.reset ∧ u.cx = Contexts.reset) ∧ (g = 4 → u.acx = Acx.reset ∧ u.pcie = Pcie.reset) ∧ (g ≠ 0 → u.tiles = s.tiles ∧ u.tb = s.tb) ∧ (g ≠ 3 → u.opt = s.opt))) ∧
      (∀ t, s.pwr.release[g.val + 1] = some t → monoLe t s.pwr.ck = true → Completes (.groupResetRelease g) s (fun u => (u.get PWR_RST.g).testBit g = false ∧
        u.pwr.release[g.val + 1] = none ∧ u.held (g.val + 1) = (if s.pwr.resetLow = true ∨ s.pwr.step ≠ 6 then s.held (g.val + 1) else false) ∧
        (∀ h, h < 6 → h ≠ g.val + 1 → u.held h = s.held h) ∧ u = { s with pwr := u.pwr, regs := u.regs, now := u.now } ∧ WordsKept s u [PWR_RST.reg]))) ∧
    (s.pwr.step ≠ 0 → s.pwr.oneSided = [] → Completes (.resetN true both) s (fun u => (∀ g, fresh g u) ∧ (∀ g, 1 ≤ g → g ≤ 5 → u.held g = true) ∧ u.held 0 = s.held 0 ∧
      u.pwr.resetLow = true ∧ u.pwr.dom = s.pwr.dom ∧ u.get SYS_STAT.rstcnt = s.get SYS_STAT.rstcnt ∧ (∀ i ∈ [2, 3, 4, 6, 7], u.get (SEC_MRi.mr i) = 0) ∧
      (∀ i ∈ [0, 1, 5], u.get (SEC_MRi.mr i) = s.get (SEC_MRi.mr i)) ∧ (∀ k, k < 16 → u.get (SEC_MDk.md k) = 0) ∧ u.sec.md = Vector.replicate 16 0 ∧ u.mem = s.mem)) ∧
    (s.pwr.step = 6 → s.pwr.resetLow = true → Completes (.resetN false both) s (fun u => (∀ g, 1 ≤ g → g ≤ 5 → u.held g = false) ∧ u.held 0 = s.held 0 ∧ u.pwr.resetLow = false ∧
      u.get SYS_STAT.rstcnt = Nat.min 255 (s.get SYS_STAT.rstcnt + 1) ∧ u.get SEC_DBG_CHAL.chal = (Config.freeValue 256 s.fresh).toNat ∧ u.get PWR_RST.g = 0 ∧
      (0 ∈ s.sec.loaded → u.get SEC_BOOT_STAT.stage = 2 ∧ u.sec.loaded = [0]) ∧ u.tiles = s.tiles ∧ u.mem = s.mem)) ∧
    (s.pwr.step = 0 ∨ s.pwr.resetLow = false → Completes (.resetN false both) s (fun u => u = { s with pwr := { s.pwr with resetLow := false } })) ∧
    (Runs 80 0 s → ∀ (i : Fin 416) (v : BitVec 32),
      (v.toNat < 2 ^ 24 → Completes (.calUWrite i v) s (fun u => u.get (CAL_U.val i) = v.toNat ∧
        u.getS (CAL_E.val i) = sat (s.getS (CAL_F.val i) + sCast 24 v.toNat) (calLimits i).1 (calLimits i).2 ∧ RegsOnly [CAL_U.reg i, CAL_E.reg i] s u)) ∧
      (2 ^ 24 ≤ v.toNat → exec (.calUWrite i v) s = .fault .reservedBit)) ∧
    (∀ low, (s.rootPort = false → Completes (.pciePerstNInput low) s (fun u => u = { s with pwr := { s.pwr with perstLow := low }, pcie := if low = true then { s.pcie with late := [], cfg := [] } else s.pcie })) ∧
      (s.rootPort = true → Completes (.pciePerstNInput low) s (fun u => u = s))) ∧
    (s.rootPort = true → s.held 5 = false → s.pwr.step = 6 →
      (monoLe (s.pwr.g5At + 220000000) s.pwr.ck = true → Completes .pciePerstNRelease s (fun u => u = { s with pwr := { s.pwr with perstLow := false } })) ∧
      (monoLe (s.pwr.g5At + 220000000) s.pwr.ck = false → Completes .pciePerstNRelease s (fun u => u = s)))

/-- Boot from flash and from the host, hart parking and cache errors (R297, R355, R356, R360, R361, R363, R366).
Boot installs the images it still has to load in the order PMF, ORM, TLM, ACB, each from set A or, where that fails, from set B, and
extends the measurement register of each; ACB goes to its load address, gives ACX_HENTRY and starts hart 0. A first type whose both images
fail, an empty flash (code 7) or a wait of 10 s for the host's image (code 7) ends at stage 15, or in host load where the fuse and the
port allow it. An image of the host is taken in turn. A parked hart is stopped, its caches empty and their dirty lines below; it starts
again as from reset at ACX_HENTRY unless absent. A cache error is a cause, of the L2 and L3 an address, and one record; an L1 line is read
again, an uncorrectable error met by a load or fetch is its access fault, and with auto at the threshold the hart is to move. The value
that an image adds to its register is the model's choice (log entry 28). -/
def Obligations.BootLoadsImagesAndHartsPark : Prop :=
  ∀ (s : State), Canonical s →
    let ext (m : Nat) (d : List (BitVec 8)) : Nat := natOfBytes (sha512 (bytesOf 64 m ++ d))
    let mr (u : State) (i : Nat) : Nat := u.get (SEC_MRi.mr i)
    let dig (img : List (BitVec 8)) : List (BitVec 8) := bytesOf 64 (Config.imageMeasure img).toNat
    let mrOf (t : Nat) : Nat := if t = 0 then 1 else if t = 1 then 2 else t + 1
    let last (u : State) (t code stage : Nat) : Prop := u.get SEC_BOOT_STAT.type = t ∧ u.get SEC_BOOT_STAT.code = code ∧ u.get SEC_BOOT_STAT.stage = stage
    let started (img : List (BitVec 8)) (u : State) : Prop :=
      ((s.get ACX_HPARK.park).testBit 0 = true → (s.get ACX_HPARK.absent).testBit 0 = false → (u.get ACX_HPARK.park).testBit 0 = false ∧
        (u.get ACX_HPARK.parked).testBit 0 = false ∧ u.hart 0 = { Hart.reset with pc := BitVec.ofNat 64 (4 * u.get ACX_HENTRY.addr) }) ∧ u.get ACX_HENTRY.addr = field img 24 8 / 4 % 2 ^ 38 ∧
      ∀ i b, (part img 512 (field img 12 4))[i]? = some b → u.byte (field img 16 8 + i) = b
    let recovers : Prop := s.get FUSE_KSTAT.rec = 1 ∧ s.rootPort = false ∧ s.get SEC_BOOT_STAT.rec = 0
    let failed (u : State) (t code : Nat) : Prop := u.get SEC_BOOT_STAT.type = t ∧ u.get SEC_BOOT_STAT.code = code ∧ u.sec.loaded = s.sec.loaded ∧ u.mem = s.mem ∧
      (recovers → u.get SEC_BOOT_STAT.rec = 1 ∧ u.get PCIE_CFG.base = 64 ∧ u.get PCIE_CFG.size = 26 ∧ u.sec.waits = some s.pwr.ck) ∧
      (¬recovers → u.get SEC_BOOT_STAT.stage = 15 ∧ u.sec.waits = none)
    (Runs 80 0 s → s.pwr.step = 6 → s.pwr.resetLow = false → s.sec.waits = none → s.domOn 83 = true → s.domOn 84 = true → s.domOn 85 = true →
      ∀ (flash : List (BitVec 8)) (ok0 ok1 : Bool),
      let now := s.phys 15 0
      let good (p : Nat) : Bool := if p = 0 then ok0 else ok1
      let todo := [0, 2, 3, 1].filter fun t => !s.sec.loaded.contains t
      let setA (t : Nat) : Prop := s.checkImage t (flashImage flash t false) = 0
      let begins : Prop := (s.get SEC_BOOT_STAT.stage = 0 ∧ s.sec.loaded = [] ∧ good now = true) ∨ (s.get SEC_BOOT_STAT.stage = 2 ∧ s.sec.loaded = [0])
      (begins → s.get FUSE_KSTAT.src = 0 → s.get SEC_BOOT_STAT.rec = 0 → flash ≠ [] →
        (∀ t ∈ todo, ¬setA t → s.checkImage t (flashImage flash t true) = 0) → Completes (.boot flash ok0 ok1) s (fun u =>
          u.sec.loaded = [0, 2, 3, 1] ∧ last u 1 0 3 ∧
          (∀ t, t < 4 → (setA t → t ∈ todo → mr u (mrOf t) = ext (mr s (mrOf t)) (dig (flashImage flash t false))) ∧
            (¬setA t → t ∈ todo → mr u (mrOf t) = ext (mr s (mrOf t)) (dig (flashImage flash t true))) ∧ (t ∉ todo → mr u (mrOf t) = mr s (mrOf t))) ∧
          mr u 0 = (if s.get SEC_BOOT_STAT.stage = 0 then ext (mr s 0) (bytesOf 64 Config.romDigest.toNat) else mr s 0) ∧
          (∀ i, 5 ≤ i → i < 8 → mr u i = mr s i) ∧ (setA 1 → started (flashImage flash 1 false) u) ∧ (¬setA 1 → started (flashImage flash 1 true) u) ∧
          ((∃ t ∈ todo, ¬setA t) → u.get SEC_BOOT_STAT.setb = 1) ∧ ((∀ t ∈ todo, setA t) → u.get SEC_BOOT_STAT.setb = s.get SEC_BOOT_STAT.setb))) ∧
      (begins → s.get FUSE_KSTAT.src = 0 → s.get SEC_BOOT_STAT.rec = 0 → flash ≠ [] →
        ∀ t, todo.head? = some t → ¬setA t → s.checkImage t (flashImage flash t true) ≠ 0 →
        Completes (.boot flash ok0 ok1) s (fun u => failed u t (s.checkImage t (flashImage flash t true)))) ∧
      (begins → s.get FUSE_KSTAT.src = 0 → s.get SEC_BOOT_STAT.rec = 0 → ∀ t, todo.head? = some t → Completes (.boot [] ok0 ok1) s (fun u => failed u t 7)) ∧
      (begins → s.get FUSE_KSTAT.src = 1 → s.rootPort = false → Completes (.boot flash ok0 ok1) s (fun u => u.sec.waits = some s.pwr.ck ∧ u.get PCIE_CFG.base = 64 ∧
        u.get PCIE_CFG.size = 26 ∧ u.get SEC_BOOT_STAT.src = 1 ∧ u.sec.loaded = s.sec.loaded ∧ u.mem = s.mem)) ∧
      (s.get SEC_BOOT_STAT.stage = 0 → s.sec.loaded = [] → now ≤ 1 → good now = false →
        (good (1 - now) = true → Completes (.boot flash ok0 ok1) s (fun u => u.phys 15 0 = 1 - now ∧ u.get PWR_REP_CAUSE.done = 1)) ∧
        (good (1 - now) = false → Completes (.boot flash ok0 ok1) s (fun u => u = s)))) ∧
    (Runs 80 0 s → ∀ t : BitVec 4,
      let img := s.hostImage.1
      let next := [0, 2, 3, 1].filter fun t => !s.sec.loaded.contains t
      let turn : Prop := s.sec.waits ≠ none ∧ t.toNat ∈ next ∧ next.head?.map typeStage = some (typeStage t.toNat)
      (¬turn → Completes (.hostLoad t) s (fun u => u.get SEC_HLOAD.type = t.toNat ∧ RegsOnly [SEC_HLOAD.reg] s u)) ∧
      (turn → NoErrors s → s.held 1 = false → s.addrOn 0x04000000 = true → s.checkImage t.toNat img = 0 → Completes (.hostLoad t) s (fun u =>
        u.sec.loaded = s.sec.loaded ++ [t.toNat] ∧ last u t.toNat 0 (typeStage t.toNat) ∧ mr u (mrOf t.toNat) = ext (mr s (mrOf t.toNat)) (dig img) ∧
        (t = 1 → started img u) ∧ (t ≠ 1 → u.mem = s.mem) ∧
        ((∀ x ∈ next, x = t.toNat) → u.sec.waits = none) ∧ ((∃ x ∈ next, x ≠ t.toNat) → u.sec.waits = some s.pwr.ck))) ∧
      (turn → NoErrors s → s.held 1 = false → s.addrOn 0x04000000 = true → s.checkImage t.toNat img ≠ 0 → Completes (.hostLoad t) s (fun u => failed u t.toNat (s.checkImage t.toNat img)))) ∧
    (Runs 80 0 s → ∀ m t, s.sec.waits = some m → s.toLoad.head? = some t →
      (22000000000 ≤ (s.pwr.ck - m).toNat → Completes .hostLoadTimeout s (fun u => failed u t 7)) ∧
      ((s.pwr.ck - m).toNat < 22000000000 → Completes .hostLoadTimeout s (fun u => u = s))) ∧
    (Runs 90 5 s → ∀ h : Fin 8,
      let bits (u : State) (v : Bool) : Prop := (u.get ACX_HPARK.park).testBit h = v ∧ (u.get ACX_HPARK.parked).testBit h = v ∧
        u.get ACX_HPARK.absent = s.get ACX_HPARK.absent ∧ u.get ACX_HPARK.evict = s.get ACX_HPARK.evict ∧ WordsKept s u [ACX_HPARK.reg] ∧ (∀ i, i ≠ h → u.hart i = s.hart i) ∧
        ∀ i : Nat, i ≠ h.val → (u.get ACX_HPARK.park).testBit i = (s.get ACX_HPARK.park).testBit i ∧ (u.get ACX_HPARK.parked).testBit i = (s.get ACX_HPARK.parked).testBit i
      let absent := (s.get ACX_HPARK.absent).testBit h
      let parked := (s.get ACX_HPARK.park).testBit h
      Completes (.hartPark h) s (fun u => bits u true ∧ u = { s with regs := u.regs, now := u.now, acx := u.acx, fresh := u.fresh } ∧
        u.hart h = { s.hart h with l1i := [], l1d := [], l2 := [], lr := none } ∧
        (((s.hart h).l2.map CacheLine.line).Nodup → ∀ x ∈ (s.hart h).l2, x.dirty = true → x ∈ u.acx.l3 ∨ x ∈ u.acx.wb.map Prod.fst)) ∧
      (absent = false → parked = true → Completes (.hartUnpark h) s (fun u => bits u false ∧ u = { s with regs := u.regs, acx := u.acx } ∧
        u.hart h = { Hart.reset with pc := BitVec.ofNat 64 (4 * s.get ACX_HENTRY.addr) } ∧ u.acx.l3 = s.acx.l3 ∧ u.acx.wb = s.acx.wb ∧ u.acx.aplic = s.acx.aplic)) ∧
      (absent = true ∨ parked = false → Completes (.hartUnpark h) s (fun u => u = s)) ∧
      ∀ (level : CacheLevel) (addr : BitVec 40) (use : Option EccUse),
        let l1 : Bool := decide (level = .l1i) || decide (level = .l1d)
        let unc : Bool := !l1 && use.isSome
        let line := addr.toNat / 64
        let near (u : State) : List CacheLine := if level = .l1i then (u.hart h).l1i else (u.hart h).l1d
        let kept (u : State) : Prop := u.get (if unc = true then ACX_CAUSE.ecc2 else ACX_CAUSE.ecc1) = 1 ∧ (l1 = false → u.get ACX_ECCA.src = (if level = .l3 then 8 else h.val) ∧
          u.get ACX_ECCA.addr = addr.toNat) ∧ u = { s with regs := u.regs, now := u.now, acx := u.acx, rep := u.rep, fresh := u.fresh } ∧
          (l1 = false → use = none → u.acx = s.acx) ∧
          (unc = true → use = some .load → u.acx = (s.withHart h fun c => c.trap 5 addr.toNat 0 c.dataMode.virt).acx) ∧
          (unc = true → use = some .fetch → u.acx = (s.withHart h fun c => c.trap 1 addr.toNat 0 c.mode.virt).acx) ∧
          (unc = true → use = some .writeBack →
            (level = .l3 → lineIn u.acx.l3 line = none ∧ ∀ x, lineIn s.acx.l3 line = some x → ∃ d, { x with data := d } ∈ u.acx.wb.map Prod.fst) ∧
            (level = .l2 → lineIn (u.hart h).l2 line = none ∧ ∀ x, lineIn (s.hart h).l2 line = some x → ∃ d, lineIn u.acx.l3 line = some { x with data := d })) ∧
          (l1 = true → (u.hart h).l2 = (s.hart h).l2 ∧ u.acx.l3 = s.acx.l3 ∧ u.acx.wb = s.acx.wb ∧
            lineIn (near u) line = (lineIn (s.hart h).l2 line).map fun x => { x with dirty := false })
        let old := num s.rep.counts (4 * 4096 + h.val)
        let new := old + if unc = true then 16 else 1
        (s.get (PWR_REP_THRk.ms 4) = 0 → Completes (.cacheEccError h level addr use) s (fun u => kept u ∧ Logged (if unc = true then 1 else 0) 12 h addr.toNat s u ∧ u.rep = s.rep ∧
          WordsKept s u ([ACX_CAUSE.reg] ++ (if l1 = true then [] else [ACX_ECCA.reg, ACX_ECCA.reg + 4]) ++ logWords s))) ∧
        (s.get (PWR_REP_THRk.ms 4) ≠ 0 → old < s.get (PWR_REP_THRk.n 4) → s.get (PWR_REP_THRk.n 4) ≤ new → s.get PWR_REP_CTL.auto = 1 →
          Completes (.cacheEccError h level addr use) s (fun u => kept u ∧ u.get PWR_REP_CAUSE.det = 1 ∧ u.get ACX_CAUSE.evict = 1 ∧
            (u.get ACX_HPARK.evict).testBit h = true ∧ u.rep.failed = s.rep.failed ∧ num u.rep.counts (4 * 4096 + h.val) = new)))

/-- Key commands, quotes, debug tokens and software measurements (R357, R358, R359, R365, R366, R368, R370, R371, R372).
A go takes the key command at SEC_KCMD, and within 10 ms the SEC finishes it: the code of the first check that failed, 8 for a refusal, or
the fuses of its op, MR5 extended by SHA-512 of bytes 0 to 231, and kdone. A command passes when its magic, version, reserved fields,
signer, key digest, signature and uid are right. A quote takes its fields at once and is written within 4 ms; its signature is a free
value (log entry 1). A good debug token adds its permissions and extends MR5; each check and each lock draws a new challenge. MR7 is
extended by SEC_MRDATA, and the write of the highest word of a model digest puts it in force and extends MR6. -/
def Obligations.KeysQuotesTokensAndDigests : Prop :=
  ∀ (s : State), Regs.wf s = true → Runs 80 0 s →
    let ext (m : Nat) (d : List (BitVec 8)) : Nat := natOfBytes (sha512 (bytesOf 64 m ++ d))
    let mr (u : State) (i : Nat) : Nat := u.get (SEC_MRi.mr i)
    let mrWords (i : Nat) : List Nat := (List.range 16).map fun j => SEC_MRi.reg i + 4 * j
    let chalWords : List Nat := (List.range 8).map fun j => SEC_DBG_CHAL.reg + 4 * j
    let holeWords (a : Nat) : List Nat := if regionOf a = .hole ∨ regionOf (a + 363) = .hole then MEMC_CAUSE.reg :: fieldWords MEMC_HOLEA.addr else []
    let good (owner : Bool) (i : Nat) : Prop := if owner = true then (s.get FUSE_KSTAT.oprog).testBit i = true ∧ (s.get FUSE_KSTAT.orev).testBit i = false
      else (s.get FUSE_KSTAT.vprog).testBit i = true ∧ (s.get FUSE_KSTAT.vrev).testBit i = false
    (∀ b : List (BitVec 8),
      let owner := (field b 7 1).testBit 7
      let slot := field b 7 1 % 4
      let ownerMode := s.flag FUSE_KSTAT.owner
      s.checkBlock .command b = 0 ↔ b.take 4 = [0x4D, 0x4B, 0x45, 0x59] ∧ field b 4 2 = 1 ∧ bitsOf (field b 7 1) 2 5 = 0 ∧ field b 229 3 = 0 ∧ field b 26 2 = 0 ∧
        field b 6 1 ≤ 3 ∧ good owner slot ∧
        (field b 6 1 = 0 → owner = ownerMode) ∧ (field b 6 1 = 1 → owner = false ∧ slot ≠ field b 24 1) ∧ (field b 6 1 = 2 → owner = true ∧ slot ≠ field b 24 1) ∧
        (field b 6 1 = 3 → (owner = true ↔ field b 25 1 = 1 ∧ ownerMode = true)) ∧
        sha512 (part b 96 133) = bytesOf 64 (s.get (if owner = true then FUSE_OKEYi.digest slot else FUSE_VKEYi.digest slot)) ∧
        blockSigned b = true ∧ field b 8 16 = s.get FUSE_UID.uid) ∧
    (∀ op : Fin 4,
      let cmd : Instr := if op = 0 then .enrolOwnerSlot else if op = 1 then .revokeVendorSlot else if op = 2 then .revokeOwnerSlot else .advanceSvn
      let a := 64 * s.get SEC_KCMD.addr
      (s.sec.kcmd = none → NoErrors s → s.held 1 = false → s.rangeOn a 364 = true →
        (field (s.sysBytes a 364) 6 1 = op.val → Completes cmd s (fun u => u = { s with sec := u.sec, regs := u.regs, now := u.now, fresh := u.fresh } ∧ WordsKept s u (holeWords a) ∧ u.sec = { s.sec with kcmd := u.sec.kcmd } ∧
          ∃ n, n ≤ 22000000 ∧ u.sec.kcmd = some (s.pwr.ck + BitVec.ofNat 64 n, s.sysBytes a 364))) ∧
        (field (s.sysBytes a 364) 6 1 ≠ op.val → Completes cmd s (fun u => u = s))) ∧
      ∀ due b, s.sec.kcmd = some (due, b) → field b 6 1 = op.val →
        let target := field b 24 1
        let t := field b 25 1
        let v := field b 28 4
        let refused : Prop := if op = 3 then 3 < t ∨ v ≤ s.get (FUSE_SVNt.svn t) ∨ 64 < v else 3 < target ∨
          if op = 0 then (s.get FUSE_KSTAT.oprog).testBit target = true else ¬∃ i, i < 4 ∧ i ≠ target ∧ good (decide (op = 2)) i
        let ended (u : State) (c : Nat) (as : List Nat) : Prop := u.get SEC_KCTL.res = c ∧ u.get (if c = 0 then SEC_CAUSE.kdone else SEC_CAUSE.kfail) = 1 ∧
          u = { s with sec := { s.sec with kcmd := none }, regs := u.regs, now := u.now } ∧ WordsKept s u ([SEC_KCTL.reg, SEC_CAUSE.reg] ++ as)
        (monoLe due s.pwr.ck = false → Completes cmd s (fun u => u = s)) ∧
        (monoLe due s.pwr.ck = true → s.checkBlock .command b ≠ 0 → Completes cmd s (fun u => ended u (s.checkBlock .command b) [])) ∧
        (monoLe due s.pwr.ck = true → s.checkBlock .command b = 0 → refused → Completes cmd s (fun u => ended u 8 [])) ∧
        (monoLe due s.pwr.ck = true → s.checkBlock .command b = 0 → ¬refused → Completes cmd s (fun u => mr u 5 = ext (mr s 5) (sha512 (b.take 232)) ∧
          (op = 0 → u.get (FUSE_OKEYi.digest target) = field b 32 64 ∧ u.get FUSE_KSTAT.oprog = s.get FUSE_KSTAT.oprog ||| 2 ^ target ∧ u.get FUSE_KSTAT.owner = 1 ∧
            ended u 0 (mrWords 5 ++ [FUSE_KSTAT.reg] ++ (List.range 16).map fun j => FUSE_OKEYi.reg target + 4 * j)) ∧
          (op = 1 → u.get FUSE_KSTAT.vrev = s.get FUSE_KSTAT.vrev ||| 2 ^ target ∧ ended u 0 (mrWords 5 ++ [FUSE_KSTAT.reg])) ∧
          (op = 2 → u.get FUSE_KSTAT.orev = s.get FUSE_KSTAT.orev ||| 2 ^ target ∧ ended u 0 (mrWords 5 ++ [FUSE_KSTAT.reg])) ∧
          (op = 3 → u.get (FUSE_SVNt.svn t) = v ∧ ended u 0 (mrWords 5 ++ [FUSE_SVNt.reg t]))))) ∧
    ((s.get SEC_DBG_PERM.perm).testBit 4 = true → Completes .quote s (fun u => u.get SEC_CAUSE.qfail = 1 ∧ RegsOnly [SEC_CAUSE.reg] s u)) ∧
    ((s.get SEC_DBG_PERM.perm).testBit 4 = false →
      (s.sec.quote ≠ none → Completes .quote s (fun u => u.get SEC_CAUSE.qbusy = 1 ∧ RegsOnly [SEC_CAUSE.reg] s u)) ∧
      (s.sec.quote = none → Completes .quote s (fun u => u.get SEC_QCTL.busy = 1 ∧ WordsKept s u [SEC_QCTL.reg] ∧
        u = { s with sec := { s.sec with quote := u.sec.quote }, regs := u.regs, now := u.now, fresh := u.fresh } ∧
        ∃ n q, n ≤ 8800000 ∧ u.sec.quote = some (s.pwr.ck + BitVec.ofNat 64 n, 64 * s.get SEC_QADDR.addr, q) ∧ q.length = 2852 ∧
          q.take 4 = [0x4D, 0x51, 0x54, 0x31] ∧ field q 4 2 = 1 ∧ field q 6 2 = 2720 ∧ field q 8 16 = s.get FUSE_UID.uid ∧ field q 24 64 = s.get SEC_QNONCE.nonce ∧
          field q 88 8 = s.mono.toNat ∧ field q 96 6 = s.tb.nt.sec.toNat ∧ field q 104 4 = s.tb.nt.ns % 2 ^ 32 ∧
          bitsOf (field q 112 16) 0 1 = s.get SYS_MODE.det ∧ bitsOf (field q 112 16) 48 1 = s.get PCIE_CFG.mode ∧ bitsOf (field q 112 16) 49 2 = s.get SEC_BOOT_STAT.src ∧
          bitsOf (field q 112 16) 51 1 = s.get FUSE_KSTAT.owner ∧ bitsOf (field q 112 16) 56 8 = s.get SYS_STAT.rstcnt ∧
          bitsOf (field q 112 16) 64 64 = s.get SEC_DBG_PERM.perm ∧
          (∀ k : Fin 8, (field q 112 16).testBit (8 + k.val) = s.flag (TMB_ATn_CFG.en k) ∧ bitsOf (field q 112 16) (32 + 2 * k.val) 2 = s.get (TMB_ATn_CFG.mu k)) ∧
          (∀ t, t < 4 → field q (128 + 4 * t) 4 = s.get (FUSE_SVNt.svn t)) ∧ (∀ i, i < 8 → field q (144 + 64 * i) 64 = mr s i) ∧
          (∀ k : Fin 8, ((s.engine k).active = false → field q (656 + 64 * k.val) 64 = 0) ∧ ((s.engine k).active = true → part q (656 + 64 * k.val) 64 =
            sha512 ((List.range 2048).flatMap fun i => bytesOf 8 (s.get (ORR_BANK.w k (s.runBank k) i))))) ∧
          (∀ k : Fin 16, field q (1168 + 64 * k.val) 64 = s.sec.md[k].toNat) ∧ field q 2704 8 = s.words PWR_REP_LEFT.reg 2))) ∧
    (let a := 64 * s.get SEC_DBG_TOK.addr
      let b := s.sysBytes a 364
      let passes : Prop := s.checkBlock .token b = 0 ∧ field b 24 32 = s.get SEC_DBG_CHAL.chal ∧ field b 56 8 < if (field b 7 1).testBit 7 = true then 8 else 32
      let drawn (u : State) : Prop := u.get SEC_DBG_CHAL.chal = (Config.freeValue 256 s.fresh).toNat ∧ u = { s with regs := u.regs, now := u.now, fresh := s.fresh + 1 }
      let perms : List Nat := [SEC_DBG_PERM.reg, SEC_DBG_PERM.reg + 4, SEC_DBG_CTL.reg] ++ chalWords
      (NoErrors s → s.held 1 = false → s.rangeOn a 364 = true →
        (passes → Completes .debugToken s (fun u => drawn u ∧ u.get SEC_DBG_PERM.perm = s.get SEC_DBG_PERM.perm ||| field b 56 8 ∧
          (u.get SEC_DBG_CTL.unlocked = 1 ↔ u.get SEC_DBG_PERM.perm ≠ 0) ∧ mr u 5 = ext (mr s 5) (sha512 (b.take 232)) ∧ u.get SEC_CAUSE.dbg_ok = 1 ∧
          WordsKept s u (perms ++ mrWords 5 ++ [SEC_CAUSE.reg] ++ holeWords a))) ∧
        (¬passes → Completes .debugToken s (fun u => drawn u ∧ u.get SEC_CAUSE.dbg_fail = 1 ∧ WordsKept s u (chalWords ++ [SEC_CAUSE.reg] ++ holeWords a)))) ∧
      Completes .debugLock s (fun u => drawn u ∧ u.get SEC_DBG_PERM.perm = 0 ∧ u.get SEC_DBG_CTL.unlocked = 0 ∧ WordsKept s u perms)) ∧
    Completes .mr7Extend s (fun u => mr u 7 = ext (mr s 7) (bytesOf 64 (s.get SEC_MRDATA.data)) ∧ RegsOnly (mrWords 7) s u) ∧
    (∀ (k : Fin 16) (w : BitVec 64),
      let v := setBitsOf (s.get (SEC_MDk.md k)) 448 64 w.toNat
      Completes (.modelDigestWrite k w) s (fun u => u.get (SEC_MDk.md k) = v ∧ u.sec = { s.sec with md := s.sec.md.set k.val (BitVec.ofNat 512 v) } ∧
        mr u 6 = ext (mr s 6) (sha512 (BitVec.ofNat 8 k.val :: bytesOf 64 v)) ∧ u = { s with sec := u.sec, regs := u.regs, now := u.now } ∧
        WordsKept s u (mrWords 6 ++ [SEC_MDk.reg k + 56, SEC_MDk.reg k + 60])))

/-- Accesses to registers and memory by harts, JTAG and PCIe, and GPIO edges (R3, R4, R5, R320, R344, R349, R350, R351, R352, R382, R384, R385).
A write of an aligned register word by a hart or JTAG stores RW and WO bits, clears W1C bits not set in the same ck, sets W1S bits,
changes no other word; a 1 in a reserved bit is R5's undefined case; a go bit is its command. A read returns the register. Where no
register lies a read gives 0, is recorded. A block that is off is R320's case, one in reset reads 0, sets rstacc. What R350's table
forbids traps a hart; JTAG then does nothing (log entry 63). Bytes that a hart stores in LPDDR6 lie in its L2; a load of any hart returns
them. cbo.clean holds its hart until the line has left. PCIe register accesses wait for the ck's end. SYS_GPIO_IN follows each edge; one
that EVCFG selects is carried unless its crossing is busy: it sets its EVT bit and TS, of several in one ck the lowest-numbered. -/
def Obligations.RegisterAccessesAndPinEdges : Prop :=
  ∀ (s : State), Regs.wf s = true →
    let write (src : Requester) (addr : BitVec 64) (size : Fin 4) (data : BitVec 64) : Instr := .registerWrite ⟨src, addr⟩ size data
    let load (src : Requester) (signed : Bool) (rd : Fin 64) (addr : BitVec 64) (size : Fin 4) : Instr := .unmappedAccess ⟨src, addr⟩ ⟨.load signed rd false, size, 0⟩
    (∀ (src : Requester) (addr : BitVec 64) (size : Fin 4) (data : BitVec 64) (a : Nat), Reaches src .store addr (2 ^ size.val) a s → blockOf a ≠ none →
      let n := 2 ^ size.val
      let wide : Bool := decide (size = 3)
      let given (x : Nat) : BitVec 32 := data.extractLsb' (8 * (x - a)) 32
      let w := s.regWrite a wide data.toNat
      ((a % n ≠ 0 ∨ n < 4) → Completes (write src addr size data) s (fun u => (src = .jtag → u = s) ∧ ∀ h, src = .hart h → Trapped h 7 addr.toNat s u)) ∧
      (a % n = 0 → 4 ≤ n → BlockRuns a s →
        ((∀ x ∈ wordsAt a wide, regAt x = none) → Runs 82 1 s → Completes (write src addr size data) s (fun u => u.get SYS_CAUSE.unmapped = 1 ∧
          u.get SYS_BADA.addr = a ∧ u.get SYS_BADA.src = srcCode src ∧ RegsOnly [SYS_CAUSE.reg, SYS_BADA.reg, SYS_BADA.reg + 4] s u)) ∧
        (∀ x ∈ wordsAt a wide, ∀ l o, regAt x = some (l, o) → l.mask o (fun c => c = .rsv) &&& (given x).toNat ≠ 0 →
          exec (write src addr size data) s = .fault .reservedBit) ∧
        ((∃ x ∈ wordsAt a wide, regAt x ≠ none) → (∀ x ∈ wordsAt a wide, reservedBits x &&& (given x).toNat = 0) → (w.own.filter fun f => f.1.any w.has) = [] →
          Completes (write src addr size data) s (fun u => RegsOnly (wordsAt a wide) s u ∧ ∀ x ∈ wordsAt a wide, ∀ l o, regAt x = some (l, o) → ∀ i, i < 32 →
            let rw := (l.mask o fun c => c = .rw || c = .wo).testBit i
            let clears := (l.mask o fun c => c = .w1c).testBit i
            let sets := (l.mask o fun c => c = .w1s).testBit i
            let old := (s.word x).getLsbD i
            let new := (given x).getLsbD i
            (rw = true → (u.word x).getLsbD i = new) ∧ (rw = false → clears = true → sets = false → (u.word x).getLsbD i = (old && !(new && !(s.setNow x).getLsbD i))) ∧
            (rw = false → clears = false → sets = true → (u.word x).getLsbD i = (old || new)) ∧
            (rw = false → clears = false → sets = false → (u.word x).getLsbD i = old)))) ∧
      (a % n = 0 → 4 ≤ n → s.fck = true → ∀ d g, blockHome a = some (d, g) →
        (s.domOn d = false → exec (write src addr size data) s = .fault .poweredOff) ∧
        (s.domOn d = true → s.held g = true → Completes (write src addr size data) s (fun u => u.get PWR_CAUSE.rstacc = 1 ∧ RegsOnly [PWR_CAUSE.reg] s u)))) ∧
    (∀ (src : Requester) (addr : BitVec 64) (size : Fin 4) (signed : Bool) (rd : Fin 64) (a : Nat), Reaches src .load addr (2 ^ size.val) a s → blockOf a ≠ none →
      a % 2 ^ size.val = 0 → 2 ≤ size.val →
      let wide : Bool := decide (size = 3)
      let gives (v : BitVec 64) (as : List Nat) (u : State) : Prop := Answers src signed rd (2 ^ size.val) v s u ∧ WordsKept s u as ∧
        u = { s with regs := u.regs, now := u.now, acx := u.acx, pcie := u.pcie }
      (BlockRuns a s → (∃ x ∈ wordsAt a wide, regAt x ≠ none) → (a < ACX_APLIC.reg 0 0 ∨ ACX_MSIP.reg 0 ≤ a) →
        Completes (load src signed rd addr size) s (fun u => gives (s.readReg a wide) [] u)) ∧
      (BlockRuns a s → (∀ x ∈ wordsAt a wide, regAt x = none) → Runs 82 1 s →
        Completes (load src signed rd addr size) s (fun u => gives 0 [SYS_CAUSE.reg, SYS_BADA.reg, SYS_BADA.reg + 4] u ∧
          u.get SYS_CAUSE.unmapped = 1 ∧ u.get SYS_BADA.addr = a ∧ u.get SYS_BADA.src = srcCode src)) ∧
      (s.fck = true → ∀ d g, blockHome a = some (d, g) →
        (s.domOn d = false → exec (load src signed rd addr size) s = .fault .poweredOff) ∧
        (s.domOn d = true → s.held g = true → Completes (load src signed rd addr size) s (fun u => gives 0 [PWR_CAUSE.reg] u ∧ u.get PWR_CAUSE.rstacc = 1)))) ∧
    (∀ (h : Fin 8), HartRuns h s → s.rootPort = false → ∀ (addr data : BitVec 64) (size : Fin 4) (a : Nat),
      let n := 2 ^ size.val
      (s.translate h .load addr.toNat n = .ok a → ¬TableAllows a n false → ∀ sg rd, Completes (load (.hart h) sg rd addr size) s (Trapped h 5 addr.toNat s)) ∧
      (s.translate h .store addr.toNat n = .ok a → ¬TableAllows a n false → Completes (write (.hart h) addr size data) s (Trapped h 7 addr.toNat s)) ∧
      (s.translate h .store addr.toNat n = .ok a → ¬TableAllows a n true → addr.toNat % n = 0 → ∀ rd,
        (∀ f, Completes (.unmappedAccess ⟨.hart h, addr⟩ ⟨.amo f rd, size, data⟩) s (Trapped h 7 addr.toNat s)) ∧
        Completes (.unmappedAccess ⟨.hart h, addr⟩ ⟨.sc rd, size, data⟩) s (Trapped h 7 addr.toNat s)) ∧
      (s.translate h .load addr.toNat n = .ok a → ¬TableAllows a n true → addr.toNat % n = 0 → ∀ rd,
        Completes (.unmappedAccess ⟨.hart h, addr⟩ ⟨.lr rd, size, data⟩) s (Trapped h 5 addr.toNat s)) ∧
      Completes (.unmappedAccess ⟨.hart h, addr⟩ ⟨.fence, size, data⟩) s (fun u => u = s)) ∧
    (∀ (h : Fin 8) (addr data : BitVec 64) (size : Fin 4) (a : Nat),
      let n := 2 ^ size.val
      HartRuns h s → s.translate h .store addr.toNat n = .ok a → a + n ≤ 0x0F00000000 → a % 64 + n ≤ 64 → s.rangeOn a n = true →
      (s.fill h (a / 64) = none → Completes (write (.hart h) addr size data) s (fun u => u = s)) ∧
      (s.fill h (a / 64) ≠ none → Completes (write (.hart h) addr size data) s (fun u => u.mem = s.mem ∧ u.tiles = s.tiles ∧
        (∃ x, lineIn (u.hart h).l2 (a / 64) = some x ∧ x.dirty = true) ∧
        ∀ (g : Fin 8) (there : BitVec 64) (rd : Fin 64), rd.val < 32 → rd ≠ 0 → HartRuns g u → u.translate g .load there.toNat n = .ok a →
          Completes (load (.hart g) false rd there size) u (fun w => (w.hart g).reg rd = BitVec.ofNat 64 (data.toNat % 2 ^ (8 * n)))))) ∧
    (∀ (h : Fin 8) (addr : BitVec 64) (size : Fin 4) (data : BitVec 64) (a : Nat), HartRuns h s → (s.hart h).mode = .m → s.translate h .load (addr.toNat / 64 * 64) 64 = .ok a →
      regionOf a = .lpddr → s.addrOn a = true →
      let clean : Instr := .unmappedAccess ⟨.hart h, addr⟩ ⟨.cboClean, size, data⟩
      (s.dirtyCopy (a / 64) = none → Completes clean s (fun u => u = s)) ∧
      (s.dirtyCopy (a / 64) ≠ none → Completes clean s (fun u => u.leaving (a / 64) = true ∧ u.mem = s.mem ∧
        ∀ b z v, Completes (write (.hart h) b z v) u (fun w => w = u)))) ∧
    (s.endpointServes = true → s.held 1 = false → s.lck = true → ∀ (off data : BitVec 64) (size : Fin 4),
      let a := 0x1800000000 + off.toNat % 2 ^ 28
      let n := 2 ^ size.val
      (a % n = 0 → 4 ≤ n → Completes (write .bar0 off size data) s (fun u => u = { s with pcie := { s.pcie with late := s.pcie.late ++ [⟨1, a, size, some data⟩] } }) ∧
        (s.pcie.late = [⟨1, a, size, some data⟩] → s.lateTick = regStore 1 a (decide (size = 3)) data { s with pcie := { s.pcie with late := [] } })) ∧
      (a % n ≠ 0 ∨ n < 4 → Completes (write .bar0 off size data) s (fun u => u = s))) ∧
    (∀ src, let at_ (f : Nat) : BitVec 64 := BitVec.ofNat 64 f
      let go (f v : Nat) : Instr := write src (at_ f) 2 (BitVec.ofNat 64 v)
      (Runs 82 1 s → Reaches src .store (at_ TMB_SNAP.reg) 4 TMB_SNAP.reg s → exec (go TMB_SNAP.reg 1) s = exec .snap s) ∧
      (Runs 80 0 s → Reaches src .store (at_ SEC_MRCTL.reg) 4 SEC_MRCTL.reg s → exec (go SEC_MRCTL.reg 1) s = exec .mr7Extend s) ∧
      (Runs 80 0 s → Reaches src .store (at_ SEC_DBG_CTL.reg) 4 SEC_DBG_CTL.reg s → exec (go SEC_DBG_CTL.reg 2) s = exec .debugLock s) ∧
      (Runs 80 0 s → Reaches src .store (at_ SEC_QCTL.reg) 4 SEC_QCTL.reg s → exec (go SEC_QCTL.reg 1) s = exec .quote s)) ∧
    (Runs 82 1 s → ∀ (n : Fin 64) (rise : Bool) (sec : BitVec 48) (qns : Fin 4000000000),
      let e := s.get (SYS_GPIO_EVCFG.edge n)
      let picked : Prop := if rise = true then e % 2 = 1 else 2 ≤ e
      let inWords : List Nat := [SYS_GPIO_IN.reg, SYS_GPIO_IN.reg + 4]
      let evt : List Nat := [SYS_GPIO_EVT.reg, SYS_GPIO_EVT.reg + 4]
      let ts : List Nat := [SYS_GPIO_TS.reg, SYS_GPIO_TS.reg + 4, SYS_GPIO_TS.reg + 8, SYS_GPIO_TS.reg + 12]
      let level (u : State) : Prop := ∀ i, i < 64 → (u.get SYS_GPIO_IN.pin).testBit i = if i = n.val then rise else (s.get SYS_GPIO_IN.pin).testBit i
      let lower : Prop := s.pins.stamp = some s.mono ∧ s.get SYS_GPIO_TS.pin < n.val
      (s.domOn 81 = false → Completes (.gpioEdge n rise sec qns) s (fun u => u = s)) ∧
      (s.domOn 81 = true →
        (¬picked → Completes (.gpioEdge n rise sec qns) s (fun u => level u ∧ RegsOnly inWords s u)) ∧
        (picked → s.gpioBusy n = true → Completes (.gpioEdge n rise sec qns) s (fun u => level u ∧ u.get CLK_XCAUSE.gpio_ovr = 1 ∧ RegsOnly (CLK_XCAUSE.reg :: inWords) s u)) ∧
        (picked → s.gpioBusy n = false → Completes (.gpioEdge n rise sec qns) s (fun u => level u ∧
          (∀ i, i < 64 → (u.get SYS_GPIO_EVT.pin).testBit i = if i = n.val then true else (s.get SYS_GPIO_EVT.pin).testBit i) ∧
          (u.setNow (SYS_GPIO_EVT.reg + 4 * (n.val / 32))).getLsbD (n.val % 32) = true ∧
          u = { s with regs := u.regs, now := u.now, pins := u.pins } ∧ u.pins.stamp = some s.mono ∧ (n, s.mono) ∈ u.pins.gpio ∧ WordsKept s u (inWords ++ evt ++ ts) ∧
          (lower → WordsKept s u (inWords ++ evt)) ∧
          (¬lower → u.get SYS_GPIO_TS.pin = n.val ∧ u.get SYS_GPIO_TS.sec = sec.toNat % 2 ^ 32 ∧ u.get SYS_GPIO_TS.ns = qns.val / 4 ∧ u.get SYS_GPIO_TS.qns = qns.val % 4)))) ∧
      (s.gpioBusy n = true → ∃ m, (n, m) ∈ s.pins.gpio ∧ s.since m < 14))
end

