-- ==== Sys2Proof/Laws/Guards.lean ====
section
/-! SUPPORT. The guards of power, reset and clocks: when the effect that they guard comes about, and what comes about instead. -/

namespace Sys2Proof.Machine

variable {d g : Nat} {s : State} {f : State → Res}

/-- With LCK driven, and G1 released where the group reaches its memories, nothing stands in the way (R337, R344). -/
theorem reached_eq (hl : s.lck = true) (h1 : 2 ≤ g → s.held 1 = false) : reached g s f = f s := by
  by_cases hg : 2 ≤ g <;> simp [reached, hl, hg, h1]

/-- A unit that runs takes its effect, from outside or by itself (R320, R344). -/
theorem access_eq (h : Claims.Runs d g s) : access d g s f = f s := by
  obtain ⟨hf, hd, hh, hl, h1⟩ := h
  simp [access, hf, hd, hh, reached_eq hl h1]

theorem inside_eq (h : Claims.Runs d g s) : inside d g s f = f s := by
  obtain ⟨hf, hd, hh, hl, h1⟩ := h
  simp [inside, hf, hd, hh, reached_eq hl h1]

theorem accessUnit_eq {k u : Nat} (h : Claims.Runs d g s) (ha : s.absent k u = false) : accessUnit d g k u s f = f s := by
  simp [accessUnit, access_eq h, ha]

theorem insideUnit_eq {k u : Nat} (h : Claims.UnitRuns d g k u s) : insideUnit d g k u s f = f s := by
  simp [insideUnit, inside_eq h.1, h.2.1, h.2.2]

/-- Without FCK no access moves (R337). -/
theorem access_no_fck (h : s.fck = false) : access d g s f = .next s := by simp [access, h]

/-- An access to a domain that is off (R320). -/
theorem access_off (hf : s.fck = true) (hd : s.domOn d = false) : access d g s f = .fault .poweredOff := by simp [access, hf, hd]

/-- An access to a group that is held in reset (R344). -/
theorem access_held (hf : s.fck = true) (hd : s.domOn d = true) (hh : s.held g = true) : access d g s f = .next (s.raise PWR_CAUSE.rstacc) := by
  simp [access, hf, hd, hh]

/-- A unit that is off, in reset or without its clock does nothing. -/
theorem inside_idle (h : s.fck = false ∨ s.domOn d = false ∨ s.held g = true) : inside d g s f = .next s := by
  rcases h with h | h | h <;> simp [inside, h]

/-- A command goes on after a next state alone. -/
@[simp] theorem andThen_next : andThen (.next s) f = f s := rfl
@[simp] theorem andThen_fault (e : Fault) : andThen (.fault e) f = .fault e := rfl
@[simp] theorem faultIf_true (e : Fault) (r : Res) : faultIf true e r = .fault e := rfl
@[simp] theorem faultIf_false (e : Fault) (r : Res) : faultIf false e r = r := rfl

end Sys2Proof.Machine
end

