-- ==== Sys2Proof/Laws/Sparse.lean ====
section
/-! SUPPORT. The laws of sparse maps: a read after a write, and every operation keeps the canonical form. -/

namespace Sys2Proof.Machine

variable {α : Type} [DecidableEq α] {d : Nat → α}

theorem Sparse.wfFrom_mono {m : Sparse α} {a b : Nat} (h : Sparse.wfFrom d b m = true) (hab : a ≤ b) : Sparse.wfFrom d a m = true := by
  cases m with
  | nil => rfl
  | cons e m => simp only [Sparse.wfFrom, Bool.and_eq_true, decide_eq_true_eq] at h ⊢; exact ⟨⟨by omega, h.1.2⟩, h.2⟩

theorem Sparse.find_below {m : Sparse α} {lo k : Nat} (h : Sparse.wfFrom d lo m = true) (hk : k < lo) : m.find k = none := by
  cases m with
  | nil => rfl
  | cons e m =>
    simp only [Sparse.wfFrom, Bool.and_eq_true, decide_eq_true_eq] at h
    simp only [Sparse.find]; rw [if_neg (by omega), if_pos (by omega)]

theorem Sparse.erase_wfFrom {m : Sparse α} {lo k : Nat} (h : Sparse.wfFrom d lo m = true) : Sparse.wfFrom d lo (m.erase k) = true := by
  induction m generalizing lo with
  | nil => rfl
  | cons e m ih =>
    have h' := h
    simp only [Sparse.wfFrom, Bool.and_eq_true, decide_eq_true_eq] at h
    simp only [Sparse.erase]
    split
    · exact Sparse.wfFrom_mono h.2 (by omega)
    · split
      · exact h'
      · simp only [Sparse.wfFrom, Bool.and_eq_true, decide_eq_true_eq]; exact ⟨h.1, ih h.2⟩

theorem Sparse.insert_wfFrom {m : Sparse α} {lo k : Nat} {v : α} (h : Sparse.wfFrom d lo m = true) (hk : lo ≤ k) (hv : v ≠ d k) :
    Sparse.wfFrom d lo (m.insert k v) = true := by
  induction m generalizing lo with
  | nil => simp [Sparse.insert, Sparse.wfFrom, hk, hv]
  | cons e m ih =>
    have h' := h
    simp only [Sparse.wfFrom, Bool.and_eq_true, decide_eq_true_eq] at h
    simp only [Sparse.insert]
    split
    · rename_i he; simp only [Sparse.wfFrom, Bool.and_eq_true, decide_eq_true_eq]; exact ⟨⟨hk, hv⟩, he ▸ h.2⟩
    · split
      · simp only [Sparse.wfFrom, Bool.and_eq_true, decide_eq_true_eq]; exact ⟨⟨hk, hv⟩, ⟨by omega, h.1.2⟩, h.2⟩
      · simp only [Sparse.wfFrom, Bool.and_eq_true, decide_eq_true_eq]; exact ⟨h.1, ih h.2 (by omega)⟩

/-- A write keeps the canonical form. -/
theorem Sparse.write_wf {m : Sparse α} (k : Nat) (v : α) (h : m.wf d = true) : (m.write d k v).wf d = true := by
  unfold Sparse.write Sparse.wf at *
  split
  · exact Sparse.erase_wfFrom h
  · exact Sparse.insert_wfFrom h (Nat.zero_le k) (by assumption)

theorem Sparse.filter_wfFrom {m : Sparse α} {lo : Nat} (p : Nat × α → Bool) (h : Sparse.wfFrom d lo m = true) :
    Sparse.wfFrom d lo (m.filter p) = true := by
  induction m generalizing lo with
  | nil => rfl
  | cons e m ih =>
    simp only [Sparse.wfFrom, Bool.and_eq_true, decide_eq_true_eq] at h
    simp only [List.filter_cons]
    split
    · simp only [Sparse.wfFrom, Bool.and_eq_true, decide_eq_true_eq]; exact ⟨h.1, ih h.2⟩
    · exact Sparse.wfFrom_mono (ih h.2) (by omega)

/-- Dropping entries keeps the canonical form. -/
theorem Sparse.filter_wf {m : Sparse α} (p : Nat × α → Bool) (h : m.wf d = true) : Sparse.wf d (m.filter p) = true :=
  Sparse.filter_wfFrom p h

omit [DecidableEq α] in
theorem Sparse.find_insert {m : Sparse α} {k j : Nat} {v : α} : (m.insert k v).find j = if j = k then some v else m.find j := by
  induction m with
  | nil => simp [Sparse.insert, Sparse.find]
  | cons e m ih =>
    by_cases h1 : k = e.1
    · subst h1; by_cases h : j = e.1 <;> simp [Sparse.insert, Sparse.find, h]
    · by_cases h2 : k < e.1
      · by_cases h : j = k
        · subst h; simp [Sparse.insert, Sparse.find, h1, h2]
        · by_cases h3 : j < k
          · have h4 : j ≠ e.1 := by omega
            have h5 : j < e.1 := by omega
            simp [Sparse.insert, Sparse.find, h, h1, h2, h3, h4, h5]
          · simp [Sparse.insert, Sparse.find, h, h1, h2, h3]
      · by_cases h : j = k
        · subst h; simp [Sparse.insert, Sparse.find, h1, h2, ih]
        · simp [Sparse.insert, Sparse.find, h1, h2, ih, h]

theorem Sparse.find_erase {m : Sparse α} {lo k j : Nat} (hm : Sparse.wfFrom d lo m = true) :
    (m.erase k).find j = if j = k then none else m.find j := by
  induction m generalizing lo with
  | nil => simp [Sparse.erase, Sparse.find]
  | cons e m ih =>
    simp only [Sparse.wfFrom, Bool.and_eq_true, decide_eq_true_eq] at hm
    by_cases h1 : k = e.1
    · subst h1
      by_cases h : j = e.1
      · subst h; simpa [Sparse.erase] using Sparse.find_below hm.2 (Nat.lt_succ_self _)
      · by_cases h3 : j < e.1
        · simpa [Sparse.erase, Sparse.find, h, h3] using Sparse.find_below hm.2 (by omega)
        · simp [Sparse.erase, Sparse.find, h, h3]
    · by_cases h2 : k < e.1
      · by_cases h : j = k
        · subst h; simp [Sparse.erase, Sparse.find, h1, h2]
        · simp [Sparse.erase, h1, h2, h]
      · by_cases h : j = k
        · subst h; simp [Sparse.erase, Sparse.find, h1, h2, ih hm.2]
        · simp [Sparse.erase, Sparse.find, h1, h2, ih hm.2, h]

/-- A read after a write gives the value written, and elsewhere what was there. -/
theorem Sparse.read_write {m : Sparse α} (h : m.wf d = true) (k j : Nat) (v : α) :
    (m.write d k v).read d j = if j = k then v else m.read d j := by
  unfold Sparse.read Sparse.write
  split
  · rename_i hv
    rw [Sparse.find_erase h]
    by_cases hj : j = k
    · subst hj; simp [hv]
    · simp [hj]
  · rw [Sparse.find_insert]
    by_cases hj : j = k <;> simp [hj]

end Sys2Proof.Machine
end

