-- ==== Sys2Proof/Laws/State.lean ====
section
/-! SUPPORT. What each update of the state leaves as it was: one lemma per field per record update, and the same for the register operations
built on them. -/

namespace Sys2Proof.Machine

variable (s : State)

@[simp] theorem State.setWord_pending (a : Nat) (v : BitVec 32) : (s.setWord a v).pending = s.pending := rfl
@[simp] theorem State.setWord_regs (a : Nat) (v : BitVec 32) : (s.setWord a v).regs = s.regs.write resetWord a v := rfl
@[simp] theorem State.setWord_now (a : Nat) (v : BitVec 32) : (s.setWord a v).now = s.now := rfl
@[simp] theorem State.setWord_mem (a : Nat) (v : BitVec 32) : (s.setWord a v).mem = s.mem := rfl
@[simp] theorem State.setWord_flaws (a : Nat) (v : BitVec 32) : (s.setWord a v).flaws = s.flaws := rfl
@[simp] theorem State.setWord_fresh (a : Nat) (v : BitVec 32) : (s.setWord a v).fresh = s.fresh := rfl
@[simp] theorem State.setWord_tb (a : Nat) (v : BitVec 32) : (s.setWord a v).tb = s.tb := rfl
@[simp] theorem State.setWord_orr (a : Nat) (v : BitVec 32) : (s.setWord a v).orr = s.orr := rfl
@[simp] theorem State.setWord_tiles (a : Nat) (v : BitVec 32) : (s.setWord a v).tiles = s.tiles := rfl
@[simp] theorem State.setWord_mv (a : Nat) (v : BitVec 32) : (s.setWord a v).mv = s.mv := rfl
@[simp] theorem State.setWord_fe (a : Nat) (v : BitVec 32) : (s.setWord a v).fe = s.fe := rfl
@[simp] theorem State.setWord_hard (a : Nat) (v : BitVec 32) : (s.setWord a v).hard = s.hard := rfl
@[simp] theorem State.setWord_cx (a : Nat) (v : BitVec 32) : (s.setWord a v).cx = s.cx := rfl
@[simp] theorem State.setWord_opt (a : Nat) (v : BitVec 32) : (s.setWord a v).opt = s.opt := rfl
@[simp] theorem State.setWord_jes (a : Nat) (v : BitVec 32) : (s.setWord a v).jes = s.jes := rfl
@[simp] theorem State.setWord_apx (a : Nat) (v : BitVec 32) : (s.setWord a v).apx = s.apx := rfl
@[simp] theorem State.setWord_rep (a : Nat) (v : BitVec 32) : (s.setWord a v).rep = s.rep := rfl
@[simp] theorem State.setWord_pwr (a : Nat) (v : BitVec 32) : (s.setWord a v).pwr = s.pwr := rfl
@[simp] theorem State.setWord_pins (a : Nat) (v : BitVec 32) : (s.setWord a v).pins = s.pins := rfl
@[simp] theorem State.setWord_sec (a : Nat) (v : BitVec 32) : (s.setWord a v).sec = s.sec := rfl
@[simp] theorem State.setWord_acx (a : Nat) (v : BitVec 32) : (s.setWord a v).acx = s.acx := rfl
@[simp] theorem State.setWord_pcie (a : Nat) (v : BitVec 32) : (s.setWord a v).pcie = s.pcie := rfl

@[simp] theorem State.markSet_pending (a i : Nat) : (s.markSet a i).pending = s.pending := rfl
@[simp] theorem State.markSet_regs (a i : Nat) : (s.markSet a i).regs = s.regs := rfl
@[simp] theorem State.markSet_mem (a i : Nat) : (s.markSet a i).mem = s.mem := rfl
@[simp] theorem State.markSet_flaws (a i : Nat) : (s.markSet a i).flaws = s.flaws := rfl
@[simp] theorem State.markSet_fresh (a i : Nat) : (s.markSet a i).fresh = s.fresh := rfl
@[simp] theorem State.markSet_tb (a i : Nat) : (s.markSet a i).tb = s.tb := rfl
@[simp] theorem State.markSet_orr (a i : Nat) : (s.markSet a i).orr = s.orr := rfl
@[simp] theorem State.markSet_tiles (a i : Nat) : (s.markSet a i).tiles = s.tiles := rfl
@[simp] theorem State.markSet_mv (a i : Nat) : (s.markSet a i).mv = s.mv := rfl
@[simp] theorem State.markSet_fe (a i : Nat) : (s.markSet a i).fe = s.fe := rfl
@[simp] theorem State.markSet_hard (a i : Nat) : (s.markSet a i).hard = s.hard := rfl
@[simp] theorem State.markSet_cx (a i : Nat) : (s.markSet a i).cx = s.cx := rfl
@[simp] theorem State.markSet_opt (a i : Nat) : (s.markSet a i).opt = s.opt := rfl
@[simp] theorem State.markSet_jes (a i : Nat) : (s.markSet a i).jes = s.jes := rfl
@[simp] theorem State.markSet_apx (a i : Nat) : (s.markSet a i).apx = s.apx := rfl
@[simp] theorem State.markSet_rep (a i : Nat) : (s.markSet a i).rep = s.rep := rfl
@[simp] theorem State.markSet_pwr (a i : Nat) : (s.markSet a i).pwr = s.pwr := rfl
@[simp] theorem State.markSet_pins (a i : Nat) : (s.markSet a i).pins = s.pins := rfl
@[simp] theorem State.markSet_sec (a i : Nat) : (s.markSet a i).sec = s.sec := rfl
@[simp] theorem State.markSet_acx (a i : Nat) : (s.markSet a i).acx = s.acx := rfl
@[simp] theorem State.markSet_pcie (a i : Nat) : (s.markSet a i).pcie = s.pcie := rfl

@[simp] theorem State.withTb_pending (f : TimeBase → TimeBase) : (s.withTb f).pending = s.pending := rfl
@[simp] theorem State.withTb_regs (f : TimeBase → TimeBase) : (s.withTb f).regs = s.regs := rfl
@[simp] theorem State.withTb_now (f : TimeBase → TimeBase) : (s.withTb f).now = s.now := rfl
@[simp] theorem State.withTb_mem (f : TimeBase → TimeBase) : (s.withTb f).mem = s.mem := rfl
@[simp] theorem State.withTb_flaws (f : TimeBase → TimeBase) : (s.withTb f).flaws = s.flaws := rfl
@[simp] theorem State.withTb_fresh (f : TimeBase → TimeBase) : (s.withTb f).fresh = s.fresh := rfl
@[simp] theorem State.withTb_tb (f : TimeBase → TimeBase) : (s.withTb f).tb = f s.tb := rfl
@[simp] theorem State.withTb_orr (f : TimeBase → TimeBase) : (s.withTb f).orr = s.orr := rfl
@[simp] theorem State.withTb_tiles (f : TimeBase → TimeBase) : (s.withTb f).tiles = s.tiles := rfl
@[simp] theorem State.withTb_mv (f : TimeBase → TimeBase) : (s.withTb f).mv = s.mv := rfl
@[simp] theorem State.withTb_fe (f : TimeBase → TimeBase) : (s.withTb f).fe = s.fe := rfl
@[simp] theorem State.withTb_hard (f : TimeBase → TimeBase) : (s.withTb f).hard = s.hard := rfl
@[simp] theorem State.withTb_cx (f : TimeBase → TimeBase) : (s.withTb f).cx = s.cx := rfl
@[simp] theorem State.withTb_opt (f : TimeBase → TimeBase) : (s.withTb f).opt = s.opt := rfl
@[simp] theorem State.withTb_jes (f : TimeBase → TimeBase) : (s.withTb f).jes = s.jes := rfl
@[simp] theorem State.withTb_apx (f : TimeBase → TimeBase) : (s.withTb f).apx = s.apx := rfl
@[simp] theorem State.withTb_rep (f : TimeBase → TimeBase) : (s.withTb f).rep = s.rep := rfl
@[simp] theorem State.withTb_pwr (f : TimeBase → TimeBase) : (s.withTb f).pwr = s.pwr := rfl
@[simp] theorem State.withTb_pins (f : TimeBase → TimeBase) : (s.withTb f).pins = s.pins := rfl
@[simp] theorem State.withTb_sec (f : TimeBase → TimeBase) : (s.withTb f).sec = s.sec := rfl
@[simp] theorem State.withTb_acx (f : TimeBase → TimeBase) : (s.withTb f).acx = s.acx := rfl
@[simp] theorem State.withTb_pcie (f : TimeBase → TimeBase) : (s.withTb f).pcie = s.pcie := rfl

@[simp] theorem State.withOrr_pending (f : Orrery → Orrery) : (s.withOrr f).pending = s.pending := rfl
@[simp] theorem State.withOrr_regs (f : Orrery → Orrery) : (s.withOrr f).regs = s.regs := rfl
@[simp] theorem State.withOrr_now (f : Orrery → Orrery) : (s.withOrr f).now = s.now := rfl
@[simp] theorem State.withOrr_mem (f : Orrery → Orrery) : (s.withOrr f).mem = s.mem := rfl
@[simp] theorem State.withOrr_flaws (f : Orrery → Orrery) : (s.withOrr f).flaws = s.flaws := rfl
@[simp] theorem State.withOrr_fresh (f : Orrery → Orrery) : (s.withOrr f).fresh = s.fresh := rfl
@[simp] theorem State.withOrr_tb (f : Orrery → Orrery) : (s.withOrr f).tb = s.tb := rfl
@[simp] theorem State.withOrr_orr (f : Orrery → Orrery) : (s.withOrr f).orr = f s.orr := rfl
@[simp] theorem State.withOrr_tiles (f : Orrery → Orrery) : (s.withOrr f).tiles = s.tiles := rfl
@[simp] theorem State.withOrr_mv (f : Orrery → Orrery) : (s.withOrr f).mv = s.mv := rfl
@[simp] theorem State.withOrr_fe (f : Orrery → Orrery) : (s.withOrr f).fe = s.fe := rfl
@[simp] theorem State.withOrr_hard (f : Orrery → Orrery) : (s.withOrr f).hard = s.hard := rfl
@[simp] theorem State.withOrr_cx (f : Orrery → Orrery) : (s.withOrr f).cx = s.cx := rfl
@[simp] theorem State.withOrr_opt (f : Orrery → Orrery) : (s.withOrr f).opt = s.opt := rfl
@[simp] theorem State.withOrr_jes (f : Orrery → Orrery) : (s.withOrr f).jes = s.jes := rfl
@[simp] theorem State.withOrr_apx (f : Orrery → Orrery) : (s.withOrr f).apx = s.apx := rfl
@[simp] theorem State.withOrr_rep (f : Orrery → Orrery) : (s.withOrr f).rep = s.rep := rfl
@[simp] theorem State.withOrr_pwr (f : Orrery → Orrery) : (s.withOrr f).pwr = s.pwr := rfl
@[simp] theorem State.withOrr_pins (f : Orrery → Orrery) : (s.withOrr f).pins = s.pins := rfl
@[simp] theorem State.withOrr_sec (f : Orrery → Orrery) : (s.withOrr f).sec = s.sec := rfl
@[simp] theorem State.withOrr_acx (f : Orrery → Orrery) : (s.withOrr f).acx = s.acx := rfl
@[simp] theorem State.withOrr_pcie (f : Orrery → Orrery) : (s.withOrr f).pcie = s.pcie := rfl

@[simp] theorem State.withTile_pending (t : Fin 64) (f : Tile → Tile) : (s.withTile t f).pending = s.pending := rfl
@[simp] theorem State.withTile_regs (t : Fin 64) (f : Tile → Tile) : (s.withTile t f).regs = s.regs := rfl
@[simp] theorem State.withTile_now (t : Fin 64) (f : Tile → Tile) : (s.withTile t f).now = s.now := rfl
@[simp] theorem State.withTile_mem (t : Fin 64) (f : Tile → Tile) : (s.withTile t f).mem = s.mem := rfl
@[simp] theorem State.withTile_flaws (t : Fin 64) (f : Tile → Tile) : (s.withTile t f).flaws = s.flaws := rfl
@[simp] theorem State.withTile_fresh (t : Fin 64) (f : Tile → Tile) : (s.withTile t f).fresh = s.fresh := rfl
@[simp] theorem State.withTile_tb (t : Fin 64) (f : Tile → Tile) : (s.withTile t f).tb = s.tb := rfl
@[simp] theorem State.withTile_orr (t : Fin 64) (f : Tile → Tile) : (s.withTile t f).orr = s.orr := rfl
@[simp] theorem State.withTile_mv (t : Fin 64) (f : Tile → Tile) : (s.withTile t f).mv = s.mv := rfl
@[simp] theorem State.withTile_fe (t : Fin 64) (f : Tile → Tile) : (s.withTile t f).fe = s.fe := rfl
@[simp] theorem State.withTile_hard (t : Fin 64) (f : Tile → Tile) : (s.withTile t f).hard = s.hard := rfl
@[simp] theorem State.withTile_cx (t : Fin 64) (f : Tile → Tile) : (s.withTile t f).cx = s.cx := rfl
@[simp] theorem State.withTile_opt (t : Fin 64) (f : Tile → Tile) : (s.withTile t f).opt = s.opt := rfl
@[simp] theorem State.withTile_jes (t : Fin 64) (f : Tile → Tile) : (s.withTile t f).jes = s.jes := rfl
@[simp] theorem State.withTile_apx (t : Fin 64) (f : Tile → Tile) : (s.withTile t f).apx = s.apx := rfl
@[simp] theorem State.withTile_rep (t : Fin 64) (f : Tile → Tile) : (s.withTile t f).rep = s.rep := rfl
@[simp] theorem State.withTile_pwr (t : Fin 64) (f : Tile → Tile) : (s.withTile t f).pwr = s.pwr := rfl
@[simp] theorem State.withTile_pins (t : Fin 64) (f : Tile → Tile) : (s.withTile t f).pins = s.pins := rfl
@[simp] theorem State.withTile_sec (t : Fin 64) (f : Tile → Tile) : (s.withTile t f).sec = s.sec := rfl
@[simp] theorem State.withTile_acx (t : Fin 64) (f : Tile → Tile) : (s.withTile t f).acx = s.acx := rfl
@[simp] theorem State.withTile_pcie (t : Fin 64) (f : Tile → Tile) : (s.withTile t f).pcie = s.pcie := rfl

@[simp] theorem State.withMv_pending (f : Movement → Movement) : (s.withMv f).pending = s.pending := rfl
@[simp] theorem State.withMv_regs (f : Movement → Movement) : (s.withMv f).regs = s.regs := rfl
@[simp] theorem State.withMv_now (f : Movement → Movement) : (s.withMv f).now = s.now := rfl
@[simp] theorem State.withMv_mem (f : Movement → Movement) : (s.withMv f).mem = s.mem := rfl
@[simp] theorem State.withMv_flaws (f : Movement → Movement) : (s.withMv f).flaws = s.flaws := rfl
@[simp] theorem State.withMv_fresh (f : Movement → Movement) : (s.withMv f).fresh = s.fresh := rfl
@[simp] theorem State.withMv_tb (f : Movement → Movement) : (s.withMv f).tb = s.tb := rfl
@[simp] theorem State.withMv_orr (f : Movement → Movement) : (s.withMv f).orr = s.orr := rfl
@[simp] theorem State.withMv_tiles (f : Movement → Movement) : (s.withMv f).tiles = s.tiles := rfl
@[simp] theorem State.withMv_mv (f : Movement → Movement) : (s.withMv f).mv = f s.mv := rfl
@[simp] theorem State.withMv_fe (f : Movement → Movement) : (s.withMv f).fe = s.fe := rfl
@[simp] theorem State.withMv_hard (f : Movement → Movement) : (s.withMv f).hard = s.hard := rfl
@[simp] theorem State.withMv_cx (f : Movement → Movement) : (s.withMv f).cx = s.cx := rfl
@[simp] theorem State.withMv_opt (f : Movement → Movement) : (s.withMv f).opt = s.opt := rfl
@[simp] theorem State.withMv_jes (f : Movement → Movement) : (s.withMv f).jes = s.jes := rfl
@[simp] theorem State.withMv_apx (f : Movement → Movement) : (s.withMv f).apx = s.apx := rfl
@[simp] theorem State.withMv_rep (f : Movement → Movement) : (s.withMv f).rep = s.rep := rfl
@[simp] theorem State.withMv_pwr (f : Movement → Movement) : (s.withMv f).pwr = s.pwr := rfl
@[simp] theorem State.withMv_pins (f : Movement → Movement) : (s.withMv f).pins = s.pins := rfl
@[simp] theorem State.withMv_sec (f : Movement → Movement) : (s.withMv f).sec = s.sec := rfl
@[simp] theorem State.withMv_acx (f : Movement → Movement) : (s.withMv f).acx = s.acx := rfl
@[simp] theorem State.withMv_pcie (f : Movement → Movement) : (s.withMv f).pcie = s.pcie := rfl

@[simp] theorem State.withCx_pending (f : Contexts → Contexts) : (s.withCx f).pending = s.pending := rfl
@[simp] theorem State.withCx_regs (f : Contexts → Contexts) : (s.withCx f).regs = s.regs := rfl
@[simp] theorem State.withCx_now (f : Contexts → Contexts) : (s.withCx f).now = s.now := rfl
@[simp] theorem State.withCx_mem (f : Contexts → Contexts) : (s.withCx f).mem = s.mem := rfl
@[simp] theorem State.withCx_flaws (f : Contexts → Contexts) : (s.withCx f).flaws = s.flaws := rfl
@[simp] theorem State.withCx_fresh (f : Contexts → Contexts) : (s.withCx f).fresh = s.fresh := rfl
@[simp] theorem State.withCx_tb (f : Contexts → Contexts) : (s.withCx f).tb = s.tb := rfl
@[simp] theorem State.withCx_orr (f : Contexts → Contexts) : (s.withCx f).orr = s.orr := rfl
@[simp] theorem State.withCx_tiles (f : Contexts → Contexts) : (s.withCx f).tiles = s.tiles := rfl
@[simp] theorem State.withCx_mv (f : Contexts → Contexts) : (s.withCx f).mv = s.mv := rfl
@[simp] theorem State.withCx_fe (f : Contexts → Contexts) : (s.withCx f).fe = s.fe := rfl
@[simp] theorem State.withCx_hard (f : Contexts → Contexts) : (s.withCx f).hard = s.hard := rfl
@[simp] theorem State.withCx_cx (f : Contexts → Contexts) : (s.withCx f).cx = f s.cx := rfl
@[simp] theorem State.withCx_opt (f : Contexts → Contexts) : (s.withCx f).opt = s.opt := rfl
@[simp] theorem State.withCx_jes (f : Contexts → Contexts) : (s.withCx f).jes = s.jes := rfl
@[simp] theorem State.withCx_apx (f : Contexts → Contexts) : (s.withCx f).apx = s.apx := rfl
@[simp] theorem State.withCx_rep (f : Contexts → Contexts) : (s.withCx f).rep = s.rep := rfl
@[simp] theorem State.withCx_pwr (f : Contexts → Contexts) : (s.withCx f).pwr = s.pwr := rfl
@[simp] theorem State.withCx_pins (f : Contexts → Contexts) : (s.withCx f).pins = s.pins := rfl
@[simp] theorem State.withCx_sec (f : Contexts → Contexts) : (s.withCx f).sec = s.sec := rfl
@[simp] theorem State.withCx_acx (f : Contexts → Contexts) : (s.withCx f).acx = s.acx := rfl
@[simp] theorem State.withCx_pcie (f : Contexts → Contexts) : (s.withCx f).pcie = s.pcie := rfl

@[simp] theorem State.withApx_pending (f : Apsis → Apsis) : (s.withApx f).pending = s.pending := rfl
@[simp] theorem State.withApx_regs (f : Apsis → Apsis) : (s.withApx f).regs = s.regs := rfl
@[simp] theorem State.withApx_now (f : Apsis → Apsis) : (s.withApx f).now = s.now := rfl
@[simp] theorem State.withApx_mem (f : Apsis → Apsis) : (s.withApx f).mem = s.mem := rfl
@[simp] theorem State.withApx_flaws (f : Apsis → Apsis) : (s.withApx f).flaws = s.flaws := rfl
@[simp] theorem State.withApx_fresh (f : Apsis → Apsis) : (s.withApx f).fresh = s.fresh := rfl
@[simp] theorem State.withApx_tb (f : Apsis → Apsis) : (s.withApx f).tb = s.tb := rfl
@[simp] theorem State.withApx_orr (f : Apsis → Apsis) : (s.withApx f).orr = s.orr := rfl
@[simp] theorem State.withApx_tiles (f : Apsis → Apsis) : (s.withApx f).tiles = s.tiles := rfl
@[simp] theorem State.withApx_mv (f : Apsis → Apsis) : (s.withApx f).mv = s.mv := rfl
@[simp] theorem State.withApx_fe (f : Apsis → Apsis) : (s.withApx f).fe = s.fe := rfl
@[simp] theorem State.withApx_hard (f : Apsis → Apsis) : (s.withApx f).hard = s.hard := rfl
@[simp] theorem State.withApx_cx (f : Apsis → Apsis) : (s.withApx f).cx = s.cx := rfl
@[simp] theorem State.withApx_opt (f : Apsis → Apsis) : (s.withApx f).opt = s.opt := rfl
@[simp] theorem State.withApx_jes (f : Apsis → Apsis) : (s.withApx f).jes = s.jes := rfl
@[simp] theorem State.withApx_apx (f : Apsis → Apsis) : (s.withApx f).apx = f s.apx := rfl
@[simp] theorem State.withApx_rep (f : Apsis → Apsis) : (s.withApx f).rep = s.rep := rfl
@[simp] theorem State.withApx_pwr (f : Apsis → Apsis) : (s.withApx f).pwr = s.pwr := rfl
@[simp] theorem State.withApx_pins (f : Apsis → Apsis) : (s.withApx f).pins = s.pins := rfl
@[simp] theorem State.withApx_sec (f : Apsis → Apsis) : (s.withApx f).sec = s.sec := rfl
@[simp] theorem State.withApx_acx (f : Apsis → Apsis) : (s.withApx f).acx = s.acx := rfl
@[simp] theorem State.withApx_pcie (f : Apsis → Apsis) : (s.withApx f).pcie = s.pcie := rfl

@[simp] theorem State.withPwr_pending (f : Power → Power) : (s.withPwr f).pending = s.pending := rfl
@[simp] theorem State.withPwr_regs (f : Power → Power) : (s.withPwr f).regs = s.regs := rfl
@[simp] theorem State.withPwr_now (f : Power → Power) : (s.withPwr f).now = s.now := rfl
@[simp] theorem State.withPwr_mem (f : Power → Power) : (s.withPwr f).mem = s.mem := rfl
@[simp] theorem State.withPwr_flaws (f : Power → Power) : (s.withPwr f).flaws = s.flaws := rfl
@[simp] theorem State.withPwr_fresh (f : Power → Power) : (s.withPwr f).fresh = s.fresh := rfl
@[simp] theorem State.withPwr_tb (f : Power → Power) : (s.withPwr f).tb = s.tb := rfl
@[simp] theorem State.withPwr_orr (f : Power → Power) : (s.withPwr f).orr = s.orr := rfl
@[simp] theorem State.withPwr_tiles (f : Power → Power) : (s.withPwr f).tiles = s.tiles := rfl
@[simp] theorem State.withPwr_mv (f : Power → Power) : (s.withPwr f).mv = s.mv := rfl
@[simp] theorem State.withPwr_fe (f : Power → Power) : (s.withPwr f).fe = s.fe := rfl
@[simp] theorem State.withPwr_hard (f : Power → Power) : (s.withPwr f).hard = s.hard := rfl
@[simp] theorem State.withPwr_cx (f : Power → Power) : (s.withPwr f).cx = s.cx := rfl
@[simp] theorem State.withPwr_opt (f : Power → Power) : (s.withPwr f).opt = s.opt := rfl
@[simp] theorem State.withPwr_jes (f : Power → Power) : (s.withPwr f).jes = s.jes := rfl
@[simp] theorem State.withPwr_apx (f : Power → Power) : (s.withPwr f).apx = s.apx := rfl
@[simp] theorem State.withPwr_rep (f : Power → Power) : (s.withPwr f).rep = s.rep := rfl
@[simp] theorem State.withPwr_pwr (f : Power → Power) : (s.withPwr f).pwr = f s.pwr := rfl
@[simp] theorem State.withPwr_pins (f : Power → Power) : (s.withPwr f).pins = s.pins := rfl
@[simp] theorem State.withPwr_sec (f : Power → Power) : (s.withPwr f).sec = s.sec := rfl
@[simp] theorem State.withPwr_acx (f : Power → Power) : (s.withPwr f).acx = s.acx := rfl
@[simp] theorem State.withPwr_pcie (f : Power → Power) : (s.withPwr f).pcie = s.pcie := rfl

@[simp] theorem State.withSec_pending (f : Security → Security) : (s.withSec f).pending = s.pending := rfl
@[simp] theorem State.withSec_regs (f : Security → Security) : (s.withSec f).regs = s.regs := rfl
@[simp] theorem State.withSec_now (f : Security → Security) : (s.withSec f).now = s.now := rfl
@[simp] theorem State.withSec_mem (f : Security → Security) : (s.withSec f).mem = s.mem := rfl
@[simp] theorem State.withSec_flaws (f : Security → Security) : (s.withSec f).flaws = s.flaws := rfl
@[simp] theorem State.withSec_fresh (f : Security → Security) : (s.withSec f).fresh = s.fresh := rfl
@[simp] theorem State.withSec_tb (f : Security → Security) : (s.withSec f).tb = s.tb := rfl
@[simp] theorem State.withSec_orr (f : Security → Security) : (s.withSec f).orr = s.orr := rfl
@[simp] theorem State.withSec_tiles (f : Security → Security) : (s.withSec f).tiles = s.tiles := rfl
@[simp] theorem State.withSec_mv (f : Security → Security) : (s.withSec f).mv = s.mv := rfl
@[simp] theorem State.withSec_fe (f : Security → Security) : (s.withSec f).fe = s.fe := rfl
@[simp] theorem State.withSec_hard (f : Security → Security) : (s.withSec f).hard = s.hard := rfl
@[simp] theorem State.withSec_cx (f : Security → Security) : (s.withSec f).cx = s.cx := rfl
@[simp] theorem State.withSec_opt (f : Security → Security) : (s.withSec f).opt = s.opt := rfl
@[simp] theorem State.withSec_jes (f : Security → Security) : (s.withSec f).jes = s.jes := rfl
@[simp] theorem State.withSec_apx (f : Security → Security) : (s.withSec f).apx = s.apx := rfl
@[simp] theorem State.withSec_rep (f : Security → Security) : (s.withSec f).rep = s.rep := rfl
@[simp] theorem State.withSec_pwr (f : Security → Security) : (s.withSec f).pwr = s.pwr := rfl
@[simp] theorem State.withSec_pins (f : Security → Security) : (s.withSec f).pins = s.pins := rfl
@[simp] theorem State.withSec_sec (f : Security → Security) : (s.withSec f).sec = f s.sec := rfl
@[simp] theorem State.withSec_acx (f : Security → Security) : (s.withSec f).acx = s.acx := rfl
@[simp] theorem State.withSec_pcie (f : Security → Security) : (s.withSec f).pcie = s.pcie := rfl

@[simp] theorem State.withAcx_pending (f : Acx → Acx) : (s.withAcx f).pending = s.pending := rfl
@[simp] theorem State.withAcx_regs (f : Acx → Acx) : (s.withAcx f).regs = s.regs := rfl
@[simp] theorem State.withAcx_now (f : Acx → Acx) : (s.withAcx f).now = s.now := rfl
@[simp] theorem State.withAcx_mem (f : Acx → Acx) : (s.withAcx f).mem = s.mem := rfl
@[simp] theorem State.withAcx_flaws (f : Acx → Acx) : (s.withAcx f).flaws = s.flaws := rfl
@[simp] theorem State.withAcx_fresh (f : Acx → Acx) : (s.withAcx f).fresh = s.fresh := rfl
@[simp] theorem State.withAcx_tb (f : Acx → Acx) : (s.withAcx f).tb = s.tb := rfl
@[simp] theorem State.withAcx_orr (f : Acx → Acx) : (s.withAcx f).orr = s.orr := rfl
@[simp] theorem State.withAcx_tiles (f : Acx → Acx) : (s.withAcx f).tiles = s.tiles := rfl
@[simp] theorem State.withAcx_mv (f : Acx → Acx) : (s.withAcx f).mv = s.mv := rfl
@[simp] theorem State.withAcx_fe (f : Acx → Acx) : (s.withAcx f).fe = s.fe := rfl
@[simp] theorem State.withAcx_hard (f : Acx → Acx) : (s.withAcx f).hard = s.hard := rfl
@[simp] theorem State.withAcx_cx (f : Acx → Acx) : (s.withAcx f).cx = s.cx := rfl
@[simp] theorem State.withAcx_opt (f : Acx → Acx) : (s.withAcx f).opt = s.opt := rfl
@[simp] theorem State.withAcx_jes (f : Acx → Acx) : (s.withAcx f).jes = s.jes := rfl
@[simp] theorem State.withAcx_apx (f : Acx → Acx) : (s.withAcx f).apx = s.apx := rfl
@[simp] theorem State.withAcx_rep (f : Acx → Acx) : (s.withAcx f).rep = s.rep := rfl
@[simp] theorem State.withAcx_pwr (f : Acx → Acx) : (s.withAcx f).pwr = s.pwr := rfl
@[simp] theorem State.withAcx_pins (f : Acx → Acx) : (s.withAcx f).pins = s.pins := rfl
@[simp] theorem State.withAcx_sec (f : Acx → Acx) : (s.withAcx f).sec = s.sec := rfl
@[simp] theorem State.withAcx_acx (f : Acx → Acx) : (s.withAcx f).acx = f s.acx := rfl
@[simp] theorem State.withAcx_pcie (f : Acx → Acx) : (s.withAcx f).pcie = s.pcie := rfl

@[simp] theorem State.withHart_pending (h : Fin 8) (f : Hart → Hart) : (s.withHart h f).pending = s.pending := rfl
@[simp] theorem State.withHart_regs (h : Fin 8) (f : Hart → Hart) : (s.withHart h f).regs = s.regs := rfl
@[simp] theorem State.withHart_now (h : Fin 8) (f : Hart → Hart) : (s.withHart h f).now = s.now := rfl
@[simp] theorem State.withHart_mem (h : Fin 8) (f : Hart → Hart) : (s.withHart h f).mem = s.mem := rfl
@[simp] theorem State.withHart_flaws (h : Fin 8) (f : Hart → Hart) : (s.withHart h f).flaws = s.flaws := rfl
@[simp] theorem State.withHart_fresh (h : Fin 8) (f : Hart → Hart) : (s.withHart h f).fresh = s.fresh := rfl
@[simp] theorem State.withHart_tb (h : Fin 8) (f : Hart → Hart) : (s.withHart h f).tb = s.tb := rfl
@[simp] theorem State.withHart_orr (h : Fin 8) (f : Hart → Hart) : (s.withHart h f).orr = s.orr := rfl
@[simp] theorem State.withHart_tiles (h : Fin 8) (f : Hart → Hart) : (s.withHart h f).tiles = s.tiles := rfl
@[simp] theorem State.withHart_mv (h : Fin 8) (f : Hart → Hart) : (s.withHart h f).mv = s.mv := rfl
@[simp] theorem State.withHart_fe (h : Fin 8) (f : Hart → Hart) : (s.withHart h f).fe = s.fe := rfl
@[simp] theorem State.withHart_hard (h : Fin 8) (f : Hart → Hart) : (s.withHart h f).hard = s.hard := rfl
@[simp] theorem State.withHart_cx (h : Fin 8) (f : Hart → Hart) : (s.withHart h f).cx = s.cx := rfl
@[simp] theorem State.withHart_opt (h : Fin 8) (f : Hart → Hart) : (s.withHart h f).opt = s.opt := rfl
@[simp] theorem State.withHart_jes (h : Fin 8) (f : Hart → Hart) : (s.withHart h f).jes = s.jes := rfl
@[simp] theorem State.withHart_apx (h : Fin 8) (f : Hart → Hart) : (s.withHart h f).apx = s.apx := rfl
@[simp] theorem State.withHart_rep (h : Fin 8) (f : Hart → Hart) : (s.withHart h f).rep = s.rep := rfl
@[simp] theorem State.withHart_pwr (h : Fin 8) (f : Hart → Hart) : (s.withHart h f).pwr = s.pwr := rfl
@[simp] theorem State.withHart_pins (h : Fin 8) (f : Hart → Hart) : (s.withHart h f).pins = s.pins := rfl
@[simp] theorem State.withHart_sec (h : Fin 8) (f : Hart → Hart) : (s.withHart h f).sec = s.sec := rfl
@[simp] theorem State.withHart_pcie (h : Fin 8) (f : Hart → Hart) : (s.withHart h f).pcie = s.pcie := rfl

@[simp] theorem State.setDom_pending (d : Nat) (v : BitVec 2) : (s.setDom d v).pending = s.pending := rfl
@[simp] theorem State.setDom_regs (d : Nat) (v : BitVec 2) : (s.setDom d v).regs = s.regs := rfl
@[simp] theorem State.setDom_now (d : Nat) (v : BitVec 2) : (s.setDom d v).now = s.now := rfl
@[simp] theorem State.setDom_mem (d : Nat) (v : BitVec 2) : (s.setDom d v).mem = s.mem := rfl
@[simp] theorem State.setDom_flaws (d : Nat) (v : BitVec 2) : (s.setDom d v).flaws = s.flaws := rfl
@[simp] theorem State.setDom_fresh (d : Nat) (v : BitVec 2) : (s.setDom d v).fresh = s.fresh := rfl
@[simp] theorem State.setDom_tb (d : Nat) (v : BitVec 2) : (s.setDom d v).tb = s.tb := rfl
@[simp] theorem State.setDom_orr (d : Nat) (v : BitVec 2) : (s.setDom d v).orr = s.orr := rfl
@[simp] theorem State.setDom_tiles (d : Nat) (v : BitVec 2) : (s.setDom d v).tiles = s.tiles := rfl
@[simp] theorem State.setDom_mv (d : Nat) (v : BitVec 2) : (s.setDom d v).mv = s.mv := rfl
@[simp] theorem State.setDom_fe (d : Nat) (v : BitVec 2) : (s.setDom d v).fe = s.fe := rfl
@[simp] theorem State.setDom_hard (d : Nat) (v : BitVec 2) : (s.setDom d v).hard = s.hard := rfl
@[simp] theorem State.setDom_cx (d : Nat) (v : BitVec 2) : (s.setDom d v).cx = s.cx := rfl
@[simp] theorem State.setDom_opt (d : Nat) (v : BitVec 2) : (s.setDom d v).opt = s.opt := rfl
@[simp] theorem State.setDom_jes (d : Nat) (v : BitVec 2) : (s.setDom d v).jes = s.jes := rfl
@[simp] theorem State.setDom_apx (d : Nat) (v : BitVec 2) : (s.setDom d v).apx = s.apx := rfl
@[simp] theorem State.setDom_rep (d : Nat) (v : BitVec 2) : (s.setDom d v).rep = s.rep := rfl
@[simp] theorem State.setDom_pins (d : Nat) (v : BitVec 2) : (s.setDom d v).pins = s.pins := rfl
@[simp] theorem State.setDom_sec (d : Nat) (v : BitVec 2) : (s.setDom d v).sec = s.sec := rfl
@[simp] theorem State.setDom_acx (d : Nat) (v : BitVec 2) : (s.setDom d v).acx = s.acx := rfl
@[simp] theorem State.setDom_pcie (d : Nat) (v : BitVec 2) : (s.setDom d v).pcie = s.pcie := rfl

@[simp] theorem State.spent_pending : s.spent.pending = s.pending := rfl
@[simp] theorem State.spent_regs : s.spent.regs = s.regs := rfl
@[simp] theorem State.spent_now : s.spent.now = s.now := rfl
@[simp] theorem State.spent_mem : s.spent.mem = s.mem := rfl
@[simp] theorem State.spent_flaws : s.spent.flaws = s.flaws := rfl
@[simp] theorem State.spent_fresh : s.spent.fresh = s.fresh + 1 := rfl
@[simp] theorem State.spent_tb : s.spent.tb = s.tb := rfl
@[simp] theorem State.spent_orr : s.spent.orr = s.orr := rfl
@[simp] theorem State.spent_tiles : s.spent.tiles = s.tiles := rfl
@[simp] theorem State.spent_mv : s.spent.mv = s.mv := rfl
@[simp] theorem State.spent_fe : s.spent.fe = s.fe := rfl
@[simp] theorem State.spent_hard : s.spent.hard = s.hard := rfl
@[simp] theorem State.spent_cx : s.spent.cx = s.cx := rfl
@[simp] theorem State.spent_opt : s.spent.opt = s.opt := rfl
@[simp] theorem State.spent_jes : s.spent.jes = s.jes := rfl
@[simp] theorem State.spent_apx : s.spent.apx = s.apx := rfl
@[simp] theorem State.spent_rep : s.spent.rep = s.rep := rfl
@[simp] theorem State.spent_pwr : s.spent.pwr = s.pwr := rfl
@[simp] theorem State.spent_pins : s.spent.pins = s.pins := rfl
@[simp] theorem State.spent_sec : s.spent.sec = s.sec := rfl
@[simp] theorem State.spent_acx : s.spent.acx = s.acx := rfl
@[simp] theorem State.spent_pcie : s.spent.pcie = s.pcie := rfl

@[simp] theorem State.setByte_pending (a : Nat) (b : BitVec 8) : (s.setByte a b).pending = s.pending := rfl
@[simp] theorem State.setByte_regs (a : Nat) (b : BitVec 8) : (s.setByte a b).regs = s.regs := rfl
@[simp] theorem State.setByte_now (a : Nat) (b : BitVec 8) : (s.setByte a b).now = s.now := rfl
@[simp] theorem State.setByte_fresh (a : Nat) (b : BitVec 8) : (s.setByte a b).fresh = s.fresh := rfl
@[simp] theorem State.setByte_tb (a : Nat) (b : BitVec 8) : (s.setByte a b).tb = s.tb := rfl
@[simp] theorem State.setByte_orr (a : Nat) (b : BitVec 8) : (s.setByte a b).orr = s.orr := rfl
@[simp] theorem State.setByte_tiles (a : Nat) (b : BitVec 8) : (s.setByte a b).tiles = s.tiles := rfl
@[simp] theorem State.setByte_mv (a : Nat) (b : BitVec 8) : (s.setByte a b).mv = s.mv := rfl
@[simp] theorem State.setByte_fe (a : Nat) (b : BitVec 8) : (s.setByte a b).fe = s.fe := rfl
@[simp] theorem State.setByte_hard (a : Nat) (b : BitVec 8) : (s.setByte a b).hard = s.hard := rfl
@[simp] theorem State.setByte_cx (a : Nat) (b : BitVec 8) : (s.setByte a b).cx = s.cx := rfl
@[simp] theorem State.setByte_opt (a : Nat) (b : BitVec 8) : (s.setByte a b).opt = s.opt := rfl
@[simp] theorem State.setByte_jes (a : Nat) (b : BitVec 8) : (s.setByte a b).jes = s.jes := rfl
@[simp] theorem State.setByte_apx (a : Nat) (b : BitVec 8) : (s.setByte a b).apx = s.apx := rfl
@[simp] theorem State.setByte_rep (a : Nat) (b : BitVec 8) : (s.setByte a b).rep = s.rep := rfl
@[simp] theorem State.setByte_pwr (a : Nat) (b : BitVec 8) : (s.setByte a b).pwr = s.pwr := rfl
@[simp] theorem State.setByte_pins (a : Nat) (b : BitVec 8) : (s.setByte a b).pins = s.pins := rfl
@[simp] theorem State.setByte_sec (a : Nat) (b : BitVec 8) : (s.setByte a b).sec = s.sec := rfl
@[simp] theorem State.setByte_acx (a : Nat) (b : BitVec 8) : (s.setByte a b).acx = s.acx := rfl
@[simp] theorem State.setByte_pcie (a : Nat) (b : BitVec 8) : (s.setByte a b).pcie = s.pcie := rfl
@[simp] theorem State.setByte_mem (a : Nat) (b : BitVec 8) : (s.setByte a b).mem = s.mem.write memDefault a b := rfl

/-! Register fields: only the register file changes; a bit that the M880 sets is also noted for R4. -/

@[simp] theorem State.setWords_pending (a n v : Nat) : (s.setWords a n v).pending = s.pending := by
  induction n generalizing s a v with
  | zero => rfl
  | succ n ih => exact ih ..
@[simp] theorem State.put_pending (f : Fld) (v : Nat) : (s.put f v).pending = s.pending := State.setWords_pending ..
@[simp] theorem State.count_pending (f : Fld) : (s.count f).pending = s.pending := State.put_pending ..
@[simp] theorem State.raise_pending (f : Fld) : (s.raise f).pending = s.pending := State.put_pending ..
@[simp] theorem State.raiseBit_pending (f : Fld) (i : Nat) : (s.raiseBit f i).pending = s.pending := State.put_pending ..
@[simp] theorem State.raiseIf_pending (c : Bool) (f : Fld) : (s.raiseIf c f).pending = s.pending := by
  cases c
  · rfl
  · exact State.put_pending ..
@[simp] theorem State.setWords_now (a n v : Nat) : (s.setWords a n v).now = s.now := by
  induction n generalizing s a v with
  | zero => rfl
  | succ n ih => exact ih ..
@[simp] theorem State.put_now (f : Fld) (v : Nat) : (s.put f v).now = s.now := State.setWords_now ..
@[simp] theorem State.count_now (f : Fld) : (s.count f).now = s.now := State.put_now ..
@[simp] theorem State.setWords_mem (a n v : Nat) : (s.setWords a n v).mem = s.mem := by
  induction n generalizing s a v with
  | zero => rfl
  | succ n ih => exact ih ..
@[simp] theorem State.put_mem (f : Fld) (v : Nat) : (s.put f v).mem = s.mem := State.setWords_mem ..
@[simp] theorem State.count_mem (f : Fld) : (s.count f).mem = s.mem := State.put_mem ..
@[simp] theorem State.raise_mem (f : Fld) : (s.raise f).mem = s.mem := State.put_mem ..
@[simp] theorem State.raiseBit_mem (f : Fld) (i : Nat) : (s.raiseBit f i).mem = s.mem := State.put_mem ..
@[simp] theorem State.raiseIf_mem (c : Bool) (f : Fld) : (s.raiseIf c f).mem = s.mem := by
  cases c
  · rfl
  · exact State.put_mem ..
@[simp] theorem State.setWords_flaws (a n v : Nat) : (s.setWords a n v).flaws = s.flaws := by
  induction n generalizing s a v with
  | zero => rfl
  | succ n ih => exact ih ..
@[simp] theorem State.put_flaws (f : Fld) (v : Nat) : (s.put f v).flaws = s.flaws := State.setWords_flaws ..
@[simp] theorem State.count_flaws (f : Fld) : (s.count f).flaws = s.flaws := State.put_flaws ..
@[simp] theorem State.raise_flaws (f : Fld) : (s.raise f).flaws = s.flaws := State.put_flaws ..
@[simp] theorem State.raiseBit_flaws (f : Fld) (i : Nat) : (s.raiseBit f i).flaws = s.flaws := State.put_flaws ..
@[simp] theorem State.raiseIf_flaws (c : Bool) (f : Fld) : (s.raiseIf c f).flaws = s.flaws := by
  cases c
  · rfl
  · exact State.put_flaws ..
@[simp] theorem State.setWords_fresh (a n v : Nat) : (s.setWords a n v).fresh = s.fresh := by
  induction n generalizing s a v with
  | zero => rfl
  | succ n ih => exact ih ..
@[simp] theorem State.put_fresh (f : Fld) (v : Nat) : (s.put f v).fresh = s.fresh := State.setWords_fresh ..
@[simp] theorem State.count_fresh (f : Fld) : (s.count f).fresh = s.fresh := State.put_fresh ..
@[simp] theorem State.raise_fresh (f : Fld) : (s.raise f).fresh = s.fresh := State.put_fresh ..
@[simp] theorem State.raiseBit_fresh (f : Fld) (i : Nat) : (s.raiseBit f i).fresh = s.fresh := State.put_fresh ..
@[simp] theorem State.raiseIf_fresh (c : Bool) (f : Fld) : (s.raiseIf c f).fresh = s.fresh := by
  cases c
  · rfl
  · exact State.put_fresh ..
@[simp] theorem State.setWords_tb (a n v : Nat) : (s.setWords a n v).tb = s.tb := by
  induction n generalizing s a v with
  | zero => rfl
  | succ n ih => exact ih ..
@[simp] theorem State.put_tb (f : Fld) (v : Nat) : (s.put f v).tb = s.tb := State.setWords_tb ..
@[simp] theorem State.count_tb (f : Fld) : (s.count f).tb = s.tb := State.put_tb ..
@[simp] theorem State.raise_tb (f : Fld) : (s.raise f).tb = s.tb := State.put_tb ..
@[simp] theorem State.raiseBit_tb (f : Fld) (i : Nat) : (s.raiseBit f i).tb = s.tb := State.put_tb ..
@[simp] theorem State.raiseIf_tb (c : Bool) (f : Fld) : (s.raiseIf c f).tb = s.tb := by
  cases c
  · rfl
  · exact State.put_tb ..
@[simp] theorem State.setWords_orr (a n v : Nat) : (s.setWords a n v).orr = s.orr := by
  induction n generalizing s a v with
  | zero => rfl
  | succ n ih => exact ih ..
@[simp] theorem State.put_orr (f : Fld) (v : Nat) : (s.put f v).orr = s.orr := State.setWords_orr ..
@[simp] theorem State.count_orr (f : Fld) : (s.count f).orr = s.orr := State.put_orr ..
@[simp] theorem State.raise_orr (f : Fld) : (s.raise f).orr = s.orr := State.put_orr ..
@[simp] theorem State.raiseBit_orr (f : Fld) (i : Nat) : (s.raiseBit f i).orr = s.orr := State.put_orr ..
@[simp] theorem State.raiseIf_orr (c : Bool) (f : Fld) : (s.raiseIf c f).orr = s.orr := by
  cases c
  · rfl
  · exact State.put_orr ..
@[simp] theorem State.setWords_tiles (a n v : Nat) : (s.setWords a n v).tiles = s.tiles := by
  induction n generalizing s a v with
  | zero => rfl
  | succ n ih => exact ih ..
@[simp] theorem State.put_tiles (f : Fld) (v : Nat) : (s.put f v).tiles = s.tiles := State.setWords_tiles ..
@[simp] theorem State.count_tiles (f : Fld) : (s.count f).tiles = s.tiles := State.put_tiles ..
@[simp] theorem State.raise_tiles (f : Fld) : (s.raise f).tiles = s.tiles := State.put_tiles ..
@[simp] theorem State.raiseBit_tiles (f : Fld) (i : Nat) : (s.raiseBit f i).tiles = s.tiles := State.put_tiles ..
@[simp] theorem State.raiseIf_tiles (c : Bool) (f : Fld) : (s.raiseIf c f).tiles = s.tiles := by
  cases c
  · rfl
  · exact State.put_tiles ..
@[simp] theorem State.setWords_mv (a n v : Nat) : (s.setWords a n v).mv = s.mv := by
  induction n generalizing s a v with
  | zero => rfl
  | succ n ih => exact ih ..
@[simp] theorem State.put_mv (f : Fld) (v : Nat) : (s.put f v).mv = s.mv := State.setWords_mv ..
@[simp] theorem State.count_mv (f : Fld) : (s.count f).mv = s.mv := State.put_mv ..
@[simp] theorem State.raise_mv (f : Fld) : (s.raise f).mv = s.mv := State.put_mv ..
@[simp] theorem State.raiseBit_mv (f : Fld) (i : Nat) : (s.raiseBit f i).mv = s.mv := State.put_mv ..
@[simp] theorem State.raiseIf_mv (c : Bool) (f : Fld) : (s.raiseIf c f).mv = s.mv := by
  cases c
  · rfl
  · exact State.put_mv ..
@[simp] theorem State.setWords_fe (a n v : Nat) : (s.setWords a n v).fe = s.fe := by
  induction n generalizing s a v with
  | zero => rfl
  | succ n ih => exact ih ..
@[simp] theorem State.put_fe (f : Fld) (v : Nat) : (s.put f v).fe = s.fe := State.setWords_fe ..
@[simp] theorem State.count_fe (f : Fld) : (s.count f).fe = s.fe := State.put_fe ..
@[simp] theorem State.raise_fe (f : Fld) : (s.raise f).fe = s.fe := State.put_fe ..
@[simp] theorem State.raiseBit_fe (f : Fld) (i : Nat) : (s.raiseBit f i).fe = s.fe := State.put_fe ..
@[simp] theorem State.raiseIf_fe (c : Bool) (f : Fld) : (s.raiseIf c f).fe = s.fe := by
  cases c
  · rfl
  · exact State.put_fe ..
@[simp] theorem State.setWords_hard (a n v : Nat) : (s.setWords a n v).hard = s.hard := by
  induction n generalizing s a v with
  | zero => rfl
  | succ n ih => exact ih ..
@[simp] theorem State.put_hard (f : Fld) (v : Nat) : (s.put f v).hard = s.hard := State.setWords_hard ..
@[simp] theorem State.count_hard (f : Fld) : (s.count f).hard = s.hard := State.put_hard ..
@[simp] theorem State.raise_hard (f : Fld) : (s.raise f).hard = s.hard := State.put_hard ..
@[simp] theorem State.raiseBit_hard (f : Fld) (i : Nat) : (s.raiseBit f i).hard = s.hard := State.put_hard ..
@[simp] theorem State.raiseIf_hard (c : Bool) (f : Fld) : (s.raiseIf c f).hard = s.hard := by
  cases c
  · rfl
  · exact State.put_hard ..
@[simp] theorem State.setWords_cx (a n v : Nat) : (s.setWords a n v).cx = s.cx := by
  induction n generalizing s a v with
  | zero => rfl
  | succ n ih => exact ih ..
@[simp] theorem State.put_cx (f : Fld) (v : Nat) : (s.put f v).cx = s.cx := State.setWords_cx ..
@[simp] theorem State.count_cx (f : Fld) : (s.count f).cx = s.cx := State.put_cx ..
@[simp] theorem State.raise_cx (f : Fld) : (s.raise f).cx = s.cx := State.put_cx ..
@[simp] theorem State.raiseBit_cx (f : Fld) (i : Nat) : (s.raiseBit f i).cx = s.cx := State.put_cx ..
@[simp] theorem State.raiseIf_cx (c : Bool) (f : Fld) : (s.raiseIf c f).cx = s.cx := by
  cases c
  · rfl
  · exact State.put_cx ..
@[simp] theorem State.setWords_opt (a n v : Nat) : (s.setWords a n v).opt = s.opt := by
  induction n generalizing s a v with
  | zero => rfl
  | succ n ih => exact ih ..
@[simp] theorem State.put_opt (f : Fld) (v : Nat) : (s.put f v).opt = s.opt := State.setWords_opt ..
@[simp] theorem State.count_opt (f : Fld) : (s.count f).opt = s.opt := State.put_opt ..
@[simp] theorem State.raise_opt (f : Fld) : (s.raise f).opt = s.opt := State.put_opt ..
@[simp] theorem State.raiseBit_opt (f : Fld) (i : Nat) : (s.raiseBit f i).opt = s.opt := State.put_opt ..
@[simp] theorem State.raiseIf_opt (c : Bool) (f : Fld) : (s.raiseIf c f).opt = s.opt := by
  cases c
  · rfl
  · exact State.put_opt ..
@[simp] theorem State.setWords_jes (a n v : Nat) : (s.setWords a n v).jes = s.jes := by
  induction n generalizing s a v with
  | zero => rfl
  | succ n ih => exact ih ..
@[simp] theorem State.put_jes (f : Fld) (v : Nat) : (s.put f v).jes = s.jes := State.setWords_jes ..
@[simp] theorem State.count_jes (f : Fld) : (s.count f).jes = s.jes := State.put_jes ..
@[simp] theorem State.raise_jes (f : Fld) : (s.raise f).jes = s.jes := State.put_jes ..
@[simp] theorem State.raiseBit_jes (f : Fld) (i : Nat) : (s.raiseBit f i).jes = s.jes := State.put_jes ..
@[simp] theorem State.raiseIf_jes (c : Bool) (f : Fld) : (s.raiseIf c f).jes = s.jes := by
  cases c
  · rfl
  · exact State.put_jes ..
@[simp] theorem State.setWords_apx (a n v : Nat) : (s.setWords a n v).apx = s.apx := by
  induction n generalizing s a v with
  | zero => rfl
  | succ n ih => exact ih ..
@[simp] theorem State.put_apx (f : Fld) (v : Nat) : (s.put f v).apx = s.apx := State.setWords_apx ..
@[simp] theorem State.count_apx (f : Fld) : (s.count f).apx = s.apx := State.put_apx ..
@[simp] theorem State.raise_apx (f : Fld) : (s.raise f).apx = s.apx := State.put_apx ..
@[simp] theorem State.raiseBit_apx (f : Fld) (i : Nat) : (s.raiseBit f i).apx = s.apx := State.put_apx ..
@[simp] theorem State.raiseIf_apx (c : Bool) (f : Fld) : (s.raiseIf c f).apx = s.apx := by
  cases c
  · rfl
  · exact State.put_apx ..
@[simp] theorem State.setWords_rep (a n v : Nat) : (s.setWords a n v).rep = s.rep := by
  induction n generalizing s a v with
  | zero => rfl
  | succ n ih => exact ih ..
@[simp] theorem State.put_rep (f : Fld) (v : Nat) : (s.put f v).rep = s.rep := State.setWords_rep ..
@[simp] theorem State.count_rep (f : Fld) : (s.count f).rep = s.rep := State.put_rep ..
@[simp] theorem State.raise_rep (f : Fld) : (s.raise f).rep = s.rep := State.put_rep ..
@[simp] theorem State.raiseBit_rep (f : Fld) (i : Nat) : (s.raiseBit f i).rep = s.rep := State.put_rep ..
@[simp] theorem State.raiseIf_rep (c : Bool) (f : Fld) : (s.raiseIf c f).rep = s.rep := by
  cases c
  · rfl
  · exact State.put_rep ..
@[simp] theorem State.setWords_pwr (a n v : Nat) : (s.setWords a n v).pwr = s.pwr := by
  induction n generalizing s a v with
  | zero => rfl
  | succ n ih => exact ih ..
@[simp] theorem State.put_pwr (f : Fld) (v : Nat) : (s.put f v).pwr = s.pwr := State.setWords_pwr ..
@[simp] theorem State.count_pwr (f : Fld) : (s.count f).pwr = s.pwr := State.put_pwr ..
@[simp] theorem State.raise_pwr (f : Fld) : (s.raise f).pwr = s.pwr := State.put_pwr ..
@[simp] theorem State.raiseBit_pwr (f : Fld) (i : Nat) : (s.raiseBit f i).pwr = s.pwr := State.put_pwr ..
@[simp] theorem State.raiseIf_pwr (c : Bool) (f : Fld) : (s.raiseIf c f).pwr = s.pwr := by
  cases c
  · rfl
  · exact State.put_pwr ..
@[simp] theorem State.setWords_pins (a n v : Nat) : (s.setWords a n v).pins = s.pins := by
  induction n generalizing s a v with
  | zero => rfl
  | succ n ih => exact ih ..
@[simp] theorem State.put_pins (f : Fld) (v : Nat) : (s.put f v).pins = s.pins := State.setWords_pins ..
@[simp] theorem State.count_pins (f : Fld) : (s.count f).pins = s.pins := State.put_pins ..
@[simp] theorem State.raise_pins (f : Fld) : (s.raise f).pins = s.pins := State.put_pins ..
@[simp] theorem State.raiseBit_pins (f : Fld) (i : Nat) : (s.raiseBit f i).pins = s.pins := State.put_pins ..
@[simp] theorem State.raiseIf_pins (c : Bool) (f : Fld) : (s.raiseIf c f).pins = s.pins := by
  cases c
  · rfl
  · exact State.put_pins ..
@[simp] theorem State.setWords_sec (a n v : Nat) : (s.setWords a n v).sec = s.sec := by
  induction n generalizing s a v with
  | zero => rfl
  | succ n ih => exact ih ..
@[simp] theorem State.put_sec (f : Fld) (v : Nat) : (s.put f v).sec = s.sec := State.setWords_sec ..
@[simp] theorem State.count_sec (f : Fld) : (s.count f).sec = s.sec := State.put_sec ..
@[simp] theorem State.raise_sec (f : Fld) : (s.raise f).sec = s.sec := State.put_sec ..
@[simp] theorem State.raiseBit_sec (f : Fld) (i : Nat) : (s.raiseBit f i).sec = s.sec := State.put_sec ..
@[simp] theorem State.raiseIf_sec (c : Bool) (f : Fld) : (s.raiseIf c f).sec = s.sec := by
  cases c
  · rfl
  · exact State.put_sec ..
@[simp] theorem State.setWords_acx (a n v : Nat) : (s.setWords a n v).acx = s.acx := by
  induction n generalizing s a v with
  | zero => rfl
  | succ n ih => exact ih ..
@[simp] theorem State.put_acx (f : Fld) (v : Nat) : (s.put f v).acx = s.acx := State.setWords_acx ..
@[simp] theorem State.count_acx (f : Fld) : (s.count f).acx = s.acx := State.put_acx ..
@[simp] theorem State.raise_acx (f : Fld) : (s.raise f).acx = s.acx := State.put_acx ..
@[simp] theorem State.raiseBit_acx (f : Fld) (i : Nat) : (s.raiseBit f i).acx = s.acx := State.put_acx ..
@[simp] theorem State.raiseIf_acx (c : Bool) (f : Fld) : (s.raiseIf c f).acx = s.acx := by
  cases c
  · rfl
  · exact State.put_acx ..
@[simp] theorem State.setWords_pcie (a n v : Nat) : (s.setWords a n v).pcie = s.pcie := by
  induction n generalizing s a v with
  | zero => rfl
  | succ n ih => exact ih ..
@[simp] theorem State.put_pcie (f : Fld) (v : Nat) : (s.put f v).pcie = s.pcie := State.setWords_pcie ..
@[simp] theorem State.count_pcie (f : Fld) : (s.count f).pcie = s.pcie := State.put_pcie ..
@[simp] theorem State.raise_pcie (f : Fld) : (s.raise f).pcie = s.pcie := State.put_pcie ..
@[simp] theorem State.raiseBit_pcie (f : Fld) (i : Nat) : (s.raiseBit f i).pcie = s.pcie := State.put_pcie ..
@[simp] theorem State.raiseIf_pcie (c : Bool) (f : Fld) : (s.raiseIf c f).pcie = s.pcie := by
  cases c
  · rfl
  · exact State.put_pcie ..

/-! Memory: bytes change nothing but memory and its errors. -/

@[simp] theorem State.setBytes_pending (a : Nat) (bs : List (BitVec 8)) : (s.setBytes a bs).pending = s.pending := by
  induction bs generalizing s a with
  | nil => rfl
  | cons b bs ih => exact ih ..
@[simp] theorem State.setBytes_regs (a : Nat) (bs : List (BitVec 8)) : (s.setBytes a bs).regs = s.regs := by
  induction bs generalizing s a with
  | nil => rfl
  | cons b bs ih => exact ih ..
@[simp] theorem State.setBytes_now (a : Nat) (bs : List (BitVec 8)) : (s.setBytes a bs).now = s.now := by
  induction bs generalizing s a with
  | nil => rfl
  | cons b bs ih => exact ih ..
@[simp] theorem State.setBytes_fresh (a : Nat) (bs : List (BitVec 8)) : (s.setBytes a bs).fresh = s.fresh := by
  induction bs generalizing s a with
  | nil => rfl
  | cons b bs ih => exact ih ..
@[simp] theorem State.setBytes_tb (a : Nat) (bs : List (BitVec 8)) : (s.setBytes a bs).tb = s.tb := by
  induction bs generalizing s a with
  | nil => rfl
  | cons b bs ih => exact ih ..
@[simp] theorem State.setBytes_orr (a : Nat) (bs : List (BitVec 8)) : (s.setBytes a bs).orr = s.orr := by
  induction bs generalizing s a with
  | nil => rfl
  | cons b bs ih => exact ih ..
@[simp] theorem State.setBytes_tiles (a : Nat) (bs : List (BitVec 8)) : (s.setBytes a bs).tiles = s.tiles := by
  induction bs generalizing s a with
  | nil => rfl
  | cons b bs ih => exact ih ..
@[simp] theorem State.setBytes_mv (a : Nat) (bs : List (BitVec 8)) : (s.setBytes a bs).mv = s.mv := by
  induction bs generalizing s a with
  | nil => rfl
  | cons b bs ih => exact ih ..
@[simp] theorem State.setBytes_fe (a : Nat) (bs : List (BitVec 8)) : (s.setBytes a bs).fe = s.fe := by
  induction bs generalizing s a with
  | nil => rfl
  | cons b bs ih => exact ih ..
@[simp] theorem State.setBytes_hard (a : Nat) (bs : List (BitVec 8)) : (s.setBytes a bs).hard = s.hard := by
  induction bs generalizing s a with
  | nil => rfl
  | cons b bs ih => exact ih ..
@[simp] theorem State.setBytes_cx (a : Nat) (bs : List (BitVec 8)) : (s.setBytes a bs).cx = s.cx := by
  induction bs generalizing s a with
  | nil => rfl
  | cons b bs ih => exact ih ..
@[simp] theorem State.setBytes_opt (a : Nat) (bs : List (BitVec 8)) : (s.setBytes a bs).opt = s.opt := by
  induction bs generalizing s a with
  | nil => rfl
  | cons b bs ih => exact ih ..
@[simp] theorem State.setBytes_jes (a : Nat) (bs : List (BitVec 8)) : (s.setBytes a bs).jes = s.jes := by
  induction bs generalizing s a with
  | nil => rfl
  | cons b bs ih => exact ih ..
@[simp] theorem State.setBytes_apx (a : Nat) (bs : List (BitVec 8)) : (s.setBytes a bs).apx = s.apx := by
  induction bs generalizing s a with
  | nil => rfl
  | cons b bs ih => exact ih ..
@[simp] theorem State.setBytes_rep (a : Nat) (bs : List (BitVec 8)) : (s.setBytes a bs).rep = s.rep := by
  induction bs generalizing s a with
  | nil => rfl
  | cons b bs ih => exact ih ..
@[simp] theorem State.setBytes_pwr (a : Nat) (bs : List (BitVec 8)) : (s.setBytes a bs).pwr = s.pwr := by
  induction bs generalizing s a with
  | nil => rfl
  | cons b bs ih => exact ih ..
@[simp] theorem State.setBytes_pins (a : Nat) (bs : List (BitVec 8)) : (s.setBytes a bs).pins = s.pins := by
  induction bs generalizing s a with
  | nil => rfl
  | cons b bs ih => exact ih ..
@[simp] theorem State.setBytes_sec (a : Nat) (bs : List (BitVec 8)) : (s.setBytes a bs).sec = s.sec := by
  induction bs generalizing s a with
  | nil => rfl
  | cons b bs ih => exact ih ..
@[simp] theorem State.setBytes_acx (a : Nat) (bs : List (BitVec 8)) : (s.setBytes a bs).acx = s.acx := by
  induction bs generalizing s a with
  | nil => rfl
  | cons b bs ih => exact ih ..
@[simp] theorem State.setBytes_pcie (a : Nat) (bs : List (BitVec 8)) : (s.setBytes a bs).pcie = s.pcie := by
  induction bs generalizing s a with
  | nil => rfl
  | cons b bs ih => exact ih ..

/-! A port of a memory stores bytes: memory, its errors and the notes of the ck change. -/

@[simp] theorem State.putByte_pending (p a : Nat) (b : BitVec 8) : (s.putByte p a b).pending = s.pending := by
  unfold State.putByte State.spadByte State.portByte; repeat' (first | rfl | split)
@[simp] theorem State.putBytes_pending (p a : Nat) (bs : List (BitVec 8)) : (s.putBytes p a bs).pending = s.pending := by
  induction bs generalizing s a with
  | nil => rfl
  | cons b bs ih => exact (ih ..).trans (State.putByte_pending ..)
@[simp] theorem State.putByte_regs (p a : Nat) (b : BitVec 8) : (s.putByte p a b).regs = s.regs := by
  unfold State.putByte State.spadByte State.portByte; repeat' (first | rfl | split)
@[simp] theorem State.putBytes_regs (p a : Nat) (bs : List (BitVec 8)) : (s.putBytes p a bs).regs = s.regs := by
  induction bs generalizing s a with
  | nil => rfl
  | cons b bs ih => exact (ih ..).trans (State.putByte_regs ..)
@[simp] theorem State.putByte_fresh (p a : Nat) (b : BitVec 8) : (s.putByte p a b).fresh = s.fresh := by
  unfold State.putByte State.spadByte State.portByte; repeat' (first | rfl | split)
@[simp] theorem State.putBytes_fresh (p a : Nat) (bs : List (BitVec 8)) : (s.putBytes p a bs).fresh = s.fresh := by
  induction bs generalizing s a with
  | nil => rfl
  | cons b bs ih => exact (ih ..).trans (State.putByte_fresh ..)
@[simp] theorem State.putByte_tb (p a : Nat) (b : BitVec 8) : (s.putByte p a b).tb = s.tb := by
  unfold State.putByte State.spadByte State.portByte; repeat' (first | rfl | split)
@[simp] theorem State.putBytes_tb (p a : Nat) (bs : List (BitVec 8)) : (s.putBytes p a bs).tb = s.tb := by
  induction bs generalizing s a with
  | nil => rfl
  | cons b bs ih => exact (ih ..).trans (State.putByte_tb ..)
@[simp] theorem State.putByte_orr (p a : Nat) (b : BitVec 8) : (s.putByte p a b).orr = s.orr := by
  unfold State.putByte State.spadByte State.portByte; repeat' (first | rfl | split)
@[simp] theorem State.putBytes_orr (p a : Nat) (bs : List (BitVec 8)) : (s.putBytes p a bs).orr = s.orr := by
  induction bs generalizing s a with
  | nil => rfl
  | cons b bs ih => exact (ih ..).trans (State.putByte_orr ..)
@[simp] theorem State.putByte_tiles (p a : Nat) (b : BitVec 8) : (s.putByte p a b).tiles = s.tiles := by
  unfold State.putByte State.spadByte State.portByte; repeat' (first | rfl | split)
@[simp] theorem State.putBytes_tiles (p a : Nat) (bs : List (BitVec 8)) : (s.putBytes p a bs).tiles = s.tiles := by
  induction bs generalizing s a with
  | nil => rfl
  | cons b bs ih => exact (ih ..).trans (State.putByte_tiles ..)
@[simp] theorem State.putByte_mv (p a : Nat) (b : BitVec 8) : (s.putByte p a b).mv = s.mv := by
  unfold State.putByte State.spadByte State.portByte; repeat' (first | rfl | split)
@[simp] theorem State.putBytes_mv (p a : Nat) (bs : List (BitVec 8)) : (s.putBytes p a bs).mv = s.mv := by
  induction bs generalizing s a with
  | nil => rfl
  | cons b bs ih => exact (ih ..).trans (State.putByte_mv ..)
@[simp] theorem State.putByte_fe (p a : Nat) (b : BitVec 8) : (s.putByte p a b).fe = s.fe := by
  unfold State.putByte State.spadByte State.portByte; repeat' (first | rfl | split)
@[simp] theorem State.putBytes_fe (p a : Nat) (bs : List (BitVec 8)) : (s.putBytes p a bs).fe = s.fe := by
  induction bs generalizing s a with
  | nil => rfl
  | cons b bs ih => exact (ih ..).trans (State.putByte_fe ..)
@[simp] theorem State.putByte_hard (p a : Nat) (b : BitVec 8) : (s.putByte p a b).hard = s.hard := by
  unfold State.putByte State.spadByte State.portByte; repeat' (first | rfl | split)
@[simp] theorem State.putBytes_hard (p a : Nat) (bs : List (BitVec 8)) : (s.putBytes p a bs).hard = s.hard := by
  induction bs generalizing s a with
  | nil => rfl
  | cons b bs ih => exact (ih ..).trans (State.putByte_hard ..)
@[simp] theorem State.putByte_cx (p a : Nat) (b : BitVec 8) : (s.putByte p a b).cx = s.cx := by
  unfold State.putByte State.spadByte State.portByte; repeat' (first | rfl | split)
@[simp] theorem State.putBytes_cx (p a : Nat) (bs : List (BitVec 8)) : (s.putBytes p a bs).cx = s.cx := by
  induction bs generalizing s a with
  | nil => rfl
  | cons b bs ih => exact (ih ..).trans (State.putByte_cx ..)
@[simp] theorem State.putByte_opt (p a : Nat) (b : BitVec 8) : (s.putByte p a b).opt = s.opt := by
  unfold State.putByte State.spadByte State.portByte; repeat' (first | rfl | split)
@[simp] theorem State.putBytes_opt (p a : Nat) (bs : List (BitVec 8)) : (s.putBytes p a bs).opt = s.opt := by
  induction bs generalizing s a with
  | nil => rfl
  | cons b bs ih => exact (ih ..).trans (State.putByte_opt ..)
@[simp] theorem State.putByte_jes (p a : Nat) (b : BitVec 8) : (s.putByte p a b).jes = s.jes := by
  unfold State.putByte State.spadByte State.portByte; repeat' (first | rfl | split)
@[simp] theorem State.putBytes_jes (p a : Nat) (bs : List (BitVec 8)) : (s.putBytes p a bs).jes = s.jes := by
  induction bs generalizing s a with
  | nil => rfl
  | cons b bs ih => exact (ih ..).trans (State.putByte_jes ..)
@[simp] theorem State.putByte_apx (p a : Nat) (b : BitVec 8) : (s.putByte p a b).apx = s.apx := by
  unfold State.putByte State.spadByte State.portByte; repeat' (first | rfl | split)
@[simp] theorem State.putBytes_apx (p a : Nat) (bs : List (BitVec 8)) : (s.putBytes p a bs).apx = s.apx := by
  induction bs generalizing s a with
  | nil => rfl
  | cons b bs ih => exact (ih ..).trans (State.putByte_apx ..)
@[simp] theorem State.putByte_rep (p a : Nat) (b : BitVec 8) : (s.putByte p a b).rep = s.rep := by
  unfold State.putByte State.spadByte State.portByte; repeat' (first | rfl | split)
@[simp] theorem State.putBytes_rep (p a : Nat) (bs : List (BitVec 8)) : (s.putBytes p a bs).rep = s.rep := by
  induction bs generalizing s a with
  | nil => rfl
  | cons b bs ih => exact (ih ..).trans (State.putByte_rep ..)
@[simp] theorem State.putByte_pwr (p a : Nat) (b : BitVec 8) : (s.putByte p a b).pwr = s.pwr := by
  unfold State.putByte State.spadByte State.portByte; repeat' (first | rfl | split)
@[simp] theorem State.putBytes_pwr (p a : Nat) (bs : List (BitVec 8)) : (s.putBytes p a bs).pwr = s.pwr := by
  induction bs generalizing s a with
  | nil => rfl
  | cons b bs ih => exact (ih ..).trans (State.putByte_pwr ..)
@[simp] theorem State.putByte_pins (p a : Nat) (b : BitVec 8) : (s.putByte p a b).pins = s.pins := by
  unfold State.putByte State.spadByte State.portByte; repeat' (first | rfl | split)
@[simp] theorem State.putBytes_pins (p a : Nat) (bs : List (BitVec 8)) : (s.putBytes p a bs).pins = s.pins := by
  induction bs generalizing s a with
  | nil => rfl
  | cons b bs ih => exact (ih ..).trans (State.putByte_pins ..)
@[simp] theorem State.putByte_sec (p a : Nat) (b : BitVec 8) : (s.putByte p a b).sec = s.sec := by
  unfold State.putByte State.spadByte State.portByte; repeat' (first | rfl | split)
@[simp] theorem State.putBytes_sec (p a : Nat) (bs : List (BitVec 8)) : (s.putBytes p a bs).sec = s.sec := by
  induction bs generalizing s a with
  | nil => rfl
  | cons b bs ih => exact (ih ..).trans (State.putByte_sec ..)
@[simp] theorem State.putByte_acx (p a : Nat) (b : BitVec 8) : (s.putByte p a b).acx = s.acx := by
  unfold State.putByte State.spadByte State.portByte; repeat' (first | rfl | split)
@[simp] theorem State.putBytes_acx (p a : Nat) (bs : List (BitVec 8)) : (s.putBytes p a bs).acx = s.acx := by
  induction bs generalizing s a with
  | nil => rfl
  | cons b bs ih => exact (ih ..).trans (State.putByte_acx ..)
@[simp] theorem State.putByte_pcie (p a : Nat) (b : BitVec 8) : (s.putByte p a b).pcie = s.pcie := by
  unfold State.putByte State.spadByte State.portByte; repeat' (first | rfl | split)
@[simp] theorem State.putBytes_pcie (p a : Nat) (bs : List (BitVec 8)) : (s.putBytes p a bs).pcie = s.pcie := by
  induction bs generalizing s a with
  | nil => rfl
  | cons b bs ih => exact (ih ..).trans (State.putByte_pcie ..)

end Sys2Proof.Machine
end

