-- ==== Sys2Proof/Laws/Registers.lean ====
section
/-! SUPPORT. The laws of register words and fields: what a read gives after a write, and that writes keep the register file canonical. -/

namespace Sys2Proof.Machine

variable {s : State}

theorem Regs.wf_setWord (h : Regs.wf s = true) (a : Nat) (v : BitVec 32) : Regs.wf (s.setWord a v) = true := Sparse.write_wf a v h

theorem Regs.wf_setWords (h : Regs.wf s = true) (a n v : Nat) : Regs.wf (s.setWords a n v) = true := by
  induction n generalizing s a v with
  | zero => exact h
  | succ n ih => exact ih (Regs.wf_setWord h ..) ..

theorem Regs.wf_put (h : Regs.wf s = true) (f : Fld) (v : Nat) : Regs.wf (s.put f v) = true := Regs.wf_setWords h ..

theorem Memory.wf_setByte (h : Memory.wf s = true) (a : Nat) (b : BitVec 8) : Memory.wf (s.setByte a b) = true := Sparse.write_wf a b h

theorem Memory.wf_setBytes (h : Memory.wf s = true) (a : Nat) (bs : List (BitVec 8)) : Memory.wf (s.setBytes a bs) = true := by
  induction bs generalizing s a with
  | nil => exact h
  | cons b bs ih => exact ih (Memory.wf_setByte h ..) ..

/-- A byte after a store of one byte. -/
theorem State.byte_setByte (h : Memory.wf s = true) (a b : Nat) (v : BitVec 8) :
    (s.setByte a v).byte b = if b = a then v else s.byte b := Sparse.read_write h a b v

/-- Bytes outside a stored range read as before. -/
theorem State.byte_setBytes_other (h : Memory.wf s = true) (a b : Nat) (bs : List (BitVec 8)) (hb : b < a ∨ a + bs.length ≤ b) :
    (s.setBytes a bs).byte b = s.byte b := by
  induction bs generalizing s a with
  | nil => rfl
  | cons v bs ih =>
    simp only [List.length_cons] at hb
    simp only [State.setBytes]
    rw [ih (Memory.wf_setByte h ..) _ (by omega), State.byte_setByte h, if_neg (by omega)]

/-- A word after a write of one word. -/
theorem State.word_setWord (h : Regs.wf s = true) (a b : Nat) (v : BitVec 32) :
    (s.setWord a v).word b = if b = a then v else s.word b := Sparse.read_write h a b v

/-- A word that a write of consecutive words does not name. -/
theorem State.word_setWords_other (h : Regs.wf s = true) (a n v b : Nat) (hb : ∀ i, i < n → b ≠ a + 4 * i) :
    (s.setWords a n v).word b = s.word b := by
  induction n generalizing s a v with
  | zero => rfl
  | succ n ih =>
    have h1 := ih (s := s.setWord a (BitVec.ofNat 32 v)) (Regs.wf_setWord h ..) (a + 4) (v / 2 ^ 32)
      (fun i hi => by have := hb (i + 1) (by omega); omega)
    have h2 := State.word_setWord h a b (BitVec.ofNat 32 v)
    rw [if_neg (by have := hb 0 (by omega); omega)] at h2
    exact h1.trans h2

/-- A word after a write of consecutive words. -/
theorem State.word_setWords (h : Regs.wf s = true) (a n v i : Nat) (hi : i < n) :
    (s.setWords a n v).word (a + 4 * i) = BitVec.ofNat 32 (v / 2 ^ (32 * i)) := by
  induction n generalizing s a v i with
  | zero => omega
  | succ n ih =>
    cases i with
    | zero =>
      have h1 := State.word_setWords_other (s := s.setWord a (BitVec.ofNat 32 v)) (Regs.wf_setWord h ..) (a + 4) n (v / 2 ^ 32) a
        (fun i _ => by omega)
      have h2 := State.word_setWord h a a (BitVec.ofNat 32 v)
      rw [if_pos rfl] at h2
      have e : v / 2 ^ (32 * 0) = v := by simp
      rw [e]; exact h1.trans h2
    | succ i =>
      have h1 := ih (s := s.setWord a (BitVec.ofNat 32 v)) (Regs.wf_setWord h ..) (a + 4) (v / 2 ^ 32) i (by omega)
      have e : a + 4 * (i + 1) = a + 4 + 4 * i := by omega
      have e2 : v / 2 ^ (32 * (i + 1)) = v / 2 ^ 32 / 2 ^ (32 * i) := by
        rw [Nat.div_div_eq_div_mul, ← pow_add]; congr 2; omega
      rw [e, e2]; exact h1

theorem State.words_lt (a n : Nat) : s.words a n < 2 ^ (32 * n) := by
  induction n generalizing a with
  | zero => simp [State.words]
  | succ n ih =>
    have h1 := (s.word a).isLt
    have h2 := ih (a + 4)
    have h3 : 2 ^ (32 * (n + 1)) = 4294967296 * 2 ^ (32 * n) := by
      rw [show 32 * (n + 1) = 32 + 32 * n by omega, pow_add]; norm_num
    simp only [State.words]
    rw [h3]
    generalize 2 ^ (32 * n) = x at *
    omega

/-- A read of consecutive words after their write. -/
theorem State.words_setWords (h : Regs.wf s = true) (a n v : Nat) : (s.setWords a n v).words a n = v % 2 ^ (32 * n) := by
  have key : ∀ (m k : Nat), k + m ≤ n → (s.setWords a n v).words (a + 4 * k) m = v / 2 ^ (32 * k) % 2 ^ (32 * m) := by
    intro m
    induction m with
    | zero => intro k _; simp [State.words, Nat.mod_one]
    | succ m ih =>
      intro k hk
      simp only [State.words]
      rw [State.word_setWords h _ _ _ _ (by omega), show a + 4 * k + 4 = a + 4 * (k + 1) by omega, ih (k + 1) (by omega)]
      rw [BitVec.toNat_ofNat, show 32 * (k + 1) = 32 * k + 32 by omega, pow_add, ← Nat.div_div_eq_div_mul,
        show 32 * (m + 1) = 32 + 32 * m by omega, pow_add, Nat.mod_mul]
      ring
  simpa using key n 0 (by omega)

theorem State.words_setWords_other (h : Regs.wf s = true) (a n v b m : Nat) (hb : ∀ i j, i < n → j < m → b + 4 * j ≠ a + 4 * i) :
    (s.setWords a n v).words b m = s.words b m := by
  induction m generalizing b with
  | zero => rfl
  | succ m ih =>
    simp only [State.words]
    rw [State.word_setWords_other h _ _ _ _ (fun i hi => by have := hb i 0 hi (by omega); omega),
      ih (b + 4) (fun i j hi hj => by have := hb i (j + 1) hi (by omega); omega)]

theorem bitsOf_setBitsOf (n lo w v : Nat) : bitsOf (setBitsOf n lo w v) lo w = v % 2 ^ w := by
  unfold bitsOf setBitsOf
  rw [Nat.shiftRight_eq_div_pow]
  have h1 : 0 < 2 ^ lo := by positivity
  rw [show n % 2 ^ lo + v % 2 ^ w * 2 ^ lo + n / 2 ^ (lo + w) * 2 ^ (lo + w)
      = n % 2 ^ lo + 2 ^ lo * (v % 2 ^ w + 2 ^ w * (n / 2 ^ (lo + w))) by rw [pow_add]; ring,
    Nat.add_mul_div_left _ _ h1, Nat.div_eq_of_lt (Nat.mod_lt _ h1), Nat.zero_add, Nat.add_mul_mod_self_left, Nat.mod_mod]

theorem bitsOf_mod (n lo w k : Nat) (h : lo + w ≤ k) : bitsOf (n % 2 ^ k) lo w = bitsOf n lo w := by
  unfold bitsOf
  apply Nat.eq_of_testBit_eq
  intro i
  simp only [Nat.testBit_mod_two_pow, Nat.testBit_shiftRight]
  by_cases hi : i < w
  · simp [hi, show lo + i < k by omega]
  · simp [hi]

/-- The value of a field after its own write. -/
theorem State.get_put (h : Regs.wf s = true) (f : Fld) (v : Nat) : (s.put f v).get f = v % 2 ^ f.w := by
  unfold State.get State.put Fld.span
  simp only
  rw [State.words_setWords h, bitsOf_mod _ _ _ _ (by omega), bitsOf_setBitsOf]

/-- The words that two fields touch are different. -/
def Fld.apart (f g : Fld) : Prop := ∀ i j, i < f.span.2.2 → j < g.span.2.2 → g.span.1 + 4 * j ≠ f.span.1 + 4 * i

/-- A field none of whose words a write touches keeps its value. -/
theorem State.get_put_apart (h : Regs.wf s = true) (f g : Fld) (v : Nat) (hfg : f.apart g) : (s.put f v).get g = s.get g := by
  unfold State.get State.put
  simp only
  rw [State.words_setWords_other h _ _ _ _ _ hfg]

theorem testBit_setBitsOf (n lo w v i : Nat) :
    (setBitsOf n lo w v).testBit i = if lo ≤ i ∧ i < lo + w then v.testBit (i - lo) else n.testBit i := by
  have e : setBitsOf n lo w v = (n % 2 ^ lo) ||| ((v % 2 ^ w) <<< lo) ||| ((n / 2 ^ (lo + w)) <<< (lo + w)) := by
    unfold setBitsOf
    have h1 : n % 2 ^ lo < 2 ^ lo := Nat.mod_lt _ (by positivity)
    have h2 : v % 2 ^ w < 2 ^ w := Nat.mod_lt _ (by positivity)
    have h4 : n % 2 ^ lo ||| ((v % 2 ^ w) <<< lo) = v % 2 ^ w * 2 ^ lo + n % 2 ^ lo := by
      rw [Nat.lor_comm, Nat.shiftLeft_eq, Nat.mul_comm, ← Nat.two_pow_add_eq_or_of_lt h1]
    have h3 : v % 2 ^ w * 2 ^ lo + n % 2 ^ lo < 2 ^ (lo + w) := by
      have h5 : (v % 2 ^ w + 1) * 2 ^ lo ≤ 2 ^ w * 2 ^ lo := Nat.mul_le_mul_right _ h2
      rw [pow_add, Nat.mul_comm (2 ^ lo)]; rw [Nat.add_mul] at h5; omega
    rw [h4, Nat.lor_comm, Nat.shiftLeft_eq, Nat.mul_comm (n / 2 ^ (lo + w)), ← Nat.two_pow_add_eq_or_of_lt h3]; ring
  rw [e]
  simp only [Nat.testBit_or, Nat.testBit_mod_two_pow, Nat.testBit_shiftLeft, Nat.testBit_div_two_pow]
  by_cases h1 : i < lo
  · simp [h1, show ¬ lo ≤ i by omega, show ¬ lo + w ≤ i by omega]
  · by_cases h2 : i < lo + w
    · simp [h1, h2, show lo ≤ i by omega, show i - lo < w by omega, show ¬ lo + w ≤ i by omega]
    · simp [h1, h2, show ¬ i - lo < w by omega, show lo + w ≤ i by omega]

/-- Fields of the same words whose bits do not overlap keep their values. -/
theorem State.get_put_bits (h : Regs.wf s = true) (f g : Fld) (v : Nat) (ha : f.addr = g.addr) (hs : f.span.1 = g.span.1)
    (hb : f.lo + f.w ≤ g.lo ∨ g.lo + g.w ≤ f.lo) (hn : g.span.2.2 ≤ f.span.2.2) : (s.put f v).get g = s.get g := by
  have key : ∀ m, m ≤ f.span.2.2 → ∀ t : State, ∀ u : Nat, t = s.setWords f.span.1 f.span.2.2 u →
      t.words f.span.1 m = u % 2 ^ (32 * m) := by
    intro m hm t u ht
    subst ht
    have all := State.words_setWords h f.span.1 f.span.2.2 u
    have pre : ∀ (k j : Nat) (r : State) (a : Nat), j ≤ k → r.words a j = r.words a k % 2 ^ (32 * j) := by
      intro k
      induction k with
      | zero => intro j r a hj; have : j = 0 := by omega
                subst this; simp [State.words]
      | succ k ih =>
        intro j r a hj
        cases j with
        | zero => simp [State.words, Nat.mod_one]
        | succ j =>
          simp only [State.words]
          rw [ih j r (a + 4) (by omega), show 32 * (j + 1) = 32 + 32 * j by omega, pow_add, Nat.mod_mul,
            Nat.add_mul_mod_self_right, Nat.mod_eq_of_lt (r.word a).isLt, Nat.add_mul_div_right _ _ (by positivity),
            Nat.div_eq_of_lt (r.word a).isLt]
          ring_nf
    rw [pre _ _ _ _ hm, all, Nat.mod_mod_of_dvd]
    exact pow_dvd_pow 2 (by omega)
  have old : ∀ m, m ≤ f.span.2.2 → s.words f.span.1 m = s.words f.span.1 f.span.2.2 % 2 ^ (32 * m) := by
    intro m hm
    have pre : ∀ (k j : Nat) (a : Nat), j ≤ k → s.words a j = s.words a k % 2 ^ (32 * j) := by
      intro k
      induction k with
      | zero => intro j a hj; have : j = 0 := by omega
                subst this; simp [State.words]
      | succ k ih =>
        intro j a hj
        cases j with
        | zero => simp [State.words, Nat.mod_one]
        | succ j =>
          simp only [State.words]
          rw [ih j (a + 4) (by omega), show 32 * (j + 1) = 32 + 32 * j by omega, pow_add, Nat.mod_mul,
            Nat.add_mul_mod_self_right, Nat.mod_eq_of_lt (s.word a).isLt, Nat.add_mul_div_right _ _ (by positivity),
            Nat.div_eq_of_lt (s.word a).isLt]
          ring_nf
    exact pre _ _ _ hm
  unfold State.get State.put
  simp only
  rw [← hs, key _ hn _ _ rfl, old _ hn]
  apply Nat.eq_of_testBit_eq
  intro i
  simp only [bitsOf, Nat.testBit_mod_two_pow, Nat.testBit_shiftRight, testBit_setBitsOf]
  have e : f.lo / 32 = g.lo / 32 := by unfold Fld.span at hs; simp only at hs; omega
  unfold Fld.span
  simp only
  by_cases hi : i < g.w
  · have : ¬ (f.lo % 32 ≤ g.lo % 32 + i ∧ g.lo % 32 + i < f.lo % 32 + f.w) := by omega
    simp [hi, this]
  · simp [hi]

end Sys2Proof.Machine
end

