-- ==== Sys2Proof/Laws/Memory.lean ====
section
/-! SUPPORT. The laws of stored byte strings: what a read of a range gives after a store, as software and as movement read it. -/

namespace Sys2Proof.Machine

variable {s : State}

@[simp] theorem State.length_bytes (s : State) (a n : Nat) : (s.bytes a n).length = n := by
  induction n generalizing a with
  | zero => rfl
  | succ n ih => simp [State.bytes, ih]

/-- Each byte of a range is the byte at its address. -/
theorem State.getElem?_bytes (s : State) (a n i : Nat) : (s.bytes a n)[i]? = if i < n then some (s.byte (a + i)) else none := by
  induction n generalizing a i with
  | zero => simp [State.bytes]
  | succ n ih => cases i with
    | zero => simp [State.bytes]
    | succ i => simp [State.bytes, ih, Nat.add_right_comm, Nat.add_assoc]

/-- Each stored byte reads back. -/
theorem State.byte_setBytes (h : Memory.wf s = true) (a i : Nat) (bs : List (BitVec 8)) (hi : i < bs.length) :
    (s.setBytes a bs).byte (a + i) = bs[i] := by
  induction bs generalizing s a i with
  | nil => simp at hi
  | cons b bs ih =>
    simp only [State.setBytes]
    cases i with
    | zero => rw [State.byte_setBytes_other (Memory.wf_setByte h ..) _ _ _ (by omega), State.byte_setByte h]; simp
    | succ i =>
      simp only [List.length_cons] at hi
      rw [show a + (i + 1) = a + 1 + i by omega, ih (Memory.wf_setByte h ..) _ _ (by omega)]
      rfl

/-- A stored byte string reads back whole. -/
theorem State.bytes_setBytes (h : Memory.wf s = true) (a : Nat) (bs : List (BitVec 8)) : (s.setBytes a bs).bytes a bs.length = bs := by
  apply List.ext_getElem (by simp)
  intro i h₁ h₂
  have := State.getElem?_bytes (s.setBytes a bs) a bs.length i
  rw [if_pos h₂, List.getElem?_eq_getElem h₁, State.byte_setBytes h a i bs h₂] at this
  exact Option.some.inj this

/-- A range apart from a stored range reads as before. -/
theorem State.bytes_setBytes_other (h : Memory.wf s = true) (a b n : Nat) (bs : List (BitVec 8)) (hb : b + n ≤ a ∨ a + bs.length ≤ b) :
    (s.setBytes a bs).bytes b n = s.bytes b n := by
  induction n generalizing b with
  | zero => rfl
  | succ n ih =>
    simp only [State.bytes]
    rw [ih (b + 1) (by omega)]
    rw [State.byte_setBytes_other h _ _ _ (by omega)]

/-- A store changes the memory and its errors, and nothing else. -/
theorem State.setBytes_eq (s : State) (a : Nat) (bs : List (BitVec 8)) :
    s.setBytes a bs = { s with mem := (s.setBytes a bs).mem, flaws := (s.setBytes a bs).flaws } := by
  induction bs generalizing s a with
  | nil => rfl
  | cons b bs ih =>
    simp only [State.setBytes]
    rw [ih]
    rfl

/-- A store into sound memory leaves it sound. -/
theorem State.setBytes_flaws (a : Nat) (bs : List (BitVec 8)) (hf : s.flaws = []) (hl : s.rep.lost = []) : (s.setBytes a bs).flaws = [] := by
  induction bs generalizing s a with
  | nil => exact hf
  | cons b bs ih =>
    refine ih (a + 1) ?_ hl
    simp [State.setByte, State.healed, State.lostAt, hl, hf, Sparse.erase]

/-- What registers read as depends on the register file alone. -/
theorem State.words_of_regs {t : State} (h : t.regs = s.regs) (a n : Nat) : t.words a n = s.words a n := by
  induction n generalizing a with
  | zero => rfl
  | succ n ih => simp only [State.words, State.word, h, ih]

theorem State.get_of_regs {t : State} (h : t.regs = s.regs) (f : Fld) : t.get f = s.get f := by
  simp only [State.get, State.words_of_regs h]

/-- Noting a bit for R4 changes what no field reads as. -/
@[simp] theorem State.get_markSet (a i : Nat) (f : Fld) : (s.markSet a i).get f = s.get f :=
  State.get_of_regs (s := s) (t := s.markSet a i) rfl f
@[simp] theorem State.word_markSet (a i b : Nat) : (s.markSet a i).word b = s.word b := rfl
theorem State.get_raise (f g : Fld) : (s.raise f).get g = (s.put f 1).get g := State.get_markSet ..
theorem State.get_raiseBit (f g : Fld) (i : Nat) : (s.raiseBit f i).get g = (s.put f (s.get f ||| 2 ^ i)).get g := State.get_markSet ..

/-- Which units are on depends on the register file and the domains alone. -/
theorem State.addrOn_of {t : State} (h : t.regs = s.regs) (hp : t.pwr = s.pwr) (a : Nat) : t.addrOn a = s.addrOn a := by
  have hd (d : Nat) : t.domOn d = s.domOn d := by simp only [State.domOn, hp]
  have ha (k u : Nat) : t.absent k u = s.absent k u := by simp only [State.absent, State.flag, State.get_of_regs h]
  have hr (r : Region) : t.regionOn r = s.regionOn r := by
    cases r <;> simp only [State.regionOn, State.tileOn, State.tileDom, State.phys, hd, ha, State.get_of_regs h]
  unfold State.addrOn
  rw [hr]
  simp only [ha]

theorem State.rangeOn_of {t : State} (h : t.regs = s.regs) (hp : t.pwr = s.pwr) (a n : Nat) : t.rangeOn a n = s.rangeOn a n := by
  simp only [State.rangeOn, State.addrOn_of h hp]

theorem Regs.wf_setBytes (h : Regs.wf s = true) (a : Nat) (bs : List (BitVec 8)) : Regs.wf (s.setBytes a bs) = true := by
  simpa [Regs.wf] using h

/-- A little-endian number reads back. -/
theorem State.le_setLe (h : Memory.wf s = true) (a n v : Nat) (hn : (bytesOf n v).length = n) :
    (s.setLe a n v).le a n = natOfBytes (bytesOf n v) := by
  have := State.bytes_setBytes h a (bytesOf n v)
  rw [hn] at this
  simp only [State.le, State.setLe, this]

/-- Where nothing has been written in this ck, a byte reads as memory holds it. -/
theorem State.before_quiet (ho : s.now.old = []) (hc : s.now.core = []) (a : Nat) : s.before a = s.byte a := by
  unfold State.before State.phaseByte State.coreByte
  simp only [ho, hc, Sparse.find]
  split <;> simp

/-- A range that memory backs reads through movement as its bytes. -/
theorem State.sysBytes_eq (s : State) (a n : Nat) (ho : s.now.old = []) (hc : s.now.core = []) (h : ∀ i, i < n → (regionOf (a + i)).backed = true) :
    s.sysBytes a n = s.bytes a n := by
  apply List.ext_getElem (by simp [State.sysBytes])
  intro i h₁ h₂
  have hi : i < n := by simpa using h₂
  have e := State.getElem?_bytes s a n i
  rw [if_pos hi, List.getElem?_eq_getElem h₂] at e
  rw [Option.some.inj e]
  simp [State.sysBytes, State.sysByte, h i hi, State.before_quiet ho hc]

/-- Without errors, with LCK driven and G1 released, a read by movement outside the unbacked range changes nothing (R316, R344). -/
theorem State.sysRead_eq (a n : Nat) (hf : s.flaws = []) (hl : s.rep.lost = []) (hk : s.lck = true) (h1 : s.held 1 = false)
    (ha : regionOf a ≠ .hole) (hb : regionOf (a + n - 1) ≠ .hole) : s.sysRead a n = (s.sysBytes a n, s) := by
  unfold State.sysRead State.checkRead State.noteAccess State.noteHoles State.noteHole State.raiseIf
  by_cases hn : n = 0
  · subst hn; simp [State.sysBytes]
  · simp [hn, hf, hl, hk, h1, ha, hb]

end Sys2Proof.Machine
end

