-- ==== Sys2Proof/Tests/Slice0.lean ====
section
/-! SUPPORT. Tests: well-formedness, worked examples of the spec, and for every statement states and operands that meet its hypotheses. -/

namespace Sys2Proof.Tests

open Sys2Proof Sys2Proof.Machine Sys2Proof.Claims

set_option Elab.async false

/-- A powered part out of reset, with nothing configured. -/
def live : State := { State.reset with pwr := { State.reset.pwr with dom := Vector.replicate 96 2, held := 0, step := 6 } }

/-- Fields set one after another. -/
def State.puts (s : State) (l : List (Fld × Nat)) : State := l.foldl (fun s x => s.put x.1 x.2) s

/-- `live` with fields set. -/
def withF (l : List (Fld × Nat)) : State := State.puts live l

/-- The state that a command gives, where it gives one. -/
def ran (c : Instr) (s : State) : State :=
  match exec c s with
  | .next t => t
  | _ => s

/-- The command answers a next state. -/
def goesOn (c : Instr) (s : State) : Bool :=
  match exec c s with
  | .next _ => true
  | _ => false

/-- The fault that a command answers, if it does. -/
def faults (c : Instr) (s : State) : Option Fault :=
  match exec c s with
  | .fault f => some f
  | _ => none

/-- `Runs` as a Bool. -/
def runsB (d g : Nat) (s : State) : Bool := s.fck && s.domOn d && !s.held g && s.lck && !s.held 1

theorem runs_of {d g : Nat} {s : State} (h : runsB d g s = true) : Runs d g s := by
  simp only [runsB, Bool.and_eq_true, Bool.not_eq_true'] at h
  exact ⟨h.1.1.1.1, h.1.1.1.2, h.1.1.2, h.1.2, fun _ => h.2⟩

/-- `UnitRuns` as a Bool. -/
def unitB (d g k u : Nat) (s : State) : Bool := runsB d g s && !s.absent k u && !s.unitHeld k u

theorem unit_of {d g k u : Nat} {s : State} (h : unitB d g k u s = true) : UnitRuns d g k u s := by
  simp only [unitB, Bool.and_eq_true, Bool.not_eq_true'] at h
  exact ⟨runs_of h.1.1, h.1.2, h.2⟩

/-- `Canonical` as a Bool. -/
def canonB (s : State) : Bool := Memory.wf s && Regs.wf s

theorem canon_of {s : State} (h : canonB s = true) : Canonical s := by
  simp only [canonB, Bool.and_eq_true] at h
  exact h

/-! ## Well-formedness -/

theorem test_wf_config_outside_refused : (Instr.registerWrite ⟨.config, 0x1000⟩ 2 0).wellFormed = false := by decide +kernel
theorem test_wf_msix_unaligned_refused : (Instr.registerWrite ⟨.msix, 0x3FE⟩ 2 0).wellFormed = false := by decide +kernel
theorem test_wf_write : (Instr.registerWrite ⟨.hart 0, 0x1800000008⟩ 3 0).wellFormed = true := by decide +kernel
theorem test_wf_outside_atomic_refused : (Instr.unmappedAccess ⟨.jtag, 0x1000⟩ ⟨.amo .add 1, 2, 0⟩).wellFormed = false := by decide +kernel
theorem test_wf_narrow_atomic_refused : (Instr.unmappedAccess ⟨.hart 1, 0x1000⟩ ⟨.lr 1, 0, 0⟩).wellFormed = false := by decide +kernel
theorem test_wf_wide_fetch_refused : (Instr.unmappedAccess ⟨.hart 1, 0x1000⟩ ⟨.fetch, 3, 0⟩).wellFormed = false := by decide +kernel
theorem test_wf_flit_refused : (Instr.apsisRd 0 ⟨0, 0, 0, 0, 0, 0, 0, 0, 0, []⟩).wellFormed = false := by decide +kernel
theorem test_wf_unit_refused : (Instr.engineDrain .pol 2).wellFormed = false := by decide +kernel
theorem test_wf_unit : (Instr.engineDrain .pol 1).wellFormed = true := by decide +kernel
theorem test_wf_enable_refused : (Instr.engineEnable .enc 4 true).wellFormed = false := by decide +kernel
theorem test_wf_temperature_refused : (Instr.temperatureReading [] ⟨[], [], 0⟩).wellFormed = false := by decide +kernel
theorem test_wf_aux_refused : (Instr.auxOverload []).wellFormed = false := by decide +kernel

/-! ## Steps, time and invariants -/

theorem wit_StepRunsTheFrontCommand : step { live with pending := [.snap, .hoForce] } = exec .snap { live with pending := [.hoForce] } := rfl

/-- R10: an instant 1 at after the wrap is later than one 1 at before it. -/
theorem test_air_later_wraps : airDiff 1 5033164799 = 2 ∧ airLater 1 5033164799 = true ∧ airLater 5033164799 1 = false := by decide +kernel

/-- R10: the difference of exactly half the wrap is the least of the range. -/
theorem test_air_half : airDiff 2516582400 0 = -2516582400 ∧ airDiff 2516582399 0 = 2516582399 := by decide +kernel

theorem wit_AnIdleCk_runs : live.pending = [] ∧ live.sec.quote = none ∧ live.pwr.ramp = [] ∧ runsB 82 1 live = true ∧ canonB live = true := by decide +kernel
/-- G1 is held. -/
def heldOne : State := { live with pwr := { live.pwr with held := 2 } }
theorem wit_AnIdleCk_stopped : heldOne.pending = [] ∧ heldOne.sec.quote = none ∧ heldOne.pwr.ramp = [] ∧ runsB 82 1 heldOne = false ∧
    canonB heldOne = true := by decide +kernel

/-- A held fabric with a domain about to arrive. -/
def arriving : State := { live with pwr := { live.pwr with held := 0x3E, dom := live.pwr.dom.set 81 1, ramp := [(81, 2, 0)] } }
theorem wit_AnIdleCk_ramp : arriving.held 1 = true ∧ arriving.held 2 = true ∧ arriving.held 4 = true ∧ arriving.sec.quote = none ∧
    arriving.pwr.ramp = [(81, 2, 0)] ∧ monoLe 0 (arriving.pwr.ck + 1) = true ∧ canonB arriving = true := by decide +kernel

/-- A held fabric with a quote due. -/
def quoting : State :=
  { live with pwr := { live.pwr with held := 0x3E }, sec := { live.sec with quote := some (0, 0x10000, List.replicate 2852 7) } }
theorem wit_AnIdleCk_quote : quoting.pwr.ramp = [] ∧ quoting.domOn 80 = true ∧ quoting.held 1 = true ∧ quoting.held 2 = true ∧ quoting.held 4 = true ∧
    monoLe 0 (quoting.pwr.ck + 1) = true ∧ monoLe 9 (quoting.pwr.ck + 1) = false ∧ quoting.rangeOn 0x10000 2852 = true ∧ canonB quoting = true := by decide +kernel

theorem test_idle_ck_advances_mono : (match step live with | .next t => t.tb.mono | _ => 0) = 1 := by decide +kernel

theorem wit_EveryStepKeepsTheInvariant : canonB live = true ∧ (live.flaws.map Prod.fst).Pairwise (· < ·) ∧ live.tb.nt.ns ≤ 999999999 ∧
    goesOn .snap live = true := by decide +kernel

/-! ## Chapter 02 -/

/-- The servo enabled from PTP, and from PPS. -/
def servo : State := withF [(TMB_CTL.servo_en, 1), (TMB_CTL.phase_src, 0), (TMB_CTL.freq_src, 4), (TMB_KI.m, 3), (TMB_KP.m, 5)]
def servoPps : State := withF [(TMB_CTL.servo_en, 1), (TMB_CTL.phase_src, 1)]

theorem wit_ServoFollowsItsSources : runsB 82 1 servo = true ∧ Regs.wf servo = true ∧ servo.flag TMB_CTL.servo_en = true ∧ servo.get TMB_STAT.state = 0 ∧
    servo.get TMB_CTL.phase_src = 0 ∧ servoPps.get TMB_CTL.phase_src = 1 ∧ servoPps.ppsBusy = false := by decide +kernel
/-- A millisecond of network time has passed. -/
def measured : State := servo.withTb fun t => { t with nt := ⟨0, 1000000, 0⟩ }
theorem wit_ServoFollowsItsSources_frequency : runsB 82 1 measured = true ∧ Regs.wf measured = true ∧ measured.freqSelected = true ∧
    measured.tb.freqLost = false ∧ measured.tb.freqMs < measured.tb.nt.total / (1000000 * Config.ntFrac) := by decide +kernel

/-- TMB_WDOG.ms = 1, and 1 ms less 1 ck, then 1 ms, since servo_en was set. -/
def watched (n : Nat) : State := (withF [(TMB_CTL.servo_en, 1), (TMB_WDOG.ms, 1)]).withTb fun t => { t with mono := BitVec.ofNat 64 n }
theorem wit_HoldoverBeginsAndEnds : runsB 82 1 (watched 2200000) = true ∧ Regs.wf (watched 2200000) = true ∧ (watched 2200000).get TMB_STAT.state ≠ 2 ∧
    (watched 2200000).get TMB_WDOG.ms * 2200000 ≤ (watched 2200000).since (watched 2200000).watchdogFrom := by decide +kernel
theorem test_watchdog_budget : (ran .watchdogExpiry (watched 2200000)).get TMB_STAT.state = 2 ∧ (ran .watchdogExpiry (watched 2199999)).get TMB_STAT.state = 0 := by
  decide +kernel
theorem wit_HoldoverBeginsAndEnds_forced : (ran .hoForce live).flag TMB_CTL.ho_force = true ∧ (ran .hoForce live).get TMB_STAT.state ≠ 2 := by decide +kernel
theorem wit_HoldoverBeginsAndEnds_leave : (ran .hoForce servo).get TMB_STAT.state = 2 ∧ runsB 82 1 (ran .hoForce servo) = true := by decide +kernel

/-- Timeline 0 counts, and engine 0 runs on it. -/
def counting : State := ran (.timelineEnable 0 false false 1 true) live
def bound : State := ran (.engineStart 0 0 0) counting
theorem wit_TimelineWrites_halted : runsB 82 1 counting = true ∧ Regs.wf counting = true ∧ counting.timelineOn 0 = true ∧ counting.engineBound 0 = false ∧
    counting.anyEngineBound = false ∧ (0 : Int) ≤ counting.tb.nt.total + (1 : BitVec 48).toInt * 2 ^ 24 := by decide +kernel
theorem wit_TimelineWrites_bound : runsB 82 1 bound = true ∧ Regs.wf bound = true ∧ bound.timelineOn 0 = true ∧ bound.engineBound 0 = true ∧
    bound.anyEngineBound = true := by decide +kernel
theorem test_offset_write_undefined : faults (.timelineOffsetWrite 0 5) bound = some .timelineReprogrammed := by decide +kernel

/-- One second of network time, PPS_OUT enabled. -/
def pulse : State := (withF [(TMB_PPSO.en, 1)]).withTb fun t => { t with nt := ⟨1, 0, 0⟩ }
theorem wit_SnapshotAndPulseOutput : runsB 82 1 pulse = true ∧ Regs.wf pulse = true ∧ pulse.tb.nt.ns < 1000000000 ∧ pulse.flag TMB_PPSO.en = true ∧
    pulse.tb.ppsLast < pulse.ppsSeconds := by decide +kernel
theorem wit_SnapshotAndPulseOutput_fall : let s := (ran .ppsOutRise pulse).withTb fun t => { t with mono := 220000 }
    s.tb.ppsHigh = some 220000 ∧ 0 ≤ (s.tb.mono - 220000).toInt ∧ s.ppsOutHigh = true := by decide +kernel

/-- R24: 3,125 ns are 1,536 at. -/
theorem test_air_count : airCount ⟨0, 3125, 0⟩ 0 0 = 1536 ∧ airCount ⟨0, 3124, 0⟩ 0 0 = 1535 := by decide +kernel
/-- R24: before the epoch the count is a residue: 1 s before it, 5,033,164,800 − 491,520,000. -/
theorem test_air_count_before_epoch : airCount ⟨0, 0, 0⟩ 1 0 = 4541644800 := by decide +kernel

/-- A ck in which it has decoded no word yet. -/
def ready : State := bound.withTb fun t => { t with mono := 5 }
theorem wit_TimetableControlWords : unitB 82 1 11 0 ready = true ∧ Regs.wf ready = true ∧ ready.decoding 0 = true ∧ (ready.engine 0).group = none ∧
    (ready.engine 0).loops = [] ∧ ready.after (ready.engine 0).dec = true ∧ ready.tb.nt.ns ≤ 999999999 := by decide +kernel
/-- Four levels are open. -/
def nested : State := ready.withEngine 0 fun e => { e with loops := List.replicate 4 ⟨0, 9, none, 0, 5⟩ }
theorem wit_TimetableControlWords_full : unitB 82 1 11 0 nested = true ∧ nested.after (nested.engine 0).dec = true ∧ nested.decoding 0 = true ∧ (nested.engine 0).loops.length = 4 ∧
    (nested.engine 0).group = none := by decide +kernel
theorem test_every_fifth_level : (ran (.every 0 0 1 0 9) nested).get ORR_CAUSE.bad_op = 1 ∧ ((ran (.every 0 0 1 0 9) nested).engine 0).active = false := by decide +kernel

/-- A valid other bank, and the roles of a barrier. -/
def swapping : State := State.puts ready [(ORR_ENGn_BANKV.valid 0, 2), (ORR_CONJ_CTL.role, 1)]
theorem wit_TimetableGroups : unitB 82 1 11 0 swapping = true ∧ swapping.after (swapping.engine 0).dec = true ∧ swapping.decoding 0 = true ∧ (swapping.engine 0).group = none ∧
    (swapping.get (ORR_ENGn_BANKV.valid 0)).testBit (1 - swapping.get (ORR_ENGn_STAT.bank 0)) = true ∧ swapping.get ORR_CONJ_CTL.role = 1 ∧
    ready.get ORR_CONJ_CTL.role = 0 ∧ (ready.get (ORR_ENGn_BANKV.valid 0)).testBit (1 - ready.get (ORR_ENGn_STAT.bank 0)) = false := by decide +kernel
/-- A wait's group, open, and after its instant was reached. -/
def waiting : State := (ran (.waita 0 1000) bound).withTb fun t => { t with mono := 5 }
def late : State := waiting.withEngine 0 fun e => { e with group := some ⟨.at 1000, false, [], 0, some 5⟩ }
theorem wit_TimetableGroups_fill : waiting.after (waiting.engine 0).dec = true ∧ (waiting.engine 0).group = some ⟨.at 1000, false, [], 1, none⟩ ∧ waiting.decoding 0 = true ∧ late.decoding 0 = true ∧
    ((late.engine 0).group.bind fun g => g.reached).isSome = true ∧ faults (.sig 0 3) late = some .instantPast := by decide +kernel

/-- A group of one SIG whose instant was reached 16 ck, and 15 ck, after its last decode. -/
def launchable (r : BitVec 64) : State :=
  (bound.withTb fun t => { t with mono := 100 }).withEngine 0 fun e => { e with group := some ⟨.at 1000, false, [.sig 3], 50, some r⟩ }
theorem wit_GroupsLaunchAndSignal : unitB 82 1 11 0 (launchable 66) = true ∧ Regs.wf (launchable 66) = true ∧ 16 ≤ ((66 : BitVec 64) - 50).toInt ∧
    0 < ((launchable 66).tb.mono - 66).toInt ∧ ((launchable 66).engine 0).launching = [] ∧ ((65 : BitVec 64) - 50).toInt < 16 := by decide +kernel
theorem test_launch_sets_sig : (ran (.groupLaunch 0) (launchable 66)).get ORR_SIG.sig = 8 ∧ faults (.groupLaunch 0) (launchable 65) = some .instantPast := by decide +kernel

/-- A tile event that is due. -/
def eventDue : State := live.withOrr fun o => { o with events := [⟨0, .tileFlag 2 1 7⟩] }
/-- R320: an event that reaches a tile that is off. -/
theorem test_event_to_tile_off : let s := { eventDue with pwr := { eventDue.pwr with dom := eventDue.pwr.dom.set 3 0 } }
    s.tileOn 3 = false ∧ faults .eventDelivery s = some .poweredOff := by decide +kernel
theorem wit_EventsReachTheirTargets : runsB 82 1 eventDue = true ∧ Regs.wf eventDue = true ∧ eventDue.orr.events = [⟨0, .tileFlag 2 1 7⟩] ∧
    0 ≤ (eventDue.tb.mono - 0).toInt ∧ eventDue.tileOn 3 = true := by decide +kernel
theorem test_event_sets_flags : let u := ran .eventDelivery eventDue
    (u.tile 2).evf = 128 ∧ (u.tile 3).evf = 128 ∧ (u.tile 4).evf = 0 := by decide +kernel
theorem wit_EventsReachTheirTargets_engine : unitB 82 1 11 0 counting = true ∧ counting.get (ORR_ENGn_CTL.run 0) = 0 ∧ counting.timelineOn 0 = true ∧
    bound.get (ORR_ENGn_CTL.run 0) = 1 ∧ bound.runBank 0 = 0 := by decide +kernel
/-- Engine 0 in a barrier as the leader, CONJ released, a timeout of 1 ms passed. -/
def barrier : State := (ran (.conj 0 9) (State.puts bound [(ORR_CONJ_CTL.role, 1), (ORR_CONJ_CTL.tmo, 1)])).withTb fun t => { t with mono := 2200002 }
theorem wit_EventsReachTheirTargets_conj : unitB 82 1 11 0 barrier = true ∧ barrier.orr.conjLow = false ∧ barrier.barrierOf 0 = some (9, 1) ∧
    barrier.get ORR_CONJ_CTL.role = 1 ∧ barrier.get ORR_CONJ_CTL.tmo * 2200000 < barrier.since 1 := by decide +kernel

/-! ## Chapter 03 -/

/-- Tile 3 runs, its registers changed by `f`. -/
def core (f : Tile → Tile) : State := (ran (.tileStart 3 false) live).withTile 3 f
/-- In the middle of a bundle whose slots execute. -/
def body (f : Tile → Tile) : State := core fun x => { f x with skip := false }
/-- The tile's scalar registers with some set. -/
def setS (l : List (Fin 32 × BitVec 32)) (x : Tile) : Tile := { x with s := l.foldl (fun v q => v.set q.1.val q.2) x.s }
/-- s`r` as the next bundle sees it. -/
def nextS (c : Instr) (s : State) (r : Fin 32) : BitVec 32 := ((ran c s).tile 3).begin.sreg r

theorem wit_ScalarArithmetic : Issues .plain 3 (core id) := by unfold Issues; decide +kernel
theorem test_add_wraps : nextS (.add 3 4 1 2) (core (setS [(1, 0xFFFFFFFF), (2, 2)])) 4 = 1 := by decide +kernel
theorem test_sub_self : nextS (.sub 3 1 1 2) (core (setS [(1, 0), (2, 1)])) 1 = 0xFFFFFFFF := by decide +kernel
theorem test_mulh_signed : nextS (.mulh 3 4 1 2) (core (setS [(1, 0x80000000), (2, 2)])) 4 = 0xFFFFFFFF := by decide +kernel
theorem test_sra_low_five : nextS (.sra 3 4 1 2) (core (setS [(1, 0x80000000), (2, 36)])) 4 = 0xF8000000 := by decide +kernel
theorem test_slt_signed : nextS (.slt 3 4 1 2) (core (setS [(1, 0xFFFFFFFF), (2, 0)])) 4 = 1 := by decide +kernel
theorem test_sltu_unsigned : nextS (.sltu 3 4 1 2) (core (setS [(1, 0xFFFFFFFF), (2, 0)])) 4 = 0 := by decide +kernel
theorem test_addi_sign : nextS (.addi 3 4 1 0xFFFF) (core (setS [(1, 5)])) 4 = 4 := by decide +kernel
theorem test_ori_zero_extends : nextS (.ori 3 4 0 0x8001) (core id) 4 = 0x8001 := by decide +kernel
theorem test_lui : nextS (.lui 3 4 0 0x8001) (core id) 4 = 0x80010000 := by decide +kernel
theorem test_s0_stays : nextS (.addi 3 0 0 7) (core id) 0 = 0 := by decide +kernel

theorem wit_ControlRegisterMoves : Issues .plain 3 (core (setS [(1, 5)])) ∧ ((core (setS [(1, 5)])).tile 3).begin.sreg 1 = 5 := by unfold Issues; decide +kernel
theorem test_mtc_cst_reserved : faults (.mtc 3 1 40) (core (setS [(1, 16)])) = some .reservedBit := by decide +kernel
theorem test_mtc_evf_clears : ((ran (.mtc 3 1 43) (core fun x => { setS [(1, 6)] x with evf := 3 })).tile 3).evf = 1 := by decide +kernel
theorem test_mfc_unused : nextS (.mfc 3 4 63) (core id) 4 = 0 := by decide +kernel

/-- A word in the scratchpad of tile 3 under p1. -/
def loaded : State := (core fun x => { x with p := x.p.set 1 0x103 }).setLe (0x1100000000 + 3 * 0x400000 + 0x100) 4 0x80FF1234
theorem wit_ScalarMemory : Issues .plain 3 loaded ∧ Memory.wf loaded = true ∧ loaded.flaw (0x1100000000 + 3 * 0x400000 + 0x100) = 0 := by
  unfold Issues; decide +kernel
theorem test_ld_third_slot : let y := (ran (.ld 3 5 1 false 0) loaded).tile 3
    (iter Tile.nextSlot 3 y).sreg 5 = 0x80FF1234 ∧ (iter Tile.nextSlot 2 y).sreg 5 = 0 := by decide +kernel
theorem test_ldb_sign : (iter Tile.nextSlot 3 ((ran (.ldb 3 5 1 false 0) loaded).tile 3)).sreg 5 = 0xFFFFFF80 := by decide +kernel
theorem test_ldhu_high : (iter Tile.nextSlot 3 ((ran (.ldhu 3 5 1 false 0) loaded).tile 3)).sreg 5 = 0x80FF := by decide +kernel
/-- Pointer 8 circular in set 0 (the worked example of R69). -/
def ring (p : BitVec 32) (cl : BitVec 32) (x : Tile) : Tile :=
  { x with p := x.p.set 8 p, cb := x.cb.set 0 0x1000, cl := x.cl.set 0 cl, circ := 0x100 }
theorem test_circular_up : (((core (ring 0x1058 96)).tile 3).addPmod 8 16).applyPmods.p[8] = 0x1008 := by decide +kernel
theorem test_circular_down : (((core (ring 0x1004 96)).tile 3).addPmod 8 (-16)).applyPmods.p[8] = 0x1054 := by decide +kernel
theorem test_circular_sum : ((((core (ring 0x1058 96)).tile 3).addPmod 8 16).addPmod 8 8).applyPmods.p[8] = 0x1010 := by decide +kernel
/-- R69: the result is taken modulo 2^21. -/
theorem test_circular_top : (((core fun x => { ring 0x1FFFFC 96 x with cb := x.cb.set 0 0x1FFFF0 }).tile 3).addPmod 8 8).applyPmods.p[8] = 4 := by decide +kernel
theorem wit_ScalarMemory_circular : let x := ((core (ring 0x1058 0)).tile 3).begin
    x.circ.getLsbD 8 = true ∧ x.cl[0].toNat % 2097152 = 0 ∧ faults (.st 3 1 8 true 4) (core (ring 0x1058 0)) = some .circularZero := by decide +kernel

theorem wit_Branches : Issues .flow 3 (core id) ∧ Issues .flow 3 (core (setS [(1, 1)])) := by unfold Issues; decide +kernel
theorem test_branch_target : let y := after (after (after ((ran (.b 3 0 0 100) (core id)).tile 3)))
    y.pc = 100 ∧ y.delay = none := by decide +kernel
theorem test_branch_untaken : ((ran (.b 3 1 1 100) (core (setS [(1, 1)]))).tile 3).pc = 1 := by decide +kernel
theorem test_bl_link : nextS (.bl 3 0 0 100) (core id) 31 = 64 := by decide +kernel
theorem test_branch_in_delay_slot : faults (.b 3 0 0 100) (ran (.b 3 0 0 50) (core id)) = some .flowInDelaySlot := by decide +kernel

/-- A loop body of one bundle with 2 runs, then 1 run, left. -/
def looping (n : BitVec 32) : State := core fun x => { x with loops := [⟨n, 0, 0, false⟩] }
theorem wit_BlockRepeats : Issues .flow 3 (core id) ∧ ((core id).tile 3).begin.loops.length < 4 ∧ Issues .plain 3 (looping 2) ∧
    ((looping 2).tile 3).begin.delay = none ∧ ((looping 2).tile 3).begin.loops = [⟨2, 0, 0, false⟩] ∧ ((looping 2).tile 3).begin.cur = 0 := by
  unfold Issues; decide +kernel
theorem test_loop_back : ((ran (.nop 3) (looping 2)).tile 3).loops = [⟨1, 0, 0, false⟩] ∧ ((ran (.nop 3) (looping 2)).tile 3).pc = 0 := by decide +kernel
theorem test_loop_ends : ((ran (.nop 3) (looping 1)).tile 3).loops = [] ∧ ((ran (.nop 3) (looping 1)).tile 3).pc = 1 := by decide +kernel
theorem test_do_count : (((ran (.doLoop 3 false 2 4) (core id)).tile 3).loops.map fun l => (l.cnt, l.start, l.stop)) = [(5, 1, 3)] := by decide +kernel
/-- Four levels, and a repeat with one issue left. -/
def full : State := core fun x => { x with loops := List.replicate 4 ⟨9, 0, 30, false⟩ }
theorem wit_BlockRepeats_overflow : Issues .flow 3 full ∧ 4 ≤ (full.tile 3).begin.loops.length := by unfold Issues; decide +kernel
theorem test_fifth_level : (ran (.doLoop 3 false 2 0) full).get (TIL_CAUSE.loop_ovf 3) = 1 := by decide +kernel
def repeating (k : Nat) : State := core fun x => { x with rpt := some k }
theorem wit_BlockRepeats_repeat : Issues .plain 3 (repeating 2) ∧ ((repeating 2).tile 3).begin.rpt = some 2 ∧ ((repeating 1).tile 3).begin.rpt = some 1 := by
  unfold Issues; decide +kernel
theorem test_repeat_issues_again : ((ran (.nop 3) (repeating 2)).tile 3).pc = 0 ∧ ((ran (.nop 3) (repeating 1)).tile 3).pc = 1 := by decide +kernel

theorem wit_Waits : Issues .waits 3 (core id) ∧ Issues .waits 3 (core fun x => { x with evf := 16 }) ∧
    ((core fun x => { x with evf := 16 }).tile 3).begin.evf.getLsbD 4 = true ∧ decodeBundle 3 0xFFFFFFFFFFFFFFFFFFFFFFFFFFFFFFFF = none := by
  unfold Issues; decide +kernel
theorem test_waite_waits : (ran (.waite 3 4 true) (core id)).get (TIL_STAT.state 3) = 2 := by decide +kernel
theorem test_waite_clears : ((ran (.waite 3 4 true) (core fun x => { x with evf := 17 })).tile 3).evf = 1 := by decide +kernel
theorem wit_Waits_yield : let s := ran (.yreqWrite 3 true) (core id)
    s.flag (TIL_CTL.yreq 3) = true ∧ (s.tile 3).begin.loops = [] ∧ ((ran (.yield 3) s).tile 3).stopping = some 4 := by decide +kernel
/-- An enabled flag at an interrupt point. -/
def interrupted : State := core fun x => { x with evf := 2, ien := 2, ie := true, pc := 9 }
theorem wit_Waits_interrupt : interrupted.tileRuns 3 = true ∧ Regs.wf interrupted = true ∧ interrupted.intPoint 3 = true ∧
    (interrupted.tile 3).evf &&& (interrupted.tile 3).ien ≠ 0 := by decide +kernel
theorem test_interrupt_saves : ((ran (.interrupt 3) interrupted).tile 3).ira = 144 := by decide +kernel
/-- One V-slot operation is queued. -/
def busyV : State := core fun x => { x with vq := [⟨.mzp 3 { ma := 0, mb := 0, vd := 0, fmt := 0, sel := 0, cnt := 0 }, 0, 0, none, [], []⟩] }
theorem wit_Waits_queue : Issues .waits 3 busyV ∧ (busyV.tile 3).begin.vq ≠ [] ∧ ((core id).tile 3).begin.vq = [] := by unfold Issues; decide +kernel
/-- R58, R73: WAITV waits at its bundle while the queue is not empty, and a stop waits for the queue. -/
theorem test_waitv_waits : (ran (.waitv 3) busyV).get (TIL_STAT.state 3) = 3 ∧ ((ran (.waitv 3) busyV).tile 3).pc = 0 ∧ ((ran (.waitv 3) (core id)).tile 3).pc = 1 := by
  decide +kernel
theorem wit_Waits_stop : let s := core fun x => { x with stopping := some 0 }
    (s.tile 3).stopping = some 0 ∧ s.ownerOf 3 = none ∧ s.tileOn 3 = true ∧ s.held 1 = false := by decide +kernel

theorem wit_TileControl : live.fck = true ∧ Regs.wf live = true ∧ live.tileOn 3 = true ∧ live.held 1 = false ∧ live.get (TIL_CTL.run 3) = 0 ∧
    (core id).get (TIL_CTL.run 3) = 1 := by decide +kernel
theorem wit_TileControl_off : heldOne.tileOn 3 = true ∧ heldOne.held 1 = true ∧
    ({ live with pwr := { live.pwr with dom := live.pwr.dom.set 3 0 } } : State).tileOn 3 = false := by decide +kernel
theorem test_evs_overrun : (ran (.tilEvsWrite 3 6) (core fun x => { x with evf := 2 })).get (TIL_CAUSE.evf_ovr 3) = 1 := by decide +kernel

/-- Slot fields: accumulator 2, s1 and s2. -/
def slot : DSlot := { d := 2, sa := 1, sb := 2, src3 := false, x := .none, y := .none }
theorem wit_Accumulators : InBundle 3 (body id) ∧ Memory.wf (body id) = true ∧ DSound 3 slot (body id) := by
  unfold InBundle DSound; simp only [slot]; decide +kernel
theorem test_mac : ((ran (.mac 3 slot) (body (setS [(1, 0xFFFFFFFF), (2, 5)]))).tile 3).acc[2] = BitVec.ofInt 80 (-5) := by decide +kernel
theorem test_cmac : let y := (ran (.cmac 3 slot) (body (setS [(1, 0x00030002), (2, 0x00050004)]))).tile 3
    y.acc[2] = BitVec.ofInt 80 (-7) ∧ y.acc[3] = 22 := by decide +kernel
/-- acc2 for the worked example of R64, sh = 16. -/
def readout (v : Int) : State := body fun x => { x with acc := x.acc.set 2 (BitVec.ofInt 80 v), accView := x.accView.set 2 (BitVec.ofInt 80 v) }
def mvaSlot : DSlot := { slot with sa := 5, sb := 16 }
def read5 (v : Int) : BitVec 32 := (iter Tile.nextSlot 6 ((ran (.mva 3 mvaSlot) (readout v)).tile 3)).sreg 5
theorem test_mva_examples : read5 163840 = 2 ∧ read5 229376 = 4 ∧ read5 (-163840) = 0xFFFFFFFE ∧ read5 281474976710656 = 0x7FFFFFFF := by decide +kernel
theorem test_mva_sat : ((ran (.mva 3 mvaSlot) (readout 281474976710656)).tile 3).sat = true ∧ ((ran (.mva 3 mvaSlot) (readout 229376)).tile 3).sat = false := by
  decide +kernel

/-- A Y move of tile 3 that post-modifies the circular pointer 8. -/
def moving : DSlot := { slot with y := .load 5 0 2 true }
theorem wit_PostModify : DSound 3 moving (body (ring 0x1058 96)) ∧ InBundle 3 (body (ring 0x1058 96)) ∧
    ((body (ring 0x1058 0)).tile 3).circ.getLsbD 8 = true ∧ (8 : Fin 16) ∉ ((body (ring 0x1058 0)).tile 3).mtc ∧
    faults (.dnop 3 moving) (body (ring 0x1058 0)) = some .circularZero := by
  unfold InBundle DSound; simp only [moving, slot]; decide +kernel

/-- R52: the word of a bundle of three NOPs decodes to them. -/
theorem test_decode_nop_bundle : (decodeBundle 3 0).isSome = true := by decide +kernel

/-! ## Chapters 04 and 05 -/

/-- v1 and v2 of a tile in the middle of a bundle. -/
def vecs (a b : BitVec 2048) : State := body fun x => { x with v := (x.v.set 1 a).set 2 b }
/-- vd = v4, va = v1, vb = v2, no mask; `n` elements of type `ty`. -/
def vv (ty : Fin 8) (n : Fin 4096) : VVec := { vd := 4, va := 1, vb := 2, k := 0, km := false, ty := ty, n := n - 1 }
/-- The state once a V-slot command has left the queue of tile 3. -/
def done (c : Instr) (s : State) : State :=
  match unitRuns 3 30 (ran c s) with
  | .next t => t
  | _ => s
/-- v4 after a command. -/
def v4 (c : Instr) (s : State) : Nat := ((done c s).tile 3).v[4].toNat

theorem wit_ElementWise : InBundle 3 (vecs 0 0) ∧ groupFault true (some (4, 8, 16)) [(1, 8, 16), (2, 8, 16)] = none ∧
    groupFault true (some (31, 32, 4096)) [(1, 32, 4096)] = some .groupTooLong := by unfold InBundle; decide +kernel
/-- Eight operations wait. -/
def fullV : State := (vecs 0x01FF 0x0102).withTile 3 fun x => { x with vq := List.replicate 8 ⟨.mzp 3 { ma := 0, mb := 0, vd := 0, fmt := 0, sel := 0, cnt := 0 }, 0, 0, none, [], []⟩ }
theorem wit_ElementWise_full : InBundle 3 fullV ∧ 8 ≤ (fullV.tile 3).vq.length ∧ ((vecs 0 0).tile 3).vq = [] := by unfold InBundle; decide +kernel
theorem test_vadd_wraps : v4 (.vadd 3 (vv 1 2)) (vecs 0x01FF 0x0102) = 0x0201 := by decide +kernel
theorem test_vadds_saturates : v4 (.vadds 3 (vv 1 2)) (vecs 0x01FF 0x0102) = 0x02FF := by decide +kernel
theorem test_vmin_signed : v4 (.vmin 3 (vv 0 2)) (vecs 0x01FF 0x0102) = 0x01FF := by decide +kernel
theorem test_vector_other_bits : v4 (.vadd 3 (vv 1 1)) ((vecs 1 1).withTile 3 fun x => { x with v := x.v.set 4 0xAB00 }) = 0xAB02 := by decide +kernel
theorem test_group_overlap : faults (.vadd 3 { vv 0 256 with vd := 2, va := 1 }) (vecs 0 0) = some .groupOverlap ∨
    faults (.vadd 3 { vv 4 4096 with vd := 2, va := 1 }) (vecs 0 0) = some .groupTooLong := by decide +kernel

theorem wit_FloatAndComplex : InBundle 3 (vecs 0 0) ∧ Regs.wf (vecs 0 0) = true ∧ groupFault true (some (4, 32, 1)) [(1, 32, 1), (2, 32, 1)] = none := by
  unfold InBundle; decide +kernel
theorem test_vmul_f32 : v4 (.vmul 3 (vv 6 1)) (vecs 1069547520 3222274048) = 3226992640 := by decide +kernel
theorem test_vcmul : v4 (.vcmul 3 (vv 7 1)) (vecs 0x00004000 0x40000000) = 0x20000000 := by decide +kernel
theorem test_reserved_type : (ran (.vcmul 3 (vv 0 1)) (vecs 0 0)).get (TIL_CAUSE.bad_op 3) = 1 := by decide +kernel

/-- R52: a V slot of a reserved type undoes its bundle's store. -/
def stored : State := ran (.st 3 1 2 false 0) (core (setS [(1, 7)]))
theorem wit_FloatAndComplex_store : Issues .plain 3 (core (setS [(1, 7)])) ∧ Memory.wf (core (setS [(1, 7)])) = true ∧ goesOn (.st 3 1 2 false 0) (core (setS [(1, 7)])) = true ∧
    InBundle 3 stored := by unfold Issues InBundle; decide +kernel
theorem test_bad_op_undoes_store : stored.le (spadBase 3) 4 = 7 ∧ (ran (.vcmul 3 (vv 0 1)) stored).le (spadBase 3) 4 = 0 := by decide +kernel

theorem wit_Shuffles : groupFault false (some (4, 16, 2)) [(1, 16, 2), (2, 16, 2)] = none ∧ groupFault false (some (4, 16, 2)) [(1, 16, 2), (2, 32, 1)] = none := by
  decide +kernel
theorem test_vrev : v4 (.vrev 3 (vv 1 3)) (vecs 0x030201 0) = 0x010203 := by decide +kernel
theorem test_vzip : v4 (.vzip 3 (vv 1 4)) (vecs 0x0201 0x0A09) = 0x0A020901 := by decide +kernel
theorem test_vrsum_saturates : v4 (.vrsum 3 (vv 0 2)) (vecs 0x7F7F 0) = 0x7F := by decide +kernel

/-- The worked example of R89: scale 0.5, TIL_VSAT3 = 0. -/
def packing : State := vecs 0x3e110000bf400000bc3000003f19999abdcccccd3ed24000 1056964608
theorem wit_NarrowCodes : InBundle 3 packing ∧ Regs.wf packing = true ∧ groupFault false (some (4, 4, 6)) [(1, 32, 6), (2, 32, 1)] = none := by
  unfold InBundle; decide +kernel
theorem test_vpk_gn4 : v4 (.vpkGn4 3 (vv 3 6)) packing = 0x3F07A6 ∧ (done (.vpkGn4 3 (vv 3 6)) packing).get (TIL_VSATc.count 3 3) = 2 := by decide +kernel
theorem test_vupk_gn4 : v4 (.vupkGn4 3 (vv 3 6)) (vecs 0x3F07A6 1056964608) = 0x3e098000bf000000000000003f000000bdb300003ea48000 := by decide +kernel
/-- The worked example of R103: CT8 codes with scale 2. -/
theorem test_vpk_ct8 : v4 (.vpkCt8 3 (vv 5 5)) (vecs 0x400666663a6bedfac09000003d0c00003d040000 1073741824) = 0x7100FF1210 := by decide +kernel

/-- A vector load of 4 bytes at p1 of tile 3, and a chain of one ADD. -/
def vm : VMem := { v := 4, p := 1, m := 0, sz := false, k := 0, ty := 1, n := 3 }
def vf : VChain := { vd := 4, va := 1, vb := 2, k := 0, chain := 0, n := 0 }
theorem wit_VectorMemory : InBundle 3 (vecs 0 0) ∧ Memory.wf (vecs 0 0) = true ∧ Regs.wf (vecs 0 0) = true ∧
    (vecs 0 0).flaws = [] ∧ (vecs 0 0).rep.lost = [] ∧ groupFault false (some (4, 8, 4)) [] = none ∧ groupFault false none [(4, 8, 4)] = none := by
  unfold InBundle; decide +kernel
theorem test_vld : v4 (.vld 3 vm) ((body fun x => { x with p := x.p.set 1 0x100 }).setLe (0x1100000000 + 3 * 0x400000 + 0x100) 4 0x80FF1234) = 0x80FF1234 := by
  decide +kernel
/-- A chain table whose entry 0 is: one stage, registers to registers, a constant operand, f32; ADD of the constant 2.5. -/
def chained : State :=
  (((vecs 1065353216 0).setLe (spadBase 3) 4 0xb6c0000).setLe (spadBase 3 + 4) 4 0x6000000).setLe (spadBase 3 + 36) 4 1075838976
theorem test_chain_add : v4 (.vf 3 vf) chained = 1080033280 := by decide +kernel
/-- The header of R97's worked example. -/
theorem test_chain_header : let c := chainOf [0x7F604000]
    c.nstage = 4 ∧ c.aMem = true ∧ c.bMem = true ∧ c.dMem = true ∧ c.ta = 6 ∧ c.tb = 6 ∧ c.td = 0 ∧ c.wt = false ∧ c.sc = 2 ∧ c.bBc = false := by decide +kernel

theorem wit_VectorMemory_chain : let c := chainOf ((List.range 16).map fun i => chained.le (spadBase 3 + 4 * i) 4)
    c.nstage = 1 ∧ c.aMem = false ∧ c.dMem = false ∧ c.bMem = true ∧ c.wt = false ∧ c.ta = 6 ∧ c.td = 6 := by decide +kernel

/-- The worked example of R113: I8 operands and their products. -/
def i8 : State := body fun x =>
  { x with mt := (x.mt.set 0 { x.mt[0] with data := 0xFF0380C8, zp := 128, sgn := false }).set 1
              { x.mt[1] with data := 0x10000000000000000000000000000000000000000000000000000000000000000000000000000000000000000000000000000000000000000000000007f7f7f7f000000000000000000000000000000000000000000000000000000000000000000000000000000000000000000000000000000000000000000000000ff7f0580, zp := 0, sgn := true },
            ab := x.ab.set 0 { x.ab[0] with rt := 0xc40005000a400002964ccd } }
/-- mt0 by mt1 into bank 0, start = 1, K = 4. -/
def vx (fmt : Fin 16) : VMat := { ma := 0, mb := 1, vd := 0, fmt := fmt, sel := 4, cnt := 3 }
def product : State := done (.mma 3 (vx 0)) i8
theorem wit_MatrixProducts : InBundle 3 i8 ∧ (vx 0).vd = 0 ∧ (vx 0).fmt.val ≤ 5 := by unfold InBundle; decide +kernel
theorem test_mma_i8 : (List.range 3).map (fun j => sCast 48 (((product.tile 3).ab[0]).entry 0 j)) = [-25218, 9398, 72] := by decide +kernel
theorem wit_MatrixReadout : InBundle 3 product ∧ Regs.wf product = true ∧ groupFault false (some (0, 8, 64)) [] = none := by unfold InBundle; decide +kernel
theorem test_mrd_rqs8 : let u := done (.mrd 3 { ma := 0, mb := 1, vd := 4, fmt := 3, sel := 0, cnt := 0 }) product
    (u.tile 3).v[4].toNat % 2 ^ 24 = 0x1A7F94 ∧ u.get (TIL_VSATc.count 3 1) = 1 := by decide +kernel
/-- The worked example of R114: GN4 rows. -/
def gn4 : State := body fun x => { x with mt := (x.mt.set 0 { x.mt[0] with data := 0x07A6 }).set 1 { x.mt[1] with data := 0x5D37 } }
theorem test_mma_gn4 : (((done (.mma 3 (vx 1)) gn4).tile 3).ab[0]).entry 0 0 = 110519 := by decide +kernel

/-- One row at p1, loaded into mt0. -/
def ml : VMat := { ma := 0, mb := 0, vd := 1, fmt := 0, sel := 0, cnt := 0 }
theorem wit_MatrixOperands : InBundle 3 (vecs 0 0) ∧ (vecs 0 0).flaws = [] ∧ (vecs 0 0).rep.lost = [] ∧ ml.mb = 0 ∧ ml.vd.val < 16 ∧ ml.fmt = 0 ∧
    ml.sel = 0 ∧ ml.cnt.toNat < 64 := by unfold InBundle; simp only [ml]; decide +kernel
theorem test_mls : let s := (body fun x => { x with p := x.p.set 1 0x100 }).setLe (0x1100000000 + 3 * 0x400000 + 0x100) 2 0x3C00
    ((done (.mls 3 ml) s).tile 3).mt[0].scale = 0x3C00 := by decide +kernel
theorem test_mzp : let y := (done (.mzp 3 { ml with vd := 0, cnt := 0x1FE }) (vecs 0 0)).tile 3
    y.mt[0].zp = 0xFE ∧ y.mt[0].sgn = true := by decide +kernel
theorem test_matrix_reserved : (ran (.mld 3 { ml with mb := 1 }) (vecs 0 0)).get (TIL_CAUSE.bad_op 3) = 1 := by decide +kernel

/-! ## Chapter 06 -/

/-- A number of fields: byte, lowest bit, value. -/
def fields (l : List (Nat × Nat × Nat)) : Nat := (l.map fun x => x.2.2 * 2 ^ (8 * x.1 + x.2.1)).sum
/-- One row of 64 bytes from cluster memory C0 + 0x1000 to scratchpad L0 + 0x200, setting flag 9 of tile 2. -/
def copyD : BitVec 512 := BitVec.ofNat 512 (fields [(0, 0, 0x1000001000), (8, 0, 0x1100000200), (32, 0, 63), (44, 9, 1), (44, 10, 9), (48, 48, 2)])
/-- The same bytes filled with 0x01020304, and sent to tiles 0 and 3. -/
def fillD : BitVec 512 := BitVec.ofNat 512 (fields [(0, 0, 0x01020304), (8, 0, 0x1100000200), (32, 0, 63), (44, 0, 1)])
def multiD : BitVec 512 := BitVec.ofNat 512 (fields [(0, 0, 0x1000001000), (8, 0, 0x200), (32, 0, 63), (44, 0, 2), (44, 18, 1), (48, 6, 3)])
/-- The ring of queue 0 of C0 holds one descriptor. -/
def ringed (d : BitVec 512) : State :=
  (((State.puts live [(DMA_Qn_RING.en 0 0, 1), (DMA_Qn_RING.log2size 0 0, 2), (DMA_Qn_RING.offset 0 0, 0x80)]).setLe 0x1000002000 4 1).setLe 0x1000002040 64
    d.toNat).setLe 0x1000001000 8 0x8877665544332211
def started (d : BitVec 512) : State := ran (.dmaGo 0 0) (ringed d)
theorem wit_DmaQueues_start : let s := ringed copyD
    runsB 82 1 s = true ∧ s.domOn 72 = true ∧ canonB s = true ∧ s.flaws = [] ∧ s.rep.lost = [] ∧ s.get (DMA_Qn_RING.en 0 0) = 1 ∧
    s.get (DMA_Qn_STAT.busy 0 0) = 0 ∧ s.le 0x1000002000 4 = 1 ∧ s.le 0x1000002004 4 = 0 ∧ BitVec.ofNat 512 (s.le 0x1000002040 64) = copyD ∧
    dReserved copyD = false := by decide +kernel
theorem wit_DmaLines_fetch : let s := started copyD
    let x := s.dq 0 0
    let m : FLine := ⟨0x1000001000, 64, 0, some 0⟩
    runsB 82 1 s = true ∧ canonB s = true ∧ s.flaws = [] ∧ s.rep.lost = [] ∧ x.desc = some copyD ∧ dChip copyD = 0 ∧ dConv copyD = 0 ∧ dOp copyD = 0 ∧
    dComp copyD = false ∧ x.row < dRows copyD ∧ x.nextLine copyD = some m ∧ s.pickLine 0 0 copyD = some m ∧ s.mayFetch 0 0 = true ∧ x.ahead = [] ∧ x.fifo = [] ∧
    s.apx.reqs = [] ∧ (s.acquire 0 0 (fetchNeed 0 0x1000001000 (regionOf 0x1100000200)) 0x1000001000).isSome = true ∧ s.rangeOn 0x1000001000 64 = true ∧
    (List.range 64).all (fun i => sourceAllowed 0 (regionOf (0x1000001000 + i)) && (regionOf (0x1000001000 + i)).backed) = true := by
  decide +kernel
theorem wit_DmaLines_fill : let s := started fillD
    (s.dq 0 0).desc = some fillD ∧ dOp fillD = 1 ∧ s.pickLine 0 0 fillD = (s.dq 0 0).nextLine fillD ∧ (s.pickLine 0 0 fillD).isSome = true ∧ s.mayFetch 0 0 = true := by decide +kernel
/-- Two rows of 64 bytes from LPDDR6 0x40 and 0x00, fetched in the second slot of a frame, a read slot. -/
def farD : BitVec 512 := BitVec.ofNat 512 (fields [(0, 0, 0x40), (8, 0, 0x1100000200), (32, 0, 63), (34, 0, 1), (36, 0, 0xFFFFFFC0)])
def far : State :=
  let s := (started farD).put (DMA_Cc_WHEELi.en 0 0 0) 1
  { s with tb := { s.tb with mono := 11 }, mv := { s.mv with mem := { s.mv.mem with step := 0 } } }
theorem wit_DmaLines_window : let x := far.dq 0 0
    x.desc = some farD ∧ dOp farD = 0 ∧ x.nextLine farD = some ⟨0x40, 64, 0, some 0⟩ ∧ far.pickLine 0 0 farD = some ⟨0, 64, 1, some 0⟩ ∧
    regionOf 0x40 = .lpddr ∧ x.window farD = [⟨0x40, 64, 0, some 0⟩, ⟨0, 64, 1, some 0⟩] ∧ far.mayFetch 0 0 = true ∧ far.rangeOn 0 64 = true ∧
    (far.acquire 0 0 (fetchNeed 0 0 (regionOf 0x1100000240)) 0).isSome = true := by decide +kernel
/-- The line fetched. -/
def fetched (d : BitVec 512) : State :=
  (ran (if dOp d = 2 then .multicastCopy 0 0 1 ⟨0, false⟩ else .copy 0 0 1 ⟨0, false⟩) (started d)).withDq 0 0 fun x => { x with credit := Vector.replicate 8 (some 0) }
/-- The hypotheses of the write of a first line, in a ck in which nothing wrote a scratchpad. -/
def sends (s : State) (d : BitVec 512) (l : DLine) : Bool :=
  let x := s.dq 0 0
  runsB 82 1 s && canonB s && decide (x.desc = some d ∧ x.front d = some l ∧ l.need = 0 ∧ l.reached = [] ∧ l.data.length = 64) && !x.held d l &&
    s.now.core.isEmpty && s.now.port.isEmpty && decide ((s.reach 0 0 (lineFrom d l.row l.piece) (x.left d l)).1 = x.left d l)
theorem wit_DmaLines_write : ((fetched copyD).dq 0 0).fifo.any (sends (fetched copyD) copyD) = true ∧ (fetched copyD).rangeOn 0x1100000200 64 = true ∧
    (List.range 64).all (fun i => (regionOf (0x1100000200 + i)).backed) = true := by decide +kernel
theorem wit_DmaLines_multicast : ((fetched multiD).dq 0 0).fifo.any (sends (fetched multiD) multiD) = true ∧ ((fetched multiD).dq 0 0).receivers multiD = [0, 1] ∧
    (fetched multiD).rangeOn 0x1100000200 64 = true ∧ (fetched multiD).rangeOn 0x1100C00200 64 = true := by decide +kernel
theorem test_copy : (ran (.copy 0 0 1 ⟨1, false⟩) (started copyD)).le 0x1100000200 8 = 0x8877665544332211 := by decide +kernel
theorem test_fill : (ran (.fill 0 0 1 ⟨1, false⟩) (started fillD)).le 0x1100000204 8 = 0x0102030401020304 := by decide +kernel
theorem test_multicast : let u := ran (.multicastCopy 0 0 0 ⟨1, false⟩) (fetched multiD)
    u.le 0x1100000200 8 = 0x8877665544332211 ∧ u.le 0x1100C00200 8 = 0x8877665544332211 ∧ u.le 0x1100400200 8 = 0 := by decide +kernel

def written : State := ran (.copy 0 0 1 ⟨1, false⟩) (started copyD)
theorem wit_DmaQueues_complete : let x := written.dq 0 0
    x.desc = some copyD ∧ x.allWritten copyD = true ∧ (x.evTiles copyD).all (fun t => written.tileOn t) = true ∧ x.hold = false ∧ x.prod = x.cons + 1 ∧
    BitVec.ofNat 32 (written.le 0x1000002000 4) = x.cons + 1 := by decide +kernel
theorem test_completion : let u := ran (.descriptorCompletion 0 0) written
    u.le 0x1000002004 4 = 1 ∧ (u.tile 2).evf = 512 ∧ u.get (DMA_Qn_STAT.busy 0 0) = 0 := by decide +kernel
theorem wit_DmaQueues_cancel : (started copyD).get (DMA_Qn_STAT.busy 0 0) = 1 ∧ ((started copyD).dq 0 0).seen = true ∧ (live.dq 0 0).seen = false ∧
    (started copyD).apx.reqs = [] := by decide +kernel
theorem wit_DmaQueues_drain : let s := ran (.dmaCancel 0 0) (started copyD)
    (s.dq 0 0).draining = true ∧ (s.dq 0 0).returned.toNat ≤ s.mono.toNat ∧ s.apx.reqs = [] := by decide +kernel
/-- A receiver 65 lines behind with a limit of 64, and a queue older than 1 µs. -/
def lagging : State := (State.puts (started multiD) [(DMA_Qn_CFG.lag 0 0, 1), (SYS_MODE.det, 0)]).withDq 0 0 fun x => { x with lag := x.lag.set 1 65, age := 2201 }
theorem wit_DmaQueues_lag : let x := lagging.dq 0 0
    x.desc = some multiD ∧ dOp multiD = 2 ∧ 1 < dReceivers multiD ∧ lagging.get (DMA_Qn_CFG.lag 0 0) = 1 ∧ x.drop.getLsbD 1 = false ∧
    64 * lagging.get (DMA_Qn_CFG.lag 0 0) < x.lag[1] ∧ lagging.get SYS_MODE.det = 0 ∧ (lagging.put DMA_AGE.us 1).get DMA_AGE.us * 2200 < x.age := by decide +kernel

/-- Tile 0 has a Comet ring at 0x400 of its scratchpad with a write of 4 bytes to L5 + 0x80, its header read. -/
def cometD : Nat := fields [(0, 0, 0x1101400080), (8, 0, 0x100), (12, 0, 3), (14, 0, 1), (14, 1, 6)]
def cometed : State :=
  ((((State.puts live [(TIL_CMT.n 0, 2), (TIL_CMT.base 0, 0x10)]).setLe 0x1100000400 4 1).setLe 0x1100000440 32 cometD).setLe 0x1100000100 4 0xCAFEF00D).cometHeaders
theorem wit_Comet_launch : cometed.fck = true ∧ cometed.tileOn 0 = true ∧ cometed.held 1 = false ∧ canonB cometed = true ∧ cometed.flaws = [] ∧
    cometed.rep.lost = [] ∧ cometed.now.core = [] ∧ cometed.cometMayLaunch 0 = true ∧ cometed.mv.header[0] = some (0, 1, 0) := by decide +kernel
/-- The transfer of command `d` read, and of a write its snapshot. -/
def takenOf (s : State) (d : Nat) (op : Nat) (moved : Bool) : State :=
  s.setComets 0 [{ hdr := 0, launch := 0, at_ := 0x440, cmd := some (BitVec.ofNat 256 (d + op * 2 ^ 104)),
                   snap := if op = 0 then some (bytesOf 4 0xCAFEF00D) else none, lower := none, moved := moved }]
def taken (op : Nat) (moved : Bool) : State := takenOf cometed cometD op moved
theorem wit_Comet_transfer : ((taken 0 false).comets 0)[0]?.isSome = true ∧ cRemote (BitVec.ofNat 256 cometD) = 0x1101400080 ∧ cLen (BitVec.ofNat 256 cometD) = 4 ∧
    (taken 0 false).rangeOn 0x1101400080 4 = true ∧ (regionOf 0x1101400083).backed = true ∧ cOp (BitVec.ofNat 256 (cometD + 2 ^ 104)) = 1 := by decide +kernel
/-- A write to LPDDR6 across a 256-byte boundary, in a slot of write share with two Comet positions 16 ck or more after the launch; and in one without. -/
def splitD : Nat := fields [(0, 0, 0xFE), (8, 0, 0x100), (12, 0, 3)]
def slotted (comet : Nat) : State :=
  let s := takenOf cometed splitD 0 false
  { s with tb := { s.tb with mono := 22 }, mv := { s.mv with mem := { s.mv.mem with step := 0x5555555555555555, wr := BitVec.ofNat 64 (comet * 2 ^ 32) } } }
def served (comet : Nat) : Bool :=
  let s := slotted comet
  (s.comets 0).any fun tr => tr.part (BitVec.ofNat 256 splitD) = (0, 2) && (s.cometServe 0 0 tr (BitVec.ofNat 256 splitD)).isSome
theorem wit_Comet_served : served 2 = true ∧ (slotted 2).rangeOn 0xFE 2 = true ∧ regionOf 0xFE = .lpddr := by decide +kernel
theorem wit_Comet_unserved : served 0 = false := by decide +kernel
theorem test_comet_split : let u := ran (.cometWrite 0 ⟨0, false⟩) (slotted 2)
    (u.byte 0xFE, u.byte 0xFF, u.byte 0x100) = (0x0D, 0xF0, 0) ∧ (u.comets 0).map CTransfer.moved = [false] := by decide +kernel
theorem test_comet_write : (ran (.cometWrite 0 ⟨0, false⟩) (taken 0 false)).le 0x1101400080 4 = 0xCAFEF00D := by decide +kernel
theorem test_comet_read : (ran (.cometRead 0 ⟨0, false⟩) ((taken 1 false).setLe 0x1101400080 4 7)).le 0x1100000100 4 = 7 := by decide +kernel
theorem test_comet_completion : ((ran (.cometCompletion 0 0) (taken 0 true)).tile 0).evf = 64 := by decide +kernel
theorem wit_Comet_frame : live.domOn 83 = true ∧ live.mono.toNat % 11264 = 0 := by decide +kernel


/-! ## Chapter 07 -/

/-- A frame with its FCS. -/
def framed (bs : List (BitVec 8)) : List (BitVec 8) := bs ++ bytesOf 4 (crc32 bs).toNat
/-- An Ethernet header with an EtherType, and what follows. -/
def ether (ty : Nat) (bs : List (BitVec 8)) : List (BitVec 8) := bytesBE 6 0x020000000001 ++ bytesBE 6 0x0A0B0C0D0E0F ++ bytesBE 2 ty ++ bs
/-- An eCPRI message: type and payload. -/
def ecpri (ty : Nat) (bs : List (BitVec 8)) : List (BitVec 8) := [0x10, BitVec.ofNat 8 ty] ++ bytesBE 2 bs.length ++ bs
/-- One PRB of 9-bit block floating point with exponent 2 from PRB 1: code 1 for I0, −1 for Q0, 0 else. -/
def bfpPrb : List (BitVec 8) := [2] ++ bytesBE 27 (1 * 2 ^ 207 + 511 * 2 ^ 198)
/-- The worked example's message: frameId 42, subframeId 3, slotId 1, symbolId 2, on eAxC 0x1234. -/
def iqPayload (fid : Nat) (dir : Nat) : List (BitVec 8) :=
  bytesBE 2 0x1234 ++ [7, 0x80] ++ bytesBE 1 dir ++ bytesBE 1 fid ++ bytesBE 2 (3 * 4096 + 1 * 64 + 2) ++ bytesBE 3 1 ++ [1] ++ bfpPrb
def iqMsg (fid : Nat) : List (BitVec 8) := ether 0xAEFE (ecpri 0 (iqPayload fid 0))
/-- Stream 3 of timeline 0, position 0 of queue 5 in cluster 0; port 0 up with fronthaul. -/
def fhBase : State :=
  State.puts live [(OPT_Pp_CFG.en 0, 1), (OPT_Pp_STAT.up 0, 1), (OPT_Pp_CFG.fh 0, 1), (FH_STRm_CFG.en 3, 1), (FH_STRm_CFG.static 3, 1), (FH_STRm_CFG.meth 3, 1),
    (FH_STRm_CFG.width 3, 9), (FH_STRm_CFG.queue 3, 5), (FH_STRm_CFG.nprb 3, 4), (FH_STRm_CFG.nmsg 3, 1), (FH_STRm_CFG.eaxc 3, 0x1234), (FH_STRm_WIN.lo 3, 17536),
    (FH_STRm_WIN.hi 3, 42112), (FH_STRm_CROP.sym 3, 0x3FFF), (FH_QUEq_CFG.en 5, 1), (FH_QUEq_CFG.nprb 5, 4), (FH_QUEq_CFG.nstr 5, 1), (FH_QUEq_CFG.log2depth 5, 2),
    (FH_QUEq_CFG.offset 5, 0x40), (TMB_ATn_CFG.mu 0, 1), (TMB_EPOCH.sec, 0), (FH_QUEq_CFG.ev 5, 1), (FH_QUEq_CFG.tile 5, 2), (FH_QUEq_CFG.flag 5, 9)]
/-- A time, in quarters of a nanosecond, whose air instant on timeline 0 is `a`. -/
def quartersOf (a : Nat) : Nat := a * 3125 / 384 + 1
/-- A frame in the buffer of engine 0, captured at air instant `a`. -/
def bufferedAt (a : Nat) (bs : List (BitVec 8)) : FhFrame := ⟨0, BitVec.ofNat 48 (qSec (quartersOf a)), qBelow (quartersOf a), 400 * quartersOf a, 0, bs, etherAt bs + 2⟩
def withFrame (s : State) (f : FhFrame) : State := s.withBuf 0 fun _ => [f]

theorem test_symbol_instant : fhBase.airOf 0 (quartersOf 1466517548) = 1466517548 ∧ tSym 1466517548 42 3 1 2 1 false = 1466485248 ∧
    airDiff 1466517548 1466485248 = 32300 ∧ tSym 1466530000 42 3 1 2 1 false = 1466485248 ∧ 4915200 < airDiff 1466517548 (tSym 1466517548 41 3 1 2 1 false) := by decide +kernel

theorem wit_FramesAreChecked : let good : List (BitVec 8) := framed (ether 0xAEFE (ecpri 0 (iqPayload 42 0)))
    runsB (portUnitOf 0) 4 fhBase = true ∧ fhBase.ethUp 0 = true ∧ canonB fhBase = true ∧ good.length ≤ 9216 ∧ 4 ≤ good.length ∧
    natOfBytes (good.drop (good.length - 4)) = (crc32 (good.take (good.length - 4))).toNat ∧ classify (fhBase.flag (OPT_Pp_CFG.fh 0)) (iqMsg 42) = .ingress ∧
    classify true (ether 0x88F7 []) = .ring 0 true ∧ natOfBytes ((good.set 0 0).drop (good.length - 4)) ≠ (crc32 ((good.set 0 0).take (good.length - 4))).toNat := by decide +kernel
/-- R271: the frame of IEEE 802.3 check value "123456789". -/
theorem test_fcs : crc32 ((List.range 9).map fun i => BitVec.ofNat 8 (0x31 + i)) = 0xCBF43926 := by decide +kernel
theorem test_frame_buffered : ((ran (.frameReceive 0 ⟨2, 77⟩ (framed (iqMsg 42)) ⟨0, 0, 0⟩) fhBase).opt.buf[0]).map FhFrame.off = [14] := by decide +kernel
/-- Receive ring 1 at L5, with a descriptor whose buffer of 256 bytes lies at L5 + 0x1000. -/
def ringed1 : State := ((State.puts fhBase [(OPT_RXRr.en 1, 1), (OPT_RXRr.log2size 1, 4), (OPT_RXRr.addr 1, 0x1101400000 / 64)]).setLe 0x1101400040 5 0x1101401000).setLe 0x1101400048 2 256
theorem wit_FramesAreChecked_ring : ringed1.addrOn 0x1101400000 = true ∧ ringed1.rangeOn 0x1101401000 40 = true ∧ ringed1.le 0x1101400040 5 = 0x1101401000 ∧
    ringed1.le 0x1101400048 2 = 256 ∧ canonB ringed1 = true ∧ (State.puts ringed1 []).flag (OPT_RXRr.en 1) = true := by decide +kernel
/-- A frame of ring 1 waits for one captured before it. -/
theorem wit_FramesAreChecked_wait : (withFrame ringed1 (bufferedAt 1000 (ether 0xAEFE (ecpri 2 [1, 2, 3, 4])))).ringWaits (bufferedAt 2000 []) = true ∧
    ringed1.ringWaits (bufferedAt 2000 []) = false ∧ ringed1.opt.rxWait = [] := by decide +kernel
theorem test_control_message_ring : let t := ran (.realTimeControlMessage 0) (withFrame ringed1 (bufferedAt 0 (ether 0xAEFE (ecpri 2 [1, 2, 3, 4]))))
    t.le 0x1101400000 4 = 1 ∧ t.le 0x110140000C 2 = 0 ∧ t.le 0x110140004A 2 = 22 ∧ t.le 0x1101401012 4 = 0x04030201 ∧ t.opt.buf[0] = [] := by decide +kernel

theorem wit_IngressMessages : let s := withFrame fhBase (bufferedAt 1466517548 (iqMsg 42))
    let m := (bufferedAt 1466517548 (iqMsg 42)).msg
    runsB 92 4 s = true ∧ canonB s = true ∧ badMsg m = false ∧ (m.map Ecpri.ty) = some 0 ∧ (m.map fun m => m.payload) = some (iqPayload 42 0) ∧
    s.streamOf 0x1234 0 = some 3 ∧ badMsg (bufferedAt 0 (ether 0xAEFE [0x20, 0, 0, 0])).msg = true := by decide +kernel
theorem wit_IngressMessages_delay : let f := bufferedAt 1000 (ether 0xAEFE (ecpri 5 ([9, 0] ++ bytesBE 18 0)))
    (f.msg.map Ecpri.ty) = some 5 ∧ badMsg f.msg = false ∧ (f.msg.map fun m => m.payload.length) = some 20 ∧
    ((ran (.oneWayDelayMeasurement 0) (withFrame fhBase f)).opt.port[0]).resp.map (fun r => beAt r 18 2) = [0x0902] := by decide +kernel
theorem test_stale_copy : let t := ran (.iqDataMessage ⟨0, false⟩) (withFrame fhBase (bufferedAt 1466530000 (iqMsg 42)))
    t.get (FH_STRm_CNT.stale 3) = 1 ∧ t.get FH_CAUSE.stale = 1 ∧ t.opt.buf[0] = [] ∧ t.opt.seqId[3] = some 7 := by decide +kernel
theorem test_wrong_frame_stale : (ran (.iqDataMessage ⟨0, false⟩) (withFrame fhBase (bufferedAt 1466517548 (iqMsg 41)))).get (FH_STRm_CNT.stale 3) = 1 := by decide +kernel
theorem test_early : (ran (.iqDataMessage ⟨0, false⟩) (withFrame fhBase (bufferedAt (1466485248 + 17535) (iqMsg 42)))).get (FH_STRm_CNT.early 3) = 1 := by decide +kernel
theorem test_direction : (ran (.iqDataMessage ⟨0, false⟩) (withFrame fhBase (bufferedAt 0 (ether 0xAEFE (ecpri 0 (iqPayload 42 0x80)))))).get FH_CAUSE.dir = 1 := by decide +kernel

/-- The batch that the worked example's symbol opens: 2 positions of 4 PRBs. -/
def openB : FhBatch := ⟨1466485248, 2, 0, some 42112, 0x1000001040, 1, 192, 0, [], 0, false⟩
def opened : State := (withFrame fhBase (bufferedAt 1466517548 (iqMsg 42))).withBq 5 fun x => { x with batches := [openB] }
theorem wit_IqData : let s := opened
    canonB s = true ∧ s.bqOn 5 = true ∧ s.streamOf 0x1234 0 = some 3 ∧ openB.mask ≠ 2 ^ (openB.nstr + 1) - 1 ∧ s.get (FH_STRm_CFG.nmsg 3) = 1 ∧
    ((s.bq 5).batches.find? fun x => decide (x.t = 1466485248) && !x.closed) = some openB ∧
    let r := parseSections (s.ustream 3) (iqPayload 42 0).length 0 ((iqPayload 42 0).drop 8) ⟨[], 0, false, false⟩
    r.prbs.map (fun x => (x.inc, x.prb, x.re.length)) = [(0, 1, 12)] ∧ (r.sat, r.short, r.bad) = (0, false, false) ∧ s.get (FH_STRm_CFG.nprb 3) = 4 := by decide +kernel
/-- R157: code 1 with exponent 2 is 4, at output PRB 1 of the region. -/
theorem test_iq_data : let t := ran (.iqDataMessage ⟨0, false⟩) opened
    t.le (0x1000001080 + 48) 8 = 0x00000000FFFC0004 ∧ (t.bq 5).batches.map FhBatch.counts = [[((0, some 3), 1)]] ∧ t.opt.buf[0] = [] := by decide +kernel
theorem test_iq_opens_batch : let t := ran (.iqDataMessage ⟨0, false⟩) (withFrame fhBase (bufferedAt 1466517548 (iqMsg 42)))
    (t.bq 5).batches.map (fun b => (b.t, b.sym, b.slot)) = [(1466485248, 2, 0x1000001040)] ∧ t.get (FH_QUEq_STAT.open 5) = 1 := by decide +kernel
theorem test_no_compression : prbDec 0 1 0 0 [0x80, 0, 0] = (⟨-32768, 0⟩ :: List.replicate 11 ⟨0, 0⟩, 0) := by decide +kernel
theorem test_mu_law : prbValue 3 9 0 0 0 (256 + 32 + 1) = -34 ∧ prbValue 3 9 1 0 0 33 = 68 := by decide +kernel

/-- The batch open on a timeline that has long passed it. -/
def pastB : FhBatch := ⟨1000, 2, 0, some 42112, 0x1000001040, 1, 192, 1, [], 3, false⟩
def past : State :=
  (State.puts (fhBase.withBq 5 fun x => { x with batches := [pastB] }) [(TMB_ATn_CFG.en 0, 1), (FH_QUEq_CFG.lw 5, 2)]).setLe 0x1000001004 4 0xFFFFFFFD
def pastLate : State := { past with tb := { past.tb with nt := ⟨5, 0, 0⟩ }, pwr := { past.pwr with step := 6 } }
/-- The timeline is past 43,112. -/
def onTime : State := { past with tb := { past.tb with nt := ⟨1, 0, 0⟩ } }
theorem wit_Batches_timeout : runsB 82 4 onTime = true ∧ canonB onTime = true ∧ onTime.bqOn 5 = true ∧ (onTime.bq 5).batches = [pastB] ∧ onTime.timelineOn 0 = true ∧
    0 < airDiff (onTime.atNow 0) 43112 := by decide +kernel
theorem test_publish : let t := ran (.batchTimeout 5) onTime
    t.le 0x1000001040 8 = 1000 ∧ t.le 0x1000001048 2 = 0x0201 ∧ t.le 0x1000001050 1 = 3 ∧ t.le 0x1000001000 4 = 1 ∧ (t.tile 2).evf = 512 ∧
    (t.bq 5).due = true := by decide +kernel
def reading : State := { onTime with tb := { onTime.tb with mono := 83 } }
theorem wit_Batches_read : reading.flag (FH_QUEq_CFG.en 5) = true ∧ (reading.mono.toNat + 1024 - 16 * 5) % 1024 < 8 ∧
    (2 * (5 % 4) + 2 * reading.mono.toNat) % 16 / 2 * 2 = 8 := by decide +kernel

def duedRead : State := { onTime with tb := { onTime.tb with mono := 7 } }.withBq 5 fun x => { x with due := true }
theorem wit_Batches_due : (duedRead.bq 5).due = true ∧ (2 * (5 % 4) + 2 * duedRead.mono.toNat) % 16 = duedRead.bqAddr 5 0 / 64 % 16 / 2 * 2 ∧
    onTime.now.port = [] := by decide +kernel

/-- Chain 1 takes converter stream 5 over link 0, with windows of 256 samples, a target of 40 and ka 8. -/
def rxOn : State :=
  { State.puts live [(DFE_RXc_CFG.en 1, 1), (DFE_RXc_CFG.conv 1, 5), (DFE_RXc_AGC.target 1, 40), (DFE_RXc_AGC.ka 1, 8), (DFE_RXc_AGC.amax 1, 63), (DFE_RXc_AGC.gp 1, 3),
      (DFE_RXc_AGC.glat 1, 10), (JES_RXk_CFG.nstr 0, 7)] with jes := { live.jes with data := 1 } }
/-- Samples of I = 16384, Q = 0: −6.02 dBFS, so P = 24. -/
def quarterScale : List (BitVec 32) := List.replicate 256 0x4000
theorem wit_Gain_window : runsB 86 2 rxOn = true ∧ canonB rxOn = true ∧ rxOn.absent 4 1 = false ∧ rxOn.flag (DFE_RXc_CFG.en 1) = true ∧
    quarterScale.length = 2 ^ Nat.max 8 (rxOn.get (DFE_RXc_AGC.aw 1)) ∧ rxOn.streamLink (rxOn.get (DFE_RXc_CFG.conv 1)) = some 0 ∧
    rxOn.jes.zeros[0] = [] ∧ (rxOn.rxc 1).zeroFrom = none ∧ (rxOn.rxc 1).zeroTo = none ∧ (rxOn.rxc 1).released = none ∧
    (quarterScale.map fun w => (CInt.ofWord (jesdCarry (rxOn.flag (JES_RXk_CFG.np12 0)) w)).power).sum ≠ 0 := by decide +kernel
/-- R174: −6.02 dBFS is 24 quarters of a decibel below, and (40 − 24) · 8 / 32 = 4. -/
theorem test_agc_window : let t := ran (.agcWindow 1 0 1 quarterScale) (rxOn.put (DFE_RXc_GAIN.att 1) 10)
    t.get (DFE_RXc_GAIN.pwr 1) = 24 ∧ t.get (DFE_RXc_GAIN.att 1) = 14 ∧ t.fe.port[3].waiting = [(0, 1, 14)] := by decide +kernel
/-- A link of 12-bit samples carries their upper 12 bits. -/
theorem test_jesd_carry : jesdCarry true 0x7FFF8001 = 0x7FF08000 ∧ jesdCarry false 0x7FFF8001 = 0x7FFF8001 := by decide +kernel
def portOn : State := { rxOn with fe := { rxOn.fe with port := rxOn.fe.port.set 3 ⟨[(2, 9, 1), (0, 1, 14), (0, 2, 5)], none⟩ } }
theorem wit_Gain_port : Crossing.gain 3 ∉ portOn.pwr.oneSided ∧ portOn.fe.port[3].waiting[1]? = some (0, 1, 14) ∧ runsB 86 2 portOn = true := by decide +kernel
theorem test_gain_word : let t := ran (.gainPortWord 3) portOn
    (t.rxc 1).sent = [(276, 62, 14)] ∧ t.fe.port[3].waiting = [(2, 9, 1), (0, 2, 5)] := by decide +kernel
def compensating : State := rxOn.withRxc 1 fun x => { x with sent := [(0, 0, 14)] }
theorem wit_Gain_compensation : (compensating.rxc 1).sent = [(0, 0, 14)] ∧ monoLe 0 compensating.mono = true ∧
    ((ran (.gainCompensation 1) compensating).rxc 1).comps = [(0, 14)] := by decide +kernel

/-- DPD coefficient c[0][0] of chain 3 is 1, every other 0. -/
def dpdOne : State := withF [(DFE_DPD.i 3 0 0, 8192)]
theorem wit_FrontEndJobs_dpd : (List.range 8).all (fun i => (List.range 8).all fun m =>
    dpdOne.dpdCoef 3 (dpdOne.get (DFE_TXc_CFG.bank 3)) i m = if i = 0 ∧ m = 0 then ⟨8192, 0⟩ else ⟨0, 0⟩) = true := by decide +kernel
theorem test_dpd : dpdOne.dpd 3 (fun _ => ⟨300, -400⟩) = ⟨300, -400⟩ := by decide +kernel

/-- A job with a descriptor. -/
def jobOf (d : BitVec 1024) : EngJob := ⟨d, ⟨0, 0, none⟩, 0, [], false, false, false, false, false, 0, 0⟩
/-- 128 points, no prefix, 1 PRB of a carrier of 1, to position 0 of queue 5 at 1,466,485,248. -/
def fftD (dir : Nat) : BitVec 1024 := BitVec.ofNat 1024 (dir + fields [(4, 9, 1), (4, 18, 5), (8, 0, 1466485248), (16, 16, 1), (20, 0, 0x2000)])
def ffting : State :=
  (opened.withUnit 0 0 fun x => { x with job := some (jobOf (fftD 0)) }).withRxc 0 fun x => { x with b0 := ⟨List.replicate 130 0x100, 1466485248 + 129 * 16, 16, 0⟩ }
theorem wit_FrontEndJobs_fft : unitB 86 2 6 0 ffting = true ∧ canonB ffting = true ∧ ffting.flaws = [] ∧ ffting.rep.lost = [] ∧
    (ffting.unit 0 0).job = some (jobOf (fftD 0)) ∧ (ffting.unit 0 0).ptrs = [] ∧ (ffting.unit 0 0).draining = false ∧ fDir (fftD 0) = false ∧ fSize (fftD 0) = 0 ∧
    (ffting.rxc 0).b0.newest (fT (fftD 0)) = some 129 ∧ fCp (fftD 0) + fN (fftD 0) - 1 ≤ 129 ∧ fQueue (fftD 0) = 5 ∧ ffting.bqOn 5 = true ∧
    ffting.flag (FH_QUEq_CFG.en 5) = true ∧ fPos (fftD 0) ≤ openB.nstr ∧ 48 * fNprb (fftD 0) ≤ openB.region ∧ openB.mask ||| 2 ^ fPos (fftD 0) ≠ 2 ^ (openB.nstr + 1) - 1 := by decide +kernel
theorem wit_FrontEndJobs_ifft : fDir (fftD 1) = true ∧ ffting.rangeOn (fSrc (fftD 1)) 48 = true ∧ ffting.domOn 87 = true ∧ fCp (fftD 1) ≤ fN (fftD 1) := by decide +kernel
/-- The unit of class 1 holds a descriptor of zeros, which the model reads as a capture of two samples (log entry 19). -/
def capturing : State := { (live.withUnit 1 0 fun x => { x with job := some { jobOf 0 with late := true } }) with tb := { live.tb with mono := 100 } }
theorem wit_FrontEndJobs_capture (h : Config.dfeJob ((0 : BitVec 1024).setWidth 256) = ⟨true, 4, 5, 6, 2, 0x3000⟩) :
    runsB 86 2 capturing = true ∧ capturing.domOn 87 = true ∧ canonB capturing = true ∧ (capturing.unit 1 0).job = some { jobOf 0 with late := true } ∧ LastJob 1 0 capturing ∧
    (Config.dfeJob ((0 : BitVec 1024).setWidth 256)).capture = true ∧
    capturing.captureDue { jobOf 0 with late := true } (Config.dfeJob ((0 : BitVec 1024).setWidth 256)) = true ∧
    capturing.rangeOn (clAddr (Config.dfeJob ((0 : BitVec 1024).setWidth 256)).dst.toNat) 16 = true := by
  rw [h]
  clear h
  unfold LastJob
  decide +kernel

/-! ## Chapters 08 and 09 -/

/-- A polar encode of K = 12 and E = 32 bits from C0 + 0x4000 to C0 + 0x5000: tag 0xAB, flag 3 of tile 1, completion ring of 16 entries at C0 + 0x6000. -/
def polF (op k : Nat) (more : List (Nat × Nat × Nat)) : BitVec 1024 :=
  BitVec.ofNat 1024 (fields ([(0, 0, 0xAB), (4, 0, op), (4, 8, 1), (4, 9, 3), (4, 14, 1), (16, 0, 0x6000), (16, 27, 4), (34, 0, 9), (36, 0, k), (40, 0, 32), (44, 0, 0x4000),
    (48, 0, 0x5000)] ++ more))
/-- Codec 1 enabled and polling a ring of 16 at C0 + 0x8000 that holds one descriptor; poll instant of unit 1 is 8. -/
def polling (d : BitVec 1024) : State :=
  let s := ((State.puts live [(engEn 5 1, 1), (engPoll 5 1, 1), (engRingEn 5 1, 1), (engRingLog 5 1, 4), (engRingOff 5 1, 0x200)]).setLe 0x1000008000 4 1).setLe 0x1000008040 128 d.toNat
  { s with tb := { s.tb with mono := 8 } }
theorem wit_EngineJobs_poll : let s := polling (polF 1 12 [])
    unitB 89 3 10 1 s = true ∧ canonB s = true ∧ s.flaws = [] ∧ s.rep.lost = [] ∧ s.mono.toNat % 256 = 8 * portUnit .pol 1 ∧ s.flag (engEn 5 1) = true ∧
    s.flag (engPoll 5 1) = true ∧ s.flag (engRingEn 5 1) = true ∧ s.unit 5 1 = ⟨[], none, false⟩ ∧ s.addrOn 0x1000008000 = true ∧ s.le 0x1000008000 4 = 1 ∧
    State.descBad (s.setLe 0x1000008004 4 1) 5 (BitVec.ofNat 1024 (s.le 0x1000008040 128)) = false := by decide +kernel
/-- The same while the codec runs a job. -/
theorem wit_EngineJobs_running : let s := (polling (polF 1 12 [])).withUnit 5 1 fun _ => ⟨[], some (jobOf 0), false⟩
    unitB 89 3 10 1 s = true ∧ s.unit 5 1 = ⟨[], some (jobOf 0), false⟩ ∧ ((ran (.engineRingPoll .pol 1) s).unit 5 1).ptrs = [⟨0, 0x8040, none⟩] := by decide +kernel
theorem wit_EngineJobs_overfull : ((polling 0).setLe 0x1000008000 4 17).le 0x1000008000 4 = 17 ∧ 2 ^ 4 < 17 := by decide +kernel
theorem test_poll_accepts : let t := ran (.engineRingPoll .pol 1) (polling (polF 1 12 []))
    t.le 0x1000008004 4 = 1 ∧ ((t.unit 5 1).job.map fun j => eTag j.desc) = some 0xAB ∧ t.get (engState 5 1) = 1 := by decide +kernel
theorem test_bad_descriptor : (ran (.engineRingPoll .pol 1) (polling (polF 4 12 []))).get POL_CAUSE.bad = 2 := by decide +kernel

/-- Codec 1 with an accepted job. -/
def onJob (d : BitVec 1024) (moved : Bool) : State := (polling 0).withUnit 5 1 fun _ => ⟨[], some { jobOf d with moved := moved }, false⟩
/-- Ends with a join of 2 at C0 + 0x7000, and with a next descriptor on decoder 2. -/
def joinD : BitVec 1024 := polF 1 12 [(20, 0, 0x7000), (20, 27, 1)]
def nextD : BitVec 1024 := polF 1 12 [(24, 0, 0x9000), (24, 27, 3), (28, 0, 2)]
theorem wit_EngineJobs_end : let s := (onJob joinD true).setLe 0x1000007000 4 2
    unitB 89 3 10 1 s = true ∧ canonB s = true ∧ s.flaws = [] ∧ s.unit 5 1 = ⟨[], some { jobOf joinD with moved := true }, false⟩ ∧ s.recordOff joinD = false ∧
    64 * ef joinD 16 6 18 + 64 + 16 * 2 ^ eClog joinD ≤ 2 ^ 24 ∧ s.tileOn (eTile joinD) = true ∧ (eNext joinD).next = 0 ∧ s.addrOn (eJoin joinD) = true ∧
    eRing joinD 0 + 64 + 16 * 2 ^ eClog joinD ≤ eJoin joinD ∧ eJen (polF 1 12 []) = false := by decide +kernel
theorem wit_EngineJobs_next : let s := ((onJob nextD true).put (engEn 3 2) 1).withUnit 3 2 fun _ => ⟨[], some (jobOf 0), false⟩
    eJen nextD = false ∧ (eNext nextD).next = 0x9000 ∧ (eNext nextD).cls = 3 ∧ (eNext nextD).unit = 2 ∧ unitB 89 3 8 2 s = true ∧ s.flag (engEn 3 2) = true ∧
    canonB s = true ∧ ((ran (.engineJobEnd .pol 1) s).unit 3 2).ptrs = [⟨0, 0x9000, none⟩] := by decide +kernel
theorem test_job_end : let t := ran (.engineJobEnd .pol 1) ((onJob joinD true).setLe 0x1000007000 4 2)
    t.le 0x1000006040 4 = 0xAB ∧ t.le 0x1000006044 1 = 1 ∧ t.le 0x1000006000 4 = 1 ∧ t.le 0x1000007000 4 = 1 ∧ (t.tile 1).evf = 8 ∧ t.get (engState 5 1) = 0 := by decide +kernel

theorem wit_EnginesStop : (onJob joinD false).det = true ∧ (onJob joinD true).tileOn (eTile joinD) = true ∧ ((onJob joinD true).put SYS_MODE.det 0).det = false ∧ ((onJob joinD true).unit 5 1).ptrs.length ≤ 8 ∧
    (polling 0).unit 5 1 = ⟨[], none, false⟩ := by decide +kernel
theorem test_cut_after_outputs : let t := ran (.engineCut .pol 1) ((onJob joinD true).put SYS_MODE.det 0)
    t.le 0x1000006044 1 = 0x20 ∧ (t.unit 5 1).job = none ∧ t.get (engEn 5 1) = 0 := by decide +kernel
theorem test_drain_running : let t := ran (.engineDrain .pol 1) (onJob joinD false)
    (t.unit 5 1).draining = true ∧ t.get (engState 5 1) = 2 := by decide +kernel
/-- The codec has run for 100,000 ck. -/
def stuck : State :=
  let s := (polling 0).withUnit 5 1 fun _ => ⟨[], some { jobOf (polF 1 12 []) with bound := polBound (polF 1 12 []) }, false⟩
  { s with tb := { s.tb with mono := 100000 } }
theorem wit_EnginesStop_timer : ((stuck.unit 5 1).job.any fun j => 2 * j.bound + 2200 < stuck.since j.at_ / 2 && 0 < j.bound) = true ∧
    unitB 89 3 10 1 stuck = true := by decide +kernel
theorem test_job_timer : (ran (.jobTimer .pol 1) stuck).rep.failed = [(10, 1)] := by decide +kernel

theorem wit_ChannelCodes_polar : let s := onJob (polF 3 2 []) false
    unitB 89 3 10 1 s = true ∧ canonB s = true ∧ s.flaws = [] ∧ (s.unit 5 1).job = some (jobOf (polF 3 2 [])) ∧ s.addrOn 0x1000004000 = true ∧
    s.addrOn (pOut (polF 3 2 [])) = true ∧ pOut (polF 3 2 []) + 4 ≤ 0x1008000000 ∧ eOp (polF 2 2 []) = 2 ∧ pK (polF 3 2 []) = 2 := by decide +kernel
/-- R212: K = 2 sends a, b, a xor b in turn: 1 0 1 1 0 1 1 0 first. -/
theorem test_small_encode : (ran (.smallBlockEncode 1) ((onJob (polF 3 2 []) false).setLe 0x1000004000 1 0x80)).le 0x1000005000 1 = 0xB6 := by decide +kernel
/-- R213: the correlation finds the two bits again. -/
theorem test_small_decode : let s := (List.range 32).foldl (fun s i => s.setLe (0x1000004000 + i) 1 (if i % 3 = 1 then 5 else 251)) (onJob (polF 2 2 []) false)
    s.smallDecode (polF 2 2 []) = [true, false] := by decide +kernel
/-- A decoder job: base graph 1, Z_c = 384, E = 25,344, maxit 8, with a deadline 500 at away (worked example of chapter 08). -/
def decD : BitVec 1024 := BitVec.ofNat 1024 (fields [(4, 4, 1), (8, 0, 500), (36, 0, 8), (37, 0, 1), (40, 0, 384), (42, 0, 8448), (48, 0, 25344), (56, 0, 0x4000), (60, 0, 0x10000)])
def decoding : State :=
  (State.puts live [(engEn 3 2, 1), (TMB_EPOCH.sec, 0), (SYS_MODE.det, 0), (LDPC_DMARG.ek, 64)]).withUnit 3 2 fun x => { x with job := some (jobOf decD) }
theorem test_decoder_cap (h : lTit decD = 141) : decoding.lCap decD = 7 := by
  simp only [State.lCap, h]
  decide +kernel
theorem wit_ChannelCodes_decode : unitB 89 3 8 2 decoding = true ∧ canonB decoding = true ∧ (decoding.unit 3 2).job = some (jobOf decD) ∧ eOp decD = 0 ∧
    decoding.addrOn (lIn decD) = true ∧ decoding.addrOn (lOut decD) = true ∧ lOut decD + ceilDiv (lKp decD) 8 ≤ 0x1008000000 ∧ lHarq decD = 0 ∧ decBad decD = false := by decide +kernel
/-- R209: a parity error of decoder 2's input buffer. -/
theorem wit_ChannelCodes_parity : decoding.allOn (ldpcAddrs decD) = true ∧ (decoding.put (PWR_REP_THRk.ms 6) 0).get (PWR_REP_THRk.ms 6) = 0 ∧ (decoding.unit 3 2).job = some (jobOf decD) := by decide +kernel
/-- An encoder job: base graph 2, Z_c = 2, E = 24. -/
def encD : BitVec 1024 := BitVec.ofNat 1024 (fields [(32, 0, 1), (37, 0, 2), (40, 0, 2), (42, 0, 16), (48, 0, 24), (56, 0, 0x4000), (60, 0, 0x10000)])
def encoding : State := (live.put (engEn 4 1) 1).withUnit 4 1 fun x => { x with job := some (jobOf encD) }
theorem wit_ChannelCodes_encode : unitB 89 3 9 1 encoding = true ∧ canonB encoding = true ∧ (encoding.unit 4 1).job = some (jobOf encD) ∧ eOp encD = 0 ∧ encBad encD = false ∧
    encoding.addrOn (lIn encD) = true ∧ encoding.addrOn (lOut encD) = true ∧ lOut encD + ceilDiv 24 8 ≤ 0x1008000000 ∧ lHarq encD = 0 := by decide +kernel

/-- A feedback pass over one UE of QPSK whose pass list is empty. -/
def eqD (op : Nat) : BitVec 1024 :=
  BitVec.ofNat 1024 (fields [(4, 0, op), (32, 0, 0x10000), (38, 0, 4), (44, 0, 1), (47, 0, 4), (48, 0, 4), (50, 0, 8), (60, 0, 0x30000), (64, 0, 0x40000), (68, 0, 0x50000), (72, 0, 0x60000),
    (76, 0, 1)])
def detecting (op : Nat) : State :=
  ((live.put (engEn 2 3) 1).withUnit 2 3 fun x => { x with job := some (jobOf (eqD op)) }).setLe 0x1000030000 16 (1 + 2 * 2 ^ 24 + 0x70000 * 2 ^ 96)
theorem wit_Detection : let s := detecting 1
    unitB 88 3 7 3 s = true ∧ canonB s = true ∧ (s.unit 2 3).job = some (jobOf (eqD 1)) ∧ s.allOn (s.eqAddrs (eqD 1)) = true ∧ s.passList (eqD 1) = [] ∧
    s.layers (eqD 1) = 1 ∧ s.eqBad (eqD 1) = false ∧ s.eqBad (eqD 0) = false ∧ (detecting 0).allOn ((detecting 0).eqAddrs (eqD 0)) = true := by decide +kernel
/-- A pass list with one passed block. -/
def passedOne : State := ((detecting 1).setLe (qFbl (eqD 1)) 2 1).setLe (qFbl (eqD 1) + 17) 1 1
theorem wit_Detection_passed : (passedOne.passList (eqD 1)).map PassEntry.passed = [true] ∧ passedOne.allOn (passedOne.eqAddrs (eqD 1)) = true := by decide +kernel
theorem test_feedback_without_failures : (ran (.feedbackPass 3) (detecting 1)).mem = (detecting 1).mem := by decide +kernel

/-- Watch 0 of the worked example in ARMED or RUN: T_st = 22,000, R[0] = 660,000, T_fb = 286,000 and 156,200, deadline 491,520 at. -/
def watching (st a : Nat) : State :=
  let s := State.puts live [(TMB_EPOCH.sec, 0), (SYS_MODE.det, 0), (TMB_ATn_CFG.en 0, 1), (TMB_ATn_OFF.off 0, a), (CTX_DMON_STATw.state 0, st), (CTX_DMON_CFG.margin, 2200)]
  let s : State := { s with tb := { s.tb with mono := 1048 } }
  s.withWatch 0 fun x =>
    { x with deadline := 491520, lat := [660000], onfire := true, two := true, tst := 22000, tfb0 := 286000, tfb1 := 156200, tsw := 22000,
             cand0 := BitVec.ofNat 64 (0x9000 + 2 * 2 ^ 27), cand1 := BitVec.ofNat 64 (0xA000 + 2 * 2 ^ 27), prog := 0x1000002000, decided := none, seen := none,
             check := some (1024, st) }
/-- R229: B = 685,087 ck with 153,061 at left, and 684,062 with 152,832. -/
theorem test_budget : (watching 1 338459).wbudget ((watching 1 338459).watch 0) = 685087 ∧ (watching 1 338688).wbudget ((watching 1 338688).watch 0) = 684062 := by decide +kernel
theorem wit_Watches : let s := watching 3 338688
    runsB 82 1 s = true ∧ canonB s = true ∧ s.det = false ∧ s.cx.switches = [] ∧ s.wstate 0 = 3 ∧ s.since (s.checkCk 0) = 24 ∧ (s.watch 0).decided ≠ some (s.checkCk 0) ∧
    s.shedLevel < 2 ∧ (s.watch 0).check.map Prod.fst = some (s.checkCk 0) ∧ 8 + (s.watch 0).tfb0 ≤ s.wbudget (s.watch 0) := by decide +kernel
theorem wit_Watches_events : NoEvent ((watching 3 338688).watch 0).ctx (watching 3 338688) := by
  unfold NoEvent
  decide +kernel
/-- The first check leaves a slack of 887 and the second fires candidate 0. -/
theorem test_watch_holds : (ran (.watchPeriodicCheck 0) (watching 1 338459)).getS (CTX_DMON_STATw.slack 0) = 887 ∧
    (ran (.watchPeriodicCheck 0) (watching 1 338459)).wstate 0 = 1 := by decide +kernel
theorem test_watch_fires : let t := ran (.watchPeriodicCheck 0) (watching 3 338688)
    t.wstate 0 = 4 ∧ t.get CTX_DMON_CAUSE.fired = 1 ∧ t.cx.pushes = [⟨1056, 0, BitVec.ofNat 64 (0x9000 + 2 * 2 ^ 27)⟩] := by decide +kernel
/-- Its progress word at the instant of its read. -/
def progressed : State :=
  let s := ((watching 2 0).withWatch 0 fun x => { x with nms := 3, lat := [660000, 500000, 400000, 300000] }).setLe 0x1000002000 1 2
  { s with tb := { s.tb with mono := 1026 } }
theorem wit_Watches_progress : progressed.checkRuns 0 (progressed.checkCk 0) = true ∧ progressed.since (progressed.checkCk 0) = portWait 0x1000002000 (progressed.checkCk 0).toNat ∧
    (progressed.watch 0).seen ≠ some (progressed.checkCk 0) ∧ progressed.addrOn 0x1000002000 = true ∧ progressed.get (CTX_DMON_STATw.m 0) < 2 ∧ canonB progressed = true := by decide +kernel
/-- The totals of R208: 316 entries of base graph 1 and 197 of base graph 2, so T_it is 141 and 102 at the largest lifting size. -/
theorem test_base_graph_totals : ((List.range 46).map fun r => (bgColumns false r).length).sum = 316 ∧
    ((List.range 42).map fun r => (bgColumns true r).length).sum = 197 := by decide +kernel

/-! ## Chapter 10 -/

/-- A tile job for context 7 of client 5: tag 0x11, flag 4, and 32 bytes of args. -/
def jobD (more : List (Nat × Nat × Nat)) : BitVec 512 := BitVec.ofNat 512 (fields ([(0, 0, 0x11), (5, 0, 5), (6, 0, 7), (8, 0, 4), (8, 5, 1)] ++ more))
def argD : BitVec 512 := jobD [(32, 0, 0x0807060504030201)]
/-- Context 7: class B on tiles 0 and 1, 128 KiB from block 2, image at 0x1_0000. -/
def ctxed (st : Nat) : State :=
  State.puts live [(CTX_CTXn.en 7, 1), (CTX_CTXn.cls 7, 2), (CTX_CTXn.tiles 7, 3), (CTX_CTXn.lo 7, 2), (CTX_CTXn.len 7, 7), (CTX_CTXn.image 7, 1), (CTX_STATn.state 7, st),
    (TIL_ENTRY.idx 0, 0x40), (TIL_ENTRY.idx 1, 0x80)]
/-- A job as the descriptor gives it. -/
def job0 : Job := { seq := 0, tag := 0x11, client := some 5, flag := 4, fen := true, watch := none, tl := 0, deadline := none, psave := false, args := 0x0807060504030201 }

theorem wit_Descriptors : let s := ctxed 3
    runsB 82 1 s = true ∧ canonB s = true ∧ s.flaws = [] ∧ s.rep.lost = [] ∧ s.jobBad argD = false ∧ jKind argD = 0 ∧ jWake argD = false ∧ jWen argD = false ∧ jCtx argD = 7 ∧
    (s.ctx 7).draining = false ∧ (s.ctx 7).queued.length < 4 ∧ s.jobBad (jobD [(4, 0, 3)]) = true ∧ s.jobBad (jobD [(4, 5, 1)]) = true := by decide +kernel
theorem test_tile_job : let t := ran (.tileJob argD) (ctxed 3)
    t.cstate 7 = 4 ∧ (t.ctx 7).queued = [job0] ∧ t.get (CTX_CLIc.issued 5) = 1 ∧ t.get (CTX_STATn.nq 7) = 1 := by decide +kernel
theorem test_bad_job : let t := ran (.tileJob (jobD [(4, 0, 3)])) (ctxed 3)
    t.get CTX_CAUSE.bad = 1 ∧ t.get CTX_LAST.ctx = 7 ∧ t.get CTX_LAST.tag = 0x11 ∧ t.get (CTX_CLIc.dropped 5) = 1 := by decide +kernel
def fullQ : State := (ctxed 4).withCtx 7 fun x => { x with queued := List.replicate 4 job0 }
theorem wit_Descriptors_full : (fullQ.ctx 7).queued.length = 4 ∧ fullQ.watchOn argD = true ∧ fullQ.jobBad argD = false ∧
    (ran (.tileJob argD) fullQ).get CTX_CAUSE.ovf = 1 := by decide +kernel
def wakeD : BitVec 512 := jobD [(8, 6, 1)]
def running : State := (ctxed 5).withCtx 7 fun x => { x with job := some job0, started := true, resident := true }
theorem wit_Descriptors_wake : jWake wakeD = true ∧ jFen wakeD = true ∧ running.jobBad wakeD = false ∧ (running.ctx 7).job.isSome = true ∧ canonB running = true ∧
    (ran (.wake wakeD) running).orr.events = [⟨24, .ctxFlag 7 4⟩] := by decide +kernel
def pointerD : BitVec 512 := jobD [(4, 0, 1), (24, 0, 0x9000), (24, 27, 5), (28, 0, 1)]
theorem wit_Descriptors_pointer : let s := onJob 0 false
    jKind pointerD = 1 ∧ s.jobBad pointerD = false ∧ (nextPtr (dfield pointerD 24 0 64)).cls = 5 ∧ (nextPtr (dfield pointerD 24 0 64)).unit = 1 ∧ unitB 89 3 10 1 s = true ∧
    s.flag (engEn 5 1) = true ∧ ((ran (.hardEnginePointer pointerD) s).unit 5 1).ptrs = [⟨0, 0x9000, none⟩] := by decide +kernel
def startD : BitVec 512 := jobD [(4, 0, 2)]
theorem wit_Descriptors_queue : let s := ringed copyD
    jKind startD = 2 ∧ s.jobBad startD = false ∧ s.domOn 72 = true ∧ s.get (DMA_Qn_RING.en 0 0) = 1 ∧ s.le 0x1000002000 4 = 1 ∧ s.le 0x1000002004 4 = 0 ∧
    ((ran (.dmaQueueStart startD) s).dq 0 0).desc = some copyD := by decide +kernel
/-- Engine 2 holds a scan of one descriptor at C0 + 0x3000. -/
def scanning : State :=
  let s := (ctxed 3).setLe 0x1000003040 64 argD.toNat
  { s with orr := { s.orr with eng := s.orr.eng.set 2 { s.orr.eng[2] with scans := [⟨0, 0x3000, 4, 0, 1, 0, 0⟩] } }, tb := { s.tb with mono := 100 } }
theorem wit_Descriptors_delivery : let x : Scan := ⟨0, 0x3000, 4, 0, 1, 0, 0⟩
    scanning.absent 11 2 = false ∧ scanning.unitHeld 11 2 = false ∧ (scanning.engine 2).scans = [x] ∧ monoLe x.due scanning.mono = true ∧
    scanning.addrOn 0x1000003040 = true ∧ BitVec.ofNat 512 (scanning.le 0x1000003040 64) = argD ∧ canonB scanning = true := by decide +kernel
theorem test_delivery : let t := ran (.descriptorDelivery 2) scanning
    (t.ctx 7).queued = [job0] ∧ t.orr.cons = [(0x1000003004, 1)] ∧ t.le 0x1000003004 4 = 0 ∧ (t.engine 2).scans = [] := by decide +kernel
theorem wit_Descriptors_cons : (ran (.descriptorDelivery 2) scanning).addrOn 0x1000003004 = true ∧
    (ran (.descriptorDelivery 2) scanning).writeCons.le 0x1000003004 4 = 1 := by decide +kernel

/-- The context has a job queued at a decision ck, with its ranges resident. -/
def readyB (start : Option (BitVec 64)) : State := (ctxed 4).withCtx 7 fun x => { x with queued := [job0], resident := true, startAt := start }
theorem wit_Dispatch : let s := readyB none
    runsB 82 1 s = true ∧ canonB s = true ∧ s.cx.switches = [] ∧ s.mono.toNat % 16 = 0 ∧ s.dispatchOrder = [7] ∧ (s.ctiles 7).any s.posHeld = false ∧
    (s.ctx 7).resident = true ∧ (List.finRange 256).all (fun y => decide (y = 7) || s.cstate y == 0) = true := by decide +kernel
theorem test_dispatch : ((ran .dispatch (readyB none)).ctx 7).startAt = some 24 := by decide +kernel
theorem wit_Dispatch_start : let s := readyB (some 0)
    0 ≤ (s.mono - 0).toInt ∧ s.ctiles 7 = [0, 1] ∧ s.tileOn 0 = true ∧ s.tileOn 1 = true ∧ (s.ctx 7).job = none ∧ (s.ctx 7).queued.head? = some job0 ∧ (s.ctx 7).started = false ∧
    (s.ctx 7).loaded = false ∧ s.cstate 7 = 4 ∧ s.get (CTX_CTXn.qmask 7) = 0 ∧ s.watchOf job0 = none ∧ s.get (CTX_CTXn.lo 7) + s.get (CTX_CTXn.len 7) ≤ 127 ∧
    s.cimage 7 + s.cbytes 7 ≤ 0x0F00000000 ∧ canonB s = true := by decide +kernel
theorem wit_Dispatch_shed : (readyB (some 0)).shedLevel = 0 ∧ (readyB (some 0)).ccls 7 = 2 := by decide +kernel
theorem test_job_start : let t := ran (.jobStart 7) (readyB (some 0))
    t.cstate 7 = 5 ∧ t.get (TIL_CTL.run 1) = 1 ∧ (t.tile 1).pc = 0x80 ∧ (t.tile 0).evf = 16 ∧ t.le 0x1100008000 8 = 0x0807060504030201 := by decide +kernel
def aged : State := (State.puts (readyB none) [(SYS_MODE.det, 0), (CTX_AGE.us, 1)]).withCtx 7 fun x => { x with age := 2201 }
theorem wit_Dispatch_ageing : aged.det = false ∧ aged.cstate 7 = 4 ∧ aged.ccls 7 = 2 ∧ aged.get (CTX_STATn.urgent 7) = 0 ∧ aged.get CTX_AGE.us * 2200 < (aged.ctx 7).age ∧
    (ran (.backgroundAgeing 7) aged).get (CTX_STATn.urgent 7) = 1 := by decide +kernel

/-- A stop whose tiles have stopped, tile 0 without having halted. -/
def stopping (save : Bool) : State := (ctxed 6).withCtx 7 fun x => { x with job := some job0, started := true, resident := true, toSave := save }
theorem wit_Stops : let s := (stopping false).withTile 0 fun x => { x with halted := false }
    runsB 82 1 s = true ∧ canonB s = true ∧ s.cstate 7 = 6 ∧ s.stopDone 7 = true ∧ s.cometsOut 7 = false ∧ (s.tile 0).halted = false ∧ (s.tile 0).awaited = none ∧
    s.watchOf job0 = none ∧ (stopping true).stopDone 7 = true := by decide +kernel
theorem wit_Stops_halted : ((stopping false).tile 1).halted = true ∨ ((stopping false).withTile 1 fun x => { x with halted := true }).stopDone 7 = true := by decide +kernel
/-- Every tile waits on flag 3. -/
def parked : State := [0, 1].foldl (fun s t => s.withTile t fun x => { x with awaited := some 3 }) (stopping false)
theorem wit_Stops_park : (parked.tile 0).awaited = some 3 ∧ (parked.tile 1).evf.getLsbD 3 = false ∧ parked.stopDone 7 = true ∧ parked.get (CTX_STATn.pend 7) = 0 := by decide +kernel
def swapOn (st : Nat) : State := { ctxed st with mv := { live.mv with mem := { live.mv.mem with rd := 8, wr := 8 } } }
theorem wit_Stops_load_and_save : let s := (swapOn 2).withCtx 7 fun x => { x with queued := [job0], resident := true }
    s.cstate 7 = 2 ∧ s.swapRead = true ∧ s.swapWrite = true ∧ s.rangesOn 7 = true ∧ (s.ctx 7).queued.head? = some job0 ∧ canonB s = true ∧ (swapOn 8).cstate 7 = 8 := by decide +kernel
theorem wit_Stops_checkpoint : let s := (swapOn 3).withCtx 7 fun x => { x with writing := true, resident := true }
    (s.ctx 7).writing = true ∧ s.swapWrite = true ∧ s.rangesOn 7 = true ∧ s.cstate 7 = 3 := by decide +kernel
def halted : State := [0, 1].foldl (fun s t => s.withTile t fun x => { x with halted := true }) running
theorem wit_Stops_end : halted.cstate 7 = 5 ∧ halted.ccls 7 ≠ 0 ∧ (halted.ctx 7).job = some job0 ∧ (halted.ctx 7).draining = false ∧ (halted.ctx 7).writing = false ∧
    halted.get (CTX_CTXn.ckpt 7) = 0 ∧ halted.get (TIL_CTL.run 0) = 0 ∧ halted.get (TIL_STAT.state 1) = 0 ∧ (halted.tile 1).halted = true ∧ canonB halted = true := by decide +kernel
def awaiting : State := ((ctxed 7).withCtx 7 fun x => { x with job := some job0, started := true, resident := true, awaited := [(0, 3)] }).put (CTX_STATn.pend 7) 8
theorem wit_Stops_awaited : awaiting.cstate 7 = 7 ∧ awaiting.woken 7 = true ∧ (ran (.awaitedFlag 7) awaiting).cstate 7 = 4 := by decide +kernel

theorem wit_Contexts_enable : let s := State.puts (ctxed 0) [(CTX_CTXn.en 7, 0), (CTX_BTILES.tiles, 3)]
    runsB 82 1 s = true ∧ canonB s = true ∧ s.get (CTX_CTXn.en 7) = 0 ∧ s.enableBad 7 = false ∧ (s.put (CTX_CTXn.tiles 7) 0).enableBad 7 = true ∧ s.ccls 7 ≠ 0 := by decide +kernel
theorem test_enable : (ran (.contextEnable 7) (State.puts (ctxed 0) [(CTX_CTXn.en 7, 0), (CTX_BTILES.tiles, 3)])).cstate 7 = 1 ∧
    (ran (.contextEnable 7) ((State.puts (ctxed 0) [(CTX_CTXn.en 7, 0), (CTX_BTILES.tiles, 3)]).put (CTX_CTXn.tiles 7) 0)).get CTX_CAUSE.en_bad = 1 := by decide +kernel
theorem wit_Contexts_drain : let s := readyB none
    (s.ctx 7).job = none ∧ s.cstate 7 ≠ 9 ∧ s.get (CTX_CTXn.qmask 7) = 0 ∧ s.cometsOut 7 = false ∧ (s.ctx 7).queued = [job0] ∧ (running.ctx 7).job = some job0 := by decide +kernel
theorem test_drain : (ran (.drain 7) (readyB none)).cstate 7 = 0 ∧ (ran (.drain 7) (readyB none)).get (CTX_CLIc.dropped 5) = 1 ∧
    (ran (.drain 7) running).get (CTX_CTXn.drain 7) = 1 := by decide +kernel
theorem wit_Contexts_cut : let s := running.put SYS_MODE.det 0
    s.det = false ∧ s.cstate 7 = 5 ∧ (s.ctx 7).job = some job0 ∧ (s.ctx 7).queued = [] ∧ s.cometsOut 7 = false ∧ s.watchOf job0 = none ∧ canonB s = true := by decide +kernel
def faulty : State := State.puts running [(TIL_STAT.state 1, 5), (TIL_CTL.run 0, 1), (TIL_STAT.state 0, 1)]
theorem wit_Contexts_teardown : faulty.cstate 7 = 5 ∧ (1 : Fin 64) ∈ faulty.ctiles 7 ∧ faulty.get (TIL_CTL.run 1) = 0 ∧ faulty.get (TIL_STAT.state 1) = 5 ∧ (0, 1) ∉ faulty.rep.failed ∧
    (faulty.ctx 7).tear = none ∧ (faulty.ctx 7).job = some job0 ∧ faulty.get (CTX_CTXn.rst 7) = 0 ∧ canonB faulty = true := by decide +kernel
theorem wit_Contexts_queues : (faulty.ctiles 7).all (fun y => (faulty.tile y).vq.isEmpty) = true ∧ (running.ctiles 7).all (fun y => (running.tile y).vq.isEmpty) = true ∧
    (faulty.ctx 7).draining = false := by decide +kernel
theorem test_teardown : let t := ran (.teardown 7 1) faulty
    t.cstate 7 = 1 ∧ t.get CTX_FAULT.tile = 1 ∧ t.get (CTX_CLIc.faulted 5) = 1 ∧ t.get (TIL_STAT.state 0) = 5 ∧ t.get (TIL_CTL.run 0) = 0 := by decide +kernel

/-! ## Chapter 11 -/

/-- Port 1 enabled on lane 2 of engine 0 at one lane. -/
def ported (more : List (Fld × Nat)) : State := State.puts live ([(OPT_Pp_CFG.en 1, 1), (OPT_Pp_CFG.rate 1, 1), (OPT_Pp_CFG.lanes 1, 4)] ++ more)
theorem wit_Ports : runsB (portUnitOf 1) 4 live = true ∧ Regs.wf live = true ∧ Crossing.port 1 ∉ live.pwr.oneSided ∧ live.flag (OPT_Pp_CFG.en 1) = false ∧ live.portFits 1 false 1 4 = true ∧
    live.portFits 1 true 1 4 = false ∧ (ported []).portFits 2 false 1 4 = false ∧ (ported []).get (OPT_Pp_CFG.lanes 1) = 4 ∧ (ported []).portFits 1 false 1 8 = true ∧
    (ported []).portFits 1 false 1 12 = false := by decide +kernel
theorem wit_Ports_one_sided : Crossing.port 1 ∈ ({ live with pwr := { live.pwr with oneSided := [.port 1] } } : State).pwr.oneSided := by decide +kernel
/-- R267: no eighth lane of an engine is enabled. -/
theorem test_seven_lanes : (State.puts live [(OPT_Pp_CFG.en 0, 1), (OPT_Pp_CFG.lanes 0, 0x7E)]).portFits 1 false 1 1 = true ∧
    (State.puts live [(OPT_Pp_CFG.en 0, 1), (OPT_Pp_CFG.lanes 0, 0x7F)]).portFits 1 false 1 0x80 = false := by decide +kernel
theorem test_port_enable : let t := ran (.portEnable 1 false true 1 4 0x123) live
    t.get (OPT_Pp_CFG.en 1) = 1 ∧ t.get (OPT_Pp_CFG.mac 1) = 0x123 ∧ (ran (.portEnable 1 false true 3 4 0) live).get OPT_CAUSE.cfg = 1 := by decide +kernel
theorem wit_Ports_link_up : runsB (portUnitOf 1) 4 (ported []) = true ∧ (ported []).get (OPT_Pp_STAT.up 1) = 0 ∧ (ported []).portLost 1 = false ∧
    (ported [(OPT_Pp_CFG.apx 1, 1)]).get (OPT_Pp_CFG.apx 1) = 1 := by decide +kernel
def dim (apr los : Nat) (at_ : BitVec 64) : State :=
  let s := (ported [(OPT_LANE.los, los), (OPT_LANE.apr, apr), (OPT_Pp_STAT.up 1, 1)]).withOptLane 2 fun _ => ⟨some 0, 0⟩
  { s with tb := { s.tb with mono := at_ } }
theorem wit_Ports_lanes : (dim 0 0 0).portsOn 2 = [1] ∧ runsB 92 4 (dim 0 0 0) = true ∧ 1100000 ≤ (dim 0 4 1100000).since 0 ∧ ((dim 4 4 0).get OPT_LANE.apr).testBit 2 = true ∧
    2200000000 ≤ (dim 4 4 2200000000).since 0 ∧ ((dim 0 0 0).get OPT_LANE.los).testBit 2 = false := by decide +kernel
theorem test_signal : (ran (.lossOfSignal 2) (dim 0 0 5)).get (OPT_Pp_STAT.up 1) = 0 ∧ (ran (.powerReduction 2) (dim 0 4 1099999)).get OPT_LANE.apr = 0 ∧
    (ran (.powerReduction 2) (dim 0 4 1100000)).get OPT_LANE.apr = 4 ∧ (ran (.restartPulse 2 true) (dim 4 4 2200000000)).get OPT_LANE.apr = 0 := by decide +kernel
theorem test_light : (ran (.laserLightLow 3 0x55) live).opt.dark = 8 ∧ (ran (.laserLightLow 3 0x55) live).get OPT_CAUSE.laser = 1 := by decide +kernel

/-- Ring 2 of port 0 in L5 with one descriptor: a frame of 60 bytes at L5 + 0x1000, or `d`. -/
def txD (more : List (Nat × Nat × Nat)) : BitVec 512 := BitVec.ofNat 512 (fields ([(0, 0, 0x1101401000), (8, 0, 60)] ++ more))
def sending (d : BitVec 512) (more : List (Fld × Nat)) : State :=
  let s := State.puts fhBase ([(OPT_Pp_TXRk.en 0 2, 1), (OPT_Pp_TXRk.log2size 0 2, 4), (OPT_Pp_TXRk.addr 0 2, 0x1101400000 / 64), (OPT_ESm_CFG.en 7, 1), (OPT_ESm_CFG.width 7, 9),
    (OPT_ESm_CFG.meth 7, 1), (OPT_ESm_CFG.eaxc 7, 0x4321), (OPT_ESm_CFG.seq 7, 255), (OPT_ESm_HDR.dmac 7, 0x0102030405)] ++ more)
  let s := (s.setLe 0x1101400000 4 1).setLe 0x1101400040 64 d.toNat
  s.withTx 0 2 fun _ => ⟨1, some d⟩
theorem wit_Frames_leave : let s := sending (txD []) []
    runsB (portUnitOf 0) 4 s = true ∧ canonB s = true ∧ s.flaws = [] ∧ s.rep.lost = [] ∧ s.txOn 0 2 = true ∧ s.ethUp 0 = true ∧ (s.opt.port[0]).sending = none ∧ (s.opt.port[0]).resp = [] ∧
    s.txBad (txD []) = false ∧ s.txLate 0 (txD []) = false ∧ tKind (txD []) = 0 ∧ s.rangeOn 0x1101401000 60 = true ∧
    (s.tx 0 0).head = none ∧ (s.tx 0 1).head = none ∧ (s.tx 0 3).head = none := by decide +kernel
theorem wit_Frames_poll : let s : State := { sending (txD []) [] with tb := { live.tb with mono := 128 } }
    s.mono.toNat % 2048 = 64 * (4 * (0 % 8) + 2) ∧ s.flag (OPT_Pp_TXRk.en 0 2) = true := by decide +kernel
theorem test_poll : ((ran (.txRingPoll 0 2) { (sending (txD []) []).withTx 0 2 (fun _ => ⟨0, none⟩) with tb := { live.tb with mono := 128 } }).tx 0 2).head = some (txD []) := by decide +kernel
theorem test_transmit : ((ran (.frameTransmit 0 1 4) (sending (txD []) [])).opt.port[0]).sending.map (fun f => (f.ring, f.data.length, f.sec, f.qns)) = some (some 2, 64, 1, 4) := by decide +kernel
def buildD : BitVec 512 := BitVec.ofNat 512 (fields [(0, 0, 0x1101401000), (8, 0, 1), (10, 0, 1), (13, 0, 7)])
theorem wit_Frames_build : let s := sending buildD []
    s.txBad buildD = false ∧ tKind buildD = 1 ∧ tStr buildD = 7 ∧ s.rangeOn 0x1101401000 48 = true := by decide +kernel
theorem test_build : let t := ran (.uPlaneBuild 0 1 4) (sending buildD [])
    t.get (OPT_ESm_CFG.seq 7) = 0 ∧ (t.opt.port[0]).sending.map (fun f => (beAt f.data 0 6, beAt f.data 18 2, beAt f.data 20 1)) = some (0x0102030405, 0x4321, 255) := by decide +kernel
/-- Timed on AT0, whose time has passed launch + late. -/
def lateD : BitVec 512 := txD [(10, 2, 1), (16, 0, 5)]
theorem wit_Frames_late : let s := sending lateD [(TMB_ATn_CFG.en 0, 1), (TMB_ATn_OFF.off 0, 100000), (OPT_Pp_TXCFG.late 0, 10)]
    s.txBad lateD = false ∧ s.txLate 0 lateD = true ∧ (s.tx 0 2).prod = 1 := by decide +kernel
theorem test_late : let t := ran (.frameTransmit 0 1 4) (sending lateD [(TMB_ATn_CFG.en 0, 1), (TMB_ATn_OFF.off 0, 100000), (OPT_Pp_TXCFG.late 0, 10)])
    t.le 0x1101400070 1 = 2 ∧ t.le 0x1101400004 4 = 1 ∧ t.get (OPT_Pp_CNT.drop 0) = 1 ∧ t.get OPT_CAUSE.txlate = 1 := by decide +kernel
def sent : State := ran (.frameTransmit 0 1 4) (sending (txD []) [])
theorem wit_Frames_completion : (sent.opt.port[0]).sending.map TxFrame.ring = some (some 2) ∧ canonB sent = true ∧ sent.txOn 0 2 = true := by decide +kernel
theorem test_completion_of_frame : let t := ran (.transmitCompletion 0) sent
    t.le 0x1101400070 1 = 1 ∧ t.le 0x1101400072 6 = 1 ∧ t.le 0x1101400078 4 = 4 ∧ t.le 0x1101400004 4 = 1 := by decide +kernel

/-- The worked example: L = 8 lanes from 0, nstr = 16, S = 1, N' = 16, F = 8 octets. -/
def linkC : BitVec 64 := BitVec.ofNat 64 (2 ^ 63 + 7 * 2 ^ 44 + 15 * 2 ^ 38 + 7 * 2 ^ 24)
theorem wit_Jesd : runsB 91 2 live = true ∧ Regs.wf live = true ∧ jf linkC 0 16 = 0 ∧ jf linkC 56 7 = 0 ∧ jesdFits linkC = true ∧ live.jesdClash false 2 linkC = false ∧
    jesdFits (linkC + 1#64 <<< 24) = false ∧ jf (linkC + 1) 0 16 ≠ 0 ∧ Crossing.jesdRx 2 ∉ live.pwr.oneSided := by decide +kernel
theorem test_link_enable : (ran (.jesdLinkEnable false 2 linkC) live).jesd false 2 = linkC ∧
    (ran (.jesdLinkEnable false 2 (linkC + 1#64 <<< 24)) live).get JES_CAUSE.cfg = 4 ∧ faults (.jesdLinkEnable false 2 (linkC + 1)) live = some .reservedBit := by decide +kernel
def laned (y : JLane) : State := { live with jes := { live.jes with lane := live.jes.lane.set 5 y } }
theorem wit_Jesd_lanes : (laned ⟨63, 0, 0, false, false⟩).jes.lane[5].good = 63 ∧ (laned ⟨0, 20, 15, true, true⟩).jes.lane[5].bad = 15 := by decide +kernel
theorem test_lane_locks : (ran (.syncHeaderLock 5 true true) (laned ⟨63, 0, 0, false, false⟩)).jes.lane[5] = ⟨0, 0, 0, true, true⟩ ∧
    (ran (.syncHeaderLock 5 false true) (laned ⟨0, 20, 15, true, true⟩)).jes.lane[5].lock = false := by decide +kernel
def dataPhase : State := { live with jes := { live.jes with data := 4 } }
theorem wit_Jesd_release : dataPhase.jes.data.getLsbD 2 = true ∧ runsB 91 2 dataPhase = true := by decide +kernel
/-- Two converter streams of one sample a frame on two lanes of F = 4 octets (N' = 16) and F = 3 (N' = 12). -/
theorem wit_Jesd_transport : jesdPack false 2 4 [[0x11112222], [0x33334444]] ≠ [] ∧ 8 * 4 * 2 = 2 * 2 * 1 * 16 ∧ 8 * 3 * 2 = 2 * 2 * 1 * 12 ∧
    jesdUnpack false 2 1 (jesdPack false 2 4 [[0x11112222], [0x33334444]]) = [[0x11112222], [0x33334444]] ∧
    jesdUnpack true 2 1 (jesdPack true 2 3 [[0x11112222], [0x33334444]]) = [[0x11102220], [0x33304440]] := by decide +kernel
theorem test_release_late : let t := ran (.lemcRelease 2 9 3) (dataPhase.put (JES_RXk_RBD.rbd 2) 8)
    t.get JES_CAUSE.rbd_late = 4 ∧ t.get (JES_RXk_RBD.arr 2) = 9 ∧ t.get (JES_RXk_CRC.count 2) = 3 ∧ t.jes.zeros[2].length = 1 := by decide +kernel
theorem test_sysref : let t := ran (.sysrefEdge 3 41) (State.puts live [(JES_SYSREF.mode, 1), (JES_SYSREF.off, 11)])
    t.get JES_SRTS.ns = 10 ∧ t.get JES_SRTS.qns = 1 ∧ t.jes.lemc = some (3 * 4000000000 + 41 + 40) := by decide +kernel

/-- An Apsis link on port 0 of chip 1 that is up, with credit. -/
def linked (more : List (Fld × Nat)) (f : ApxLink → ApxLink) : State :=
  (State.puts live ([(OPT_Pp_CFG.en 0, 1), (OPT_Pp_CFG.apx 0, 1), (OPT_Pp_STAT.up 0, 1), (APX_Lp_STAT.state 0, 2), (APX_CFG.id, 1), (APX_Lp_CFG.tmo 0, 1), (APX_Lp_CFG.rmax 0, 3)]
    ++ more)).withLink 0 fun x => f { x with cred := Vector.replicate 3 4, seq := 5 }
def flit (seq : BitVec 10) : Flit := { Flit.blank with seq := seq, ack := 1023, dst := 1, src := 2, tag := 9, addr := 0x100, len := 3 }
theorem wit_Apsis : let s := linked [] id
    runsB (portUnitOf 0) 4 s = true ∧ canonB s = true ∧ s.apxUp 0 = true ∧ (s.link 0).wait = [] ∧ (s.link 0).unacked.length ≤ 512 ∧ s.get (APX_Lp_STAT.state 0) = 2 ∧
    (flit 0).seq = (s.link 0).expect ∧ (flit 0).dst = s.apxId ∧ s.requestOf 2 9 false = none ∧ (List.finRange 8).all (fun n => (s.barrierOf n).isNone) = true ∧
    512 < ((s.link 0).expect - (flit 1).seq).toNat ∧ ((s.link 0).expect - (flit 1023).seq).toNat ≤ 512 := by decide +kernel
theorem test_request_waits : (ran (.apsisRd 0 (flit 0)) (linked [] id)).apx.serve.length = 1 ∧ ((ran (.apsisRd 0 (flit 0)) (linked [] id)).link 0).expect = 1 := by decide +kernel
theorem test_gap_retries : ((ran (.apsisRd 0 (flit 1)) (linked [] id)).link 0).out.map OutFlit.ty = [7] := by decide +kernel
def asked : State := { linked [] id with apx := { (linked [] id).apx with reqs := [⟨2, 9, 0, 3, true, []⟩] } }
theorem wit_Apsis_response : asked.requestOf 2 9 true = some ⟨2, 9, 0, 3, true, []⟩ ∧ (ran (.apsisWrack 0 (flit 0)) asked).apx.reqs = [] := by decide +kernel
def heldFlits : State := linked [] fun x => { x with unacked := [⟨1, flit 3, none⟩, ⟨1, flit 4, none⟩], progress := 0 }
theorem wit_Apsis_replay : (heldFlits.link 0).unacked ≠ [] ∧ (heldFlits.link 0).replays < heldFlits.get (APX_Lp_CFG.rmax 0) ∧
    heldFlits.get (APX_Lp_CFG.tmo 0) * 220 ≤ ({ heldFlits with tb := { live.tb with mono := 220 } } : State).since 0 := by decide +kernel
/-- The port of a link in state 2 comes up again with flits held. -/
theorem wit_Ports_replay : let s := heldFlits.put (OPT_Pp_STAT.up 0) 0
    s.flag (OPT_Pp_CFG.en 0) = true ∧ s.get (OPT_Pp_STAT.up 0) = 0 ∧ s.portLost 0 = false ∧ s.get (APX_Lp_STAT.state 0) = 2 ∧ (s.link 0).unacked ≠ [] ∧
    (s.link 0).replays < s.get (APX_Lp_CFG.rmax 0) ∧ ((ran (.linkUp 0) s).link 0).out.length = 2 := by decide +kernel
/-- R285: a flit of type 3 with a whole payload. -/
def wholeFlit : Flit := { flit 5 with payload := (List.range 256).map (BitVec.ofNat 8) }
theorem wit_Apsis_bytes : wholeFlit.payload.length = 256 ∧ (flitBytes 3 wholeFlit).length = 272 ∧ flitType (flitBytes 3 wholeFlit) = 3 ∧
    readFlit (flitBytes 3 wholeFlit) = wholeFlit := by decide +kernel
theorem test_ack_releases : ((ran (.apsisIdle 0 { flit 0 with ack := 3 }) heldFlits).link 0).unacked.length = 1 ∧
    ((ran (.apsisRetry 0 { flit 0 with ack := 3 }) heldFlits).link 0).out.length = 1 := by decide +kernel
theorem wit_Apsis_route : let s := linked [(APX_ROUTE.valid 3, 1), (APX_ROUTE.port 3, 4), (APX_Lp_STAT.state 4, 2)] id
    let s := s.withLink 4 fun x => { x with cred := Vector.replicate 3 1 }
    s.get (APX_ROUTE.valid 3) = 1 ∧ s.get (APX_ROUTE.port 3) = 4 ∧ s.get (APX_Lp_STAT.state 4) = 2 ∧ (s.link 4).wait = [] ∧ (s.link 4).cred[0] ≠ 0 ∧
    s.get (APX_ROUTE.valid 5) = 0 ∧ ((ran (.apsisRd 0 { flit 0 with dst := 3 }) s).link 4).out.length = 1 := by decide +kernel
theorem wit_Apsis_init : (linked [] id).get (APX_Lp_STAT.state 0) ≠ 1 ∧ ((linked [] id).put (APX_Lp_STAT.state 0) 1).get (APX_Lp_STAT.state 0) = 1 := by decide +kernel

/-- A write from chip 2 waits; its answer leaves on port 0. -/
def serving (w : Bool) (a : Nat) : State :=
  let s := linked [(APX_ROUTE.valid 2, 1), (APX_ROUTE.port 2, 0)] id
  { s with apx := { s.apx with serve := [⟨4, w, { flit 0 with addr := BitVec.ofNat 40 a, payload := [1, 2, 3, 4] }⟩] }, mv := { s.mv with mem := { s.mv.mem with step := 2 } } }
theorem wit_Service : let s := serving true 0x100
    runsB 83 1 s = true ∧ canonB s = true ∧ s.flaws = [] ∧ s.mv.mem.slots 2 ≠ 0 ∧ s.regionOn .lpddr = true ∧ s.get (APX_ROUTE.valid 2) = 1 ∧ s.get (APX_ROUTE.port 2) = 0 ∧
    (s.link 0).cred[1] ≠ 0 ∧ ({ live.mv.mem with step := 0 } : MemCtl).slots 2 = 0 := by decide +kernel
theorem test_remote_write : let t := ran .remoteRequestService (serving true 0x100)
    t.le 0x100 4 = 0x04030201 ∧ (t.link 0).out.map OutFlit.ty = [4] ∧ (ran .remoteRequestService (serving false 0xF00000000)).get APX_CAUSE.addr = 1 := by decide +kernel
theorem wit_Requests : (asked.apx.reqs.find? fun q => decide (q.dst = 2) && decide (q.tag = 9)) = some ⟨2, 9, 0, 3, true, []⟩ ∧ runsB 82 4 asked = true ∧
    asked.get APX_CFG.rtmo * 2200 ≤ ({ asked with tb := { live.tb with mono := 1000000000 } } : State).since 0 := by decide +kernel
def timing : State :=
  let s := linked [(TMB_CTL.phase_src, 2), (APX_CFG.ref, 2), (APX_CFG.tport, 0), (APX_TASYM.a, 0x4000), (TMB_CTL.servo_en, 1), (TMB_KI.m, 1), (TMB_KI.s, 0), (APX_ROUTE.valid 2, 1), (APX_ROUTE.port 2, 4)] id
  { s with apx := { s.apx with exch := some 65536000 }, tb := { s.tb with nt := ⟨0, 2000000, 0⟩ } }
theorem wit_Exchange : timing.get TMB_CTL.phase_src = 2 ∧ timing.apx.ms < timing.tb.nt.total / (1000000 * Config.ntFrac) ∧ timing.get (APX_Lp_STAT.state 0) = 2 ∧
    (timing.link 0).cred[2] ≠ 0 ∧ timing.apx.exch = some 65536000 ∧ runsB 82 4 timing = true := by decide +kernel
/-- The worked example of R291: t1 1,000.00, t2 1,896.75, t3 2,396.75 and t4 3,300.00 ns with A = 0.25 ns give θ = 3.50 ns. -/
theorem test_exchange : let t := ran (.apsisTime 0 (flit 0) ⟨true, 124305408, 157073408, 0, 0⟩ 216268800) timing
    t.apx.exch = none ∧ t.tb.integ = gain 1 0 * (7 / 2) := by decide +kernel

/-! ## Chapters 12 and 13 -/

/-- The repair unit with failed units and moves. -/
def repairing (failed : List (Nat × Nat)) (moves : List RepMove) : State := { live with rep := { live.rep with failed := failed, moves := moves } }
theorem wit_FailedUnits_remap : let s := repairing [(8, 2), (0, 21)] []
    runsB 80 0 s = true ∧ canonB s = true ∧ unitExists 8 2 = true ∧ s.absent 8 2 = false ∧ s.kindReady 8 = true ∧ (s.chooseSpare 8 2).isSome = true ∧ s.ownerOf 21 = none ∧
    s.chooseSpare 0 21 = some 66 ∧ s.chooseSpare 1 5 = some 16 ∧ unitExists 1 5 = true ∧ s.absent 1 5 = false := by decide +kernel
/-- R293, R306: the spare of C2 used, tile 21 takes the spare of C1 (worked example). -/
theorem test_borrowed_spare : ({ live with rep := { live.rep with bad := [(0, 66)] } } : State).chooseSpare 0 21 = some 65 ∧ ringTime 2 1 = 18 ∧ ringTime 2 3 = 18 := by decide +kernel
theorem wit_FailedUnits_exhausted : let s : State := { repairing [(8, 2)] [] with rep := { (repairing [(8, 2)] []).rep with bad := (live.spares 8).map fun p => (8, p) } }
    s.chooseSpare 8 2 = none ∧ s.spares 8 = [] ∧ (ran (.remap 8 2 false) s).get PWR_REP_CAUSE.exhaust = 1 ∧ (ran (.remap 8 2 false) s).absent 8 2 = true := by decide +kernel
theorem test_remap_starts : (ran (.remap 8 2 false) (repairing [(8, 2)] [])).get PWR_REP_STAT.busy = 1 := by decide +kernel
theorem test_bank_remap : let t := ran (.remap 1 5 true) ((repairing [] []).setLe 0x1000000140 4 7)
    t.phys 1 5 = 16 ∧ t.le 0x1000000140 4 = 0 ∧ t.get PWR_REP_CAUSE.lost = 1 ∧ t.get PWR_REP_CAUSE.done = 1 := by decide +kernel
def due (op : MoveOp) (k u p n : Nat) : State := repairing [(k, u)] [⟨op, k, u, p, 0, n, true⟩]
theorem wit_FailedUnits_done : let s := due .remap 5 3 64 0
    s.rep.moves = [⟨.remap, 5, 3, 64, 0, 0, true⟩] ∧ monoLe 0 s.pwr.ck = true ∧ s.kindReady 5 = true ∧ unitExists 5 3 = true ∧ unitExists 12 3 = true ∧ canonB s = true ∧
    (live.engine 3).group = none ∧ kindCls 8 = some 3 := by decide +kernel
theorem test_remap_done : let t := ran (.remapDone 5 3) (due .remap 5 3 64 0)
    t.phys 5 3 = 64 ∧ t.rep.moves = [] ∧ t.rep.record = [⟨5, 3, 3, some 64⟩] ∧ t.get PWR_REP_CAUSE.done = 1 ∧ t.get (PWR_REP_LOGi.class 0) = 7 := by decide +kernel
theorem test_tile_remap_done : (ran (.remapDone 0 21) (due .remap 0 21 66 0)).domOn 66 = true ∧ (ran (.remapDone 0 21) (due .remap 0 21 66 0)).domOn 21 = false := by decide +kernel
def jobbed : State := (due .remap 10 1 2 0).withUnit 5 1 fun x => { x with job := some { jobOf 0 with moved := true } }
theorem wit_FailedUnits_engine : kindCls 10 = some 5 ∧ (jobbed.unit 5 1).job = some { jobOf 0 with moved := true } ∧
    ((ran (.remapDone 10 1) jobbed).unit 5 1).job = some { jobOf 0 with moved := true } := by decide +kernel
theorem wit_FailedUnits_copy : let s := due .copy 1 5 16 16384
    s.rep.moves = [⟨.copy, 1, 5, 16, 0, 16384, true⟩] ∧ (ran (.copySwitch 1 5) s).phys 1 5 = 16 ∧ monoLe 0 (due .copy 3 5 32 0).pwr.ck = true := by decide +kernel
/-- A scrub instant, with one correctable error in the line that the scrub of bank 3 visits. -/
def scrubbing (fl : Sparse Nat) (ms : List RepMove) : State :=
  { State.puts (repairing [] ms) [(PWR_REP_THRk.ms 1, 0)] with tb := { live.tb with mono := 63 }, flaws := fl }
theorem wit_FailedUnits_scrub : let s := scrubbing [(bankLine 3 0 / 8 + 2, 1)] []
    runsB (72 + 3 / 16) 1 s = true ∧ s.mono.toNat % 64 = 63 ∧ s.rep.lost = [] ∧ s.rep.scrub = [] ∧ s.absent 1 3 = false ∧ s.get (PWR_REP_THRk.ms 1) = 0 ∧ canonB s = true := by decide +kernel
theorem test_scrub : let t := ran (.scrub 3) (scrubbing [(bankLine 3 0 / 8 + 2, 1)] [])
    t.flaws = [] ∧ num t.rep.scrub 3 = 1 ∧ t.get (PWR_REP_LOGi.addr 0) = bankLine 3 0 + 16 ∧
    (ran (.scrub 3) (scrubbing [] [⟨.copy, 1, 3, 16, 0, 5, true⟩])).rep.moves.map RepMove.done = [6] := by decide +kernel
theorem wit_FailedUnits_lockstep : live.absent 13 0 = false ∧ (live.chooseSpare 13 0).isSome = true ∧ (ran .lockstepMismatch live).rep.moves.length = 1 := by decide +kernel
theorem wit_FailedUnits_phase : live.domOn 88 = true ∧ 1 ≤ live.get (PWR_DOMd.phok 88) ∧ live.get (PWR_DOMd.nph 88) ≤ live.get (PWR_DOMd.phok 88) := by decide +kernel
theorem test_second_phase : let s := ran (.phaseFault 88) live
    s.get (PWR_DOMd.phok 88) < s.get (PWR_DOMd.nph 88) ∧ nthD (ran (.phaseFault 88) s).pwr.dom.toList 88 0 = 3 ∧ (ran (.phaseFault 88) s).get PWR_CAUSE.dom_fault = 1 := by decide +kernel

theorem wit_Tests_window : live.get (PWR_REP_THRk.ms 1) ≠ 0 ∧ live.mono.toNat % (live.get (PWR_REP_THRk.ms 1) * 2200000) = 0 ∧ Sparse.wf (fun _ => 0) live.rep.counts = true := by decide +kernel
/-- Idle set 4 marks FFT engine 2 in an open window of AT0, with tests every hour. -/
def idling : State :=
  let s := State.puts live [(PWR_REP_BIST.hours, 1), (ORR_IDLEs.fft 4, 4), (ORR_IDLEs.rx 4, 0), (ORR_IDLEs.tx 4, 0), (ORR_IDLEs.eq 4, 0), (TMB_ATn_CFG.en 0, 1), (TMB_EPOCH.sec, 0),
    (PWR_REP_CTL.rot, 1)]
  { s with orr := { s.orr with idle := [⟨4, 0, 0, 5000⟩] } }
theorem wit_Tests_segment : idling.rep.seg = none ∧ idling.shedLevel = 0 ∧ idling.nextSegment = some (6, 2) ∧ idling.testDue 0 6 2 = true ∧ idling.testDue 1 6 2 = true ∧ idling.bistPeriod = 1 ∧
    runsB 80 0 idling = true ∧ Regs.wf idling = true := by decide +kernel
theorem test_segment_fails : (ran (.selfTestSegment false) idling).rep.failed = [(6, 2)] ∧ (ran (.selfTestSegment false) idling).get (PWR_REP_LOGi.class 0) = 3 := by decide +kernel
theorem wit_Tests_rotation : (idling.rotSpare 6 2).isSome = true ∧ idling.rotAllowed 6 2 = true ∧ idling.kindReady 6 = true ∧ idling.unitHeld 6 2 = false ∧
    idling.get PWR_REP_STAT.busy = 0 ∧ live.rotAllowed 6 2 = false := by decide +kernel
def released : State := repairing [] [⟨.rotate, 6, 2, 2, 0, 2, false⟩]
theorem wit_Tests_released : released.rep.moves = [⟨.rotate, 6, 2, 2, 0, 2, false⟩] ∧ monoLe 0 released.pwr.ck = true ∧
    (ran (.rotation 6 (.logical 2) true) released).rep.moves = [] ∧ (ran (.rotation 6 (.logical 2) false) released).rep.bad = [(6, 2)] := by decide +kernel
/-- R301: a spare of kind 6 is due for its test, and under test. -/
theorem wit_Tests_spare : let s := live.put PWR_REP_BIST.hours 1
    16 ∈ live.spares 6 ∧ s.rep.moves = [] ∧ s.testDue 2 6 16 = true ∧ s.kindReady 6 = true ∧ s.shedLevel = 0 ∧ s.bistPeriod = 1 ∧
    (ran (.rotation 6 (.spare 16) true) s).rep.moves.map (fun m => (m.op, m.spare, m.due)) = [(.spareTest, 16, 110000)] := by decide +kernel
theorem wit_Tests_spare_end : let s := repairing [] [⟨.spareTest, 6, 0, 16, 0, 0, false⟩]
    monoLe 0 s.pwr.ck = true ∧ (ran (.rotation 6 (.spare 16) false) s).rep.bad = [(6, 16)] ∧ (ran (.rotation 6 (.spare 16) true) s).rep.bad = [] := by decide +kernel
theorem wit_Tests_requests : (live.put PWR_REP_STAT.busy 1).get PWR_REP_STAT.busy = 1 ∧ live.get PWR_REP_STAT.busy = 0 ∧ unitExists 12 200 = false ∧ rotates 3 = false ∧
    live.freeSpares 13 ≠ [] ∧ live.checkImage 0 [] ≠ 0 ∧ (live.get ACX_HPARK.parked).testBit 1 = false := by decide +kernel
theorem test_requests : (ran (.repairRequestReserved 8 2) live).get PWR_REP_STAT.res = 2 ∧ (ran (.moveRequest 8 2) live).get PWR_REP_STAT.busy = 1 ∧
    (ran (.rotateRequest 3 0) live).get PWR_REP_STAT.res = 2 ∧ (ran (.managementFirmwareUpdate 13 0 []) live).get PWR_REP_STAT.res = 3 := by decide +kernel
theorem wit_Tests_microcode : live.get PWR_REP_STAT.upd = 0 ∧ (live.rotSpare 11 0).isSome = true ∧ live.absent 11 0 = false ∧ (live.rotSpare 0 8).isSome = true := by decide +kernel

/-- Before sequencing, on the standby rail. -/
def dark : State := { State.reset with pwr := { State.reset.pwr with dom := Vector.replicate 96 0, held := 63, step := 0 } }
theorem wit_Power_up : Regs.wf dark = true ∧ dark.pwr.step = 0 ∧ (ran (.powerUp 12000 0) dark).pwr.step = 1 ∧ (ran (.powerUp 10199 0) dark).pwr.step = 0 ∧
    nthD (ran (.powerUp 10200 0) dark).pwr.dom.toList 80 0 = 2 := by decide +kernel
def stepping (n : Nat) : State := { live with pwr := { live.pwr with step := n, held := 62, ck := 300000, ready := 0, dom := (Vector.replicate 96 0).set 80 2 } }
/-- The same with every domain on. -/
def risen (n : Nat) : State := { stepping n with pwr := { (stepping n).pwr with dom := Vector.replicate 96 2 } }
theorem wit_Power_steps : (risen 1).domOn 80 = true ∧ monoLe ((risen 1).pwr.ready + 220000) (risen 1).pwr.ck = true ∧ (risen 5).pwr.step = 5 ∧
    ((risen 1).stepDomains 1).all (fun d => (risen 1).domOn d) = true ∧ ((risen 5).stepDomains 5).all (fun d => (risen 5).domOn d) = true ∧
    ((stepping 5).stepDomains 5).all (fun d => (stepping 5).domOn d) = false ∧
    (ran .sequencingStep (risen 5)).pwr.held = 0 ∧ (ran .sequencingStep (risen 1)).pwr.step = 2 ∧ (ran .sequencingStep (stepping 5)).pwr.step = 5 := by decide +kernel
theorem test_loss_of_power : (ran (.porstNLow true) live).domOn 80 = true ∧ (ran (.porstNLow true) live).domOn 82 = false ∧
    (ran .vinOrLow live).domOn 80 = true := by decide +kernel
theorem test_clocks : (ran .referenceLost live).get CLK_XCAUSE.ref_lost = 1 ∧ (ran (.lockLost 0) live).get (pllBit 0) = 0 := by decide +kernel
theorem test_inputs : (ran (.vinLost false 10199) live).get PWR_CAUSE.a_lost = 1 ∧ (ran (.vinLost false 10200) live).get PWR_CAUSE.a_lost = 0 ∧
    (ran (.vinBack true 10800) live).get PWR_CAUSE.b_back = 1 ∧ (ran (.vinBack true 10799) live).get PWR_CAUSE.b_back = 0 := by decide +kernel
theorem wit_Power_ride : (State.puts live [(PWR_VIN.a_ok, 0), (PWR_VIN.b_ok, 0)]).get PWR_VIN.a_ok = 0 ∧
    (ran .rideThrough (State.puts live [(PWR_VIN.a_ok, 0), (PWR_VIN.b_ok, 0)])).get PWR_CAUSE.ride = 1 := by decide +kernel
def hot (m : BitVec 64) : State := { live with pwr := { live.pwr with hotSince := some 0, ck := m } }
theorem wit_Power_level3 : (hot 2200000).pwr.hotSince = some 0 ∧ (ran .level3Shutdown (hot 2200000)).get PWR_CAUSE.thm3 = 1 ∧ (ran .level3Shutdown (hot 2199999)).domOn 82 = true := by decide +kernel
/-- AUX 0 and AUX 3 deliver at 4.8 V with a limit of 1 A. -/
def auxed : State := State.puts live ([0, 3].flatMap fun n => [(PWR_AUXn.en n, 1), (PWR_AUXn.vset n, 480), (PWR_AUXn.ilim n, 100)])
theorem wit_Power_aux : auxed.auxOn 0 = true ∧ auxed.auxOn 1 = false ∧ (ran (.auxLatchOff 0 0 1001) auxed).get (PWR_AUXn.latched 0) = 1 ∧
    (ran (.auxLatchOff 0 0 1000) auxed).get (PWR_AUXn.latched 0) = 0 ∧ (ran (.auxLatchOff 0 1 2399) auxed).get (PWR_AUXn.latched 0) = 1 ∧
    (ran (.auxLatchOff 0 1 2400) auxed).get (PWR_AUXn.latched 0) = 0 ∧ (ran (.auxLatchOff 0 2 1501) auxed).get (PWR_AUXn.latched 0) = 1 := by decide +kernel
theorem test_aux_overload : (ran (.auxOverload [3001, 0, 0, 3000, 0, 0, 0, 0]) auxed).get (PWR_AUXn.latched 3) = 1 ∧
    (ran (.auxOverload [3000, 0, 0, 3000, 0, 0, 0, 0]) auxed).get (PWR_AUXn.latched 3) = 0 := by decide +kernel
theorem wit_Power_down : ({ live with pwr := { live.pwr with step := 7 } } : State).pwr.step = 7 ∧ (ran .vinOrLow live).pwr.step = 7 ∧
    (ran (.domainOn 95) { stepping 5 with pwr := { (stepping 5).pwr with step := 7 } }).pwr.ramp = [] := by decide +kernel
/-- Class B context 7 runs with shed = 1 when a reading reaches level 1. -/
def warm : State := State.puts ((ctxed 5).withCtx 7 fun x => { x with job := some job0, started := true, resident := true }) [(PWR_THM_CFG.shed, 1), (PWR_THM_CFG.t1, 0)]
theorem wit_Power_shed : warm.shedLevel = 0 ∧ warm.get PWR_THM_CFG.shed = 1 ∧ (7 : Fin 256) ∈ warm.liveCtx ∧ warm.ccls 7 = 2 ∧ warm.cstate 7 = 5 := by decide +kernel
theorem wit_Power_domains : softwareOff 95 = true ∧ softwareOff 82 = false ∧ nthD live.pwr.dom.toList 95 0 ≠ 0 ∧ nthD (stepping 5).pwr.dom.toList 95 0 = 0 ∧
    (ran (.domainOn 95) (stepping 5)).pwr.ramp.map (fun x => (x.1, x.2.1)) = [(95, 2)] := by decide +kernel

theorem wit_Reset_groups : runsB 80 0 live = true ∧ live.pwr.oneSided = [] ∧ Regs.wf live = true ∧ inBlocks [17, 18, 19] (EQ_ENG_CTL.reg 0) = true := by decide +kernel
theorem test_group_reset : let t := ran (.groupReset 2 true) (State.puts live [(EQ_ENG_CTL.en 0, 1), (TMB_CTL.servo_en, 1)])
    t.get (EQ_ENG_CTL.en 0) = 0 ∧ t.held 3 = true ∧ t.held 2 = false ∧ t.pwr.release[3] = some 2200 ∧ t.domOn 88 = true := by decide +kernel
def held3 : State := { live with pwr := { live.pwr with held := 8, release := live.pwr.release.set 3 (some 0) } }
theorem wit_Reset_release : held3.pwr.release[3] = some 0 ∧ monoLe 0 held3.pwr.ck = true ∧ (ran (.groupResetRelease 2) held3).held 3 = false := by decide +kernel
def resetting : State := { State.puts live [(SYS_STAT.rstcnt, 255), (SEC_MRi.mr 2, 7), (SEC_MRi.mr 1, 7)] with pwr := { live.pwr with held := 62, resetLow := true } }
theorem wit_Reset_n : live.pwr.step ≠ 0 ∧ resetting.pwr.step = 6 ∧ resetting.pwr.resetLow = true ∧ Regs.wf resetting = true := by decide +kernel
theorem test_reset_n : let t := ran (.resetN true true) (State.puts live [(SEC_MRi.mr 2, 7), (SEC_MRi.mr 1, 7)])
    t.get (SEC_MRi.mr 2) = 0 ∧ t.get (SEC_MRi.mr 1) = 7 ∧ t.pwr.held = 62 := by decide +kernel
theorem test_calibration : (ran (.calUWrite 335 0xFFFFFF) live).getS (CAL_E.val 335) = live.getS (CAL_F.val 335) - 1 ∧ faults (.calUWrite 335 0x1000000) live = some .reservedBit := by decide +kernel
theorem wit_Reset_perst : live.rootPort = false ∧ live.held 5 = false ∧ live.pwr.step = 6 ∧ (ran (.pciePerstNInput true) live).pwr.perstLow = true := by decide +kernel

/-! ## Chapters 14 and 15 -/

/-- A P-521 key, and blocks signed with it, made for these tests outside the model. -/
def keyBytes : List (BitVec 8) := bytesBE 133
  0x401273732f1efb6d19cd1803329d205f2681d0dd872c9220af22cb6d604fe94640efee87c8072f3cba00a15114adcf0ff35a77e9bb49342cc9f1a395310e7307dfe4f014a437ee6838cc906d69227a9a9730bbf895e16faf97adfc00264e161bb8a569f8a55bd0f6232c18af243f7a78059f57f68d1448d6a88984ea5dacc064083d765fb
def keyDigest : Nat :=
  0x1496c9a8404671b03f7301c4d4bd7bb7a12860c0a05f89696cc6caa076bddb0877cf46b6111cc1740ed1bb88d6ab8f71aa62a96294f79a938ce42bae8c07121a
/-- The 96 bytes of a block before its key, completed by key, zeros and signature. -/
def signed (hd : List (BitVec 8)) (r s : Nat) : List (BitVec 8) := hd ++ List.replicate (96 - hd.length) 0 ++ keyBytes ++ [0, 0, 0] ++ bytesBE 66 r ++ bytesBE 66 s
/-- ADVANCE_SVN of type 2 to 5, for a part whose uid is 0. -/
def svnCommand : List (BitVec 8) := signed ([0x4D, 0x4B, 0x45, 0x59, 1, 0, 3, 0] ++ List.replicate 16 0 ++ [0, 2, 0, 0, 5, 0, 0, 0])
  0x9b0af9be514378fc0ff81820f22fea05f307a7a7cd2897b887451f7ff6fb5b13ac2ac6eb473c913901f433f59e03a99e62789a0263fa86318322f8b369faad4b16
  0x1c142a6805793bbd40f86e117a6ffbd6f18d4f8ae01147ac476173cadfd89ac1c77ecae7e0db77d45aae65a73497c0c63c8a08c45b50f537e47c66f6f25e3a924cc
/-- A token with permission 2, for a challenge of 0. -/
def debugTok : List (BitVec 8) := signed ([0x4D, 0x44, 0x42, 0x47, 1, 0, 0, 0] ++ List.replicate 48 0 ++ [4])
  0x1f6b6d3715eb2c542fee0397db314ef5b339712f5f1cfb3a10c56e3b9d6fcdc276ac5aba0125df481705aa2680c7412de8566b1cee13c8d400e7a335d4dae21b6cd
  0xb3233d3c3e56694b6a028538afaa0c6a7593e53337a2206351290ccc3712844f64753590e602bafec8cdaf5324aa9074821bb48d13d338e7bca15b5701b8c7bd3c
/-- An image header of a type, with its payload's length, digest and place; SVN 0. -/
def imageOf (t n at_ digest r s : Nat) : List (BitVec 8) :=
  signed ([0x4D, 0x49, 0x4D, 0x47, 1, 0, BitVec.ofNat 8 t, 0] ++ bytesOf 4 0 ++ bytesOf 4 n ++ bytesOf 8 at_ ++ bytesOf 8 at_ ++ bytesBE 64 digest) r s ++ List.replicate 148 0
def emptyDigest : Nat :=
  0xcf83e1357eefb8bdf1542850d66d8007d620e4050b5715dc83f4a921d36ce9ce47d0d13c5d85f2b0ff8318d2877eec2f63b931bd47417a81a538327af927da3e
def payloadDigest : Nat :=
  0xa7c976db1723adb41274178dc82e9b777941ab201c69de61d0f2bc6d27a3598f594fa748e50d88d3c2bf1e2c2e72c3cfef78c3c6d4afa90391f7e33ababca48e
def image0 : List (BitVec 8) := imageOf 0 0 0 emptyDigest
  0x141590a6c38482e2ca8f394697b276c6c5db4cee7fbe17948bccf5419921bbe924a217a389b3c8775a57f5bf4412547b1a6176359cfe1f2cf20756603fa5f845018
  0x3958b4982a96ea531da0c621debae4aa6693d066651041ac6dba1fc3466788dd5313666fb94354d5a75cd2eb23f5be3292053dde33a4efb6f9bf1f45e32e00e916
def image1 : List (BitVec 8) := imageOf 1 4 0x1000 payloadDigest
  0x277b04a4a608ab598fc687f7be530970ade06609dd1e23660fb74531926a5ade9ab118ba141586a27df6abc7af95787f6744303c12be675f9e06f63c7ca0bb6381
  0x19dd3c5a0b0820a5bb364be5922eba966ea4198a92ac250daaffdd345be0955aa7ed597029dac73f0993311fbb17b61ff7412841ee69e6f778527f3db9d7d84e538 ++ [1, 2, 3, 4]
def image2 : List (BitVec 8) := imageOf 2 0 0 emptyDigest
  0x1abb0255d0bfd671177e47e85076ebf1288a43afe9508a31ed3182ff35040d0f977b396b7fe17931431b297b4ee9edbf73643adf1af2912cfb9a05a9e9b10743cd1
  0x1275030b0d9e7058cda10dc50620591db02ab7731740adcbd77acacb8ddfdd74871e40197f4ec03bf5abd17876f8eb11d82314775a57ef9c761fce2584d3e081519
def image3 : List (BitVec 8) := imageOf 3 0 0 emptyDigest
  0x19640efdfe5f55f5ba838744946d143328d410432fb426d9a7728b21096d0dd3568ecbfdff96e845cd0770f89f518cc01b729ddaaefc0539ac742f224f507b199cd
  0x1dc70d34743113cc6944d8d6e356923e357ff1f3a66deb5208b3cf9e7263a21054cb2d389e2cfdf8d4c69bb5b940e92d0952a78d546048da5f8c415a3427c4a83aa
/-- The key is vendor slot 0 of a part with uid 0. -/
def keyed : State := State.puts live [(FUSE_VKEYi.digest 0, keyDigest), (FUSE_UID.uid, 0), (SEC_DBG_CHAL.chal, 0)]
/-- FIPS 180-4: SHA-512 of "abc". -/
theorem test_sha512 : (sha512 [0x61, 0x62, 0x63]).take 8 = [0xDD, 0xAF, 0x35, 0xA1, 0x93, 0x61, 0x7A, 0xBA] := by decide +kernel
theorem wit_command_good : keyed.checkBlock .command svnCommand = 0 := by decide +kernel
theorem wit_token_good : keyed.checkBlock .token debugTok = 0 := by decide +kernel
theorem wit_image0_good : keyed.checkImage 0 image0 = 0 := by decide +kernel
theorem wit_image1_good : keyed.checkImage 1 image1 = 0 := by decide +kernel
theorem wit_image2_good : keyed.checkImage 2 image2 = 0 := by decide +kernel
theorem wit_image3_good : keyed.checkImage 3 image3 = 0 := by decide +kernel
/-- R358: the codes of the first check that fails. -/
theorem test_check_codes : keyed.checkBlock .token svnCommand = 1 ∧ (keyed.put FUSE_KSTAT.vrev 1).checkBlock .command svnCommand = 2 ∧
    live.checkBlock .command svnCommand = 3 := by decide +kernel

/-- Flash with the images of set A at 64, 576, 1,600 and 2,112. -/
def flashA : List (BitVec 8) :=
  List.replicate 8 0 ++ bytesOf 4 64 ++ bytesOf 4 1088 ++ bytesOf 4 576 ++ bytesOf 4 1604 ++ List.replicate 40 0 ++ image0 ++ image2 ++ image1 ++ image3
theorem wit_Boot_flash : (flashImage flashA 0 false).take 512 = image0 ∧ (flashImage flashA 2 false).take 512 = image2 ∧ (flashImage flashA 1 false).take 516 = image1 ∧
    flashImage flashA 3 false = image3 := by decide +kernel
theorem wit_Boot : runsB 80 0 keyed = true ∧ canonB keyed = true ∧ keyed.pwr.step = 6 ∧ keyed.pwr.resetLow = false ∧ keyed.sec.waits = none ∧ keyed.domOn 83 = true ∧
    keyed.domOn 84 = true ∧ keyed.domOn 85 = true ∧ keyed.get SEC_BOOT_STAT.stage = 0 ∧ keyed.sec.loaded = [] ∧ keyed.get FUSE_KSTAT.src = 0 ∧
    keyed.get SEC_BOOT_STAT.rec = 0 ∧ keyed.phys 15 0 = 0 ∧ keyed.rootPort = false ∧ keyed.checkImage 0 (flashImage [0] 0 false) ≠ 0 := by decide +kernel
theorem test_boot_without_rom : (ran (.boot [0] false false) keyed).get SEC_BOOT_STAT.stage = 0 := by decide +kernel
/-- The ROM waits for the host, which has put image 2 in place. -/
def hosted : State := keyed.withSec fun x => { x with loaded := [0], waits := some 0 }
def hosting : State := hosted.setBytes 0x04000000 image2
theorem hosted_canonical : canonB hosted = true := by decide +kernel
theorem image2_header : image2.length = 512 ∧ field image2 12 4 = 0 := by decide +kernel
theorem toLoad_setBytes (s : State) (a : Nat) (bs : List (BitVec 8)) : (s.setBytes a bs).toLoad = s.toLoad := by
  rw [State.setBytes_eq]
  rfl
theorem hosted_facts : hosted.sec.waits ≠ none ∧ hosted.toLoad = [2, 3, 1] ∧ typeStage 2 = typeStage 3 ∧ hosted.addrOn 0x04000000 = true ∧
    22000000000 ≤ ((22000000000 : BitVec 64) - 0).toNat := by decide +kernel
theorem wit_Boot_host : hosting.sec.waits ≠ none ∧ hosting.toLoad = [2, 3, 1] ∧ typeStage 2 = typeStage 3 ∧ hosting.addrOn 0x04000000 = true ∧
    22000000000 ≤ ((22000000000 : BitVec 64) - 0).toNat := by
  unfold hosting
  rw [State.setBytes_sec, toLoad_setBytes, State.addrOn_of (State.setBytes_regs ..) (State.setBytes_pwr ..)]
  exact hosted_facts
theorem hostImage_of (s : State) (l : List (BitVec 8)) (h : s.sysBytes 0x04000000 512 = l) (h0 : field l 12 4 = 0) : s.hostImage.1 = l := by
  simp [State.hostImage, State.sysRead, h, h0]
theorem hosted_backed : hosted.now.old = [] ∧ hosted.now.core = [] ∧ (List.range 512).all (fun i => (regionOf (0x04000000 + i)).backed) = true := by decide +kernel
theorem wit_Boot_host_image : Canonical hosting ∧ hosting.hostImage.1 = image2 := by
  unfold hosting
  have c := canon_of hosted_canonical
  have r := List.all_eq_true.mp hosted_backed.2.2
  simp only [List.mem_range] at r
  refine ⟨⟨Memory.wf_setBytes c.1 _ _, Regs.wf_setBytes c.2 _ _⟩, hostImage_of _ _ ?_ image2_header.2⟩
  rw [State.sysBytes_eq _ _ _ (by simp [hosted_backed.1]) (by simp [hosted_backed.2.1]) r]
  have := State.bytes_setBytes c.1 0x04000000 image2
  rw [image2_header.1] at this
  exact this
theorem test_host_type_ignored : (ran (.hostLoad 1) hosted).sec.loaded = [0] ∧ (ran (.hostLoad 1) hosted).get SEC_HLOAD.type = 1 := by decide +kernel
/-- Hart 2 runs. -/
def hartOn : State := withF [(ACX_HPARK.park, 0xFB), (ACX_HPARK.parked, 0xFB)]
/-- A line of LPDDR6 as an L2 holds it, newer than memory's. -/
def lineAt (dirty : Bool) : CacheLine := ⟨0x40, 0x1122334455667788, dirty⟩
def caching (dirty : Bool) : State := hartOn.withHart 2 fun c => { c with l2 := [lineAt dirty], l1d := [lineAt false] }
theorem wit_Harts : runsB 90 5 live = true ∧ (live.get ACX_HPARK.absent).testBit 3 = false ∧ (live.get ACX_HPARK.park).testBit 3 = true ∧
    ((live.put ACX_HPARK.absent 8).get ACX_HPARK.absent).testBit 3 = true ∧ (hartOn.get ACX_HPARK.park).testBit 2 = false ∧
    ((caching true).hart 2).l2 = [lineAt true] ∧ (lineAt true).dirty = true ∧
    (live.put (PWR_REP_THRk.ms 4) 0).get (PWR_REP_THRk.ms 4) = 0 ∧ live.get (PWR_REP_THRk.ms 4) ≠ 0 ∧ (live.put PWR_REP_CTL.auto 1).get PWR_REP_CTL.auto = 1 := by decide +kernel
/-- R356: the dirty line of a parked hart is on its way to LPDDR6, or in the L3. -/
theorem test_hart_park : let t := ran (.hartPark 2) (caching true)
    (t.get ACX_HPARK.parked).testBit 2 = true ∧ (t.hart 2).l2 = [] ∧ (lineIn t.acx.l3 0x40).map CacheLine.dirty = some true := by decide +kernel
theorem test_hart_unpark : let t := ran (.hartUnpark 3) (withF [(ACX_HENTRY.addr, 0x100)])
    (t.get ACX_HPARK.park).testBit 3 = false ∧ (t.hart 3).pc = 0x400 := by decide +kernel
theorem wit_Harts_errors : let s := withF [(PWR_REP_CTL.auto, 1), (PWR_REP_THRk.n 4, 10)]
    s.get PWR_REP_CTL.auto = 1 ∧ s.get (PWR_REP_THRk.ms 4) ≠ 0 ∧ num s.rep.counts (4 * 4096 + 2) < s.get (PWR_REP_THRk.n 4) ∧
    s.get (PWR_REP_THRk.n 4) ≤ num s.rep.counts (4 * 4096 + 2) + 16 := by decide +kernel
theorem test_cache_errors : (ran (.cacheEccError 2 .l3 0x1000 (some .writeBack)) (caching true)).get ACX_ECCA.src = 8 ∧
    ((ran (.cacheEccError 2 .l1d 0x1000 none) (caching true)).hart 2).l1d = [lineAt false] ∧
    (ran (.cacheEccError 2 .l1d 0x1000 none) (caching true)).get ACX_CAUSE.ecc1 = 1 ∧
    ((ran (.cacheEccError 2 .l2 0x1000 (some .load)) (caching true)).hart 2).get 0x342 = 5 := by decide +kernel

/-- The command and the token lie in L5. -/
def pointed : State := State.puts keyed [(SEC_KCMD.addr, 0x1101400000 / 64), (SEC_DBG_TOK.addr, 0x1101400200 / 64)]
def commanding : State := (pointed.setBytes 0x1101400000 svnCommand).setBytes 0x1101400200 debugTok
theorem pointed_canonical : canonB pointed = true := by decide +kernel
theorem pointed_backed : ((List.range 364).all fun i => (regionOf (0x1101400000 + i)).backed && (regionOf (0x1101400200 + i)).backed) = true := by decide +kernel
theorem pointed_quiet : pointed.now.old = [] ∧ pointed.now.core = [] ∧ pointed.held 1 = false := by decide +kernel
theorem block_lengths : svnCommand.length = 364 ∧ debugTok.length = 364 := by decide +kernel
theorem commanding_bytes : commanding.sysBytes 0x1101400000 364 = svnCommand ∧ commanding.sysBytes 0x1101400200 364 = debugTok := by
  unfold commanding
  have c := (canon_of pointed_canonical).1
  have r := List.all_eq_true.mp pointed_backed
  simp only [List.mem_range, Bool.and_eq_true] at r
  have l₁ := State.bytes_setBytes c 0x1101400000 svnCommand
  have l₂ := State.bytes_setBytes (Memory.wf_setBytes c 0x1101400000 svnCommand) 0x1101400200 debugTok
  have l₃ := State.bytes_setBytes_other (Memory.wf_setBytes c 0x1101400000 svnCommand) 0x1101400200 0x1101400000 364 debugTok (.inl (by decide))
  rw [block_lengths.1] at l₁
  rw [block_lengths.2] at l₂
  rw [State.sysBytes_eq _ _ _ (by simp [pointed_quiet.1]) (by simp [pointed_quiet.2]) (fun i h => (r i h).1),
    State.sysBytes_eq _ _ _ (by simp [pointed_quiet.1]) (by simp [pointed_quiet.2]) (fun i h => (r i h).2), l₃]
  exact ⟨l₁, l₂⟩
theorem runsB_of {s t : State} (h : t.regs = s.regs) (hp : t.pwr = s.pwr) (d g : Nat) : runsB d g t = runsB d g s := by
  simp only [runsB, State.fck, State.lck, State.flag, State.get_of_regs h, State.domOn, State.held, hp]
theorem pointed_facts : pointed.flaws = [] ∧ pointed.sec.kcmd = none ∧ pointed.rep.lost = [] ∧ pointed.rangeOn 0x1101400000 364 = true ∧
    field svnCommand 6 1 = 3 ∧ Regs.wf pointed = true ∧ runsB 80 0 pointed = true := by decide +kernel
theorem commanding_kept : commanding.regs = pointed.regs ∧ commanding.pwr = pointed.pwr ∧ commanding.sec = pointed.sec ∧ commanding.rep = pointed.rep := by
  unfold commanding
  simp only [State.setBytes_regs, State.setBytes_pwr, State.setBytes_sec, State.setBytes_rep, and_self]
theorem commanding_sound : commanding.flaws = [] := by
  have l := pointed_facts.2.2.1
  exact State.setBytes_flaws _ _ (State.setBytes_flaws _ _ pointed_facts.1 l) (by rw [State.setBytes_rep]; exact l)
theorem wit_Keys_go : commanding.flaws = [] ∧ commanding.sec.kcmd = none ∧ commanding.rep.lost = [] ∧ commanding.rangeOn 0x1101400000 364 = true ∧
    field svnCommand 6 1 = 3 ∧ Regs.wf commanding = true ∧ runsB 80 0 commanding = true := by
  have k := commanding_kept
  rw [State.rangeOn_of k.1 k.2.1, runsB_of k.1 k.2.1, k.2.2.1, k.2.2.2, show Regs.wf commanding = Regs.wf pointed by unfold Regs.wf; rw [k.1]]
  exact ⟨commanding_sound, pointed_facts.2⟩
def commanded : State := keyed.withSec fun x => { x with kcmd := some (0, svnCommand) }
theorem wit_Keys_end : commanded.sec.kcmd = some (0, svnCommand) ∧ monoLe 0 commanded.pwr.ck = true ∧ field svnCommand 25 1 = 2 ∧ keyed.get (FUSE_SVNt.svn 2) < 5 ∧
    field svnCommand 28 4 = 5 := by decide +kernel
theorem test_advance_svn : let t := ran .advanceSvn commanded
    t.get (FUSE_SVNt.svn 2) = 5 ∧ t.get SEC_CAUSE.kdone = 1 ∧ t.get SEC_KCTL.res = 0 := by decide +kernel
theorem wit_Keys_token : field debugTok 24 32 = pointed.get SEC_DBG_CHAL.chal ∧ field debugTok 56 8 < 32 ∧
    (field debugTok 7 1).testBit 7 = false := by decide +kernel
theorem wit_Keys_quote : (live.get SEC_DBG_PERM.perm).testBit 4 = false ∧ ((live.put SEC_DBG_PERM.perm 16).get SEC_DBG_PERM.perm).testBit 4 = true ∧ live.sec.quote = none ∧
    quoting.sec.quote.isSome = true := by decide +kernel
theorem test_quote_refused : (ran .quote (live.put SEC_DBG_PERM.perm 16)).get SEC_CAUSE.qfail = 1 ∧ (ran .quote quoting).get SEC_CAUSE.qbusy = 1 := by decide +kernel

/-- A data access of `n` bytes at `va` by hart 2 comes to map address `a`. -/
def comes (s : State) (p : Purpose) (va n a : Nat) : Bool :=
  match s.translate 2 p va n with
  | .ok b => b = a
  | .error _ => false
theorem comes_of {s : State} {p : Purpose} {va n a : Nat} (h : comes s p va n a = true) : s.translate 2 p va n = .ok a := by
  unfold comes at h
  cases e : s.translate 2 p va n with
  | ok b => simpa [e] using h
  | error => simp [e] at h
theorem hartRuns : HartRuns 2 hartOn := ⟨runs_of (by decide), by decide, by decide, by decide, by decide⟩
theorem reaches_mask (p : Purpose) (h : comes hartOn p (BitVec.ofNat 64 FH_MASK.reg).toNat 4 FH_MASK.reg = true) : Reaches (.hart 2) p (BitVec.ofNat 64 FH_MASK.reg) 4 FH_MASK.reg hartOn :=
  ⟨hartRuns, comes_of h⟩
theorem wit_Register_reach : Reaches (.hart 2) .store (BitVec.ofNat 64 FH_MASK.reg) 4 FH_MASK.reg hartOn ∧
    Reaches (.hart 2) .load (BitVec.ofNat 64 FH_MASK.reg) 4 FH_MASK.reg hartOn ∧ Reaches .jtag .store (BitVec.ofNat 64 FH_MASK.reg) 4 FH_MASK.reg live :=
  ⟨reaches_mask _ (by decide), reaches_mask _ (by decide), by decide, by decide⟩
theorem wit_Register_write : regAt FH_MASK.reg ≠ none ∧ reservedBits FH_MASK.reg &&& 1 = 0 ∧ blockOf FH_MASK.reg = some 12 ∧ blockHome FH_MASK.reg = some (82, 4) ∧
    FH_MASK.reg % 4 = 0 ∧ FH_MASK.reg < ACX_APLIC.reg 0 0 ∧ reservedBits FH_CAUSE.reg &&& 0x80000000 ≠ 0 ∧
    (((hartOn.regWrite FH_MASK.reg false 5).own.filter fun f => f.1.any (hartOn.regWrite FH_MASK.reg false 5).has).isEmpty) = true := by decide +kernel
theorem wit_Register_block : BlockRuns FH_MASK.reg hartOn := by
  intro f t h hp
  have b : blockOf FH_MASK.reg = some 12 := by decide +kernel
  have k : t.fck = hartOn.fck ∧ t.domOn 82 = hartOn.domOn 82 ∧ t.held 4 = hartOn.held 4 ∧ t.lck = hartOn.lck ∧ t.held 1 = hartOn.held 1 := by
    simp only [State.fck, State.lck, State.flag, State.get_of_regs h, State.domOn, State.held, hp, and_self]
  have e : hartOn.fck = true ∧ hartOn.domOn 82 = true ∧ hartOn.held 4 = false ∧ hartOn.lck = true ∧ hartOn.held 1 = false := by decide +kernel
  simp only [accessBlock, b, access]
  simp [k, e, reached]
theorem test_register_writes : (ran (.registerWrite ⟨.jtag, BitVec.ofNat 64 FH_MASK.reg⟩ 2 5) live).word FH_MASK.reg = 5 ∧
    (ran (.registerWrite ⟨.hart 2, BitVec.ofNat 64 FH_MASK.reg⟩ 2 5) hartOn).word FH_MASK.reg = 5 ∧
    (ran (.registerWrite ⟨.jtag, BitVec.ofNat 64 FH_CAUSE.reg⟩ 2 0x20) (live.put FH_CAUSE.stale 1)).get FH_CAUSE.stale + 0 =
      (if FH_CAUSE.stale.lo = 5 then 0 else 1) ∧ faults (.registerWrite ⟨.jtag, BitVec.ofNat 64 FH_CAUSE.reg⟩ 2 0x80000000) live = some .reservedBit := by decide +kernel
/-- A load by hart 2 returns the register. -/
theorem test_register_read : ((ran (.unmappedAccess ⟨.hart 2, BitVec.ofNat 64 FH_MASK.reg⟩ ⟨.load false 10 false, 2, 0⟩) (hartOn.put ⟨FH_MASK.reg, 0, 32⟩ 7)).hart 2).reg 10 = 7 := by
  decide +kernel
theorem test_unmapped_write : let t := ran (.registerWrite ⟨.hart 2, 0x1800CFFFF0⟩ 2 1) hartOn
    t.get SYS_CAUSE.unmapped = 1 ∧ t.get SYS_BADA.addr = 0x1800CFFFF0 ∧ t.get SYS_BADA.src = 0 := by decide +kernel
/-- R350: no atomic access to a register, and no halfword of it; no hole. -/
theorem wit_Register_forbidden : comes hartOn .store FH_MASK.reg 4 FH_MASK.reg = true ∧ comes hartOn .load 0x1010000000 8 0x1010000000 = true ∧
    comes hartOn .load FH_MASK.reg 2 FH_MASK.reg = true ∧ hartOn.rootPort = false ∧ (hartOn.hart 2).mode = .m := by decide +kernel
theorem forbidden : ¬TableAllows FH_MASK.reg 4 true ∧ ¬TableAllows 0x1010000000 8 false ∧ ¬TableAllows FH_MASK.reg 2 false := by
  unfold TableAllows
  decide +kernel
theorem test_access_fault : let t := ran (.unmappedAccess ⟨.hart 2, BitVec.ofNat 64 FH_MASK.reg⟩ ⟨.amo .add 1, 2, 1⟩) hartOn
    (t.hart 2).get 0x342 = 7 ∧ (t.hart 2).get 0x343 = FH_MASK.reg ∧ t.word FH_MASK.reg = hartOn.word FH_MASK.reg := by decide +kernel
/-- A read slot with an ACX position. -/
def acxSlot (s : State) : State := { s with tb := { s.tb with mono := 11 }, mv := { s.mv with mem := { s.mv.mem with step := 0 } } }
theorem wit_Register_store : comes (acxSlot hartOn) .store 0x1008 8 0x1008 = true ∧ (acxSlot hartOn).rangeOn 0x1008 8 = true ∧ ((acxSlot hartOn).fill 2 0x40).isSome = true ∧
    (hartOn.fill 2 0x40).isSome = false := by decide +kernel
theorem test_store_and_load : let t := ran (.registerWrite ⟨.hart 2, 0x1008⟩ 3 77) (acxSlot hartOn)
    let u := ran (.unmappedAccess ⟨.hart 2, 0x1008⟩ ⟨.load false 10 false, 3, 0⟩) t
    (u.hart 2).reg 10 = 77 ∧ u.le 0x1008 8 = 0 := by decide +kernel
theorem wit_Register_clean : comes (caching true) .load 0x1000 64 0x1000 = true ∧ regionOf 0x1000 = .lpddr ∧ (caching true).addrOn 0x1000 = true ∧ ((caching true).hart 2).mode = .m ∧
    ((caching true).dirtyCopy 0x40).isSome = true ∧ (caching false).dirtyCopy 0x40 = none ∧
    (ran (.unmappedAccess ⟨.hart 2, 0x1010⟩ ⟨.cboClean, 3, 0⟩) (caching true)).leaving 0x40 = true := by decide +kernel
theorem wit_Register_pcie : live.endpointServes = true ∧ live.held 1 = false ∧ live.lck = true ∧
    ((ran (.registerWrite ⟨.bar0, BitVec.ofNat 64 (FH_MASK.reg - 0x1800000000)⟩ 2 5) live).pcie.late.length) = 1 := by decide +kernel
/-- G4, which the FH block belongs to, is held, and domain 82 is off. -/
def held4 : State := { live with pwr := { live.pwr with held := 16 } }
theorem wit_Register_reset : held4.domOn 82 = true ∧ held4.held 4 = true ∧ held4.fck = true ∧
    (ran (.registerWrite ⟨.jtag, BitVec.ofNat 64 FH_MASK.reg⟩ 2 5) held4).get PWR_CAUSE.rstacc = 1 := by decide +kernel
/-- The fabric is off, JTAG's domain on. -/
def fabricOff : State := { live with pwr := { live.pwr with dom := live.pwr.dom.set 82 0 } }
theorem wit_Register_off : fabricOff.domOn 81 = true ∧ faults (.registerWrite ⟨.jtag, BitVec.ofNat 64 FH_MASK.reg⟩ 2 5) fabricOff = some .poweredOff := by decide +kernel
theorem wit_Pins : live.domOn 81 = true ∧ (stepping 5).domOn 81 = false ∧ ((live.put (SYS_GPIO_EVCFG.edge 7) 1).get (SYS_GPIO_EVCFG.edge 7)) = 1 ∧
    live.gpioBusy 7 = false := by decide +kernel
theorem test_pin_edge : let t := ran (.gpioEdge 7 true 9 41) (live.put (SYS_GPIO_EVCFG.edge 7) 1)
    t.get SYS_GPIO_EVT.pin = 128 ∧ t.get SYS_GPIO_IN.pin = 128 ∧ t.get SYS_GPIO_TS.ns = 10 ∧ t.get SYS_GPIO_TS.qns = 1 := by decide +kernel
theorem test_clear_in_the_ck_of_the_set : let t := ran (.gpioEdge 7 true 9 41) (live.put (SYS_GPIO_EVCFG.edge 7) 1)
    let w : Instr := .registerWrite ⟨.jtag, BitVec.ofNat 64 SYS_GPIO_EVT.reg⟩ 3 128
    (ran w t).get SYS_GPIO_EVT.pin = 128 ∧ (ran w { t with now := live.now }).get SYS_GPIO_EVT.pin = 0 := by decide +kernel
theorem wit_Pins_lowest : live.pins.stamp ≠ some live.mono ∧ ({ (live.put SYS_GPIO_TS.pin 3) with pins := { live.pins with stamp := some 0 } } : State).pins.stamp = some live.mono := by
  decide +kernel

end Sys2Proof.Tests
end

section
/-! ## Register fields of a chain of writes -/

namespace Sys2Proof.Machine

open Sys2Proof.Claims

variable {s t : State}

/-- A command completes with the state that it answers. -/
theorem completes_of_exec {c : Instr} {P : State → Prop} (he : exec c s = .next t) (hP : P t) : Completes c s P := ⟨t, he, hP⟩

/-- The fields share no bit: their words lie apart, or they lie in the same words and their bits apart. -/
def Fld.clear (f g : Fld) : Bool :=
  decide (f.span.1 + 4 * f.span.2.2 ≤ g.span.1 ∨ g.span.1 + 4 * g.span.2.2 ≤ f.span.1 ∨
    (f.addr = g.addr ∧ f.span.1 = g.span.1 ∧ g.span.2.2 ≤ f.span.2.2 ∧ (f.lo + f.w ≤ g.lo ∨ g.lo + g.w ≤ f.lo)))

/-- That two fields share no bit, as arithmetic. -/
theorem Fld.clear_iff (f g : Fld) : f.clear g = true ↔ (f.span.1 + 4 * f.span.2.2 ≤ g.span.1 ∨ g.span.1 + 4 * g.span.2.2 ≤ f.span.1 ∨
    (f.addr = g.addr ∧ f.span.1 = g.span.1 ∧ g.span.2.2 ≤ f.span.2.2 ∧ (f.lo + f.w ≤ g.lo ∨ g.lo + g.w ≤ f.lo))) := decide_eq_true_iff

/-- A write of a field leaves every field that shares no bit with it. -/
theorem State.get_put_clear (h : Regs.wf s = true) {f g : Fld} (v : Nat) (hc : f.clear g = true) : (s.put f v).get g = s.get g := by
  rcases of_decide_eq_true hc with hlt | hgt | ⟨ha, hs, hn, hb⟩
  · exact State.get_put_apart h f g v (fun i j hi hj => by omega)
  · exact State.get_put_apart h f g v (fun i j hi hj => by omega)
  · exact State.get_put_bits h f g v ha hs hb hn

/-- The words of a field are among those at `as`. -/
def Fld.within (f : Fld) (as : List Nat) : Bool := (List.range f.span.2.2).all fun i => as.contains (f.span.1 + 4 * i)

/-- The words of a field, as arithmetic. -/
theorem Fld.within_iff (f : Fld) (as : List Nat) : f.within as = true ↔ ∀ i, i < f.span.2.2 → f.span.1 + 4 * i ∈ as := by
  simp [Fld.within]

/-- A write of a field whose words are listed changes no other word. -/
theorem wordsKept_put {as : List Nat} {f : Fld} (h : Regs.wf t = true) (hf : f.within as = true) (v : Nat) :
    WordsKept s (t.put f v) as ↔ WordsKept s t as := by
  simp only [Fld.within, List.all_eq_true, List.mem_range, List.contains_iff_mem] at hf
  have hw (a : Nat) (ha : a ∉ as) : (t.put f v).word a = t.word a :=
    State.word_setWords_other h _ _ _ _ fun i hi e => ha (e ▸ hf i hi)
  exact forall₂_congr fun a ha => by rw [hw a ha]

@[simp] theorem wordsKept_refl (as : List Nat) : WordsKept s s as := fun _ _ => rfl

/-- Whether the register file is canonical after a write, asked of a file that was not so before. -/
def Regs.wfAfter (s : State) (f : Fld) (v : Nat) : Bool := Regs.wf (s.put f v)

/-- A write keeps the register file canonical, as an equation, which `simp` applies along a chain of writes of any length. -/
@[simp] theorem Regs.wf_put_eq (f : Fld) (v : Nat) : Regs.wf (s.put f v) = (Regs.wf s || Regs.wfAfter s f v) := by
  cases h : Regs.wf s
  · rfl
  · exact Regs.wf_put h f v

/-- The canonical form is one of the register file alone. -/
theorem Regs.wf_of_regs (h : t.regs = s.regs) : Regs.wf t = Regs.wf s := congrArg (Sparse.wf resetWord) h

@[simp] theorem Regs.wf_raise (f : Fld) : Regs.wf (s.raise f) = Regs.wf (s.put f 1) := Regs.wf_of_regs rfl
@[simp] theorem Regs.wf_raiseBit (f : Fld) (i : Nat) : Regs.wf (s.raiseBit f i) = Regs.wf (s.put f (s.get f ||| 2 ^ i)) := Regs.wf_of_regs rfl
@[simp] theorem Regs.wf_withTb (f : TimeBase → TimeBase) : Regs.wf (s.withTb f) = Regs.wf s := Regs.wf_of_regs rfl
@[simp] theorem State.get_withTb (f : TimeBase → TimeBase) (g : Fld) : (s.withTb f).get g = s.get g :=
  State.get_of_regs (s := s) (t := s.withTb f) rfl g

@[simp] theorem State.flag_withTb (f : TimeBase → TimeBase) (g : Fld) : (s.withTb f).flag g = s.flag g := by simp [State.flag]

theorem State.get_raiseIf (c : Bool) (f g : Fld) : (s.raiseIf c f).get g = if c = true then (s.put f 1).get g else s.get g := by
  cases c
  · rfl
  · exact State.get_raise f g

@[simp] theorem Regs.wf_raiseIf (c : Bool) (f : Fld) : Regs.wf (s.raiseIf c f) = if c = true then Regs.wf (s.put f 1) else Regs.wf s := by
  cases c <;> rfl

/-- Which words are kept is a matter of the register file alone. -/
theorem wordsKept_of_regs {u : State} {as : List Nat} (h : t.regs = u.regs) : WordsKept s t as ↔ WordsKept s u as := by
  simp only [WordsKept, State.word, h]

@[simp] theorem wordsKept_raise {as : List Nat} (f : Fld) : WordsKept s (t.raise f) as ↔ WordsKept s (t.put f 1) as := wordsKept_of_regs rfl
@[simp] theorem wordsKept_raiseBit {as : List Nat} (f : Fld) (i : Nat) :
    WordsKept s (t.raiseBit f i) as ↔ WordsKept s (t.put f (t.get f ||| 2 ^ i)) as := wordsKept_of_regs rfl
@[simp] theorem wordsKept_withTb {as : List Nat} (f : TimeBase → TimeBase) : WordsKept s (t.withTb f) as ↔ WordsKept s t as := wordsKept_of_regs rfl

/-- A field holds less than its width allows. -/
theorem State.get_lt (s : State) (f : Fld) : s.get f < 2 ^ f.w := Nat.mod_lt _ (by positivity)

/-- A write of words changes the register file and nothing else. -/
theorem State.setWords_eq (s : State) (a n v : Nat) : s.setWords a n v = { s with regs := (s.setWords a n v).regs } := by
  induction n generalizing s a v with
  | zero => rfl
  | succ n ih => exact ih (s.setWord a (BitVec.ofNat 32 v)) (a + 4) (v / 2 ^ 32)

theorem State.put_eq (s : State) (f : Fld) (v : Nat) : s.put f v = { s with regs := (s.put f v).regs } := State.setWords_eq ..

/-- The state without its registers and the notes of the ck. -/
def State.besideRegs (s : State) : State := { s with regs := [], now := SameCk.reset }

theorem State.eq_besideRegs : t = { s with regs := t.regs, now := t.now } ↔ t.besideRegs = s.besideRegs := by
  cases s; cases t; simp [State.besideRegs]

@[simp] theorem State.besideRegs_put (f : Fld) (v : Nat) : (s.put f v).besideRegs = s.besideRegs := by rw [State.put_eq]; rfl
@[simp] theorem State.besideRegs_raise (f : Fld) : (s.raise f).besideRegs = s.besideRegs := State.besideRegs_put f 1
@[simp] theorem State.besideRegs_raiseBit (f : Fld) (i : Nat) : (s.raiseBit f i).besideRegs = s.besideRegs := State.besideRegs_put ..

/-- A unit goes on running while the power manager and the clocks stay. -/
theorem runs_of_kept {d g : Nat} (h : Runs d g s) (hp : t.pwr = s.pwr) (hm : t.get CLK_STAT.mpll = s.get CLK_STAT.mpll)
    (hl : t.get CLK_STAT.lpll = s.get CLK_STAT.lpll) : Runs d g t := by
  obtain ⟨hf, hd, hh, hk, h1⟩ := h
  simp only [Runs, State.fck, State.lck, State.domOn, State.held, State.flag, hp, hm, hl] at *
  exact ⟨hf, hd, hh, hk, h1⟩

end Sys2Proof.Machine
end

section
/-! ## The time base: updates, holdover, timelines and PPS (R23 to R35, R406) -/

namespace Sys2Proof.Machine

open Sys2Proof.Claims

variable {s t : State}

/-- The state without its time base, its registers and the notes of the ck. -/
def State.besideTime (s : State) : State := { s with tb := TimeBase.reset, regs := [], now := SameCk.reset }

theorem State.eq_besideTime : t = { s with tb := t.tb, regs := t.regs, now := t.now } ↔ t.besideTime = s.besideTime := by
  cases s; cases t; simp [State.besideTime]

@[simp] theorem State.besideTime_put (f : Fld) (v : Nat) : (s.put f v).besideTime = s.besideTime := by rw [State.put_eq]; rfl
@[simp] theorem State.besideTime_raise (f : Fld) : (s.raise f).besideTime = s.besideTime := State.besideTime_put f 1
@[simp] theorem State.besideTime_raiseIf (c : Bool) (f : Fld) : (s.raiseIf c f).besideTime = s.besideTime := by
  cases c
  · rfl
  · exact State.besideTime_raise f
@[simp] theorem State.besideTime_withTb (f : TimeBase → TimeBase) : (s.withTb f).besideTime = s.besideTime := State.eq_besideTime.mp rfl

/-! What TMB_NT_INC's update writes: its own words and TMB_CAUSE.ylim (R28). -/

/-- The increment's update leaves the state, or writes the increment and perhaps notes the clamp. -/
theorem State.updateInc_cases (s : State) :
    s.updateInc = s ∨ ∃ c v, s.updateInc = (s.raiseIf c TMB_CAUSE.ylim).put TMB_NT_INC.inc v := by
  unfold State.updateInc
  split_ifs
  · exact .inr ⟨false, _, rfl⟩
  · exact .inl rfl
  · exact .inr ⟨_, _, rfl⟩

@[simp] theorem State.updateInc_tb : s.updateInc.tb = s.tb := by
  obtain e | ⟨c, v, e⟩ := s.updateInc_cases <;> simp [e]

@[simp] theorem State.updateInc_besideTime : s.updateInc.besideTime = s.besideTime := by
  obtain e | ⟨c, v, e⟩ := s.updateInc_cases <;> simp [e]

theorem State.updateInc_get (h : Regs.wf s = true) {g : Fld} (hi : TMB_NT_INC.inc.clear g = true) (hy : TMB_CAUSE.ylim.clear g = true) :
    s.updateInc.get g = s.get g := by
  obtain e | ⟨c, v, e⟩ := s.updateInc_cases <;> simp [e, State.get_put_clear, State.get_raiseIf, h, hi, hy]

theorem State.updateInc_words {as : List Nat} (h : Regs.wf t = true) (hi : TMB_NT_INC.inc.within as = true) (hy : TMB_CAUSE.ylim.within as = true) :
    WordsKept s t.updateInc as ↔ WordsKept s t as := by
  obtain e | ⟨c, v, e⟩ := t.updateInc_cases
  · rw [e]
  · cases c <;> simp [e, State.raiseIf, wordsKept_put, h, hi, hy]

/-- With the servo off the increment is the nominal one (R28). -/
theorem State.updateInc_off (h : s.flag TMB_CTL.servo_en = false) : s.updateInc = s.put TMB_NT_INC.inc (s.get TMB_NT_INC_NOM.inc) := by
  simp [State.updateInc, h]

/-! What the lock decision writes: TMB_STAT.state (R34). -/

@[simp] theorem State.updateLock_tb : s.updateLock.tb = s.tb := by
  unfold State.updateLock
  split_ifs <;> simp

@[simp] theorem State.updateLock_besideTime : s.updateLock.besideTime = s.besideTime := by
  unfold State.updateLock
  split_ifs <;> simp

theorem State.updateLock_wf (h : Regs.wf s = true) : Regs.wf s.updateLock = true := by
  unfold State.updateLock
  split_ifs <;> simp [h]

theorem State.updateLock_get (h : Regs.wf s = true) {g : Fld} (hg : TMB_STAT.state.clear g = true) : s.updateLock.get g = s.get g := by
  unfold State.updateLock
  split_ifs <;> simp [State.get_put_clear, h, hg]

theorem State.updateLock_words {as : List Nat} (h : Regs.wf t = true) (hs : TMB_STAT.state.within as = true) :
    WordsKept s t.updateLock as ↔ WordsKept s t as := by
  unfold State.updateLock
  split_ifs <;> simp [wordsKept_put, h, hs]

/-- The lock decision never enters holdover. -/
theorem State.updateLock_state (h : Regs.wf s = true) (hs : s.get TMB_STAT.state ≠ 2) : s.updateLock.get TMB_STAT.state ≠ 2 := by
  have hput (v : Nat) : (s.put TMB_STAT.state v).get TMB_STAT.state = v % 4 := State.get_put h ..
  unfold State.updateLock
  split_ifs <;> simp [hput, hs]

/-! Holdover is entered in TMB_STAT.state and TMB_CAUSE.ho_enter alone (R31). -/

theorem State.enterHoldover_eq (hs : s.get TMB_STAT.state ≠ 2) : s.enterHoldover = (s.put TMB_STAT.state 2).raise TMB_CAUSE.ho_enter := by
  simp [State.enterHoldover, hs]

/-! The servo terms of an update (R28). -/

@[simp] theorem State.servoTerms_wf (θ : Rat) : Regs.wf (s.servoTerms θ) = Regs.wf s := Regs.wf_withTb ..
@[simp] theorem State.servoTerms_get (θ : Rat) (g : Fld) : (s.servoTerms θ).get g = s.get g := State.get_withTb ..
@[simp] theorem State.servoTerms_besideTime (θ : Rat) : (s.servoTerms θ).besideTime = s.besideTime := State.besideTime_withTb ..
@[simp] theorem State.servoTerms_words {as : List Nat} (θ : Rat) : WordsKept s (t.servoTerms θ) as ↔ WordsKept s t as := wordsKept_withTb ..

theorem State.servoTerms_integ (θ : Rat) :
    (s.servoTerms θ).tb.integ = s.tb.integ + gain (s.get TMB_KI.m) (s.get TMB_KI.s) * θ := rfl
theorem State.servoTerms_yp (θ : Rat) :
    (s.servoTerms θ).tb.yp = -(gain (s.get TMB_KP.m) (s.get TMB_KP.s) * θ + (s.servoTerms θ).tb.integ) := rfl
@[simp] theorem State.servoTerms_lastUpd (θ : Rat) : (s.servoTerms θ).tb.lastUpd = s.tb.lastUpd := rfl

@[simp] theorem TimeBase.countUpdate_integ (x : TimeBase) (θ : Rat) (b : Bool) : (x.countUpdate θ b).integ = x.integ := rfl
@[simp] theorem TimeBase.countUpdate_lastUpd (x : TimeBase) (θ : Rat) (b : Bool) : (x.countUpdate θ b).lastUpd = x.lastUpd := rfl

/-- What one phase update of error `θ` does where no watchdog expiry is to be undone (R28, R32, R34). -/
def PhaseMoved (s : State) (θ : Rat) (t : State) : Prop :=
  t.get TMB_STAT.phase_ok = 1 ∧ t.tb.lastUpd = some s.tb.mono ∧
  (s.flag TMB_CTL.servo_en = false → t.tb.integ = s.tb.integ ∧ t.tb.yp = s.tb.yp) ∧
  (s.flag TMB_CTL.servo_en = true → (s.get TMB_STAT.state = 2 → s.flag TMB_CTL.ho_force = false) →
    t.tb.integ = s.tb.integ + gain (s.get TMB_KI.m) (s.get TMB_KI.s) * θ ∧
    t.tb.yp = -(gain (s.get TMB_KP.m) (s.get TMB_KP.s) * θ + t.tb.integ)) ∧
  t = { s with tb := t.tb, regs := t.regs, now := t.now } ∧
  WordsKept s t [TMB_STAT.reg, TMB_CAUSE.reg, TMB_NT_INC.reg, TMB_NT_INC.reg + 4]

/-- The state in which a phase update does the rest: the watchdog restarted, phase_ok set (R31, R32). -/
def State.updated (s : State) : State := (s.withTb fun t => { t with lastUpd := some t.mono }).put TMB_STAT.phase_ok 1

@[simp] theorem State.updated_tb : s.updated.tb = { s.tb with lastUpd := some s.tb.mono } := State.put_tb ..
@[simp] theorem State.updated_besideTime : s.updated.besideTime = s.besideTime := State.besideTime_put ..
@[simp] theorem State.updated_wf : Regs.wf s.updated = (Regs.wf s || Regs.wfAfter (s.withTb fun t => { t with lastUpd := some t.mono }) TMB_STAT.phase_ok 1) :=
  Regs.wf_put_eq ..
@[simp] theorem State.updated_phase_ok (h : Regs.wf s = true) : s.updated.get TMB_STAT.phase_ok = 1 := State.get_put (s := s.withTb _) h ..
theorem State.updated_get (h : Regs.wf s = true) {g : Fld} (hg : TMB_STAT.phase_ok.clear g = true) : s.updated.get g = s.get g :=
  (State.get_put_clear (s := s.withTb _) h 1 hg).trans (State.get_withTb ..)
theorem State.updated_flag (h : Regs.wf s = true) {g : Fld} (hg : TMB_STAT.phase_ok.clear g = true) : s.updated.flag g = s.flag g := by
  simp only [State.flag, State.updated_get h hg]
theorem State.updated_words {as : List Nat} (h : Regs.wf s = true) (hp : TMB_STAT.phase_ok.within as = true) : WordsKept s s.updated as :=
  (wordsKept_put (t := s.withTb _) h hp 1).mpr (wordsKept_refl as)

/-! A phase update with no expiry to undo: the servo off or a forced holdover, a holdover that ends, and an update that counts (R28, R32, R34). -/

theorem State.phaseUpdate_still (θ : Rat) (h : Regs.wf s = true) (he : s.tb.expired = none)
    (hs : s.flag TMB_CTL.servo_en = false ∨ (s.get TMB_STAT.state = 2 ∧ s.flag TMB_CTL.ho_force = true)) : s.phaseUpdate θ = s.updated := by
  have hf := State.updated_flag h (g := TMB_CTL.servo_en) (by decide)
  have ho := State.updated_flag h (g := TMB_CTL.ho_force) (by decide)
  have hg := State.updated_get h (g := TMB_STAT.state) (by decide)
  unfold State.phaseUpdate
  rw [show s.undoExpiry = s by simp [State.undoExpiry, he]]
  change (if !s.updated.flag TMB_CTL.servo_en then _ else if s.updated.get TMB_STAT.state = 2 then if s.updated.flag TMB_CTL.ho_force then _ else _ else _) = _
  rw [hf, ho, hg]
  rcases hs with hs | ⟨hs, hf⟩
  · rw [hs]; rfl
  · simp only [hs, hf, if_true, ite_self]; rfl

/-- The state before the servo's part of an update that ends a holdover. -/
def State.resumed (s : State) (θ : Rat) : State :=
  let u := (s.updated.put TMB_STAT.state 0).raise TMB_CAUSE.ho_exit
  u.withTb fun t => ({ t with near := 0, far := 0, freqHeld := 0 }).countUpdate θ (u.flag TMB_STAT.freq_ok)

theorem State.phaseUpdate_resumes (θ : Rat) (h : Regs.wf s = true) (he : s.tb.expired = none)
    (hs : s.flag TMB_CTL.servo_en = true) (h2 : s.get TMB_STAT.state = 2) (hn : s.flag TMB_CTL.ho_force = false) :
    s.phaseUpdate θ = ((s.resumed θ).servoTerms θ).updateInc := by
  have hf := State.updated_flag h (g := TMB_CTL.servo_en) (by decide)
  have ho := State.updated_flag h (g := TMB_CTL.ho_force) (by decide)
  have hg := State.updated_get h (g := TMB_STAT.state) (by decide)
  unfold State.phaseUpdate
  rw [show s.undoExpiry = s by simp [State.undoExpiry, he]]
  change (if !s.updated.flag TMB_CTL.servo_en then _ else if s.updated.get TMB_STAT.state = 2 then if s.updated.flag TMB_CTL.ho_force then _ else _ else _) = _
  rw [hf, ho, hg, hs, h2, hn]
  rfl

/-- The state before the servo's part of an update that counts toward lock. -/
def State.counted (s : State) (θ : Rat) : State := s.updated.withTb fun t => t.countUpdate θ (s.updated.flag TMB_STAT.freq_ok)

theorem State.phaseUpdate_counts (θ : Rat) (h : Regs.wf s = true) (he : s.tb.expired = none)
    (hs : s.flag TMB_CTL.servo_en = true) (h2 : s.get TMB_STAT.state ≠ 2) :
    s.phaseUpdate θ = (((s.counted θ).servoTerms θ).updateLock).updateInc := by
  have hf := State.updated_flag h (g := TMB_CTL.servo_en) (by decide)
  have hg := State.updated_get h (g := TMB_STAT.state) (by decide)
  unfold State.phaseUpdate
  rw [show s.undoExpiry = s by simp [State.undoExpiry, he]]
  change (if !s.updated.flag TMB_CTL.servo_en then _ else if s.updated.get TMB_STAT.state = 2 then _ else _) = _
  rw [hf, hg, hs, if_neg h2]
  rfl

theorem State.phaseUpdate_moved (θ : Rat) (h : Regs.wf s = true) (he : s.tb.expired = none) : PhaseMoved s θ (s.phaseUpdate θ) := by
  unfold PhaseMoved
  rw [State.eq_besideTime]
  by_cases hs : s.flag TMB_CTL.servo_en = true
  swap
  · rw [Bool.not_eq_true] at hs
    rw [State.phaseUpdate_still θ h he (.inl hs)]
    simp +decide [hs, h, State.updated_words]
  by_cases h2 : s.get TMB_STAT.state = 2
  swap
  · rw [State.phaseUpdate_counts θ h he hs h2]
    simp +decide [hs, h2, h, State.counted, State.updateLock_wf, State.updateInc_get, State.updateLock_get, State.updateInc_words, State.updateLock_words,
      State.updated_words, State.servoTerms_integ, State.servoTerms_yp, State.updated_get]
  by_cases hf : s.flag TMB_CTL.ho_force = true
  · rw [State.phaseUpdate_still θ h he (.inr ⟨h2, hf⟩)]
    simp +decide [hs, h2, hf, h, State.updated_words]
  · rw [Bool.not_eq_true] at hf
    rw [State.phaseUpdate_resumes θ h he hs h2 hf]
    simp +decide [hs, hf, h, State.resumed, State.updateInc_get, State.updateInc_words, State.get_put_clear, wordsKept_put, State.get_raise,
      State.updated_words, State.servoTerms_integ, State.servoTerms_yp, State.updated_get]

end Sys2Proof.Machine
end

section
/-! ## O6: phase updates, frequency measurements, a lost source -/

namespace Sys2Proof.Machine

open Sys2Proof.Claims

variable {s : State}

theorem fabric_eq {f : State → Res} (h : Runs 82 1 s) : fabric s f = f s := access_eq h

/-- A write of TMB_PHERR while phase_src = 0 is a phase update (R28). -/
theorem exec_pherrWrite (theta : BitVec 48) (h : Runs 82 1 s) (hp : s.get TMB_CTL.phase_src = 0) :
    exec (.pherrWrite theta) s = .next (s.phaseUpdate ((theta.toInt : Rat) / 65536)) := by
  change execPherrWrite theta s = _
  rw [execPherrWrite, fabric_eq h, if_pos hp]

/-- A PPS_IN edge while phase_src = 1, its crossing not busy, is a phase update (R28, R29). -/
theorem exec_ppsInEdge (sec : BitVec 48) (qns : Fin 4000000000) (h : Runs 82 1 s) (hp : s.get TMB_CTL.phase_src = 1) (hb : s.ppsBusy = false) :
    exec (.ppsInEdge sec qns) s = .next ((s.withTb fun t => { t with ppsIn := some t.mono }).phaseUpdate
      (ppsError (((sec.toNat * 1000000000 : Nat) : Rat) + (qns.val : Rat) / 4 - (s.cal 333 : Rat) / 256))) := by
  change execPpsInEdge sec qns s = _
  rw [execPpsInEdge, fabric_eq h, if_neg (by simp [hb]), if_pos (by simpa using hp)]
  simp [State.cal, State.getS]

/-- Noting a PPS_IN edge changes nothing that an update reads or keeps. -/
theorem PhaseMoved.of_ppsIn {θ : Rat} {t : State} (h : PhaseMoved (s.withTb fun t => { t with ppsIn := some t.mono }) θ t) : PhaseMoved s θ t := by
  obtain ⟨hok, hupd, hoff, hon, hrest, hwords⟩ := h
  rw [State.eq_besideTime, State.besideTime_withTb, ← State.eq_besideTime] at hrest
  simp only [State.flag_withTb, State.get_withTb] at hoff hon
  exact ⟨hok, hupd, hoff, hon, hrest, hwords⟩

/-- The loss of the frequency source (R33). -/
theorem exec_frequencySourceLost (h : Runs 82 1 s) : exec .frequencySourceLost s =
    .next (((s.raise TMB_CAUSE.freq_lost).put TMB_STAT.freq_ok 0).withTb fun t => { t with freqLost := true, freqHeld := 0 }) := by
  change execFrequencySourceLost s = _
  rw [execFrequencySourceLost, inside_eq h]

/-- Its return (R33). -/
theorem exec_frequencySourceReturn (h : Runs 82 1 s) :
    exec .frequencySourceReturn s = .next (s.withTb fun t => { t with freqLost := false }) := by
  change execFrequencySourceReturn s = _
  rw [execFrequencySourceReturn, inside_eq h]

/-- The state in which a frequency measurement does the rest: its millisecond noted, freq_ok set (R28, R33). -/
def State.measured (s : State) : State := (s.withTb fun t => { t with freqMs := s.tb.nt.total / (1000000 * Config.ntFrac) }).put TMB_STAT.freq_ok 1

/-- A measurement at a new millisecond of NT, its source selected and present (R28, R33). -/
theorem exec_frequencyLoopMeasurement (meas nom : Nat) (h : Runs 82 1 s) (hs : s.freqSelected = true) (hl : s.tb.freqLost = false)
    (hm : s.tb.freqMs < s.tb.nt.total / (1000000 * Config.ntFrac)) :
    exec (.frequencyLoopMeasurement meas nom) s =
      if !s.measured.flag TMB_CTL.servo_en || s.measured.get TMB_STAT.state = 2 then .next s.measured
      else .next ((s.measured.withTb fun t =>
        { t with yf := t.yf + gain (s.measured.get TMB_KF.m) (s.measured.get TMB_KF.s) * (((meas : Rat) / 65536 - nom) / nom) }).updateInc) := by
  change execFrequencyLoopMeasurement meas nom s = _
  rw [execFrequencyLoopMeasurement, inside_eq h, if_neg (by simp [hs, hl, hm])]
  extract_lets u
  rw [show s.measured = u from rfl]

end Sys2Proof.Machine

namespace Sys2Proof.Proofs

open Sys2Proof.Machine Sys2Proof.Claims

theorem measurement_completes {s : State} (meas nom : Nat) (hr : Runs 82 1 s) (h : Regs.wf s = true)
    (hs : s.freqSelected = true) (hl : s.tb.freqLost = false) (hm : s.tb.freqMs < s.tb.nt.total / (1000000 * Config.ntFrac)) :
    Completes (.frequencyLoopMeasurement meas nom) s fun t =>
      t.get TMB_STAT.freq_ok = 1 ∧
      t.tb.yf = (if s.flag TMB_CTL.servo_en = true ∧ s.get TMB_STAT.state ≠ 2 then
        s.tb.yf + gain (s.get TMB_KF.m) (s.get TMB_KF.s) * (((meas : Rat) / 65536 - nom) / nom) else s.tb.yf) ∧
      t.tb.yp = s.tb.yp ∧ t = { s with tb := t.tb, regs := t.regs, now := t.now } ∧
      WordsKept s t [TMB_STAT.reg, TMB_CAUSE.reg, TMB_NT_INC.reg, TMB_NT_INC.reg + 4] := by
  have hexec := exec_frequencyLoopMeasurement meas nom hr hs hl hm
  have hkept {g : Fld} (hg : TMB_STAT.freq_ok.clear g = true) : s.measured.get g = s.get g := by
    simp [State.measured, State.get_put_clear, h, hg]
  have hok : s.measured.get TMB_STAT.freq_ok = 1 := by simp [State.measured, State.get_put, h, TMB_STAT.freq_ok]
  have hwf : Regs.wf s.measured = true := by simp [State.measured, h]
  have hrest : s.measured.besideTime = s.besideTime := by simp [State.measured]
  have htb : s.measured.tb = { s.tb with freqMs := s.tb.nt.total / (1000000 * Config.ntFrac) } := by simp [State.measured]
  have hwords : WordsKept s s.measured [TMB_STAT.reg, TMB_CAUSE.reg, TMB_NT_INC.reg, TMB_NT_INC.reg + 4] := by
    simp +decide [State.measured, wordsKept_put, h]
  by_cases hon : s.flag TMB_CTL.servo_en = true ∧ s.get TMB_STAT.state ≠ 2
  · have hgo : (!s.measured.flag TMB_CTL.servo_en || decide (s.measured.get TMB_STAT.state = 2)) = false := by
      rw [State.flag, hkept (by decide), hkept (by decide)]; simpa [State.flag] using hon
    refine completes_of_exec (hexec.trans (if_neg (by simp [hgo]))) ?_
    rw [State.eq_besideTime, if_pos hon, hkept (g := TMB_KF.m) (by decide), hkept (g := TMB_KF.s) (by decide)]
    simp +decide [State.updateInc_get, State.updateInc_words, hwf, hok, hrest, htb, hwords]
  · have hstay : (!s.measured.flag TMB_CTL.servo_en || decide (s.measured.get TMB_STAT.state = 2)) = true := by
      rw [State.flag, hkept (by decide), hkept (by decide)]; simpa [State.flag, imp_iff_not_or] using hon
    refine completes_of_exec (hexec.trans (if_pos hstay)) ?_
    rw [State.eq_besideTime, if_neg hon]
    simp [hok, hrest, htb, hwords]

/-- Settles O6: each command is an update of the time base whose every case is stated once above. -/
theorem servoFollowsItsSources : Obligations.ServoFollowsItsSources := by
  unfold Obligations.ServoFollowsItsSources
  refine ⟨fun s theta sec qns hr h he => ⟨fun hp => ?_, fun hp hb => ?_⟩, fun s meas nom hr h => ⟨fun hs hl hm => ?_, ?_, ?_⟩⟩
  · exact ⟨_, exec_pherrWrite theta hr hp, State.phaseUpdate_moved _ h he⟩
  · exact ⟨_, exec_ppsInEdge sec qns hr hp hb, (State.phaseUpdate_moved (s := s.withTb fun t => { t with ppsIn := some t.mono }) _ h he).of_ppsIn⟩
  · exact measurement_completes meas nom hr h hs hl hm
  · refine completes_of_exec (exec_frequencySourceLost hr) ?_
    rw [State.eq_besideTime]
    simp +decide [State.get_put, State.get_put_clear, State.get_raise, wordsKept_put, h, TMB_CAUSE.freq_lost]
  · refine completes_of_exec (exec_frequencySourceReturn hr) ?_
    exact ⟨rfl, rfl, rfl⟩

end Sys2Proof.Proofs
end

section
/-! ## O7: holdover begins and ends -/

namespace Sys2Proof.Machine

open Sys2Proof.Claims

variable {s u : State}

/-- Holdover was entered in `t` and froze the servo and the increment of `s` (R31). -/
def HoldoverFrozen (s t : State) : Prop :=
  t.get TMB_STAT.state = 2 ∧ t.get TMB_CAUSE.ho_enter = 1 ∧ t.get TMB_NT_INC.inc = s.get TMB_NT_INC.inc ∧
  t.tb.integ = s.tb.integ ∧ t.tb.yf = s.tb.yf ∧ t = { s with tb := t.tb, regs := t.regs, now := t.now } ∧
  WordsKept s t [TMB_CTL.reg, TMB_STAT.reg, TMB_CAUSE.reg]

@[simp] theorem State.enterHoldover_tb : s.enterHoldover.tb = s.tb := by
  unfold State.enterHoldover
  split_ifs <;> simp

@[simp] theorem State.enterHoldover_pwr : s.enterHoldover.pwr = s.pwr := by
  unfold State.enterHoldover
  split_ifs <;> simp

theorem State.enterHoldover_wf (h : Regs.wf s = true) : Regs.wf s.enterHoldover = true := by
  unfold State.enterHoldover
  split_ifs <;> simp [h]

theorem State.enterHoldover_get (h : Regs.wf s = true) {g : Fld} (hs : TMB_STAT.state.clear g = true) (he : TMB_CAUSE.ho_enter.clear g = true) :
    s.enterHoldover.get g = s.get g := by
  unfold State.enterHoldover
  split_ifs <;> simp [State.get_raise, State.get_put_clear, h, hs, he]

/-- Entering holdover from a state that differs in TMB_CTL and in parts of the time base that no holdover freezes (R31). -/
theorem State.enterHoldover_frozen (h : Regs.wf u = true) (hs : u.get TMB_STAT.state ≠ 2) (hi : u.get TMB_NT_INC.inc = s.get TMB_NT_INC.inc)
    (hn : u.tb.integ = s.tb.integ) (hy : u.tb.yf = s.tb.yf) (hr : u.besideTime = s.besideTime) (hw : WordsKept s u [TMB_CTL.reg, TMB_STAT.reg, TMB_CAUSE.reg]) :
    HoldoverFrozen s u.enterHoldover := by
  unfold HoldoverFrozen
  rw [State.eq_besideTime, State.enterHoldover_eq hs]
  have hstate (v : State) (hv : Regs.wf v = true) (x : Nat) : (v.put TMB_STAT.state x).get TMB_STAT.state = x % 4 := State.get_put hv ..
  have henter (v : State) (hv : Regs.wf v = true) (x : Nat) : (v.put TMB_CAUSE.ho_enter x).get TMB_CAUSE.ho_enter = x % 2 := State.get_put hv ..
  simp +decide [hstate, henter, State.get_put_clear, State.get_raise, wordsKept_put, h, hi, hn, hy, hr, hw]

theorem exec_hoForce (h : Runs 82 1 s) (hw : Regs.wf s = true) (he : s.flag TMB_CTL.servo_en = true) :
    exec .hoForce s = .next (s.put TMB_CTL.ho_force 1).enterHoldover := by
  change execHoForce s = _
  rw [execHoForce, fabric_eq h, if_pos]
  rw [State.flag, State.get_put_clear hw 1 (by decide)]
  exact he

theorem exec_phaseSrcWrite_holdover (h : Runs 82 1 s) (hw : Regs.wf s = true) (he : s.flag TMB_CTL.servo_en = true) :
    exec (.phaseSrcWrite 3) s = .next (s.put TMB_CTL.phase_src 3).enterHoldover := by
  change execPhaseSrcWrite 3 s = _
  rw [execPhaseSrcWrite, fabric_eq h]
  change (if (s.put TMB_CTL.phase_src 3).flag TMB_CTL.servo_en && decide ((3 : Fin 4).val = 3) then _ else _) = _
  rw [State.flag, State.get_put_clear hw 3 (by decide), if_pos (by simpa [State.flag] using he)]
  rfl

/-- The state after a watchdog expiry: in holdover, with what an update of the same ck is to restore. -/
def State.expired (s : State) : State :=
  s.enterHoldover.withTb fun t => { t with expired := some (s.get TMB_STAT.state, s.flag TMB_CAUSE.ho_enter) }

@[simp] theorem State.expired_pwr : s.expired.pwr = s.pwr := by simp [State.expired]
theorem State.expired_get (h : Regs.wf s = true) {g : Fld} (hs : TMB_STAT.state.clear g = true) (he : TMB_CAUSE.ho_enter.clear g = true) :
    s.expired.get g = s.get g := by simp [State.expired, State.enterHoldover_get h hs he]

/-- The watchdog's expiry enters holdover and keeps what an update in its ck restores (R31, R32). -/
theorem exec_watchdogExpiry (h : Runs 82 1 s) (he : s.flag TMB_CTL.servo_en = true) (hs : s.get TMB_STAT.state ≠ 2) (hm : s.get TMB_WDOG.ms ≠ 0)
    (hd : s.get TMB_WDOG.ms * 2200000 ≤ s.since s.watchdogFrom) : exec .watchdogExpiry s = .next s.expired := by
  change execWatchdogExpiry s = _
  rw [execWatchdogExpiry, inside_eq h, if_pos (by simpa [he, hs, hm, Config.ckPerMs] using hd)]
  rfl

/-- The state in which servo_en = 1 has been written and the lock count restarted (R32, R34). -/
def State.servoOn (s : State) : State :=
  ((if s.flag TMB_CTL.servo_en then s else s.withTb fun t => { t with servoAt := t.mono }).put TMB_CTL.servo_en 1).withTb fun t =>
    { t with near := 0, freqHeld := 0 }

theorem exec_servoEnWrite_on (h : Runs 82 1 s) : exec (.servoEnWrite true) s =
    if s.servoOn.flag TMB_CTL.ho_force || s.servoOn.get TMB_CTL.phase_src = 3 then .next s.servoOn.enterHoldover else .next s.servoOn.updateInc := by
  change execServoEnWrite true s = _
  rw [execServoEnWrite, fabric_eq h, if_pos rfl]
  rfl

theorem State.servoOn_wf (h : Regs.wf s = true) : Regs.wf s.servoOn = true := by
  unfold State.servoOn
  split_ifs <;> simp [h]
theorem State.servoOn_en (h : Regs.wf s = true) : s.servoOn.get TMB_CTL.servo_en = 1 := by
  unfold State.servoOn
  split_ifs <;> simp [State.get_put, h, TMB_CTL.servo_en]
theorem State.servoOn_get (h : Regs.wf s = true) {g : Fld} (hg : TMB_CTL.servo_en.clear g = true) : s.servoOn.get g = s.get g := by
  unfold State.servoOn
  split_ifs <;> simp [State.get_put_clear, h, hg]
theorem State.servoOn_words (h : Regs.wf s = true) : WordsKept s s.servoOn [TMB_CTL.reg, TMB_STAT.reg, TMB_CAUSE.reg] := by
  unfold State.servoOn
  split_ifs <;> simp +decide [wordsKept_put, h]
@[simp] theorem State.servoOn_besideTime : s.servoOn.besideTime = s.besideTime := by
  unfold State.servoOn
  split_ifs <;> simp
@[simp] theorem State.servoOn_near : s.servoOn.tb.near = 0 := rfl
@[simp] theorem State.servoOn_integ : s.servoOn.tb.integ = s.tb.integ := by
  unfold State.servoOn
  split_ifs <;> simp
@[simp] theorem State.servoOn_yf : s.servoOn.tb.yf = s.tb.yf := by
  unfold State.servoOn
  split_ifs <;> simp

/-- A write of servo_en = 0 in holdover returns to free run and to the nominal increment (R32, R34). -/
theorem exec_servoEnWrite_off (h : Runs 82 1 s) (hw : Regs.wf s = true) (hs : s.get TMB_STAT.state = 2) : exec (.servoEnWrite false) s =
    .next ((((s.raise TMB_CAUSE.ho_exit).put TMB_CTL.servo_en 0).put TMB_STAT.state 0).put TMB_NT_INC.inc (s.get TMB_NT_INC_NOM.inc)) := by
  change execServoEnWrite false s = _
  rw [execServoEnWrite, fabric_eq h, if_neg (by decide)]
  simp only [hs, decide_true, State.raiseIf, if_true]
  have hoff : (((s.raise TMB_CAUSE.ho_exit).put TMB_CTL.servo_en 0).put TMB_STAT.state 0).flag TMB_CTL.servo_en = false := by
    simp +decide [State.flag, State.get_put, State.get_put_clear, hw]
  rw [State.updateInc_off hoff]
  simp +decide [State.get_put_clear, State.get_raise, hw]

end Sys2Proof.Machine

namespace Sys2Proof.Proofs

open Sys2Proof.Machine Sys2Proof.Claims

variable {s : State}

theorem hoForce_enters_holdover (hr : Runs 82 1 s) (h : Regs.wf s = true) (he : s.flag TMB_CTL.servo_en = true) (hs : s.get TMB_STAT.state ≠ 2) :
    Completes .hoForce s fun t => HoldoverFrozen s t ∧ t.tb = s.tb ∧ t.get TMB_CTL.ho_force = 1 := by
  refine completes_of_exec (exec_hoForce hr h he) ⟨State.enterHoldover_frozen ?_ ?_ ?_ ?_ ?_ ?_ ?_, ?_, ?_⟩
  all_goals simp +decide [h, hs, State.get_put_clear, State.get_put, wordsKept_put, State.enterHoldover_get, TMB_CTL.ho_force]

theorem phaseSrcWrite_enters_holdover (hr : Runs 82 1 s) (h : Regs.wf s = true) (he : s.flag TMB_CTL.servo_en = true) (hs : s.get TMB_STAT.state ≠ 2) :
    Completes (.phaseSrcWrite 3) s fun t => HoldoverFrozen s t ∧ t.tb = s.tb ∧ t.get TMB_CTL.phase_src = 3 := by
  refine completes_of_exec (exec_phaseSrcWrite_holdover hr h he) ⟨State.enterHoldover_frozen ?_ ?_ ?_ ?_ ?_ ?_ ?_, ?_, ?_⟩
  all_goals simp +decide [h, hs, State.get_put_clear, State.get_put, wordsKept_put, State.enterHoldover_get, TMB_CTL.phase_src]

theorem servoEnWrite_forced (hr : Runs 82 1 s) (h : Regs.wf s = true) (hf : s.flag TMB_CTL.ho_force = true) (hs : s.get TMB_STAT.state ≠ 2) :
    Completes (.servoEnWrite true) s fun t => HoldoverFrozen s t ∧ t.tb.near = 0 := by
  have hgo : s.servoOn.flag TMB_CTL.ho_force = true := by rw [State.flag, State.servoOn_get h (by decide)]; exact hf
  refine completes_of_exec ((exec_servoEnWrite_on hr).trans (if_pos (by simp [hgo]))) ⟨State.enterHoldover_frozen ?_ ?_ ?_ ?_ ?_ ?_ ?_, ?_⟩
  all_goals simp +decide [h, hs, State.servoOn_wf, State.servoOn_get, State.servoOn_words]

theorem servoEnWrite_restarts (hr : Runs 82 1 s) (h : Regs.wf s = true) : Completes (.servoEnWrite true) s fun t =>
    t.get TMB_CTL.servo_en = 1 ∧ t.tb.near = 0 ∧ t.tb.integ = s.tb.integ ∧ t.tb.yf = s.tb.yf := by
  by_cases hgo : (s.servoOn.flag TMB_CTL.ho_force || decide (s.servoOn.get TMB_CTL.phase_src = 3)) = true
  · refine completes_of_exec ((exec_servoEnWrite_on hr).trans (if_pos hgo)) ?_
    simp +decide [State.enterHoldover_get, State.servoOn_wf, State.servoOn_en, h]
  · refine completes_of_exec ((exec_servoEnWrite_on hr).trans (if_neg hgo)) ?_
    simp +decide [State.updateInc_get, State.servoOn_wf, State.servoOn_en, h]

theorem servoEnWrite_ends_holdover (hr : Runs 82 1 s) (h : Regs.wf s = true) (hs : s.get TMB_STAT.state = 2) :
    Completes (.servoEnWrite false) s fun t =>
      t.get TMB_STAT.state = 0 ∧ t.get TMB_CAUSE.ho_exit = 1 ∧ t.get TMB_NT_INC.inc = s.get TMB_NT_INC_NOM.inc ∧ t.tb = s.tb ∧
      t = { s with regs := t.regs, now := t.now } ∧
      WordsKept s t [TMB_CTL.reg, TMB_STAT.reg, TMB_CAUSE.reg, TMB_NT_INC.reg, TMB_NT_INC.reg + 4] := by
  refine completes_of_exec (exec_servoEnWrite_off hr h hs) ?_
  rw [State.eq_besideRegs]
  have hnom : s.get TMB_NT_INC_NOM.inc % 2 ^ TMB_NT_INC.inc.w = s.get TMB_NT_INC_NOM.inc := Nat.mod_eq_of_lt (State.get_lt s TMB_NT_INC_NOM.inc)
  have hexit (v : State) (hv : Regs.wf v = true) : (v.put TMB_CAUSE.ho_exit 1).get TMB_CAUSE.ho_exit = 1 := State.get_put hv ..
  simp +decide [h, hexit, hnom, State.get_put, State.get_put_clear, State.get_raise, wordsKept_put]

theorem watchdogExpiry_enters_holdover (h : Regs.wf s = true) (hs : s.get TMB_STAT.state ≠ 2) :
    HoldoverFrozen s s.expired ∧ s.expired.tb = { s.tb with expired := s.expired.tb.expired } := by
  obtain ⟨hst, hen, hinc, -, -, hrest, hw⟩ := State.enterHoldover_frozen (s := s) h hs rfl rfl rfl rfl (wordsKept_refl _)
  rw [State.eq_besideTime] at hrest
  unfold HoldoverFrozen State.expired
  rw [State.eq_besideTime]
  simp [hst, hen, hinc, hrest, hw]

/-- An update in the ck of the expiry starts from the state before it (R32). -/
theorem expired_undone (h : Regs.wf s = true) :
    Regs.wf s.expired.undoExpiry = true ∧ s.expired.undoExpiry.tb = { s.tb with expired := none } ∧
    s.expired.undoExpiry.get TMB_STAT.state = s.get TMB_STAT.state ∧ s.expired.undoExpiry.get TMB_CAUSE.ho_enter = s.get TMB_CAUSE.ho_enter ∧
    ∀ g : Fld, TMB_STAT.state.clear g = true → TMB_CAUSE.ho_enter.clear g = true → s.expired.undoExpiry.get g = s.get g := by
  have hst : s.get TMB_STAT.state % 2 ^ TMB_STAT.state.w = s.get TMB_STAT.state := Nat.mod_eq_of_lt (State.get_lt s TMB_STAT.state)
  have hen : (s.flag TMB_CAUSE.ho_enter).toNat % 2 ^ TMB_CAUSE.ho_enter.w = s.get TMB_CAUSE.ho_enter := by
    have hlt : s.get TMB_CAUSE.ho_enter < 2 := State.get_lt s TMB_CAUSE.ho_enter
    obtain hb | hb : s.get TMB_CAUSE.ho_enter = 0 ∨ s.get TMB_CAUSE.ho_enter = 1 := by omega
    all_goals rw [State.flag, hb]; rfl
  unfold State.expired State.undoExpiry
  simp +decide [State.enterHoldover_wf, State.get_put, State.get_put_clear, h, hst, hen]
  intro g hgs hge
  simp [State.get_put_clear, State.enterHoldover_get, State.enterHoldover_wf, h, hgs, hge]

/-- A phase update in the ck of the expiry counts as the update and undoes the expiry (R32). -/
theorem update_undoes_expiry (h : Regs.wf s = true) (he : s.flag TMB_CTL.servo_en = true) (hs : s.get TMB_STAT.state ≠ 2) (θ : Rat) :
    let u := s.expired.phaseUpdate θ
    u.get TMB_STAT.state ≠ 2 ∧ u.flag TMB_CAUSE.ho_enter = s.flag TMB_CAUSE.ho_enter ∧ u.get TMB_CAUSE.ho_exit = s.get TMB_CAUSE.ho_exit ∧
    u.tb.lastUpd = some s.tb.mono := by
  intro u
  obtain ⟨hwf, htb, hst, hen, hget⟩ := expired_undone h
  have hu : u = s.expired.undoExpiry.phaseUpdate θ := by
    have hidem : s.expired.undoExpiry.undoExpiry = s.expired.undoExpiry := by
      conv_lhs => rw [State.undoExpiry, htb]
    simp only [u, State.phaseUpdate, hidem]
  generalize s.expired.undoExpiry = w at *
  have hon : w.flag TMB_CTL.servo_en = true := by rw [State.flag, hget _ (by decide) (by decide)]; exact he
  rw [hu, State.phaseUpdate_counts θ hwf (by rw [htb]) hon (by rwa [hst])]
  have hne : ((w.counted θ).servoTerms θ).updateLock.get TMB_STAT.state ≠ 2 := by
    apply State.updateLock_state
    · simp [State.counted, hwf]
    · simpa +decide [State.counted, State.updated_get, hwf, hst] using hs
  have hcw : Regs.wf ((w.counted θ).servoTerms θ) = true := by simp [State.counted, hwf]
  have hcg {g : Fld} (hg : TMB_STAT.phase_ok.clear g = true) : ((w.counted θ).servoTerms θ).get g = w.get g := by
    simp [State.counted, State.updated_get hwf hg]
  refine ⟨?_, ?_, ?_, ?_⟩
  · rwa [State.updateInc_get (State.updateLock_wf hcw) (by decide) (by decide)]
  · rw [State.flag, State.updateInc_get (State.updateLock_wf hcw) (by decide) (by decide), State.updateLock_get hcw (by decide), hcg (by decide), hen]; rfl
  · rw [State.updateInc_get (State.updateLock_wf hcw) (by decide) (by decide), State.updateLock_get hcw (by decide), hcg (by decide),
      hget _ (by decide) (by decide)]
  · simp [State.counted, htb]

/-- Settles O7: every way into holdover passes through one operation, whose effects are stated once. -/
theorem holdoverBeginsAndEnds : Obligations.HoldoverBeginsAndEnds := by
  unfold Obligations.HoldoverBeginsAndEnds
  intro s hr h frozen
  refine ⟨fun he hs => ⟨hoForce_enters_holdover hr h he hs, phaseSrcWrite_enters_holdover hr h he hs, fun hm hd => ?_⟩,
    fun hf hs => servoEnWrite_forced hr h hf hs, servoEnWrite_restarts hr h, servoEnWrite_ends_holdover hr h⟩
  have hexp := watchdogExpiry_enters_holdover h hs
  refine completes_of_exec (exec_watchdogExpiry hr he hs hm hd) ⟨hexp.1, hexp.2, fun theta hp => ?_⟩
  refine completes_of_exec (exec_pherrWrite theta (runs_of_kept hr s.expired_pwr ?_ ?_) ?_) (update_undoes_expiry h he hs _)
  · exact State.expired_get h (by decide) (by decide)
  · exact State.expired_get h (by decide) (by decide)
  · rw [State.expired_get h (by decide) (by decide)]; exact hp

end Sys2Proof.Proofs
end

section
/-! ## O8: writes that move a timeline -/

namespace Sys2Proof.Machine

open Sys2Proof.Claims

variable {s : State}

/-- A count below the wrap of the seconds reads back as itself (R23). -/
theorem NT.total_ofTotal {n : Nat} (h : n < 2 ^ 48 * 1000000000 * 2 ^ 40) : (NT.ofTotal n).total = n := by
  have hs : n / 2 ^ 40 / 1000000000 < 2 ^ 48 := by omega
  simp only [NT.total, NT.ofTotal, Config.ntFrac, BitVec.toNat_ofNat, Nat.mod_eq_of_lt hs]
  omega

/-! A start of an engine changes the Orrery and the engine's status word (R39, R43). -/

@[simp] theorem Regs.wf_withEngine (n : Fin 8) (f : Engine → Engine) : Regs.wf (s.withEngine n f) = Regs.wf s := Regs.wf_of_regs rfl
@[simp] theorem State.get_withEngine (n : Fin 8) (f : Engine → Engine) (g : Fld) : (s.withEngine n f).get g = s.get g :=
  State.get_of_regs (s := s) (t := s.withEngine n f) rfl g

@[simp] theorem State.withEngine_tb (n : Fin 8) (f : Engine → Engine) : (s.withEngine n f).tb = s.tb := rfl
@[simp] theorem State.withEngine_mem (n : Fin 8) (f : Engine → Engine) : (s.withEngine n f).mem = s.mem := rfl
@[simp] theorem State.withEngine_regs (n : Fin 8) (f : Engine → Engine) : (s.withEngine n f).regs = s.regs := rfl

/-- The field lies apart from the status words of the Orrery's engines. -/
def Fld.besideStatus (g : Fld) : Prop := ∀ n : Fin 8, (ORR_ENGn_STAT.state n).clear g = true ∧ (ORR_ENGn_STAT.bank n).clear g = true ∧
  (ORR_ENGn_STAT.pc n).clear g = true

theorem State.startEngine_wf (n : Fin 8) (h : Regs.wf s = true) : Regs.wf (s.startEngine n) = true := by
  simp [State.startEngine, h]

theorem State.startEngine_get (n : Fin 8) (h : Regs.wf s = true) {g : Fld} (hg : g.besideStatus) : (s.startEngine n).get g = s.get g := by
  obtain ⟨hs, hb, hp⟩ := hg n
  simp [State.startEngine, State.get_put_clear, h, hs, hb, hp]

@[simp] theorem State.startEngine_tb (n : Fin 8) : (s.startEngine n).tb = s.tb := by simp [State.startEngine]
@[simp] theorem State.startEngine_mem (n : Fin 8) : (s.startEngine n).mem = s.mem := by simp [State.startEngine]

/-- What the start of waiting engines keeps (R26). -/
theorem State.startWaiting_kept (tl : Nat) (h : Regs.wf s = true) :
    (s.startWaiting tl).tb = s.tb ∧ (s.startWaiting tl).mem = s.mem ∧ ∀ g : Fld, g.besideStatus → (s.startWaiting tl).get g = s.get g := by
  have key (l : List (Fin 8)) : ∀ u : State, Regs.wf u = true → ∀ v, v = l.foldl (fun s (n : Fin 8) =>
      if s.flag (ORR_ENGn_CTL.run n) && !(s.engine n).active && s.get (ORR_ENGn_CTL.at n) = tl then s.startEngine n else s) u →
      v.tb = u.tb ∧ v.mem = u.mem ∧ ∀ g : Fld, g.besideStatus → v.get g = u.get g := by
    induction l with
    | nil => rintro u hu v rfl; exact ⟨rfl, rfl, fun _ _ => rfl⟩
    | cons n l ih =>
      rintro u hu v rfl
      rw [List.foldl_cons]
      split_ifs
      · obtain ⟨ht, hm, hg⟩ := ih _ (State.startEngine_wf n hu) _ rfl
        exact ⟨by rw [ht]; simp, by rw [hm]; simp, fun g hb => (hg g hb).trans (State.startEngine_get n hu hb)⟩
      · exact ih _ hu _ rfl
  exact key _ s h _ rfl

/-- The timelines' configuration lies beside the engines' status. -/
theorem timelineCfg_besideStatus (n : Fin 8) : (TMB_ATn_CFG.en n).besideStatus ∧ (TMB_ATn_CFG.mu n).besideStatus := by
  refine ⟨fun m => ?_, fun m => ?_⟩
  all_goals
    simp only [Fld.clear_iff, Fld.span, ORR_ENGn_STAT.state, ORR_ENGn_STAT.bank, ORR_ENGn_STAT.pc, ORR_ENGn_STAT.reg, TMB_ATn_CFG.en,
      TMB_ATn_CFG.mu, TMB_ATn_CFG.reg]
    omega

/-- The fields of a timeline's configuration share no bit. -/
theorem timelineCfg_clear (n : Fin 8) : (TMB_ATn_CFG.en n).clear (TMB_ATn_CFG.mu n) = true := by
  simp [Fld.clear_iff, Fld.span, TMB_ATn_CFG.en, TMB_ATn_CFG.mu]

theorem exec_timelineOffsetWrite (n : Fin 8) (off : BitVec 33) (h : Runs 82 1 s) : exec (.timelineOffsetWrite n off) s =
    faultIf (s.timelineOn n && s.engineBound n) .timelineReprogrammed (.next (s.put (TMB_ATn_OFF.off n) off.toNat)) := by
  change execTimelineOffsetWrite n off s = _
  rw [execTimelineOffsetWrite, fabric_eq h]

/-- The state in which the configuration of timeline `n` has been written. -/
def State.timelineCfg (s : State) (n : Fin 8) (dup ecp : Bool) (mu : Fin 4) (en : Bool) : State :=
  (((s.put (TMB_ATn_CFG.dup n) dup.toNat).put (TMB_ATn_CFG.ecp n) ecp.toNat).put (TMB_ATn_CFG.mu n) mu.val).put (TMB_ATn_CFG.en n) en.toNat

theorem State.timelineCfg_wf (n : Fin 8) (dup ecp : Bool) (mu : Fin 4) (en : Bool) (h : Regs.wf s = true) : Regs.wf (s.timelineCfg n dup ecp mu en) = true := by
  simp [State.timelineCfg, h]

@[simp] theorem State.timelineCfg_besideRegs (n : Fin 8) (dup ecp : Bool) (mu : Fin 4) (en : Bool) :
    (s.timelineCfg n dup ecp mu en).besideRegs = s.besideRegs := by simp [State.timelineCfg]
@[simp] theorem State.timelineCfg_tb (n : Fin 8) (dup ecp : Bool) (mu : Fin 4) (en : Bool) : (s.timelineCfg n dup ecp mu en).tb = s.tb := by
  simp [State.timelineCfg]
@[simp] theorem State.timelineCfg_mem (n : Fin 8) (dup ecp : Bool) (mu : Fin 4) (en : Bool) : (s.timelineCfg n dup ecp mu en).mem = s.mem := by
  simp [State.timelineCfg]

theorem State.timelineCfg_en (n : Fin 8) (dup ecp : Bool) (mu : Fin 4) (en : Bool) (h : Regs.wf s = true) :
    (s.timelineCfg n dup ecp mu en).get (TMB_ATn_CFG.en n) = en.toNat := by
  rw [State.timelineCfg, State.get_put (by simp [h])]
  exact Nat.mod_eq_of_lt (Bool.toNat_lt en)

theorem State.timelineCfg_mu (n : Fin 8) (dup ecp : Bool) (mu : Fin 4) (en : Bool) (h : Regs.wf s = true) :
    (s.timelineCfg n dup ecp mu en).get (TMB_ATn_CFG.mu n) = mu.val := by
  rw [State.timelineCfg, State.get_put_clear (by simp [h]) _ (timelineCfg_clear n), State.get_put (by simp [h])]
  exact Nat.mod_eq_of_lt mu.isLt

theorem State.timelineCfg_words (n : Fin 8) (dup ecp : Bool) (mu : Fin 4) (en : Bool) (h : Regs.wf s = true) :
    WordsKept s (s.timelineCfg n dup ecp mu en) [TMB_ATn_CFG.reg n] := by
  have hin : (TMB_ATn_CFG.dup n).within [TMB_ATn_CFG.reg n] = true ∧ (TMB_ATn_CFG.ecp n).within [TMB_ATn_CFG.reg n] = true ∧
      (TMB_ATn_CFG.mu n).within [TMB_ATn_CFG.reg n] = true ∧ (TMB_ATn_CFG.en n).within [TMB_ATn_CFG.reg n] = true := by
    simp [Fld.within, Fld.span, TMB_ATn_CFG.dup, TMB_ATn_CFG.ecp, TMB_ATn_CFG.mu, TMB_ATn_CFG.en]
  simp [State.timelineCfg, wordsKept_put, h, hin]

theorem exec_timelineEnable (n : Fin 8) (dup ecp : Bool) (mu : Fin 4) (en : Bool) (h : Runs 82 1 s) : exec (.timelineEnable n dup ecp mu en) s =
    faultIf (s.timelineOn n && s.engineBound n) .timelineReprogrammed
      (.next (if en then (s.timelineCfg n dup ecp mu en).startWaiting n else s.timelineCfg n dup ecp mu en)) := by
  change execTimelineEnable n dup ecp mu en s = _
  rw [execTimelineEnable, fabric_eq h]
  rfl

theorem exec_epochWrite (sec : BitVec 48) (h : Runs 82 1 s) : exec (.epochWrite sec) s =
    faultIf s.anyEngineBound .timelineReprogrammed (.next (s.put TMB_EPOCH.sec sec.toNat)) := by
  change execEpochWrite sec s = _
  rw [execEpochWrite, fabric_eq h]

/-- NT after a phase step (R35). -/
def State.steppedNt (s : State) (step : BitVec 48) : NT :=
  NT.ofTotal (((s.tb.nt.total : Int) + step.toInt * (2 ^ 24 : Nat)) % ((2 ^ 48 * 1000000000 * Config.ntFrac : Nat) : Int)).toNat

/-- A phase step moves NT, and with it the instants from which the next second, measurement and time exchange count. -/
theorem exec_phaseStep (step : BitVec 48) (h : Runs 82 1 s) (hq : s.anyEngineBound = false) : ∃ last ms xms, exec (.phaseStep step) s =
    .next ((s.withTb fun t => { t with nt := s.steppedNt step, ppsLast := last, freqMs := ms }).withExchange xms) := by
  change ∃ last ms xms, execPhaseStep step s = _
  rw [execPhaseStep, fabric_eq h, hq]
  exact ⟨_, _, _, rfl⟩

theorem exec_phaseStep_fault (step : BitVec 48) (h : Runs 82 1 s) (hq : s.anyEngineBound = true) :
    exec (.phaseStep step) s = .fault .timelineReprogrammed := by
  change execPhaseStep step s = _
  rw [execPhaseStep, fabric_eq h, hq]
  rfl

theorem State.steppedNt_total (step : BitVec 48) (h0 : (0 : Int) ≤ s.tb.nt.total + step.toInt * 2 ^ 24)
    (hlt : (s.tb.nt.total : Int) + step.toInt * 2 ^ 24 < 2 ^ 48 * 1000000000 * 2 ^ 40) :
    ((s.steppedNt step).total : Int) = s.tb.nt.total + step.toInt * 2 ^ 24 := by
  have hmod : ((s.tb.nt.total : Int) + step.toInt * (2 ^ 24 : Nat)) % ((2 ^ 48 * 1000000000 * Config.ntFrac : Nat) : Int)
      = s.tb.nt.total + step.toInt * 2 ^ 24 := Int.emod_eq_of_lt h0 hlt
  rw [State.steppedNt, hmod, NT.total_ofTotal (by omega), Int.toNat_of_nonneg h0]

end Sys2Proof.Machine

namespace Sys2Proof.Proofs

open Sys2Proof.Machine Sys2Proof.Claims

variable {s : State}


theorem timelineOffset_moves (n : Fin 8) (off : BitVec 33) (hr : Runs 82 1 s) (h : Regs.wf s = true) (hq : (s.timelineOn n && s.engineBound n) = false) :
    Completes (.timelineOffsetWrite n off) s fun t => t.get (TMB_ATn_OFF.off n) = off.toNat ∧ t = { s with regs := t.regs, now := t.now } ∧
      WordsKept s t [TMB_ATn_OFF.reg n, TMB_ATn_OFF.reg n + 4] := by
  refine completes_of_exec (by rw [exec_timelineOffsetWrite n off hr, hq]; rfl) ?_
  have hw : (TMB_ATn_OFF.off n).within [TMB_ATn_OFF.reg n, TMB_ATn_OFF.reg n + 4] = true := by
    simp only [Fld.within_iff, Fld.span, TMB_ATn_OFF.off, List.mem_cons, List.not_mem_nil]
    omega
  have hv : (s.put (TMB_ATn_OFF.off n) off.toNat).get (TMB_ATn_OFF.off n) = off.toNat :=
    (State.get_put h ..).trans (Nat.mod_eq_of_lt off.isLt)
  rw [State.eq_besideRegs]
  simp [hv, wordsKept_put, h, hw]

theorem timelineDisable_stops (n : Fin 8) (dup ecp : Bool) (mu : Fin 4) (hr : Runs 82 1 s) (h : Regs.wf s = true)
    (hq : (s.timelineOn n && s.engineBound n) = false) : Completes (.timelineEnable n dup ecp mu false) s fun t =>
      t.timelineOn n = false ∧ t.atNow n = 0 ∧ t = { s with regs := t.regs, now := t.now } ∧ WordsKept s t [TMB_ATn_CFG.reg n] := by
  refine completes_of_exec (by rw [exec_timelineEnable n dup ecp mu false hr, hq]; rfl) ?_
  have hoff : (s.timelineCfg n dup ecp mu false).timelineOn n = false := by simp [State.timelineOn, State.flag, State.timelineCfg_en n dup ecp mu false h]
  rw [State.eq_besideRegs]
  simp [hoff, State.atNow, State.timelineCfg_words n dup ecp mu false h]

theorem timelineEnable_starts (n : Fin 8) (dup ecp : Bool) (mu : Fin 4) (hr : Runs 82 1 s) (h : Regs.wf s = true)
    (hq : (s.timelineOn n && s.engineBound n) = false) : Completes (.timelineEnable n dup ecp mu true) s fun t =>
      t.timelineOn n = true ∧ t.get (TMB_ATn_CFG.mu n) = mu.val ∧ t.tb = s.tb ∧ t.mem = s.mem := by
  refine completes_of_exec (by rw [exec_timelineEnable n dup ecp mu true hr, hq]; rfl) ?_
  obtain ⟨htb, hmem, hget⟩ := State.startWaiting_kept n (State.timelineCfg_wf n dup ecp mu true h)
  obtain ⟨hen, hmu⟩ := timelineCfg_besideStatus n
  refine ⟨?_, ?_, htb.trans (s.timelineCfg_tb ..), hmem.trans (s.timelineCfg_mem ..)⟩
  · simp [State.timelineOn, State.flag, hget _ hen, State.timelineCfg_en n dup ecp mu true h]
  · exact (hget _ hmu).trans (State.timelineCfg_mu n dup ecp mu true h)

/-- Settles O8: each write's guard is the bound engine, and behind it lies one write of a field or one move of NT. -/
theorem timelineWritesNeedHaltedEngines : Obligations.TimelineWritesNeedHaltedEngines := by
  unfold Obligations.TimelineWritesNeedHaltedEngines
  intro s n off sec step dup ecp en mu hr h
  refine ⟨fun hq => ?_, fun hq => ⟨?_, fun h0 hlt => ?_⟩, fun hon hb => ⟨?_, ?_⟩, fun hb => ⟨?_, ?_⟩⟩
  · have hq' : (s.timelineOn n && s.engineBound n) = false := by rcases hq with hq | hq <;> simp [hq]
    exact ⟨timelineOffset_moves n off hr h hq', timelineDisable_stops n dup ecp mu hr h hq', timelineEnable_starts n dup ecp mu hr h hq'⟩
  · refine completes_of_exec (by rw [exec_epochWrite sec hr, hq]; rfl) ?_
    have hv : (s.put TMB_EPOCH.sec sec.toNat).get TMB_EPOCH.sec = sec.toNat := (State.get_put h ..).trans (Nat.mod_eq_of_lt sec.isLt)
    rw [State.eq_besideRegs]
    simp +decide [hv, wordsKept_put, h]
  · obtain ⟨last, ms, xms, he⟩ := exec_phaseStep step hr hq
    refine completes_of_exec he ⟨?_, rfl, rfl⟩
    exact State.steppedNt_total step h0 hlt
  · rw [exec_timelineOffsetWrite n off hr, hon, hb]; rfl
  · rw [exec_timelineEnable n dup ecp mu en hr, hon, hb]; rfl
  · rw [exec_epochWrite sec hr, hb]; rfl
  · exact exec_phaseStep_fault step hr hb

end Sys2Proof.Proofs
end

section
/-! ## O9: the snapshot and the pulse output -/

namespace Sys2Proof.Machine

open Sys2Proof.Claims

variable {s t : State}

/-- Air time lies below the wrap (R10, R24). -/
theorem State.atNow_lt (s : State) (n : Nat) : s.atNow n < 5033164800 := by
  unfold State.atNow airCount
  split_ifs
  · have h1 := Int.emod_lt_of_pos (((s.tb.nt.nsQ - ((s.get TMB_EPOCH.sec * 1000000000 : Nat) : Rat)) * 1536 / 3125).floor + (s.get (TMB_ATn_OFF.off n) : Int))
      (show (0 : Int) < (Config.airWrap : Int) by decide)
    have h2 : (Config.airWrap : Int) = 5033164800 := rfl
    simp only
    omega
  · omega

/-- Air time depends on NT and on the timeline's registers alone (R24, R26). -/
theorem State.atNow_congr {n : Nat} (htb : t.tb = s.tb) (hen : t.get (TMB_ATn_CFG.en n) = s.get (TMB_ATn_CFG.en n))
    (hep : t.get TMB_EPOCH.sec = s.get TMB_EPOCH.sec) (hoff : t.get (TMB_ATn_OFF.off n) = s.get (TMB_ATn_OFF.off n)) : t.atNow n = s.atNow n := by
  have hon : t.timelineOn n = s.timelineOn n := by rw [State.timelineOn, State.timelineOn, State.flag, State.flag, hen]
  rw [State.atNow, State.atNow, hon, htb, hep, hoff]

/-- The field lies below the snapshot registers of the timelines or above them. -/
def Fld.besideSnap (g : Fld) : Prop := g.span.1 + 4 * g.span.2.2 ≤ TMB_SNAP_ATn.reg 0 ∨ TMB_SNAP_ATn.reg 8 ≤ g.span.1

theorem Fld.besideSnap.clear {g : Fld} (h : g.besideSnap) {n : Nat} (hn : n < 8) : (TMB_SNAP_ATn.at n).clear g = true := by
  rw [Fld.clear_iff]
  simp only [Fld.besideSnap, Fld.span, TMB_SNAP_ATn.at, TMB_SNAP_ATn.reg] at h ⊢
  omega

/-- The snapshot of the first `k` timelines. -/
def State.snapAir (s : State) (k : Nat) : State := (List.range k).foldl (fun s n => s.put (TMB_SNAP_ATn.at n) (s.atNow n)) s

theorem State.snapAir_succ (k : Nat) : s.snapAir (k + 1) = (s.snapAir k).put (TMB_SNAP_ATn.at k) ((s.snapAir k).atNow k) := by
  simp [State.snapAir, List.range_succ]

theorem State.snapAir_wf (k : Nat) (h : Regs.wf s = true) : Regs.wf (s.snapAir k) = true := by
  induction k with
  | zero => exact h
  | succ k ih => simp [State.snapAir_succ, ih]

@[simp] theorem State.snapAir_besideRegs (k : Nat) : (s.snapAir k).besideRegs = s.besideRegs := by
  induction k with
  | zero => rfl
  | succ k ih => simp [State.snapAir_succ, ih]

@[simp] theorem State.snapAir_tb (k : Nat) : (s.snapAir k).tb = s.tb := by
  induction k with
  | zero => rfl
  | succ k ih => simp [State.snapAir_succ, ih]

theorem State.snapAir_get {k : Nat} (hk : k ≤ 8) (h : Regs.wf s = true) {g : Fld} (hg : g.besideSnap) : (s.snapAir k).get g = s.get g := by
  induction k with
  | zero => rfl
  | succ k ih => rw [State.snapAir_succ, State.get_put_clear (State.snapAir_wf k h) _ (hg.clear (by omega)), ih (by omega)]

theorem State.snapAir_atNow {k n : Nat} (hk : k ≤ 8) (h : Regs.wf s = true) : (s.snapAir k).atNow n = s.atNow n := by
  apply State.atNow_congr (s.snapAir_tb k)
  all_goals
    apply State.snapAir_get hk h
    simp only [Fld.besideSnap, Fld.span, TMB_ATn_CFG.en, TMB_ATn_OFF.off, TMB_EPOCH.sec, TMB_ATn_CFG.reg, TMB_ATn_OFF.reg, TMB_EPOCH.reg, TMB_SNAP_ATn.reg]
    omega

theorem State.snapAir_at {k n : Nat} (hk : k ≤ 8) (hn : n < k) (h : Regs.wf s = true) : (s.snapAir k).get (TMB_SNAP_ATn.at n) = s.atNow n := by
  induction k with
  | zero => omega
  | succ k ih =>
    rw [State.snapAir_succ, State.snapAir_atNow (by omega) h]
    by_cases he : n = k
    · subst he
      have hlt := s.atNow_lt n
      exact (State.get_put (State.snapAir_wf n h) ..).trans (Nat.mod_eq_of_lt (by change _ < 2 ^ 33; omega))
    · rw [State.get_put_clear (State.snapAir_wf k h), ih (by omega) (by omega)]
      simp only [Fld.clear_iff, Fld.span, TMB_SNAP_ATn.at, TMB_SNAP_ATn.reg]
      omega

theorem State.snapAir_words {k : Nat} {as : List Nat} (h : Regs.wf t = true) (has : ∀ n, n < k → (TMB_SNAP_ATn.at n).within as = true) :
    WordsKept s (t.snapAir k) as ↔ WordsKept s t as := by
  induction k with
  | zero => rfl
  | succ k ih =>
    rw [State.snapAir_succ, wordsKept_put (State.snapAir_wf k h) (has k (by omega)), ih fun n hn => has n (by omega)]

/-- The state in which the snapshot of NT and TMB_MONO is written (R23). -/
def State.snapTime (s : State) : State :=
  (((s.put TMB_SNAP_SEC.sec s.tb.nt.sec.toNat).put TMB_SNAP_NS.ns s.tb.nt.ns).put TMB_SNAP_NS.frac (s.tb.nt.frac.toNat / 256)).put
    TMB_SNAP_MONO.ck s.tb.mono.toNat

theorem State.snapTime_wf (h : Regs.wf s = true) : Regs.wf s.snapTime = true := by simp [State.snapTime, h]

theorem State.snapTime_get (h : Regs.wf s = true) {g : Fld} (hg : TMB_SNAP_ATn.reg 8 ≤ g.span.1) : s.snapTime.get g = s.get g := by
  have hc : TMB_SNAP_SEC.sec.clear g = true ∧ TMB_SNAP_NS.ns.clear g = true ∧ TMB_SNAP_NS.frac.clear g = true ∧ TMB_SNAP_MONO.ck.clear g = true := by
    simp only [Fld.clear_iff, TMB_SNAP_ATn.reg, Fld.span, TMB_SNAP_SEC.sec, TMB_SNAP_SEC.reg, TMB_SNAP_NS.ns, TMB_SNAP_NS.reg, TMB_SNAP_NS.frac,
      TMB_SNAP_MONO.ck, TMB_SNAP_MONO.reg] at hg ⊢
    omega
  simp [State.snapTime, State.get_put_clear, h, hc]

theorem State.snapTime_atNow (n : Nat) (h : Regs.wf s = true) : s.snapTime.atNow n = s.atNow n := by
  apply State.atNow_congr (by simp [State.snapTime])
  all_goals
    apply State.snapTime_get h
    simp only [Fld.span, TMB_ATn_CFG.en, TMB_ATn_OFF.off, TMB_EPOCH.sec, TMB_ATn_CFG.reg, TMB_ATn_OFF.reg, TMB_EPOCH.reg, TMB_SNAP_ATn.reg]
    omega

theorem exec_snap (h : Runs 82 1 s) : exec .snap s = .next (s.snapTime.snapAir 8) := by
  change execSnap s = _
  rw [execSnap, fabric_eq h]
  simp only [State.snapTime, State.snapAir, State.put_tb]

/-- The words of the snapshot registers. -/
def snapWords : List Nat := TMB_SNAP_SEC.reg :: (TMB_SNAP_SEC.reg + 4) :: TMB_SNAP_NS.reg :: (TMB_SNAP_NS.reg + 4) :: TMB_SNAP_MONO.reg ::
  (TMB_SNAP_MONO.reg + 4) :: (List.range 16).map (fun i => TMB_SNAP_ATn.reg 0 + 4 * i)

theorem State.withTb_ppsLast (u : State) : (u.withTb fun t => { t with ppsLast := u.tb.ppsLast }) = u := rfl

/-- A write of TMB_PPSO stores its fields, and where it enables the output it sets the second that the first pulse follows (R406). -/
theorem exec_ppsoWrite (width : BitVec 8) (en : Bool) (h : Runs 82 1 s) : ∃ last, exec (.ppsoWrite width en) s =
    .next (((s.put TMB_PPSO.width width.toNat).put TMB_PPSO.en en.toNat).withTb fun t => { t with ppsLast := last }) := by
  change ∃ last, execPpsoWrite width en s = _
  rw [execPpsoWrite, fabric_eq h]
  cases hen : en && !s.flag TMB_PPSO.en
  · simp only [hen, Bool.false_eq_true, if_false]
    exact ⟨_, congrArg _ (State.withTb_ppsLast _).symm⟩
  · simp only [hen, if_true]
    exact ⟨_, rfl⟩

theorem exec_ppsOutRise (h : Runs 82 1 s) (hen : s.flag TMB_PPSO.en = true) (hs : s.tb.ppsLast < s.ppsSeconds) : exec .ppsOutRise s =
    .next (s.withTb fun t => { t with ppsLast := s.ppsSeconds, ppsHigh := some (t.mono + BitVec.ofNat 64 (max 1 (s.get TMB_PPSO.width) * Config.ckPerUs)) }) := by
  change execPpsOutRise s = _
  rw [execPpsOutRise, inside_eq h]
  exact if_pos (by simp [hen, hs])

theorem exec_ppsOutFall (h : Runs 82 1 s) {e : BitVec 64} (he : s.tb.ppsHigh = some e) (hd : 0 ≤ (s.tb.mono - e).toInt) : exec .ppsOutFall s =
    .next (s.withTb fun t => { t with ppsHigh := none }) := by
  change execPpsOutFall s = _
  rw [execPpsOutFall, inside_eq h, he]
  exact if_pos hd

end Sys2Proof.Machine

namespace Sys2Proof.Proofs

open Sys2Proof.Machine Sys2Proof.Claims

variable {s : State}

theorem snap_copies_one_ck (hr : Runs 82 1 s) (h : Regs.wf s = true) (hns : s.tb.nt.ns < 1000000000) : Completes .snap s fun t =>
      t.get TMB_SNAP_SEC.sec = s.tb.nt.sec.toNat ∧ t.get TMB_SNAP_NS.ns = s.tb.nt.ns ∧
      t.get TMB_SNAP_NS.frac = s.tb.nt.frac.toNat / 256 ∧ t.get TMB_SNAP_MONO.ck = s.tb.mono.toNat ∧
      (∀ n : Fin 8, t.get (TMB_SNAP_ATn.at n) = s.atNow n) ∧ t = { s with regs := t.regs, now := t.now } ∧ WordsKept s t snapWords := by
  refine completes_of_exec (exec_snap hr) ?_
  have hwf := State.snapTime_wf h
  have hget {g : Fld} (hg : g.besideSnap) : (s.snapTime.snapAir 8).get g = s.snapTime.get g := State.snapAir_get (by omega) hwf hg
  have hsec : s.tb.nt.sec.toNat % 2 ^ TMB_SNAP_SEC.sec.w = s.tb.nt.sec.toNat := Nat.mod_eq_of_lt s.tb.nt.sec.isLt
  have hnsw : s.tb.nt.ns % 2 ^ TMB_SNAP_NS.ns.w = s.tb.nt.ns := Nat.mod_eq_of_lt (by change _ < 2 ^ 30; omega)
  have hfrac : s.tb.nt.frac.toNat / 256 % 2 ^ TMB_SNAP_NS.frac.w = s.tb.nt.frac.toNat / 256 :=
    Nat.mod_eq_of_lt (by have := s.tb.nt.frac.isLt; change _ < 2 ^ 32; omega)
  have hmono : s.tb.mono.toNat % 2 ^ TMB_SNAP_MONO.ck.w = s.tb.mono.toNat := Nat.mod_eq_of_lt s.tb.mono.isLt
  refine ⟨?_, ?_, ?_, ?_, fun n => ?_, ?_, ?_⟩
  · rw [hget (.inl (by decide))]
    simp +decide [State.snapTime, State.get_put, State.get_put_clear, h, hsec]
  · rw [hget (.inl (by decide))]
    simp +decide [State.snapTime, State.get_put, State.get_put_clear, h, hnsw]
  · rw [hget (.inl (by decide))]
    simp +decide [State.snapTime, State.get_put, State.get_put_clear, h, hfrac]
  · rw [hget (.inl (by decide))]
    simp +decide [State.snapTime, State.get_put, h, hmono]
  · rw [State.snapAir_at (by omega) n.isLt hwf, State.snapTime_atNow n h]
  · rw [State.eq_besideRegs]
    simp [State.snapTime]
  · rw [State.snapAir_words hwf fun n hn => ?_]
    · simp +decide [State.snapTime, wordsKept_put, h, snapWords]
    · simp only [Fld.within_iff, Fld.span, TMB_SNAP_ATn.at, TMB_SNAP_ATn.reg, snapWords, List.mem_cons, List.mem_map, List.mem_range]
      intro i hi
      right; right; right; right; right; right
      exact ⟨2 * n + i, by omega, by omega⟩

theorem ppsoWrite_stores (width : BitVec 8) (en : Bool) (hr : Runs 82 1 s) (h : Regs.wf s = true) : Completes (.ppsoWrite width en) s fun t =>
    t.get TMB_PPSO.width = width.toNat ∧ t.get TMB_PPSO.en = en.toNat ∧ t.tb.ppsHigh = s.tb.ppsHigh ∧ t.tb.nt = s.tb.nt ∧
    t = { s with tb := t.tb, regs := t.regs, now := t.now } ∧ WordsKept s t [TMB_PPSO.reg] := by
  obtain ⟨last, he⟩ := exec_ppsoWrite width en hr
  refine completes_of_exec he ?_
  rw [State.eq_besideTime]
  have hwidth : width.toNat % 2 ^ TMB_PPSO.width.w = width.toNat := Nat.mod_eq_of_lt width.isLt
  have hen : en.toNat % 2 ^ TMB_PPSO.en.w = en.toNat := Nat.mod_eq_of_lt (Bool.toNat_lt en)
  simp +decide [State.get_put, State.get_put_clear, wordsKept_put, h, hwidth, hen]

/-- Settles O9: a snapshot writes fields that share no bit, so each keeps what was copied into it, and each edge of PPS_OUT is one move of the time base. -/
theorem snapshotAndPulseOutput : Obligations.SnapshotAndPulseOutput := by
  unfold Obligations.SnapshotAndPulseOutput
  intro s width en hr h
  refine ⟨snap_copies_one_ck hr h, ppsoWrite_stores width en hr h, fun hen hs => ?_, fun e he hd => ?_⟩
  · refine completes_of_exec (exec_ppsOutRise hr hen hs) ⟨rfl, ?_, rfl, rfl⟩
    have hwidth : max 1 (s.get TMB_PPSO.width) = if s.get TMB_PPSO.width = 0 then 1 else s.get TMB_PPSO.width := by split_ifs <;> omega
    rw [State.withTb_tb, hwidth]
    rfl
  · refine completes_of_exec (exec_ppsOutFall hr he hd) ⟨rfl, rfl⟩

end Sys2Proof.Proofs
end

section
/-! ## The Orrery: what decoding changes of the block and of the engine (R38 to R43) -/

namespace Sys2Proof.Machine

open Sys2Proof.Claims

variable {s t u : State} {n m : Fin 8} {k : Fin 4}

/-! Fields of the Orrery that share no bit. -/

theorem engState_clear (n : Fin 8) (k : Fin 4) : (ORR_ENGn_STAT.state n).clear (ORR_ENGn_STAT.pc n) = true ∧ (ORR_ENGn_STAT.state n).clear (ORR_ENGn_STAT.bank n) = true ∧
    (ORR_ENGn_STAT.state n).clear (ORR_ENGn_CTL.run n) = true ∧ (ORR_ENGn_STAT.state n).clear (ORR_ENGn_TAk.t n k) = true ∧
    (ORR_ENGn_STAT.state n).clear (ORR_ENGn_BANKV.valid n) = true ∧ (ORR_ENGn_STAT.state n).clear ORR_CAUSE.bad_op = true ∧
    (ORR_ENGn_STAT.state n).clear ORR_CAUSE.conj = true ∧ (ORR_ENGn_STAT.state n).clear ORR_CONJ_CTL.role = true ∧
    (ORR_ENGn_STAT.state n).clear ORR_CONJ_CTL.lead = true ∧ (ORR_ENGn_STAT.state n).clear ORR_CONJ_STAT.tmo = true ∧
    (ORR_ENGn_STAT.state n).clear ORR_SIG.sig = true := by
  simp only [Fld.clear_iff, Fld.span, true_and,
    ORR_ENGn_STAT.state, ORR_ENGn_STAT.pc, ORR_ENGn_STAT.bank, ORR_ENGn_CTL.run, ORR_ENGn_TAk.t, ORR_ENGn_BANKV.valid, ORR_CAUSE.bad_op, ORR_CAUSE.conj, ORR_CONJ_CTL.role, ORR_CONJ_CTL.lead, ORR_CONJ_STAT.tmo, ORR_SIG.sig, ORR_CAUSE.reg, ORR_CONJ_CTL.reg, ORR_CONJ_STAT.reg, ORR_ENGn_BANKV.reg, ORR_ENGn_CTL.reg, ORR_ENGn_STAT.reg, ORR_ENGn_TAk.reg, ORR_SIG.reg]
  omega

theorem engPc_clear (n : Fin 8) (k : Fin 4) : (ORR_ENGn_STAT.pc n).clear (ORR_ENGn_STAT.state n) = true ∧ (ORR_ENGn_STAT.pc n).clear (ORR_ENGn_STAT.bank n) = true ∧
    (ORR_ENGn_STAT.pc n).clear (ORR_ENGn_CTL.run n) = true ∧ (ORR_ENGn_STAT.pc n).clear (ORR_ENGn_TAk.t n k) = true ∧
    (ORR_ENGn_STAT.pc n).clear (ORR_ENGn_BANKV.valid n) = true ∧ (ORR_ENGn_STAT.pc n).clear ORR_CONJ_CTL.role = true ∧
    (ORR_ENGn_STAT.pc n).clear ORR_CONJ_CTL.lead = true ∧ (ORR_ENGn_STAT.pc n).clear ORR_SIG.sig = true := by
  simp only [Fld.clear_iff, Fld.span, true_and,
    ORR_ENGn_STAT.state, ORR_ENGn_STAT.pc, ORR_ENGn_STAT.bank, ORR_ENGn_CTL.run, ORR_ENGn_TAk.t, ORR_ENGn_BANKV.valid, ORR_CONJ_CTL.role, ORR_CONJ_CTL.lead, ORR_SIG.sig, ORR_CONJ_CTL.reg, ORR_ENGn_BANKV.reg, ORR_ENGn_CTL.reg, ORR_ENGn_STAT.reg, ORR_ENGn_TAk.reg, ORR_SIG.reg]
  omega

theorem engTa_clear (n : Fin 8) (k : Fin 4) : (ORR_ENGn_TAk.t n k).clear (ORR_ENGn_STAT.state n) = true ∧ (ORR_ENGn_TAk.t n k).clear (ORR_ENGn_STAT.bank n) = true ∧
    (ORR_ENGn_TAk.t n k).clear (ORR_ENGn_STAT.pc n) = true ∧ (ORR_ENGn_TAk.t n k).clear (ORR_ENGn_CTL.run n) = true ∧
    (ORR_ENGn_TAk.t n k).clear (ORR_ENGn_BANKV.valid n) = true ∧ (ORR_ENGn_TAk.t n k).clear ORR_CONJ_CTL.role = true ∧
    (ORR_ENGn_TAk.t n k).clear ORR_CONJ_CTL.lead = true ∧ (ORR_ENGn_TAk.t n k).clear ORR_SIG.sig = true := by
  simp only [Fld.clear_iff, Fld.span,
    ORR_ENGn_STAT.state, ORR_ENGn_STAT.pc, ORR_ENGn_STAT.bank, ORR_ENGn_CTL.run, ORR_ENGn_TAk.t, ORR_ENGn_BANKV.valid, ORR_CONJ_CTL.role, ORR_CONJ_CTL.lead, ORR_SIG.sig, ORR_CONJ_CTL.reg, ORR_ENGn_BANKV.reg, ORR_ENGn_CTL.reg, ORR_ENGn_STAT.reg, ORR_ENGn_TAk.reg, ORR_SIG.reg]
  omega

theorem engRun_clear (n : Fin 8) : (ORR_ENGn_CTL.run n).clear (ORR_ENGn_STAT.state n) = true ∧ (ORR_ENGn_CTL.run n).clear ORR_CAUSE.bad_op = true ∧
    (ORR_ENGn_CTL.run n).clear ORR_CAUSE.conj = true ∧ (ORR_ENGn_CTL.run n).clear ORR_CONJ_STAT.tmo = true := by
  simp only [Fld.clear_iff, Fld.span,
    ORR_ENGn_STAT.state, ORR_ENGn_CTL.run, ORR_CAUSE.bad_op, ORR_CAUSE.conj, ORR_CONJ_STAT.tmo, ORR_CAUSE.reg, ORR_CONJ_STAT.reg, ORR_ENGn_CTL.reg, ORR_ENGn_STAT.reg]
  omega

/-! The rest of the block, and of the Orrery, while engine `n` decodes. -/

/-- The state without its registers, the notes of the ck, engine `n` and the chip's own view of the CONJ line. -/
def State.besideEngine (s : State) (n : Fin 8) : State :=
  { s with regs := [], now := SameCk.reset, orr := { s.orr with eng := s.orr.eng.set n.val Engine.reset, conjLow := false, conjHigh := false } }

theorem State.engine_of_besideEngine (h : u.besideEngine n = s.besideEngine n) (hm : m ≠ n) : u.engine m = s.engine m := by
  have he := congrArg (fun v : State => v.orr.eng[m.val]) h
  have hv : n.val ≠ m.val := fun e => hm (Fin.ext e.symm)
  simpa [State.besideEngine, State.engine, Vector.getElem_set_ne, hv] using he

/-- What a word of engine `n` leaves as it was. -/
theorem State.rest_of_besideEngine (h : u.besideEngine n = s.besideEngine n) : u = { s with orr := u.orr, regs := u.regs, now := u.now } ∧
    u.orr.events = s.orr.events ∧ u.orr.idle = s.orr.idle ∧ ∀ m : Fin 8, m ≠ n → u.engine m = s.engine m := by
  refine ⟨?_, congrArg (·.orr.events) h, congrArg (·.orr.idle) h, fun m hm => State.engine_of_besideEngine h hm⟩
  cases u
  cases s
  simp only [State.besideEngine, State.mk.injEq] at h
  simp [h]

@[simp] theorem State.besideEngine_put (f : Fld) (v : Nat) : (s.put f v).besideEngine n = s.besideEngine n := by rw [State.put_eq]; rfl
@[simp] theorem State.besideEngine_raiseBit (f : Fld) (i : Nat) : (s.raiseBit f i).besideEngine n = s.besideEngine n := State.besideEngine_put ..
@[simp] theorem State.besideEngine_withEngine (f : Engine → Engine) : (s.withEngine n f).besideEngine n = s.besideEngine n := by
  simp [State.besideEngine, State.withEngine]
@[simp] theorem State.besideEngine_syncConj : s.syncConj.besideEngine n = s.besideEngine n := rfl

@[simp] theorem State.engine_put (f : Fld) (v : Nat) : (s.put f v).engine m = s.engine m := by simp [State.engine]
@[simp] theorem State.engine_withEngine (f : Engine → Engine) : (s.withEngine n f).engine n = f (s.engine n) := by
  simp [State.engine, State.withEngine]
@[simp] theorem State.engine_syncConj : s.syncConj.engine m = s.engine m := rfl

@[simp] theorem State.get_syncConj (g : Fld) : s.syncConj.get g = s.get g := State.get_of_regs (s := s) (t := s.syncConj) rfl g
@[simp] theorem wordsKept_withEngine {as : List Nat} (f : Engine → Engine) : WordsKept s (t.withEngine n f) as ↔ WordsKept s t as := wordsKept_of_regs rfl

/-! Decoding of one word: the engine notes the ck (R39). -/

/-- The engine has decoded a word in this ck. -/
def State.wordDecoded (s : State) (n : Fin 8) : State := s.withEngine n fun e => { e with dec := s.tb.mono }

theorem State.nextDecode_eq (h : s.after (s.engine n).dec = true) : s.nextDecode n = s.wordDecoded n := by
  have hpos : (s.mono - (s.orr.eng[n.val]).dec).toInt > 0 := of_decide_eq_true h
  simp only [State.nextDecode, State.withEngine, State.wordDecoded, if_pos hpos]
  rfl

@[simp] theorem State.wordDecoded_engine : (s.wordDecoded n).engine n = { s.engine n with dec := s.tb.mono } := State.engine_withEngine ..
@[simp] theorem State.wordDecoded_tb : (s.wordDecoded n).tb = s.tb := rfl
@[simp] theorem State.wordDecoded_get (g : Fld) : (s.wordDecoded n).get g = s.get g := State.get_withEngine ..
@[simp] theorem Regs.wf_wordDecoded : Regs.wf (s.wordDecoded n) = Regs.wf s := Regs.wf_withEngine ..
@[simp] theorem State.wordDecoded_besideEngine : (s.wordDecoded n).besideEngine n = s.besideEngine n := State.besideEngine_withEngine ..
@[simp] theorem State.wordDecoded_words {as : List Nat} : WordsKept s (s.wordDecoded n) as := fun _ _ => rfl
@[simp] theorem State.wordDecoded_ta : (s.wordDecoded n).ta n k = s.ta n k := State.wordDecoded_get ..
@[simp] theorem State.wordDecoded_engPc : (s.wordDecoded n).engPc n = s.engPc n := State.wordDecoded_get ..

@[simp] theorem State.wordDecoded_atNow (i : Nat) : (s.wordDecoded n).atNow i = s.atNow i :=
  State.atNow_congr rfl (State.wordDecoded_get _) (State.wordDecoded_get _) (State.wordDecoded_get _)

/-- A word that is no action, with no group open, acts in the ck of its decode. -/
theorem State.decode_eq (hd : s.decoding n = true) (hg : (s.engine n).group = none) (ha : s.after (s.engine n).dec = true) (f : State → State) :
    s.decode n f = .next (f (s.wordDecoded n)) := by
  rw [State.decode, if_pos hd, State.endGroup, hg]
  simp only [State.nextDecode_eq ha]

/-- NT with nanoseconds in range is the NT of its count (R23). -/
theorem NT.ofTotal_total {x : NT} (h : x.ns ≤ 999999999) : NT.ofTotal x.total = x := by
  obtain ⟨sec, ns, frac⟩ := x
  have hf : frac.toNat < 1099511627776 := frac.isLt.trans_eq (by norm_num)
  have hF : Config.ntFrac = 1099511627776 := by norm_num [Config.ntFrac]
  simp only at h
  have hsec : (sec.toNat * 1000000000 + ns) / 1000000000 = sec.toNat := by omega
  have hns : (sec.toNat * 1000000000 + ns) % 1000000000 = ns := by omega
  have hq : ((sec.toNat * 1000000000 + ns) * 1099511627776 + frac.toNat) / 1099511627776 = sec.toNat * 1000000000 + ns := by
    rw [Nat.mul_comm, Nat.mul_add_div (by norm_num), Nat.div_eq_of_lt hf, Nat.add_zero]
  have hr : ((sec.toNat * 1000000000 + ns) * 1099511627776 + frac.toNat) % 1099511627776 = frac.toNat := by
    rw [Nat.mul_comm, Nat.mul_add_mod, Nat.mod_eq_of_lt hf]
  simp only [NT.ofTotal, NT.total, hF, hq, hr, hsec, hns, BitVec.ofNat_toNat, BitVec.setWidth_eq]

/-- In the ck of its decode a word sees the present air time (R24, R39). -/
theorem State.airAtDecode_eq (hd : (s.engine n).dec = s.tb.mono) (hns : s.tb.nt.ns ≤ 999999999) : s.airAtDecode n = s.atNow (s.engine n).tl := by
  simp [State.airAtDecode, State.airIn, State.decodeAhead, hd, State.mono, State.atNow, NT.ofTotal_total hns]

/-! Going on to the next word: time registers, pc, loops and the ck of the decode alone (R41). -/

/-- What going on to the next word keeps. -/
structure GoesOnTo (n : Fin 8) (s u : State) : Prop where
  wf : Regs.wf s = true → Regs.wf u = true
  beside : u.besideEngine n = s.besideEngine n
  tb : u.tb = s.tb
  engine : ∃ dec ls, u.engine n = { s.engine n with dec := dec, loops := ls }
  get : Regs.wf s = true → ∀ g : Fld, (∀ k : Fin 4, (ORR_ENGn_TAk.t n k).clear g = true) → (ORR_ENGn_STAT.pc n).clear g = true → u.get g = s.get g

theorem GoesOnTo.refl (s : State) : GoesOnTo n s s := ⟨id, rfl, rfl, ⟨_, _, rfl⟩, fun _ _ _ _ => rfl⟩

theorem GoesOnTo.trans (h : GoesOnTo n s t) (h' : GoesOnTo n t u) : GoesOnTo n s u := by
  obtain ⟨dec, ls, he⟩ := h.engine
  obtain ⟨dec', ls', he'⟩ := h'.engine
  exact ⟨fun hw => h'.wf (h.wf hw), h'.beside.trans h.beside, h'.tb.trans h.tb, ⟨dec', ls', by rw [he', he]⟩,
    fun hw g ht hp => (h'.get (h.wf hw) g ht hp).trans (h.get hw g ht hp)⟩

theorem GoesOnTo.setTa (s : State) (k : Fin 4) (v : Nat) : GoesOnTo n s (s.setTa n k v) :=
  ⟨fun h => Regs.wf_put h .., State.besideEngine_put .., State.put_tb .., ⟨(s.engine n).dec, (s.engine n).loops, State.engine_put ..⟩,
    fun h _ ht _ => State.get_put_clear h v (ht k)⟩

theorem GoesOnTo.afterDecode (s : State) (k : Nat) : GoesOnTo n s (s.afterDecode n k) :=
  ⟨fun h => (Regs.wf_withEngine ..).trans h, State.besideEngine_withEngine .., rfl, ⟨_, (s.engine n).loops, State.engine_withEngine ..⟩,
    fun _ _ _ _ => State.get_withEngine ..⟩

theorem State.loopBack_goesOn (pc : Nat) (ls : List Loop) : GoesOnTo n s (s.loopBack n pc ls).1 := by
  induction ls generalizing s with
  | nil => exact .refl s
  | cons l ls ih =>
    rw [State.loopBack]
    split
    · have hta := GoesOnTo.setTa (n := n) s l.ta (airAdd (s.ta n l.ta) l.period)
      split
      · exact hta.trans (.afterDecode ..)
      · split
        · exact hta.trans (.afterDecode ..)
        · exact hta.trans ih
    · exact .refl s

theorem State.orrNext_goesOn (s : State) (n : Fin 8) : GoesOnTo n s (s.orrNext n) := by
  have hback := State.loopBack_goesOn (n := n) (s := s) (s.engPc n) (s.engine n).loops
  refine hback.trans ⟨fun h => ?_, ?_, ?_, ⟨((s.loopBack n (s.engPc n) (s.engine n).loops).1.engine n).dec, (s.loopBack n (s.engPc n) (s.engine n).loops).2.2, ?_⟩, fun h g _ hp => ?_⟩
  · simp [State.orrNext, h]
  · simp [State.orrNext]
  · simp [State.orrNext]
  · simp [State.orrNext]
  · simp [State.orrNext, State.get_put_clear, h, hp]

/-- With no level open decoding goes on at the next word (R41). -/
theorem State.orrNext_plain (h : (s.engine n).loops = []) :
    s.orrNext n = (s.put (ORR_ENGn_STAT.pc n) ((s.engPc n + 1) % 2048)).withEngine n fun e => { e with loops := [] } := by
  simp only [State.orrNext, h, State.loopBack]

end Sys2Proof.Machine
end

section
/-! ## O10: timetable words that are no actions -/

namespace Sys2Proof.Machine

open Sys2Proof.Claims

variable {s t u : State} {n : Fin 8} {ta : Fin 4}

/-- A word of engine `n` that is no action, of meaning `f`, with no group open and no word decoded in this ck. -/
theorem exec_word (hr : UnitRuns 82 1 11 n s) (hd : s.decoding n = true) (hg : (s.engine n).group = none) (ha : s.after (s.engine n).dec = true)
    (f : State → State) : (insideUnit 82 1 11 n s fun s => s.decode n f) = .next (f (s.wordDecoded n)) := by
  rw [insideUnit_eq hr, State.decode_eq hd hg ha]

/-- Nothing changed but engine `n` and the Orrery's registers. -/
def WordRest (n : Fin 8) (s u : State) : Prop :=
  u = { s with orr := u.orr, regs := u.regs, now := u.now } ∧ u.orr.events = s.orr.events ∧ ∀ m : Fin 8, m ≠ n → u.engine m = s.engine m

theorem wordRest_of_besideEngine (h : u.besideEngine n = s.besideEngine n) : WordRest n s u := by
  obtain ⟨hst, hev, -, hm⟩ := State.rest_of_besideEngine h
  exact ⟨hst, hev, hm⟩

/-- Decoding goes on at the next word, time register `ta` holding `v` where no level is open. -/
def WordOn (n : Fin 8) (ta : Fin 4) (v : Nat) (s u : State) : Prop :=
  WordRest n s u ∧ ((s.engine n).loops = [] → u.ta n ta = v ∧ u.engPc n = (s.engPc n + 1) % 2048)

/-- Going on to the next word after a change of engine `n` and of its registers alone. -/
theorem wordOn_orrNext {v : Nat} (hw : Regs.wf t = true) (hb : t.besideEngine n = s.besideEngine n) (hl : (t.engine n).loops = (s.engine n).loops)
    (hp : t.engPc n = s.engPc n) (hv : (s.engine n).loops = [] → t.ta n ta = v) : WordOn n ta v s (t.orrNext n) := by
  refine ⟨wordRest_of_besideEngine ((t.orrNext_goesOn n).beside.trans hb), fun h0 => ?_⟩
  rw [State.orrNext_plain (hl.trans h0), hp]
  obtain ⟨-, -, -, hpt, -⟩ := engPc_clear n ta
  constructor
  · rw [State.ta, State.get_withEngine, State.get_put_clear hw _ hpt]
    exact hv h0
  · rw [State.engPc, State.get_withEngine, State.get_put hw]
    exact Nat.mod_eq_of_lt (Nat.mod_lt _ (by norm_num))

/-- A time register below 2^33 reads back (R41). -/
theorem State.ta_setTa {v : Nat} (hw : Regs.wf s = true) (hv : v < 2 ^ 33) : (s.setTa n ta v).ta n ta = v :=
  (State.get_put hw ..).trans (Nat.mod_eq_of_lt hv)

/-- The engine has halted (R43). -/
def Halted (n : Fin 8) (s u : State) : Prop :=
  WordRest n s u ∧ (u.engine n).active = false ∧ u.get (ORR_ENGn_CTL.run n) = 0 ∧ u.get (ORR_ENGn_STAT.state n) = 0

theorem State.haltEngine_halted (hw : Regs.wf t = true) (hb : t.besideEngine n = s.besideEngine n) : Halted n s (t.haltEngine n) := by
  have hc := (engState_clear n 0).2.2.1
  refine ⟨wordRest_of_besideEngine (by simp [State.haltEngine, hb]), ?_, ?_, ?_⟩
  · simp [State.haltEngine]
  · simp [State.haltEngine, State.get_put_clear, State.get_put, hw, hc]
  · simp [State.haltEngine, State.get_put, hw]

theorem State.badOp_halted (hw : Regs.wf t = true) (hb : t.besideEngine n = s.besideEngine n) :
    Halted n s (t.badOp n) ∧ ((t.badOp n).get ORR_CAUSE.bad_op).testBit n = true := by
  refine ⟨State.haltEngine_halted (by simp [hw]) (by simp [hb]), ?_⟩
  have hrun := (engRun_clear n).2.1
  obtain ⟨-, -, -, -, -, hstate, -⟩ := engState_clear n 0
  have hbit : ((t.get ORR_CAUSE.bad_op ||| 2 ^ n.val) % 2 ^ ORR_CAUSE.bad_op.w).testBit n = true := by
    rw [Nat.testBit_mod_two_pow]
    simp [ORR_CAUSE.bad_op, n.isLt]
  simpa [State.badOp, State.haltEngine, State.get_put_clear, State.get_raiseBit, State.get_put, hw, hrun, hstate] using hbit

end Sys2Proof.Machine

namespace Sys2Proof.Proofs

open Sys2Proof.Machine Sys2Proof.Claims

/-- Settles O10: each word is a write of a time register, of the loop levels or of the pc, or a halt, in the ck of its decode. -/
theorem timetableControlWords : Obligations.TimetableControlWords := by
  unfold Obligations.TimetableControlWords
  intro s n addr ta t len count period hr h hd hg ha hns rest on halted
  have hwf : Regs.wf (s.wordDecoded n) = true := by simp [h]
  obtain ⟨-, -, hTaPc, -⟩ := engTa_clear n ta
  have setTa_on {v : Nat} (hv : v < 2 ^ 33) : WordOn n ta v s (((s.wordDecoded n).setTa n ta v).orrNext n) :=
    wordOn_orrNext (Regs.wf_put hwf ..) (by simp [State.setTa]) (by simp [State.setTa])
      ((State.get_put_clear hwf _ hTaPc).trans (by simp [State.engPc])) fun _ => State.ta_setTa hwf hv
  have hmod (x : Nat) : x % 5033164800 < 2 ^ 33 := (Nat.mod_lt x (by norm_num)).trans (by norm_num)
  have hjmp : (ORR_ENGn_STAT.pc n).within [ORR_ENGn_STAT.reg n] = true := by simp [Fld.within, Fld.span, ORR_ENGn_STAT.pc]
  refine ⟨?_, ?_, ?_, ?_, ?_, fun hl hlen => ?_, fun hl hlen hc => ?_, ?_, ?_, fun hl => ?_⟩
  · -- NOP
    exact completes_of_exec (exec_word hr hd hg ha _) (wordOn_orrNext hwf (by simp) (by simp) (by simp) fun _ => by simp)
  · -- JMP
    refine completes_of_exec (exec_word hr hd hg ha _) ⟨wordRest_of_besideEngine (by simp), ?_, ?_⟩
    · exact (State.get_put (by simp [h]) ..).trans (Nat.mod_eq_of_lt addr.isLt)
    · simp [wordsKept_put, h, hjmp]
  · -- SETT
    exact completes_of_exec (exec_word hr hd hg ha _) (setTa_on t.isLt)
  · -- ADDT
    refine completes_of_exec (exec_word hr hd hg ha _) ?_
    rw [State.wordDecoded_ta]
    exact setTa_on (hmod _)
  · -- NEXTF
    refine completes_of_exec (exec_word hr hd hg ha _) ?_
    rw [State.airAtDecode_eq (by simp) (by simpa using hns)]
    rw [State.wordDecoded_atNow, State.wordDecoded_engine]
    exact setTa_on (hmod _)
  · -- EVERY with a body
    refine completes_of_exec (exec_word hr hd hg ha _) ?_
    have hlen' : ¬len = 0#8 := hlen
    rw [if_neg (by simpa using hl), if_neg (by simp [hlen'])]
    simp only [hlen, if_false, State.wordDecoded_engPc]
    refine ⟨wordRest_of_besideEngine (by simp), ?_, by simp⟩
    rw [State.engPc, State.get_withEngine, State.get_put hwf]
    exact Nat.mod_eq_of_lt (Nat.mod_lt _ (by norm_num))
  · -- EVERY with no body
    refine completes_of_exec (exec_word hr hd hg ha _) ?_
    have hc' : ¬count = 0#16 := hc
    rw [if_neg (by simpa using hl), if_pos (by simp [hlen, hc']), State.wordDecoded_ta]
    refine wordOn_orrNext (by simp [State.afterDecode, State.setTa, h]) (by simp [State.afterDecode, State.setTa]) (by simp [State.afterDecode, State.setTa])
      ?_ fun _ => ?_
    · simp [State.afterDecode, State.setTa, State.engPc, State.get_put_clear, h, hTaPc]
    · exact (State.get_withEngine ..).trans (State.ta_setTa hwf (hmod _))
  · -- HALT
    exact completes_of_exec (exec_word hr hd hg ha _) (State.haltEngine_halted hwf (by simp))
  · -- a reserved opcode
    exact completes_of_exec (exec_word hr hd hg ha _) (State.badOp_halted hwf (by simp))
  · -- a fifth level
    refine completes_of_exec (exec_word hr hd hg ha _) ?_
    rw [if_pos (by simp [hl])]
    exact State.badOp_halted hwf (by simp)

end Sys2Proof.Proofs
end

section
/-! ## O11: a CONJ word at the end of an EVERY body takes T_s one ck late

`execConj` goes on to the next word before it takes at_now + lead, and where the word ends an EVERY body the loop-back moves the ck of the next decode
(R39, R41), by which `airAtDecode` reads the air time.  So the instant is that of the next ck, and the statement, which takes at_now of the
decode for every loop nesting, fails in a ck that ends an air tick. -/

namespace Sys2Proof.Proofs

open Sys2Proof.Machine Sys2Proof.Claims

/-- Timeline 0 counts and its first air tick ends in the next ck (2 ns, 1,536 at in 3,125 ns); engine 0 decodes word 0, the whole body of an EVERY. -/
def conjAtBodyEnd : State :=
  (((State.reset.put (TMB_ATn_CFG.en 0) 1).put (ORR_ENGn_CTL.run 0) 1).withTb fun t => { t with nt := ⟨0, 2, 0⟩, mono := 5 }).withEngine 0 fun e =>
    { e with active := true, loops := [⟨0, 1, none, 0, 0⟩] }

/-- The time register that the instant of a CONJ is written to, in the state that the command answers. -/
def ta0AfterConj (s : State) : Nat :=
  match exec (.conj 0 0) s with
  | .next u => u.ta 0 0
  | _ => 0

theorem conjAtBodyEnd_runs : UnitRuns 82 1 11 0 conjAtBodyEnd := by
  have hruns : Runs 82 1 conjAtBodyEnd := ⟨by decide +kernel, by decide +kernel, by decide +kernel, by decide +kernel, fun h => absurd h (by decide)⟩
  exact ⟨hruns, by decide +kernel, by decide +kernel⟩

theorem conjAtBodyEnd_ta0 : ta0AfterConj conjAtBodyEnd =
    (conjAtBodyEnd.atNow (conjAtBodyEnd.engine 0).tl + conjAtBodyEnd.get ORR_CONJ_CTL.lead) % 5033164800 + 1 := by decide +kernel

/-- Refutes O11: with role 0, CONJ as the last word of an EVERY body writes the air time of the next ck, plus lead, to ta0, one at more than at_now + lead
of the state in which the word is decoded. -/
theorem not_timetableGroupsOpenAndFill : ¬ Obligations.TimetableGroupsOpenAndFill := by
  unfold Obligations.TimetableGroupsOpenAndFill
  rintro ⟨hwords, -⟩
  obtain ⟨-, -, hconj, -⟩ := hwords conjAtBodyEnd 0 0 0 0 conjAtBodyEnd_runs (by decide +kernel) (by decide +kernel) (by decide +kernel)
    (by decide +kernel) (by decide +kernel)
  obtain ⟨u, hu, -, hta, -⟩ := hconj (.inl (by decide +kernel))
  have hta0 := conjAtBodyEnd_ta0
  rw [ta0AfterConj, hu] at hta0
  exact absurd (hta0.symm.trans hta) (by omega)

end Sys2Proof.Proofs
end

section
/-! ## O12: groups launch and signal -/

namespace Sys2Proof.Machine

open Sys2Proof.Claims

variable {s t u : State} {n : Fin 8}

/-- The field lies in the job table. -/
def Fld.inJobTable (g : Fld) : Prop := ORR_JOBTj.reg 0 ≤ g.span.1 ∧ g.span.1 + 4 * g.span.2.2 ≤ ORR_JOBTj.reg 1024

theorem jobTable_fields {j : Nat} (hj : j < 1024) : (ORR_JOBTj.kind j).inJobTable ∧ (ORR_JOBTj.desc j).inJobTable ∧ (ORR_JOBTj.first j).inJobTable ∧
    (ORR_JOBTj.span j).inJobTable ∧ (ORR_JOBTj.flag j).inJobTable := by
  simp only [Fld.inJobTable, Fld.span, ORR_JOBTj.kind, ORR_JOBTj.desc, ORR_JOBTj.first, ORR_JOBTj.span, ORR_JOBTj.flag, ORR_JOBTj.reg]
  omega

/-- What the actions of a launch leave as it was, and what they only add to (R40, R41). -/
structure LaunchKeeps (s u : State) : Prop where
  wf : Regs.wf s = true → Regs.wf u = true
  mem : u.mem = s.mem
  tiles : u.tiles = s.tiles
  tb : u.tb = s.tb
  cx : u.cx = s.cx
  eng : u.orr.eng = s.orr.eng
  events : ∀ e ∈ s.orr.events, e ∈ u.orr.events
  sig : Regs.wf s = true → ∀ k, (s.get ORR_SIG.sig).testBit k = true → (u.get ORR_SIG.sig).testBit k = true
  jobs : Regs.wf s = true → ∀ g : Fld, g.inJobTable → u.get g = s.get g

theorem LaunchKeeps.refl (s : State) : LaunchKeeps s s := ⟨id, rfl, rfl, rfl, rfl, rfl, fun _ => id, fun _ _ => id, fun _ _ _ => rfl⟩

theorem LaunchKeeps.trans (h : LaunchKeeps s t) (h' : LaunchKeeps t u) : LaunchKeeps s u :=
  ⟨fun hw => h'.wf (h.wf hw), h'.mem.trans h.mem, h'.tiles.trans h.tiles, h'.tb.trans h.tb, h'.cx.trans h.cx, h'.eng.trans h.eng,
    fun e he => h'.events e (h.events e he), fun hw k hk => h'.sig (h.wf hw) k (h.sig hw k hk), fun hw g hg => (h'.jobs (h.wf hw) g hg).trans (h.jobs hw g hg)⟩

/-- Steps that keep this, one after another. -/
theorem LaunchKeeps.foldl {α : Type} {f : State → α → State} (hf : ∀ s a, LaunchKeeps s (f s a)) (l : List α) (s : State) : LaunchKeeps s (l.foldl f s) := by
  induction l generalizing s with
  | nil => exact .refl s
  | cons a l ih => exact (hf s a).trans (ih (f s a))

/-- A register write outside the job table and the signals. -/
theorem LaunchKeeps.put (s : State) {f : Fld} (v : Nat) (hs : f.clear ORR_SIG.sig = true) (hj : ∀ g : Fld, g.inJobTable → f.clear g = true) :
    LaunchKeeps s (s.put f v) :=
  ⟨fun h => Regs.wf_put h .., State.put_mem .., State.put_tiles .., State.put_tb .., State.put_cx .., by simp, by simp,
    fun h k hk => by rwa [State.get_put_clear h v hs], fun h g hg => State.get_put_clear h v (hj g hg)⟩

/-- The field lies above the Orrery's registers. -/
theorem LaunchKeeps.putAbove (s : State) {f : Fld} (v : Nat) (hf : ORR_JOBTj.reg 1024 ≤ f.span.1) : LaunchKeeps s (s.put f v) := by
  refine .put s v ?_ fun g hg => ?_
  · simp only [Fld.clear_iff, Fld.span, ORR_SIG.sig, ORR_SIG.reg, ORR_JOBTj.reg] at hf ⊢
    omega
  · simp only [Fld.inJobTable] at hg
    rw [Fld.clear_iff]
    omega

theorem LaunchKeeps.withRxc (s : State) (c : Fin 64) (f : RxChain → RxChain) : LaunchKeeps s (s.withRxc c f) :=
  have hget (g : Fld) : (s.withRxc c f).get g = s.get g := State.get_of_regs (s := s) (t := s.withRxc c f) rfl g
  ⟨id, rfl, rfl, rfl, rfl, rfl, fun _ => id, fun _ k hk => by rwa [hget], fun _ g _ => hget g⟩

theorem LaunchKeeps.withOrr (s : State) (f : Orrery → Orrery) (he : (f s.orr).eng = s.orr.eng) (hv : ∀ e ∈ s.orr.events, e ∈ (f s.orr).events) :
    LaunchKeeps s (s.withOrr f) :=
  have hget (g : Fld) : (s.withOrr f).get g = s.get g := State.get_of_regs (s := s) (t := s.withOrr f) rfl g
  ⟨id, rfl, rfl, rfl, rfl, he, hv, fun _ k hk => by rwa [hget], fun _ g _ => hget g⟩

theorem LaunchKeeps.eventAt (s : State) (due : BitVec 64) (k : EventKind) : LaunchKeeps s (s.eventAt due k) :=
  .withOrr s _ rfl fun _ he => List.mem_append_left _ he

/-- The AGC's freeze and release write the chain's gain register alone (R175). -/
theorem State.agcFreeze_keeps (s : State) (f : Bool) (c : Fin 64) : LaunchKeeps s (s.agcFreeze f c) := by
  have hput (s : State) (g : Fld) (v : Nat) (hg : g = DFE_RXc_GAIN.fz_tt c ∨ g = DFE_RXc_GAIN.fz_det c) : LaunchKeeps s (s.put g v) := by
    refine .putAbove s v ?_
    rcases hg with rfl | rfl <;>
      simp only [ORR_JOBTj.reg, Fld.span, DFE_RXc_GAIN.fz_tt, DFE_RXc_GAIN.fz_det, DFE_RXc_GAIN.reg] <;> omega
  have htt (v : Nat) := hput s _ v (.inl rfl)
  have hboth := (htt 0).trans (hput _ _ 0 (.inr rfl))
  unfold State.agcFreeze
  split
  · exact (htt 1).trans (.withRxc ..)
  · extract_lets u
    split
    · split
      · split
        · exact htt 0
        · exact hboth.trans (.withRxc ..)
      · exact hboth.trans (.withRxc ..)
    · exact hboth.trans (.withRxc ..)

/-- A snap of the noise-floor meter writes the chain's meter register alone (R177). -/
theorem State.nfSnap_keeps (s : State) (c : Fin 64) : LaunchKeeps s (s.nfSnap c) := by
  have hput (s : State) (g : Fld) (v : Nat) (hg : g = DFE_RXc_NF.n c ∨ g = DFE_RXc_NF.sum c) : LaunchKeeps s (s.put g v) := by
    refine .putAbove s v ?_
    rcases hg with rfl | rfl <;>
      simp only [ORR_JOBTj.reg, Fld.span, DFE_RXc_NF.n, DFE_RXc_NF.sum, DFE_RXc_NF.reg] <;> omega
  unfold State.nfSnap
  extract_lets x u
  exact ((hput s _ _ (.inl rfl)).trans (hput _ _ _ (.inr rfl))).trans (.withRxc ..)

/-- A signal sets its own bit (R41). -/
theorem State.signal_keeps (s : State) (k : Fin 32) : LaunchKeeps s (s.raiseBit ORR_SIG.sig k) := by
  have hget (h : Regs.wf s = true) : (s.raiseBit ORR_SIG.sig k).get ORR_SIG.sig = (s.get ORR_SIG.sig ||| 2 ^ k.val) % 2 ^ 32 :=
    (State.get_raiseBit ..).trans (State.get_put h ..)
  refine ⟨fun h => by simp [h], State.raiseBit_mem .., State.raiseBit_tiles .., State.raiseBit_tb .., State.raiseBit_cx .., by simp, by simp,
    fun h j hj => ?_, fun h g hg => ?_⟩
  · have hlt : j < 32 := by
      by_contra hge
      rw [Nat.testBit_lt_two_pow ((State.get_lt s ORR_SIG.sig).trans_le (Nat.pow_le_pow_right (by norm_num) (not_lt.mp hge)))] at hj
      exact absurd hj (by simp)
    rw [hget h, Nat.testBit_mod_two_pow, Nat.testBit_or, hj]
    simp [hlt]
  · rw [State.get_raiseBit]
    refine State.get_put_clear h _ ?_
    simp only [Fld.inJobTable, ORR_JOBTj.reg, Fld.clear_iff, Fld.span, ORR_SIG.sig, ORR_SIG.reg] at hg ⊢
    omega

theorem State.signal_set (h : Regs.wf s = true) (k : Fin 32) : ((s.raiseBit ORR_SIG.sig k).get ORR_SIG.sig).testBit k = true := by
  have hget : (s.raiseBit ORR_SIG.sig k).get ORR_SIG.sig = (s.get ORR_SIG.sig ||| 2 ^ k.val) % 2 ^ 32 := (State.get_raiseBit ..).trans (State.get_put h ..)
  rw [hget, Nat.testBit_mod_two_pow]
  simp

/-- The event of an ISSUE of a kind 0 entry without a descriptor (R41). -/
def issueEvent (s : State) (base : BitVec 64) (j : Nat) : Event :=
  ⟨base + 14, .tileFlag (s.get (ORR_JOBTj.first j)) (s.get (ORR_JOBTj.span j)) (s.get (ORR_JOBTj.flag j))⟩

theorem State.issueJob_keeps (s : State) (tl : Fin 8) (base : BitVec 64) (air j d : Nat) : LaunchKeeps s (s.issueJob tl base air j d) := by
  unfold State.issueJob
  extract_lets first span cl desc dl
  split
  · split <;> exact .eventAt ..
  · split
    · exact .refl s
    · exact .eventAt ..
  · split
    · exact .refl s
    · exact .eventAt ..
  · exact .refl s

theorem State.issueJob_event (s : State) (tl : Fin 8) (base : BitVec 64) (air j d : Nat) (hk : s.get (ORR_JOBTj.kind j) = 0) (hd : s.get (ORR_JOBTj.desc j) = 0) :
    issueEvent s base j ∈ (s.issueJob tl base air j d).orr.events := by
  simp [State.issueJob, hk, hd, State.eventAt, issueEvent]

/-- An action that is no SCAN takes effect, and nothing it does undoes another's (R40, R41). -/
theorem State.launchAct_keeps (s : State) (n : Fin 8) (base : BitVec 64) (air : Nat) {a : Act} (ha : ∀ x m, a ≠ .scan x m) :
    ∃ u, s.launchAct n base air a = .next u ∧ LaunchKeeps s u ∧
      (Regs.wf s = true → ∀ k, a = .sig k → (u.get ORR_SIG.sig).testBit k = true) ∧
      ∀ j d, a = .issue j d → s.get (ORR_JOBTj.kind j.toNat) = 0 → s.get (ORR_JOBTj.desc j.toNat) = 0 → issueEvent s base j.toNat ∈ u.orr.events := by
  cases a with
  | issue j d => exact ⟨_, rfl, s.issueJob_keeps .., by simp, by rintro _ _ ⟨rfl, rfl⟩ hk hd; exact s.issueJob_event _ _ _ _ _ hk hd⟩
  | scan x m => exact absurd rfl (ha x m)
  | idle set len =>
    refine ⟨_, rfl, ?_, by simp, by simp⟩
    split
    · exact .refl s
    · exact .withOrr s _ rfl fun _ => id
  | agcf g f =>
    refine ⟨_, rfl, ?_, by simp, by simp⟩
    split
    · exact .foldl (fun s c => s.agcFreeze_keeps f c) ..
    · exact .refl s
  | nfsnap g =>
    refine ⟨_, rfl, ?_, by simp, by simp⟩
    split
    · exact .foldl State.nfSnap_keeps ..
    · exact .refl s
  | sig k => exact ⟨_, rfl, s.signal_keeps k, by rintro h _ ⟨rfl⟩; exact State.signal_set h k, by simp⟩

/-- A list of actions without SCAN takes effect, every signal and every event of it standing at the end. -/
theorem State.launchActs_keeps (s : State) (n : Fin 8) (base : BitVec 64) (air : Nat) (as : List Act) (ha : ∀ x m, Act.scan x m ∉ as) :
    ∃ u, s.launchActs n base air as = .next u ∧ LaunchKeeps s u ∧
      (Regs.wf s = true → ∀ k, Act.sig k ∈ as → (u.get ORR_SIG.sig).testBit k = true) ∧
      (Regs.wf s = true → ∀ j d, Act.issue j d ∈ as → s.get (ORR_JOBTj.kind j.toNat) = 0 → s.get (ORR_JOBTj.desc j.toNat) = 0 →
        issueEvent s base j.toNat ∈ u.orr.events) := by
  induction as generalizing s with
  | nil => exact ⟨s, rfl, .refl s, by simp, by simp⟩
  | cons a as ih =>
    obtain ⟨t, ht, hkeep, hsig, hissue⟩ := s.launchAct_keeps n base air (a := a) fun x m e => ha x m (by simp [e])
    obtain ⟨u, hu, hkeep', hsig', hissue'⟩ := ih t fun x m hm => ha x m (by simp [hm])
    refine ⟨u, by rw [State.launchActs, ht, andThen_next, hu], hkeep.trans hkeep', fun hw k hk => ?_, fun hw j d hj hkind hdesc => ?_⟩
    · rcases List.mem_cons.mp hk with rfl | hk
      · exact hkeep'.sig (hkeep.wf hw) k (hsig hw k rfl)
      · exact hsig' (hkeep.wf hw) k hk
    · rcases List.mem_cons.mp hj with rfl | hj
      · exact hkeep'.events _ (hissue j d rfl hkind hdesc)
      · obtain ⟨gk, gd, gf, gs, gg⟩ := jobTable_fields j.isLt
        have hev := hissue' (hkeep.wf hw) j d hj ((hkeep.jobs hw _ gk).trans hkind) ((hkeep.jobs hw _ gd).trans hdesc)
        rwa [issueEvent, hkeep.jobs hw _ gf, hkeep.jobs hw _ gs, hkeep.jobs hw _ gg] at hev

/-- A group whose instant was noted already stays as it is (R25). -/
theorem State.markReached_noted {g : Group} {t0 : Nat} {r : BitVec 64} (hg : (s.engine n).group = some g) (hi : g.inst = .at t0) (hr : g.reached = some r) :
    s.markReached n = s := by
  obtain ⟨inst, conj, acts, last, reached⟩ := g
  simp only at hi hr
  subst hi hr
  simp [State.markReached, hg]

theorem State.setWords_withEngine (a k v : Nat) (f : Engine → Engine) : (s.setWords a k v).withEngine n f = (s.withEngine n f).setWords a k v := by
  induction k generalizing s a v with
  | zero => rfl
  | succ k ih => exact ih (s := s.setWord a (BitVec.ofNat 32 v)) (a + 4) (v / 2 ^ 32)

/-- A register write and a change of an engine do not meet. -/
theorem State.put_withEngine (g : Fld) (v : Nat) (f : Engine → Engine) : (s.put g v).withEngine n f = (s.withEngine n f).put g v := by
  unfold State.put
  simp only
  rw [State.setWords_withEngine, State.words_of_regs (s := s) (t := s.withEngine n f) rfl]

theorem State.withEngine_withEngine (f g : Engine → Engine) : (s.withEngine n f).withEngine n g = s.withEngine n fun e => g (f e) := by
  simp [State.withEngine]

theorem andThen_pure (r : Res) : (andThen r fun s => .next s) = r := by cases r <;> rfl

/-- The state in which the group of engine `n` has left the engine, its sets taken out to launch (R38, R39). -/
def State.groupLeft (s : State) (n : Fin 8) (r : BitVec 64) : State :=
  ((s.withEngine n fun e => { e with group := none, dec := if (r - e.dec).toInt > 0 then r else e.dec, launching := [] }).put (ORR_ENGn_STAT.state n) 1)

/-- A group whose instant was reached less than 16 ck after its last decode is late (R39). -/
theorem exec_groupLaunch_late {g : Group} {t0 : Nat} {r : BitVec 64} (hu : UnitRuns 82 1 11 n s) (hg : (s.engine n).group = some g) (hi : g.inst = .at t0)
    (hr : g.reached = some r) (hlate : (r - g.last).toInt < 16) : exec (.groupLaunch n) s = .fault .instantPast := by
  change execGroupLaunch n s = _
  rw [execGroupLaunch, insideUnit_eq hu]
  simp only [State.markReached_noted hg hi hr, hg, hi, hr, State.leave, hlate, decide_true, faultIf_true, andThen_fault]

/-- A group in time launches its actions from the state that it has left. -/
theorem exec_groupLaunch {g : Group} {t0 : Nat} {r : BitVec 64} (hu : UnitRuns 82 1 11 n s) (hg : (s.engine n).group = some g) (hi : g.inst = .at t0)
    (hr : g.reached = some r) (hin : 16 ≤ (r - g.last).toInt) (hpast : 0 < (s.tb.mono - r).toInt) (hl : (s.engine n).launching = []) (h8 : g.acts.length ≤ 8) :
    exec (.groupLaunch n) s = (s.groupLeft n r).launchActs n r t0 g.acts := by
  change execGroupLaunch n s = _
  rw [execGroupLaunch, insideUnit_eq hu]
  simp only [State.markReached_noted hg hi hr, hg, hi, hr, State.leave, not_lt.mpr hin, decide_false, faultIf_false, andThen_next]
  rw [State.put_withEngine, State.withEngine_withEngine, State.engine_put, State.engine_withEngine, hl]
  have hafter (u : State) (htb : u.tb = s.tb) : u.after (r + BitVec.ofNat 64 0) = true := by
    simpa [State.after, State.mono, htb] using hpast
  cases hacts : g.acts with
  | nil => rfl
  | cons a as =>
    have htake : (a :: as).take 8 = a :: as := List.take_of_length_le (hacts ▸ h8)
    have hdrop : (a :: as).drop 8 = [] := List.drop_of_length_le (hacts ▸ h8)
    simp only [State.launchAll, State.launchSets, List.isEmpty_cons, List.nil_append, Bool.false_eq_true, if_false, List.length_cons]
    rw [if_pos (hafter _ (by simp)), htake, hdrop, BitVec.add_zero]
    simp only [List.isEmpty_nil, if_true, andThen_pure]
    rfl

end Sys2Proof.Machine

namespace Sys2Proof.Proofs

open Sys2Proof.Machine Sys2Proof.Claims

/-- Settles O12: the group leaves its engine, and its actions act one after another, none undoing what another has set. -/
theorem groupsLaunchAndSignal : Obligations.GroupsLaunchAndSignal := by
  unfold Obligations.GroupsLaunchAndSignal
  intro s n g t0 r hu h hg hi hr
  refine ⟨exec_groupLaunch_late hu hg hi hr, fun hin hpast hl h8 hscan => ?_⟩
  obtain ⟨u, hrun, hkeep, hsig, hissue⟩ := (s.groupLeft n r).launchActs_keeps n r t0 g.acts hscan
  refine completes_of_exec ((exec_groupLaunch hu hg hi hr hin hpast hl h8).trans hrun) ?_
  have hwf : Regs.wf (s.groupLeft n r) = true := by simp [State.groupLeft, h]
  have heng : u.engine n = (s.groupLeft n r).engine n := by simp only [State.engine, hkeep.eng]
  have hjob (g : Fld) (hj : g.inJobTable) : (s.groupLeft n r).get g = s.get g := by
    refine (State.get_put_clear (by simp [h]) _ ?_).trans (State.get_withEngine ..)
    simp only [Fld.inJobTable, ORR_JOBTj.reg, Fld.clear_iff, Fld.span, ORR_ENGn_STAT.state, ORR_ENGn_STAT.reg] at hj ⊢
    omega
  refine ⟨by simp [heng, State.groupLeft], by simp [heng, State.groupLeft], by simp [hkeep.mem, State.groupLeft], ?_, by simp [hkeep.tb, State.groupLeft], ?_, hsig hwf,
    fun j d hj hkind hdesc => ?_⟩
  · rw [hkeep.tiles, State.groupLeft, State.put_tiles]; rfl
  · rw [hkeep.cx, State.groupLeft, State.put_cx]; rfl
  · obtain ⟨gk, gd, gf, gs, gg⟩ := jobTable_fields j.isLt
    have hev := hissue hwf j d hj ((hjob _ gk).trans hkind) ((hjob _ gd).trans hdesc)
    rwa [issueEvent, hjob _ gf, hjob _ gs, hjob _ gg] at hev

end Sys2Proof.Proofs
end

section
/-! ## O13: deliveries of the event network, engine control and the Conjunction line -/

namespace Sys2Proof.Machine

open Sys2Proof.Claims

variable {s t u : State} {n tl : Fin 8}

/-! An event flag of a tile (R74), and of every tile of a list. -/

theorem State.setFlag_tile_same (i : Fin 64) (k : Nat) :
    ((s.setFlag i k).tile i) = { s.tile i with evf := (s.tile i).evf ||| BitVec.ofNat 32 (2 ^ k) } := by
  simp [State.setFlag, State.tile, State.withTile]

theorem State.setFlag_tile_other {i j : Fin 64} (h : i ≠ j) (k : Nat) : (s.setFlag i k).tile j = s.tile j := by
  have hv : i.val ≠ j.val := fun e => h (Fin.ext e)
  simp [State.setFlag, State.tile, State.withTile, Vector.getElem_set_ne, hv]

/-- What an event leaves, G1 not being held in reset. -/
theorem State.setEvf_tile (h : s.held 1 = false) (i j : Fin 64) (k : Nat) : (s.setEvf i k).tile j =
    if i = j then { s.tile i with evf := (s.tile i).evf ||| BitVec.ofNat 32 (2 ^ k) } else s.tile j := by
  have he : (s.setEvf i k).tile j = (s.setFlag i k).tile j := by simp [State.setEvf, h, State.tile, State.markSet]
  rw [he]
  split_ifs with hij
  · rw [← hij, State.setFlag_tile_same]
  · exact State.setFlag_tile_other hij k

theorem State.setFlag_rest (i : Fin 64) (k : Nat) :
    (s.setFlag i k).pwr = s.pwr ∧ (s.setFlag i k).orr = s.orr ∧ (s.setFlag i k).mem = s.mem := by
  cases hb : (s.tile i).evf.getLsbD k <;> simp [State.setFlag, State.raiseIf, hb]

theorem State.setEvf_rest (h : s.held 1 = false) (i : Fin 64) (k : Nat) :
    (s.setEvf i k).pwr = s.pwr ∧ (s.setEvf i k).orr = s.orr ∧ (s.setEvf i k).mem = s.mem := by
  simpa [State.setEvf, h, State.markSet] using State.setFlag_rest (s := s) i k

/-- The event that names the tiles of a list sets the flag of each and leaves the others. -/
theorem State.setEvf_list (k : Nat) (ts : List (Fin 64)) (hn : ts.Nodup) : ∀ s : State, s.held 1 = false →
    let u := ts.foldl (fun s i => s.setEvf i k) s
    u.orr = s.orr ∧ u.mem = s.mem ∧
      ∀ j, u.tile j = if j ∈ ts then { s.tile j with evf := (s.tile j).evf ||| BitVec.ofNat 32 (2 ^ k) } else s.tile j := by
  induction ts with
  | nil => simp
  | cons i ts ih =>
    intro s hs
    obtain ⟨hi, hts⟩ := List.nodup_cons.mp hn
    obtain ⟨hp, ho, hm⟩ := State.setEvf_rest hs i k
    have hheld : (s.setEvf i k).held 1 = false := by simpa [State.held, hp] using hs
    obtain ⟨ho', hm', ht⟩ := ih hts (s.setEvf i k) hheld
    refine ⟨ho'.trans ho, hm'.trans hm, fun j => ?_⟩
    rw [List.foldl_cons, ht j, State.setEvf_tile hs]
    rcases eq_or_ne i j with rfl | hij
    · simp [hi]
    · simp [hij, hij.symm]

theorem ofNat_two_pow_eq_shift : ∀ k : Fin 32, BitVec.ofNat 32 (2 ^ k.val) = (1 : BitVec 32) <<< k.val := by decide

/-- Which tiles are on is a matter of the registers and of the power manager (R306, R320). -/
theorem State.tileOn_of_regs (hr : t.regs = s.regs) (hp : t.pwr = s.pwr) (i : Nat) : t.tileOn i = s.tileOn i := by
  have ha : t.absent 0 i = s.absent 0 i := by rw [State.absent, State.absent, State.flag, State.flag, State.get_of_regs hr]
  rw [State.tileOn, State.tileOn, ha, State.tileDom, State.tileDom, State.phys, State.phys, State.get_of_regs hr, State.domOn, State.domOn, hp]

theorem State.tileOn_withOrr (f : Orrery → Orrery) (i : Nat) : (s.withOrr f).tileOn i = s.tileOn i := State.tileOn_of_regs (State.withOrr_regs _ f) (State.withOrr_pwr _ f) i

/-- The tiles that an event names (R40). -/
def namedTiles (first span : Nat) : List (Fin 64) := (List.finRange 64).filter fun (t : Fin 64) => first ≤ t.val && t.val ≤ first + span

theorem mem_namedTiles {first span : Nat} {t : Fin 64} : t ∈ namedTiles first span ↔ first ≤ t.val ∧ t.val ≤ first + span := by
  simp [namedTiles]

theorem nodup_namedTiles (first span : Nat) : (namedTiles first span).Nodup := (List.nodup_finRange 64).filter _

/-- The delivery of the only event, a tile event that is due (R40). -/
theorem exec_eventDelivery {first span k : Nat} {due : BitVec 64} (h : Runs 82 1 s) (he : s.orr.events = [⟨due, .tileFlag first span k⟩])
    (hd : 0 ≤ (s.tb.mono - due).toInt) : exec .eventDelivery s =
      faultIf (!(namedTiles first span).all fun t => s.tileOn t) .poweredOff
        (.next ((namedTiles first span).foldl (fun s t => s.setEvf t k) (s.withOrr fun o => { o with events := [] }))) := by
  change execEventDelivery s = _
  have hle : monoLe due s.mono = true := decide_eq_true hd
  have hdue : firstDue s.mono [⟨due, .tileFlag first span k⟩] = some (0, due) := by simp [firstDue, hle]
  rw [execEventDelivery, inside_eq h]
  simp only [he, hdue, List.getElem?_cons_zero]
  rw [show (s.withOrr fun o => { o with events := o.events.eraseIdx 0 }) = s.withOrr fun o => { o with events := [] } by simp [State.withOrr, he]]
  simp only [State.deliverEvent, namedTiles, State.tileOn_withOrr]

/-! Control of an engine (R26, R43) and its barrier (R46, R47). -/

theorem engCtl_clear (n : Fin 8) (m : Fin 8) : (ORR_ENGn_CTL.bank n).clear (ORR_ENGn_CTL.at n) = true ∧ (ORR_ENGn_CTL.run n).clear (ORR_ENGn_CTL.at n) = true ∧
    (ORR_ENGn_CTL.run n).clear (ORR_ENGn_CTL.bank n) = true ∧ (ORR_ENGn_CTL.at n).clear (TMB_ATn_CFG.en m) = true ∧
    (ORR_ENGn_CTL.bank n).clear (TMB_ATn_CFG.en m) = true ∧ (ORR_ENGn_CTL.run n).clear (TMB_ATn_CFG.en m) = true := by
  simp only [Fld.clear_iff, Fld.span, true_and, ORR_ENGn_CTL.bank, ORR_ENGn_CTL.at, ORR_ENGn_CTL.run, ORR_ENGn_CTL.reg, TMB_ATn_CFG.en, TMB_ATn_CFG.reg]
  omega

/-- ORR_ENGn_CTL as a write leaves it. -/
def State.ctlWritten (s : State) (n tl : Fin 8) (bank : Fin 2) (run : Bool) : State :=
  ((s.put (ORR_ENGn_CTL.at n) tl).put (ORR_ENGn_CTL.bank n) bank).put (ORR_ENGn_CTL.run n) run.toNat

/-- The fields that a write of ORR_ENGn_CTL stores. -/
theorem State.ctlWritten_fields (h : Regs.wf s = true) (n tl : Fin 8) (bank : Fin 2) (run : Bool) :
    let u := s.ctlWritten n tl bank run
    Regs.wf u = true ∧ u.mem = s.mem ∧ u.engine n = s.engine n ∧ u.timelineOn tl = s.timelineOn tl ∧
      u.get (ORR_ENGn_CTL.at n) = tl.val ∧ u.get (ORR_ENGn_CTL.bank n) = bank.val ∧ u.get (ORR_ENGn_CTL.run n) = run.toNat := by
  obtain ⟨hba, hra, hrb, ha, hb, hr⟩ := engCtl_clear n tl
  have htl : tl.val % 2 ^ (ORR_ENGn_CTL.at n).w = tl.val := Nat.mod_eq_of_lt tl.isLt
  have hbank : bank.val % 2 ^ (ORR_ENGn_CTL.bank n).w = bank.val := Nat.mod_eq_of_lt bank.isLt
  have hrun : run.toNat % 2 ^ (ORR_ENGn_CTL.run n).w = run.toNat := Nat.mod_eq_of_lt (Bool.toNat_lt run)
  simp [State.ctlWritten, State.timelineOn, State.flag, State.get_put, State.get_put_clear, h, hba, hra, hrb, ha, hb, hr, htl, hbank, hrun]

theorem exec_engineStart {bank : Fin 2} (hu : UnitRuns 82 1 11 n s) (h : Regs.wf s = true) (hoff : s.flag (ORR_ENGn_CTL.run n) = false) (hon : s.timelineOn tl = true) :
    exec (.engineStart n tl bank) s = .next ((s.ctlWritten n tl bank true).startEngine n) := by
  have htl := (State.ctlWritten_fields h n tl bank true).2.2.2.1
  change execEngineStart n tl bank s = _
  rw [execEngineStart, accessUnit_eq hu.1 hu.2.1, State.writeEngCtl]
  simp only [State.ctlWritten, Bool.toNat_true] at htl ⊢
  simp [hoff, htl, hon]

theorem exec_engineStopWrite {bank : Fin 2} (hu : UnitRuns 82 1 11 n s) (hon : s.flag (ORR_ENGn_CTL.run n) = true) :
    exec (.engineStopWrite n tl bank) s =
      .next (((s.ctlWritten n tl bank false).withEngine n fun e => { e with launching := [] }).haltEngine n) := by
  change execEngineStopWrite n tl bank s = _
  rw [execEngineStopWrite, accessUnit_eq hu.1 hu.2.1, State.writeEngCtl]
  simp [hon, State.ctlWritten]

/-- A started engine decodes word 0 of the bank that its control register names (R43). -/
theorem State.startEngine_starts (h : Regs.wf s = true) (n : Fin 8) : let u := s.startEngine n
    (u.engine n).active = true ∧ (u.engine n).tl = Fin.ofNat 8 (s.get (ORR_ENGn_CTL.at n)) ∧ u.engPc n = 0 ∧
      u.get (ORR_ENGn_STAT.bank n) = s.get (ORR_ENGn_CTL.bank n) ∧ u.mem = s.mem ∧ u.get (ORR_ENGn_CTL.run n) = s.get (ORR_ENGn_CTL.run n) := by
  obtain ⟨-, hpb, hpr, -⟩ := engPc_clear n 0
  have hbr : (ORR_ENGn_STAT.bank n).clear (ORR_ENGn_CTL.run n) = true := by
    simp only [Fld.clear_iff, Fld.span, ORR_ENGn_STAT.bank, ORR_ENGn_CTL.run, ORR_ENGn_CTL.reg, ORR_ENGn_STAT.reg]
    omega
  have hsr := (engState_clear n 0).2.2.1
  have hlt : s.get (ORR_ENGn_CTL.bank n) % 2 ^ (ORR_ENGn_STAT.bank n).w = s.get (ORR_ENGn_CTL.bank n) := Nat.mod_eq_of_lt (State.get_lt ..)
  simp [State.startEngine, State.engPc, State.get_put, State.get_put_clear, h, hpb, hpr, hbr, hsr, hlt]

/-- A bit that an event raises reads 1. -/
theorem State.raiseBit_testBit (h : Regs.wf s = true) {f : Fld} {i : Nat} (hi : i < f.w) : ((s.raiseBit f i).get f).testBit i = true := by
  rw [State.get_raiseBit, State.get_put h, Nat.testBit_mod_two_pow]
  simp [hi]

@[simp] theorem Regs.wf_withOrr (f : Orrery → Orrery) : Regs.wf (s.withOrr f) = Regs.wf s := Regs.wf_of_regs rfl
@[simp] theorem State.get_withOrr (f : Orrery → Orrery) (g : Fld) : (s.withOrr f).get g = s.get g := State.get_of_regs (State.withOrr_regs _ f) g
theorem State.atNow_withOrr (f : Orrery → Orrery) (i : Nat) : (s.withOrr f).atNow i = s.atNow i :=
  State.atNow_congr rfl (State.get_withOrr ..) (State.get_withOrr ..) (State.get_withOrr ..)

/-- The exit of a barrier writes T_s to ta0 and changes the engine alone (R46). -/
theorem State.conjExit_exits (h : Regs.wf s = true) (n : Fin 8) {ts : Nat} (hts : ts < 2 ^ 33) : let u := s.conjExit n ts
    u.ta n 0 = ts ∧ u.orr = { s.orr with eng := u.orr.eng } ∧ u.mem = s.mem := by
  have hst := (engState_clear n 0).2.2.2.1
  refine ⟨?_, by simp [State.conjExit, State.setTa, State.withEngine], by simp [State.conjExit, State.setTa]⟩
  simp only [State.conjExit, State.ta, State.setTa]
  rw [State.get_put_clear (by simp [h]) _ hst, State.get_put (by simp [h])]
  exact Nat.mod_eq_of_lt hts

/-- The leader that sees CONJ high queues START with T_s = at_now + lead, its own exit (R46). -/
theorem exec_conjLineHigh {id : BitVec 8} {since : BitVec 64} (hu : UnitRuns 82 1 11 n s) (hlow : s.orr.conjLow = false)
    (hbar : s.barrierOf n = some (id, since)) (hrole : s.get ORR_CONJ_CTL.role = 1) :
    let ts := (s.atNow (s.engine n).tl + s.get ORR_CONJ_CTL.lead) % 5033164800
    exec (.conjLineHigh n) s =
      .next ((s.withOrr fun o => { o with conjHigh := true, starts := o.starts ++ [(id, ts, (s.engine n).tl)] }).conjExit n ts) := by
  intro ts
  have hb : (s.withOrr fun o => { o with conjHigh := true }).barrierOf n = some (id, since) := hbar
  change execConjLineHigh n s = _
  rw [execConjLineHigh, insideUnit_eq hu]
  simp only [hlow, hb, State.get_withOrr, hrole, State.atNow_withOrr]
  rfl

/-- A halt leaves every field but those of the engine's run and state. -/
theorem State.haltEngine_get (h : Regs.wf s = true) {g : Fld} (hr : (ORR_ENGn_CTL.run n).clear g = true) (hs : (ORR_ENGn_STAT.state n).clear g = true) :
    (s.haltEngine n).get g = s.get g := by
  simp [State.haltEngine, State.get_put_clear, h, hr, hs]

/-- What a barrier that has timed out leaves (R47). -/
theorem State.conjFault_tmo (h : Regs.wf s = true) (n : Fin 8) : let u := s.conjFault n ORR_CONJ_STAT.tmo
    (u.engine n).active = false ∧ u.get ORR_CONJ_STAT.tmo = 1 ∧ (u.get ORR_CAUSE.conj).testBit n = true ∧ u.mem = s.mem := by
  obtain ⟨-, -, hrc, hrt⟩ := engRun_clear n
  obtain ⟨-, -, -, -, -, -, hsc, -, -, hst, -⟩ := engState_clear n 0
  have hw : Regs.wf (s.raise ORR_CONJ_STAT.tmo) = true := by simp [h]
  have hct : ORR_CAUSE.conj.clear ORR_CONJ_STAT.tmo = true := by decide
  obtain ⟨⟨hrest, -⟩, hact, -⟩ := State.haltEngine_halted (n := n) (t := (s.raise ORR_CONJ_STAT.tmo).raiseBit ORR_CAUSE.conj n) (by simp [h]) rfl
  refine ⟨hact, ?_, ?_, (congrArg (·.mem) hrest).trans (by simp)⟩
  · rw [State.conjFault, State.haltEngine_get (by simp [h]) hrt hst, State.get_raiseBit, State.get_put_clear hw _ hct, State.get_raise, State.get_put h]
    rfl
  · rw [State.conjFault, State.haltEngine_get (by simp [h]) hrc hsc]
    exact State.raiseBit_testBit hw n.isLt

end Sys2Proof.Machine

namespace Sys2Proof.Proofs

open Sys2Proof.Machine Sys2Proof.Claims

/-- Settles O13: a delivery sets one flag in each tile of the event's list, and each control command is one write of the engine's registers. -/
theorem eventsReachTheirTargets : Obligations.EventsReachTheirTargets := by
  unfold Obligations.EventsReachTheirTargets
  intro s n tl bank b i w hr h
  have hheld : s.held 1 = false := hr.2.2.1
  refine ⟨fun first span k due rest he hd hrest => ?_, fun hu => ⟨fun hrun hon => ?_, fun hrun => ?_, fun hrun => ?_, fun hrun hbank => ?_,
    fun id since hlow hbar hrole => ?_, fun id since hbar htmo hlate => ?_⟩⟩
  · subst hrest
    intro named
    have hx := exec_eventDelivery hr he hd
    refine ⟨fun hon => ?_, fun t ht hoff => ?_⟩
    · have hall : (namedTiles first span).all (fun t => s.tileOn t) = true :=
        List.all_eq_true.mpr fun t ht => hon t (mem_namedTiles.mp ht)
      rw [hall] at hx
      obtain ⟨ho, hm, ht⟩ := State.setEvf_list k.val (namedTiles first span) (nodup_namedTiles ..) (s.withOrr fun o => { o with events := [] }) hheld
      refine completes_of_exec hx ⟨congrArg (·.events) ho, hm, fun t => ?_⟩
      rw [ht t]
      simp only [mem_namedTiles]
      split_ifs
      · exact congrArg ((s.tile t).evf ||| ·) (ofNat_two_pow_eq_shift k)
      · rfl
    · have hall : (namedTiles first span).all (fun t => s.tileOn t) = false :=
        List.all_eq_false.mpr ⟨t, mem_namedTiles.mpr ht, by simp [hoff]⟩
      rw [hx, hall]
      rfl
  · have hoff : s.flag (ORR_ENGn_CTL.run n) = false := by simp [State.flag, hrun]
    obtain ⟨hw, hm, -, htl, hat, hbk, hone⟩ := State.ctlWritten_fields h n tl bank true
    refine completes_of_exec (exec_engineStart hu h hoff hon) ?_
    obtain ⟨hact, htln, hpc, hbank, hmem, hget⟩ := State.startEngine_starts hw n
    exact ⟨hact, htln.trans (by simp [hat]), hpc, hbank.trans hbk, hget.trans hone, hmem.trans hm⟩
  · have hon : s.flag (ORR_ENGn_CTL.run n) = true := by simp [State.flag, hrun]
    obtain ⟨hw, hm, -⟩ := State.ctlWritten_fields h n tl bank false
    refine completes_of_exec (exec_engineStopWrite hu hon) ?_
    obtain ⟨⟨hst, -⟩, hact, hrun', -⟩ := State.haltEngine_halted (n := n) (t := (s.ctlWritten n tl bank false).withEngine n fun e => { e with launching := [] }) (by simpa using hw) rfl
    refine ⟨hact, by simp [State.haltEngine], hrun', ?_⟩
    exact (congrArg (·.mem) hst).trans hm
  · have hoff : s.flag (ORR_ENGn_CTL.run n) = false := by simp [State.flag, hrun]
    have hx : exec (.timetableBankWrite n b i w) s = .next (s.put (ORR_BANK.w n b i) w.toNat) := by
      change execTimetableBankWrite n b i w s = _
      rw [execTimetableBankWrite, accessUnit_eq hr hu.2.1]
      simp [hoff]
    refine completes_of_exec hx ?_
    rw [State.eq_besideRegs]
    refine ⟨(State.get_put h ..).trans (Nat.mod_eq_of_lt w.isLt), by simp, ?_⟩
    simp +decide [wordsKept_put, h, Fld.within, Fld.span, ORR_BANK.w]
  · have hx : exec (.timetableBankWrite n b i w) s = .next (s.raiseBit ORR_CAUSE.wr_active n) := by
      change execTimetableBankWrite n b i w s = _
      rw [execTimetableBankWrite, accessUnit_eq hr hu.2.1]
      simp [State.flag, hrun, hbank]
    refine completes_of_exec hx ?_
    rw [State.eq_besideRegs]
    refine ⟨State.raiseBit_testBit h n.isLt, by simp, ?_⟩
    simp +decide [wordsKept_put, h]
  · intro ts
    have hts : ts < 2 ^ 33 := (Nat.mod_lt _ (by norm_num)).trans (by norm_num)
    obtain ⟨hta, horr, hm⟩ := State.conjExit_exits (Regs.wf_withOrr .. |>.trans h) n hts
    exact completes_of_exec (exec_conjLineHigh hu hlow hbar hrole) ⟨hta, congrArg (·.starts) horr, congrArg (·.conjHigh) horr, hm⟩
  · have hx : exec (.conjunctionTimeout n) s = .next (s.conjFault n ORR_CONJ_STAT.tmo) := by
      change execConjunctionTimeout n s = _
      rw [execConjunctionTimeout, insideUnit_eq hu]
      simp only [hbar]
      exact if_pos (by simp [htmo, Config.ckPerMs, hlate])
    exact completes_of_exec hx (State.conjFault_tmo h n)

end Sys2Proof.Proofs
end

section
/-! ## O34: a full receive ring in the unbacked range

`toRing` reads the head of the ring by `sysRead`, which records an access to the unbacked range in MEMC_CAUSE.hole and MEMC_HOLEA (R125).  The clause on a
full ring asks only that the units behind the head are on and lists the words of the port's counter and of OPT_CAUSE.rxfull as the only ones that change,
so it fails for a ring whose head lies in that range.  The state below meets every hypothesis of the clause; that the chip can reach it is not claimed,
and the other clauses are left as they stand. -/

namespace Sys2Proof.Proofs

open Sys2Proof.Machine Sys2Proof.Claims

/-- Port 0 carries Ethernet; ring 2, of 16 descriptors, lies at the start of the unbacked range, where memory lists prod = 16. -/
def ringInHole : State :=
  { (((State.reset.put (OPT_Pp_CFG.en 0) 1).put (OPT_Pp_STAT.up 0) 1).put (OPT_RXRr.en 2) 1).put (OPT_RXRr.addr 2) 0x3C000000 with
    mem := [(0xF00000000, 16)] }

/-- A frame of no byte but its FCS. -/
def emptyFrame : Instr := .frameReceive 0 ⟨0, 0⟩ [0, 0, 0, 0] ⟨0, 0, 0⟩

/-- The word of MEMC_CAUSE in the state that the frame leaves. -/
def holeCauseAfterFrame (s : State) : BitVec 32 :=
  match exec emptyFrame s with
  | .next u => u.word MEMC_CAUSE.reg
  | _ => 0

theorem ringInHole_runs : Runs (portUnitOf 0) 4 ringInHole :=
  ⟨by decide +kernel, by decide +kernel, by decide +kernel, by decide +kernel, fun _ => by decide +kernel⟩

theorem ringInHole_cause : holeCauseAfterFrame ringInHole ≠ ringInHole.word MEMC_CAUSE.reg := by decide +kernel

/-- Refutes O34: a good frame for a full ring whose head lies in the unbacked range also sets MEMC_CAUSE.hole, a word that the clause says is kept. -/
theorem not_framesAreCheckedAndClassified : ¬ Obligations.FramesAreCheckedAndClassified := by
  unfold Obligations.FramesAreCheckedAndClassified
  intro h
  have hgood : 4 ≤ [0, 0, 0, (0 : BitVec 8)].length ∧ natOfBytes ([0, 0, 0, (0 : BitVec 8)].drop 0) = (crc32 ([0, 0, 0, (0 : BitVec 8)].take 0)).toNat := by
    decide +kernel
  obtain ⟨-, hfec⟩ := h ringInHole 0 0 0 [0, 0, 0, 0] ringInHole_runs (by decide +kernel) (by decide +kernel) (by decide +kernel)
    ⟨by decide +kernel, by decide +kernel⟩ ⟨0, 0, 0⟩
  obtain ⟨-, -, -, -, -, -, -, hframe⟩ := hfec rfl rfl
  obtain ⟨-, hring⟩ := hframe (by decide) hgood
  obtain ⟨-, hroom⟩ := hring 2 false (by decide +kernel) (fun h => absurd h (by decide))
  obtain ⟨-, hfull, -⟩ := hroom fun h => absurd h (by decide)
  obtain ⟨u, hu, -, -, -, hkept⟩ := hfull (by decide +kernel) (by decide +kernel) (by decide +kernel)
  have hcause := ringInHole_cause
  rw [holeCauseAfterFrame, emptyFrame, hu] at hcause
  exact hcause (hkept MEMC_CAUSE.reg (by decide))

end Sys2Proof.Proofs
end

section
/-! ## O45: job descriptors reach their units -/

namespace Sys2Proof.Machine

open Sys2Proof.Claims

variable {s t u : State} {c : Fin 64} {n : Fin 256} {d : BitVec 512}

/-! The client counters (R261). -/

/-- The field lies apart from the client counters. -/
def Fld.besideClients (g : Fld) : Prop := g.span.1 + 4 * g.span.2.2 ≤ CTX_CLIc.reg 0 ∨ CTX_CLIc.reg 64 ≤ g.span.1

theorem clients_clear (c : Fin 64) {g : Fld} (hg : g.besideClients) :
    (CTX_CLIc.issued c).clear g = true ∧ (CTX_CLIc.ended c).clear g = true ∧ (CTX_CLIc.dropped c).clear g = true := by
  simp only [Fld.besideClients, CTX_CLIc.reg] at hg
  simp only [Fld.clear_iff, Fld.span, CTX_CLIc.issued, CTX_CLIc.ended, CTX_CLIc.dropped, CTX_CLIc.reg]
  simp only [Fld.span] at hg
  omega

theorem issued_clear_ended (c : Fin 64) : (CTX_CLIc.issued c).clear (CTX_CLIc.ended c) = true ∧ (CTX_CLIc.ended c).clear (CTX_CLIc.issued c) = true := by
  simp only [Fld.clear_iff, Fld.span, CTX_CLIc.issued, CTX_CLIc.ended, CTX_CLIc.reg]
  omega

theorem clients_within (c : Fin 64) {as : List Nat} (h : clientWords c ⊆ as) :
    (CTX_CLIc.issued c).within as = true ∧ (CTX_CLIc.ended c).within as = true ∧ (CTX_CLIc.dropped c).within as = true := by
  have hw (k : Nat) (hk : k < 4) : CTX_CLIc.reg c + 4 * k ∈ as := h (List.mem_map.mpr ⟨k, List.mem_range.mpr hk, rfl⟩)
  have h0 := hw 0 (by omega)
  have h1 := hw 1 (by omega)
  have h3 := hw 3 (by omega)
  simpa [Fld.within, Fld.span, CTX_CLIc.issued, CTX_CLIc.ended, CTX_CLIc.dropped] using ⟨h0, h1, h3⟩

theorem State.clientCount_some (f : Nat → Fld) : s.clientCount (some c) f = s.put (f c) (satInc32 (s.get (f c))) := rfl

theorem satInc32_eq (n : Nat) : satInc32 n = Nat.min (n + 1) 4294967295 := by
  change _ = min (n + 1) 4294967295
  rw [satInc32]
  split_ifs <;> omega

/-- A client counter counts up to 0xFFFF_FFFF (R261). -/
theorem counted_put (h : Regs.wf t = true) {f : Fld} (hf : f.w = 32) (hg : t.get f = s.get f) : Counted f s (t.put f (satInc32 (t.get f))) := by
  rw [Counted, State.get_put h, hg, satInc32_eq, hf]
  exact Nat.mod_eq_of_lt ((Nat.min_le_right ..).trans_lt (by norm_num))

theorem besideClients_clear {f : Fld} (hf : f.besideClients) (c : Fin 64) :
    f.clear (CTX_CLIc.issued c) = true ∧ f.clear (CTX_CLIc.ended c) = true ∧ f.clear (CTX_CLIc.dropped c) = true := by
  simp only [Fld.besideClients, CTX_CLIc.reg] at hf
  simp only [Fld.clear_iff, Fld.span, CTX_CLIc.issued, CTX_CLIc.ended, CTX_CLIc.dropped, CTX_CLIc.reg]
  simp only [Fld.span] at hf
  omega

theorem dfield_lt (d : BitVec 512) (b lo w : Nat) : dfield d b lo w < 2 ^ w := Nat.mod_lt _ (by positivity)

/-! Descriptors that R244 skips, and jobs that find no room. -/

theorem ctxCause_beside : CTX_CAUSE.bad.besideClients ∧ CTX_CAUSE.ovf.besideClients ∧ CTX_LAST.ctx.besideClients ∧ CTX_LAST.tag.besideClients := by
  simp +decide [Fld.besideClients]

/-- A bad descriptor is counted as dropped and named in CTX_LAST (R244). -/
theorem State.jobSkip_skips (h : Regs.wf s = true) (d : BitVec 512) : let t := s.jobSkip d
    t.get CTX_CAUSE.bad = 1 ∧ t.get CTX_LAST.ctx = (jCtx d).val ∧ t.get CTX_LAST.tag = jTag d ∧ Counted (CTX_CLIc.dropped (jClient d)) s t ∧
      RegsOnly (CTX_CAUSE.reg :: CTX_LAST.reg :: (CTX_LAST.reg + 4) :: clientWords (jClient d)) s t := by
  obtain ⟨hbad, -, hctx, htag⟩ := ctxCause_beside
  have hc := fun {g : Fld} (hg : g.besideClients) => (clients_clear (jClient d) hg).2.2
  have hin := (clients_within (jClient d) (as := CTX_CAUSE.reg :: CTX_LAST.reg :: (CTX_LAST.reg + 4) :: clientWords (jClient d)) fun _ ha => by simp [ha]).2.2
  have hwf : Regs.wf (((s.raise CTX_CAUSE.bad).put CTX_LAST.ctx (jCtx d)).put CTX_LAST.tag (jTag d)) = true := by simp [h]
  rw [State.jobSkip, State.clientCount_some]
  refine ⟨?_, ?_, ?_, counted_put hwf rfl ?_, ?_⟩
  · rw [State.get_put_clear hwf _ (hc hbad), State.get_put_clear (by simp [h]) _ (by decide), State.get_put_clear (by simp [h]) _ (by decide), State.get_raise, State.get_put h]
    rfl
  · rw [State.get_put_clear hwf _ (hc hctx), State.get_put_clear (by simp [h]) _ (by decide), State.get_put (by simp [h])]
    exact Nat.mod_eq_of_lt (jCtx d).isLt
  · rw [State.get_put_clear hwf _ (hc htag), State.get_put (by simp [h])]
    exact Nat.mod_eq_of_lt (dfield_lt ..)
  · rw [State.get_put_clear (by simp [h]) _ (besideClients_clear htag (jClient d)).2.2, State.get_put_clear (by simp [h]) _ (besideClients_clear hctx (jClient d)).2.2,
      State.get_raise, State.get_put_clear h _ (besideClients_clear hbad (jClient d)).2.2]
  · have hlast : CTX_LAST.ctx.within (CTX_CAUSE.reg :: CTX_LAST.reg :: (CTX_LAST.reg + 4) :: clientWords (jClient d)) = true ∧
        CTX_LAST.tag.within (CTX_CAUSE.reg :: CTX_LAST.reg :: (CTX_LAST.reg + 4) :: clientWords (jClient d)) = true ∧
        CTX_CAUSE.bad.within (CTX_CAUSE.reg :: CTX_LAST.reg :: (CTX_LAST.reg + 4) :: clientWords (jClient d)) = true := by
      simp [Fld.within, Fld.span, CTX_LAST.ctx, CTX_LAST.tag, CTX_CAUSE.bad]
    obtain ⟨hwctx, hwtag, hwbad⟩ := hlast
    rw [RegsOnly, State.eq_besideRegs]
    simp [wordsKept_put, hin, hwctx, hwtag, hwbad, h]

/-- A job for which a context has no room is dropped (R248). -/
theorem State.queueJob_full (h : Regs.wf s = true) (hdr : (s.ctx (jCtx d)).draining = false) (hfull : 4 ≤ (s.ctx (jCtx d)).queued.length) :
    let t := s.queueJob d none
    t.get CTX_CAUSE.ovf = 1 ∧ Counted (CTX_CLIc.dropped (jClient d)) s t ∧ RegsOnly (CTX_CAUSE.reg :: clientWords (jClient d)) s t := by
  obtain ⟨-, hovf, -, -⟩ := ctxCause_beside
  have hin := (clients_within (jClient d) (as := CTX_CAUSE.reg :: clientWords (jClient d)) fun _ ha => by simp [ha]).2.2
  have hwf : Regs.wf (s.raise CTX_CAUSE.ovf) = true := by simp [h]
  have hovfIn : CTX_CAUSE.ovf.within (CTX_CAUSE.reg :: clientWords (jClient d)) = true := by simp [Fld.within, Fld.span, CTX_CAUSE.ovf]
  have hq : s.queueJob d none = (s.raise CTX_CAUSE.ovf).clientCount (some (jClient d)) CTX_CLIc.dropped := by
    rw [State.queueJob]
    simp only [hdr, if_pos (show (s.ctx (jCtx d)).queued.length ≥ 4 from hfull), Bool.false_eq_true, if_false]
  rw [hq, State.clientCount_some]
  refine ⟨?_, counted_put hwf rfl ?_, ?_⟩
  · rw [State.get_put_clear hwf _ (clients_clear (jClient d) hovf).2.2, State.get_raise, State.get_put h]
    rfl
  · rw [State.get_raise, State.get_put_clear h _ (besideClients_clear hovf (jClient d)).2.2]
  · rw [RegsOnly, State.eq_besideRegs]
    simp [wordsKept_put, hin, hovfIn, h]

/-! A job that joins its context's queue (R248). -/

/-- The job of a descriptor without a watch, queued as number `seq`. -/
def jobOf (d : BitVec 512) (seq : Nat) : Job :=
  { seq := seq, tag := BitVec.ofNat 32 (jTag d), client := some (jClient d), flag := jFlag d, fen := jFen d, watch := none, tl := Fin.ofNat 8 (dfield d 10 0 3)
    deadline := if dfield d 10 3 1 = 1 then some (dfield d 16 0 33) else none, psave := dfield d 10 4 1 = 1, args := BitVec.ofNat 256 (dfield d 32 0 256) }

/-- The state with a job on the context's queue. -/
def State.jobAppended (s : State) (d : BitVec 512) : State :=
  (s.withCx fun c => { c with seq := c.seq + 1 }).withCtx (jCtx d) fun c => { c with queued := c.queued ++ [jobOf d s.cx.seq] }

/-- And with its client's count. -/
def State.jobJoined (s : State) (d : BitVec 512) : State := (s.jobAppended d).clientCount (some (jClient d)) CTX_CLIc.issued

theorem State.queueJob_eq (hdr : (s.ctx (jCtx d)).draining = false) (hlen : (s.ctx (jCtx d)).queued.length < 4) (hw : jWen d = false) :
    s.queueJob d none = let t := s.jobJoined d
      if t.cstate (jCtx d) = 3 || (t.cstate (jCtx d) = 1 && (t.ctx (jCtx d)).job.isNone) then t.setCstate (jCtx d) 4 else t := by
  rw [State.queueJob]
  simp only [hdr, hw, if_neg (show ¬ (s.ctx (jCtx d)).queued.length ≥ 4 by omega), Bool.false_eq_true, if_false, State.jobJoined, State.jobAppended, jobOf]
  rfl

theorem ctxStat_beside (n : Fin 256) : (CTX_STATn.state n).besideClients ∧ (CTX_STATn.nq n).besideClients ∧ (CTX_STATn.job n).besideClients ∧
    (CTX_STATn.pend n).besideClients := by
  simp only [Fld.besideClients, Fld.span, CTX_STATn.state, CTX_STATn.nq, CTX_STATn.job, CTX_STATn.pend, CTX_STATn.reg, CTX_CLIc.reg]
  omega

theorem ctxStat_clear (n : Fin 256) : (CTX_STATn.job n).clear (CTX_STATn.state n) = true ∧ (CTX_STATn.nq n).clear (CTX_STATn.state n) = true ∧
    (CTX_STATn.state n).clear (CTX_STATn.nq n) = true := by
  simp only [Fld.clear_iff, Fld.span, true_and, CTX_STATn.state, CTX_STATn.nq, CTX_STATn.job, CTX_STATn.reg]
  omega

theorem ctxStat_within (n : Fin 256) (as : List Nat) : (CTX_STATn.job n).within (CTX_STATn.reg n :: as) = true ∧
    (CTX_STATn.nq n).within (CTX_STATn.reg n :: as) = true ∧ (CTX_STATn.state n).within (CTX_STATn.reg n :: as) = true := by
  simp [Fld.within, Fld.span, CTX_STATn.job, CTX_STATn.nq, CTX_STATn.state]

@[simp] theorem State.get_withCx (f : Contexts → Contexts) (g : Fld) : (s.withCx f).get g = s.get g := State.get_of_regs (s := s) (t := s.withCx f) rfl g
@[simp] theorem Regs.wf_withCx (f : Contexts → Contexts) : Regs.wf (s.withCx f) = Regs.wf s := Regs.wf_of_regs rfl

/-- What a context that the state holds changes to READY with (R247). -/
theorem State.setCstate_ready (n : Fin 256) : s.setCstate n 4 = s.put (CTX_STATn.state n) 4 := by simp [State.setCstate]

/-- What is left as it was, beside the registers and the context unit. -/
def State.besideCx (s : State) : State := { s with regs := [], now := SameCk.reset, cx := Contexts.reset }

theorem State.eq_besideCx : t = { s with cx := t.cx, regs := t.regs, now := t.now } ↔ t.besideCx = s.besideCx := by
  cases s; cases t; simp [State.besideCx]

@[simp] theorem State.besideCx_put (f : Fld) (v : Nat) : (s.put f v).besideCx = s.besideCx := by rw [State.put_eq]; rfl
@[simp] theorem State.besideCx_withCx (f : Contexts → Contexts) : (s.withCx f).besideCx = s.besideCx := rfl

/-- A context's own fields; job and nq follow it (R247). -/
theorem State.withCtx_fields (h : Regs.wf s = true) (n : Fin 256) (f : Ctx → Ctx) (hlen : (f (s.ctx n)).queued.length < 8) : let t := s.withCtx n f
    Regs.wf t = true ∧ t.cx = { s.cx with ctx := s.cx.ctx.set n.val (f (s.ctx n)) } ∧ t.cstate n = s.cstate n ∧
      t.get (CTX_STATn.nq n) = (f (s.ctx n)).queued.length ∧ t.besideCx = s.besideCx ∧ (∀ as, WordsKept s t (CTX_STATn.reg n :: as)) ∧
      ∀ g : Fld, (CTX_STATn.job n).clear g = true → (CTX_STATn.nq n).clear g = true → t.get g = s.get g := by
  obtain ⟨hjs, hqs, -⟩ := ctxStat_clear n
  have hctx : (s.withCx fun c => { c with ctx := c.ctx.set n.val (f c.ctx[n.val]) }).ctx n = f (s.ctx n) := by simp [State.ctx, State.withCx]
  have hwords (as : List Nat) : WordsKept s (s.withCtx n f) (CTX_STATn.reg n :: as) := by
    obtain ⟨hj, hq, -⟩ := ctxStat_within n as
    rw [State.withCtx, wordsKept_put (by simp [h]) hq, wordsKept_put (by simp [h]) hj]
    exact fun _ _ => rfl
  refine ⟨by simp [State.withCtx, h], by simp [State.withCtx, State.withCx, State.ctx], ?_, ?_, by simp [State.withCtx], hwords, fun g hj hq => ?_⟩
  · simp [State.withCtx, State.cstate, State.get_put_clear, h, hjs, hqs]
  · rw [State.withCtx, State.get_put (by simp [h]), hctx]
    exact Nat.mod_eq_of_lt hlen
  · simp [State.withCtx, State.get_put_clear, h, hj, hq]

/-- The contexts with a job of a descriptor on its queue. -/
def Contexts.joined (x : Contexts) (d : BitVec 512) : Contexts :=
  { x with seq := x.seq + 1, ctx := x.ctx.set (jCtx d).val { x.ctx[(jCtx d).val] with queued := x.ctx[(jCtx d).val].queued ++ [jobOf d x.seq] } }

theorem State.jobAppended_fields (h : Regs.wf s = true) (hlen : (s.ctx (jCtx d)).queued.length < 4) : let t := s.jobAppended d
    Regs.wf t = true ∧ t.cx = s.cx.joined d ∧ t.cstate (jCtx d) = s.cstate (jCtx d) ∧ t.get (CTX_STATn.nq (jCtx d)) = (s.ctx (jCtx d)).queued.length + 1 ∧
      t.get (CTX_CLIc.issued (jClient d)) = s.get (CTX_CLIc.issued (jClient d)) ∧ t.besideCx = s.besideCx ∧ ∀ as, WordsKept s t (CTX_STATn.reg (jCtx d) :: as) := by
  obtain ⟨-, hnq, hjob, -⟩ := ctxStat_beside (jCtx d)
  have hlen' : ((s.ctx (jCtx d)).queued ++ [jobOf d s.cx.seq]).length < 8 := by
    rw [List.length_append, List.length_singleton]
    omega
  obtain ⟨hwf, hcx, hcst, hget, hb, hwords, hother⟩ := State.withCtx_fields (s := s.withCx fun c => { c with seq := c.seq + 1 }) (by simpa using h) (jCtx d)
    (fun c => { c with queued := c.queued ++ [jobOf d s.cx.seq] }) hlen'
  refine ⟨hwf, hcx, hcst.trans (State.get_withCx ..), hget.trans ?_, ?_, hb, hwords⟩
  · simp [State.ctx, State.withCx]
  · exact (hother _ (besideClients_clear hjob _).1 (besideClients_clear hnq _).1).trans (State.get_withCx ..)

/-- What a job that joined its queue changed. -/
theorem State.jobJoined_fields (h : Regs.wf s = true) (hlen : (s.ctx (jCtx d)).queued.length < 4) : let t := s.jobJoined d
    Regs.wf t = true ∧ t.cx = s.cx.joined d ∧ t.cstate (jCtx d) = s.cstate (jCtx d) ∧ t.get (CTX_STATn.nq (jCtx d)) = (s.ctx (jCtx d)).queued.length + 1 ∧
      Counted (CTX_CLIc.issued (jClient d)) s t ∧ t.besideCx = s.besideCx ∧ WordsKept s t (CTX_STATn.reg (jCtx d) :: clientWords (jClient d)) := by
  obtain ⟨hwf, hcx, hcst, hnq, hiss, hb, hwords⟩ := State.jobAppended_fields h hlen
  obtain ⟨hstB, hnqB, -, -⟩ := ctxStat_beside (jCtx d)
  have hin := (clients_within (jClient d) (as := CTX_STATn.reg (jCtx d) :: clientWords (jClient d)) fun _ ha => by simp [ha]).1
  have ht : s.jobJoined d = (s.jobAppended d).put (CTX_CLIc.issued (jClient d)) (satInc32 ((s.jobAppended d).get (CTX_CLIc.issued (jClient d)))) := rfl
  rw [ht]
  refine ⟨Regs.wf_put hwf .., (State.put_cx ..).trans hcx, ?_, ?_, counted_put hwf rfl hiss, (State.besideCx_put ..).trans hb, (wordsKept_put hwf hin _).mpr (hwords _)⟩
  · rw [State.cstate, State.get_put_clear hwf _ (clients_clear _ hstB).1]
    exact hcst
  · rw [State.get_put_clear hwf _ (clients_clear _ hnqB).1]
    exact hnq

theorem toNat_div_lt {k w : Nat} (x : BitVec (k + w)) : x.toNat / 2 ^ k < 2 ^ w :=
  Nat.div_lt_of_lt_mul (by rw [← pow_add]; exact x.isLt)

/-- The tag and the arguments of a job are those of its descriptor (R248). -/
theorem jobOf_fields (d : BitVec 512) (seq : Nat) : (jobOf d seq).tag.toNat = jTag d ∧ (jobOf d seq).args.toNat = d.toNat / 2 ^ 256 := by
  have hd : d.toNat / 2 ^ 256 < 2 ^ 256 := toNat_div_lt (k := 256) (w := 256) d
  constructor
  · exact (BitVec.toNat_ofNat ..).trans (Nat.mod_eq_of_lt (dfield_lt ..))
  · simp only [jobOf, dfield, bitsOf, BitVec.toNat_ofNat, Nat.shiftRight_eq_div_pow, Nat.mod_mod]
    exact Nat.mod_eq_of_lt hd

/-- A sound tile job without a watch joins the queue of a context that has room (R248). -/
theorem State.queueJob_queued (h : Regs.wf s = true) (hdr : (s.ctx (jCtx d)).draining = false) (hlen : (s.ctx (jCtx d)).queued.length < 4) (hw : jWen d = false) :
    let t := s.queueJob d none
    JobQueued d s t ∧ t.besideCx = s.besideCx := by
  obtain ⟨hwf, hcx, hcst, hnq, hiss, hb, hwords⟩ := State.jobJoined_fields h hlen
  obtain ⟨-, -, hsq⟩ := ctxStat_clear (jCtx d)
  obtain ⟨-, -, hsIn⟩ := ctxStat_within (jCtx d) (clientWords (jClient d))
  have hstB := (ctxStat_beside (jCtx d)).1
  have hctx (u : State) (hu : u.cx = s.cx.joined d) :
      u.ctx (jCtx d) = { s.ctx (jCtx d) with queued := (s.ctx (jCtx d)).queued ++ [jobOf d s.cx.seq] } ∧ ∀ i, i ≠ jCtx d → u.ctx i = s.ctx i := by
    refine ⟨by simp [State.ctx, hu, Contexts.joined], fun i hi => ?_⟩
    have hv : (jCtx d).val ≠ i.val := fun e => hi (Fin.ext e).symm
    simp [State.ctx, hu, Contexts.joined, Vector.getElem_set_ne, hv]
  obtain ⟨htag, hargs⟩ := jobOf_fields d s.cx.seq
  have queued (u : State) (hu : u.cx = s.cx.joined d) (hq : u.get (CTX_STATn.nq (jCtx d)) = (s.ctx (jCtx d)).queued.length + 1)
      (hc : u.cstate (jCtx d) = if s.cstate (jCtx d) = 3 ∨ (s.cstate (jCtx d) = 1 ∧ (s.ctx (jCtx d)).job = none) then 4 else s.cstate (jCtx d))
      (hi : Counted (CTX_CLIc.issued (jClient d)) s u) (hk : WordsKept s u (CTX_STATn.reg (jCtx d) :: clientWords (jClient d))) : JobQueued d s u :=
    ⟨⟨jobOf d s.cx.seq, (hctx u hu).1, rfl, htag, rfl, rfl, rfl, rfl, hargs, rfl⟩, hq, hc, hi, (hctx u hu).2, by rw [hu]; rfl, by rw [hu]; rfl, hk⟩
  rw [State.queueJob_eq hdr hlen hw]
  simp only [hcst, (hctx _ hcx).1, Option.isNone_iff_eq_none, Bool.or_eq_true, Bool.and_eq_true, decide_eq_true_eq]
  split_ifs with hready
  · rw [State.setCstate_ready]
    refine ⟨queued _ ((State.put_cx ..).trans hcx) ?_ ?_ ?_ ((wordsKept_put hwf hsIn _).mpr hwords), (State.besideCx_put ..).trans hb⟩
    · rw [State.get_put_clear hwf _ hsq]
      exact hnq
    · rw [if_pos hready, State.cstate, State.get_put hwf]
      rfl
    · rw [Counted, State.get_put_clear hwf _ (besideClients_clear hstB _).1]
      exact hiss
  · exact ⟨queued _ hcx hnq (by rw [if_neg hready, hcst]) hiss hwords, hb⟩

/-! What a descriptor does at once: its client counts it as issued before and as ended after (R261). -/

/-- The client of a descriptor has counted it as issued. -/
def State.issuedBy (s : State) (c : Fin 64) : State := s.clientCount (some c) CTX_CLIc.issued

theorem Regs.wf_issuedBy (h : Regs.wf s = true) (c : Fin 64) : Regs.wf (s.issuedBy c) = true := Regs.wf_put h ..

theorem State.get_issuedBy (h : Regs.wf s = true) {g : Fld} (hg : g.besideClients) : (s.issuedBy c).get g = s.get g :=
  State.get_put_clear h _ (clients_clear c hg).1

theorem wordsKept_trans {as : List Nat} (h : WordsKept s t as) (h' : WordsKept t u as) : WordsKept s u as := fun a ha => (h' a ha).trans (h a ha)

theorem wordsKept_issuedBy (h : Regs.wf s = true) {as : List Nat} (hs : clientWords c ⊆ as) : WordsKept s (s.issuedBy c) as :=
  (wordsKept_put h (clients_within c hs).1 _).mpr (wordsKept_refl _)

/-- A step between that leaves the client's counters, and a field apart from them. -/
theorem counted_around (h : Regs.wf s = true) (hw : Regs.wf t = true) (hi : t.get (CTX_CLIc.issued c) = (s.issuedBy c).get (CTX_CLIc.issued c))
    (he : t.get (CTX_CLIc.ended c) = (s.issuedBy c).get (CTX_CLIc.ended c)) :
    let u := t.clientCount (some c) CTX_CLIc.ended
    Counted (CTX_CLIc.issued c) s u ∧ Counted (CTX_CLIc.ended c) s u := by
  obtain ⟨hie, hei⟩ := issued_clear_ended c
  refine ⟨?_, counted_put hw rfl (he.trans (State.get_put_clear h _ hie))⟩
  have hiss : Counted (CTX_CLIc.issued c) s (s.issuedBy c) := counted_put h rfl rfl
  rw [Counted, State.clientCount_some, State.get_put_clear hw _ hei, hi]
  exact hiss

/-! Wakes (R248). -/

/-- What is left as it was, beside the registers and the Orrery. -/
def State.besideOrr (s : State) : State := { s with regs := [], now := SameCk.reset, orr := Orrery.reset }

theorem State.eq_besideOrr : t = { s with regs := t.regs, now := t.now, orr := t.orr } ↔ t.besideOrr = s.besideOrr := by
  cases s; cases t; simp [State.besideOrr]

@[simp] theorem State.besideOrr_put (f : Fld) (v : Nat) : (s.put f v).besideOrr = s.besideOrr := by rw [State.put_eq]; rfl
@[simp] theorem Regs.wf_schedule (k : Nat) (e : EventKind) : Regs.wf (s.schedule k e) = Regs.wf s := Regs.wf_of_regs rfl
@[simp] theorem State.get_schedule (k : Nat) (e : EventKind) (g : Fld) : (s.schedule k e).get g = s.get g :=
  State.get_of_regs (s := s) (t := s.schedule k e) rfl g
@[simp] theorem wordsKept_schedule {as : List Nat} (k : Nat) (e : EventKind) : WordsKept s (t.schedule k e) as ↔ WordsKept s t as := wordsKept_of_regs rfl

theorem pend_within (n : Fin 256) (as : List Nat) : (CTX_STATn.pend n).within ((CTX_STATn.reg n + 4) :: as) = true := by
  simp [Fld.within, Fld.span, CTX_STATn.pend]

/-- A flag for a context goes to its tiles or into its pending word (R248). -/
theorem State.flagCtx_sent (h : Regs.wf s = true) (n : Fin 256) (k : Fin 32) : let t := s.flagCtx n k
    Regs.wf t = true ∧ t.orr = (if s.cstate n = 5 ∨ s.cstate n = 6 then { s.orr with events := s.orr.events ++ [⟨s.mono + 24, .ctxFlag n k⟩] } else s.orr) ∧
      t.get (CTX_STATn.pend n) = (if s.cstate n = 5 ∨ s.cstate n = 6 then s.get (CTX_STATn.pend n) else s.get (CTX_STATn.pend n) ||| 2 ^ k.val) ∧
      t.besideOrr = s.besideOrr ∧ (∀ as, WordsKept s t ((CTX_STATn.reg n + 4) :: as)) ∧ ∀ g : Fld, (CTX_STATn.pend n).clear g = true → t.get g = s.get g := by
  rw [State.flagCtx]
  simp only [Bool.or_eq_true, decide_eq_true_eq]
  split_ifs with hrun
  · exact ⟨by simpa using h, rfl, by simp, rfl, fun as => by simp, fun g _ => by simp⟩
  · have hor : s.get (CTX_STATn.pend n) ||| 2 ^ k.val < 2 ^ (CTX_STATn.pend n).w :=
      Nat.or_lt_two_pow (State.get_lt ..) (Nat.pow_lt_pow_right (by norm_num) k.isLt)
    refine ⟨by simp [h], by simp, ?_, by simp, fun as => ?_, fun g hg => State.get_put_clear h _ hg⟩
    · exact (State.get_put h ..).trans (Nat.mod_eq_of_lt hor)
    · simp [wordsKept_put, h, pend_within]

/-- A wake of a job in progress sends its flag and counts twice (R248, R261). -/
theorem State.wakeJob_wakes (h : Regs.wf s = true) (hdr : (s.ctx (jCtx d)).draining = false) (hjob : (s.ctx (jCtx d)).job.isSome = true) (hfen : jFen d = true) :
    let n := jCtx d
    let t := s.wakeJob d
    Counted (CTX_CLIc.issued (jClient d)) s t ∧ Counted (CTX_CLIc.ended (jClient d)) s t ∧
      t.orr = (if s.cstate n = 5 ∨ s.cstate n = 6 then { s.orr with events := s.orr.events ++ [⟨s.mono + 24, .ctxFlag n (jFlag d)⟩] } else s.orr) ∧
      t.get (CTX_STATn.pend n) = (if s.cstate n = 5 ∨ s.cstate n = 6 then s.get (CTX_STATn.pend n) else s.get (CTX_STATn.pend n) ||| 2 ^ (jFlag d).val) ∧
      t = { s with regs := t.regs, now := t.now, orr := t.orr } ∧ WordsKept s t ((CTX_STATn.reg n + 4) :: clientWords (jClient d)) := by
  intro n
  have hA := Regs.wf_issuedBy h (jClient d)
  obtain ⟨hstB, -, -, hpB⟩ := ctxStat_beside n
  have hcst : (s.issuedBy (jClient d)).cstate n = s.cstate n := State.get_issuedBy h hstB
  obtain ⟨hwf, horr, hpend, hb, hwords, hother⟩ := State.flagCtx_sent hA n (jFlag d)
  rw [hcst, State.get_issuedBy h hpB] at hpend
  rw [hcst] at horr
  obtain ⟨hpi, hpe, -⟩ := besideClients_clear hpB (jClient d)
  obtain ⟨hiss, hend⟩ := counted_around h hwf (hother _ hpi) (hother _ hpe)
  have hcli : clientWords (jClient d) ⊆ (CTX_STATn.reg n + 4) :: clientWords (jClient d) := fun _ ha => by simp [ha]
  have hin' := (clients_within (jClient d) hcli).2.1
  have hwake : s.wakeJob d = ((s.issuedBy (jClient d)).flagCtx n (jFlag d)).clientCount (some (jClient d)) CTX_CLIc.ended := by
    have hsome : (s.ctx (jCtx d)).job.isNone = false := by simpa using hjob
    rw [State.wakeJob]
    simp only [hdr, hsome, hfen, Bool.or_false, Bool.false_eq_true, if_false, if_true]
    rfl
  rw [hwake]
  refine ⟨hiss, hend, (State.put_orr ..).trans (horr.trans ?_), ?_, ?_, ?_⟩
  · simp [State.issuedBy, State.clientCount_some, State.mono]
  · rw [State.clientCount_some, State.get_put_clear hwf _ (clients_clear _ hpB).2.1]
    exact hpend
  · rw [State.eq_besideOrr, State.clientCount_some, State.besideOrr_put, hb]
    exact State.besideOrr_put ..
  · rw [State.clientCount_some, wordsKept_put hwf hin']
    exact wordsKept_trans (wordsKept_issuedBy h hcli) (hwords _)

/-! Pointers (R186, R243). -/

theorem clsNum_cases (k : HardClass) : 2 ≤ clsNum k ∧ clsNum k ≤ 5 ∧ clsRepKind (clsNum k) = clsKind k := by cases k <;> decide

theorem engine_beside (k : HardClass) (u : Fin 8) : (engEn (clsNum k) u).besideClients ∧ (engNq (clsNum k) u).besideClients ∧ (engState (clsNum k) u).besideClients := by
  cases k <;> simp only [Fld.besideClients, Fld.span, clsNum, engEn, engNq, engState, engBase, EQ_ENG_CTL.reg, LDPCD_ENG_CTL.reg, LDPCE_ENG_CTL.reg,
    POL_ENG_CTL.reg, CTX_CLIc.reg] <;> omega

theorem absent_beside {k i j : Nat} (hk : k < 16) (hi : i < 64) (hj : j < 4) : (PWR_REP_UMAP.absent k i j).besideClients := by
  simp only [Fld.besideClients, Fld.span, PWR_REP_UMAP.absent, PWR_REP_UMAP.reg, CTX_CLIc.reg]
  omega

/-- A unit that has a job accepts no pointer (R187). -/
theorem State.engAccept_busy {cls i : Nat} (hjob : (s.unit cls i).job.isSome = true) (n : Nat) : s.engAccept cls i (n + 1) = .next (s.syncUnit cls i) := by
  have hbusy : (s.unit cls i).job.isNone = false := by simpa using hjob
  rw [State.engAccept, hbusy]
  split
  · next heq => cases heq
  · rfl

/-- A pointer joins the queue of a unit that takes pointers and has a job (R186, R187). -/
theorem State.pushNext_queued (k : HardClass) (u : Fin 8) (p : NextPtr) (hr : EngineRuns k u s) (hc : p.cls = clsNum k) (hu : p.unit = u.val) (hn : p.next ≠ 0)
    (hen : s.flag (engEn (clsNum k) u) = true) (hdr : (s.unit (clsNum k) u).draining = false) (hjob : (s.unit (clsNum k) u).job.isSome = true)
    (hlen : (s.unit (clsNum k) u).ptrs.length < 8) :
    s.pushNext p = .next ((s.withUnit (clsNum k) u fun x => { x with ptrs := x.ptrs ++ [⟨p.cl, p.next, none⟩] }).syncUnit (clsNum k) u) := by
  obtain ⟨h2, h5, hkind⟩ := clsNum_cases k
  obtain ⟨hcount, ⟨⟨-, hdom, hheld, -, -⟩, habs, -⟩⟩ := hr
  rw [← hkind] at habs
  have hacc : s.accepts (clsNum k) u = true := by simp [State.accepts, hen, hdr]
  have hfull : ¬ (s.unit (clsNum k) u).ptrs.length ≥ 8 := by omega
  rw [State.pushNext, if_neg hn, hc, hu, State.pushPtr, if_neg (by simp; omega)]
  simp only [hdom, habs, hheld, hacc, hfull, show ¬ clsNum k < 2 by omega, Bool.not_true, Bool.or_self, Bool.false_eq_true, if_false, decide_false]
  exact State.engAccept_busy (by simpa [State.unit, State.withUnit] using hjob) 8

/-- What is left as it was, beside the registers and the engines. -/
def State.besideHard (s : State) : State := { s with regs := [], now := SameCk.reset, hard := Vector.replicate 37 HardUnit.reset }

theorem State.eq_besideHard : t = { s with hard := t.hard, regs := t.regs, now := t.now } ↔ t.besideHard = s.besideHard := by
  cases s; cases t; simp [State.besideHard]

@[simp] theorem State.besideHard_put (f : Fld) (v : Nat) : (s.put f v).besideHard = s.besideHard := by rw [State.put_eq]; rfl
@[simp] theorem State.besideHard_withUnit (cls i : Nat) (f : HardUnit → HardUnit) : (s.withUnit cls i f).besideHard = s.besideHard := rfl
@[simp] theorem Regs.wf_withUnit (cls i : Nat) (f : HardUnit → HardUnit) : Regs.wf (s.withUnit cls i f) = Regs.wf s := Regs.wf_of_regs rfl
@[simp] theorem State.get_withUnit (cls i : Nat) (f : HardUnit → HardUnit) (g : Fld) : (s.withUnit cls i f).get g = s.get g :=
  State.get_of_regs (s := s) (t := s.withUnit cls i f) rfl g
@[simp] theorem wordsKept_withUnit {as : List Nat} (cls i : Nat) (f : HardUnit → HardUnit) : WordsKept s (t.withUnit cls i f) as ↔ WordsKept s t as :=
  wordsKept_of_regs rfl

/-- ENG_STAT follows the unit and nothing else changes (R186). -/
theorem State.syncUnit_fields (h : Regs.wf s = true) (k : HardClass) (u : Fin 8) : let t := s.syncUnit (clsNum k) u
    Regs.wf t = true ∧ t.hard = s.hard ∧ t.besideHard = s.besideHard ∧ (∀ as, WordsKept s t ((engBase (clsNum k) u + 0x10) :: as)) ∧
      ∀ g : Fld, (engNq (clsNum k) u).clear g = true → (engState (clsNum k) u).clear g = true → t.get g = s.get g := by
  obtain ⟨h2, -⟩ := clsNum_cases k
  have hin (as : List Nat) : (engNq (clsNum k) u).within ((engBase (clsNum k) u + 0x10) :: as) = true ∧
      (engState (clsNum k) u).within ((engBase (clsNum k) u + 0x10) :: as) = true := by
    simp [Fld.within, Fld.span, engNq, engState]
  rw [State.syncUnit, if_neg (by omega)]
  refine ⟨by simp [h], by simp, by simp, fun as => ?_, fun g hq hs => ?_⟩
  · simp [wordsKept_put, h, (hin as).1, (hin as).2]
  · simp [State.get_put_clear, h, hq, hs]

/-- The unit of a descriptor's pointer runs also after its client has counted it. -/
theorem engineRuns_issuedBy {k : HardClass} {u : Fin 8} (h : Regs.wf s = true) (hr : EngineRuns k u s) : EngineRuns k u (s.issuedBy c) := by
  obtain ⟨hcount, hruns, habs, hheld⟩ := hr
  have hclk : CLK_STAT.mpll.besideClients ∧ CLK_STAT.lpll.besideClients := by simp +decide [Fld.besideClients]
  refine ⟨hcount, runs_of_kept hruns (State.put_pwr ..) (State.get_issuedBy h hclk.1) (State.get_issuedBy h hclk.2), ?_, ?_⟩
  · rw [State.absent, State.flag, State.get_issuedBy h (absent_beside (by cases k <;> decide) (by omega) (by omega))]
    exact habs
  · simpa [State.unitHeld, State.issuedBy, State.clientCount_some] using hheld

/-- A kind 1 descriptor pushes its pointer (R243). -/
theorem State.deliverJob_pointer (h : Regs.wf s = true) (hbad : s.jobBad d = false) (hkind : jKind d = 1) (k : HardClass) (u : Fin 8) (p : NextPtr)
    (hp : p = nextPtr (dfield d 24 0 64)) (hc : p.cls = clsNum k) (hu : p.unit = u.val) (hr : EngineRuns k u s)
    (hen : s.flag (engEn (clsNum k) u) = true) (hdr : (s.unit (clsNum k) u).draining = false) (hjob : (s.unit (clsNum k) u).job.isSome = true)
    (hlen : (s.unit (clsNum k) u).ptrs.length < 8) :
    ∃ t, s.deliverJob d none = .next t ∧ Counted (CTX_CLIc.issued (jClient d)) s t ∧ Counted (CTX_CLIc.ended (jClient d)) s t ∧
      t.hard = s.hard.set (unitIx (clsNum k) u).val { s.unit (clsNum k) u with ptrs := (s.unit (clsNum k) u).ptrs ++ [⟨p.cl, p.next, none⟩] } ∧
      t.besideHard = s.besideHard ∧ WordsKept s t ((engBase (clsNum k) u + 0x10) :: clientWords (jClient d)) := by
  have hnext : p.next ≠ 0 := by
    rw [State.jobBad, hkind, ← hp] at hbad
    simp only [Bool.or_eq_false_iff, decide_eq_false_iff_not] at hbad
    exact hbad.2.2
  have hA := Regs.wf_issuedBy h (jClient d)
  obtain ⟨henB, hnqB, hstB⟩ := engine_beside k u
  have hunit : (s.issuedBy (jClient d)).unit (clsNum k) u = s.unit (clsNum k) u := by simp [State.unit, State.issuedBy, State.clientCount_some]
  have hpush := State.pushNext_queued k u p (engineRuns_issuedBy (c := jClient d) h hr) hc hu hnext (by rwa [State.flag, State.get_issuedBy h henB])
    (by rwa [hunit]) (by rwa [hunit]) (by rwa [hunit])
  obtain ⟨hwf, hhard, hb, hwords, hother⟩ := State.syncUnit_fields (s := (s.issuedBy (jClient d)).withUnit (clsNum k) u fun x =>
    { x with ptrs := x.ptrs ++ [⟨p.cl, p.next, none⟩] }) (by simpa using hA) k u
  obtain ⟨hqi, hqe, -⟩ := besideClients_clear hnqB (jClient d)
  obtain ⟨hsi, hse, -⟩ := besideClients_clear hstB (jClient d)
  obtain ⟨hiss, hend⟩ := counted_around h hwf ((hother _ hqi hsi).trans (State.get_withUnit ..)) ((hother _ hqe hse).trans (State.get_withUnit ..))
  have hcli : clientWords (jClient d) ⊆ (engBase (clsNum k) u + 0x10) :: clientWords (jClient d) := fun _ ha => by simp [ha]
  have hin' := (clients_within (jClient d) hcli).2.1
  refine ⟨_, ?_, hiss, hend, ?_, ?_, ?_⟩
  · rw [State.deliverJob]
    simp only [hbad, hkind, Bool.false_eq_true, if_false, ← hp]
    rw [← State.issuedBy, hpush, andThen]
  · rw [State.clientCount_some, State.put_hard, hhard]
    simp [State.withUnit, State.issuedBy, State.clientCount_some, State.unit]
  · rw [State.clientCount_some, State.besideHard_put, hb, State.besideHard_withUnit, State.issuedBy, State.clientCount_some, State.besideHard_put]
  · rw [State.clientCount_some, wordsKept_put hwf hin']
    exact wordsKept_trans ((wordsKept_withUnit ..).mpr (wordsKept_issuedBy h hcli)) (hwords _)

/-! Queue starts (R133, R243). -/

@[simp] theorem State.dq_withDq (cl : Fin 8) (q : Fin 32) (f : DQueue → DQueue) : (s.withDq cl q f).dq cl q = f (s.dq cl q) := by
  simp [State.dq, State.withDq]

theorem State.dq_withDq_other {cl a : Fin 8} {q b : Fin 32} (hne : a ≠ cl ∨ b ≠ q) (f : DQueue → DQueue) : (s.withDq cl q f).dq a b = s.dq a b := by
  have hv : 32 * cl.val + q.val ≠ 32 * a.val + b.val := by
    simp only [ne_eq, Fin.ext_iff] at hne
    omega
  simp [State.dq, State.withDq, Vector.getElem_set_ne, hv]

@[simp] theorem State.dq_put (f : Fld) (v : Nat) (cl : Fin 8) (q : Fin 32) : (s.put f v).dq cl q = s.dq cl q := by simp [State.dq]
@[simp] theorem State.get_withDq (cl : Fin 8) (q : Fin 32) (f : DQueue → DQueue) (g : Fld) : (s.withDq cl q f).get g = s.get g :=
  State.get_of_regs (s := s) (t := s.withDq cl q f) rfl g
@[simp] theorem Regs.wf_withDq (cl : Fin 8) (q : Fin 32) (f : DQueue → DQueue) : Regs.wf (s.withDq cl q f) = Regs.wf s := Regs.wf_of_regs rfl
@[simp] theorem wordsKept_withDq {as : List Nat} (cl : Fin 8) (q : Fin 32) (f : DQueue → DQueue) : WordsKept s (t.withDq cl q f) as ↔ WordsKept s t as :=
  wordsKept_of_regs rfl
@[simp] theorem State.withDq_mem (cl : Fin 8) (q : Fin 32) (f : DQueue → DQueue) : (s.withDq cl q f).mem = s.mem := rfl

/-- Where a ring lies is a matter of the queue's registers (R133). -/
theorem State.dmaRing_of (cl : Fin 8) (q : Fin 32) (o : Nat) (h : t.get (DMA_Qn_RING.offset cl q) = s.get (DMA_Qn_RING.offset cl q)) :
    t.dmaRing cl q o = s.dmaRing cl q o := by rw [State.dmaRing, State.dmaRing, h]

theorem State.dmaLog_of (cl : Fin 8) (q : Fin 32) (h : t.get (DMA_Qn_RING.log2size cl q) = s.get (DMA_Qn_RING.log2size cl q)) :
    t.dmaLog cl q = s.dmaLog cl q := by rw [State.dmaLog, State.dmaLog, h]

theorem State.bytes_of_mem (h : t.mem = s.mem) (a n : Nat) : t.bytes a n = s.bytes a n := by
  induction n generalizing a with
  | zero => rfl
  | succ n ih => rw [State.bytes, State.bytes, ih, State.byte, State.byte, h]

theorem State.le_of_mem (h : t.mem = s.mem) (a n : Nat) : t.le a n = s.le a n := congrArg natOfBytes (State.bytes_of_mem h a n)

/-- The queue with a descriptor taken up, none of its lines moved. -/
def DQueue.taken (y : DQueue) (x : BitVec 512) : DQueue :=
  { y with desc := some x, row := 0, piece := 0, comp := false, ahead := [], fifo := [], sent := 0, drop := 0, lag := Vector.replicate 8 0
           credit := Vector.replicate 8 none }

/-- A ring that holds a sound descriptor at cons gives it to its queue (R133, R135). -/
theorem State.dmaNext_takes (cl : Fin 8) (q : Fin 32) (n : Nat) {x : BitVec 512} (hne : (s.dq cl q).prod ≠ (s.dq cl q).cons)
    (hfit : ((s.dq cl q).prod - (s.dq cl q).cons).toNat ≤ 2 ^ s.dmaLog cl q)
    (hx : x = BitVec.ofNat 512 (s.le (s.dmaRing cl q (64 + 64 * ((s.dq cl q).cons.toNat % 2 ^ s.dmaLog cl q))) 64)) (hsound : dReserved x = false) :
    s.dmaNext cl q (n + 1) = s.withDq cl q (DQueue.taken · x) := by
  rw [State.dmaNext]
  simp only [if_neg hne, if_neg (Nat.not_lt.mpr hfit), gt_iff_lt, ← hx, hsound, Bool.false_eq_true, if_false]
  rfl

theorem dmaStat_clear (cl : Fin 8) (q : Fin 32) : (DMA_Qn_STAT.cancelled cl q).clear (DMA_Qn_STAT.busy cl q) = true ∧
    (DMA_Qn_STAT.busy cl q).clear (DMA_Qn_RING.offset cl q) = true ∧ (DMA_Qn_STAT.cancelled cl q).clear (DMA_Qn_RING.offset cl q) = true ∧
    (DMA_Qn_STAT.busy cl q).clear (DMA_Qn_RING.log2size cl q) = true ∧ (DMA_Qn_STAT.cancelled cl q).clear (DMA_Qn_RING.log2size cl q) = true := by
  simp only [Fld.clear_iff, Fld.span, true_and, DMA_Qn_STAT.cancelled, DMA_Qn_STAT.busy, DMA_Qn_RING.offset, DMA_Qn_RING.log2size, DMA_Qn_STAT.reg, DMA_Qn_RING.reg]
  omega

/-- A queue that reads its ring's header, busy from now on. -/
def State.dmaBusy (s : State) (cl : Fin 8) (q : Fin 32) : State :=
  ((s.put (DMA_Qn_STAT.busy cl q) 1).put (DMA_Qn_STAT.cancelled cl q) 0)

/-- A queue that starts takes the first descriptor of its ring (R133, R135). -/
theorem State.dmaStart_takes (h : Regs.wf s = true) (cl : Fin 8) (q : Fin 32) (x : BitVec 512) (hen : s.get (DMA_Qn_RING.en cl q) = 1)
    (hbusy : s.get (DMA_Qn_STAT.busy cl q) = 0) :
    let cons := BitVec.ofNat 32 (s.le (s.dmaRing cl q 4) 4)
    let prod := BitVec.ofNat 32 (s.le (s.dmaRing cl q 0) 4)
    prod ≠ cons → (prod - cons).toNat ≤ 2 ^ s.dmaLog cl q → x = BitVec.ofNat 512 (s.le (s.dmaRing cl q (64 + 64 * (cons.toNat % 2 ^ s.dmaLog cl q))) 64) →
    dReserved x = false →
    let t := s.dmaStart cl q
    Regs.wf t = true ∧ (t.dq cl q).desc = some x ∧ (t.dq cl q).row = 0 ∧ (t.dq cl q).cons = cons ∧ t.get (DMA_Qn_STAT.busy cl q) = 1 ∧ t.mem = s.mem ∧
      (∀ a b, a ≠ cl ∨ b ≠ q → t.dq a b = s.dq a b) ∧ (∀ as, WordsKept s t (DMA_Qn_STAT.reg cl q :: as)) ∧
      ∀ g : Fld, (DMA_Qn_STAT.busy cl q).clear g = true → (DMA_Qn_STAT.cancelled cl q).clear g = true → t.get g = s.get g := by
  intro cons prod hne hfit hx hsound
  obtain ⟨hcb, hbo, hco, hbl, hcl⟩ := dmaStat_clear cl q
  have hw : Regs.wf (s.dmaBusy cl q) = true := by simp [State.dmaBusy, h]
  have hm : (s.dmaBusy cl q).mem = s.mem := by simp [State.dmaBusy]
  have hring (o : Nat) : (s.dmaBusy cl q).dmaRing cl q o = s.dmaRing cl q o :=
    State.dmaRing_of cl q o (by simp [State.dmaBusy, State.get_put_clear, h, hbo, hco])
  have hlog : (s.dmaBusy cl q).dmaLog cl q = s.dmaLog cl q := State.dmaLog_of cl q (by simp [State.dmaBusy, State.get_put_clear, h, hbl, hcl])
  have hstart : ∃ (f : DQueue → DQueue) (k : Nat), s.dmaStart cl q = ((s.dmaBusy cl q).withDq cl q f).dmaNext cl q (k + 1) ∧
      (∀ y, (f y).prod = prod) ∧ ∀ y, (f y).cons = cons := by
    have hif : ¬ (!s.flag (DMA_Qn_RING.en cl q) || s.flag (DMA_Qn_STAT.busy cl q)) = true := by simp [State.flag, hen, hbusy]
    rw [State.dmaStart, if_neg hif]
    refine ⟨_, _, rfl, fun y => ?_, fun y => ?_⟩
    · exact congrArg (BitVec.ofNat 32) ((State.le_of_mem hm ..).trans (congrArg (s.le · 4) (hring 0)))
    · exact congrArg (BitVec.ofNat 32) ((State.le_of_mem hm ..).trans (congrArg (s.le · 4) (hring 4)))
  obtain ⟨f, k, hf, hprod, hcons⟩ := hstart
  have hring' (o : Nat) : ((s.dmaBusy cl q).withDq cl q f).dmaRing cl q o = s.dmaRing cl q o :=
    (State.dmaRing_of cl q o (State.get_withDq ..)).trans (hring o)
  have hlog' : ((s.dmaBusy cl q).withDq cl q f).dmaLog cl q = s.dmaLog cl q := (State.dmaLog_of cl q (State.get_withDq ..)).trans hlog
  have htake := State.dmaNext_takes (s := (s.dmaBusy cl q).withDq cl q f) cl q k (x := x) (by simpa [hprod, hcons] using hne)
    (by simpa [hprod, hcons, hlog'] using hfit) ?_ hsound
  · have hin (as : List Nat) : (DMA_Qn_STAT.busy cl q).within (DMA_Qn_STAT.reg cl q :: as) = true ∧
        (DMA_Qn_STAT.cancelled cl q).within (DMA_Qn_STAT.reg cl q :: as) = true := by
      simp [Fld.within, Fld.span, DMA_Qn_STAT.busy, DMA_Qn_STAT.cancelled]
    rw [hf, htake]
    refine ⟨by simpa using hw, by simp [DQueue.taken], by simp [DQueue.taken], by simp [DQueue.taken, hcons], ?_, by simpa using hm, fun a b hab => ?_,
      fun as => ?_, fun g hb hc => ?_⟩
    · rw [State.get_withDq, State.get_withDq, State.dmaBusy, State.get_put_clear (by simp [h]) _ hcb, State.get_put h]
      rfl
    · rw [State.dq_withDq_other hab, State.dq_withDq_other hab]
      simp [State.dmaBusy]
    · simp [State.dmaBusy, wordsKept_put, h, (hin as).1, (hin as).2]
    · simp [State.dmaBusy, State.get_put_clear, h, hb, hc]
  · rw [hx, State.dq_withDq, hcons, hlog', hring', State.le_of_mem (State.withDq_mem .. |>.trans hm)]

theorem dma_beside (cl : Fin 8) (q : Fin 32) : (DMA_Qn_STAT.busy cl q).besideClients ∧ (DMA_Qn_STAT.cancelled cl q).besideClients ∧
    (DMA_Qn_RING.en cl q).besideClients ∧ (DMA_Qn_RING.offset cl q).besideClients ∧ (DMA_Qn_RING.log2size cl q).besideClients := by
  simp only [Fld.besideClients, Fld.span, DMA_Qn_STAT.cancelled, DMA_Qn_STAT.busy, DMA_Qn_RING.en, DMA_Qn_RING.offset, DMA_Qn_RING.log2size, DMA_Qn_STAT.reg,
    DMA_Qn_RING.reg, CTX_CLIc.reg]
  omega

/-- A kind 2 descriptor starts its queue (R133, R243). -/
theorem State.deliverJob_start (h : Regs.wf s = true) (hbad : s.jobBad d = false) (hkind : jKind d = 2) (cl : Fin 8) (q : Fin 32) (x : BitVec 512)
    (hcl : cl.val = dfield d 24 0 3) (hq : q.val = dfield d 24 8 5) (hdom : s.domOn (72 + cl.val) = true)
    (hen : s.get (DMA_Qn_RING.en cl q) = 1) (hbusy : s.get (DMA_Qn_STAT.busy cl q) = 0) :
    let cons := BitVec.ofNat 32 (s.le (s.dmaRing cl q 4) 4)
    let prod := BitVec.ofNat 32 (s.le (s.dmaRing cl q 0) 4)
    prod ≠ cons → (prod - cons).toNat ≤ 2 ^ s.dmaLog cl q → x = BitVec.ofNat 512 (s.le (s.dmaRing cl q (64 + 64 * (cons.toNat % 2 ^ s.dmaLog cl q))) 64) →
    dReserved x = false →
    ∃ t, s.deliverJob d none = .next t ∧ Counted (CTX_CLIc.issued (jClient d)) s t ∧ Counted (CTX_CLIc.ended (jClient d)) s t ∧
      (t.dq cl q).desc = some x ∧ (t.dq cl q).row = 0 ∧ (t.dq cl q).cons = cons ∧ t.get (DMA_Qn_STAT.busy cl q) = 1 ∧ t.mem = s.mem ∧
      (∀ a b, a ≠ cl ∨ b ≠ q → t.dq a b = s.dq a b) ∧ WordsKept s t (DMA_Qn_STAT.reg cl q :: clientWords (jClient d)) := by
  intro cons prod hne hfit hx hsound
  obtain ⟨hbB, hcB, heB, hoB, hlB⟩ := dma_beside cl q
  have hA := Regs.wf_issuedBy h (jClient d)
  have hm : (s.issuedBy (jClient d)).mem = s.mem := by simp [State.issuedBy, State.clientCount_some]
  have hring (o : Nat) : (s.issuedBy (jClient d)).dmaRing cl q o = s.dmaRing cl q o := State.dmaRing_of cl q o (State.get_issuedBy h hoB)
  have hlog : (s.issuedBy (jClient d)).dmaLog cl q = s.dmaLog cl q := State.dmaLog_of cl q (State.get_issuedBy h hlB)
  have hle (o n : Nat) : (s.issuedBy (jClient d)).le ((s.issuedBy (jClient d)).dmaRing cl q o) n = s.le (s.dmaRing cl q o) n := by
    rw [hring, State.le_of_mem hm]
  have hstart := State.dmaStart_takes hA cl q x ((State.get_issuedBy h heB).trans hen) ((State.get_issuedBy h hbB).trans hbusy)
  simp only [hle, hlog] at hstart
  obtain ⟨hwf, hdesc, hrow, hcons, hbusy', hmem, hdq, hwords, hother⟩ := hstart hne hfit hx hsound
  obtain ⟨hbi, hbe, -⟩ := besideClients_clear hbB (jClient d)
  obtain ⟨hci, hce, -⟩ := besideClients_clear hcB (jClient d)
  obtain ⟨hiss, hend⟩ := counted_around h hwf (hother _ hbi hci) (hother _ hbe hce)
  have hcli : clientWords (jClient d) ⊆ DMA_Qn_STAT.reg cl q :: clientWords (jClient d) := fun _ ha => by simp [ha]
  have hcl' : Fin.ofNat 8 (dfield d 24 0 3) = cl := by rw [← hcl]; exact Fin.ofNat_val_eq_self cl
  have hq' : Fin.ofNat 32 (dfield d 24 8 5) = q := by rw [← hq]; exact Fin.ofNat_val_eq_self q
  refine ⟨_, ?_, hiss, hend, ?_, ?_, ?_, ?_, ?_, fun a b hab => ?_, ?_⟩
  · rw [State.deliverJob]
    simp only [hbad, hkind, Bool.false_eq_true, if_false, hcl', hq', hdom, Bool.not_true, Bool.and_false, faultIf_false, State.issuedBy]
  · rwa [State.clientCount_some, State.dq_put]
  · rwa [State.clientCount_some, State.dq_put]
  · rwa [State.clientCount_some, State.dq_put]
  · rw [State.clientCount_some, State.get_put_clear hwf _ (clients_clear _ hbB).2.1, hbusy']
  · rw [State.clientCount_some, State.put_mem, hmem, hm]
  · rw [State.clientCount_some, State.dq_put, hdq a b hab]
    exact State.dq_put ..
  · rw [State.clientCount_some, wordsKept_put hwf (clients_within _ hcli).2.1]
    exact wordsKept_trans (wordsKept_issuedBy h hcli) (hwords _)

/-! The rows of R243. -/

/-- A tile job arrives at the context unit. -/
theorem exec_tileJob (hr : Runs 82 1 s) (hbad : s.jobBad d = false) (hkind : jKind d = 0) (hwake : jWake d = false) (hon : s.watchOn d = true) :
    exec (.tileJob d) s = .next (s.queueJob d none) := by
  change execTileJob d s = _
  rw [execTileJob, inside_eq hr, State.deliverJob]
  simp [hkind, hwake, hbad, hon]

/-- The row of a descriptor's kind (R242, R243). -/
def jobRow (d : BitVec 512) : Instr :=
  if jKind d = 3 ∨ (jKind d = 0 ∧ jWake d = false) then .tileJob d else if jKind d = 0 then .wake d
  else if jKind d = 1 then .hardEnginePointer d else .dmaQueueStart d

/-- The row of a bad descriptor skips it (R244). -/
theorem exec_jobRow_bad (hr : Runs 82 1 s) (hbad : s.jobBad d = true) : exec (jobRow d) s = .next (s.jobSkip d) := by
  have hdeliver : s.deliverJob d none = .next (s.jobSkip d) := by simp [State.deliverJob, hbad]
  have hlt : jKind d < 4 := dfield_lt ..
  rw [jobRow]
  split_ifs with htile hwake hptr
  · change execTileJob d s = _
    rw [execTileJob, inside_eq hr, if_pos (by simpa using htile), hdeliver]
  · change execWake d s = _
    rw [execWake, inside_eq hr, if_pos, hdeliver]
    simp_all
  · change execHardEnginePointer d s = _
    rw [execHardEnginePointer, inside_eq hr, if_pos hptr, hdeliver]
  · change execDmaQueueStart d s = _
    rw [execDmaQueueStart, inside_eq hr, if_pos, hdeliver]
    omega

/-! Scans of a ring (R44, R45). -/

@[simp] theorem length_bytesOf (n v : Nat) : (bytesOf n v).length = n := by
  induction n generalizing v with
  | zero => rfl
  | succ n ih => simp [bytesOf, ih]

/-- A number that is stored in bytes reads back below the bytes' range. -/
theorem natOfBytes_bytesOf (n v : Nat) : natOfBytes (bytesOf n v) = v % 256 ^ n := by
  induction n generalizing v with
  | zero => simp [bytesOf, natOfBytes, Nat.mod_one]
  | succ n ih =>
    have hmod : v % 256 ^ (n + 1) = v % 256 + 256 * (v / 256 % 256 ^ n) := by rw [pow_succ', Nat.mod_mul]
    rw [bytesOf, natOfBytes, ih, BitVec.toNat_ofNat, hmod]

theorem State.engine_withEngine_other {i e : Fin 8} (hi : i ≠ e) (f : Engine → Engine) : (s.withEngine e f).engine i = s.engine i :=
  State.engine_of_besideEngine (State.besideEngine_withEngine f) hi

/-- What a queued job says of the state before and after is a matter of the contexts and of the registers. -/
theorem jobQueued_of {s' t' : State} (h : JobQueued d s t) (hc : s'.cx = s.cx) (hr : s'.regs = s.regs) (hc' : t'.cx = t.cx) (hr' : t'.regs = t.regs) :
    JobQueued d s' t' := by
  have hg : s'.get = s.get := funext (State.get_of_regs hr)
  have hg' : t'.get = t.get := funext (State.get_of_regs hr')
  have hctx : s'.ctx = s.ctx := funext fun i => by rw [State.ctx, State.ctx, hc]
  have hctx' : t'.ctx = t.ctx := funext fun i => by rw [State.ctx, State.ctx, hc']
  have hst : s'.cstate = s.cstate := funext fun i => by rw [State.cstate, State.cstate, hg]
  have hst' : t'.cstate = t.cstate := funext fun i => by rw [State.cstate, State.cstate, hg']
  have hk : WordsKept s' t' = WordsKept s t := funext fun as => by simp only [WordsKept, State.word, hr, hr']
  rw [JobQueued, Counted] at h ⊢
  rw [hg, hg', hctx, hctx', hst, hst', hk, hc, hc']
  exact h

theorem State.jobBad_of_regs (h : t.regs = s.regs) (d : BitVec 512) : t.jobBad d = s.jobBad d := by
  have hflag : t.flag = s.flag := funext fun f => by rw [State.flag, State.flag, State.get_of_regs h]
  have hcls : t.ccls = s.ccls := funext fun i => by rw [State.ccls, State.ccls, State.get_of_regs h]
  rw [State.jobBad, State.jobBad, hflag, hcls]

/-- A read of sound memory notes nothing (R316). -/
theorem State.checkRead_eq (hr : Runs 82 1 s) (he : NoErrors s) (a n : Nat) : s.checkRead a n = s := by
  obtain ⟨-, -, hheld, hlck, -⟩ := hr
  obtain ⟨hf, hl⟩ := he
  simp [State.checkRead, State.noteAccess, State.raiseIf, hheld, hlck, hf, hl]

/-- A sound tile job without a watch is queued at its delivery (R248). -/
theorem State.deliverJob_queues (hbad : s.jobBad d = false) (hkind : jKind d = 0) (hwake : jWake d = false) (hwen : jWen d = false) :
    s.deliverJob d none = .next (s.queueJob d none) := by
  have hon : s.watchOn d = true := by simp [State.watchOn, hwen]
  rw [State.deliverJob]
  simp [hkind, hwake, hbad, hon]

/-- The scan after the delivery of one descriptor. -/
def Scan.delivered (x : Scan) : Scan := { x with next := x.next + 1, left := x.left - 1, i := x.i + 1 }

/-- The delivery of a descriptor from the only scan of an engine (R44, R45). -/
theorem exec_descriptorDelivery {e : Fin 8} {x : Scan} (hu : UnitRuns 82 1 11 e s) (he : NoErrors s) (hs : (s.engine e).scans = [x]) (hl : x.left ≠ 0)
    (hd : monoLe x.due s.mono = true) :
    let a := clusterBase x.cl + (x.off + 64 + 64 * (x.next.toNat % 2 ^ x.log)) % 2 ^ 24
    s.addrOn a = true → exec (.descriptorDelivery e) s =
      andThen ((s.withEngine e fun y => { y with scans := if x.left = 1 then [] else [x.delivered] }).deliverJob (BitVec.ofNat 512 (s.le a 64)) none) fun t =>
        .next (if x.left = 1 then t.withOrr fun o => { o with cons := o.cons ++ [(clusterBase x.cl + x.off + 4, x.next + 1)] } else t) := by
  intro a ha
  change execDescriptorDelivery e s = _
  have hfirst : firstScan s.mono [x] = some (0, x.due) := by simp [firstScan, hl, hd]
  have hone : (x.left - 1 = 0) = (x.left = 1) := propext (by omega)
  have hscan : (s.withEngine e fun y => { y with scans := if x.left = 1 then y.scans.eraseIdx 0 else y.scans.set 0 x.delivered }) =
      s.withEngine e fun y => { y with scans := if x.left = 1 then [] else [x.delivered] } := by
    have hs' : s.orr.eng[e.val].scans = [x] := hs
    simp [State.withEngine, hs']
  rw [execDescriptorDelivery, insideUnit_eq hu, hs, hfirst]
  simp only [List.getElem?_cons_zero, ha, a, Bool.not_true, faultIf_false, State.checkRead_eq hu.1 he, hone]
  rw [← hscan]
  rfl

end Sys2Proof.Machine

namespace Sys2Proof.Proofs

open Sys2Proof.Machine Sys2Proof.Claims

/-- Settles O45: each kind of descriptor by what its unit does with it, between the two counts of its client. -/
theorem descriptorsReachTheirUnits : Obligations.DescriptorsReachTheirUnits := by
  unfold Obligations.DescriptorsReachTheirUnits
  intro s d k u e hr h hmem herr n c cli row
  refine ⟨fun hbad => ?_, fun hbad => ⟨fun hkind hwake hdr => ⟨fun hlen hwen => ?_, fun hlen hon => ?_⟩, fun hkind hwake hdr hjob hfen => ?_,
    fun p hkind hp hc hu hruns hen hdr hjob hlen => ?_, fun cl q x hkind hcl hq hdom => ?_⟩, fun x habs hheld hscan hleft hdue => ?_, fun a v hcons ha => ?_⟩
  · obtain ⟨hb, hctx, htag, hdrop, hregs⟩ := State.jobSkip_skips h d
    exact completes_of_exec (exec_jobRow_bad hr hbad) ⟨hb, hctx, htag, hdrop, hregs⟩
  · obtain ⟨hq, hb⟩ := State.queueJob_queued h hdr hlen hwen
    exact completes_of_exec (exec_tileJob hr hbad hkind hwake (by simp [State.watchOn, hwen])) ⟨hq, State.eq_besideCx.mpr hb⟩
  · exact completes_of_exec (exec_tileJob hr hbad hkind hwake hon) (State.queueJob_full h hdr hlen)
  · have hx : exec (.wake d) s = .next (s.wakeJob d) := by
      change execWake d s = _
      rw [execWake, inside_eq hr, State.deliverJob]
      simp [hkind, hwake, hbad]
    exact completes_of_exec hx (State.wakeJob_wakes h hdr hjob hfen)
  · obtain ⟨t, hx, hiss, hend, hhard, hb, hwords⟩ := State.deliverJob_pointer h hbad hkind k u p hp hc hu hruns hen hdr hjob hlen
    have hex : exec (.hardEnginePointer d) s = .next t := by
      change execHardEnginePointer d s = _
      rw [execHardEnginePointer, inside_eq hr, if_pos hkind, hx]
    refine completes_of_exec hex ⟨hiss, hend, ?_, fun i hi => ?_, State.eq_besideHard.mpr hb, hwords⟩
    · simp [State.unit, hhard]
    · have hv : (unitIx (clsNum k) u).val ≠ i.val := fun e => hi (Fin.ext e.symm)
      simp [hhard, Vector.getElem_set_ne, hv]
  · intro ring cons prod hen hbusy hne hfit hx hsound
    obtain ⟨t, hd, hiss, hend, hdesc, hrow, hcons, hbusy', hmem', hdq, hwords⟩ :=
      State.deliverJob_start h hbad hkind cl q x hcl hq hdom hen hbusy hne hfit hx hsound
    have hex : exec (.dmaQueueStart d) s = .next t := by
      change execDmaQueueStart d s = _
      rw [execDmaQueueStart, inside_eq hr, if_pos hkind, hd]
    exact completes_of_exec hex ⟨hiss, hend, hdesc, hrow, hcons, hbusy', hmem', hdq, hwords⟩
  · intro at_ ha hd hbad hkind hwake hwen hdr hlen
    have hx := exec_descriptorDelivery ⟨hr, habs, hheld⟩ herr hscan hleft hdue ha
    rw [← hd, State.deliverJob_queues (s := s.withEngine e _) ((State.jobBad_of_regs (State.withEngine_regs ..) d).trans hbad) hkind hwake hwen, andThen_next] at hx
    obtain ⟨hq, hb⟩ := State.queueJob_queued (s := s.withEngine e fun y => { y with scans := if x.left = 1 then [] else [x.delivered] })
      (by simpa using h) hdr hlen hwen
    generalize State.queueJob (s.withEngine e _) d none = t at hx hq hb
    have hq' : JobQueued d s t := jobQueued_of hq rfl rfl rfl rfl
    have horr : t.orr = (s.withEngine e fun y => { y with scans := if x.left = 1 then [] else [x.delivered] }).orr := congrArg (·.orr) hb
    have heng (i : Fin 8) : t.engine i = (s.withEngine e fun y => { y with scans := if x.left = 1 then [] else [x.delivered] }).engine i :=
      congrArg (fun o : Orrery => o.eng[i.val]) horr
    have hscans : (t.engine e).scans = if x.left = 1 then [] else [x.delivered] := by rw [heng, State.engine_withEngine]
    have hother (i : Fin 8) (hi : i ≠ e) : t.engine i = s.engine i := (heng i).trans (State.engine_withEngine_other hi _)
    have hcons : t.orr.cons = s.orr.cons := congrArg (·.cons) horr
    have hm : t.mem = s.mem := congrArg (·.mem) hb
    by_cases hone : x.left = 1
    · simp only [hone, if_true] at hx hscans ⊢
      exact completes_of_exec hx ⟨jobQueued_of hq' rfl rfl rfl rfl, hscans, hother, hm, congrArg (· ++ _) hcons⟩
    · simp only [hone, if_false] at hx hscans ⊢
      exact completes_of_exec hx ⟨hq', hscans, hother, hm, hcons.trans (List.append_nil _).symm⟩
  · have hset : s.writeCons = (s.withOrr fun o => { o with cons := [] }).setLe a 4 v.toNat := by
      have hon : (s.withOrr fun o => { o with cons := [] }).addrOn a = true := (State.addrOn_of (State.withOrr_regs ..) (State.withOrr_pwr ..) a).trans ha
      simp [State.writeCons, hcons, hon]
    have hlen : (bytesOf 4 v.toNat).length = 4 := length_bytesOf ..
    have hw : Memory.wf (s.withOrr fun o => { o with cons := [] }) = true := hmem
    rw [hset]
    refine ⟨?_, ?_, fun z hz => ?_⟩
    · rw [State.le_setLe hw a 4 _ hlen]
      exact (natOfBytes_bytesOf ..).trans (Nat.mod_eq_of_lt v.isLt)
    · rw [State.setLe, State.setBytes_eq]
      rfl
    · exact (State.byte_setBytes_other hw _ _ _ (by rw [hlen]; exact hz)).trans rfl

end Sys2Proof.Proofs
end

section
/-! ## O50: frames leave at boundaries -/

namespace Sys2Proof.Machine

open Sys2Proof.Claims

variable {s t u : State} {p : Fin 32} {k : Fin 4}

/-! LPDDR6 as movement reads and writes it (R119, R316). -/

theorem regionOf_lpddr {a : Nat} (h : a < 0xF00000000) : regionOf a = .lpddr := if_pos h

/-- The state with other notes of the ck. -/
def State.noting (s : State) (n : SameCk) : State := { s with now := n }

/-- A store by movement into LPDDR6: the bytes, and the notes of the ck. -/
def StoredAt (a : Nat) (bs : List (BitVec 8)) (s u : State) : Prop := ∃ n, u = (s.setBytes a bs).noting n

theorem State.setBytes_noting (n : SameCk) (a : Nat) (bs : List (BitVec 8)) : (s.noting n).setBytes a bs = (s.setBytes a bs).noting n := by
  induction bs generalizing s a with
  | nil => rfl
  | cons b bs ih => exact ih (s := s.setByte a b) (a + 1)

theorem State.putBytes_stored (q a : Nat) (bs : List (BitVec 8)) (h : a + bs.length ≤ 0xF00000000) : StoredAt a bs s (s.putBytes q a bs) := by
  induction bs generalizing s a with
  | nil => exact ⟨s.now, rfl⟩
  | cons b bs ih =>
    rw [List.length_cons] at h
    have hbyte : ∃ n, s.putByte q a b = (s.setByte a b).noting n := by
      rw [State.putByte, regionOf_lpddr (by omega)]
      exact ⟨_, rfl⟩
    obtain ⟨n, hn⟩ := hbyte
    obtain ⟨n', hn'⟩ := ih (s := s.putByte q a b) (a + 1) (by omega)
    refine ⟨n', hn'.trans ?_⟩
    rw [hn, State.setBytes_noting]
    rfl

/-- What StoredAt says of memory. -/
theorem StoredAt.mem {a : Nat} {bs : List (BitVec 8)} (h : StoredAt a bs s u) : u.mem = (s.setBytes a bs).mem := by
  obtain ⟨n, rfl⟩ := h
  rfl

/-- What a state is beside memory, the errors met there and the notes of the ck. -/
def State.besideMem (s : State) : State := { s with mem := [], flaws := [], now := SameCk.reset }

theorem StoredAt.beside {a : Nat} {bs : List (BitVec 8)} (h : StoredAt a bs s u) : u.besideMem = s.besideMem := by
  obtain ⟨n, rfl⟩ := h
  rw [State.setBytes_eq]
  rfl

theorem StoredAt.regs {a : Nat} {bs : List (BitVec 8)} (h : StoredAt a bs s u) : u.regs = s.regs := by
  obtain ⟨n, rfl⟩ := h
  exact State.setBytes_regs ..

theorem StoredAt.pwr {a : Nat} {bs : List (BitVec 8)} (h : StoredAt a bs s u) : u.pwr = s.pwr := by
  obtain ⟨n, rfl⟩ := h
  exact State.setBytes_pwr ..

theorem StoredAt.opt {a : Nat} {bs : List (BitVec 8)} (h : StoredAt a bs s u) : u.opt = s.opt := by
  obtain ⟨n, rfl⟩ := h
  exact State.setBytes_opt ..

theorem StoredAt.wf {a : Nat} {bs : List (BitVec 8)} (h : StoredAt a bs s u) (hw : Memory.wf s = true) : Memory.wf u = true := by
  obtain ⟨n, rfl⟩ := h
  exact Memory.wf_setBytes hw a bs

theorem StoredAt.noErrors {a : Nat} {bs : List (BitVec 8)} (h : StoredAt a bs s u) (he : NoErrors s) : NoErrors u := by
  obtain ⟨n, rfl⟩ := h
  obtain ⟨hf, hl⟩ := he
  exact ⟨State.setBytes_flaws a bs hf hl, (State.setBytes_rep ..).symm ▸ hl⟩

/-- The stored range reads as stored. -/
theorem StoredAt.bytes {a : Nat} {bs : List (BitVec 8)} (h : StoredAt a bs s u) (hw : Memory.wf s = true) : u.bytes a bs.length = bs :=
  (State.bytes_of_mem h.mem ..).trans (State.bytes_setBytes hw a bs)

/-- A range apart from it reads as before. -/
theorem StoredAt.bytes_other {a b n : Nat} {bs : List (BitVec 8)} (h : StoredAt a bs s u) (hw : Memory.wf s = true) (hb : b + n ≤ a ∨ a + bs.length ≤ b) :
    u.bytes b n = s.bytes b n := (State.bytes_of_mem h.mem ..).trans (State.bytes_setBytes_other hw a b n bs hb)

theorem StoredAt.byte_other {a b : Nat} {bs : List (BitVec 8)} (h : StoredAt a bs s u) (hw : Memory.wf s = true) (hb : b < a ∨ a + bs.length ≤ b) :
    u.byte b = s.byte b := by
  rw [State.byte, h.mem]
  exact State.byte_setBytes_other hw a b bs hb

/-- The clocks run and G1 is released: movement acts at once and notes no access. -/
def Clocked (s : State) : Prop := s.lck = true ∧ s.held 1 = false

theorem clocked_of {d g : Nat} (hr : Runs d g s) (hg : 2 ≤ g) : Clocked s := ⟨hr.2.2.2.1, hr.2.2.2.2 hg⟩

theorem State.take_bytes {m n : Nat} (h : m ≤ n) (a : Nat) : (s.bytes a n).take m = s.bytes a m := by
  refine List.ext_getElem? fun i => ?_
  rw [List.getElem?_take, State.getElem?_bytes, State.getElem?_bytes]
  by_cases hi : i < m
  · rw [if_pos hi, if_pos hi, if_pos (hi.trans_le h)]
  · rw [if_neg hi, if_neg hi]

/-- A write by movement into LPDDR6 stores its bytes (R119). -/
theorem State.sysWrite_stored (hc : Clocked s) (a : Nat) (bs : List (BitVec 8)) (h : a + bs.length ≤ 0xF00000000) :
    StoredAt a bs s (s.sysWrite a bs) := by
  obtain ⟨hlck, hheld⟩ := hc
  rw [State.sysWrite, State.sysWriteBy]
  split_ifs with hbs
  · rw [List.isEmpty_iff.mp hbs]
    exact ⟨s.now, rfl⟩
  · have hpos : 0 < bs.length := List.length_pos_of_ne_nil (mt List.isEmpty_iff.mpr hbs)
    have hput := State.putBytes_stored (s := s) 3 a bs h
    have hregs : (s.putBytes 3 a bs).regs = s.regs := hput.regs
    have hpwr : (s.putBytes 3 a bs).pwr = s.pwr := hput.pwr
    have hlck' : (s.putBytes 3 a bs).lck = true := by rw [State.lck, State.flag, State.get_of_regs hregs]; exact hlck
    have hheld' : (s.putBytes 3 a bs).held 1 = false := by rw [State.held, hpwr]; exact hheld
    have hnote : ((s.putBytes 3 a bs).noteHoles a bs.length).noteAccess a = s.putBytes 3 a bs := by
      simp [State.noteHoles, State.noteHole, State.noteAccess, State.raiseIf, regionOf_lpddr (show a < 0xF00000000 by omega),
        regionOf_lpddr (show a + bs.length - 1 < 0xF00000000 by omega), hlck', hheld']
    rw [hnote]
    exact hput

/-- A read by movement from sound LPDDR6 gives its bytes and notes nothing (R316). -/
theorem State.sysRead_lpddr (hc : Clocked s) (he : NoErrors s) (a n : Nat) (h : a + n ≤ 0xF00000000) : s.sysRead a n = (s.bytes a n, s) := by
  obtain ⟨hlck, hheld⟩ := hc
  obtain ⟨hf, hl⟩ := he
  rcases Nat.eq_zero_or_pos n with rfl | hn
  · rfl
  · have hbytes : s.sysBytes a n = s.bytes a n := by
      refine List.ext_getElem? fun i => ?_
      rw [State.getElem?_bytes, State.sysBytes, List.getElem?_map]
      by_cases hi : i < n
      · have hreg := regionOf_lpddr (show a + i < 0xF00000000 by omega)
        simp [hi, State.sysByte, State.before, hreg, Region.backed]
      · simp [hi]
    rw [State.sysRead_eq a n hf hl hlck hheld, hbytes]
    · simp [regionOf_lpddr (show a < 0xF00000000 by omega)]
    · simp [regionOf_lpddr (show a + n - 1 < 0xF00000000 by omega)]

/-! Ports (R273). -/

/-- The state with port `p` replaced. -/
def State.setPort (s : State) (p : Fin 32) (x : Port) : State := { s with opt := { s.opt with port := s.opt.port.set p.val x } }

/-- What a state is beside its registers, its memory, the notes of the ck, the ports and the counts of saturations. -/
def State.besidePorts (s : State) : State :=
  { s with regs := [], now := SameCk.reset, mem := [], flaws := [], opt := { s.opt with port := Optics.reset.port, esat := Optics.reset.esat } }

/-- What a frame boundary, a poll or a completion of port `p` leaves. -/
structure OnPort (p : Fin 32) (s u : State) : Prop where
  others : ∀ i : Fin 32, i ≠ p → u.opt.port[i.val] = s.opt.port[i.val]
  beside : u.besidePorts = s.besidePorts

theorem OnPort.eq (h : OnPort p s u) :
    u = { s with regs := u.regs, now := u.now, mem := u.mem, flaws := u.flaws, opt := { s.opt with port := u.opt.port, esat := u.opt.esat } } := by
  have hb := h.beside
  cases s with | mk _ _ _ _ _ _ _ _ _ _ _ _ _ opt => cases u with | mk _ _ _ _ _ _ _ _ _ _ _ _ _ opt' => 
  cases opt
  cases opt'
  simpa [State.besidePorts] using hb

theorem OnPort.refl (s : State) : OnPort p s s := ⟨fun _ _ => rfl, rfl⟩
theorem OnPort.trans (h : OnPort p s t) (h' : OnPort p t u) : OnPort p s u :=
  ⟨fun i hi => (h'.others i hi).trans (h.others i hi), h'.beside.trans h.beside⟩

theorem OnPort.of_mem (h : u.besideMem = s.besideMem) : OnPort p s u := by
  have hopt : u.opt = s.opt := congrArg (·.opt) h
  refine ⟨fun i _ => by rw [hopt], ?_⟩
  have hb : u.besideMem.besidePorts = s.besideMem.besidePorts := by rw [h]
  exact hb

theorem OnPort.put (s : State) (f : Fld) (v : Nat) : OnPort p s (s.put f v) := by
  rw [State.put_eq]
  exact ⟨fun _ _ => rfl, rfl⟩

theorem OnPort.raise (s : State) (f : Fld) : OnPort p s (s.raise f) := (OnPort.put s f 1).trans ⟨fun _ _ => rfl, rfl⟩

theorem OnPort.setPort (s : State) (x : Port) : OnPort p s (s.setPort p x) := by
  refine ⟨fun i hi => ?_, rfl⟩
  have hv : p.val ≠ i.val := fun e => hi (Fin.ext e.symm)
  simp [State.setPort, Vector.getElem_set_ne, hv]

@[simp] theorem State.setPort_port (x : Port) : (s.setPort p x).opt.port[p.val] = x := by simp [State.setPort]
@[simp] theorem State.setPort_esat (x : Port) : (s.setPort p x).opt.esat = s.opt.esat := rfl
@[simp] theorem State.setPort_regs (x : Port) : (s.setPort p x).regs = s.regs := rfl
@[simp] theorem State.setPort_mem (x : Port) : (s.setPort p x).mem = s.mem := rfl

/-- The port with ring `k` replaced. -/
def Port.withRing (x : Port) (k : Fin 4) (r : TxRing) : Port := { x with ring := x.ring.set k.val r }

theorem State.withTx_eq (f : TxRing → TxRing) : s.withTx p k f = s.setPort p (s.opt.port[p.val].withRing k (f (s.tx p k))) := rfl

@[simp] theorem State.withTx_regs (f : TxRing → TxRing) : (s.withTx p k f).regs = s.regs := rfl
@[simp] theorem State.withTx_pwr (f : TxRing → TxRing) : (s.withTx p k f).pwr = s.pwr := rfl
@[simp] theorem State.withTx_mem (f : TxRing → TxRing) : (s.withTx p k f).mem = s.mem := rfl
theorem noErrors_withTx (h : NoErrors s) (f : TxRing → TxRing) : NoErrors (s.withTx p k f) := h

@[simp] theorem State.tx_withTx (f : TxRing → TxRing) : (s.withTx p k f).tx p k = f (s.tx p k) := by simp [State.tx, State.withTx]
theorem State.tx_withTx_other {j : Fin 4} (hj : j ≠ k) (f : TxRing → TxRing) : (s.withTx p k f).tx p j = s.tx p j := by
  have hv : k.val ≠ j.val := fun e => hj (Fin.ext e.symm)
  simp [State.tx, State.withTx, Vector.getElem_set_ne, hv]

/-! Transmit rings in LPDDR6 (R273). -/

/-- Address of the descriptor of a ring for a count. -/
def State.txSlot (s : State) (p : Fin 32) (k : Fin 4) (c : BitVec 32) : Nat :=
  s.txBase p k + 64 + 64 * (c.toNat % 2 ^ ringLog (s.get (OPT_Pp_TXRk.log2size p k)))

/-- A ring that lies in LPDDR6. -/
def TxFits (p : Fin 32) (k : Fin 4) (s : State) : Prop := s.txBase p k + 64 + 64 * 2 ^ ringLog (s.get (OPT_Pp_TXRk.log2size p k)) ≤ 0xF00000000

theorem State.txSlot_bounds (h : TxFits p k s) (c : BitVec 32) : s.txBase p k + 64 ≤ s.txSlot p k c ∧ s.txSlot p k c + 64 ≤ 0xF00000000 := by
  have hlt : c.toNat % 2 ^ ringLog (s.get (OPT_Pp_TXRk.log2size p k)) < 2 ^ ringLog (s.get (OPT_Pp_TXRk.log2size p k)) := Nat.mod_lt _ (by positivity)
  simp only [TxFits] at h
  simp only [State.txSlot]
  omega

theorem State.txBase_of_regs (h : t.regs = s.regs) : t.txBase p k = s.txBase p k := by rw [State.txBase, State.txBase, State.get_of_regs h]
theorem State.txSlot_of_regs (h : t.regs = s.regs) (c : BitVec 32) : t.txSlot p k c = s.txSlot p k c := by
  rw [State.txSlot, State.txSlot, State.txBase_of_regs h, State.get_of_regs h]
theorem TxFits.of_regs (h : t.regs = s.regs) (hf : TxFits p k s) : TxFits p k t := by
  rw [TxFits, State.txBase_of_regs h, State.get_of_regs h]
  exact hf
theorem State.txCons_of (h : t.regs = s.regs) (hm : t.bytes (s.txBase p k + 4) 4 = s.bytes (s.txBase p k + 4) 4) : t.txCons p k = s.txCons p k := by
  rw [State.txCons, State.txCons, State.txBase_of_regs h, State.le, State.le, hm]
theorem Clocked.of (h : Clocked s) (hr : t.regs = s.regs) (hp : t.pwr = s.pwr) : Clocked t := by
  obtain ⟨hl, hh⟩ := h
  refine ⟨?_, ?_⟩
  · rw [State.lck, State.flag, State.get_of_regs hr]
    exact hl
  · rw [State.held, hp]
    exact hh

/-- The head of a ring that holds descriptors is prefetched (R273). -/
theorem State.txPrefetch_eq (hc : Clocked s) (he : NoErrors s) (hf : TxFits p k s) : s.txPrefetch p k =
    if (s.tx p k).head.isSome = true ∨ (s.tx p k).prod = s.txCons p k then s
    else s.withTx p k fun x => { x with head := some (BitVec.ofNat 512 (s.le (s.txSlot p k (s.txCons p k)) 64)) } := by
  have hread := State.sysRead_lpddr hc he _ 64 (State.txSlot_bounds hf (s.txCons p k)).2
  rw [State.txPrefetch]
  simp only [Bool.or_eq_true, decide_eq_true_eq]
  split_ifs
  · rfl
  · rw [show s.txHead p k = s.txSlot p k (s.txCons p k) from rfl, hread]
    rfl

/-- What the poll of a ring does (R273). -/
theorem exec_txRingPoll (hr : Runs (portUnitOf p) 4 s) (he : NoErrors s) (hf : TxFits p k s) (hen : s.flag (OPT_Pp_TXRk.en p k) = true)
    (hm : s.mono.toNat % 2048 = 64 * (4 * (p.val % 8) + k.val)) (hon : s.txOn p k = true) :
    exec (.txRingPoll p k) s = .next ((s.withTx p k fun x => { x with prod := BitVec.ofNat 32 (s.le (s.txBase p k) 4) }).txPrefetch p k) := by
  have hread := State.sysRead_lpddr (clocked_of hr (by norm_num)) he (s.txBase p k) 8 (by have := State.txSlot_bounds hf 0; omega)
  change execTxRingPoll p k s = _
  rw [execTxRingPoll, inside_eq hr]
  simp only [hen, hm, hon, hread, Bool.not_true, Bool.false_or, ne_eq, not_true_eq_false, decide_false, Bool.false_eq_true, if_false, faultIf_false,
    State.take_bytes (show 4 ≤ 8 by norm_num)]
  rfl

/-- What a step of one ring of port `p` keeps of the port. -/
structure OnRing (p : Fin 32) (k : Fin 4) (s u : State) : Prop extends OnPort p s u where
  tx : ∀ j, j ≠ k → u.tx p j = s.tx p j
  resp : u.opt.port[p.val].resp = s.opt.port[p.val].resp
  sending : u.opt.port[p.val].sending = s.opt.port[p.val].sending
  esat : u.opt.esat = s.opt.esat

theorem OnRing.refl (s : State) : OnRing p k s s := ⟨.refl s, fun _ _ => rfl, rfl, rfl, rfl⟩
theorem OnRing.trans (h : OnRing p k s t) (h' : OnRing p k t u) : OnRing p k s u :=
  ⟨h.toOnPort.trans h'.toOnPort, fun j hj => (h'.tx j hj).trans (h.tx j hj), h'.resp.trans h.resp, h'.sending.trans h.sending, h'.esat.trans h.esat⟩

theorem OnRing.of_mem (h : u.besideMem = s.besideMem) : OnRing p k s u := by
  have hopt : u.opt = s.opt := congrArg (·.opt) h
  exact ⟨.of_mem h, fun j _ => by rw [State.tx, State.tx, hopt], by rw [hopt], by rw [hopt], by rw [hopt]⟩

theorem OnRing.withTx (s : State) (f : TxRing → TxRing) : OnRing p k s (s.withTx p k f) :=
  ⟨.setPort s _, fun _ hj => State.tx_withTx_other hj f, by simp [State.withTx_eq, Port.withRing], by simp [State.withTx_eq, Port.withRing], rfl⟩

/-- A ring with its head prefetched. -/
theorem State.txPrefetch_fields (hc : Clocked s) (he : NoErrors s) (hf : TxFits p k s) : let u := s.txPrefetch p k
    OnRing p k s u ∧ u.regs = s.regs ∧ u.mem = s.mem ∧ NoErrors u ∧
      u.tx p k = ⟨(s.tx p k).prod, if (s.tx p k).head.isSome = true then (s.tx p k).head else if (s.tx p k).prod = s.txCons p k then none else
        some (BitVec.ofNat 512 (s.le (s.txSlot p k (s.txCons p k)) 64))⟩ := by
  rw [State.txPrefetch_eq hc he hf]
  by_cases hh : (s.tx p k).head.isSome = true
  · simp only [hh, true_or, if_true]
    exact ⟨.refl s, trivial, trivial, he, trivial⟩
  · by_cases hp : (s.tx p k).prod = s.txCons p k
    · have hnone : (s.tx p k).head = none := by simpa using hh
      simp only [hh, hp, or_true, if_true, Bool.false_eq_true, if_false]
      refine ⟨.refl s, trivial, trivial, he, ?_⟩
      rw [← hp, ← hnone]
    · simp only [hh, hp, or_self, Bool.false_eq_true, if_false]
      exact ⟨.withTx .., State.withTx_regs _, State.withTx_mem _, noErrors_withTx he _, State.tx_withTx ..⟩

/-- What the end of a ring's head leaves: its status byte, cons + 1 and the next head (R273, R274). -/
structure Ends (p : Fin 32) (k : Fin 4) (status : Nat) (s u : State) : Prop where
  ring : OnRing p k s u
  regs : u.regs = s.regs
  wf : Memory.wf u = true
  noErrors : NoErrors u
  status : u.le (s.txSlot p k (s.txCons p k) + 48) 1 = status
  cons : u.le (s.txBase p k + 4) 4 = (s.txCons p k + 1).toNat
  bytes : ∀ z, z ≠ s.txSlot p k (s.txCons p k) + 48 → (z < s.txBase p k + 4 ∨ s.txBase p k + 8 ≤ z) → u.byte z = s.byte z
  tx : u.tx p k = ⟨(s.tx p k).prod, if (s.tx p k).prod = s.txCons p k + 1 then none else
    some (BitVec.ofNat 512 (u.le (s.txSlot p k (s.txCons p k + 1)) 64))⟩

theorem State.txEnd_ends (hc : Clocked s) (he : NoErrors s) (hw : Memory.wf s = true) (hf : TxFits p k s) {status : Nat} (hs : status < 256) :
    Ends p k status s (s.txEnd p k status) := by
  obtain ⟨hlo, hhi⟩ := State.txSlot_bounds hf (s.txCons p k)
  have h1 : StoredAt (s.txSlot p k (s.txCons p k) + 48) (bytesOf 1 status) s (s.sysWrite (s.txHead p k + 48) (bytesOf 1 status)) :=
    State.sysWrite_stored hc _ _ (by rw [length_bytesOf]; omega)
  rw [State.txEnd]
  generalize s.sysWrite (s.txHead p k + 48) (bytesOf 1 status) = t at h1 ⊢
  have hr1 : t.regs = s.regs := h1.regs
  have hp1 : t.pwr = s.pwr := h1.pwr
  have hcons1 : t.txCons p k = s.txCons p k := State.txCons_of hr1 (h1.bytes_other hw (by rw [length_bytesOf]; omega))
  have hbase1 : t.txBase p k = s.txBase p k := State.txBase_of_regs hr1
  have h2 : StoredAt (s.txBase p k + 4) (bytesOf 4 (s.txCons p k + 1).toNat) t (t.sysWrite (t.txBase p k + 4) (bytesOf 4 (t.txCons p k + 1).toNat)) := by
    rw [hbase1, hcons1]
    exact State.sysWrite_stored (hc.of hr1 hp1) _ _ (by rw [length_bytesOf]; omega)
  generalize t.sysWrite (t.txBase p k + 4) (bytesOf 4 (t.txCons p k + 1).toNat) = u at h2 ⊢
  have hw1 := h1.wf hw
  have hr2 : u.regs = s.regs := h2.regs.trans hr1
  have hp2 : u.pwr = s.pwr := h2.pwr.trans hp1
  have hcons2 : u.le (s.txBase p k + 4) 4 = (s.txCons p k + 1).toNat := by
    have hb := h2.bytes hw1
    rw [length_bytesOf] at hb
    rw [State.le, hb, natOfBytes_bytesOf]
    exact Nat.mod_eq_of_lt (s.txCons p k + 1).isLt
  have hopt2 : u.opt = s.opt := h2.opt.trans h1.opt
  have htx2 : u.tx p k = s.tx p k := by rw [State.tx, State.tx, hopt2]
  have hring2 : OnRing p k s u := (OnRing.of_mem h1.beside).trans (.of_mem h2.beside)
  have hcons2' : u.txCons p k = s.txCons p k + 1 := by
    rw [State.txCons, State.txBase_of_regs hr2, hcons2, BitVec.ofNat_toNat, BitVec.setWidth_eq]
  have hcw : (u.withTx p k fun x => { x with head := none }).txCons p k = s.txCons p k + 1 :=
    (State.txCons_of (State.withTx_regs ..) (State.bytes_of_mem (State.withTx_mem ..) ..)).trans hcons2'
  obtain ⟨hring3, hr3, hm3, hf3, htx3⟩ := State.txPrefetch_fields (s := u.withTx p k fun x => { x with head := none }) (p := p) (k := k)
    (hc.of ((State.withTx_regs _).trans hr2) ((State.withTx_pwr _).trans hp2)) (noErrors_withTx (h2.noErrors (h1.noErrors he)) _) (hf.of_regs ((State.withTx_regs _).trans hr2))
  refine ⟨hring2.trans ((OnRing.withTx u _).trans hring3), hr3.trans ((State.withTx_regs _).trans hr2), ?_, hf3, ?_, ?_, fun z hz hz' => ?_, ?_⟩
  · rw [Memory.wf, hm3, State.withTx_mem]
    exact h2.wf hw1
  · have hb := h1.bytes hw
    rw [length_bytesOf] at hb
    have hkeep : u.bytes (s.txSlot p k (s.txCons p k) + 48) 1 = t.bytes (s.txSlot p k (s.txCons p k) + 48) 1 :=
      h2.bytes_other hw1 (by rw [length_bytesOf]; omega)
    rw [State.le_of_mem hm3, State.le_of_mem (State.withTx_mem _), State.le, hkeep, hb, natOfBytes_bytesOf]
    exact Nat.mod_eq_of_lt hs
  · rw [State.le_of_mem hm3, State.le_of_mem (State.withTx_mem _), hcons2]
  · rw [State.byte, hm3, State.withTx_mem]
    exact (h2.byte_other hw1 (by rw [length_bytesOf]; omega)).trans (h1.byte_other hw (by rw [length_bytesOf]; omega))
  · have hslot (c : BitVec 32) : (u.withTx p k fun x => { x with head := none }).txSlot p k c = s.txSlot p k c :=
      State.txSlot_of_regs ((State.withTx_regs _).trans hr2) c
    rw [htx3, hcw, hslot, State.tx_withTx, htx2, State.le_of_mem hm3]
    rfl

end Sys2Proof.Machine
end

section

namespace Sys2Proof.Machine

open Sys2Proof.Claims

variable {s t u : State} {p : Fin 32} {k : Fin 4} {d : BitVec 512}

/-! Completions (R274). -/

theorem State.drop_bytes (m n a : Nat) : (s.bytes a (m + n)).drop m = s.bytes (a + m) n := by
  refine List.ext_getElem? fun i => ?_
  rw [List.getElem?_drop, State.getElem?_bytes, State.getElem?_bytes]
  by_cases hi : i < n
  · rw [if_pos hi, if_pos (by omega), Nat.add_assoc]
  · rw [if_neg hi, if_neg (by omega)]

theorem State.bytes_congr {a n : Nat} (h : ∀ i, i < n → u.byte (a + i) = s.byte (a + i)) : u.bytes a n = s.bytes a n := by
  refine List.ext_getElem? fun i => ?_
  rw [State.getElem?_bytes, State.getElem?_bytes]
  by_cases hi : i < n
  · rw [if_pos hi, if_pos hi, h i hi]
  · rw [if_neg hi, if_neg hi]

/-- Two numbers stored one behind the other. -/
theorem StoredAt.le_pair {a m n v w : Nat} (h : StoredAt a (bytesOf m v ++ bytesOf n w) s u) (hw : Memory.wf s = true) :
    u.le a m = v % 256 ^ m ∧ u.le (a + m) n = w % 256 ^ n := by
  have hb := h.bytes hw
  rw [List.length_append, length_bytesOf, length_bytesOf] at hb
  have hl : u.bytes a m = bytesOf m v := by
    rw [← State.take_bytes (Nat.le_add_right m n), hb, List.take_left' (length_bytesOf ..)]
  have hr : u.bytes (a + m) n = bytesOf n w := by
    rw [← State.drop_bytes, hb, List.drop_left' (length_bytesOf ..)]
  exact ⟨by rw [State.le, hl, natOfBytes_bytesOf], by rw [State.le, hr, natOfBytes_bytesOf]⟩

/-- The port that sends nothing any more. -/
def State.txDone (s : State) (p : Fin 32) : State := s.setPort p { s.opt.port[p.val] with sending := none }

/-- The completion of a response (R274, R277). -/
theorem exec_transmitCompletion_response (hr : Runs (portUnitOf p) 4 s) {f : TxFrame} (hs : s.opt.port[p.val].sending = some f) (hf : f.ring = none) :
    exec (.transmitCompletion p) s = .next (s.txDone p) := by
  change execTransmitCompletion p s = _
  rw [execTransmitCompletion, inside_eq hr]
  simp only [hs, hf]
  rfl

/-- The completion of a ring's frame writes t_dep, then ends the head (R274). -/
theorem exec_transmitCompletion_ring (hr : Runs (portUnitOf p) 4 s) {f : TxFrame} (hs : s.opt.port[p.val].sending = some f) (hf : f.ring = some k)
    (hon : s.txOn p k = true) : exec (.transmitCompletion p) s =
      .next (((s.txDone p).sysWrite (s.txHead p k + 50) (bytesOf 6 f.sec.toNat ++ bytesOf 4 f.qns)).txEnd p k 1) := by
  change execTransmitCompletion p s = _
  rw [execTransmitCompletion, inside_eq hr]
  simp only [hs, hf, hon, Bool.not_true, faultIf_false]
  rfl

/-! Frame boundaries (R273, R274). -/

/-- The state after the bad and the late heads of a port have been skipped. -/
def State.txSkipped (s : State) (p : Fin 32) : State :=
  ([3, 2, 1, 0] : List (Fin 4)).foldl (fun s (j : Fin 4) => if s.flag (OPT_Pp_TXRk.en p j) then State.txSkip p j 4096 s else s) s

/-- A port at a frame boundary whose rings' memory is on. -/
structure AtBoundary (p : Fin 32) (s : State) : Prop where
  runs : Runs (portUnitOf p) 4 s
  up : s.ethUp p = true
  idle : s.opt.port[p.val].sending = none
  on : ∀ j : Fin 4, s.flag (OPT_Pp_TXRk.en p j) = true → (s.tx p j).head.isSome = true → s.txOn p j = true

variable {sec : BitVec 48} {qns : Nat} {f : State → Nat → List (BitVec 8) ⊕ Fin 4 × BitVec 512 → Res}

theorem AtBoundary.rings_on (h : AtBoundary p s) :
    ((List.finRange 4).any fun j => s.flag (OPT_Pp_TXRk.en p j) && (s.tx p j).head.isSome && !s.txOn p j) = false := by
  rw [List.any_eq_false]
  intro j _ hj
  simp only [Bool.and_eq_true, Bool.not_eq_true'] at hj
  obtain ⟨⟨hen, hhead⟩, hoff⟩ := hj
  simp [h.on j hen hhead] at hoff

theorem txBoundary_response (h : AtBoundary p s) {r : List (BitVec 8)} {rest : List (List (BitVec 8))} (hr : (s.txSkipped p).opt.port[p.val].resp = r :: rest) :
    txBoundary p sec qns s f = f (s.txSkipped p) ((s.txSkipped p).depart p sec qns) (.inl r) := by
  rw [State.txSkipped] at hr
  rw [txBoundary, inside_eq h.runs]
  simp only [h.up, h.idle, h.rings_on, hr, Bool.not_true, Option.isSome_none, Bool.or_self, Bool.false_eq_true, if_false, faultIf_false]
  rfl

theorem txBoundary_head (h : AtBoundary p s) (hr : (s.txSkipped p).opt.port[p.val].resp = []) {x : Fin 4 × BitVec 512}
    (hx : (s.txSkipped p).txPick p ((s.txSkipped p).depart p sec qns) = some x) :
    txBoundary p sec qns s f = f (s.txSkipped p) ((s.txSkipped p).depart p sec qns) (.inr x) := by
  rw [State.txSkipped] at hr hx
  rw [txBoundary, inside_eq h.runs]
  simp only [h.up, h.idle, h.rings_on, hr, hx, Bool.not_true, Option.isSome_none, Bool.or_self, Bool.false_eq_true, if_false, faultIf_false]
  rfl

theorem txBoundary_nothing (h : AtBoundary p s) (hr : (s.txSkipped p).opt.port[p.val].resp = [])
    (hx : (s.txSkipped p).txPick p ((s.txSkipped p).depart p sec qns) = none) : txBoundary p sec qns s f = .next (s.txSkipped p) := by
  rw [State.txSkipped] at hr hx
  rw [txBoundary, inside_eq h.runs]
  simp only [h.up, h.idle, h.rings_on, hr, hx, Bool.not_true, Option.isSome_none, Bool.or_self, Bool.false_eq_true, if_false, faultIf_false]
  rfl

/-- No enabled ring has a bad or a late head. -/
def Quiet (p : Fin 32) (s : State) : Prop :=
  ∀ (j : Fin 4) d, s.flag (OPT_Pp_TXRk.en p j) = true → (s.tx p j).head = some d → s.txBad d = false ∧ s.txLate p d = false

/-! What skipping the heads of a ring does, head by head (R274). -/

theorem State.txSkip_empty (h : (s.tx p k).head = none) (n : Nat) : State.txSkip p k n s = s := by
  cases n with
  | zero => rfl
  | succ n => rw [State.txSkip, h]

theorem State.txSkip_sound (h : (s.tx p k).head = some d) (hbad : s.txBad d = false) (hlate : s.txLate p d = false) (n : Nat) : State.txSkip p k n s = s := by
  cases n with
  | zero => rfl
  | succ n =>
    rw [State.txSkip, h]
    simp only [hbad, hlate, Bool.false_eq_true, if_false]

/-- A late head ends with status.late and is counted (R274). -/
def State.txLost (s : State) (p : Fin 32) (k : Fin 4) : State := ((s.txEnd p k 2).countUp (OPT_Pp_CNT.drop p) 1).raise OPT_CAUSE.txlate

theorem State.txSkip_late (h : (s.tx p k).head = some d) (hbad : s.txBad d = false) (hlate : s.txLate p d = true) (n : Nat) :
    State.txSkip p k (n + 1) s = State.txSkip p k n (s.txLost p k) := by
  rw [State.txSkip, h]
  simp only [hbad, hlate, Bool.false_eq_true, if_false, if_true]
  rfl

theorem State.txSkipped_quiet (h : Quiet p s) : s.txSkipped p = s := by
  have hskip (j : Fin 4) : (if s.flag (OPT_Pp_TXRk.en p j) then State.txSkip p j 4096 s else s) = s := by
    split_ifs with hen
    · cases hh : (s.tx p j).head with
      | none => exact State.txSkip_empty hh _
      | some d => exact State.txSkip_sound hh (h j d hen hh).1 (h j d hen hh).2 _
    · rfl
  rw [State.txSkipped]
  simp only [List.foldl_cons, List.foldl_nil, hskip]

/-- A step that is idle but for one element of a list, before it and after it, is taken once. -/
theorem foldl_once {α β : Type} {g : β → α → β} {a : α} {x y : β} (hx : ∀ b, b ≠ a → g x b = x) (hy : ∀ b, b ≠ a → g y b = y) (ha : g x a = y) :
    ∀ l : List α, l.Nodup → a ∈ l → l.foldl g x = y := by
  have hrest : ∀ l : List α, a ∉ l → l.foldl g y = y := by
    intro l hl
    induction l with
    | nil => rfl
    | cons b l ih =>
      rw [List.foldl_cons, hy b (Ne.symm (List.ne_of_not_mem_cons hl)), ih (List.not_mem_of_not_mem_cons hl)]
  intro l hn hmem
  induction l with
  | nil => cases hmem
  | cons b l ih =>
    obtain ⟨hb, hn⟩ := List.nodup_cons.mp hn
    rw [List.foldl_cons]
    rcases eq_or_ne b a with rfl | hne
    · rw [ha, hrest l hb]
    · rw [hx b hne, ih hn (List.mem_of_ne_of_mem hne.symm hmem)]

theorem mem_rings : ∀ j : Fin 4, j ∈ ([3, 2, 1, 0] : List (Fin 4)) := by decide

/-- The only enabled ring of a port has a late head, the last of its ring: it alone is skipped (R274). -/
theorem State.txSkipped_late (honly : ∀ j : Fin 4, j ≠ k → s.flag (OPT_Pp_TXRk.en p j) = false) (hen : s.flag (OPT_Pp_TXRk.en p k) = true)
    (hh : (s.tx p k).head = some d) (hbad : s.txBad d = false) (hlate : s.txLate p d = true)
    (hkeep : ∀ j : Fin 4, (s.txLost p k).flag (OPT_Pp_TXRk.en p j) = s.flag (OPT_Pp_TXRk.en p j)) (hnone : ((s.txLost p k).tx p k).head = none) :
    s.txSkipped p = s.txLost p k := by
  refine foldl_once (a := k) (fun j hj => ?_) (fun j hj => ?_) ?_ _ (by decide) (mem_rings k)
  · simp only [honly j hj, Bool.false_eq_true, if_false]
  · simp only [hkeep, honly j hj, Bool.false_eq_true, if_false]
  · rw [if_pos hen, State.txSkip_late hh hbad hlate 4095, State.txSkip_empty hnone]

/-! The choice at a boundary (R273). -/

/-- A head that the port may send: its ring is enabled, and it is untimed or its launch is reached. -/
def State.txMay (s : State) (p : Fin 32) (q : Nat) (j : Fin 4) (d : BitVec 512) : Prop :=
  s.flag (OPT_Pp_TXRk.en p j) = true ∧ (s.tx p j).head = some d ∧ (tTimed d = true → airDiff (tLaunch d) (s.airOf (tAt d) q) ≤ 0)

/-- What a ring offers at a boundary. -/
def State.txOffer (s : State) (p : Fin 32) (q : Nat) (j : Fin 4) : Option (Fin 4 × BitVec 512) :=
  match (s.tx p j).head with
  | some d => if s.flag (OPT_Pp_TXRk.en p j) && (!tTimed d || !airLater (tLaunch d) (s.airOf (tAt d) q)) then some (j, d) else none
  | none => none

theorem State.txMay_iff {q : Nat} {j : Fin 4} (hh : (s.tx p j).head = some d) :
    s.txMay p q j d ↔ (s.flag (OPT_Pp_TXRk.en p j) && (!tTimed d || !airLater (tLaunch d) (s.airOf (tAt d) q))) = true := by
  cases ht : tTimed d <;> simp [State.txMay, hh, airLater, ht]

theorem State.txOffer_eq_some {q : Nat} {j : Fin 4} : s.txOffer p q j = some (j, d) ↔ s.txMay p q j d := by
  rw [State.txOffer]
  split
  · next e he =>
    constructor
    · intro h
      split_ifs at h with hc
      obtain rfl : e = d := by simpa using h
      exact (State.txMay_iff he).mpr hc
    · intro h
      obtain rfl : e = d := Option.some.inj (he.symm.trans h.2.1)
      exact if_pos ((State.txMay_iff he).mp h)
  · next he => simp [State.txMay, he]

theorem State.txOffer_eq_none {q : Nat} {j : Fin 4} : s.txOffer p q j = none ↔ ∀ e, ¬ s.txMay p q j e := by
  rw [State.txOffer]
  split
  · next e he =>
    constructor
    · intro h e' he'
      obtain rfl : e = e' := Option.some.inj (he.symm.trans he'.2.1)
      rw [if_pos ((State.txMay_iff he).mp he')] at h
      cases h
    · exact fun h => if_neg fun hc => h e ((State.txMay_iff he).mpr hc)
  · next he => simp [State.txMay, he]

theorem State.txPick_highest {q : Nat} (h : s.txMay p q k d) (hhigh : ∀ j e, k < j → ¬ s.txMay p q j e) : s.txPick p q = some (k, d) := by
  have hfirst : ∀ l : List (Fin 4), l.Pairwise (· > ·) → k ∈ l → l.findSome? (s.txOffer p q) = some (k, d) := by
    intro l hl hk
    induction l with
    | nil => cases hk
    | cons j l ih =>
      obtain ⟨hj, hl⟩ := List.pairwise_cons.mp hl
      rw [List.findSome?_cons]
      rcases eq_or_ne j k with rfl | hne
      · rw [State.txOffer_eq_some.mpr h]
      · have hkl : k ∈ l := List.mem_of_ne_of_mem hne.symm hk
        rw [State.txOffer_eq_none.mpr (hhigh j · (hj k hkl))]
        exact ih hl hkl
  exact hfirst _ (by decide) (mem_rings k)

theorem State.txPick_none {q : Nat} (h : ∀ j : Fin 4, s.flag (OPT_Pp_TXRk.en p j) = true → (s.tx p j).head = none) : s.txPick p q = none :=
  List.findSome?_eq_none_iff.mpr fun j _ => State.txOffer_eq_none.mpr fun e he => by
    obtain ⟨hen, hhead, -⟩ := he
    rw [h j hen] at hhead
    cases hhead

end Sys2Proof.Machine
end

section

namespace Sys2Proof.Machine

open Sys2Proof.Claims

variable {s t u : State} {p : Fin 32} {k : Fin 4} {d : BitVec 512} {sec : BitVec 48} {qns : Fin 4000000000}

/-! Frames (R273, R275). -/

/-- The frame that a port sends with data that depart at `q` quarters. -/
def frameOf (o : Option (Fin 4)) (data : List (BitVec 8)) (q : Nat) : TxFrame := ⟨o, data ++ bytesOf 4 (crc32 data).toNat, BitVec.ofNat 48 (qSec q), qBelow q⟩

theorem State.txSend_ring (j : Fin 4) (data : List (BitVec 8)) (q : Nat) :
    s.txSend p (some j) data q = s.setPort p { s.opt.port[p.val] with sending := some (frameOf (some j) data q) } := rfl

theorem State.txSend_response (data : List (BitVec 8)) (q : Nat) : s.txSend p none data q =
    s.setPort p { s.opt.port[p.val] with sending := some (frameOf none data q), resp := s.opt.port[p.val].resp.drop 1 } := rfl

/-- A waiting response leaves first (R273, R277). -/
theorem exec_frameTransmit_response (h : AtBoundary p s) (hq : Quiet p s) {r : List (BitVec 8)} {rest : List (List (BitVec 8))}
    (hr : s.opt.port[p.val].resp = r :: rest) : exec (.frameTransmit p sec qns) s = .next (s.txSend p none r (s.depart p sec qns)) := by
  have hs := State.txSkipped_quiet hq
  change execFrameTransmit p sec qns s = _
  rw [execFrameTransmit, txBoundary_response h (by rw [hs]; exact hr), hs]

/-- The head that leaves at a boundary with no response waiting. -/
theorem txBoundary_highest (h : AtBoundary p s) (hq : Quiet p s) (hr : s.opt.port[p.val].resp = []) (hk : s.txMay p (s.depart p sec qns) k d)
    (hhigh : ∀ j e, k < j → ¬ s.txMay p (s.depart p sec qns) j e) (f : State → Nat → List (BitVec 8) ⊕ Fin 4 × BitVec 512 → Res) :
    txBoundary p sec qns s f = f s (s.depart p sec qns) (.inr (k, d)) := by
  have hs := State.txSkipped_quiet hq
  rw [txBoundary_head h (by rw [hs]; exact hr) (by rw [hs]; exact State.txPick_highest hk hhigh), hs]

/-- A kind 0 head leaves with its bytes (R273). -/
theorem exec_frameTransmit_head (h : AtBoundary p s) (he : NoErrors s) (hq : Quiet p s) (hr : s.opt.port[p.val].resp = [])
    (hk : s.txMay p (s.depart p sec qns) k d) (hhigh : ∀ j e, k < j → ¬ s.txMay p (s.depart p sec qns) j e) (hkind : tKind d = 0)
    (hon : s.rangeOn (tAddr d) (tLen d) = true) (hfit : tAddr d + tLen d ≤ 0xF00000000) : exec (.frameTransmit p sec qns) s =
      .next (s.txSend p (some k) (if tOnestep d then oneStep (s.get TMB_OS_CTL.udp) (tEncap d) (tPtp d) (s.depart p sec qns) (s.bytes (tAddr d) (tLen d))
        else s.bytes (tAddr d) (tLen d)) (s.depart p sec qns)) := by
  change execFrameTransmit p sec qns s = _
  rw [execFrameTransmit, txBoundary_highest h hq hr hk hhigh]
  simp only [hkind, hon, State.sysRead_lpddr (clocked_of h.runs (by norm_num)) he _ _ hfit, ne_eq, not_true_eq_false, if_false, Bool.not_true, faultIf_false]

/-- The source PRBs of a kind 1 head. -/
def State.txPrbs (s : State) (d : BitVec 512) : List (List CInt) :=
  (List.range (tLen d)).map fun i => (List.range 12).map fun j => CInt.ofWord (BitVec.ofNat 32 (s.le (tAddr d + 48 * i + 4 * j) 4))

theorem State.take_drop_bytes {a n o m : Nat} (h : o + m ≤ n) : ((s.bytes a n).drop o).take m = s.bytes (a + o) m := by
  obtain ⟨r, rfl⟩ := Nat.exists_eq_add_of_le (show o ≤ n by omega)
  rw [State.drop_bytes, State.take_bytes (by omega)]

/-- A kind 1 head leaves as a message, its saturations counted and its stream's sequence id increased (R161, R275). -/
theorem exec_uPlaneBuild_head (h : AtBoundary p s) (he : NoErrors s) (hq : Quiet p s) (hr : s.opt.port[p.val].resp = [])
    (hk : s.txMay p (s.depart p sec qns) k d) (hhigh : ∀ j e, k < j → ¬ s.txMay p (s.depart p sec qns) j e) (hkind : tKind d = 1)
    (hon : s.rangeOn (tAddr d) (48 * tLen d) = true) (hfit : tAddr d + 48 * tLen d ≤ 0xF00000000) :
    let t := (s.countEgress d (s.txPrbs d)).txSend p (some k) (s.buildUPlane p d (s.txPrbs d)) (s.depart p sec qns)
    exec (.uPlaneBuild p sec qns) s = .next (t.put (OPT_ESm_CFG.seq (tStr d)) (t.get (OPT_ESm_CFG.seq (tStr d)) + 1)) := by
  have hprbs : ((List.range (tLen d)).map fun i => (List.range 12).map fun j =>
      CInt.ofWord (BitVec.ofNat 32 (natOfBytes (((s.bytes (tAddr d) (48 * tLen d)).drop (48 * i + 4 * j)).take 4)))) = s.txPrbs d := by
    refine List.map_congr_left fun i hi => List.map_congr_left fun j hj => ?_
    rw [List.mem_range] at hi hj
    rw [State.take_drop_bytes (by omega), State.le, Nat.add_assoc]
  change execUPlaneBuild p sec qns s = _
  rw [execUPlaneBuild, txBoundary_highest h hq hr hk hhigh]
  simp only [hkind, hon, State.sysRead_lpddr (clocked_of h.runs (by norm_num)) he _ _ hfit, hprbs, ne_eq, not_true_eq_false, if_false, Bool.not_true, faultIf_false]

/-! The bytes of a built message (R275). -/

theorem natOfBytesBE_reverse (bs : List (BitVec 8)) : natOfBytesBE bs.reverse = natOfBytes bs := by
  rw [natOfBytesBE, List.foldl_reverse]
  induction bs with
  | nil => rfl
  | cons b bs ih => rw [List.foldr_cons, ih, natOfBytes, Nat.mul_comm, Nat.add_comm]

theorem natOfBytesBE_bytesBE (n v : Nat) : natOfBytesBE (bytesBE n v) = v % 256 ^ n := by
  rw [bytesBE, natOfBytesBE_reverse, natOfBytes_bytesOf]

theorem length_bytesBE (n v : Nat) : (bytesBE n v).length = n := by rw [bytesBE, List.length_reverse, length_bytesOf]

/-- A field behind the first bytes. -/
theorem beAt_skip {as bs : List (BitVec 8)} {o n l : Nat} (hl : as.length = l) (ho : l ≤ o) : beAt (as ++ bs) o n = beAt bs (o - l) n := by
  rw [beAt, List.drop_append, List.drop_of_length_le (by omega), List.nil_append, hl, beAt]

theorem beAt_skip_bytesBE {m v o n : Nat} {bs : List (BitVec 8)} (ho : m ≤ o) : beAt (bytesBE m v ++ bs) o n = beAt bs (o - m) n :=
  beAt_skip (length_bytesBE ..) ho

/-- The first field. -/
theorem beAt_bytesBE (n v : Nat) (bs : List (BitVec 8)) : beAt (bytesBE n v ++ bs) 0 n = v % 256 ^ n := by
  rw [beAt, List.drop_zero, List.take_left' (length_bytesBE ..), natOfBytesBE_bytesBE]

/-- A message: its addresses, its tag, its header, and the bytes behind it. -/
def messageOf (dmac mac : Nat) (tag : List (BitVec 8)) (size eaxc seq : Nat) (rest : List (BitVec 8)) : List (BitVec 8) :=
  bytesBE 6 dmac ++ (bytesBE 6 mac ++ (tag ++ (bytesBE 2 0xAEFE ++ (bytesBE 1 0x10 ++ (bytesBE 1 0 ++ (bytesBE 2 size ++ (bytesBE 2 eaxc ++
    (bytesBE 1 seq ++ (bytesBE 1 0x80 ++ rest)))))))))

theorem messageOf_fields {dmac mac size eaxc seq l : Nat} {tag : List (BitVec 8)} (hl : tag.length = l) (rest : List (BitVec 8)) :
    let data := messageOf dmac mac tag size eaxc seq rest
    beAt data 0 6 = dmac % 256 ^ 6 ∧ beAt data 6 6 = mac % 256 ^ 6 ∧ beAt data (12 + l) 2 = 0xAEFE ∧ beAt data (12 + l + 3) 1 = 0 ∧
      beAt data (12 + l + 6) 2 = eaxc % 256 ^ 2 ∧ beAt data (12 + l + 8) 1 = seq % 256 ∧ beAt data (12 + l + 9) 1 = 0x80 := by
  have hskip (o n : Nat) : beAt (messageOf dmac mac tag size eaxc seq rest) (12 + l + o) n = beAt (bytesBE 2 0xAEFE ++ (bytesBE 1 0x10 ++ (bytesBE 1 0 ++
      (bytesBE 2 size ++ (bytesBE 2 eaxc ++ (bytesBE 1 seq ++ (bytesBE 1 0x80 ++ rest))))))) o n := by
    rw [messageOf, beAt_skip_bytesBE (by omega), beAt_skip_bytesBE (by omega), beAt_skip hl (by omega)]
    congr 1
    omega
  refine ⟨beAt_bytesBE .., (beAt_skip_bytesBE le_rfl).trans (beAt_bytesBE ..), (hskip 0 2).trans (beAt_bytesBE ..), ?_, ?_, ?_, ?_⟩ <;>
    simp [hskip, beAt_skip_bytesBE, beAt_bytesBE]

theorem messageOf_tag {dmac mac size eaxc seq v : Nat} (rest : List (BitVec 8)) :
    beAt (messageOf dmac mac (bytesBE 4 v) size eaxc seq rest) 12 4 = v % 256 ^ 4 := by
  simp [messageOf, beAt_skip_bytesBE, beAt_bytesBE]

theorem State.buildUPlane_eq (prbs : List (List CInt)) : ∃ size rest, s.buildUPlane p d prbs =
    messageOf (s.get (OPT_ESm_HDR.dmac (tStr d))) (s.get (OPT_Pp_CFG.mac p))
      (if s.flag (OPT_ESm_HDR.tagged (tStr d)) then bytesBE 4 (s.get (OPT_ESm_HDR.tag (tStr d))) else []) size (s.get (OPT_ESm_CFG.eaxc (tStr d)))
      (s.get (OPT_ESm_CFG.seq (tStr d))) rest := by
  have h10 : ([0x10, 0x00] : List (BitVec 8)) = bytesBE 1 0x10 ++ bytesBE 1 0 := by decide
  have h80 : ([0x80] : List (BitVec 8)) = bytesBE 1 0x80 := by decide
  simp only [State.buildUPlane, messageOf, h10, h80, List.append_assoc]
  exact ⟨_, _, rfl⟩

theorem State.length_buildUPlane (prbs : List (List CInt)) : 60 ≤ (s.buildUPlane p d prbs).length := by
  simp only [State.buildUPlane]
  generalize bytesBE 6 _ ++ _ ++ _ ++ _ ++ _ ++ _ ++ _ = bs
  rw [List.length_append, List.length_replicate]
  omega

end Sys2Proof.Machine
end

section

namespace Sys2Proof.Machine

open Sys2Proof.Claims

variable {s t u : State} {p : Fin 32} {k : Fin 4} {d : BitVec 512}

/-! A message leaves (R161, R275). -/

theorem tStr_val (d : BitVec 512) : (Fin.ofNat 256 (tStr d)).val = tStr d := Nat.mod_eq_of_lt (dfield_lt ..)

/-- The saturations of a kind 1 head's components. -/
def State.txSaturations (s : State) (d : BitVec 512) : Nat :=
  let m : Fin 256 := Fin.ofNat 256 (tStr d)
  ((s.txPrbs d).map (prbSat (s.get (OPT_ESm_CFG.meth m)) (if s.get (OPT_ESm_CFG.width m) = 0 then 16 else s.get (OPT_ESm_CFG.width m))
    (s.get (OPT_ESm_CFG.mc m) / 2) (s.get (OPT_ESm_CFG.mc m) % 2))).sum

/-- The state with the saturations of stream `m` counted further. -/
def State.addSat (s : State) (m : Fin 256) (n : Nat) : State := { s with opt := { s.opt with esat := s.opt.esat.set m.val (s.opt.esat[m.val] + n) } }

theorem State.countEgress_eq : s.countEgress d (s.txPrbs d) = s.addSat (Fin.ofNat 256 (tStr d)) (s.txSaturations d) := rfl

theorem OnPort.addSat (s : State) (m : Fin 256) (n : Nat) : OnPort p s (s.addSat m n) := ⟨fun _ _ => rfl, rfl⟩

theorem State.addSat_esat (m : Fin 256) (n : Nat) : (s.addSat m n).opt.esat[m.val] = s.opt.esat[m.val] + n := by simp [State.addSat]
theorem State.addSat_esat_other {m i : Fin 256} (hi : i ≠ m) (n : Nat) : (s.addSat m n).opt.esat[i.val] = s.opt.esat[i.val] := by
  have hv : m.val ≠ i.val := fun e => hi (Fin.ext e.symm)
  simp [State.addSat, Vector.getElem_set_ne, hv]

/-- The saturations, PRB by PRB. -/
theorem State.txSaturations_eq : s.txSaturations d = ((List.range (tLen d)).map fun i =>
    prbSat (s.get (OPT_ESm_CFG.meth (tStr d))) (if s.get (OPT_ESm_CFG.width (tStr d)) = 0 then 16 else s.get (OPT_ESm_CFG.width (tStr d)))
      (s.get (OPT_ESm_CFG.mc (tStr d)) / 2) (s.get (OPT_ESm_CFG.mc (tStr d)) % 2)
      ((List.range 12).map fun j => CInt.ofWord (BitVec.ofNat 32 (s.le (tAddr d + 48 * i + 4 * j) 4)))).sum := by
  simp only [State.txSaturations, State.txPrbs, List.map_map, tStr_val, Function.comp_def]

/-- The fields of a built message (R275). -/
theorem State.buildUPlane_fields (prbs : List (List CInt)) :
    let data := s.buildUPlane p d prbs
    let m := tStr d
    let o := if s.flag (OPT_ESm_HDR.tagged m) = true then 18 else 14
    60 ≤ data.length ∧ beAt data 0 6 = s.get (OPT_ESm_HDR.dmac m) ∧ beAt data 6 6 = s.get (OPT_Pp_CFG.mac p) ∧
      (s.flag (OPT_ESm_HDR.tagged m) = true → beAt data 12 4 = s.get (OPT_ESm_HDR.tag m)) ∧ beAt data (o - 2) 2 = 0xAEFE ∧ beAt data (o + 1) 1 = 0 ∧
      beAt data (o + 4) 2 = s.get (OPT_ESm_CFG.eaxc m) ∧ beAt data (o + 6) 1 = s.get (OPT_ESm_CFG.seq m) ∧ beAt data (o + 7) 1 = 0x80 := by
  obtain ⟨size, rest, heq⟩ := State.buildUPlane_eq (s := s) (p := p) (d := d) prbs
  have hdmac := Nat.mod_eq_of_lt (s.get_lt (OPT_ESm_HDR.dmac (tStr d)))
  have hmac := Nat.mod_eq_of_lt (s.get_lt (OPT_Pp_CFG.mac p))
  have htag := Nat.mod_eq_of_lt (s.get_lt (OPT_ESm_HDR.tag (tStr d)))
  have heaxc := Nat.mod_eq_of_lt (s.get_lt (OPT_ESm_CFG.eaxc (tStr d)))
  have hseq := Nat.mod_eq_of_lt (s.get_lt (OPT_ESm_CFG.seq (tStr d)))
  refine ⟨State.length_buildUPlane prbs, ?_⟩
  rw [heq]
  cases htagged : s.flag (OPT_ESm_HDR.tagged (tStr d)) with
  | false =>
    obtain ⟨h1, h2, h3, h4, h5, h6, h7⟩ := messageOf_fields (tag := []) (l := 0) (dmac := s.get (OPT_ESm_HDR.dmac (tStr d))) (mac := s.get (OPT_Pp_CFG.mac p))
      (size := size) (eaxc := s.get (OPT_ESm_CFG.eaxc (tStr d))) (seq := s.get (OPT_ESm_CFG.seq (tStr d))) rfl rest
    exact ⟨h1.trans hdmac, h2.trans hmac, fun h => absurd h (by simp), h3, h4, h5.trans heaxc, h6.trans hseq, h7⟩
  | true =>
    obtain ⟨h1, h2, h3, h4, h5, h6, h7⟩ := messageOf_fields (tag := bytesBE 4 (s.get (OPT_ESm_HDR.tag (tStr d)))) (l := 4)
      (dmac := s.get (OPT_ESm_HDR.dmac (tStr d))) (mac := s.get (OPT_Pp_CFG.mac p))
      (size := size) (eaxc := s.get (OPT_ESm_CFG.eaxc (tStr d))) (seq := s.get (OPT_ESm_CFG.seq (tStr d))) (length_bytesBE ..) rest
    exact ⟨h1.trans hdmac, h2.trans hmac, fun _ => (messageOf_tag rest).trans htag, h3, h4, h5.trans heaxc, h6.trans hseq, h7⟩

theorem seq_within (m : Nat) : (OPT_ESm_CFG.seq m).within (fieldWords (OPT_ESm_CFG.seq m)) = true := by
  simp [Fld.within, Fld.span, fieldWords, OPT_ESm_CFG.seq]

/-- A message on its way: the port, the counts of saturations and the stream's sequence id. -/
def State.txMessage (s : State) (p : Fin 32) (k : Fin 4) (d : BitVec 512) (q : Nat) : State :=
  ((s.addSat (Fin.ofNat 256 (tStr d)) (s.txSaturations d)).setPort p
    { s.opt.port[p.val] with sending := some (frameOf (some k) (s.buildUPlane p d (s.txPrbs d)) q) }).put
    (OPT_ESm_CFG.seq (tStr d)) (s.get (OPT_ESm_CFG.seq (tStr d)) + 1)

theorem exec_uPlaneBuild_message {sec : BitVec 48} {qns : Fin 4000000000} (h : AtBoundary p s) (he : NoErrors s) (hq : Quiet p s)
    (hr : s.opt.port[p.val].resp = []) (hk : s.txMay p (s.depart p sec qns) k d) (hhigh : ∀ j e, k < j → ¬ s.txMay p (s.depart p sec qns) j e)
    (hkind : tKind d = 1) (hon : s.rangeOn (tAddr d) (48 * tLen d) = true) (hfit : tAddr d + 48 * tLen d ≤ 0xF00000000) :
    exec (.uPlaneBuild p sec qns) s = .next (s.txMessage p k d (s.depart p sec qns)) :=
  (exec_uPlaneBuild_head h he hq hr hk hhigh hkind hon hfit).trans (by
    rw [State.countEgress_eq, State.txSend_ring, State.get_of_regs (s := s)]
    · rfl
    · rfl)

theorem OnPort.txMessage (q : Nat) : OnPort p s (s.txMessage p k d q) := (OnPort.addSat ..).trans ((OnPort.setPort ..).trans (.put ..))

theorem State.txMessage_seq (hr : Regs.wf s = true) (q : Nat) :
    (s.txMessage p k d q).get (OPT_ESm_CFG.seq (tStr d)) = (s.get (OPT_ESm_CFG.seq (tStr d)) + 1) % 256 := by
  rw [State.txMessage, State.get_put (by exact hr)]
  rfl

theorem State.txMessage_words (hr : Regs.wf s = true) (q : Nat) : WordsKept s (s.txMessage p k d q) (fieldWords (OPT_ESm_CFG.seq (tStr d))) := by
  rw [State.txMessage, wordsKept_put (by exact hr) (seq_within _)]
  exact (wordsKept_of_regs rfl).mpr (wordsKept_refl _)

theorem State.txMessage_mem (q : Nat) : (s.txMessage p k d q).mem = s.mem := State.put_mem ..

theorem State.txMessage_port (q : Nat) : (s.txMessage p k d q).opt.port[p.val] =
    { s.opt.port[p.val] with sending := some (frameOf (some k) (s.buildUPlane p d (s.txPrbs d)) q) } := by
  rw [State.txMessage, State.put_opt, State.setPort_port]

theorem State.txMessage_esat (q : Nat) : (s.txMessage p k d q).opt.esat = (s.addSat (Fin.ofNat 256 (tStr d)) (s.txSaturations d)).opt.esat := by
  rw [State.txMessage, State.put_opt, State.setPort_esat]

/-! A late head is lost (R274). -/

theorem drop_clear (p : Fin 32) : (OPT_Pp_CNT.drop p).clear OPT_CAUSE.txlate = true ∧ OPT_CAUSE.txlate.clear (OPT_Pp_CNT.drop p) = true := by
  simp only [Fld.clear_iff, Fld.span, OPT_Pp_CNT.drop, OPT_Pp_CNT.reg, OPT_CAUSE.txlate, OPT_CAUSE.reg]
  omega

theorem txEnable_clear (p : Fin 32) (j : Fin 4) :
    (OPT_Pp_CNT.drop p).clear (OPT_Pp_TXRk.en p j) = true ∧ OPT_CAUSE.txlate.clear (OPT_Pp_TXRk.en p j) = true := by
  simp only [Fld.clear_iff, Fld.span, OPT_Pp_CNT.drop, OPT_Pp_CNT.reg, OPT_CAUSE.txlate, OPT_CAUSE.reg, OPT_Pp_TXRk.en, OPT_Pp_TXRk.reg]
  omega

/-- The words that the loss of a late head writes. -/
def lossWords (p : Fin 32) : List Nat := fieldWords (OPT_Pp_CNT.drop p) ++ fieldWords OPT_CAUSE.txlate

theorem drop_within (p : Fin 32) : (OPT_Pp_CNT.drop p).within (lossWords p) = true := by
  simp [Fld.within, Fld.span, lossWords, fieldWords, OPT_Pp_CNT.drop]

theorem txlate_within (p : Fin 32) : OPT_CAUSE.txlate.within (lossWords p) = true := by
  simp [Fld.within, Fld.span, lossWords, fieldWords, OPT_CAUSE.txlate]

/-- The counts of a lost head beside its end in the ring. -/
theorem State.txLost_regs (h : Regs.wf s = true) (hend : Ends p k 2 s (s.txEnd p k 2)) : Counted (OPT_Pp_CNT.drop p) s (s.txLost p k) ∧
    (s.txLost p k).get OPT_CAUSE.txlate = 1 ∧ WordsKept s (s.txLost p k) (lossWords p) ∧
    ∀ j : Fin 4, (s.txLost p k).flag (OPT_Pp_TXRk.en p j) = s.flag (OPT_Pp_TXRk.en p j) := by
  have hregs := hend.regs
  rw [State.txLost, State.countUp]
  generalize s.txEnd p k 2 = e at hregs
  have he : Regs.wf e = true := (Regs.wf_of_regs hregs).trans h
  obtain ⟨hdl, hld⟩ := drop_clear p
  refine ⟨?_, ?_, ?_, fun j => ?_⟩
  · rw [Counted, State.get_raise, State.get_put_clear (Regs.wf_put he ..) _ hld, State.get_put he, State.get_of_regs hregs]
    exact Nat.mod_eq_of_lt ((Nat.min_le_right ..).trans_lt (by norm_num [OPT_Pp_CNT.drop]))
  · rw [State.get_raise, State.get_put (Regs.wf_put he ..)]
    rfl
  · rw [wordsKept_raise, wordsKept_put (Regs.wf_put he ..) (txlate_within p), wordsKept_put he (drop_within p), wordsKept_of_regs hregs]
    exact wordsKept_refl _
  · obtain ⟨hd, hl⟩ := txEnable_clear p j
    rw [State.flag, State.get_raise, State.get_put_clear (Regs.wf_put he ..) _ hl, State.get_put_clear he _ hd, State.get_of_regs hregs, State.flag]

theorem State.txLost_mem : (s.txLost p k).mem = (s.txEnd p k 2).mem := (State.raise_mem ..).trans (State.put_mem ..)
theorem State.txLost_opt : (s.txLost p k).opt = (s.txEnd p k 2).opt := (State.raise_opt ..).trans (State.put_opt ..)

theorem State.tx_of_opt (h : u.opt = t.opt) (j : Fin 4) : u.tx p j = t.tx p j := by rw [State.tx, State.tx, h]

theorem OnPort.txLost (h : OnPort p s (s.txEnd p k 2)) : OnPort p s (s.txLost p k) := h.trans ((OnPort.put ..).trans (.raise ..))

/-- A ring whose only descriptor is late loses it, and then holds none. -/
theorem State.txLost_ring (hend : Ends p k 2 s (s.txEnd p k 2)) (hlast : (s.tx p k).prod = s.txCons p k + 1) :
    (s.txLost p k).tx p k = ⟨(s.tx p k).prod, none⟩ := by rw [State.tx_of_opt State.txLost_opt, hend.tx, if_pos hlast]

theorem exec_frameTransmit_late {sec : BitVec 48} {qns : Fin 4000000000} (h : AtBoundary p s) (hregs : Regs.wf s = true)
    (hend : Ends p k 2 s (s.txEnd p k 2)) (hr : s.opt.port[p.val].resp = []) (honly : ∀ j : Fin 4, j ≠ k → s.flag (OPT_Pp_TXRk.en p j) = false)
    (hen : s.flag (OPT_Pp_TXRk.en p k) = true) (hh : (s.tx p k).head = some d) (hbad : s.txBad d = false) (hlate : s.txLate p d = true)
    (hlast : (s.tx p k).prod = s.txCons p k + 1) : exec (.frameTransmit p sec qns) s = .next (s.txLost p k) := by
  obtain ⟨-, -, -, hflag⟩ := State.txLost_regs hregs hend
  have hring := State.txLost_ring hend hlast
  have hskip : s.txSkipped p = s.txLost p k := State.txSkipped_late honly hen hh hbad hlate hflag (by rw [hring])
  have hresp : (s.txLost p k).opt.port[p.val].resp = [] := by rw [State.txLost_opt, hend.ring.resp, hr]
  have hnone : (s.txLost p k).txPick p ((s.txLost p k).depart p sec qns) = none := State.txPick_none fun j hj => by
    rw [hflag] at hj
    rcases eq_or_ne j k with rfl | hne
    · rw [hring]
    · rw [honly j hne] at hj
      cases hj
  change execFrameTransmit p sec qns s = _
  rw [execFrameTransmit, txBoundary_nothing h (by rw [hskip]; exact hresp) (by rw [hskip]; exact hnone), hskip]

end Sys2Proof.Machine
end

section

namespace Sys2Proof.Machine

open Sys2Proof.Claims

variable {s t u : State} {p : Fin 32} {k : Fin 4} {d : BitVec 512}

/-! A ring's frame has left (R274). -/

theorem State.txDone_tx (j : Fin 4) : (s.txDone p).tx p j = s.tx p j := by rw [State.tx, State.txDone, State.setPort_port, State.tx]

theorem State.le_congr {a n : Nat} (h : ∀ i, i < n → u.byte (a + i) = s.byte (a + i)) : u.le a n = s.le a n := by
  rw [State.le, State.bytes_congr h, State.le]

/-- The state in which a ring's frame has its t_dep written, its head still to be ended. -/
def State.txStamped (s : State) (p : Fin 32) (k : Fin 4) (f : TxFrame) : State :=
  (s.txDone p).sysWrite (s.txHead p k + 50) (bytesOf 6 f.sec.toNat ++ bytesOf 4 f.qns)

theorem State.txStamped_stored (hc : Clocked s) (hf : TxFits p k s) (f : TxFrame) :
    StoredAt (s.txSlot p k (s.txCons p k) + 50) (bytesOf 6 f.sec.toNat ++ bytesOf 4 f.qns) (s.txDone p) (s.txStamped p k f) := by
  have hhi := (State.txSlot_bounds hf (s.txCons p k)).2
  refine State.sysWrite_stored (hc.of (State.setPort_regs _) rfl) _ _ ?_
  rw [List.length_append, length_bytesOf, length_bytesOf]
  omega

/-- What the completion of a ring's frame leaves. -/
structure Departs (p : Fin 32) (k : Fin 4) (f : TxFrame) (s u : State) : Prop where
  port : OnPort p s u
  regs : u.regs = s.regs
  esat : u.opt.esat = s.opt.esat
  sending : u.opt.port[p.val].sending = none
  resp : u.opt.port[p.val].resp = s.opt.port[p.val].resp
  status : u.le (s.txSlot p k (s.txCons p k) + 48) 1 = 1
  sec : u.le (s.txSlot p k (s.txCons p k) + 50) 6 = f.sec.toNat
  qns : u.le (s.txSlot p k (s.txCons p k) + 56) 4 = f.qns % 2 ^ 32
  cons : u.le (s.txBase p k + 4) 4 = (s.txCons p k + 1).toNat
  bytes : ∀ z, z ≠ s.txSlot p k (s.txCons p k) + 48 → (z < s.txSlot p k (s.txCons p k) + 50 ∨ s.txSlot p k (s.txCons p k) + 60 ≤ z) →
    (z < s.txBase p k + 4 ∨ s.txBase p k + 8 ≤ z) → u.byte z = s.byte z
  others : ∀ j, j ≠ k → u.tx p j = s.tx p j
  tx : u.tx p k = ⟨(s.tx p k).prod, if (s.tx p k).prod = s.txCons p k + 1 then none else
    some (BitVec.ofNat 512 (u.le (s.txSlot p k (s.txCons p k + 1)) 64))⟩

theorem State.txStamped_departs (hc : Clocked s) (he : NoErrors s) (hw : Memory.wf s = true) (hf : TxFits p k s) (f : TxFrame) :
    Departs p k f s ((s.txStamped p k f).txEnd p k 1) := by
  have hst := State.txStamped_stored hc hf f
  obtain ⟨hlo, hhi⟩ := State.txSlot_bounds hf (s.txCons p k)
  generalize s.txStamped p k f = t at hst ⊢
  have hlen : (bytesOf 6 f.sec.toNat ++ bytesOf 4 f.qns).length = 10 := by rw [List.length_append, length_bytesOf, length_bytesOf]
  have hwd : Memory.wf (s.txDone p) = true := hw
  have hr : t.regs = s.regs := hst.regs
  have hp : t.pwr = s.pwr := hst.pwr
  have hbase : t.txBase p k = s.txBase p k := State.txBase_of_regs hr
  have hslot (c : BitVec 32) : t.txSlot p k c = s.txSlot p k c := State.txSlot_of_regs hr c
  have hcons : t.txCons p k = s.txCons p k := State.txCons_of hr ((hst.bytes_other hwd (by omega)).trans (State.bytes_of_mem rfl ..))
  have htx (j : Fin 4) : t.tx p j = s.tx p j := (State.tx_of_opt hst.opt j).trans (State.txDone_tx j)
  obtain ⟨hring, hregs, -, -, hstatus, hcons', hbytes, htx'⟩ := State.txEnd_ends (hc.of hr hp) (hst.noErrors he) (hst.wf hwd) (hf.of_regs hr) (show 1 < 256 by norm_num)
  generalize t.txEnd p k 1 = u at hring hregs hstatus hcons' hbytes htx' ⊢
  rw [hcons, hslot] at hstatus hbytes
  rw [hcons, hbase] at hcons'
  rw [hbase] at hbytes
  rw [hcons, hslot, htx] at htx'
  have hkeep (i n : Nat) (hi : 50 ≤ i) (hn : i + n ≤ 64) : u.le (s.txSlot p k (s.txCons p k) + i) n = t.le (s.txSlot p k (s.txCons p k) + i) n :=
    State.le_congr fun j hj => hbytes _ (by omega) (by omega)
  obtain ⟨hsec, hqns⟩ := hst.le_pair hwd
  refine ⟨(OnPort.setPort s _).trans ((OnPort.of_mem hst.beside).trans hring.toOnPort), hregs.trans hr, hring.esat.trans (by rw [hst.opt]; rfl), ?_, ?_, hstatus,
    ?_, ?_, hcons', fun z hz hz' hz'' => ?_, fun j hj => (hring.tx j hj).trans (htx j), htx'⟩
  · rw [hring.sending, hst.opt, State.txDone, State.setPort_port]
  · rw [hring.resp, hst.opt, State.txDone, State.setPort_port]
  · rw [hkeep 50 6 (by norm_num) (by norm_num), hsec]
    exact Nat.mod_eq_of_lt f.sec.isLt
  · rw [hkeep 56 4 (by norm_num) (by norm_num)]
    exact hqns
  · rw [hbytes z hz hz'']
    exact (hst.byte_other hwd (by omega)).trans rfl

/-! A poll (R273). -/

/-- A ring with its prod read anew, and its head prefetched where it has none. -/
theorem State.txPolled_fields (hc : Clocked s) (he : NoErrors s) (hf : TxFits p k s) (prod : BitVec 32) :
    let u := (s.withTx p k fun x => { x with prod := prod }).txPrefetch p k
    OnRing p k s u ∧ u.regs = s.regs ∧ u.mem = s.mem ∧ u.tx p k = ⟨prod, if (s.tx p k).head.isSome = true then (s.tx p k).head else
      if prod = s.txCons p k then none else some (BitVec.ofNat 512 (s.le (s.txSlot p k (s.txCons p k)) 64))⟩ := by
  have hregs : (s.withTx p k fun x => { x with prod := prod }).regs = s.regs := State.withTx_regs _
  have hmem : (s.withTx p k fun x => { x with prod := prod }).mem = s.mem := State.withTx_mem _
  obtain ⟨hring, hr, hm, -, htx⟩ := State.txPrefetch_fields (s := s.withTx p k fun x => { x with prod := prod }) (p := p) (k := k)
    (hc.of hregs (State.withTx_pwr _)) (noErrors_withTx he _) (hf.of_regs hregs)
  rw [State.tx_withTx, State.txCons_of hregs (State.bytes_of_mem hmem ..), State.txSlot_of_regs hregs, State.le_of_mem hmem] at htx
  exact ⟨(OnRing.withTx s _).trans hring, hr.trans hregs, hm.trans hmem, htx⟩

end Sys2Proof.Machine

namespace Sys2Proof.Proofs

open Sys2Proof.Machine Sys2Proof.Claims

/-- Settles O50: at a boundary without a late head the skipping of heads is idle and the choice is the highest ring that may send; a late head
that is the last of the only enabled ring is lost and leaves nothing to choose; the end of a head stores apart from every other byte. -/
theorem framesLeaveAtBoundaries : Obligations.FramesLeaveAtBoundaries := by
  unfold Obligations.FramesLeaveAtBoundaries
  intro s p k sec qns hr hregs hmem he hon base l cons slot head hfit hrings pt counts rings q quiet ready sends idle
  have hc : Clocked s := clocked_of hr (by norm_num)
  have hf : TxFits p k s := hfit
  have boundary (hi : idle) : AtBoundary p s := ⟨hr, hi.1, hi.2, hrings⟩
  have hcounts {u : State} (h : OnPort p s u) : counts u := ⟨h.others, h.eq⟩
  have hsend (x : Port) : rings (s.setPort p x) ∧ (s.setPort p x).regs = s.regs ∧ (s.setPort p x).mem = s.mem :=
    ⟨⟨hcounts (.setPort s x), State.setPort_esat x⟩, State.setPort_regs x, State.setPort_mem x⟩
  refine ⟨fun hen hm => ?poll, fun r rest hi hq hresp => ?response, fun d hi hq hresp hk hhigh => ⟨fun hkind hron hfit => ?data, fun hkind hron hfit => ?message⟩,
    fun d hi hresp honly hen hh hbad hlate hlast => ?late, fun f hs hn => ?responseLeft, fun f hs hn => ?frameLeft⟩
  case poll =>
    obtain ⟨hring, hr', hm', htx⟩ := State.txPolled_fields hc he hf (BitVec.ofNat 32 (s.le (s.txBase p k) 4))
    exact completes_of_exec (exec_txRingPoll hr he hf hen hm hon) ⟨htx, hring.tx, hring.resp, hring.sending, ⟨hcounts hring.toOnPort, hring.esat⟩, hr', hm'⟩
  case response =>
    have hexec := exec_frameTransmit_response (sec := sec) (qns := qns) (boundary hi) hq hresp
    rw [State.txSend_response, hresp] at hexec
    exact completes_of_exec hexec ⟨State.setPort_port _, hsend _⟩
  case data =>
    have hexec := exec_frameTransmit_head (boundary hi) he hq hresp hk hhigh hkind hron hfit
    rw [State.txSend_ring] at hexec
    exact completes_of_exec hexec ⟨State.setPort_port _, hsend _⟩
  case message =>
    have hport := State.txMessage_port (s := s) (p := p) (k := k) (d := d) q
    have hfields := State.buildUPlane_fields (s := s) (p := p) (d := d) (s.txPrbs d)
    have hseq := State.txMessage_seq (p := p) (k := k) (d := d) hregs q
    have hwords := State.txMessage_words (p := p) (k := k) (d := d) hregs q
    refine completes_of_exec (exec_uPlaneBuild_message (boundary hi) he hq hresp hk hhigh hkind hron hfit) ?_
    simp only [tStr_val]
    refine ⟨⟨_, hport, hfields⟩, hseq, hcounts (.txMessage q), fun i hi => ?_, ?_, State.txMessage_mem q, hwords⟩
    · rw [State.txMessage_esat]
      exact State.addSat_esat_other hi _
    · simp only [State.txMessage_esat, ← State.txSaturations_eq]
      simpa only [tStr_val] using State.addSat_esat (s := s) (Fin.ofNat 256 (tStr d)) (s.txSaturations d)
  case late =>
    have hend := State.txEnd_ends (status := 2) hc he hmem hf (by norm_num)
    obtain ⟨hdrop, hcause, hwords, -⟩ := State.txLost_regs hregs hend
    refine completes_of_exec (exec_frameTransmit_late (boundary hi) hregs hend hresp honly hen hh hbad hlate hlast) ?_
    refine ⟨?_, ?_, State.txLost_ring hend hlast, fun j hj => (State.tx_of_opt State.txLost_opt j).trans (hend.ring.tx j hj), ?_, ?_, hdrop, hcause,
      fun z hz hz' => ?_, ⟨hcounts (.txLost hend.ring.toOnPort), ?_⟩, hwords⟩
    · rw [State.le_of_mem State.txLost_mem]
      exact hend.status
    · rw [State.le_of_mem State.txLost_mem]
      exact hend.cons
    · rw [State.txLost_opt, hend.ring.sending, hi.2]
    · rw [State.txLost_opt, hend.ring.resp, hresp]
    · rw [State.byte, State.txLost_mem]
      exact hend.bytes z hz hz'
    · rw [State.txLost_opt, hend.ring.esat]
  case responseLeft =>
    exact completes_of_exec (exec_transmitCompletion_response hr hs hn) ⟨State.setPort_port _, hsend _⟩
  case frameLeft =>
    have h := State.txStamped_departs hc he hmem hf f
    exact completes_of_exec (exec_transmitCompletion_ring hr hs hn hon) ⟨h.status, h.sec, h.qns, h.cons, h.bytes, h.tx, h.others, h.sending, h.resp,
      ⟨hcounts h.port, h.esat⟩, h.regs⟩

end Sys2Proof.Proofs
end
